-- ==== Sys2Proof/Word.lean ====
section
/-! DEFINITION. The machine's words: widths the spec fixes (spec/00 R4, spec/01 R15, spec/03 R41). -/

namespace Sys2Proof

/-- One byte of memory. -/
abbrev Byte := BitVec 8

/-- A 32-bit lane-register value (R15). -/
abbrev Word32 := BitVec 32

/-- A 64-bit uniform-register value (R15). -/
abbrev Word64 := BitVec 64

/-- One instruction word or clause header: 96 bits (R41, R57). -/
abbrev Word96 := BitVec 96

/-- A set of lanes of one group: bit L stands for lane L (R6). -/
abbrev Lanes := BitVec 32

end Sys2Proof
end

