-- ==== Sys2Proof/Machine/Sparse.lean ====
section
/-! DEFINITION. Sparse maps: a list of key and value pairs with rising keys and no entry equal to the default, so that equal
contents are equal data. Memory, the local stores, the register files and the accumulator banks are held in this form. -/

namespace Sys2Proof.Machine

/-- A sparse map from naturals. -/
abbrev Map (β : Type) := List (Nat × β)

/-- The value at a key; `d` is what an unlisted key reads as. -/
def mget {β : Type} (d : β) : Map β → Nat → β
  | [], _ => d
  | (k', v) :: r, k => if k' = k then v else mget d r k

/-- Writing a key; writing the default removes the entry. -/
def mset {β : Type} [DecidableEq β] (d : β) : Map β → Nat → β → Map β
  | [], k, v => if v = d then [] else [(k, v)]
  | (k', v') :: r, k, v =>
    if k < k' then (if v = d then (k', v') :: r else (k, v) :: (k', v') :: r)
    else if k = k' then (if v = d then r else (k, v) :: r)
    else (k', v') :: mset d r k v

/-- Whether every key of a map is at least `lo`, the keys rise and no entry is the default. -/
def mwfFrom {β : Type} [DecidableEq β] (d : β) : Nat → Map β → Bool
  | _, [] => true
  | lo, (k, v) :: r => decide (lo ≤ k) && decide (v ≠ d) && mwfFrom d (k + 1) r

/-- The canonical form of a map. -/
def mwf {β : Type} [DecidableEq β] (d : β) (m : Map β) : Bool := mwfFrom d 0 m

/-- Replaces the entry with a given key in a list of keyed records; nothing happens where there is none. -/
def modifyKey {α : Type} (key : α → Nat) (k : Nat) (f : α → α) : List α → List α
  | [] => []
  | x :: r => if key x = k then f x :: r else x :: modifyKey key k f r

/-- The first record with a given key. -/
def findKey {α : Type} (key : α → Nat) (k : Nat) : List α → Option α
  | [] => none
  | x :: r => if key x = k then some x else findKey key k r

/-- Removes the records with a given key. -/
def dropKey {α : Type} (key : α → Nat) (k : Nat) (l : List α) : List α := l.filter fun x => key x ≠ k

/-- The naturals from `a` on, `n` of them. -/
def range (a : Nat) : Nat → List Nat
  | 0 => []
  | n + 1 => a :: range (a + 1) n

/-- The lanes 0 to 31 in increasing order. -/
def allLanes : List Nat := range 0 32

/-- The lanes of a mask in increasing order. -/
def lanesOf (m : Lanes) : List Nat := allLanes.filter fun l => m.getLsbD l

/-- The mask of the lanes that satisfy a predicate. -/
def maskOf (f : Nat → Bool) : Lanes := allLanes.foldl (fun m l => if f l then m ||| (1#32 <<< l) else m) 0#32

/-- Little-endian bytes of a value (R4). -/
def bytesLE (w : Nat) : Nat → List Byte
  | 0 => []
  | n + 1 => BitVec.ofNat 8 w :: bytesLE (w / 256) n

/-- The value of little-endian bytes (R4). -/
def valueLE : List Byte → Nat
  | [] => 0
  | b :: r => b.toNat + 256 * valueLE r

/-- Bits [hi:lo] of a natural, as a natural (R4). -/
def bits (x hi lo : Nat) : Nat := x / 2 ^ lo % 2 ^ (hi + 1 - lo)

/-- Bit `i` of a natural. -/
def bitOf (x i : Nat) : Bool := x / 2 ^ i % 2 == 1

end Sys2Proof.Machine
end

