-- ==== Sys2Proof/Machine/Crc.lean ====
section
/-! DEFINITION. The CRC-32 of context images and lockstep signatures (R123, R420, log 18). -/

namespace Sys2Proof.Machine

/-- Eight steps of the reflected polynomial 0xEDB88320. -/
def crcBits (c : Word32) : Nat → Word32
  | 0 => c
  | n + 1 => crcBits (if c.getLsbD 0 then (c >>> 1) ^^^ 0xEDB88320#32 else c >>> 1) n

def crcStep (c : Word32) : List Byte → Word32
  | [] => c
  | b :: r => crcStep (crcBits (c ^^^ b.setWidth 32) 8) r

/-- CRC-32 of a byte string. -/
def crc32 (bs : List Byte) : Word32 := ~~~(crcStep 0xFFFFFFFF#32 bs)

end Sys2Proof.Machine
end

