-- ==== Sys2Proof/Syntax.lean ====
section
/-! DEFINITION. The syntax: the codes of spec/03 R43 and R45, the operand forms, and `Instr`, with one constructor for
every row of spec/opcode_table.json. The first part of `Instr` holds the instruction words of the opcode map (R60) with
their fields turned into operands; the second part holds the machine's and the outside world's steps (spec/95), each
with the agent that acts and the choices the spec leaves open to that step. -/

namespace Sys2Proof

/-- Type codes 0x0 to 0xF (R43). -/
inductive Ty where
  | s8 | s16 | s32 | s64 | n8 | n16 | n32 | n64
  | f32 | f16 | bf16 | e4m3 | e5m2 | i4 | i3 | e8m0
  deriving DecidableEq, Repr

/-- Rounding codes 0b000 to 0b100 (R43, R78). -/
inductive Rnd where
  | rne | rtz | rdn | rup | sr
  deriving DecidableEq, Repr

/-- Scope codes 0x0 to 0x8, narrowest first (R43, R264). -/
inductive Scope where
  | grp | blk | pch | quad | part | dev | host | pool | fab
  deriving DecidableEq, Repr

/-- Ordering codes (R43). -/
inductive Ord where
  | none | acq | rel | ar
  deriving DecidableEq, Repr

/-- Conditions of `ISET`, codes 0b000 to 0b101 (R138). -/
inductive Cond where
  | eq | ne | lt | le | gt | ge
  deriving DecidableEq, Repr

/-- Conditions of `FSET`, codes 0b000 to 0b111 (R164). -/
inductive FCond where
  | eq | ne | lt | le | gt | ge | num | nan
  deriving DecidableEq, Repr

/-- Modes of `SHFL` (R173). -/
inductive ShflMode where
  | idx | up | down | xor
  deriving DecidableEq, Repr

/-- Modes of `VOTE` (R174). -/
inductive VoteMode where
  | all | any | uni | ballot
  deriving DecidableEq, Repr

/-- Operations of `REDG` and `SCANG` (R175). -/
inductive RedOp where
  | add | min | max | and | or | xor
  deriving DecidableEq, Repr

/-- Operations of `ATOM`, `RED` and `ATOMS` (R188). -/
inductive AtomOp where
  | add | min | max | and | or | xor | exch | cas
  deriving DecidableEq, Repr

/-- Window selectors 0 to 8 (R40, R191). -/
inductive Win where
  | own | north | northEast | east | southEast | south | southWest | west | northWest
  deriving DecidableEq, Repr

/-- A register destination, lane side or uniform side (R41 field U). -/
inductive Dst where
  | lane (r : BitVec 8)
  | uni (r : BitVec 6)
  deriving DecidableEq, Repr

/-- A predicate, lane side (`p0` to `p7`) or uniform side (`q0` to `q3`) (R46). -/
inductive PReg where
  | lane (p : BitVec 3)
  | uni (q : BitVec 2)
  deriving DecidableEq, Repr

/-- A register source (R45: classes lane and uniform). -/
inductive RSrc where
  | lane (r : BitVec 8)
  | uni (r : BitVec 6)
  deriving DecidableEq, Repr

/-- A source of any class of the B operand (R45). -/
inductive Src where
  | lane (r : BitVec 8)
  | uni (r : BitVec 6)
  | imm (v : BitVec 32)
  | cbank (bank : BitVec 4) (off : BitVec 32)
  deriving DecidableEq, Repr

/-- The B operand of the barrier instructions and of `SLEEP`: a uniform register or an immediate (R198, R209). -/
inductive USrc where
  | uni (r : BitVec 6)
  | imm (v : BitVec 32)
  deriving DecidableEq, Repr

/-- The address form of a memory operand: base plus a lane index, or base plus a signed offset (R185, R191). -/
inductive MemIx where
  | idx (v : BitVec 8)
  | off (i : BitVec 32)
  deriving DecidableEq, Repr

/-- The value operand of an atomic (R188): an immediate, or a value and a compare register. -/
inductive AtomVal where
  | imm (v : BitVec 24)
  | reg (v : RSrc) (cmp : RSrc)
  deriving DecidableEq, Repr

/-- Guard and hint fields, common to every instruction word (R52, R53). -/
structure Ctl where
  gn : Bool := false
  gp : BitVec 3 := 7
  stall : BitVec 4 := 0
  yld : Bool := false
  pair : Bool := false
  fsel : Bool := false
  fset : Bool := false
  reua : Bool := false
  reub : Bool := false
  deriving DecidableEq, Repr

/-- The fields of a clause header (R57); `rsv` is its reserved field [61:0]. -/
structure Header where
  len : BitVec 4
  wait : BitVec 12
  f0v : Bool
  f0n : BitVec 4
  f1v : Bool
  f1n : BitVec 4
  rsv : BitVec 62
  deriving DecidableEq, Repr

/-- What a detector reports of a sector or word that was read (R398). -/
inductive ErrKind where
  | none | corrected | uncorrectable
  deriving DecidableEq, Repr

/-- Where `LAUNCH_ENTRY_START` takes its launch from (R355): a queue slot or a pending-launch entry. -/
inductive LaunchFrom where
  | slot (n : Nat)
  | pending (id : Nat)
  deriving DecidableEq, Repr

/-- One instruction word, or one step of the machine or of the outside world: one constructor per row of
spec/opcode_table.json. -/
inductive Instr where
  -- clause header and reserved opcodes (R57, R61)
  | clause (h : Header)
  | reservedOpcode (opc : BitVec 8) (rest : BitVec 88)
  -- integer arithmetic (R130)
  | iadd (c : Ctl) (t : Ty) (sat : Bool) (d : Dst) (a : RSrc) (b : Src)
  | iaddc (c : Ctl) (t : Ty) (d : Dst) (a : RSrc) (b : Src) (pn : BitVec 3)
  | isub (c : Ctl) (t : Ty) (sat : Bool) (d : Dst) (a : RSrc) (b : Src)
  | imul (c : Ctl) (t : Ty) (d : Dst) (a : RSrc) (b : Src)
  | imulh (c : Ctl) (t : Ty) (d : Dst) (a : RSrc) (b : Src)
  | imad (c : Ctl) (t : Ty) (d : Dst) (a : RSrc) (b : RSrc) (e : RSrc)
  | imin (c : Ctl) (t : Ty) (d : Dst) (a : RSrc) (b : Src)
  | imax (c : Ctl) (t : Ty) (d : Dst) (a : RSrc) (b : Src)
  | iabs (c : Ctl) (t : Ty) (sat : Bool) (d : Dst) (a : RSrc)
  | clmul (c : Ctl) (t : Ty) (hi : Bool) (d : Dst) (a : RSrc) (b : Src)
  -- shifts, counts, logic (R133, R135)
  | shl (c : Ctl) (t : Ty) (d : Dst) (a : RSrc) (b : Src)
  | shr (c : Ctl) (t : Ty) (d : Dst) (a : RSrc) (b : Src)
  | sar (c : Ctl) (t : Ty) (d : Dst) (a : RSrc) (b : Src)
  | rotl (c : Ctl) (t : Ty) (d : Dst) (a : RSrc) (b : Src)
  | blut (c : Ctl) (t : Ty) (d : Dst) (a : RSrc) (b : Src) (lut : BitVec 8)
  | and (c : Ctl) (t : Ty) (d : Dst) (a : RSrc) (b : Src)
  | or (c : Ctl) (t : Ty) (d : Dst) (a : RSrc) (b : Src)
  | xor (c : Ctl) (t : Ty) (d : Dst) (a : RSrc) (b : Src)
  | not (c : Ctl) (t : Ty) (d : Dst) (a : RSrc)
  | popc (c : Ctl) (t : Ty) (d : Dst) (a : RSrc)
  | clz (c : Ctl) (t : Ty) (d : Dst) (a : RSrc)
  | ctz (c : Ctl) (t : Ty) (d : Dst) (a : RSrc)
  | brev (c : Ctl) (t : Ty) (d : Dst) (a : RSrc)
  | bswap (c : Ctl) (t : Ty) (d : Dst) (a : RSrc)
  -- fields, compares, selects, moves (R137 to R143)
  | bfx (c : Ctl) (t : Ty) (d : Dst) (a : RSrc) (b : Src)
  | bfi (c : Ctl) (t : Ty) (d : Dst) (a : RSrc) (b : RSrc) (e : RSrc)
  | iset (c : Ctl) (t : Ty) (cc : Cond) (d : PReg) (a : RSrc) (b : Src)
  | sel (c : Ctl) (t : Ty) (d : Dst) (a : RSrc) (b : Src) (pn : BitVec 3) (neg : Bool)
  | mov (c : Ctl) (t : Ty) (d : Dst) (b : Src)
  | movi (c : Ctl) (t : Ty) (d : BitVec 8) (b : Src) (step : BitVec 8)
  | movh (c : Ctl) (d : Dst) (a : RSrc) (hi : BitVec 32)
  | lea (c : Ctl) (t : Ty) (d : Dst) (a : RSrc) (b : RSrc) (n : BitVec 6)
  | bysel (c : Ctl) (d : Dst) (a : RSrc) (b : RSrc) (sel : BitVec 20)
  -- control flow (R150)
  | bra (c : Ctl) (disp : BitVec 32) (rcv : BitVec 24)
  | brx (c : Ctl) (a : RSrc) (point : BitVec 32)
  | call (c : Ctl) (n : BitVec 6) (disp : BitVec 32)
  | ret (c : Ctl) (n : BitVec 6)
  | reconv (c : Ctl)
  | join (c : Ctl)
  | loop (c : Ctl) (n : BitVec 6) (disp : BitVec 32)
  -- floating point (R160, R162)
  | fadd (c : Ctl) (rm : Rnd) (d : Dst) (a : RSrc) (b : Src)
  | fmul (c : Ctl) (rm : Rnd) (d : Dst) (a : RSrc) (b : Src)
  | ffma (c : Ctl) (rm : Rnd) (d : Dst) (a : RSrc) (b : RSrc) (e : RSrc)
  | fmin (c : Ctl) (t : Ty) (d : Dst) (a : RSrc) (b : Src)
  | fmax (c : Ctl) (t : Ty) (d : Dst) (a : RSrc) (b : Src)
  | fset (c : Ctl) (t : Ty) (cc : FCond) (d : PReg) (a : RSrc) (b : Src)
  | fclass (c : Ctl) (t : Ty) (d : PReg) (a : RSrc) (mask : BitVec 9)
  | frnd (c : Ctl) (t : Ty) (rm : Rnd) (d : Dst) (a : RSrc)
  | twadd (c : Ctl) (t : Ty) (rm : Rnd) (d : Dst) (a : RSrc) (b : Src)
  | twmul (c : Ctl) (t : Ty) (rm : Rnd) (d : Dst) (a : RSrc) (b : Src)
  | twfma (c : Ctl) (t : Ty) (rm : Rnd) (d : Dst) (a : RSrc) (b : RSrc) (e : RSrc)
  | cvt (c : Ctl) (satf : Bool) (dt : Ty) (st : Ty) (rm : Rnd) (d : Dst) (a : RSrc)
  | pack (c : Ctl) (t : Ty) (rm : Rnd) (satf : Bool) (h : Bool) (d : Dst) (a : RSrc) (b : RSrc)
  | unpack (c : Ctl) (t : Ty) (d : Dst) (a : RSrc) (sel : BitVec 6)
  | rcp (c : Ctl) (t : Ty) (d : Dst) (a : RSrc)
  | rsq (c : Ctl) (t : Ty) (d : Dst) (a : RSrc)
  | sqrt (c : Ctl) (t : Ty) (d : Dst) (a : RSrc)
  | ex2 (c : Ctl) (t : Ty) (d : Dst) (a : RSrc)
  | lg2 (c : Ctl) (t : Ty) (d : Dst) (a : RSrc)
  | sin (c : Ctl) (t : Ty) (d : Dst) (a : RSrc)
  | cos (c : Ctl) (t : Ty) (d : Dst) (a : RSrc)
  | tanh (c : Ctl) (t : Ty) (d : Dst) (a : RSrc)
  -- cross-lane (R173 to R180)
  | shfl (c : Ctl) (t : Ty) (mode : ShflMode) (d : BitVec 8) (a : BitVec 8) (b : Src) (seg : BitVec 3)
  | vote (c : Ctl) (mode : VoteMode) (u : Bool) (d : BitVec 8) (p : BitVec 3) (neg : Bool)
  | redg (c : Ctl) (op : RedOp) (t : Ty) (d : Dst) (a : BitVec 8)
  | scang (c : Ctl) (op : RedOp) (t : Ty) (exc : Bool) (d : BitVec 8) (a : BitVec 8)
  | matchLanes (c : Ctl) (all : Bool) (t : Ty) (d : BitVec 8) (a : BitVec 8)
  | pset (c : Ctl) (d : PReg) (a b e : PReg) (lut : BitVec 8)
  | p2s (c : Ctl) (d : Dst) (mask : BitVec 8)
  | s2p (c : Ctl) (u : Bool) (a : RSrc) (mask : BitVec 8)
  -- memory (R185 to R196)
  | ld (c : Ctl) (t : Ty) (sc : Scope) (o : Ord) (d : Dst) (base : BitVec 6) (ix : MemIx)
  | st (c : Ctl) (t : Ty) (sc : Scope) (o : Ord) (d : BitVec 8) (base : BitVec 6) (ix : MemIx)
  | lds (c : Ctl) (t : Ty) (w : Win) (d : Dst) (a : RSrc) (ix : MemIx)
  | sts (c : Ctl) (t : Ty) (w : Win) (d : BitVec 8) (a : RSrc) (ix : MemIx)
  | ldc (c : Ctl) (t : Ty) (d : Dst) (ix : RSrc) (bank : BitVec 4) (off : BitVec 32)
  | pref (c : Ctl) (tb : Bool) (base : BitVec 6) (ix : MemIx)
  | atom (c : Ctl) (t : Ty) (sc : Scope) (o : Ord) (d : Dst) (base : BitVec 6) (ix : Option (BitVec 8))
      (op : AtomOp) (f : Bool) (v : AtomVal)
  | atoms (c : Ctl) (t : Ty) (w : Win) (d : Dst) (a : RSrc) (ix : Option (BitVec 8))
      (op : AtomOp) (f : Bool) (v : AtomVal)
  | red (c : Ctl) (t : Ty) (sc : Scope) (o : Ord) (base : BitVec 6) (ix : Option (BitVec 8))
      (op : AtomOp) (f : Bool) (v : AtomVal)
  | fence (c : Ctl) (o : Ord) (sc : Scope)
  | afence (c : Ctl) (sc : Scope)
  | commit (c : Ctl)
  | mark (c : Ctl) (nl : BitVec 5) (a : BitVec 8) (nu : BitVec 5) (b : BitVec 6) (disp : BitVec 24)
  -- barriers and rings (R198, R202)
  | binit (c : Ctl) (w : Win) (sc : Scope) (a : BitVec 6) (v : USrc)
  | barr (c : Ctl) (w : Win) (sc : Scope) (a : BitVec 6) (v : USrc)
  | bexp (c : Ctl) (w : Win) (sc : Scope) (a : BitVec 6) (v : USrc)
  | bwait (c : Ctl) (w : Win) (sc : Scope) (d : PReg) (a : BitVec 6) (ph : BitVec 6) (t : BitVec 32)
  | btry (c : Ctl) (w : Win) (sc : Scope) (d : PReg) (a : BitVec 6) (ph : BitVec 6)
  | binv (c : Ctl) (w : Win) (sc : Scope) (a : BitVec 6)
  | rinit (c : Ctl) (w : Win) (sc : Scope) (a : BitVec 6) (m : BitVec 6)
  | rres (c : Ctl) (w : Win) (sc : Scope) (d : BitVec 6) (a : BitVec 6)
  | rpub (c : Ctl) (w : Win) (sc : Scope) (a : BitVec 6)
  | rwait (c : Ctl) (w : Win) (sc : Scope) (d : BitVec 6) (a : BitVec 6)
  | rrel (c : Ctl) (w : Win) (sc : Scope) (a : BitVec 6)
  -- channels, work items, launches (R204, R209)
  | send (c : Ctl) (rel : Bool) (a : BitVec 6) (ch : BitVec 6)
  | recv (c : Ctl) (acq : Bool) (d : BitVec 6) (ch : BitVec 6)
  | wpull (c : Ctl) (poll : Bool) (d : BitVec 6) (q : BitVec 2)
  | wpush (c : Ctl) (a : BitVec 6)
  | launch (c : Ctl) (w : Bool) (d : PReg) (a : BitVec 6)
  | yld (c : Ctl)
  | sleep (c : Ctl) (v : USrc)
  | exit (c : Ctl)
  | widx (c : Ctl) (ext : Bool) (d : Dst) (a : RSrc) (b : RSrc) (f : BitVec 3)
  -- scrolls and copies (R218, R222)
  | scroll (c : Ctl) (n : BitVec 6) (dx dy : BitVec 7)
  | scrollX (c : Ctl) (n : BitVec 6) (dx dy : BitVec 7)
  | scrq (c : Ctl) (d : BitVec 6)
  | scrres (c : Ctl)
  | cpy (c : Ctl) (n : BitVec 6) (m : Option (BitVec 6))
  | cpym (c : Ctl) (n : BitVec 6) (m : Option (BitVec 6))
  | cpyg (c : Ctl) (n : BitVec 6) (m : Option (BitVec 6))
  | cpyn (c : Ctl) (n : BitVec 6) (m : Option (BitVec 6))
  | cpyc (c : Ctl) (n : BitVec 6) (ch : BitVec 2)
  | cpycRst (c : Ctl) (n : BitVec 6) (ch : BitVec 2)
  | cpyq (c : Ctl) (sel : BitVec 2) (d : BitVec 6) (e : BitVec 3)
  -- arrays (R230, R231, R233, R237, R241)
  | wload (c : Ctl) (t : Ty) (n : BitVec 6)
  | mma (c : Ctl) (t : Ty) (bank : BitVec 3) (n : BitVec 6) (row0 : BitVec 8)
  | aload (c : Ctl) (sc : Bool) (bank : BitVec 3) (n : BitVec 6) (row0 : BitVec 8) (nc : BitVec 11) (full : Bool)
  | adrain (c : Ctl) (nochk nrm sc : Bool) (bank : BitVec 3) (n : BitVec 6) (sv : Option (BitVec 6))
      (row0 : BitVec 8) (nc : BitVec 11) (full : Bool)
  | azero (c : Ctl) (bank : BitVec 3)
  | delta (c : Ctl) (scalar : Bool) (bank : BitVec 3) (n : BitVec 6) (beta : BitVec 32)
  | deltaCk (c : Ctl) (bank : BitVec 3) (n : BitVec 6)
  | tsolve (c : Ctl) (n m : BitVec 6) (cnt : BitVec 7) (bofs : BitVec 6)
  | dstep (c : Ctl) (n : BitVec 6) (first : BitVec 6) (cnt : BitVec 7)
  | atile (c : Ctl) (n m : BitVec 6)
  | amerge (c : Ctl) (bank : BitVec 3) (n : BitVec 6) (row0 : BitVec 8)
  -- key-value cache (R245)
  | kvapp (c : Ctl) (n m p : BitVec 6) (base : BitVec 32)
  | kvmap (c : Ctl) (d n m : BitVec 6) (h : BitVec 16)
  | kvmrg (c : Ctl) (n m : BitVec 6) (tau : BitVec 32)
  | park (c : Ctl) (n m : BitVec 6)
  | promo (c : Ctl) (n m : BitVec 6)
  | tierq (c : Ctl) (d n m : BitVec 6)
  -- traps, special registers, no-ops (R250)
  | trap (c : Ctl) (n : BitVec 4)
  | rtt (c : Ctl) (n : BitVec 6)
  | rds (c : Ctl) (d : Dst) (x : BitVec 8)
  | wrs (c : Ctl) (x : BitVec 8) (b : Src)
  | nop (c : Ctl)
  | bkpt (c : Ctl) (n : BitVec 8)
  -- supervisor (R252)
  | tlbinvVa (c : Ctl) (n m : BitVec 6)
  | tlbinvTnt (c : Ctl) (n m : BitVec 6)
  | tlbinvPart (c : Ctl) (n m : BitVec 6)
  | qctlMap (c : Ctl) (d n m : BitVec 6)
  | qctlUnmap (c : Ctl) (d n m : BitVec 6)
  | qctlPrio (c : Ctl) (d n m : BitVec 6)
  | qctlSusp (c : Ctl) (d n m : BitVec 6)
  | qctlResm (c : Ctl) (d n m : BitVec 6)
  | qctlState (c : Ctl) (d n m : BitVec 6)
  | pctlCfg (c : Ctl) (d n m : BitVec 6)
  | pctlIw (c : Ctl) (d n m : BitVec 6)
  | pctlStop (c : Ctl) (d n m : BitVec 6)
  | pctlReset (c : Ctl) (d n m : BitVec 6)
  | pctlGo (c : Ctl) (d n m : BitVec 6)
  | ctxsv (c : Ctl) (d n m : BitVec 6)
  | ctxld (c : Ctl) (d n m : BitVec 6)
  | errrdRd (c : Ctl) (d n m : BitVec 6)
  | errrdRdclr (c : Ctl) (d n m : BitVec 6)
  | wdogSet (c : Ctl) (n m : BitVec 6)
  | enrgBal (c : Ctl) (d n m : BitVec 6)
  | enrgCoef (c : Ctl) (d n m : BitVec 6)
  | enrgBurst (c : Ctl) (d n m : BitVec 6)
  | enrgShare (c : Ctl) (d n m : BitVec 6)
  -- steps of groups and of the memory machine (spec/95)
  | pathSwap (g : Nat) (second : Bool)
  | bwaitTimeout (g : Nat)
  | launchWaitTimeout (g : Nat)
  | sleepExpiry (g : Nat)
  | variableLatencyResult (g : Nat) (op : Nat) (lanes : Lanes)
  | memoryOperationPerform (g : Nat) (op : Nat) (cut : Nat)
  | storeBufferDrain (entry : Nat)
  | propagationLevelRaise (w : Nat)
  -- steps of engines
  | scrollProgress (cmd : Nat) (cut : Nat)
  | copyRunGrant (cmd : Nat)
  | copyRunLand (cmd : Nat) (cut : Nat)
  | engineCommandCompletion (cmd : Nat)
  | chainEntryComplete (cmd : Nat)
  | arrayCommandExecute (arr : Nat) (cut : Nat)
  | cacheCommandExecute (cmd : Nat) (cut : Nat)
  -- faults
  | faultRecordPost (part : Nat) (id : Nat)
  | faultInterrupt (part : Nat)
  | faultResponse (part : Nat) (v : Word64)
  -- dispatcher
  | patchPlacement (part : Nat)
  | evictedGroupReturn (g : Nat)
  | launchEntryStart (part : Nat) (src : LaunchFrom)
  | launchCompletion (launch : Nat)
  | stageTick (launch : Nat)
  | balanceTick (part : Nat)
  | balanceItemArrival (id : Nat)
  | energyWindow (part : Nat)
  | throttleTick (part : Nat)
  | watchdogExpiry (part : Nat) (slot : Nat)
  -- host windows and interrupts
  | notify (vf : Nat) (off : Nat) (data : List Byte)
  | queuePendingInterrupt (part : Nat)
  | slotStarvationInterrupt (part : Nat)
  | registerWriteOther (vf : Nat) (off : Nat) (data : List Byte)
  -- fabric
  | neltikFrame (part : Nat) (job : Word32) (payload : List Byte)
  | copyMessageArrival (part : Nat) (job : Word32) (payload : List Byte)
  | transportAck (part tenant q : Nat)
  | rateTokenRefill (part : Nat)
  -- parking and tiers
  | sluiceWrite (vf : Nat) (off : Nat) (data : List Byte)
  | wakePerform (id : Nat)
  | wakeStageADone (part : Nat) (entry : Nat)
  | wakeStageBDone (part : Nat) (entry : Nat)
  | ageingVisit (part : Nat) (entry : Nat)
  | tierMoveDone (id : Nat)
  | poolLowInterrupt (part : Nat)
  | flashCommandCompletion (id : Nat) (ok : Bool)
  | flashCommandTimeout (id : Nat)
  -- errors and host memory accesses
  | rakePatrol (addr : Nat) (kind : ErrKind) (syn : Word64) (racing : Bool)
  | hostCxlMemAccess (addr : Nat) (store : Option (List Byte)) (len : Nat)
  -- package
  | powerGood (fail : Nat)
  | packageReset
  | powerDownRequest
  | powerWindow (milliwatts : Nat)
  -- mailbox
  | partitionMap (part : BitVec 8) (arg : List Byte)
  | startManager (part : BitVec 8) (arg : List Byte)
  | pair (part : BitVec 8) (arg : List Byte)
  | unpair (part : BitVec 8) (arg : List Byte)
  | pairReset (part : BitVec 8) (arg : List Byte)
  | rakePassLength (part : BitVec 8) (arg : List Byte)
  | telemetry (part : BitVec 8) (arg : List Byte)
  | loadFirmware (part : BitVec 8) (arg : List Byte)
  | identify (part : BitVec 8) (arg : List Byte)
  | mailboxCommandDone
  -- lockstep
  | pairInputApply (id : Nat)
  | signatureExchange (id : Nat) (peer : Word32)
  | pairLinkLost (part : Nat)
  -- attestation (R426)
  | getVersion (req : List Byte)
  | getCapabilities (req : List Byte)
  | negotiateAlgorithms (req : List Byte)
  | getDigests (req : List Byte)
  | getCertificate (req : List Byte)
  | challenge (req : List Byte)
  | getMeasurements (req : List Byte)
  deriving DecidableEq, Repr

end Sys2Proof
end

