-- ==== Sys2Proof/Machine/Legal.lean ====
section
/-! DEFINITION. The causes of illegal-instruction that an instruction's operands, types and hints give (R62), in the context of
the group that reaches it. Causes that only bits of the word show (a reserved code, a field that is not zero) are found by
Decode.lean. -/

namespace Sys2Proof.Machine

/-- What legality depends on besides the instruction: the group's lane-register allocation (R16), whether it is a tenant
group (R51, R61), which set flags its clause header marks valid (R54), and whether the word is the last of its clause. -/
structure LCtx where
  regs : Nat
  tenant : Bool
  f0v : Bool
  f1v : Bool
  last : Bool
  deriving DecidableEq, Repr

/-- The context in which nothing but the instruction itself can be illegal. -/
def LCtx.free : LCtx := { regs := 256, tenant := false, f0v := true, f1v := true, last := true }

/-- A cause where a condition holds. -/
def when_ (b : Bool) (code : Nat) : List Nat := if b then [code] else []

/-- Whether a type's values fill 64 bits (R126). -/
def wideTy : Ty → Bool
  | .s64 | .n64 => true
  | _ => false

/-- Operand size in bytes at a type's operating width. -/
def tyBytes : Ty → Nat
  | .s8 | .n8 | .e4m3 | .e5m2 | .e8m0 => 1
  | .s16 | .n16 | .f16 | .bf16 => 2
  | .s32 | .n32 | .f32 => 4
  | .s64 | .n64 => 8
  | .i4 | .i3 => 1

/-- Bytes of an operand at the operating width of an arithmetic instruction: W = 32 unless the type is a 64-bit one (R126, R156). -/
def opBytes (t : Ty) : Nat := if wideTy t then 8 else 4

def signedTy : Ty → Bool
  | .s8 | .s16 | .s32 | .s64 => true
  | _ => false

/-- The integer types of memory accesses: codes 0x0 to 0x7 (R185). -/
def memTy : Ty → Bool
  | .s8 | .s16 | .s32 | .s64 | .n8 | .n16 | .n32 | .n64 => true
  | _ => false

def isIntTy (t : Ty) : Bool := memTy t

def tS32N32S64N64 : List Ty := [.s32, .n32, .s64, .n64]
def tN32N64 : List Ty := [.n32, .n64]
def tS32S64 : List Ty := [.s32, .s64]
def tFloats : List Ty := [.f32, .f16, .bf16]
def tHalf : List Ty := [.f16, .bf16]

/-- A type outside the instruction's list is a reserved field (R127, R157). -/
def tyC (t : Ty) (l : List Ty) : List Nat := when_ (!(l.contains t)) 2

/-- A lane register: below the allocation (R16), and even where it names a pair (R47). -/
def laneC (x : LCtx) (wide : Bool) (r : BitVec 8) : List Nat :=
  when_ (decide (x.regs ≤ r.toNat)) 6 ++ when_ (wide && r.getLsbD 0) 7

def dstC (x : LCtx) (wide : Bool) : Dst → List Nat
  | .lane r => laneC x wide r
  | .uni _ => []

def rsrcC (x : LCtx) (wide : Bool) : RSrc → List Nat
  | .lane r => laneC x wide r
  | .uni _ => []

/-- A constant-bank offset is below 65,536 and a multiple of the operand's size (R46). -/
def cbankC (size : Nat) (off : BitVec 32) : List Nat := when_ (decide (65536 ≤ off.toNat) || off.toNat % size != 0) 5

def srcC (x : LCtx) (wide : Bool) (size : Nat) : Src → List Nat
  | .lane r => laneC x wide r
  | .uni _ => []
  | .imm _ => []
  | .cbank _ off => cbankC size off

def Dst.isUni : Dst → Bool
  | .uni _ => true
  | .lane _ => false

def PReg.isUni : PReg → Bool
  | .uni _ => true
  | .lane _ => false

def RSrc.isLane : RSrc → Bool
  | .lane _ => true
  | .uni _ => false

def Src.isLane : Src → Bool
  | .lane _ => true
  | _ => false

/-- A uniform destination with a lane-class source (R48). -/
def mixC (uni : Bool) (lanes : List Bool) : List Nat := when_ (uni && lanes.any id) 5

/-- The common fields: the reserved guard (R52) and the flag bits (R54); `needs` tells a variable-latency instruction that
writes a register (R23). -/
def ctlC (x : LCtx) (needs : Bool) (c : Ctl) : List Nat :=
  when_ (c.gn && c.gp == 7) 3
    ++ when_ (!c.fset && c.fsel) 9
    ++ when_ (c.fset && !(if c.fsel then x.f1v else x.f0v)) 9
    ++ when_ (needs && !c.fset) 9

/-- A two-source data instruction (R126, R127). -/
def c2 (x : LCtx) (c : Ctl) (l : List Ty) (t : Ty) (d : Dst) (a : RSrc) (b : Src) : List Nat :=
  ctlC x false c ++ tyC t l ++ dstC x (wideTy t) d ++ rsrcC x (wideTy t) a ++ srcC x (wideTy t) (opBytes t) b
    ++ mixC (Dst.isUni d) [RSrc.isLane a, Src.isLane b]

/-- A one-source data instruction. -/
def c1 (x : LCtx) (c : Ctl) (l : List Ty) (t : Ty) (d : Dst) (a : RSrc) : List Nat :=
  ctlC x false c ++ tyC t l ++ dstC x (wideTy t) d ++ rsrcC x (wideTy t) a ++ mixC (Dst.isUni d) [RSrc.isLane a]

/-- A three-register data instruction (R49). -/
def c3 (x : LCtx) (c : Ctl) (l : List Ty) (t : Ty) (d : Dst) (a b e : RSrc) : List Nat :=
  ctlC x false c ++ tyC t l ++ dstC x (wideTy t) d ++ rsrcC x (wideTy t) a ++ rsrcC x (wideTy t) b
    ++ rsrcC x (wideTy t) e ++ mixC (Dst.isUni d) [RSrc.isLane a, RSrc.isLane b, RSrc.isLane e]

/-- Whether a scalar 16-bit float immediate has bits in its upper half (R158). -/
def imm16C (t : Ty) : Src → List Nat
  | .imm v => when_ (tHalf.contains t && v.toNat / 65536 != 0) 2
  | _ => []

def notSr (r : Rnd) : List Nat := when_ (r == .sr) 2

/-- Special registers (R17, R51, R251): existing numbers, the system ones, and the writable ones. -/
def spExists (n : BitVec 8) : Bool :=
  let k := n.toNat
  decide (k ≤ 0x05) || (decide (0x08 ≤ k) && decide (k ≤ 0x11)) || (decide (0x40 ≤ k) && decide (k ≤ 0x85))

def spWritable (n : BitVec 8) : Bool :=
  let k := n.toNat
  k == 0x10 || (decide (0x40 ≤ k) && decide (k ≤ 0x7F)) || k == 0x80 || k == 0x81 || k == 0x83

def spWide (n : BitVec 8) : Bool :=
  let k := n.toNat
  (decide (0x08 ≤ k) && decide (k ≤ 0x0F)) || k == 0x83

/-- A tenant that names 0x80 to 0xFF (privilege), else a number that does not exist or may not be written (R17, R51). -/
def spC (x : LCtx) (write : Bool) (n : BitVec 8) : List Nat :=
  if x.tenant && decide (0x80 ≤ n.toNat) then [4]
  else when_ (!(spExists n) || (write && !(spWritable n))) 8

/-- An even register names a uniform pair (R95). -/
def upairC (n : BitVec 6) : List Nat := when_ (n.getLsbD 0) 7

def memIxC (x : LCtx) : MemIx → List Nat
  | .idx v => laneC x false v
  | .off _ => []

def memIxLane : MemIx → Bool
  | .idx _ => true
  | .off _ => false

def optIxC (x : LCtx) : Option (BitVec 8) → List Nat
  | some v => laneC x false v
  | none => []

/-- The value operand of an atomic (R188). -/
def atomValC (x : LCtx) (t : Ty) (op : AtomOp) (f uni red : Bool) : AtomVal → List Nat
  | .imm _ => when_ (op == .cas) 2 ++ when_ (f && !(t == .n32 && [AtomOp.add, .min, .max].contains op)) 2
      ++ when_ (red && [AtomOp.exch, .cas].contains op) 2
  | .reg v cmp =>
    when_ (op != .cas && cmp != .lane 0) 2
      ++ when_ (f && !(t == .n32 && [AtomOp.add, .min, .max].contains op)) 2
      ++ when_ (red && [AtomOp.exch, .cas].contains op) 2
      ++ rsrcC x (wideTy t) v ++ (if op == .cas then rsrcC x (wideTy t) cmp else [])
      ++ mixC uni [RSrc.isLane v, op == .cas && RSrc.isLane cmp]

/-- A barrier or ring operand from an immediate: its limits (R198). -/
def immLimC (hi : Nat) : USrc → List Nat
  | .imm v => when_ (v == 0 || decide (hi < v.toNat)) 2
  | .uni _ => []

/-- Barrier and ring instructions: scope codes 0x0 to 0x5 (R197). -/
def objC (sc : Scope) : List Nat := when_ ([Scope.host, .pool, .fab].contains sc) 2

/-- Device-memory scopes 0x0 to 0x7, zero for a relaxed load or store (R186). -/
def ldstScC (o : Ord) (sc : Scope) : List Nat := when_ (sc == .fab || (o == .none && sc != .grp)) 2

def priv (x : LCtx) : List Nat := when_ x.tenant 4

/-- The last three banks' rows and columns are in the word; `full` asks that the column count field be zero (R233). -/
def fullC (full : Bool) (nc : BitVec 11) : List Nat := when_ (full && nc != 0) 2

/-- The causes that apply to an instruction in a context (R62). Steps of the machine have none. -/
def causes (x : LCtx) : Instr → List Nat
  | .clause _ => []
  | .reservedOpcode _ _ => [1]
  | .iadd c t _ d a b => c2 x c tS32N32S64N64 t d a b
  | .iaddc c t d a b pn => c2 x c tN32N64 t d a b ++ when_ (Dst.isUni d && decide (3 < pn.toNat)) 5
  | .isub c t _ d a b => c2 x c tS32N32S64N64 t d a b
  | .imul c t d a b => c2 x c tS32N32S64N64 t d a b
  | .imulh c t d a b => c2 x c tS32N32S64N64 t d a b
  | .imad c t d a b e => c3 x c tS32N32S64N64 t d a b e
  | .imin c t d a b => c2 x c tS32N32S64N64 t d a b
  | .imax c t d a b => c2 x c tS32N32S64N64 t d a b
  | .iabs c t _ d a => c1 x c tS32S64 t d a
  | .clmul c t _ d a b => c2 x c tN32N64 t d a b
  | .shl c t d a b => c2 x c tN32N64 t d a b
  | .shr c t d a b => c2 x c tN32N64 t d a b
  | .sar c t d a b => c2 x c tS32S64 t d a b
  | .rotl c t d a b => c2 x c tN32N64 t d a b
  | .blut c t d a b _ => c2 x c tN32N64 t d a b
  | .and c t d a b => c2 x c tN32N64 t d a b
  | .or c t d a b => c2 x c tN32N64 t d a b
  | .xor c t d a b => c2 x c tN32N64 t d a b
  | .not c t d a => c1 x c tN32N64 t d a
  | .popc c t d a => c1 x c tN32N64 t d a
  | .clz c t d a => c1 x c tN32N64 t d a
  | .ctz c t d a => c1 x c tN32N64 t d a
  | .brev c t d a => c1 x c tN32N64 t d a
  | .bswap c t d a => c1 x c [.n16, .n32, .n64] t d a
  | .bfx c t d a b => c2 x c tS32N32S64N64 t d a b
  | .bfi c t d a b e => c3 x c tN32N64 t d a b e
  | .iset c t _ d a b =>
    ctlC x false c ++ tyC t tS32N32S64N64 ++ rsrcC x (wideTy t) a ++ srcC x (wideTy t) (tyBytes t) b
      ++ mixC (PReg.isUni d) [RSrc.isLane a, Src.isLane b]
  | .sel c t d a b pn _ => c2 x c tN32N64 t d a b ++ when_ (Dst.isUni d && decide (3 < pn.toNat)) 5
  | .mov c t d b =>
    ctlC x false c ++ tyC t tN32N64 ++ dstC x (wideTy t) d ++ srcC x (wideTy t) (tyBytes t) b
      ++ mixC (Dst.isUni d) [Src.isLane b]
  | .movi c t d b _ =>
    ctlC x false c ++ tyC t tN32N64 ++ laneC x (wideTy t) d ++ srcC x (wideTy t) (tyBytes t) b
      ++ when_ (Src.isLane b) 5
  | .movh c d a _ => ctlC x false c ++ dstC x true d ++ rsrcC x true a ++ mixC (Dst.isUni d) [RSrc.isLane a]
  | .lea c t d a b n =>
    ctlC x false c ++ tyC t tN32N64 ++ dstC x (wideTy t) d ++ rsrcC x (wideTy t) a ++ rsrcC x (wideTy t) b
      ++ mixC (Dst.isUni d) [RSrc.isLane a, RSrc.isLane b] ++ when_ (!(wideTy t) && decide (32 ≤ n.toNat)) 2
  | .bysel c d a b _ =>
    ctlC x false c ++ dstC x false d ++ rsrcC x false a ++ rsrcC x false b
      ++ mixC (Dst.isUni d) [RSrc.isLane a, RSrc.isLane b]
  | .bra c _ rcv => ctlC x false c ++ when_ (c.gp == 7 && !c.gn && rcv != 0) 2
  | .brx c a _ => ctlC x false c ++ rsrcC x false a
  | .call c _ _ => ctlC x false c ++ when_ (!x.last) 5
  | .ret c _ => ctlC x false c
  | .reconv c => ctlC x false c ++ when_ (!(c.gp == 7 && !c.gn)) 2
  | .join c => ctlC x false c ++ when_ (!(c.gp == 7 && !c.gn)) 2
  | .loop c _ _ => ctlC x false c
  | .fadd c _ d a b => c2 x c [.f32] .f32 d a b
  | .fmul c _ d a b => c2 x c [.f32] .f32 d a b
  | .ffma c _ d a b e => c3 x c [.f32] .f32 d a b e
  | .fmin c t d a b => c2 x c tFloats t d a b ++ imm16C t b
  | .fmax c t d a b => c2 x c tFloats t d a b ++ imm16C t b
  | .fset c t _ d a b =>
    ctlC x false c ++ tyC t tFloats ++ rsrcC x false a ++ srcC x false (opBytes t) b
      ++ mixC (PReg.isUni d) [RSrc.isLane a, Src.isLane b] ++ imm16C t b
  | .fclass c t d a _ => ctlC x false c ++ tyC t tFloats ++ rsrcC x false a ++ mixC (PReg.isUni d) [RSrc.isLane a]
  | .frnd c t r d a => c1 x c tFloats t d a ++ notSr r
  | .twadd c t _ d a b =>
    ctlC x false c ++ tyC t tHalf ++ dstC x false d ++ rsrcC x false a ++ srcC x false 4 b
      ++ mixC (Dst.isUni d) [RSrc.isLane a, Src.isLane b]
  | .twmul c t _ d a b =>
    ctlC x false c ++ tyC t tHalf ++ dstC x false d ++ rsrcC x false a ++ srcC x false 4 b
      ++ mixC (Dst.isUni d) [RSrc.isLane a, Src.isLane b]
  | .twfma c t _ d a b e => c3 x c tHalf t d a b e
  | .cvt c satf dt st r d a =>
    ctlC x false c ++ when_ ([Ty.i4, .i3].contains dt || [Ty.i4, .i3].contains st) 2
      ++ when_ (satf && isIntTy dt) 2 ++ when_ (r == .sr && dt == .e8m0) 2
      ++ dstC x (wideTy dt) d ++ rsrcC x (wideTy st) a ++ mixC (Dst.isUni d) [RSrc.isLane a]
  | .pack c t _ _ h d a b =>
    ctlC x false c ++ tyC t [.f16, .bf16, .e4m3, .e5m2] ++ dstC x false d ++ rsrcC x false a ++ rsrcC x false b
      ++ mixC (Dst.isUni d) [RSrc.isLane a, RSrc.isLane b] ++ when_ (tHalf.contains t && h) 2
  | .unpack c t d a sel =>
    ctlC x false c ++ tyC t [.f16, .bf16, .e4m3, .e5m2, .e8m0, .i4, .i3] ++ dstC x false d
      ++ rsrcC x (t == .i3) a ++ mixC (Dst.isUni d) [RSrc.isLane a]
      ++ when_ (decide ((match t with | .f16 => 1 | .bf16 => 1 | .i4 => 7 | .i3 => 61 | _ => 3) < sel.toNat)) 2
  | .rcp c t d a => c1 x c tFloats t d a
  | .rsq c t d a => c1 x c tFloats t d a
  | .sqrt c t d a => c1 x c tFloats t d a
  | .ex2 c t d a => c1 x c tFloats t d a
  | .lg2 c t d a => c1 x c tFloats t d a
  | .sin c t d a => c1 x c tFloats t d a
  | .cos c t d a => c1 x c tFloats t d a
  | .tanh c t d a => c1 x c tFloats t d a
  | .shfl c t _ d a b seg =>
    ctlC x false c ++ tyC t tN32N64 ++ laneC x (wideTy t) d ++ laneC x (wideTy t) a
      ++ srcC x (wideTy t) (tyBytes t) b ++ when_ (decide (5 < seg.toNat)) 2
  | .vote c mode u d _ _ =>
    ctlC x false c ++ (match mode with
      | .ballot => if u then when_ (decide (63 < d.toNat)) 5 else laneC x false d
      | _ => when_ (decide ((if u then 3 else 7) < d.toNat)) 5)
  | .redg c op t d a =>
    ctlC x false c ++ tyC t [.s32, .n32, .s64, .n64, .f32] ++ dstC x (wideTy t) d ++ laneC x (wideTy t) a
      ++ when_ (t == .f32 && [RedOp.and, .or, .xor].contains op) 2
  | .scang c op t _ d a =>
    ctlC x false c ++ tyC t [.s32, .n32, .s64, .n64, .f32] ++ laneC x (wideTy t) d ++ laneC x (wideTy t) a
      ++ when_ (t == .f32 && [RedOp.and, .or, .xor].contains op) 2
  | .matchLanes c _ t d a => ctlC x false c ++ tyC t tN32N64 ++ laneC x false d ++ laneC x (wideTy t) a
  | .pset c d a b e _ =>
    ctlC x false c ++ mixC (PReg.isUni d) [!(PReg.isUni a), !(PReg.isUni b), !(PReg.isUni e)]
  | .p2s c d m => ctlC x false c ++ dstC x false d ++ when_ (Dst.isUni d && decide (15 < m.toNat)) 2
  | .s2p c u a m =>
    ctlC x false c ++ rsrcC x false a ++ mixC u [RSrc.isLane a]
      ++ when_ (if u then decide (15 < m.toNat) else decide (127 < m.toNat)) 2
  | .ld c t sc o d _ ix =>
    ctlC x true c ++ when_ (!(memTy t)) 2 ++ when_ ([Ord.rel, .ar].contains o) 2 ++ ldstScC o sc ++ dstC x (wideTy t) d
      ++ memIxC x ix ++ mixC (Dst.isUni d) [memIxLane ix]
  | .st c t sc o d _ ix =>
    ctlC x false c ++ when_ (!(memTy t)) 2 ++ when_ ([Ord.acq, .ar].contains o) 2 ++ ldstScC o sc
      ++ laneC x (wideTy t) d ++ memIxC x ix
  | .lds c t _ d a ix =>
    ctlC x true c ++ when_ (!(memTy t)) 2 ++ dstC x (wideTy t) d ++ rsrcC x false a ++ memIxC x ix
      ++ mixC (Dst.isUni d) [RSrc.isLane a, memIxLane ix]
  | .sts c t _ d a ix => ctlC x false c ++ when_ (!(memTy t)) 2 ++ laneC x (wideTy t) d ++ rsrcC x false a ++ memIxC x ix
  | .ldc c t d ix _ off =>
    ctlC x true c ++ when_ (!(memTy t)) 2 ++ dstC x (wideTy t) d ++ rsrcC x false ix ++ cbankC (tyBytes t) off
      ++ mixC (Dst.isUni d) [RSrc.isLane ix]
  | .pref c _ _ ix => ctlC x false c ++ memIxC x ix
  | .atom c t sc _ d _ ix op f v =>
    ctlC x true c ++ when_ (!(memTy t)) 2 ++ when_ (sc == .fab) 2 ++ dstC x (wideTy t) d ++ optIxC x ix
      ++ mixC (Dst.isUni d) [ix.isSome] ++ atomValC x t op f (Dst.isUni d) false v
  | .atoms c t _ d a ix op f v =>
    ctlC x true c ++ when_ (!(memTy t)) 2 ++ dstC x (wideTy t) d ++ rsrcC x false a ++ optIxC x ix
      ++ mixC (Dst.isUni d) [RSrc.isLane a, ix.isSome] ++ atomValC x t op f (Dst.isUni d) false v
  | .red c t sc o _ ix op f v =>
    ctlC x false c ++ when_ (!(memTy t)) 2 ++ when_ (sc == .fab) 2 ++ when_ ([Ord.acq, .ar].contains o) 2
      ++ optIxC x ix ++ atomValC x t op f false true v
  | .fence c o _ => ctlC x false c ++ when_ (o == .none) 2
  | .afence c sc => ctlC x false c ++ when_ (sc == .fab) 2
  | .commit c => ctlC x false c
  | .mark c nl a nu b _ =>
    ctlC x false c ++ when_ (!x.last) 5 ++ when_ (nl == 0 && a != 0) 5 ++ when_ (nu == 0 && b != 0) 5
      ++ when_ (decide (16 < nl.toNat + nu.toNat)) 5 ++ when_ (decide (64 < b.toNat + nu.toNat)) 5
      ++ when_ (nl != 0 && decide (x.regs < a.toNat + nl.toNat)) 6
  | .binit c _ sc _ v => ctlC x false c ++ objC sc ++ immLimC 4095 v
  | .barr c _ sc _ v => ctlC x false c ++ objC sc ++ immLimC 15 v
  | .bexp c _ sc _ v => ctlC x false c ++ objC sc ++ immLimC 0xFFFFFF v
  | .bwait c _ sc _ _ _ _ => ctlC x true c ++ objC sc
  | .btry c _ sc _ _ _ => ctlC x true c ++ objC sc
  | .binv c _ sc _ => ctlC x false c ++ objC sc
  | .rinit c _ sc _ _ => ctlC x false c ++ objC sc
  | .rres c _ sc _ _ => ctlC x true c ++ objC sc
  | .rpub c _ sc _ => ctlC x false c ++ objC sc
  | .rwait c _ sc _ _ => ctlC x true c ++ objC sc
  | .rrel c _ sc _ => ctlC x false c ++ objC sc
  | .send c _ _ _ => ctlC x false c
  | .recv c _ _ _ => ctlC x true c
  | .wpull c poll _ q => ctlC x true c ++ when_ (!poll && q != 0) 2
  | .wpush c _ => ctlC x false c
  | .launch c _ _ _ => ctlC x true c
  | .yld c => ctlC x false c
  | .sleep c _ => ctlC x false c
  | .exit c => ctlC x false c
  | .widx c ext d a b f =>
    ctlC x false c ++ dstC x true d ++ rsrcC x true a ++ (if ext then when_ (b != .lane 0) 2 else rsrcC x true b)
      ++ mixC (Dst.isUni d) [RSrc.isLane a, !ext && RSrc.isLane b] ++ when_ (decide (5 < f.toNat)) 2
  | .scroll c n dx dy => ctlC x false c ++ upairC n ++ when_ (dx == 0x40 || dy == 0x40) 2
  | .scrollX c _ dx dy => ctlC x false c ++ when_ (dx == 0x40 || dy == 0x40) 2
  | .scrq c _ => ctlC x false c
  | .scrres c => ctlC x false c
  | .cpy c _ _ => ctlC x false c
  | .cpym c _ _ => ctlC x false c
  | .cpyg c _ _ => ctlC x false c
  | .cpyn c _ _ => ctlC x false c
  | .cpyc c _ _ => ctlC x false c
  | .cpycRst c _ _ => ctlC x false c
  | .cpyq c sel _ _ => ctlC x false c ++ when_ (sel == 3) 2
  | .wload c t _ => ctlC x false c ++ tyC t [.bf16, .e4m3, .e5m2, .i4, .i3]
  | .mma c t _ n _ => ctlC x false c ++ tyC t [.bf16, .e4m3, .e5m2] ++ upairC n
  | .aload c _ _ n _ nc full => ctlC x false c ++ upairC n ++ fullC full nc
  | .adrain c _ _ _ _ n _ _ nc full => ctlC x false c ++ upairC n ++ fullC full nc
  | .azero c _ => ctlC x false c
  | .delta c scalar _ _ beta => ctlC x false c ++ when_ (!scalar && beta != 0) 2
  | .deltaCk c _ _ => ctlC x false c
  | .tsolve c n m cnt bofs =>
    ctlC x false c ++ upairC n ++ upairC m ++ when_ (cnt == 0 || decide (64 < cnt.toNat)) 2
      ++ when_ (decide (64 < bofs.toNat + cnt.toNat)) 2
  | .dstep c _ first cnt =>
    ctlC x true c ++ when_ (cnt == 0 || decide (64 < cnt.toNat)) 2 ++ when_ (decide (64 < first.toNat + cnt.toNat)) 2
  | .atile c _ _ => ctlC x false c
  | .amerge c _ n _ => ctlC x false c ++ upairC n
  | .kvapp c _ _ _ _ => ctlC x false c
  | .kvmap c _ _ _ _ => ctlC x true c
  | .kvmrg c _ _ _ => ctlC x false c
  | .park c _ _ => ctlC x false c
  | .promo c _ _ => ctlC x false c
  | .tierq c _ _ _ => ctlC x true c
  | .trap c _ => ctlC x false c ++ when_ (!x.last) 5
  | .rtt c _ => ctlC x false c
  | .rds c d n =>
    ctlC x false c ++ spC x false n ++ dstC x (spWide n) d ++ when_ (Dst.isUni d && n == 0) 5
  | .wrs c n b => ctlC x false c ++ spC x true n ++ srcC x (spWide n) (if spWide n then 8 else 4) b
  | .nop c => ctlC x false c
  | .bkpt c _ => ctlC x false c
  | .tlbinvVa c _ _ => priv x ++ ctlC x false c
  | .tlbinvTnt c _ _ => priv x ++ ctlC x false c
  | .tlbinvPart c _ _ => priv x ++ ctlC x false c
  | .qctlMap c _ _ _ => priv x ++ ctlC x false c
  | .qctlUnmap c _ _ _ => priv x ++ ctlC x false c
  | .qctlPrio c _ _ _ => priv x ++ ctlC x false c
  | .qctlSusp c _ _ _ => priv x ++ ctlC x false c
  | .qctlResm c _ _ _ => priv x ++ ctlC x false c
  | .qctlState c _ _ _ => priv x ++ ctlC x true c
  | .pctlCfg c _ _ _ => priv x ++ ctlC x true c
  | .pctlIw c _ _ _ => priv x ++ ctlC x false c
  | .pctlStop c _ _ _ => priv x ++ ctlC x false c
  | .pctlReset c _ _ _ => priv x ++ ctlC x false c
  | .pctlGo c _ _ _ => priv x ++ ctlC x false c
  | .ctxsv c _ _ _ => priv x ++ ctlC x true c
  | .ctxld c _ _ _ => priv x ++ ctlC x true c
  | .errrdRd c _ _ _ => priv x ++ ctlC x true c
  | .errrdRdclr c _ _ _ => priv x ++ ctlC x true c
  | .wdogSet c _ _ => priv x ++ ctlC x false c
  | .enrgBal c _ _ _ => priv x ++ ctlC x true c
  | .enrgCoef c _ _ _ => priv x ++ ctlC x false c
  | .enrgBurst c _ _ _ => priv x ++ ctlC x false c
  | .enrgShare c _ _ _ => priv x ++ ctlC x false c
  | .pathSwap _ _ => []
  | .bwaitTimeout _ => []
  | .launchWaitTimeout _ => []
  | .sleepExpiry _ => []
  | .variableLatencyResult _ _ _ => []
  | .memoryOperationPerform _ _ _ => []
  | .storeBufferDrain _ => []
  | .propagationLevelRaise _ => []
  | .scrollProgress _ _ => []
  | .copyRunGrant _ => []
  | .copyRunLand _ _ => []
  | .engineCommandCompletion _ => []
  | .chainEntryComplete _ => []
  | .arrayCommandExecute _ _ => []
  | .cacheCommandExecute _ _ => []
  | .faultRecordPost _ _ => []
  | .faultInterrupt _ => []
  | .faultResponse _ _ => []
  | .patchPlacement _ => []
  | .evictedGroupReturn _ => []
  | .launchEntryStart _ _ => []
  | .launchCompletion _ => []
  | .stageTick _ => []
  | .balanceTick _ => []
  | .balanceItemArrival _ => []
  | .energyWindow _ => []
  | .throttleTick _ => []
  | .watchdogExpiry _ _ => []
  | .notify _ _ _ => []
  | .queuePendingInterrupt _ => []
  | .slotStarvationInterrupt _ => []
  | .registerWriteOther _ _ _ => []
  | .neltikFrame _ _ _ => []
  | .copyMessageArrival _ _ _ => []
  | .transportAck _ _ _ => []
  | .rateTokenRefill _ => []
  | .sluiceWrite _ _ _ => []
  | .wakePerform _ => []
  | .wakeStageADone _ _ => []
  | .wakeStageBDone _ _ => []
  | .ageingVisit _ _ => []
  | .tierMoveDone _ => []
  | .poolLowInterrupt _ => []
  | .flashCommandCompletion _ _ => []
  | .flashCommandTimeout _ => []
  | .rakePatrol _ _ _ _ => []
  | .hostCxlMemAccess _ _ _ => []
  | .powerGood _ => []
  | .packageReset => []
  | .powerDownRequest => []
  | .powerWindow _ => []
  | .partitionMap _ _ => []
  | .startManager _ _ => []
  | .pair _ _ => []
  | .unpair _ _ => []
  | .pairReset _ _ => []
  | .rakePassLength _ _ => []
  | .telemetry _ _ => []
  | .loadFirmware _ _ => []
  | .identify _ _ => []
  | .mailboxCommandDone => []
  | .pairInputApply _ => []
  | .signatureExchange _ _ => []
  | .pairLinkLost _ => []
  | .getVersion _ => []
  | .getCapabilities _ => []
  | .negotiateAlgorithms _ => []
  | .getDigests _ => []
  | .getCertificate _ => []
  | .challenge _ => []
  | .getMeasurements _ => []

/-- The lowest code of a list of causes, as R62 reports it. -/
def lowest : List Nat → Option Nat
  | [] => none
  | c :: r =>
    match lowest r with
    | none => some c
    | some m => some (min c m)

end Sys2Proof.Machine
end

