-- ==== Sys2Proof/WellFormed.lean ====
section
/-! DEFINITION. Well-formed instructions: those that some word encodes and that are legal in the most permissive context. -/

namespace Sys2Proof

/-- Whether an immediate fits the 24 bits of the EXT form, sign-extended (R128). -/
def fits24s : Src → Bool
  | .imm v => v == (v.extractLsb' 0 24).signExtend 32
  | .cbank _ off => off == (off.extractLsb' 0 24).setWidth 32
  | _ => true

/-- Whether an immediate fits 24 bits, zero-extended (R173). -/
def fits24z : Src → Bool
  | .imm v => v == (v.extractLsb' 0 24).setWidth 32
  | .cbank _ off => off == (off.extractLsb' 0 24).setWidth 32
  | _ => true

/-- The opcodes that the map leaves reserved (R60). -/
def reservedOpc (o : BitVec 8) : Bool :=
  let k := o.toNat
  let hi := k / 16
  let lo := k % 16
  match hi with
  | 0 => lo == 0 || decide (10 < lo)
  | 1 => false
  | 2 => decide (6 < lo)
  | 3 => decide (6 < lo)
  | 4 => decide (10 < lo)
  | 5 => decide (10 < lo)
  | 6 => decide (7 < lo)
  | 7 => true
  | 8 => decide (12 < lo)
  | 9 => decide (10 < lo)
  | 10 => decide (8 < lo)
  | 11 => decide (8 < lo)
  | 12 => decide (9 < lo)
  | 13 => decide (5 < lo)
  | 14 => lo == 6 || lo == 7
  | _ => lo != 0

/-- Whether an instruction's operands fit their fields. -/
def Instr.encodable : Instr → Bool
  | .reservedOpcode o _ => reservedOpc o
  | .iaddc _ _ _ _ b _ => fits24s b
  | .blut _ _ _ _ b _ => fits24s b
  | .sel _ _ _ _ b _ _ => fits24s b
  | .movi _ _ _ b _ => fits24s b
  | .shfl _ _ _ _ _ b _ => fits24z b
  | _ => true

/-- Well-formed: encodable, and free of every cause that does not depend on the issuing group (R62). A reserved opcode is
a word that traps, not an ill-formed one. -/
def Instr.wf : Instr → Bool
  | .reservedOpcode o r => Instr.encodable (.reservedOpcode o r)
  | i => Instr.encodable i && (Machine.causes Machine.LCtx.free i == [])

end Sys2Proof
end

