-- ==== Sys2Proof/Decode.lean ====
section
/-! DEFINITION. The decoder, total on any bytes and rejecting by name, and after it the encoder: the 96-bit word of spec/03
R41 to R62 with the fields of each instruction's own description (spec/06 to spec/09). -/

namespace Sys2Proof

/-! ### The word's fields -/

/-- The fields of an instruction word (R41). -/
structure Raw where
  opc : BitVec 8
  u : Bool
  mod : BitVec 7
  gn : Bool
  gp : BitVec 3
  d : BitVec 8
  a : BitVec 8
  b : BitVec 8
  ca : BitVec 2
  cb : BitVec 2
  imm : BitVec 32
  hint : BitVec 16
  deriving DecidableEq, Repr

/-- The word of a set of fields (R41). -/
def Raw.toWord (r : Raw) : Word96 :=
  r.opc ++ BitVec.ofBool r.u ++ r.mod ++ BitVec.ofBool r.gn ++ r.gp ++ r.d ++ r.a ++ r.b ++ r.ca ++ r.cb ++ r.imm ++ r.hint

/-- The fields of a word (R41). -/
def Raw.ofWord (w : Word96) : Raw :=
  { opc := w.extractLsb' 88 8, u := w.getLsbD 87, mod := w.extractLsb' 80 7, gn := w.getLsbD 79, gp := w.extractLsb' 76 3,
    d := w.extractLsb' 68 8, a := w.extractLsb' 60 8, b := w.extractLsb' 52 8, ca := w.extractLsb' 50 2,
    cb := w.extractLsb' 48 2, imm := w.extractLsb' 16 32, hint := w.extractLsb' 0 16 }

/-- The clause header's word (R57). -/
def headerWord (h : Header) : Word96 :=
  0xF0#8 ++ h.len ++ h.wait ++ BitVec.ofBool h.f0v ++ h.f0n ++ BitVec.ofBool h.f1v ++ h.f1n ++ h.rsv

def headerOf (w : Word96) : Header :=
  { len := w.extractLsb' 84 4, wait := w.extractLsb' 72 12, f0v := w.getLsbD 71, f0n := w.extractLsb' 67 4,
    f1v := w.getLsbD 66, f1n := w.extractLsb' 62 4, rsv := w.extractLsb' 0 62 }

/-! ### Codes (R43) -/

def tyCode : Ty → BitVec 4
  | .s8 => 0x0 | .s16 => 0x1 | .s32 => 0x2 | .s64 => 0x3 | .n8 => 0x4 | .n16 => 0x5 | .n32 => 0x6 | .n64 => 0x7
  | .f32 => 0x8 | .f16 => 0x9 | .bf16 => 0xA | .e4m3 => 0xB | .e5m2 => 0xC | .i4 => 0xD | .i3 => 0xE | .e8m0 => 0xF

def tyOf (c : BitVec 4) : Ty :=
  match c.toNat with
  | 0 => .s8 | 1 => .s16 | 2 => .s32 | 3 => .s64 | 4 => .n8 | 5 => .n16 | 6 => .n32 | 7 => .n64
  | 8 => .f32 | 9 => .f16 | 10 => .bf16 | 11 => .e4m3 | 12 => .e5m2 | 13 => .i4 | 14 => .i3 | _ => .e8m0

def rndCode : Rnd → BitVec 3
  | .rne => 0 | .rtz => 1 | .rdn => 2 | .rup => 3 | .sr => 4

def rndOf (c : BitVec 3) : Rnd :=
  match c.toNat with
  | 0 => .rne | 1 => .rtz | 2 => .rdn | 3 => .rup | _ => .sr

def scopeCode : Scope → BitVec 4
  | .grp => 0 | .blk => 1 | .pch => 2 | .quad => 3 | .part => 4 | .dev => 5 | .host => 6 | .pool => 7 | .fab => 8

def scopeOf (c : BitVec 4) : Scope :=
  match c.toNat with
  | 0 => .grp | 1 => .blk | 2 => .pch | 3 => .quad | 4 => .part | 5 => .dev | 6 => .host | 7 => .pool | _ => .fab

def ordCode : Ord → BitVec 2
  | .none => 0 | .acq => 1 | .rel => 2 | .ar => 3

def ordOf (c : BitVec 2) : Ord :=
  match c.toNat with
  | 0 => .none | 1 => .acq | 2 => .rel | _ => .ar

def winCode : Win → BitVec 4
  | .own => 0 | .north => 1 | .northEast => 2 | .east => 3 | .southEast => 4 | .south => 5 | .southWest => 6
  | .west => 7 | .northWest => 8

def winOf (c : BitVec 4) : Win :=
  match c.toNat with
  | 0 => .own | 1 => .north | 2 => .northEast | 3 => .east | 4 => .southEast | 5 => .south | 6 => .southWest
  | 7 => .west | _ => .northWest

def condCode : Cond → BitVec 3
  | .eq => 0 | .ne => 1 | .lt => 2 | .le => 3 | .gt => 4 | .ge => 5

def condOf (c : BitVec 3) : Cond :=
  match c.toNat with
  | 0 => .eq | 1 => .ne | 2 => .lt | 3 => .le | 4 => .gt | _ => .ge

def fcondCode : FCond → BitVec 3
  | .eq => 0 | .ne => 1 | .lt => 2 | .le => 3 | .gt => 4 | .ge => 5 | .num => 6 | .nan => 7

def fcondOf (c : BitVec 3) : FCond :=
  match c.toNat with
  | 0 => .eq | 1 => .ne | 2 => .lt | 3 => .le | 4 => .gt | 5 => .ge | 6 => .num | _ => .nan

def shflCode : ShflMode → BitVec 3
  | .idx => 0 | .up => 1 | .down => 2 | .xor => 3

def shflOf (c : BitVec 3) : ShflMode :=
  match c.toNat with
  | 0 => .idx | 1 => .up | 2 => .down | _ => .xor

def voteCode : VoteMode → BitVec 3
  | .all => 0 | .any => 1 | .uni => 2 | .ballot => 3

def voteOf (c : BitVec 3) : VoteMode :=
  match c.toNat with
  | 0 => .all | 1 => .any | 2 => .uni | _ => .ballot

def redCode : RedOp → BitVec 3
  | .add => 0 | .min => 1 | .max => 2 | .and => 3 | .or => 4 | .xor => 5

def redOf (c : BitVec 3) : RedOp :=
  match c.toNat with
  | 0 => .add | 1 => .min | 2 => .max | 3 => .and | 4 => .or | _ => .xor

def atomCode : AtomOp → BitVec 3
  | .add => 0 | .min => 1 | .max => 2 | .and => 3 | .or => 4 | .xor => 5 | .exch => 6 | .cas => 7

def atomOf (c : BitVec 3) : AtomOp :=
  match c.toNat with
  | 0 => .add | 1 => .min | 2 => .max | 3 => .and | 4 => .or | 5 => .xor | 6 => .exch | _ => .cas

/-! ### Encoding operands -/

def hintCode (c : Ctl) : BitVec 16 :=
  c.stall ++ BitVec.ofBool c.yld ++ BitVec.ofBool c.pair ++ BitVec.ofBool c.fsel ++ BitVec.ofBool c.fset
    ++ BitVec.ofBool c.reua ++ BitVec.ofBool c.reub ++ 0#6

/-- A word with its opcode, guard and hints and every other field zero. -/
def rawOf (opc : BitVec 8) (c : Ctl) : Raw :=
  { opc := opc, u := false, mod := 0, gn := c.gn, gp := c.gp, d := 0, a := 0, b := 0, ca := 0, cb := 0, imm := 0,
    hint := hintCode c }

/-- A 6-bit register number in its 8-bit field. -/
def n8 (n : BitVec 6) : BitVec 8 := 0#2 ++ n

def dstU : Dst → Bool
  | .lane _ => false
  | .uni _ => true

def dstN : Dst → BitVec 8
  | .lane r => r
  | .uni r => n8 r

def pregU : PReg → Bool
  | .lane _ => false
  | .uni _ => true

def pregN : PReg → BitVec 8
  | .lane p => 0#5 ++ p
  | .uni q => 0#6 ++ q

def pregC : PReg → BitVec 2
  | .lane _ => 0
  | .uni _ => 1

def rsrcN : RSrc → BitVec 8
  | .lane r => r
  | .uni r => n8 r

def rsrcK : RSrc → BitVec 2
  | .lane _ => 0
  | .uni _ => 1

def rsrcBit : RSrc → BitVec 1
  | .lane _ => 0
  | .uni _ => 1

def srcN : Src → BitVec 8
  | .lane r => r
  | .uni r => n8 r
  | .imm _ => 0
  | .cbank k _ => 0#4 ++ k

def srcK : Src → BitVec 2
  | .lane _ => 0
  | .uni _ => 1
  | .imm _ => 2
  | .cbank _ _ => 3

def srcImm : Src → BitVec 32
  | .imm v => v
  | .cbank _ off => off
  | _ => 0

/-- The immediate field of the EXT form: the extra field over the low 24 bits (R128). -/
def extImm (ext : BitVec 8) (b : Src) : BitVec 32 := ext ++ (srcImm b).extractLsb' 0 24

/-- The immediate field that holds a third source (R49). -/
def cImm (e : RSrc) : BitVec 32 := 0#23 ++ rsrcBit e ++ rsrcN e

def usrcN : USrc → BitVec 8
  | .uni r => n8 r
  | .imm _ => 0

def usrcK : USrc → BitVec 2
  | .uni _ => 1
  | .imm _ => 2

def usrcImm : USrc → BitVec 32
  | .uni _ => 0
  | .imm v => v

def ixN : MemIx → BitVec 8
  | .idx v => v
  | .off _ => 0

def ixK : MemIx → BitVec 2
  | .idx _ => 0
  | .off _ => 2

def ixImm : MemIx → BitVec 32
  | .idx _ => 0
  | .off i => i

def oixN : Option (BitVec 8) → BitVec 8
  | some v => v
  | none => 0

def oixK : Option (BitVec 8) → BitVec 2
  | some _ => 0
  | none => 2

/-- The immediate field of an atomic (R188). -/
def atomImm (op : AtomOp) (f : Bool) : AtomVal → BitVec 32
  | .imm v => 0#3 ++ 0#1 ++ BitVec.ofBool f ++ atomCode op ++ v
  | .reg v cmp =>
    0#3 ++ 1#1 ++ BitVec.ofBool f ++ atomCode op ++ 0#6 ++ rsrcBit cmp ++ rsrcN cmp ++ rsrcBit v ++ rsrcN v

/-- An optional uniform register in B: class uniform with it, class immediate without (R222, R233). -/
def ounN : Option (BitVec 6) → BitVec 8
  | some m => n8 m
  | none => 0

def ounK : Option (BitVec 6) → BitVec 2
  | some _ => 1
  | none => 2

/-- MOD of a type and a low field (R42). -/
def tm (t : Ty) (low : BitVec 3) : BitVec 7 := tyCode t ++ low

/-- MOD of a memory type and a scope or window (R185, R191). -/
def mm (t : Ty) (sc : BitVec 4) : BitVec 7 := (tyCode t).extractLsb' 0 3 ++ sc

def bit1 (b : Bool) : BitVec 1 := BitVec.ofBool b

/-- Data instructions with D, A and any B. -/
def rawDAB (opc : BitVec 8) (c : Ctl) (m : BitVec 7) (d : Dst) (a : RSrc) (b : Src) : Raw :=
  { rawOf opc c with u := dstU d, mod := m, d := dstN d, a := rsrcN a, ca := rsrcK a, b := srcN b, cb := srcK b,
                     imm := srcImm b }

/-- Data instructions with D and A. -/
def rawDA (opc : BitVec 8) (c : Ctl) (m : BitVec 7) (d : Dst) (a : RSrc) : Raw :=
  { rawOf opc c with u := dstU d, mod := m, d := dstN d, a := rsrcN a, ca := rsrcK a }

/-- Data instructions with D, A, B and C registers (R49). -/
def rawDABC (opc : BitVec 8) (c : Ctl) (m : BitVec 7) (d : Dst) (a b e : RSrc) : Raw :=
  { rawOf opc c with u := dstU d, mod := m, d := dstN d, a := rsrcN a, ca := rsrcK a, b := rsrcN b, cb := rsrcK b,
                     imm := cImm e }

/-- Data instructions with the EXT form (R128). -/
def rawExt (opc : BitVec 8) (c : Ctl) (m : BitVec 7) (d : Dst) (a : RSrc) (b : Src) (ext : BitVec 8) : Raw :=
  { rawOf opc c with u := dstU d, mod := m, d := dstN d, a := rsrcN a, ca := rsrcK a, b := srcN b, cb := srcK b,
                     imm := extImm ext b }

/-- Instructions with a uniform A of fixed class. -/
def rawA (opc : BitVec 8) (c : Ctl) (m : BitVec 7) (n : BitVec 6) : Raw :=
  { rawOf opc c with mod := m, a := n8 n, ca := 1 }

/-- Engine commands with a uniform A and class immediate in B. -/
def rawAI (opc : BitVec 8) (c : Ctl) (m : BitVec 7) (d : BitVec 8) (n : BitVec 6) (imm : BitVec 32) : Raw :=
  { rawOf opc c with mod := m, d := d, a := n8 n, ca := 1, cb := 2, imm := imm }

/-- Instructions with uniform A and B of fixed class. -/
def rawAB (opc : BitVec 8) (c : Ctl) (m : BitVec 7) (d : BitVec 8) (n k : BitVec 6) (imm : BitVec 32) : Raw :=
  { rawOf opc c with mod := m, d := d, a := n8 n, ca := 1, b := n8 k, cb := 1, imm := imm }

/-- The MOD of barrier and ring instructions (R197). -/
def om (w : Win) (sc : Scope) : BitVec 7 := winCode w ++ (scopeCode sc).extractLsb' 0 3

/-- The encoder: the fields of an instruction's word. A clause header is no instruction word and has its own (R57). Steps of
the machine have no word. -/
def rawEnc : Instr → Option Raw
  | .clause _ => none
  | .reservedOpcode opc rest => some (Raw.ofWord (opc ++ rest))
  | .iadd c t sat d a b => some (rawDAB 0x01 c (tyCode t ++ 0#2 ++ bit1 sat) d a b)
  | .iaddc c t d a b pn => some (rawExt 0x02 c (tm t 0) d a b (0#5 ++ pn))
  | .isub c t sat d a b => some (rawDAB 0x03 c (tyCode t ++ 0#2 ++ bit1 sat) d a b)
  | .imul c t d a b => some (rawDAB 0x04 c (tm t 0) d a b)
  | .imulh c t d a b => some (rawDAB 0x05 c (tm t 0) d a b)
  | .imad c t d a b e => some (rawDABC 0x06 c (tm t 0) d a b e)
  | .imin c t d a b => some (rawDAB 0x07 c (tm t 0) d a b)
  | .imax c t d a b => some (rawDAB 0x08 c (tm t 0) d a b)
  | .iabs c t sat d a => some (rawDA 0x09 c (tyCode t ++ 0#2 ++ bit1 sat) d a)
  | .clmul c t hi d a b => some (rawDAB 0x0A c (tyCode t ++ 0#2 ++ bit1 hi) d a b)
  | .shl c t d a b => some (rawDAB 0x10 c (tm t 0) d a b)
  | .shr c t d a b => some (rawDAB 0x11 c (tm t 0) d a b)
  | .sar c t d a b => some (rawDAB 0x12 c (tm t 0) d a b)
  | .rotl c t d a b => some (rawDAB 0x13 c (tm t 0) d a b)
  | .blut c t d a b lut => some (rawExt 0x14 c (tm t 0) d a b lut)
  | .and c t d a b => some (rawDAB 0x15 c (tm t 0) d a b)
  | .or c t d a b => some (rawDAB 0x16 c (tm t 0) d a b)
  | .xor c t d a b => some (rawDAB 0x17 c (tm t 0) d a b)
  | .not c t d a => some (rawDA 0x18 c (tm t 0) d a)
  | .popc c t d a => some (rawDA 0x19 c (tm t 0) d a)
  | .clz c t d a => some (rawDA 0x1A c (tm t 0) d a)
  | .ctz c t d a => some (rawDA 0x1B c (tm t 0) d a)
  | .brev c t d a => some (rawDA 0x1C c (tm t 0) d a)
  | .bswap c t d a => some (rawDA 0x1D c (tm t 0) d a)
  | .bfx c t d a b => some (rawDAB 0x1E c (tm t 0) d a b)
  | .bfi c t d a b e => some (rawDABC 0x1F c (tm t 0) d a b e)
  | .iset c t cc d a b =>
    some { rawOf 0x20 c with u := pregU d, mod := tm t (condCode cc), d := pregN d, a := rsrcN a, ca := rsrcK a,
                             b := srcN b, cb := srcK b, imm := srcImm b }
  | .sel c t d a b pn neg => some (rawExt 0x21 c (tm t 0) d a b (0#4 ++ bit1 neg ++ pn))
  | .mov c t d b =>
    some { rawOf 0x22 c with u := dstU d, mod := tm t 0, d := dstN d, b := srcN b, cb := srcK b, imm := srcImm b }
  | .movi c t d b step =>
    some { rawOf 0x23 c with mod := tm t 0, d := d, b := srcN b, cb := srcK b, imm := extImm step b }
  | .movh c d a hi =>
    some { rawOf 0x24 c with u := dstU d, mod := tm .n64 0, d := dstN d, a := rsrcN a, ca := rsrcK a, cb := 2, imm := hi }
  | .lea c t d a b n =>
    some { rawOf 0x25 c with u := dstU d, mod := tm t 0, d := dstN d, a := rsrcN a, ca := rsrcK a, b := rsrcN b,
                             cb := rsrcK b, imm := 0#26 ++ n }
  | .bysel c d a b sel =>
    some { rawOf 0x26 c with u := dstU d, mod := tm .n32 0, d := dstN d, a := rsrcN a, ca := rsrcK a, b := rsrcN b,
                             cb := rsrcK b, imm := 0#12 ++ sel }
  | .bra c disp rcv =>
    some { rawOf 0x30 c with d := rcv.extractLsb' 16 8, a := rcv.extractLsb' 8 8, b := rcv.extractLsb' 0 8, imm := disp }
  | .brx c a point => some { rawOf 0x31 c with a := rsrcN a, ca := rsrcK a, imm := point }
  | .call c n disp => some { rawOf 0x32 c with d := n8 n, imm := disp }
  | .ret c n => some (rawA 0x33 c 0 n)
  | .reconv c => some (rawOf 0x34 c)
  | .join c => some (rawOf 0x35 c)
  | .loop c n disp => some { rawOf 0x36 c with d := n8 n, imm := disp }
  | .fadd c rm d a b => some (rawDAB 0x40 c (tm .f32 (rndCode rm)) d a b)
  | .fmul c rm d a b => some (rawDAB 0x41 c (tm .f32 (rndCode rm)) d a b)
  | .ffma c rm d a b e => some (rawDABC 0x42 c (tm .f32 (rndCode rm)) d a b e)
  | .fmin c t d a b => some (rawDAB 0x43 c (tm t 0) d a b)
  | .fmax c t d a b => some (rawDAB 0x44 c (tm t 0) d a b)
  | .fset c t cc d a b =>
    some { rawOf 0x45 c with u := pregU d, mod := tm t (fcondCode cc), d := pregN d, a := rsrcN a, ca := rsrcK a,
                             b := srcN b, cb := srcK b, imm := srcImm b }
  | .fclass c t d a m =>
    some { rawOf 0x46 c with u := pregU d, mod := tm t 0, d := pregN d, a := rsrcN a, ca := rsrcK a, imm := 0#23 ++ m }
  | .frnd c t rm d a => some (rawDA 0x47 c (tm t (rndCode rm)) d a)
  | .twadd c t rm d a b => some (rawDAB 0x48 c (tm t (rndCode rm)) d a b)
  | .twmul c t rm d a b => some (rawDAB 0x49 c (tm t (rndCode rm)) d a b)
  | .twfma c t rm d a b e => some (rawDABC 0x4A c (tm t (rndCode rm)) d a b e)
  | .cvt c satf dt st rm d a =>
    some { rawDA 0x50 c (tm dt (rndCode rm)) d a with imm := 0#3 ++ bit1 satf ++ tyCode st ++ 0#24 }
  | .pack c t rm satf h d a b =>
    some { rawOf 0x51 c with u := dstU d, mod := tm t (rndCode rm), d := dstN d, a := rsrcN a, ca := rsrcK a, b := rsrcN b,
                             cb := rsrcK b, imm := 0#30 ++ bit1 satf ++ bit1 h }
  | .unpack c t d a sel => some { rawDA 0x52 c (tm t 0) d a with imm := 0#26 ++ sel }
  | .rcp c t d a => some (rawDA 0x53 c (tm t 0) d a)
  | .rsq c t d a => some (rawDA 0x54 c (tm t 0) d a)
  | .sqrt c t d a => some (rawDA 0x55 c (tm t 0) d a)
  | .ex2 c t d a => some (rawDA 0x56 c (tm t 0) d a)
  | .lg2 c t d a => some (rawDA 0x57 c (tm t 0) d a)
  | .sin c t d a => some (rawDA 0x58 c (tm t 0) d a)
  | .cos c t d a => some (rawDA 0x59 c (tm t 0) d a)
  | .tanh c t d a => some (rawDA 0x5A c (tm t 0) d a)
  | .shfl c t mode d a b seg =>
    some { rawOf 0x60 c with mod := tm t (shflCode mode), d := d, a := a, b := srcN b, cb := srcK b,
                             imm := extImm (0#5 ++ seg) b }
  | .vote c mode u d p neg =>
    some { rawOf 0x61 c with u := u, mod := 0#4 ++ voteCode mode, d := d, a := 0#5 ++ p, imm := 0#31 ++ bit1 neg }
  | .redg c op t d a => some { rawOf 0x62 c with u := dstU d, mod := tm t (redCode op), d := dstN d, a := a }
  | .scang c op t exc d a => some { rawOf 0x63 c with mod := tm t (redCode op), d := d, a := a, imm := 0#31 ++ bit1 exc }
  | .matchLanes c all t d a => some { rawOf 0x64 c with mod := tm t (0#2 ++ bit1 all), d := d, a := a }
  | .pset c d a b e lut =>
    some { rawOf 0x65 c with u := pregU d, d := pregN d, a := pregN a, ca := pregC a, b := pregN b, cb := pregC b,
                             imm := 0#20 ++ (pregC e).extractLsb' 0 1 ++ (pregN e).extractLsb' 0 3 ++ lut }
  | .p2s c d m => some { rawOf 0x66 c with u := dstU d, d := dstN d, imm := 0#24 ++ m }
  | .s2p c u a m => some { rawOf 0x67 c with u := u, a := rsrcN a, ca := rsrcK a, imm := 0#24 ++ m }
  | .ld c t sc o d base ix =>
    some { rawOf 0x80 c with u := dstU d, mod := mm t (scopeCode sc), d := dstN d, a := n8 base, ca := ordCode o,
                             b := ixN ix, cb := ixK ix, imm := ixImm ix }
  | .st c t sc o d base ix =>
    some { rawOf 0x81 c with mod := mm t (scopeCode sc), d := d, a := n8 base, ca := ordCode o, b := ixN ix, cb := ixK ix,
                             imm := ixImm ix }
  | .lds c t w d a ix =>
    some { rawOf 0x82 c with u := dstU d, mod := mm t (winCode w), d := dstN d, a := rsrcN a, ca := rsrcK a, b := ixN ix,
                             cb := ixK ix, imm := ixImm ix }
  | .sts c t w d a ix =>
    some { rawOf 0x83 c with mod := mm t (winCode w), d := d, a := rsrcN a, ca := rsrcK a, b := ixN ix, cb := ixK ix,
                             imm := ixImm ix }
  | .ldc c t d ix bank off =>
    some { rawOf 0x84 c with u := dstU d, mod := mm t 0, d := dstN d, a := rsrcN ix, ca := rsrcK ix, b := 0#4 ++ bank,
                             cb := 3, imm := off }
  | .pref c tb base ix =>
    some { rawOf 0x85 c with mod := 0#6 ++ bit1 tb, a := n8 base, b := ixN ix, cb := ixK ix, imm := ixImm ix }
  | .atom c t sc o d base ix op f v =>
    some { rawOf 0x86 c with u := dstU d, mod := mm t (scopeCode sc), d := dstN d, a := n8 base, ca := ordCode o,
                             b := oixN ix, cb := oixK ix, imm := atomImm op f v }
  | .atoms c t w d a ix op f v =>
    some { rawOf 0x87 c with u := dstU d, mod := mm t (winCode w), d := dstN d, a := rsrcN a, ca := rsrcK a,
                             b := oixN ix, cb := oixK ix, imm := atomImm op f v }
  | .red c t sc o base ix op f v =>
    some { rawOf 0x88 c with mod := mm t (scopeCode sc), a := n8 base, ca := ordCode o, b := oixN ix, cb := oixK ix,
                             imm := atomImm op f v }
  | .fence c o sc => some { rawOf 0x89 c with mod := 0#1 ++ ordCode o ++ scopeCode sc }
  | .afence c sc => some { rawOf 0x8A c with mod := 0#3 ++ scopeCode sc }
  | .commit c => some (rawOf 0x8B c)
  | .mark c nl a nu b disp =>
    some { rawOf 0x8C c with d := 0#3 ++ nl, a := a, b := n8 b, cb := 1, imm := 0#3 ++ nu ++ disp }
  | .binit c w sc a v => some { rawA 0x90 c (om w sc) a with b := usrcN v, cb := usrcK v, imm := usrcImm v }
  | .barr c w sc a v => some { rawA 0x91 c (om w sc) a with b := usrcN v, cb := usrcK v, imm := usrcImm v }
  | .bexp c w sc a v => some { rawA 0x92 c (om w sc) a with b := usrcN v, cb := usrcK v, imm := usrcImm v }
  | .bwait c w sc d a ph t =>
    some { rawA 0x93 c (om w sc) a with u := pregU d, d := pregN d, b := n8 ph, cb := 1, imm := t }
  | .btry c w sc d a ph => some { rawA 0x94 c (om w sc) a with u := pregU d, d := pregN d, b := n8 ph, cb := 1 }
  | .binv c w sc a => some (rawA 0x95 c (om w sc) a)
  | .rinit c w sc a m => some { rawA 0x96 c (om w sc) a with b := n8 m, cb := 1 }
  | .rres c w sc d a => some { rawA 0x97 c (om w sc) a with d := n8 d }
  | .rpub c w sc a => some (rawA 0x98 c (om w sc) a)
  | .rwait c w sc d a => some { rawA 0x99 c (om w sc) a with d := n8 d }
  | .rrel c w sc a => some (rawA 0x9A c (om w sc) a)
  | .send c rel a ch => some { rawA 0xA0 c (0#5 ++ bit1 rel ++ 0#1) a with imm := 0#26 ++ ch }
  | .recv c acq d ch => some { rawOf 0xA1 c with mod := 0#6 ++ bit1 acq, d := n8 d, imm := 0#26 ++ ch }
  | .wpull c poll d q => some { rawOf 0xA2 c with mod := 0#6 ++ bit1 poll, d := n8 d, imm := 0#30 ++ q }
  | .wpush c a => some (rawA 0xA3 c 0 a)
  | .launch c w d a => some { rawA 0xA4 c (bit1 (pregU d) ++ 0#5 ++ bit1 w) a with d := pregN d }
  | .yld c => some (rawOf 0xA5 c)
  | .sleep c v => some { rawOf 0xA6 c with b := usrcN v, cb := usrcK v, imm := usrcImm v }
  | .exit c => some (rawOf 0xA7 c)
  | .widx c ext d a b f =>
    some { rawOf 0xA8 c with u := dstU d, mod := 0#6 ++ bit1 ext, d := dstN d, a := rsrcN a, ca := rsrcK a, b := rsrcN b,
                             cb := rsrcK b, imm := 0#29 ++ f }
  | .scroll c n dx dy => some (rawAI 0xB0 c 0 0 n (0#17 ++ dy ++ 0#1 ++ dx))
  | .scrollX c n dx dy => some (rawAI 0xB0 c 1 0 n (0#17 ++ dy ++ 0#1 ++ dx))
  | .scrq c d => some { rawOf 0xB1 c with d := n8 d }
  | .scrres c => some (rawOf 0xB2 c)
  | .cpy c n m => some { rawA 0xB3 c 0 n with b := ounN m, cb := ounK m }
  | .cpym c n m => some { rawA 0xB4 c 0 n with b := ounN m, cb := ounK m }
  | .cpyg c n m => some { rawA 0xB5 c 0 n with b := ounN m, cb := ounK m }
  | .cpyn c n m => some { rawA 0xB6 c 0 n with b := ounN m, cb := ounK m }
  | .cpyc c n ch => some (rawAI 0xB7 c 0 0 n (0#30 ++ ch))
  | .cpycRst c n ch => some (rawAI 0xB7 c 1 0 n (0#30 ++ ch))
  | .cpyq c sel d e => some { rawOf 0xB8 c with mod := 0#5 ++ sel, d := n8 d, imm := 0#29 ++ e }
  | .wload c t n => some (rawAI 0xC0 c (tm t 0) 0 n 0)
  | .mma c t bank n row0 => some (rawAI 0xC1 c (tm t 0) (0#5 ++ bank) n (0#24 ++ row0))
  | .aload c sc bank n row0 nc full =>
    some (rawAI 0xC2 c (0#6 ++ bit1 sc) (0#5 ++ bank) n (0#12 ++ bit1 full ++ nc ++ row0))
  | .adrain c nochk nrm sc bank n sv row0 nc full =>
    some { rawA 0xC3 c (0#4 ++ bit1 sc ++ bit1 nrm ++ bit1 nochk) n with
             d := 0#5 ++ bank, b := ounN sv, cb := ounK sv, imm := 0#12 ++ bit1 full ++ nc ++ row0 }
  | .azero c bank => some { rawOf 0xC4 c with d := 0#5 ++ bank }
  | .delta c scalar bank n beta => some (rawAI 0xC5 c (0#5 ++ bit1 scalar ++ 0#1) (0#5 ++ bank) n beta)
  | .deltaCk c bank n => some (rawAI 0xC5 c 1 (0#5 ++ bank) n 0)
  | .tsolve c n m cnt bofs => some (rawAB 0xC6 c 0 0 n m (0#19 ++ bofs ++ cnt))
  | .dstep c n first cnt => some (rawAI 0xC7 c 0 0 n (0#19 ++ cnt ++ first))
  | .atile c n m => some (rawAB 0xC8 c 0 0 n m 0)
  | .amerge c bank n row0 => some (rawAI 0xC9 c 0 (0#5 ++ bank) n (0#24 ++ row0))
  | .kvapp c n m p base => some (rawAB 0xD0 c 0 (n8 p) n m base)
  | .kvmap c d n m h => some (rawAB 0xD1 c 0 (n8 d) n m (0#16 ++ h))
  | .kvmrg c n m tau => some (rawAB 0xD2 c 0 0 n m tau)
  | .park c n m => some (rawAB 0xD3 c 0 0 n m 0)
  | .promo c n m => some (rawAB 0xD4 c 0 0 n m 0)
  | .tierq c d n m => some (rawAB 0xD5 c 0 (n8 d) n m 0)
  | .trap c n => some { rawOf 0xE0 c with cb := 2, imm := 0#28 ++ n }
  | .rtt c n => some (rawA 0xE1 c 0 n)
  | .rds c d x => some { rawOf 0xE2 c with u := dstU d, d := dstN d, a := x, ca := 2 }
  | .wrs c x b => some { rawOf 0xE3 c with d := x, b := srcN b, cb := srcK b, imm := srcImm b }
  | .nop c => some (rawOf 0xE4 c)
  | .bkpt c n => some { rawOf 0xE5 c with cb := 2, imm := 0#24 ++ n }
  | .tlbinvVa c n m => some (rawAB 0xE8 c 0 0 n m 0)
  | .tlbinvTnt c n m => some (rawAB 0xE8 c 1 0 n m 0)
  | .tlbinvPart c n m => some (rawAB 0xE8 c 2 0 n m 0)
  | .qctlMap c d n m => some (rawAB 0xE9 c 0 (n8 d) n m 0)
  | .qctlUnmap c d n m => some (rawAB 0xE9 c 1 (n8 d) n m 0)
  | .qctlPrio c d n m => some (rawAB 0xE9 c 2 (n8 d) n m 0)
  | .qctlSusp c d n m => some (rawAB 0xE9 c 3 (n8 d) n m 0)
  | .qctlResm c d n m => some (rawAB 0xE9 c 4 (n8 d) n m 0)
  | .qctlState c d n m => some (rawAB 0xE9 c 5 (n8 d) n m 0)
  | .pctlCfg c d n m => some (rawAB 0xEA c 0 (n8 d) n m 0)
  | .pctlIw c d n m => some (rawAB 0xEA c 1 (n8 d) n m 0)
  | .pctlStop c d n m => some (rawAB 0xEA c 2 (n8 d) n m 0)
  | .pctlReset c d n m => some (rawAB 0xEA c 3 (n8 d) n m 0)
  | .pctlGo c d n m => some (rawAB 0xEA c 4 (n8 d) n m 0)
  | .ctxsv c d n m => some (rawAB 0xEB c 0 (n8 d) n m 0)
  | .ctxld c d n m => some (rawAB 0xEC c 0 (n8 d) n m 0)
  | .errrdRd c d n m => some (rawAB 0xED c 0 (n8 d) n m 0)
  | .errrdRdclr c d n m => some (rawAB 0xED c 1 (n8 d) n m 0)
  | .wdogSet c n m => some (rawAB 0xEE c 0 0 n m 0)
  | .enrgBal c d n m => some (rawAB 0xEF c 0 (n8 d) n m 0)
  | .enrgCoef c d n m => some (rawAB 0xEF c 1 (n8 d) n m 0)
  | .enrgBurst c d n m => some (rawAB 0xEF c 2 (n8 d) n m 0)
  | .enrgShare c d n m => some (rawAB 0xEF c 3 (n8 d) n m 0)
  | .pathSwap _ _ => none
  | .bwaitTimeout _ => none
  | .launchWaitTimeout _ => none
  | .sleepExpiry _ => none
  | .variableLatencyResult _ _ _ => none
  | .memoryOperationPerform _ _ _ => none
  | .storeBufferDrain _ => none
  | .propagationLevelRaise _ => none
  | .scrollProgress _ _ => none
  | .copyRunGrant _ => none
  | .copyRunLand _ _ => none
  | .engineCommandCompletion _ => none
  | .chainEntryComplete _ => none
  | .arrayCommandExecute _ _ => none
  | .cacheCommandExecute _ _ => none
  | .faultRecordPost _ _ => none
  | .faultInterrupt _ => none
  | .faultResponse _ _ => none
  | .patchPlacement _ => none
  | .evictedGroupReturn _ => none
  | .launchEntryStart _ _ => none
  | .launchCompletion _ => none
  | .stageTick _ => none
  | .balanceTick _ => none
  | .balanceItemArrival _ => none
  | .energyWindow _ => none
  | .throttleTick _ => none
  | .watchdogExpiry _ _ => none
  | .notify _ _ _ => none
  | .queuePendingInterrupt _ => none
  | .slotStarvationInterrupt _ => none
  | .registerWriteOther _ _ _ => none
  | .neltikFrame _ _ _ => none
  | .copyMessageArrival _ _ _ => none
  | .transportAck _ _ _ => none
  | .rateTokenRefill _ => none
  | .sluiceWrite _ _ _ => none
  | .wakePerform _ => none
  | .wakeStageADone _ _ => none
  | .wakeStageBDone _ _ => none
  | .ageingVisit _ _ => none
  | .tierMoveDone _ => none
  | .poolLowInterrupt _ => none
  | .flashCommandCompletion _ _ => none
  | .flashCommandTimeout _ => none
  | .rakePatrol _ _ _ _ => none
  | .hostCxlMemAccess _ _ _ => none
  | .powerGood _ => none
  | .packageReset => none
  | .powerDownRequest => none
  | .powerWindow _ => none
  | .partitionMap _ _ => none
  | .startManager _ _ => none
  | .pair _ _ => none
  | .unpair _ _ => none
  | .pairReset _ _ => none
  | .rakePassLength _ _ => none
  | .telemetry _ _ => none
  | .loadFirmware _ _ => none
  | .identify _ _ => none
  | .mailboxCommandDone => none
  | .pairInputApply _ => none
  | .signatureExchange _ _ => none
  | .pairLinkLost _ => none
  | .getVersion _ => none
  | .getCapabilities _ => none
  | .negotiateAlgorithms _ => none
  | .getDigests _ => none
  | .getCertificate _ => none
  | .challenge _ => none
  | .getMeasurements _ => none

/-- The word of an instruction; 0 for a step of the machine, which has none. -/
def encode (i : Instr) : Word96 :=
  match i with
  | .clause h => headerWord h
  | i =>
    match rawEnc i with
    | some r => Raw.toWord r
    | none => 0

/-! ### Reading operands -/

def pCtl (r : Raw) : Ctl :=
  { gn := r.gn, gp := r.gp, stall := r.hint.extractLsb' 12 4, yld := r.hint.getLsbD 11, pair := r.hint.getLsbD 10,
    fsel := r.hint.getLsbD 9, fset := r.hint.getLsbD 8, reua := r.hint.getLsbD 7, reub := r.hint.getLsbD 6 }

def lo6 (b : BitVec 8) : BitVec 6 := b.extractLsb' 0 6
def pTy (r : Raw) : Ty := tyOf (r.mod.extractLsb' 3 4)
def pLow (r : Raw) : BitVec 3 := r.mod.extractLsb' 0 3
def pTyM (r : Raw) : Ty := tyOf (0#1 ++ r.mod.extractLsb' 4 3)
def pSc (r : Raw) : BitVec 4 := r.mod.extractLsb' 0 4
def pD (r : Raw) : Dst := if r.u then .uni (lo6 r.d) else .lane r.d
def pPD (r : Raw) : PReg := if r.u then .uni (r.d.extractLsb' 0 2) else .lane (r.d.extractLsb' 0 3)
def pReg (k : BitVec 2) (n : BitVec 8) : RSrc := if k = 1 then .uni (lo6 n) else .lane n
def pA (r : Raw) : RSrc := pReg r.ca r.a
def pBr (r : Raw) : RSrc := pReg r.cb r.b
def pC (r : Raw) : RSrc := if r.imm.getLsbD 8 then .uni (r.imm.extractLsb' 0 6) else .lane (r.imm.extractLsb' 0 8)

/-- B of any class, with the immediate or offset that goes with it (R45, R46). -/
def pSrc (r : Raw) (im : BitVec 32) (off : BitVec 32) : Src :=
  if r.cb = 0 then .lane r.b
  else if r.cb = 1 then .uni (lo6 r.b)
  else if r.cb = 2 then .imm im
  else .cbank (r.b.extractLsb' 0 4) off

def pB (r : Raw) : Src := pSrc r r.imm r.imm
def i24 (r : Raw) : BitVec 24 := r.imm.extractLsb' 0 24
def pExt (r : Raw) : BitVec 8 := r.imm.extractLsb' 24 8
/-- B of the EXT form: its immediate is sign-extended (R128). -/
def pBx (r : Raw) : Src := pSrc r ((i24 r).signExtend 32) ((i24 r).setWidth 32)
/-- B of `SHFL`: its immediate is zero-extended (R173). -/
def pBz (r : Raw) : Src := pSrc r ((i24 r).setWidth 32) ((i24 r).setWidth 32)
def pUSrc (r : Raw) : USrc := if r.cb = 2 then .imm r.imm else .uni (lo6 r.b)
def pIx (r : Raw) : MemIx := if r.cb = 0 then .idx r.b else .off r.imm
def pOix (r : Raw) : Option (BitVec 8) := if r.cb = 0 then some r.b else none
def pOun (r : Raw) : Option (BitVec 6) := if r.cb = 1 then some (lo6 r.b) else none
def pP (k : BitVec 2) (n : BitVec 8) : PReg := if k = 1 then .uni (n.extractLsb' 0 2) else .lane (n.extractLsb' 0 3)

def pAtomVal (r : Raw) : AtomVal :=
  if r.imm.getLsbD 28 then
    .reg (if r.imm.getLsbD 8 then .uni (r.imm.extractLsb' 0 6) else .lane (r.imm.extractLsb' 0 8))
      (if r.imm.getLsbD 17 then .uni (r.imm.extractLsb' 9 6) else .lane (r.imm.extractLsb' 9 8))
  else .imm (i24 r)

def pOp (r : Raw) : AtomOp := atomOf (r.imm.extractLsb' 24 3)
def pF (r : Raw) : Bool := r.imm.getLsbD 27
def pWin (r : Raw) : Win := winOf (r.mod.extractLsb' 3 4)
def pOSc (r : Raw) : Scope := scopeOf (0#1 ++ pLow r)
def lo3 (b : BitVec 8) : BitVec 3 := b.extractLsb' 0 3

/-! ### What a word's bits alone make illegal -/

/-- A mask of word bits [hi:lo]. -/
def wmask (hi lo : Nat) : Word96 := BitVec.ofNat 96 ((2 ^ (hi + 1 - lo) - 1) * 2 ^ lo)

/-- A cause that the word's bits show, with the bits it explains: those bits are not judged again as unused fields. -/
abbrev Issue := Nat × Word96

def mkU : Word96 := wmask 87 87
def mkD : Word96 := wmask 75 68
def mkA : Word96 := wmask 67 60
def mkB : Word96 := wmask 59 52
def mkCA : Word96 := wmask 51 50
def mkCB : Word96 := wmask 49 48

def iss (b : Bool) (code : Nat) (m : Word96) : List Issue := if b then [(code, m)] else []

/-- A uniform register number is 0 to 63 (R46). -/
def uniI (n : BitVec 8) (m : Word96) : List Issue := iss (decide (63 < n.toNat)) 5 m

def iD (r : Raw) : List Issue := if r.u then uniI r.d mkD else []
def iPD (r : Raw) : List Issue := iss (decide ((if r.u then 3 else 7) < r.d.toNat)) 5 mkD
/-- A lane or uniform register in A; any other class is operand-class (R45, R48). -/
def iA (r : Raw) : List Issue :=
  if r.ca = 0 then [] else if r.ca = 1 then uniI r.a mkA else [(5, mkA ||| mkCA)]
def iBr (r : Raw) : List Issue :=
  if r.cb = 0 then [] else if r.cb = 1 then uniI r.b mkB else [(5, mkB ||| mkCB)]
def iB (r : Raw) : List Issue :=
  if r.cb = 0 then [] else if r.cb = 1 then uniI r.b mkB
  else if r.cb = 2 then iss (r.b != 0) 5 mkB else iss (decide (15 < r.b.toNat)) 5 mkB
def iC (r : Raw) : List Issue := iss (r.imm.getLsbD 8 && (r.imm.getLsbD 7 || r.imm.getLsbD 6)) 5 (wmask 23 22)
def iRnd (r : Raw) : List Issue := iss (decide (4 < (pLow r).toNat)) 2 0
def iLow (r : Raw) (hi : Nat) : List Issue := iss (decide (hi < (pLow r).toNat)) 2 0
/-- A uniform register in A under a fixed class (R45). -/
def iAu (r : Raw) : List Issue := if r.ca = 1 then uniI r.a mkA else [(5, mkA ||| mkCA)]
def iBu (r : Raw) : List Issue := if r.cb = 1 then uniI r.b mkB else [(5, mkB ||| mkCB)]
/-- Class immediate in B under a fixed class. -/
def iBi (r : Raw) : List Issue := iss (r.cb != 2) 5 mkCB
def iDu (r : Raw) : List Issue := uniI r.d mkD
def iBank (r : Raw) : List Issue := iss (decide (7 < r.d.toNat)) 5 mkD
def iUSrc (r : Raw) : List Issue :=
  if r.cb = 1 then uniI r.b mkB else if r.cb = 2 then iss (r.b != 0) 5 mkB else [(5, mkB ||| mkCB ||| wmask 47 16)]
/-- The index or offset form of a memory operand (R185). -/
def iIx (r : Raw) : List Issue := iss (r.cb = 1 || r.cb = 3) 5 (mkB ||| mkCB)
def iOun (r : Raw) : List Issue :=
  if r.cb = 1 then uniI r.b mkB else iss (r.cb != 2) 5 mkCB
def iSc (r : Raw) : List Issue := iss (decide (8 < (pSc r).toNat)) 2 0
def iWin (r : Raw) : List Issue := iss (decide (8 < (r.mod.extractLsb' 3 4).toNat)) 2 0
def iObj (r : Raw) : List Issue := iAu r ++ iWin r ++ iss (decide (5 < (pLow r).toNat)) 2 0
def iBaseU (r : Raw) : List Issue := uniI r.a mkA
def iAtom (r : Raw) : List Issue :=
  if r.imm.getLsbD 28 then
    iss (r.imm.getLsbD 8 && (r.imm.getLsbD 7 || r.imm.getLsbD 6)) 5 (wmask 23 22)
      ++ iss (r.imm.getLsbD 17 && (r.imm.getLsbD 16 || r.imm.getLsbD 15)) 5 (wmask 32 31)
  else []
def iPr (k : BitVec 2) (n : BitVec 8) (m : Word96) : List Issue :=
  if k = 0 then iss (decide (7 < n.toNat)) 5 m else if k = 1 then iss (decide (3 < n.toNat)) 5 m else [(5, m)]

/-! ### Reading an instruction, by the high digit of its opcode (R60) -/

/-- A word whose opcode the map leaves reserved (R61). -/
def pReserved (w : Word96) : Instr × List Issue := (.reservedOpcode (w.extractLsb' 88 8) (w.extractLsb' 0 88), [])

def p0 (w : Word96) (r : Raw) (low : Nat) : Instr × List Issue :=
  let c := pCtl r
  let t := pTy r
  match low with
  | 1 => (.iadd c t (r.mod.getLsbD 0) (pD r) (pA r) (pB r), iD r ++ iA r ++ iB r)
  | 2 => (.iaddc c t (pD r) (pA r) (pBx r) (r.imm.extractLsb' 24 3), iD r ++ iA r ++ iB r)
  | 3 => (.isub c t (r.mod.getLsbD 0) (pD r) (pA r) (pB r), iD r ++ iA r ++ iB r)
  | 4 => (.imul c t (pD r) (pA r) (pB r), iD r ++ iA r ++ iB r)
  | 5 => (.imulh c t (pD r) (pA r) (pB r), iD r ++ iA r ++ iB r)
  | 6 => (.imad c t (pD r) (pA r) (pBr r) (pC r), iD r ++ iA r ++ iBr r ++ iC r)
  | 7 => (.imin c t (pD r) (pA r) (pB r), iD r ++ iA r ++ iB r)
  | 8 => (.imax c t (pD r) (pA r) (pB r), iD r ++ iA r ++ iB r)
  | 9 => (.iabs c t (r.mod.getLsbD 0) (pD r) (pA r), iD r ++ iA r)
  | 10 => (.clmul c t (r.mod.getLsbD 0) (pD r) (pA r) (pB r), iD r ++ iA r ++ iB r)
  | _ => pReserved w

def p1 (r : Raw) (low : Nat) : Instr × List Issue :=
  let c := pCtl r
  let t := pTy r
  match low with
  | 0 => (.shl c t (pD r) (pA r) (pB r), iD r ++ iA r ++ iB r)
  | 1 => (.shr c t (pD r) (pA r) (pB r), iD r ++ iA r ++ iB r)
  | 2 => (.sar c t (pD r) (pA r) (pB r), iD r ++ iA r ++ iB r)
  | 3 => (.rotl c t (pD r) (pA r) (pB r), iD r ++ iA r ++ iB r)
  | 4 => (.blut c t (pD r) (pA r) (pBx r) (pExt r), iD r ++ iA r ++ iB r)
  | 5 => (.and c t (pD r) (pA r) (pB r), iD r ++ iA r ++ iB r)
  | 6 => (.or c t (pD r) (pA r) (pB r), iD r ++ iA r ++ iB r)
  | 7 => (.xor c t (pD r) (pA r) (pB r), iD r ++ iA r ++ iB r)
  | 8 => (.not c t (pD r) (pA r), iD r ++ iA r)
  | 9 => (.popc c t (pD r) (pA r), iD r ++ iA r)
  | 10 => (.clz c t (pD r) (pA r), iD r ++ iA r)
  | 11 => (.ctz c t (pD r) (pA r), iD r ++ iA r)
  | 12 => (.brev c t (pD r) (pA r), iD r ++ iA r)
  | 13 => (.bswap c t (pD r) (pA r), iD r ++ iA r)
  | 14 => (.bfx c t (pD r) (pA r) (pB r), iD r ++ iA r ++ iB r)
  | _ => (.bfi c t (pD r) (pA r) (pBr r) (pC r), iD r ++ iA r ++ iBr r ++ iC r)

def p2 (w : Word96) (r : Raw) (low : Nat) : Instr × List Issue :=
  let c := pCtl r
  let t := pTy r
  match low with
  | 0 => (.iset c t (condOf (pLow r)) (pPD r) (pA r) (pB r), iPD r ++ iA r ++ iB r ++ iLow r 5)
  | 1 => (.sel c t (pD r) (pA r) (pBx r) (r.imm.extractLsb' 24 3) (r.imm.getLsbD 27), iD r ++ iA r ++ iB r)
  | 2 => (.mov c t (pD r) (pB r), iD r ++ iB r)
  | 3 => (.movi c t r.d (pBx r) (pExt r), iss r.u 5 (mkU ||| mkD) ++ iB r)
  | 4 => (.movh c (pD r) (pA r) r.imm, iD r ++ iA r)
  | 5 => (.lea c t (pD r) (pA r) (pBr r) (r.imm.extractLsb' 0 6), iD r ++ iA r ++ iBr r)
  | 6 => (.bysel c (pD r) (pA r) (pBr r) (r.imm.extractLsb' 0 20), iD r ++ iA r ++ iBr r)
  | _ => pReserved w

def p3 (w : Word96) (r : Raw) (low : Nat) : Instr × List Issue :=
  let c := pCtl r
  match low with
  | 0 => (.bra c r.imm (r.d ++ r.a ++ r.b), [])
  | 1 => (.brx c (pA r) r.imm, iA r)
  | 2 => (.call c (lo6 r.d) r.imm, iDu r)
  | 3 => (.ret c (lo6 r.a), iAu r)
  | 4 => (.reconv c, [])
  | 5 => (.join c, [])
  | 6 => (.loop c (lo6 r.d) r.imm, iDu r)
  | _ => pReserved w

def p4 (w : Word96) (r : Raw) (low : Nat) : Instr × List Issue :=
  let c := pCtl r
  let t := pTy r
  let rm := rndOf (pLow r)
  match low with
  | 0 => (.fadd c rm (pD r) (pA r) (pB r), iD r ++ iA r ++ iB r ++ iRnd r)
  | 1 => (.fmul c rm (pD r) (pA r) (pB r), iD r ++ iA r ++ iB r ++ iRnd r)
  | 2 => (.ffma c rm (pD r) (pA r) (pBr r) (pC r), iD r ++ iA r ++ iBr r ++ iC r ++ iRnd r)
  | 3 => (.fmin c t (pD r) (pA r) (pB r), iD r ++ iA r ++ iB r)
  | 4 => (.fmax c t (pD r) (pA r) (pB r), iD r ++ iA r ++ iB r)
  | 5 => (.fset c t (fcondOf (pLow r)) (pPD r) (pA r) (pB r), iPD r ++ iA r ++ iB r)
  | 6 => (.fclass c t (pPD r) (pA r) (r.imm.extractLsb' 0 9), iPD r ++ iA r)
  | 7 => (.frnd c t rm (pD r) (pA r), iD r ++ iA r ++ iRnd r)
  | 8 => (.twadd c t rm (pD r) (pA r) (pB r), iD r ++ iA r ++ iB r ++ iRnd r)
  | 9 => (.twmul c t rm (pD r) (pA r) (pB r), iD r ++ iA r ++ iB r ++ iRnd r)
  | 10 => (.twfma c t rm (pD r) (pA r) (pBr r) (pC r), iD r ++ iA r ++ iBr r ++ iC r ++ iRnd r)
  | _ => pReserved w

def p5 (w : Word96) (r : Raw) (low : Nat) : Instr × List Issue :=
  let c := pCtl r
  let t := pTy r
  let rm := rndOf (pLow r)
  match low with
  | 0 => (.cvt c (r.imm.getLsbD 28) t (tyOf (r.imm.extractLsb' 24 4)) rm (pD r) (pA r), iD r ++ iA r ++ iRnd r)
  | 1 => (.pack c t rm (r.imm.getLsbD 1) (r.imm.getLsbD 0) (pD r) (pA r) (pBr r), iD r ++ iA r ++ iBr r ++ iRnd r)
  | 2 => (.unpack c t (pD r) (pA r) (r.imm.extractLsb' 0 6), iD r ++ iA r)
  | 3 => (.rcp c t (pD r) (pA r), iD r ++ iA r)
  | 4 => (.rsq c t (pD r) (pA r), iD r ++ iA r)
  | 5 => (.sqrt c t (pD r) (pA r), iD r ++ iA r)
  | 6 => (.ex2 c t (pD r) (pA r), iD r ++ iA r)
  | 7 => (.lg2 c t (pD r) (pA r), iD r ++ iA r)
  | 8 => (.sin c t (pD r) (pA r), iD r ++ iA r)
  | 9 => (.cos c t (pD r) (pA r), iD r ++ iA r)
  | 10 => (.tanh c t (pD r) (pA r), iD r ++ iA r)
  | _ => pReserved w

/-- A lane register in A under a fixed class. -/
def iAl (r : Raw) : List Issue := iss (r.ca != 0) 5 (mkA ||| mkCA)

def p6 (w : Word96) (r : Raw) (low : Nat) : Instr × List Issue :=
  let c := pCtl r
  let t := pTy r
  match low with
  | 0 => (.shfl c t (shflOf (pLow r)) r.d r.a (pBz r) (r.imm.extractLsb' 24 3), iss r.u 5 (mkU ||| mkD) ++ iAl r ++ iB r ++ iLow r 3)
  | 1 => (.vote c (voteOf (pLow r)) r.u r.d (lo3 r.a) (r.imm.getLsbD 0),
      iLow r 3 ++ iss (r.ca != 0) 5 (mkA ||| mkCA) ++ iss (decide (7 < r.a.toNat)) 5 mkA)
  | 2 => (.redg c (redOf (pLow r)) t (pD r) r.a, iD r ++ iAl r ++ iLow r 5)
  | 3 => (.scang c (redOf (pLow r)) t (r.imm.getLsbD 0) r.d r.a, iAl r ++ iLow r 5)
  | 4 => (.matchLanes c (r.mod.getLsbD 0) t r.d r.a, iAl r ++ iLow r 1)
  | 5 => (.pset c (pPD r) (pP r.ca r.a) (pP r.cb r.b)
      (pP (0#1 ++ r.imm.extractLsb' 11 1) (0#5 ++ r.imm.extractLsb' 8 3)) (r.imm.extractLsb' 0 8),
      iPD r ++ iPr r.ca r.a (mkA ||| mkCA) ++ iPr r.cb r.b (mkB ||| mkCB)
        ++ iPr (0#1 ++ r.imm.extractLsb' 11 1) (0#5 ++ r.imm.extractLsb' 8 3) (wmask 27 24))
  | 6 => (.p2s c (pD r) (r.imm.extractLsb' 0 8), iD r)
  | 7 => (.s2p c r.u (pA r) (r.imm.extractLsb' 0 8), iA r)
  | _ => pReserved w

def p8 (w : Word96) (r : Raw) (low : Nat) : Instr × List Issue :=
  let c := pCtl r
  let t := pTyM r
  let sc := scopeOf (pSc r)
  let o := ordOf r.ca
  let wn := winOf (pSc r)
  match low with
  | 0 => (.ld c t sc o (pD r) (lo6 r.a) (pIx r), iD r ++ iBaseU r ++ iIx r ++ iSc r)
  | 1 => (.st c t sc o r.d (lo6 r.a) (pIx r), iBaseU r ++ iIx r ++ iSc r)
  | 2 => (.lds c t wn (pD r) (pA r) (pIx r), iD r ++ iA r ++ iIx r ++ iSc r)
  | 3 => (.sts c t wn r.d (pA r) (pIx r), iA r ++ iIx r ++ iSc r)
  | 4 => (.ldc c t (pD r) (pA r) (r.b.extractLsb' 0 4) r.imm,
      iD r ++ iA r ++ iss (r.cb != 3) 5 mkCB ++ iss (decide (15 < r.b.toNat)) 5 mkB)
  | 5 => (.pref c (r.mod.getLsbD 0) (lo6 r.a) (pIx r), iBaseU r ++ iIx r)
  | 6 => (.atom c t sc o (pD r) (lo6 r.a) (pOix r) (pOp r) (pF r) (pAtomVal r), iD r ++ iBaseU r ++ iIx r ++ iSc r ++ iAtom r)
  | 7 => (.atoms c t wn (pD r) (pA r) (pOix r) (pOp r) (pF r) (pAtomVal r), iD r ++ iA r ++ iIx r ++ iSc r ++ iAtom r)
  | 8 => (.red c t sc o (lo6 r.a) (pOix r) (pOp r) (pF r) (pAtomVal r), iBaseU r ++ iIx r ++ iSc r ++ iAtom r)
  | 9 => (.fence c (ordOf (r.mod.extractLsb' 4 2)) sc, iSc r)
  | 10 => (.afence c sc, iSc r)
  | 11 => (.commit c, [])
  | 12 => (.mark c (r.d.extractLsb' 0 5) r.a (r.imm.extractLsb' 24 5) (lo6 r.b) (i24 r), iAl r ++ iBu r)
  | _ => pReserved w

def p9 (w : Word96) (r : Raw) (low : Nat) : Instr × List Issue :=
  let c := pCtl r
  let wn := pWin r
  let sc := pOSc r
  match low with
  | 0 => (.binit c wn sc (lo6 r.a) (pUSrc r), iObj r ++ iUSrc r)
  | 1 => (.barr c wn sc (lo6 r.a) (pUSrc r), iObj r ++ iUSrc r)
  | 2 => (.bexp c wn sc (lo6 r.a) (pUSrc r), iObj r ++ iUSrc r)
  | 3 => (.bwait c wn sc (pPD r) (lo6 r.a) (lo6 r.b) r.imm, iObj r ++ iPD r ++ iBu r)
  | 4 => (.btry c wn sc (pPD r) (lo6 r.a) (lo6 r.b), iObj r ++ iPD r ++ iBu r)
  | 5 => (.binv c wn sc (lo6 r.a), iObj r)
  | 6 => (.rinit c wn sc (lo6 r.a) (lo6 r.b), iObj r ++ iBu r)
  | 7 => (.rres c wn sc (lo6 r.d) (lo6 r.a), iObj r ++ iDu r)
  | 8 => (.rpub c wn sc (lo6 r.a), iObj r)
  | 9 => (.rwait c wn sc (lo6 r.d) (lo6 r.a), iObj r ++ iDu r)
  | 10 => (.rrel c wn sc (lo6 r.a), iObj r)
  | _ => pReserved w

def pa (w : Word96) (r : Raw) (low : Nat) : Instr × List Issue :=
  let c := pCtl r
  match low with
  | 0 => (.send c (r.mod.getLsbD 1) (lo6 r.a) (r.imm.extractLsb' 0 6), iAu r)
  | 1 => (.recv c (r.mod.getLsbD 0) (lo6 r.d) (r.imm.extractLsb' 0 6), iDu r)
  | 2 => (.wpull c (r.mod.getLsbD 0) (lo6 r.d) (r.imm.extractLsb' 0 2), iDu r)
  | 3 => (.wpush c (lo6 r.a), iAu r)
  | 4 => (.launch c (r.mod.getLsbD 0) (if r.mod.getLsbD 6 then .uni (r.d.extractLsb' 0 2) else .lane (lo3 r.d)) (lo6 r.a),
      iAu r ++ iss (decide ((if r.mod.getLsbD 6 then 3 else 7) < r.d.toNat)) 5 mkD)
  | 5 => (.yld c, [])
  | 6 => (.sleep c (pUSrc r), iUSrc r)
  | 7 => (.exit c, [])
  | 8 => (.widx c (r.mod.getLsbD 0) (pD r) (pA r) (pBr r) (r.imm.extractLsb' 0 3),
      iD r ++ iA r ++ iBr r ++ iss (r.mod.getLsbD 0 && decide (1 < r.cb.toNat)) 2 0)
  | _ => pReserved w

def pb (w : Word96) (r : Raw) (low : Nat) : Instr × List Issue :=
  let c := pCtl r
  match low with
  | 0 =>
    if r.mod.getLsbD 0 then
      (.scrollX c (lo6 r.a) (r.imm.extractLsb' 0 7) (r.imm.extractLsb' 8 7), iAu r ++ iBi r)
    else (.scroll c (lo6 r.a) (r.imm.extractLsb' 0 7) (r.imm.extractLsb' 8 7), iAu r ++ iBi r)
  | 1 => (.scrq c (lo6 r.d), iDu r)
  | 2 => (.scrres c, [])
  | 3 => (.cpy c (lo6 r.a) (pOun r), iAu r ++ iOun r)
  | 4 => (.cpym c (lo6 r.a) (pOun r), iAu r ++ iOun r)
  | 5 => (.cpyg c (lo6 r.a) (pOun r), iAu r ++ iOun r)
  | 6 => (.cpyn c (lo6 r.a) (pOun r), iAu r ++ iOun r)
  | 7 =>
    if r.mod.getLsbD 0 then (.cpycRst c (lo6 r.a) (r.imm.extractLsb' 0 2), iAu r ++ iBi r)
    else (.cpyc c (lo6 r.a) (r.imm.extractLsb' 0 2), iAu r ++ iBi r)
  | 8 => (.cpyq c (r.mod.extractLsb' 0 2) (lo6 r.d) (r.imm.extractLsb' 0 3), iDu r)
  | _ => pReserved w

def pcEng (w : Word96) (r : Raw) (low : Nat) : Instr × List Issue :=
  let c := pCtl r
  let t := pTy r
  let bank := lo3 r.d
  let row0 := r.imm.extractLsb' 0 8
  let nc := r.imm.extractLsb' 8 11
  let full := r.imm.getLsbD 19
  match low with
  | 0 => (.wload c t (lo6 r.a), iAu r ++ iBi r)
  | 1 => (.mma c t bank (lo6 r.a) row0, iAu r ++ iBi r ++ iBank r)
  | 2 => (.aload c (r.mod.getLsbD 0) bank (lo6 r.a) row0 nc full, iAu r ++ iBi r ++ iBank r)
  | 3 => (.adrain c (r.mod.getLsbD 0) (r.mod.getLsbD 1) (r.mod.getLsbD 2) bank (lo6 r.a) (pOun r) row0 nc full,
      iAu r ++ iOun r ++ iBank r)
  | 4 => (.azero c bank, iBank r)
  | 5 =>
    if r.mod.getLsbD 0 then
      (.deltaCk c bank (lo6 r.a), iAu r ++ iBi r ++ iBank r)
    else (.delta c (r.mod.getLsbD 1) bank (lo6 r.a) r.imm, iAu r ++ iBi r ++ iBank r)
  | 6 => (.tsolve c (lo6 r.a) (lo6 r.b) (r.imm.extractLsb' 0 7) (r.imm.extractLsb' 7 6), iAu r ++ iBu r)
  | 7 => (.dstep c (lo6 r.a) (r.imm.extractLsb' 0 6) (r.imm.extractLsb' 6 7), iAu r ++ iBi r)
  | 8 => (.atile c (lo6 r.a) (lo6 r.b), iAu r ++ iBu r)
  | 9 => (.amerge c bank (lo6 r.a) row0, iAu r ++ iBi r ++ iBank r)
  | _ => pReserved w

def pd (w : Word96) (r : Raw) (low : Nat) : Instr × List Issue :=
  let c := pCtl r
  match low with
  | 0 => (.kvapp c (lo6 r.a) (lo6 r.b) (lo6 r.d) r.imm, iAu r ++ iBu r ++ iDu r)
  | 1 => (.kvmap c (lo6 r.d) (lo6 r.a) (lo6 r.b) (r.imm.extractLsb' 0 16), iAu r ++ iBu r ++ iDu r)
  | 2 => (.kvmrg c (lo6 r.a) (lo6 r.b) r.imm, iAu r ++ iBu r)
  | 3 => (.park c (lo6 r.a) (lo6 r.b), iAu r ++ iBu r)
  | 4 => (.promo c (lo6 r.a) (lo6 r.b), iAu r ++ iBu r)
  | 5 => (.tierq c (lo6 r.d) (lo6 r.a) (lo6 r.b), iAu r ++ iBu r ++ iDu r)
  | _ => pReserved w

/-- The supervisor words: selector in MOD[82:80]; a selector the table does not list is reserved (R252). -/
def pSup (r : Raw) (low : Nat) : Instr × List Issue :=
  let c := pCtl r
  let n := lo6 r.a
  let m := lo6 r.b
  let d := lo6 r.d
  let i := iAu r ++ iBu r ++ iDu r
  match low, (pLow r).toNat with
  | 8, 0 => (.tlbinvVa c n m, iAu r ++ iBu r)
  | 8, 1 => (.tlbinvTnt c n m, iAu r ++ iBu r)
  | 8, 2 => (.tlbinvPart c n m, iAu r ++ iBu r)
  | 8, _ => (.tlbinvVa c n m, [(2, 0)])
  | 9, 0 => (.qctlMap c d n m, i)
  | 9, 1 => (.qctlUnmap c d n m, i)
  | 9, 2 => (.qctlPrio c d n m, i)
  | 9, 3 => (.qctlSusp c d n m, i)
  | 9, 4 => (.qctlResm c d n m, i)
  | 9, 5 => (.qctlState c d n m, i)
  | 9, _ => (.qctlState c d n m, [(2, 0)])
  | 10, 0 => (.pctlCfg c d n m, i)
  | 10, 1 => (.pctlIw c d n m, i)
  | 10, 2 => (.pctlStop c d n m, i)
  | 10, 3 => (.pctlReset c d n m, i)
  | 10, 4 => (.pctlGo c d n m, i)
  | 10, _ => (.pctlGo c d n m, [(2, 0)])
  | 11, 0 => (.ctxsv c d n m, i)
  | 11, _ => (.ctxsv c d n m, [(2, 0)])
  | 12, 0 => (.ctxld c d n m, i)
  | 12, _ => (.ctxld c d n m, [(2, 0)])
  | 13, 0 => (.errrdRd c d n m, i)
  | 13, 1 => (.errrdRdclr c d n m, i)
  | 13, _ => (.errrdRd c d n m, [(2, 0)])
  | 14, 0 => (.wdogSet c n m, iAu r ++ iBu r)
  | 14, _ => (.wdogSet c n m, [(2, 0)])
  | _, 0 => (.enrgBal c d n m, i)
  | _, 1 => (.enrgCoef c d n m, i)
  | _, 2 => (.enrgBurst c d n m, i)
  | _, 3 => (.enrgShare c d n m, i)
  | _, _ => (.enrgBal c d n m, [(2, 0)])

def pe (w : Word96) (r : Raw) (low : Nat) : Instr × List Issue :=
  let c := pCtl r
  match low with
  | 0 => (.trap c (r.imm.extractLsb' 0 4), iBi r)
  | 1 => (.rtt c (lo6 r.a), iAu r)
  | 2 => (.rds c (pD r) r.a, iD r ++ iss (r.ca != 2) 5 (mkA ||| mkCA))
  | 3 => (.wrs c r.d (pB r), iB r)
  | 4 => (.nop c, [])
  | 5 => (.bkpt c (r.imm.extractLsb' 0 8), iBi r)
  | 6 => pReserved w
  | 7 => pReserved w
  | _ => pSup r low

/-- The instruction a word stands for and the causes its bits show (R60 to R62). -/
def parse (w : Word96) : Instr × List Issue :=
  let r := Raw.ofWord w
  let low := (w.extractLsb' 88 4).toNat
  match (w.extractLsb' 92 4).toNat with
  | 0 => p0 w r low
  | 1 => p1 r low
  | 2 => p2 w r low
  | 3 => p3 w r low
  | 4 => p4 w r low
  | 5 => p5 w r low
  | 6 => p6 w r low
  | 8 => p8 w r low
  | 9 => p9 w r low
  | 10 => pa w r low
  | 11 => pb w r low
  | 12 => pcEng w r low
  | 13 => pd w r low
  | 14 => pe w r low
  | 15 => if low = 0 then (.clause (headerOf w), []) else pReserved w
  | _ => pReserved w

def issueCodes : List Issue → List Nat
  | [] => []
  | (c, _) :: r => c :: issueCodes r

def issueMask : List Issue → Word96
  | [] => 0
  | (_, m) :: r => m ||| issueMask r

/-- The causes that the bits of a word show: its operand fields' limits, and any other bit that the instruction's description
leaves unused and that is not zero (R41): a bit in which the word differs from the encoding of what was read, a class field that
the description fixes, as `MOVH`'s CB, among them (log 99). -/
def bitCauses (w : Word96) : List Nat :=
  let (i, is) := parse w
  issueCodes is ++ (if (encode i ^^^ w) &&& ~~~(issueMask is) = 0 then [] else [2])

/-- Why bytes are not an instruction. -/
inductive Reject where
  /-- fewer than 12 bytes -/
  | truncated
  /-- an illegal word, with the lowest cause code of R62 that its bits and operands give -/
  | illegal (code : Nat)
  deriving DecidableEq, Repr

/-- Decoding one word. A reserved opcode reads as `reservedOpcode`, which traps when it is issued (R61). -/
def decode (w : Word96) : Except Reject Instr :=
  let i := (parse w).1
  if encode i = w ∧ bitCauses w = [] ∧ Instr.wf i then .ok i
  else .error (.illegal ((Machine.lowest (bitCauses w ++ Machine.causes Machine.LCtx.free i)).getD 2))

/-- The word of 12 bytes, lowest address first (R4). -/
def wordOfBytes (l : List Byte) : Word96 := BitVec.ofNat 96 (Machine.valueLE l)

/-- Decoding the first instruction of a list of bytes. -/
def decodeBytes (l : List Byte) : Except Reject (Instr × List Byte) :=
  if l.length < 12 then .error .truncated
  else
    match decode (wordOfBytes (l.take 12)) with
    | .ok i => .ok (i, l.drop 12)
    | .error e => .error e

/-- The bytes of an instruction, lowest address first. -/
def encodeBytes (i : Instr) : List Byte := Machine.bytesLE (encode i).toNat 12

/-- The instruction the decoder reads from bits numbered as the opcode table numbers them: the table's word is the 96-bit
instruction word, whose bytes are stored lowest first. -/
def decodeTableWord (nbits w : Nat) : Option Instr :=
  match decodeBytes (Machine.bytesLE (w % 2 ^ nbits) 12) with
  | .ok (i, _) => some i
  | .error _ => none

end Sys2Proof
end

