-- ==== Sys2Proof/Config.lean ====
section
/-! DEFINITION. What the spec leaves open, as constants without a body: nothing can be proved of their values (log 1, log 2,
log 11). A statement about the machine holds whatever they are. -/

namespace Sys2Proof

/-- A failure of stored bits (R398, log 115): a sector of HBM becomes uncorrectable; a read of one (SRC 0 lane, 1 engine, 2 fetch, 4
host) finds an error that is corrected; or a read of a group finds an error in a structure of its position (0 register file, 1 local
store, 2 store buffer, 3 weight buffer). -/
inductive Flaw where
  | sector (pa : Nat)
  | corrected (pa src : Nat) (tnt : Option Nat)
  | chip (gid st off : Nat) (uc : Bool) (src : Nat)
  deriving DecidableEq, Repr

/-- Which agent acts in a step: an element processor issues, the clock advances, the machine or the outside world takes
one of the steps of the opcode table (log 1), or stored bits fail (log 115). -/
inductive Move where
  | issue (ep : Nat)
  | elapse (cycles : Nat)
  | event (i : Instr)
  | flaw (f : Flaw)
  deriving DecidableEq, Repr, Inhabited

/-- The special functions of R92 whose results the spec bounds and does not fix. -/
inductive SpecFn where
  | rcp | rsq | ex2 | lg2 | sin | cos | tanh
  deriving DecidableEq, Repr

namespace Config

/-- The next move where the agenda of the state names none: the spec does not say which agent acts next (log 1). -/
opaque nextMove : Nat → Move

/-- A free number for a choice the spec leaves open, by a counter of the state (log 11). -/
opaque freeNat : Nat → Nat

/-- A free 64-bit word, by a counter of the state (log 11). -/
opaque freeWord : Nat → Word64

/-- A free byte: content whose layout the spec does not give (log 11). -/
opaque freeByte : Nat → Byte

/-- The candidate result of a special function, accepted only within the bound of R92 (log 12). The argument is the FP32 operand. -/
opaque special : SpecFn → Word32 → Word32

/-- The candidate result of SIN or COS at an exact angle position × f of the rotary table (R246, log 12). -/
opaque rotary : Bool → Nat → Word32 → Word32

/-- The energy coefficients Iluarning calibrates at bring-up (R393, R414). -/
opaque calibration : Nat → Word32

/-- The frames of pond 0 that a partition has free when it is configured: the spec does not say where that pool lies (R317, log
20). -/
opaque pond0Frames (part : Nat) : List Nat

/-- SHA-384 of a byte string (R417, R426): the digest's value is not computed by the model (log 13). -/
opaque sha384 : List Byte → List Byte

/-- Whether an image's ECDSA signature verifies against Yaleri's key (R425, log 13). -/
opaque imageSignatureVerifies : List Byte → Bool

/-- The public device-identity key and the certificate chain of slot 0 (R426, log 13). -/
opaque identityKey : List Byte
opaque certificateChain : List Byte

/-- A signature by the device-identity key (R426, log 13). -/
opaque sign : List Byte → List Byte

/-- The version that a firmware image carries, whose place in the image the spec does not give (R425, log 13). -/
opaque imageVersion : List Byte → Nat

/-- The fuse map of the part: its holes, and the quadrant that is fused off whole (R2, R297, R414). -/
opaque fuseHoles : List Nat
opaque fuseOff : Option Nat

/-- The digest of the peer's active firmware image (R426, log 13). -/
opaque peerFirmware : List Byte

/-- An input that the pair link brings from the primary (R419): the secondary cannot say which. -/
opaque linkInput : Nat → Move

/-- The pseudo-channel of its stack that a sector lies in: the spec does not give the interleaving (R401, log 120). -/
opaque rakeChannel : Nat → Nat

/-- The slot that a request for a certificate or a challenge names, whose place in the request the spec does not give (R426, log 27). -/
opaque slotNamed : List Byte → Nat

/-- The measured fields of a telemetry sample (R424): powers, voltages, temperatures (log 13). -/
opaque telemetryByte : Nat → Nat → Byte

end Config

end Sys2Proof
end

