-- ==== Sys2Proof/Machine/Float.lean ====
section
/-! DEFINITION. Exact values, the floating-point formats and rounding (spec/04 R71 to R82, R91). A value of any format, and
every product or sum of such values, is a dyadic number, an infinity or NaN; it is computed exactly as an `Ext` and
rounded once. -/

namespace Sys2Proof.Machine

/-- An exact value: NaN, an infinity, or (−1)^neg × m × 2^e; m = 0 is a zero of that sign (R72). -/
inductive Ext where
  | nan
  | inf (neg : Bool)
  | num (neg : Bool) (m : Nat) (e : Int)
  deriving DecidableEq, Repr

/-- A floating-point format (R71): exponent bits, fraction bits, bias, and whether it has infinities. -/
structure FFmt where
  ebits : Nat
  fbits : Nat
  bias : Nat
  hasInf : Bool
  deriving DecidableEq, Repr

def fmtF32 : FFmt := { ebits := 8, fbits := 23, bias := 127, hasInf := true }
def fmtF16 : FFmt := { ebits := 5, fbits := 10, bias := 15, hasInf := true }
def fmtBF16 : FFmt := { ebits := 8, fbits := 7, bias := 127, hasInf := true }
def fmtE5M2 : FFmt := { ebits := 5, fbits := 2, bias := 15, hasInf := true }
def fmtE4M3 : FFmt := { ebits := 4, fbits := 3, bias := 7, hasInf := false }

/-- The format of a float type code; FP32 stands in for codes that are no float (never consulted for them). -/
def tyFmt : Ty → FFmt
  | .f16 => fmtF16
  | .bf16 => fmtBF16
  | .e4m3 => fmtE4M3
  | .e5m2 => fmtE5M2
  | _ => fmtF32

def FFmt.width (f : FFmt) : Nat := 1 + f.ebits + f.fbits
def FFmt.expMax (f : FFmt) : Nat := 2 ^ f.ebits - 1

/-- The canonical NaN pattern of a format (R73). -/
def FFmt.canonNan (f : FFmt) : Nat :=
  if f.hasInf then f.expMax * 2 ^ f.fbits + 2 ^ (f.fbits - 1) else 2 ^ (f.ebits + f.fbits) - 1

/-- The magnitude pattern of the largest finite value (R71). -/
def FFmt.maxMag (f : FFmt) : Nat :=
  if f.hasInf then f.expMax * 2 ^ f.fbits - 1 else 2 ^ (f.ebits + f.fbits) - 2

def FFmt.signBit (f : FFmt) (neg : Bool) : Nat := if neg then 2 ^ (f.ebits + f.fbits) else 0

/-- The value of a bit pattern (R72). -/
def FFmt.decode (f : FFmt) (bits : Nat) : Ext :=
  let neg := bits / 2 ^ (f.ebits + f.fbits) % 2 == 1
  let ex := bits / 2 ^ f.fbits % 2 ^ f.ebits
  let fr := bits % 2 ^ f.fbits
  if f.hasInf && ex == f.expMax then
    if fr == 0 then .inf neg else .nan
  else if !f.hasInf && ex == f.expMax && fr == 2 ^ f.fbits - 1 then .nan
  else if ex == 0 then .num neg fr (1 - (f.bias : Int) - f.fbits)
  else .num neg (2 ^ f.fbits + fr) ((ex : Int) - f.bias - f.fbits)

/-- The value of an E8M0 byte (R77). -/
def decodeE8M0 (b : Nat) : Ext := if b = 255 then .nan else .num false 1 ((b : Int) - 127)

def Ext.isNan : Ext → Bool
  | .nan => true
  | _ => false

def Ext.isInf : Ext → Bool
  | .inf _ => true
  | _ => false

def Ext.isZero : Ext → Bool
  | .num _ 0 _ => true
  | _ => false

def Ext.isFinite : Ext → Bool
  | .num _ _ _ => true
  | _ => false

def Ext.isNeg : Ext → Bool
  | .nan => false
  | .inf n => n
  | .num n _ _ => n

def Ext.neg : Ext → Ext
  | .nan => .nan
  | .inf n => .inf (!n)
  | .num n m e => .num (!n) m e

def Ext.abs : Ext → Ext
  | .nan => .nan
  | .inf _ => .inf false
  | .num _ m e => .num false m e

def Ext.zero : Ext := .num false 0 0
def Ext.one : Ext := .num false 1 0

/-- The exact value of an integer. -/
def Ext.ofInt (z : Int) : Ext := .num (decide (z < 0)) z.natAbs 0

/-- The signed numerator of (−1)^neg × m × 2^e over 2^base, for base ≤ e. -/
def scaled (neg : Bool) (m : Nat) (e base : Int) : Int :=
  let v : Int := (m <<< (e - base).toNat : Nat)
  if neg then -v else v

/-- Exact product (R89, R91). -/
def Ext.mul : Ext → Ext → Ext
  | .nan, _ => .nan
  | _, .nan => .nan
  | .inf a, .inf b => .inf (a != b)
  | .inf a, .num b m _ => if m = 0 then .nan else .inf (a != b)
  | .num a m _, .inf b => if m = 0 then .nan else .inf (a != b)
  | .num a m e, .num b n k => .num (a != b) (m * n) (e + k)

/-- Exact sum (R91); `rdn` tells whether the rounding that follows is `.rdn`, which decides the sign of an exact zero (R80). -/
def Ext.add (rdn : Bool) : Ext → Ext → Ext
  | .nan, _ => .nan
  | _, .nan => .nan
  | .inf a, .inf b => if a = b then .inf a else .nan
  | .inf a, .num _ _ _ => .inf a
  | .num _ _ _, .inf b => .inf b
  | .num a m e, .num b n k =>
    let base := min e k
    let v := scaled a m e base + scaled b n k base
    if v = 0 then
      if m = 0 && n = 0 && a = b then .num a 0 base else .num rdn 0 base
    else .num (decide (v < 0)) v.natAbs base

def Ext.sub (rdn : Bool) (x y : Ext) : Ext := Ext.add rdn x y.neg

/-- `fma_exact` with a third operand (R82). -/
def Ext.fma (rdn : Bool) (a b c : Ext) : Ext := Ext.add rdn (a.mul b) c

/-- Exact comparison of two values that are not NaN: −1, 0 or 1. −0 and +0 compare equal. -/
def Ext.cmp : Ext → Ext → Int
  | .nan, _ => 0
  | _, .nan => 0
  | .inf a, .inf b => if a = b then 0 else if a then -1 else 1
  | .inf a, .num _ _ _ => if a then -1 else 1
  | .num _ _ _, .inf b => if b then 1 else -1
  | .num a m e, .num b n k =>
    let base := min e k
    let v := scaled a m e base - scaled b n k base
    if v < 0 then -1 else if v = 0 then 0 else 1

def Ext.lt (x y : Ext) : Bool := !x.isNan && !y.isNan && decide (Ext.cmp x y < 0)
def Ext.le (x y : Ext) : Bool := !x.isNan && !y.isNan && decide (Ext.cmp x y ≤ 0)
def Ext.eqv (x y : Ext) : Bool := !x.isNan && !y.isNan && decide (Ext.cmp x y = 0)

/-- The quotient |num| / |den| of two integers, as a value that rounds exactly as the quotient does in every format:
it carries 400 bits below the denominator's and a lowest bit that records whether anything was discarded. -/
def Ext.ofQuot (neg : Bool) (n d : Nat) : Ext :=
  let k := 400 + Nat.log2 d
  let q := (n <<< k) / d
  let r := (n <<< k) % d
  .num neg (2 * q + (if r = 0 then 0 else 1)) (-(k : Int) - 1)

/-- Correctly roundable quotient of two exact values (R91's conventions for the special values). -/
def Ext.div : Ext → Ext → Ext
  | .nan, _ => .nan
  | _, .nan => .nan
  | .inf _, .inf _ => .nan
  | .inf a, .num b _ _ => .inf (a != b)
  | .num a _ _, .inf b => .num (a != b) 0 0
  | .num a m e, .num b n k =>
    if n = 0 then (if m = 0 then .nan else .inf (a != b))
    else if m = 0 then .num (a != b) 0 0
    else
      match Ext.ofQuot (a != b) m n with
      | .num s q x => .num s q (x + e - k)
      | y => y

/-- The integer square root, bit by bit from bit `i − 1` down; `r` is the root found so far. -/
def isqrtLoop (n : Nat) : Nat → Nat → Nat
  | 0, r => r
  | i + 1, r =>
    let c := r + 2 ^ i
    isqrtLoop n i (if c * c ≤ n then c else r)

def isqrt (n : Nat) : Nat := isqrtLoop n (Nat.log2 n / 2 + 1) 0

/-- The square root of a finite positive value, with enough bits and a sticky bit to round correctly. -/
def Ext.sqrtPos (m : Nat) (e : Int) : Ext :=
  let odd : Nat := (e % 2).toNat
  let m' := m * 2 ^ odd * 4 ^ 400
  let r := isqrt m'
  .num false (2 * r + (if r * r = m' then 0 else 1)) ((e - odd) / 2 - 401)

/-- Whether the magnitude of a number rounds away from zero, given the discarded part r / den of one unit, the lowest kept bit
and the random word (R78, R85). -/
def roundsUp (mode : Rnd) (neg odd : Bool) (r den u : Nat) : Bool :=
  if r = 0 then false
  else
    match mode with
    | .rne => decide (2 * r > den) || (decide (2 * r = den) && odd)
    | .rtz => false
    | .rdn => neg
    | .rup => !neg
    | .sr =>
      if neg then !(decide (u < 2 ^ 32 * (den - r) / den)) else decide (u < 2 ^ 32 * r / den)

/-- m × 2^e divided by 2^q: the whole part, the discarded numerator and its denominator. -/
def splitAtQuantum (m : Nat) (e q : Int) : Nat × Nat × Nat :=
  if q ≤ e then (m <<< (e - q).toNat, 0, 1)
  else
    let s := (q - e).toNat
    (m >>> s, m % 2 ^ s, 2 ^ s)

/-- The bit pattern of an infinity, or of the NaN that replaces it in E4M3 (R79). -/
def FFmt.infBits (f : FFmt) (neg : Bool) : Nat :=
  if f.hasInf then f.signBit neg + f.expMax * 2 ^ f.fbits else f.canonNan

/-- The result for a finite value beyond the largest finite one (R79); `overNext` tells whether it reaches max + h. -/
def FFmt.beyond (f : FFmt) (mode : Rnd) (neg overNext : Bool) : Nat :=
  let max := f.signBit neg + f.maxMag
  if !f.hasInf then max
  else
    match mode with
    | .rne => if overNext then f.infBits neg else max
    | .rtz => max
    | .rdn => if neg then f.infBits neg else max
    | .rup => if neg then max else f.infBits neg
    | .sr => max

/-- `round(x, fmt, mode)` (R78 to R80, R82, R85); `u` is the lane's random word, used by `.sr` only. -/
def FFmt.round (f : FFmt) (mode : Rnd) (u : Nat) : Ext → Nat
  | .nan => f.canonNan
  | .inf n => f.infBits n
  | .num neg m e =>
    if m = 0 then f.signBit neg
    else
      let ex : Int := Nat.log2 m + e
      let emin : Int := 1 - f.bias
      let q : Int := max ex emin - f.fbits
      let big := f.decode f.maxMag
      if Ext.cmp (.num false m e) big > 0 then
        let half : Ext :=
          match big with
          | .num _ _ k => .num false 1 (k - 1)
          | y => y
        f.beyond mode neg (decide (Ext.cmp (.num false m e) (Ext.add false big half) ≥ 0))
      else
        let (n, r, den) := splitAtQuantum m e q
        let n' := if roundsUp mode neg (n % 2 == 1) r den u then n + 1 else n
        let mag := if n' < 2 ^ f.fbits then n' else (q + f.fbits + f.bias).toNat * 2 ^ f.fbits + (n' - 2 ^ f.fbits)
        f.signBit neg + mag

/-- `round_rne(x, fmt)` (R82). -/
def FFmt.rne (f : FFmt) (x : Ext) : Nat := f.round .rne 0 x

/-- Rounding a finite value to an integer (R78, R81, R166). -/
def roundToInt (mode : Rnd) (u : Nat) (neg : Bool) (m : Nat) (e : Int) : Int :=
  let (n, r, den) := splitAtQuantum m e 0
  let n' : Nat := if roundsUp mode neg (n % 2 == 1) r den u then n + 1 else n
  if neg then -(n' : Int) else n'

/-- `sat(x, type)` for an integer result (R82): clamped to [lo, hi]. -/
def clampInt (lo hi z : Int) : Int := if z < lo then lo else if hi < z then hi else z

/-- Conversion to E8M0 (R81). -/
def roundE8M0 (mode : Rnd) : Ext → Nat
  | .num false m e =>
    if m = 0 then 255
    else
      let n : Int := Nat.log2 m + e
      let exact := m = 2 ^ Nat.log2 m
      let up : Bool :=
        match mode with
        | .rup => !exact
        | .rne => decide (2 * m ≥ 3 * 2 ^ Nat.log2 m)
        | _ => false
      let k := if up then n + 1 else n
      (clampInt 0 254 (k + 127)).toNat
  | _ => 255

/-! ### FP32 shorthands used by the arrays and by the special functions -/

def f32 (w : Word32) : Ext := fmtF32.decode w.toNat
def bf16 (w : BitVec 16) : Ext := fmtBF16.decode w.toNat
def toF32 (x : Ext) : Word32 := BitVec.ofNat 32 (fmtF32.rne x)
def toBF16 (x : Ext) : BitVec 16 := BitVec.ofNat 16 (fmtBF16.rne x)

/-- `.rup` rounding to FP32, for the checksum bounds (R303). -/
def toF32Up (x : Ext) : Word32 := BitVec.ofNat 32 (fmtF32.round .rup 0 x)

/-- Rounding an exact value to FP32 and reading it back: one rounding step of a sum (R90). -/
def rneE (x : Ext) : Ext := f32 (toF32 x)

/-- The order of sums (R90): chunks of 16 products, each summed exactly from the empty sum and rounded once, then added to
the running value with one rounding each. `acc = none` is the empty sum. -/
def chunkSum : List Ext → Option Ext → Option Ext
  | [], t => t
  | p :: ps, none => chunkSum ps (some p)
  | p :: ps, some t => chunkSum ps (some (Ext.add false t p))

/-- One chunk's rounded value; the empty chunk is +0. -/
def chunkValue (ps : List Ext) : Ext := rneE ((chunkSum ps none).getD Ext.zero)

/-- R90 over a list of products, `fuel` chunks at most, onto an accumulator. -/
def sumR90 : Nat → List Ext → Ext → Ext
  | 0, _, acc => acc
  | fuel + 1, ps, acc =>
    match ps with
    | [] => acc
    | _ => sumR90 fuel (ps.drop 16) (rneE (Ext.add false acc (chunkValue (ps.take 16))))

/-- A dot product in R90's order. -/
def dotR90 (ps : List Ext) (acc : Ext) : Ext := sumR90 (ps.length / 16 + 1) ps acc

/-- `rotl32(w, n)` (R82). -/
def rotl32 (w : Word32) (n : Nat) : Word32 := w.rotateLeft (n % 32)

/-- `sr_next` (R83). -/
def srNext (g : Word32) : Word32 :=
  let g := g ^^^ (g <<< 13)
  let g := g ^^^ (g >>> 17)
  g ^^^ (g <<< 5)

/-- The generator states that a seed gives (R87): G_alu and G_fma. -/
def seedAlu (s : Word32) : Word32 := if s = 0 then 0x9E3779B9#32 else s
def seedFma (s : Word32) : Word32 :=
  let g := s ^^^ 0x6C8E9CF5#32
  if g = 0 then 0x9E3779B9#32 else g

end Sys2Proof.Machine
end

