-- ==== Sys2Proof/Machine/State.lean ====
section
/-! DEFINITION. The state of the device as plain data, the reasons a step can stop, and the state after reset. INVENTORY.md
lists every piece with the rule of spec/ that names it. -/

namespace Sys2Proof.Machine

/-- Reasons the model stops with a fault. None of them is a trap of the spec: those are next states (log 10). -/
inductive Fault where
  /-- raised by every instruction's meaning when no group and path is issuing (`State.cur` names none). Safe. -/
  | noIssuer
  deriving DecidableEq, Repr

/-- Reasons the model refuses an instruction. -/
inductive Refusal where
  /-- raised by `exec` for an instruction that has no meaning yet, under its mnemonic. Safe. -/
  | notModelled (mnemonic : String)
  deriving DecidableEq, Repr

/-! ### Agents, views and writes of the abstract machine (R262 to R273) -/

/-- What an agent belongs to (R264). `ext` is 0 on this device, 1 for the host, 2 for another sharer of the pool, 3 for a
fabric peer. -/
structure Who where
  gid : Nat := 0
  blk : Nat := 0
  pch : Nat := 0
  quad : Nat := 0
  part : Nat := 0
  ext : Nat := 0
  deriving DecidableEq, Repr

/-- A view of a release (R272): who released, at which scope, and the floors by location. -/
structure View where
  who : Who
  sc : Scope
  fl : Map Nat
  deriving DecidableEq, Repr

/-- One byte of a write: its physical address, the location it names (with the virtual alias, R278), the new byte and the
byte it replaced. With `all` it was entered by an `AFENCE` under every other alias of the location's translation context. -/
structure WByte where
  pa : Nat
  loc : Nat
  new : Byte
  old : Byte := 0
  all : Bool := false
  deriving DecidableEq, Repr

/-- A drained write, in coherence order (R262, R268). -/
structure Write where
  id : Nat
  who : Who
  lvl : Scope
  home : Scope
  bytes : List WByte
  views : List View := []
  /-- the write that an `AFENCE` entered again as this one (R278) -/
  copyOf : Option Nat := none
  /-- the merge of a page that it is a part of, which a tile sees whole or not at all (R313); 0 for none -/
  set : Nat := 0
  deriving DecidableEq, Repr

/-- An undrained store of a block (R262, R267). `ovf` marks an entry moved to the overflow region (R260). -/
structure SbEntry where
  id : Nat
  blk : Nat
  ep : Nat
  who : Who
  bytes : List WByte
  committed : Bool
  ovf : Bool := false
  views : List View := []
  /-- the entry that an `AFENCE` entered again as this one (R278) -/
  copyOf : Option Nat := none
  deriving DecidableEq, Repr

/-! ### Operations a group has issued (R262) -/

/-- An object on a local store: the EP's position and the physical offset. -/
structure Obj where
  ep : Nat
  off : Nat
  deriving DecidableEq, Repr

/-- A view attached to an object: to the phase of a barrier, or to an index of a ring (R272, R273). -/
structure ObjView where
  o : Obj
  tag : Nat
  v : View
  deriving DecidableEq, Repr

/-- What an unperformed operation does when the machine performs it. -/
inductive MKind where
  | load (n : Nat) (sext : Bool)
  | store (data : List Byte)
  | atom (t : Ty) (op : AtomOp) (f : Bool) (v cmp : Word64) (ret : Bool)
  | lds (n : Nat) (sext : Bool)
  | sts (data : List Byte)
  | atoms (t : Ty) (op : AtomOp) (f : Bool) (v cmp : Word64)
  | ldc (n : Nat) (sext : Bool)
  | dstep
  | fence (o : Ord)
  | afence
  | commit
  | binit (o : Obj) (v : Nat)
  | barr (o : Obj) (n : Nat)
  | bexp (o : Obj) (e : Nat)
  | bwait (o : Obj) (ph : Nat) (limit : Nat)
  | btry (o : Obj) (ph : Nat)
  | binv (o : Obj)
  | rinit (o : Obj) (m : Word64)
  | rres (o : Obj)
  | rpub (o : Obj)
  | rwait (o : Obj)
  | rrel (o : Obj)
  | send (ch : Nat) (v : Word64) (rel : Bool)
  | recv (ch : Nat) (acq : Bool)
  | wpull (poll : Bool)
  | wpush (v : Word64)
  | launch (w : Bool)
  deriving DecidableEq, Repr

/-- One unperformed operation: one lane's access, or an instruction of the whole group. -/
structure MemOp where
  id : Nat
  instr : Nat
  lane : Nat
  thr : Nat
  hist : List Nat
  acq : Bool := false
  rel : Bool := false
  /-- a restartable block commits before it (R184) -/
  com : Bool := false
  sc : Scope := .grp
  pas : List Nat := []
  locs : List Nat := []
  kind : MKind
  views : List View := []
  /-- the place in the order of performing of a request that waits to be served (R203, R205), 0 before that -/
  wseq : Nat := 0
  /-- a timed `BWAIT` or a `BTRY` that a later operation has overtaken: it is no acquire, and returns false (R266) -/
  passed : Bool := false
  /-- the cycle at which a `LAUNCH.w` that waits for a free entry fails (R207) -/
  until_ : Nat := 0
  /-- the cycle at which data of host or CXL memory reach a lockstep partition (R419) -/
  due : Nat := 0
  deriving DecidableEq, Repr

/-- Where a variable-latency instruction writes its results. -/
inductive ResDst where
  | none
  | lane (r : Nat) (wide : Bool)
  | uni (r : Nat)
  | lpred (p : Nat)
  | upred (q : Nat)
  /-- `%beta` registers from `first` on; lane l stands for register l of the count -/
  | beta (first cnt : Nat)
  deriving DecidableEq, Repr

/-- A variable-latency instruction whose results are not all written (R24, R26). `pend` are the lanes still to write,
`vals` the values already known, `qn` the uniform predicate of `WPULL.try`. -/
structure Outst where
  instr : Nat
  flag : Option Nat
  dst : ResDst
  pend : Lanes
  ready : Lanes := 0
  vals : Map Word64 := []
  qn : Option (Nat × Bool) := none
  /-- the other record of a `DSTEP` of more than 32 step sizes: the flag falls when both are closed -/
  twin : Option Nat := none
  deriving DecidableEq, Repr

/-! ### A group (R15 to R26, R145, R195, R370) -/

/-- The clause a path is in: its header's word index and fields. -/
structure Clause where
  at_ : Word64
  h : Header
  deriving DecidableEq, Repr

/-- A path: program counter, active lanes, join record, clause in progress, instructions issued in its slot, and its place in
program order (R19, R145, R265). -/
structure Path where
  pc : Word64 := 0
  mask : Lanes := 0
  jr : Option Nat := none
  clause : Option Clause := none
  issued : Nat := 0
  stallUntil : Nat := 0
  thr : Nat := 0
  hist : List Nat := [0]
  /-- after a return from a trap (R372): the word at which issue continues once the header has been entered -/
  resume : Option Word64 := none
  /-- its clause's header is entered anew once the access that waits for its fault has been made (R25, R379) -/
  again : Bool := false
  deriving DecidableEq, Repr

/-- A join record (R145), with the program orders that its arrivals bring (R265). -/
structure JoinRec where
  id : Nat
  pt : Word64
  exp : Lanes
  arr : Lanes
  out : Option Nat
  /-- the fields of the header at the point, read when the record was made -/
  hd : Header
  hist : List Nat := []
  deriving DecidableEq, Repr

/-- The content of a trap record that the device fills (R371). -/
structure TrapInfo where
  code : Nat
  fpc : Word64
  pc : Word64
  hdr : Word64
  amask : Lanes
  fmask : Lanes
  va : Word64 := 0
  arg : Word64 := 0
  seqn : Word64 := 0
  eng : Nat := 0
  deferred : Bool := false
  deriving DecidableEq, Repr

/-- The opaque divergence block of R370: the other slot, the stack and the records, the mask and record of the path that
trapped, and the header of the clause it was in (the HDR that R372 compares with, which `RTT` does not read back). -/
structure DivBlock where
  inSecond : Bool
  other : Option Path
  stack : List Path
  recs : List JoinRec
  mask : Lanes
  jr : Option Nat
  hdr : Word64 := 0
  deriving DecidableEq, Repr

/-- What the group waits for (R27). -/
inductive Wait where
  | none
  | bwait (op : Nat) (o : Obj) (ph : Nat) (since limit : Nat)
  | recv (op : Nat)
  | wpull (op : Nat)
  | sleep (until_ : Nat)
  | fault (id : Nat) (second : Bool)
  | fetchFault (id : Nat) (second : Bool)
  | stopped
  | exitWait
  deriving DecidableEq, Repr

/-- A flashback point (R195). -/
structure Point where
  cont : Word64
  recipe : Word64
  mask : Lanes
  vregs : Map Word32
  sregs : Map Word64
  p : Map Lanes
  q : BitVec 4
  gAlu : Word32
  gFma : Word32
  srseed : Word32
  deriving DecidableEq, Repr

/-- The scroll state that `SCRQ` reads (R220), and the command it belongs to. -/
structure ScrollSt where
  sts : Nat := 0
  frg : Nat := 0
  sin : Bool := false
  ccol : Nat := 0
  crow : Nat := 0
  /-- `SCRRES` at STS 3: the scroll resumes as soon as the fault is serviced (R221) -/
  want : Bool := false
  cmd : Option Nat := none
  deriving DecidableEq, Repr

/-- A trap on its way: what the record will say, and which path raised it (R370). -/
structure PendTrap where
  info : TrapInfo
  second : Bool
  deriving DecidableEq, Repr

/-! ### Translation faults (R259, R374) -/

/-- What waits for the driver's answer. -/
inductive FTarget where
  /-- lanes of an access; `op` is the identity of the instruction, 0 where it issues again as a whole -/
  | lanes (gid : Nat) (i : Instr) (second : Bool) (m : Lanes) (op : Nat)
  /-- the word at address `va` was fetched for a path; if the driver declines, the path stops at `pc` (R58) -/
  | fetch (gid : Nat) (second : Bool) (pc va : Word64)
  | cmd (id : Nat)
  deriving DecidableEq, Repr

structure FaultEntry where
  id : Nat
  part : Nat
  tag : Word32
  src : Nat
  ep : Nat
  slot : Nat
  va : Word64
  w : Bool
  tenant : Nat
  tier : Bool
  target : FTarget
  posted : Bool := false
  deriving DecidableEq, Repr

/-! ### The whole group -/

structure Group where
  id : Nat := 0
  launch : Nat := 0
  block : Nat := 0
  sys : Bool := false
  ep : Nat := 0
  slot : Nat := 0
  part : Nat := 0
  tenant : Nat := 0
  prio : Nat := 0
  age : Nat := 0
  wid : Word64 := 0
  stg : Nat := 0
  regs : Nat := 16
  v : Map Word32 := []
  s : Map Word64 := []
  p : Map Lanes := []
  q : BitVec 4 := 0
  flags : Map Nat := []
  p0 : Option Path := none
  p1 : Option Path := none
  lastSecond : Bool := true
  stack : List Path := []
  recs : List JoinRec := []
  nextRec : Nat := 0
  nextThr : Nat := 1
  srseed : Word32 := 0
  gAlu : Word32 := seedAlu 0
  gFma : Word32 := seedFma 0
  fmask : Word32 := 0
  beta : Map Word32 := []
  wait : Wait := .none
  trap : Option PendTrap := none
  handler : Option DivBlock := none
  point : Option Point := none
  sinceMark : Bool := false
  iq : List MemOp := []
  outst : List Outst := []
  nextOp : Nat := 0
  floors : Map Nat := []
  readViews : List View := []
  fenceViews : List View := []
  scroll : ScrollSt := {}
  deferred : List TrapInfo := []
  cancel : Bool := false
  yieldUntil : Nat := 0
  hintUntil : Nat := 0
  /-- off its EP by a partial eviction, and asked to leave it (R376) -/
  evicted : Bool := false
  leaving : Bool := false
  /-- the cycle at which data of host or CXL memory reach a lockstep partition (R419) -/
  due : Nat := 0
  /-- the fault-buffer entries of a group off its EP (R377) -/
  faults : List FaultEntry := []
  deriving DecidableEq, Repr

/-! ### Blocks, patches and launches -/

structure Block where
  id : Nat
  launch : Nat
  patch : Nat
  ep : Nat
  part : Nat
  tenant : Nat
  stg : Nat
  restartable : Bool
  ovBase : Nat := 0
  ovUnits : Nat := 0
  alive : Nat
  /-- a save of the block has begun: no further run of a copy lands in its store (R381) -/
  saving : Bool := false
  deriving DecidableEq, Repr

structure Patch where
  id : Nat
  launch : Nat
  x : Nat
  y : Nat
  w : Nat
  h : Nat
  stg : Nat
  num : Nat
  relaunches : Nat := 0
  /-- one of its blocks has committed: it can no longer be relaunched (R399, R400) -/
  committed : Bool := false
  deriving DecidableEq, Repr

/-- A dependence of a launch header (R121). -/
structure Dep where
  kind : Nat
  idx : Nat
  val : Nat
  deriving DecidableEq, Repr

/-- A stage of a launch header (R121). -/
structure Stage where
  maxB : Nat
  minB : Nat
  lst : Nat
  rg8 : Nat
  entry : Nat
  raw : Nat
  deriving DecidableEq, Repr

/-- A launch header, read (R119 to R121). -/
structure LHdr where
  reservedZero : Bool := true
  eest : Nat := 0
  seed : Word32 := 0
  npat : Nat := 1
  ph : Nat := 1
  pw : Nat := 1
  wf : List Nat := [0, 0, 0, 0, 0, 0]
  groups : Nat := 1
  nstg : Nat := 0
  lst : Nat := 0
  prio : Nat := 0
  rst : Bool := false
  rg8 : Nat := 2
  entry : Nat := 0
  code : Nat := 0
  deps : List Dep := []
  stages : List Stage := []
  chans : List Nat := []
  banks : List (Nat × Nat) := []
  deriving DecidableEq, Repr

/-- Where a launch came from: a slot's entry, the device-launch sequence, or the mailbox (a manager). -/
inductive Origin where
  | queue (slot qid : Nat) (seq : Nat) (tag : Word64) (irq : Bool) (vec : Nat)
  | device (seq : Nat)
  | manager
  deriving DecidableEq, Repr

/-- One word of a channel and the views it carries (R205, R272). -/
structure ChanWord where
  v : Word64
  views : List View := []
  deriving DecidableEq, Repr

structure Launch where
  id : Nat
  part : Nat
  tenant : Nat
  origin : Origin
  hdr : LHdr
  /-- the cycle of the notify, or of the entry of the pending-launch store, that it came from (R355) -/
  age : Nat := 0
  created : Nat := 0
  perStage : Map Nat := []
  chans : Map (List ChanWord) := []
  sends : List (Nat × Nat) := []
  recvs : List (Nat × Nat) := []
  rangeBase : Nat := 0
  rangeLen : Nat := 0
  accepted : Map Nat := []
  done : Map Nat := []
  finished : List (Nat × Nat) := []
  /-- the views of completed commands: sequence, number, view (R273) -/
  seqViews : List (Nat × Nat × View) := []
  coStart : Nat := 0
  /-- the bytes of constant bank 15 that describe the sub-pan, with the length of coherence order when they were written (R283) -/
  desc : Map Nat := []
  startViews : List View := []
  ovUnits : Nat := 0
  killed : Nat := 0
  /-- every patch it has created -/
  pids : List Nat := []
  /-- killed patches that wait to be placed again (R399) -/
  again : List Patch := []
  completed : Bool := false
  deriving DecidableEq, Repr

/-! ### Engine commands -/

/-- A basic rectangle (R98). -/
structure Rect where
  x : Nat := 0
  y : Nat := 0
  w : Nat := 1
  h : Nat := 1
  off : Nat := 0
  len : Nat := 0
  fmt : Nat := 0
  cbv : Bool := false
  cbo : Nat := 0
  rsv : Bool := true
  deriving DecidableEq, Repr

/-- Where a command reports its completion (R99, R101, R214). -/
inductive Compl where
  | none
  | barrier (o : Obj)
  | ring (o : Obj)
  deriving DecidableEq, Repr

/-- A scroll (R99, R218): full rectangle, displacement and the staging decision. -/
structure ScrollD where
  r : Rect
  spb : Nat := 0
  spl : Nat := 0
  ex : Bool := false
  ey : Bool := false
  ro : Bool := false
  dx : Int
  dy : Int
  staged : Bool
  deriving DecidableEq, Repr

/-- One dimension of a copy (R102). -/
structure CDim where
  dstr : Nat
  sstr : Nat
  dext : Nat
  dcrd : Int
  sext : Nat
  scrd : Int
  box : Nat
  deriving DecidableEq, Repr

/-- A copy descriptor (R101). -/
structure CopyD where
  op : Nat
  aux : Word64
  gsel : Bool
  co : Nat
  ck : Nat
  fmma : Bool
  psup : Bool
  dlay : Nat
  slay : Nat
  dpan : Bool
  span : Bool
  ety : Nat
  ndim : Nat
  dsta : Nat
  srca : Nat
  rsv : Bool
  dims : List CDim
  /-- the send-queue descriptor of a `CPYN`, read at acceptance (R364) -/
  sqd : Nat := 0
  deriving DecidableEq, Repr

/-- A place that an element is read from or written to: a position's physical offset, device addresses, or the payload of a
`CPYN`. -/
inductive Spot where
  | pan (e off : Nat)
  | mem (va : Nat) (pas : List Nat)
  | net (off : Nat)
  deriving DecidableEq, Repr

/-- An element of a copy that is to move: its number, where it is read and where it is written (R263, R275). -/
structure Elem where
  n : Nat
  src : Spot
  dst : Spot
  /-- what has been read of it; it is still to be written (R275) -/
  got : Option (List Byte) := none
  deriving DecidableEq, Repr

/-- One destination of a copy (R105, R331, R333): the position (the issuing EP for a device-memory destination), its progress
in elements, its place among the requests for a permit (0: none), whether a run holds one, the ring index reserved for it, and
the sectors counted and dropped. -/
structure CDst where
  ep : Nat
  pos : Nat := 0
  queued : Nat := 0
  granted : Bool := false
  slot : Option Nat := none
  landed : List Nat := []
  dropped : List Nat := []
  /-- elements of the run in progress that have not moved, and how many sectors had landed when it began -/
  left : List Elem := []
  before : Nat := 0
  /-- new sectors of a run that has moved and is still to be counted -/
  due : Option Nat := none
  done : Bool := false
  deriving DecidableEq, Repr

/-- A command and the data of its word and its operands. -/
inductive CmdKind where
  | scroll (d : ScrollD)
  | copy (d : CopyD)
  | wload (t : Ty) (wbo wlen k n : Nat) (tr : Bool)
  | mma (t : Ty) (bank : Nat) (r : Rect) (row0 : Nat)
  | aload (sc : Bool) (bank : Nat) (r : Rect) (row0 nc : Nat)
  | adrain (nochk nrm sc : Bool) (bank : Nat) (r : Rect) (sv : Option Nat) (row0 nc : Nat)
  | azero (bank : Nat)
  | delta (ck : Bool) (bank : Nat) (betas : List Word32) (kr vr tr : Rect) (dlim : Word32) (shb : Option Nat)
      (dv dk nt : Nat)
  | tsolve (kr orr : Rect) (betas : List Word32) (c dk : Nat)
  | atile (qr orr : Rect) (ring : Obj) (cont : Bool) (scale : Word32) (kvh bank rows npg pg0 : Nat) (entry : Nat)
      (after : List Nat)
  | amerge (bank : Nat) (r : Rect) (row0 : Nat)
  | kvapp (entry : Nat) (src : Nat) (pos : Nat) (base : Word32)
  | kvmrg (entry first cnt : Nat) (tau : Word32)
  | park (entry : Nat) (key : Word64)
  | promo (entry pg0 cnt : Nat)
  /-- a wake: stage 0 not checked yet, 1 stage A, 2 stage B (R320, R321) -/
  | wake (entry : Nat) (key : Word64) (rsv : Bool) (stage : Nat)
  /-- an ageing visit (R318) -/
  | age (entry : Nat)
  /-- a chain entry that has not begun: its CMD, OPND and DESC (R110) -/
  | entry (op opnd : Nat) (desc : Nat)
  deriving DecidableEq, Repr

/-- The chain entry a command came from (R110, R111). -/
structure ChainRef where
  chain : Nat
  entry : Nat
  irq : Bool
  wprv : Bool
  done : Bool := false
  /-- its record waits for a signature point (R420) -/
  wrote : Bool := false
  deriving DecidableEq, Repr

/-- An accepted engine command: a thread of its own (R211 to R216, R275). `pos` is its progress in elements, rows, tokens,
chunks or pages; `status` is 0 running, 1 all its effects made, 2 ended in error. -/
structure Cmd where
  id : Nat
  kind : CmdKind
  gid : Nat
  who : Who
  launch : Nat
  block : Nat
  part : Nat
  tenant : Nat
  ep : Nat
  eng : Nat
  inst : Nat
  seq : Nat
  sysA : Bool := false
  compl : Compl := .none
  chain : Option ChainRef := none
  floors : Map Nat := []
  pos : Nat := 0
  status : Nat := 0
  sts : Nat := 0
  clb : Bool := false
  err : Bool := false
  forDrop : Bool := false
  spilled : Nat := 0
  staged : Map Byte := []
  dests : List CDst := []
  /-- the follow-on `MMA` of a copy: its bank and rectangle, read at acceptance (R225) -/
  follow : Option (Nat × Rect) := none
  held : Option Nat := none
  skipped : Nat := 0
  nanSeen : Bool := false
  /-- attention: slots gathered for the next chunk, and the LEN read with the entry (R242, R312) -/
  ntok : Nat := 0
  lim : Nat := 0
  /-- the page a tile is at has been found with tag 0 and is pinned (R312) -/
  pin : Bool := false
  /-- an array command: 0 before its start, 1 reading, 2 computing, 3 writing; ranges of the elements still to read or write;
  what has been read, by first element; and what is to be written (R275) -/
  phase : Nat := 0
  left : List (Nat × Nat) := []
  got : List (Nat × List Byte) := []
  outb : List Byte := []
  /-- a copy: the element it stops at (R429) -/
  stopAt : Option Nat := none
  /-- a command that reads and writes in turn: the ranges of what it has still to read (R275) -/
  rest : List (Nat × Nat) := []
  /-- the deferred traps that its group hears of once it has finished (R217, R235) -/
  traps : List TrapInfo := []
  /-- the cycle at which data of host or CXL memory reach a lockstep partition (R419) -/
  due : Nat := 0
  /-- issued by the group's trap handler; cancelled by R305 -/
  hnd : Bool := false
  cancelled : Bool := false
  deriving DecidableEq, Repr

/-- A half of the weight latch (R88, R230, R300): the format of its weights, and elements by k × 4096 + n; an unlisted element
is +0. -/
structure Latch where
  valid : Bool := false
  fmt : Option Ty := none
  k : Nat := 0
  n : Nat := 0
  w : Map Ext := []
  deriving DecidableEq, Repr

/-- An array's accumulator state (R212, R303): values by bank × 2^20 + row × 2^12 + column; per row m, l, the checksum column
and its bound by bank × 256 + row; per column the checksum row and its bound by bank × 2^12 + column. -/
structure AccSt where
  acc : Map Word32 := []
  m : Map Word32 := []
  l : Map Word32 := []
  c : Map Word32 := []
  beta : Map Word32 := []
  d : Map Word32 := []
  betaD : Map Word32 := []
  unchecked : BitVec 8 := 0
  active : Latch := {}
  standby : Latch := {}
  standbyFresh : Bool := false
  deriving DecidableEq, Repr

/-- An array (one per lead quadrant): its owner, queue and accumulators. -/
structure ArrayU where
  owner : Option Nat := none
  queue : List Nat := []
  st : AccSt := {}
  floors : Map Nat := []
  deriving DecidableEq, Repr

/-! ### Queues and partitions -/

/-- A queue slot (R351, R357). -/
structure Slot where
  mapped : Bool := false
  qid : Nat := 0
  tenant : Nat := 0
  susp : Bool := false
  expired : Bool := false
  prio : Nat := 0
  npre : Bool := false
  org : Nat := 0
  lgn : Nat := 0
  rbase : Nat := 0
  stsa : Nat := 0
  ovsz : Nat := 0
  head : Word32 := 0
  tail : Word32 := 0
  cseq : Word64 := 0
  nextSeq : Nat := 1
  doneSeqs : List Nat := []
  ltag : Word64 := 0
  lsts : Nat := 0
  wdogUs : Nat := 0
  /-- the cycle from which the watchdog's period runs (R357, R408) -/
  wdogAt : Nat := 0
  waiting : Bool := false
  cur : Option Nat := none
  deriving DecidableEq, Repr

/-- An entry of the pending-launch store (R358). -/
structure Pending where
  id : Nat
  ep : Nat := 0
  tenant : Nat
  seq : Nat
  hdr : LHdr
  views : List View
  from_ : Nat
  age : Nat
  ovUnits : Nat := 0
  launch : Option Nat := none
  deriving DecidableEq, Repr

/-- A work item and its views (R206, R280). -/
structure Item where
  v : Word64
  views : List View := []
  deriving DecidableEq, Repr

/-- An item in transit between two EPs (R360). -/
structure Transit where
  id : Nat
  part : Nat
  tenant : Nat
  dst : Nat
  items : List Item
  deriving DecidableEq, Repr

/-- A page move between ponds (R317), of a command, a wake or an ageing visit: page g of an entry at `va`, the address of the
byte that holds its tag, its tag before and after, its backing, and the backing it goes to. `stage` is 0 while it waits for a
frame of pond 0, 1 while the page is copied or the flash command is outstanding, 2 when the data have arrived, 3 when a write to
flash has failed and the tag is still to be written back. -/
structure PageMove where
  id : Nat
  cmd : Nat
  part : Nat
  tenant : Nat
  entry : Nat
  page : Nat
  va : Nat
  tagVa : Nat
  from_ : Nat
  to_ : Nat
  fromPa : Nat
  toPa : Nat := 0
  stage : Nat := 1
  flash : Bool := false
  /-- the queue pair that its flash command is on (R367) -/
  qp : Nat := 0
  issuedAt : Nat := 0
  /-- the bytes still to be copied (R275) -/
  left : List (Nat × Nat) := []
  deriving DecidableEq, Repr

/-- A Flush of the namespace in use on a drive, outstanding (R367). -/
structure Flush where
  id : Nat
  part : Nat
  drive : Nat
  issuedAt : Nat
  /-- the queue pair it is on; none while it waits for an entry -/
  qp : Option Nat := none
  deriving DecidableEq, Repr

/-- A tenant of a partition (R390, R394 to R396, R347). -/
structure Tenant where
  active : Bool := false
  valid : Bool := false
  ttbr : Nat := 0
  hseg : Nat := 0
  hent : Nat := 0
  tbase : Nat := 0
  ltbase : Nat := 0
  ltn : Nat := 0
  wwb : Nat := 0
  wwn : Nat := 0
  qta : Nat := 0
  iw : Nat := 1
  sqbase : Nat := 0
  rqbase : Nat := 0
  balance : Int := 0
  level : Nat := 16
  eused : Nat := 0
  fcmt : Nat := 0
  reln : Nat := 0
  mchk : Nat := 0
  thrt : Nat := 0
  notifyRej : Nat := 0
  wakeRej : Nat := 0
  wakeDup : Nat := 0
  frameRej : Nat := 0
  devSeq : Nat := 0
  devDone : Nat := 0
  devFinished : List Nat := []
  tokens : Map Nat := []
  frames : Map Nat := []
  bufBusy : List (Nat × Nat × Nat) := []
  sqUsed : Map Nat := []
  deriving DecidableEq, Repr

/-- An entry of the park list (R318). -/
structure Parked where
  tenant : Nat
  entry : Nat
  deriving DecidableEq, Repr

structure Partition where
  exists_ : Bool := false
  quads : List Nat := []
  shp : Nat := 0
  fus : Nat := 0
  cfgAt : Nat := 0
  configured : Bool := false
  stopped : Bool := false
  stgbase : Word64 := 0
  tcbase : Nat := 0
  qtbase : Nat := 0
  pbase : Nat := 0
  mcbase : Nat := 0
  fqbase : Nat := 0
  shbase : Nat := 0
  wqbase : Nat := 0
  plbase : Nat := 0
  pln : Nat := 0
  wqn : Nat := 0
  ovdef : Nat := 2048
  bthr : Nat := 8
  brst : Nat := 2
  share : Nat := 0
  ag1d : Nat := 20000
  ag2d : Nat := 2000000
  cabase : Nat := 0
  ovbase : Nat := 0
  ovn : Nat := 0
  fbbase : Nat := 0
  fbn : Nat := 0
  p1base : Nat := 0
  p1n : Nat := 0
  p2ns0 : Nat := 0
  p2ns1 : Nat := 0
  p2n0 : Nat := 0
  p2n1 : Nat := 0
  tmbase : Nat := 0
  fqwr : Word32 := 0
  mcwr : Nat := 0
  mcovf : Nat := 0
  sqovf : Nat := 0
  pfrej : Nat := 0
  sysq : List Word64 := []
  tenants : Map Tenant := []
  slots : Map Slot := []
  pending : List Pending := []
  parked : List Parked := []
  parts : Map (List Item) := []
  ovItems : Map (List Item) := []
  /-- free frames of pond 0 (R317, log 20) -/
  p0free : List Nat := []
  p1free : Map Bool := []
  p2used : Map Bool := []
  p2bad : Map Bool := []
  /-- NVMe queue pairs of the partition, the next in turn, and by pair how many commands it has been given and how many completions it
  has received (R367) -/
  qpairs : Nat := 0
  qpNext : Nat := 0
  qpSq : Map Nat := []
  qpCq : Map Nat := []
  /-- coefficients that `ENRG` has overwritten (R393, R407) -/
  coef : Map (Option Word32) := []
  nextTag : Word32 := 0
  bitmap : List Nat := []
  lastPendingIrq : Option Nat := none
  lastStarveIrq : Option Nat := none
  lastFaultIrq : Option Nat := none
  lastPoolIrq : Option Nat := none
  poolLow : Bool := false
  faultIrqDue : Bool := false
  lockstep : Bool := false
  role : Nat := 0
  pairStopped : Bool := false
  clockOffset : Int := 0
  /-- the cycle of the last beat of the pair link (R421) -/
  beatAt : Nat := 0
  /-- the manager's header and code segment at its last start (R426) -/
  mgrImage : List Byte := []
  /-- the backstop of R415 is in force -/
  capped : Bool := false
  /-- what a notify of a queue has seen of the host's and the fabric's writes (R352, R362) -/
  qviews : Map (Map Nat) := []
  /-- the cycle of the notify that covered an entry of a ring, by queue × 2^32 + index (R355) -/
  qages : Map Nat := []
  deriving DecidableEq, Repr

/-- A cached translation, in the buffers of a quadrant (R256). -/
structure TlbEntry where
  quad : Nat
  part : Nat
  tenant : Nat
  va : Nat
  size : Nat
  pa : Nat
  r : Bool
  w : Bool
  x : Bool
  deriving DecidableEq, Repr

/-- An element processor's issue state (R28, R30, R31, R206). `pair` names the path whose next instruction may issue in the
cycle given, with the one that carried the pair hint. -/
structure EpSt where
  deficit : Map Int := []
  last : Nat := 15
  sysIssued : Option Nat := none
  lastIssueAt : Option Nat := none
  /-- the cycle of the last refill of the deficit counters: a cycle has one at most (R28) -/
  refillAt : Option Nat := none
  pair : Option (Nat × Bool × Nat) := none
  deriving DecidableEq, Repr

/-- A command chain of a launch on an EP (R226): last accepted entry, halted. -/
structure Chain where
  launch : Nat
  ep : Nat
  num : Nat
  lc : Option Nat := none
  halted : Bool := false
  /-- the group whose `CPYC` is walking the chain -/
  walk : Option Nat := none
  deriving DecidableEq, Repr

/-- One error record (R402). -/
structure ErrRec where
  loc : Word64 := 0
  clk : Word64 := 0
  syn : Word64 := 0
  tnt : Nat := 0
  tv : Bool := false
  src : Nat := 0
  uc : Bool := false
  val : Bool := false
  deriving DecidableEq, Repr

/-- An error bank with its counters, latch and pending record (R402, R403). -/
structure ErrBank where
  held : ErrRec := {}
  ccnt : Nat := 0
  ucnt : Nat := 0
  lat : Bool := false
  ovf : Bool := false
  pend : Option ErrRec := none
  deriving DecidableEq, Repr

/-- A saved group: rewound, where only its point is kept, or in full (R377, R384). -/
structure SavedGroup where
  g : Group
  rewound : Bool
  deriving DecidableEq, Repr

/-- Saved patches with everything of theirs (R376 to R381, R384): of an image, or of a patch that made room. Positions are those
at the save, in a sub-pan with the origin given. -/
structure Saved where
  part : Nat
  tenant : Nat
  ox : Nat
  oy : Nat
  patches : List Patch
  blocks : List Block
  groups : List SavedGroup
  store : Map Byte
  live : Map Bool
  dirty : Map Bool
  objViews : List ObjView
  sb : List SbEntry
  cmds : List Cmd
  faults : List FaultEntry
  chains : List Chain
  arrays : List (Nat × ArrayU)
  /-- 4 KiB units of holes' shadows: position, unit, bytes -/
  shadow : List (Nat × Nat × List Byte)
  deriving DecidableEq, Repr

/-- A saved context image (R384): the 64 bytes of its header, and what its sections hold. -/
structure Image where
  header : List Byte
  slot : Slot
  launches : List Launch
  pend : List Pending
  items : List (Nat × List Item)
  devSeq : Nat
  devDone : Nat
  devFinished : List Nat
  saved : Saved
  deriving DecidableEq, Repr

/-- A firmware bank (R425). -/
structure FwBank where
  image : List Byte := []
  version : Nat := 0
  valid : Bool := true
  deriving DecidableEq, Repr

/-- Iluarning's mailbox (R416). -/
structure Mailbox where
  busy : Bool := false
  cmd : Nat := 0
  part : Nat := 0
  result : Option Nat := none
  out : List Byte := []
  cmdRes : List Byte := []
  state : Nat := 0
  err : Nat := 0
  stepDone : Nat := 0
  stepFailed : Nat := 0
  seq : Word32 := 0
  arg : List Byte := []
  deriving DecidableEq, Repr

/-- An input forwarded to a lockstep pair and waiting for its cycle: an event, or the consumption of an uncorrectable error by a group
(R419, R422). -/
structure PairInput where
  id : Nat
  part : Nat
  due : Nat
  ev : Move
  deriving DecidableEq, Repr

/-- What a signature point will do once the signatures match (R420). -/
inductive SigAct where
  /-- `full`: the overflow region of the block forces the commit (R260) -/
  | commit (blk : Nat) (gid : Nat) (full : Bool)
  | write (pa : Nat) (bs : List Byte)
  | irq (kind a b : Nat)
  /-- a write of an engine's thread, which waits for it -/
  | thread (cmd : Nat) (who : Who) (bytes : List WByte)
  /-- an atomic of a lane: its address and its operands -/
  | atom (gid op : Nat) (bs : List Byte)
  | message (cmd : Nat)
  | drain (entry : Nat)
  deriving DecidableEq, Repr

/-- A signature point waiting for the peer (R420). -/
structure SigPoint where
  id : Nat
  part : Nat
  gid : Nat
  sig : Word32
  act : SigAct
  deriving DecidableEq, Repr

/-- An interrupt or message the device has sent out (R347, R352, R405): kind, partition, tenant or slot, vector. -/
structure Irq where
  kind : Nat
  part : Nat
  a : Nat
  b : Nat
  deriving DecidableEq, Repr

/-- A message handed to the transport and not yet acknowledged (R364). -/
structure NetMsg where
  part : Nat
  tenant : Nat
  q : Nat
  port : Nat
  fep : Nat
  rqn : Nat
  job : Word32
  /-- the 16-byte header and the payload -/
  bytes : List Byte
  deriving DecidableEq, Repr

/-- The state of an SPDM responder (R426). -/
structure Spdm where
  version : Bool := false
  caps : Bool := false
  algs : Bool := false
  transcript : List Byte := []
  out : List Byte := []
  deriving DecidableEq, Repr

/-- The issuing group and path of an instruction. -/
structure Cur where
  gid : Nat
  second : Bool
  deriving DecidableEq, Repr

structure State where
  /-- who acts next; empty: the move is a free value (log 1) -/
  agenda : List Move := []
  /-- counter that feeds the free values (log 1) -/
  tick : Nat := 0
  /-- how many of each periodic event have happened (R356, R360, R362, R395, R396, R415) -/
  tickAt : Map Nat := []
  /-- the group and path whose instruction is being executed -/
  cur : Option Cur := none
  clock : Nat := 0
  nextId : Nat := 1
  groups : List Group := []
  blocks : List Block := []
  patches : List Patch := []
  launches : List Launch := []
  parts : Map Partition := []
  eps : Map EpSt := []
  chains : List Chain := []
  mem : List Host.Cell := []
  co : List Write := []
  sb : List SbEntry := []
  lstore : Map Byte := []
  live : Map Bool := []
  /-- 4 KiB units of local stores, by position × 96 + unit: the value of `nextId` at the last write (R385) -/
  dirty : Map Nat := []
  objViews : List ObjView := []
  /-- barriers that arrivals or landings of this cycle have reached, and whose complete() is still to run (R200) -/
  objDue : List Obj := []
  /-- barriers that later updates of this cycle have reached: 4 an expectation, 6 a `BINIT` or `BINV` (R200) -/
  objLate : List (Obj × Nat) := []
  tlb : List TlbEntry := []
  faults : List FaultEntry := []
  cmds : List Cmd := []
  arrays : Map ArrayU := []
  ckrel : Map Word32 := []
  ckabs : Map Word32 := []
  ckfix : Map Word32 := []
  transit : List Transit := []
  moves : List PageMove := []
  flushes : List Flush := []
  /-- failed Flushes that Iluarning has been told of: partition and drive (R367) -/
  flushErrs : List (Nat × Nat) := []
  /-- the floors with which the next cache command on an entry begins (R276) -/
  cacheFloors : Map (Map Nat) := []
  images : List Image := []
  /-- patches saved whole to make room (R376) -/
  parked : List Saved := []
  errs : Map ErrBank := []
  uncorr : Map Bool := []
  coef : Map Word32 := []
  rakeLen : Nat := 3600
  /-- by pseudo-channel: the sectors that its rake has read in the pass that it is in, and the cycle at which that began (R401, R424) -/
  rakeCnt : Map Nat := []
  rakeAt : Map Nat := []
  holes : List Nat := []
  fusedOff : Option Nat := none
  mailbox : Mailbox := {}
  fw0 : FwBank := {}
  fw1 : FwBank := {}
  fwActive : Nat := 0
  fwCounter : Nat := 0
  fwPending : Option Nat := none
  capped : Bool := false
  overWin : Nat := 0
  underWin : Nat := 0
  pairIn : List PairInput := []
  /-- the model's own: counts at which peers whose records agree are ready to go on, as the link has brought them; `PAIR` takes the
  next (log 26) -/
  peerCounts : List Nat := []
  sigs : List SigPoint := []
  irqs : List Irq := []
  net : List NetMsg := []
  spdm : Spdm := {}
  powered : Bool := false
  peerDigest : List Byte := []
  deriving DecidableEq, Repr

/-- The machine after reset: nothing is placed, no partition is mapped, every register of the spec with a reset value reads
it, and memory lists nothing (INVENTORY.md; logs 3 to 8 for the values the spec does not give). -/
def State.reset : State := {}

end Sys2Proof.Machine
end

