-- ==== Sys2Proof/Machine/Base.lean ====
section
/-! DEFINITION. Reading and writing the pieces of the state: groups, blocks, launches, partitions, registers, positions. -/

namespace Sys2Proof.Machine

/-- The outcome of one step or instruction. -/
abbrev Out := Host.Outcome State Fault Refusal

/-! ### Records by key -/

def State.group? (s : State) (k : Nat) : Option Group := findKey (fun g => g.id) k s.groups
def State.setGroup (s : State) (g : Group) : State :=
  { s with groups := modifyKey (fun x => x.id) g.id (fun _ => g) s.groups }
def State.block? (s : State) (k : Nat) : Option Block := findKey (fun b => b.id) k s.blocks
def State.modBlock (s : State) (k : Nat) (f : Block → Block) : State :=
  { s with blocks := modifyKey (fun b => b.id) k f s.blocks }
def State.patch? (s : State) (k : Nat) : Option Patch := findKey (fun b => b.id) k s.patches
def State.launch? (s : State) (k : Nat) : Option Launch := findKey (fun l => l.id) k s.launches
def State.modLaunch (s : State) (k : Nat) (f : Launch → Launch) : State :=
  { s with launches := modifyKey (fun l => l.id) k f s.launches }
def State.cmd? (s : State) (k : Nat) : Option Cmd := findKey (fun c => c.id) k s.cmds
def State.setCmd (s : State) (c : Cmd) : State :=
  { s with cmds := modifyKey (fun x => x.id) c.id (fun _ => c) s.cmds }
def State.fault? (s : State) (k : Nat) : Option FaultEntry := findKey (fun f => f.id) k s.faults
def State.part (s : State) (k : Nat) : Partition := mget {} s.parts k
def State.setPart (s : State) (k : Nat) (p : Partition) : State := { s with parts := mset {} s.parts k p }
def State.modPart (s : State) (k : Nat) (f : Partition → Partition) : State := s.setPart k (f (s.part k))
def Partition.tenant (p : Partition) (t : Nat) : Tenant := mget {} p.tenants t
def Partition.setTenant (p : Partition) (t : Nat) (x : Tenant) : Partition := { p with tenants := mset {} p.tenants t x }
def Partition.slot (p : Partition) (k : Nat) : Slot := mget {} p.slots k
def Partition.setSlot (p : Partition) (k : Nat) (x : Slot) : Partition := { p with slots := mset {} p.slots k x }
def State.tenant (s : State) (p t : Nat) : Tenant := (s.part p).tenant t
def State.modTenant (s : State) (p t : Nat) (f : Tenant → Tenant) : State :=
  s.modPart p fun x => x.setTenant t (f (x.tenant t))
def State.modSlot (s : State) (p k : Nat) (f : Slot → Slot) : State := s.modPart p fun x => x.setSlot k (f (x.slot k))
def State.ep (s : State) (e : Nat) : EpSt := mget {} s.eps e
def State.modEp (s : State) (e : Nat) (f : EpSt → EpSt) : State := { s with eps := mset {} s.eps e (f (s.ep e)) }
def State.array (s : State) (k : Nat) : ArrayU := mget {} s.arrays k
def State.modArray (s : State) (k : Nat) (f : ArrayU → ArrayU) : State :=
  { s with arrays := mset {} s.arrays k (f (s.array k)) }

/-- `%clock` as a partition counts it (R17, R419). -/
def State.partClock (s : State) (part : Nat) : Nat :=
  let p := s.part part
  if p.lockstep then ((s.clock : Int) + p.clockOffset).toNat else s.clock

/-- A saturating 32-bit counter. -/
def sat32 (n : Nat) : Nat := min n 0xFFFFFFFF

/-! ### Positions (R3, R282) -/

def epX (e : Nat) : Nat := e % 64
def epY (e : Nat) : Nat := e / 64
def epOf (x y : Nat) : Nat := y * 64 + x
def quadOf (e : Nat) : Nat := (if epX e < 32 then 0 else 1) + (if epY e < 16 then 0 else 2)

/-- The north-west corner of a quadrant. -/
def quadX (q : Nat) : Nat := if q % 2 = 0 then 0 else 32
def quadY (q : Nat) : Nat := if q / 2 = 0 then 0 else 16

/-- Origin, width and height of a partition's sub-pan (R282). -/
def Partition.ox (p : Partition) : Nat := quadX (p.quads.headD 0)
def Partition.oy (p : Partition) : Nat := quadY (p.quads.headD 0)
def Partition.wp (p : Partition) : Nat := if p.shp = 1 || p.shp = 3 then 64 else 32
def Partition.hp (p : Partition) : Nat := if p.shp = 2 || p.shp = 3 then 32 else 16

def Partition.inSub (p : Partition) (x y : Nat) : Bool :=
  decide (p.ox ≤ x) && decide (x < p.ox + p.wp) && decide (p.oy ≤ y) && decide (y < p.oy + p.hp)

/-- The positions of a sub-pan in row-major order. -/
def Partition.positions (p : Partition) : List Nat :=
  (range p.oy p.hp).flatMap fun y => (range p.ox p.wp).map fun x => epOf x y

def State.isHole (s : State) (e : Nat) : Bool := s.holes.contains e

/-- The index of a position in row-major order of its sub-pan (R261, R369). -/
def Partition.posIx (p : Partition) (e : Nat) : Nat := (epY e - p.oy) * p.wp + (epX e - p.ox)

/-- The partition that holds a quadrant. -/
def State.partOfQuad (s : State) (q : Nat) : Option Nat :=
  (range 0 4).find? fun k => (s.part k).exists_ && (s.part k).quads.contains q

def State.partOfEp (s : State) (e : Nat) : Option Nat := s.partOfQuad (quadOf e)

/-- The lead member of the array that contains a quadrant, under a partition's fusion setting (R295, R296). -/
def leadOf (fus q : Nat) : Nat :=
  match fus with
  | 1 => q / 2 * 2
  | 2 => q % 2
  | 3 => 0
  | _ => q

/-- Depth kd and width N of an array (R295). -/
def arrKd (fus : Nat) : Nat := if fus = 2 || fus = 3 then 512 else 256
def arrN (fus : Nat) : Nat := if fus = 1 || fus = 3 then 2048 else 1024

/-- The array of an element processor. -/
def State.arrayOf (s : State) (e : Nat) : Nat :=
  match s.partOfEp e with
  | some k => leadOf (s.part k).fus (quadOf e)
  | none => quadOf e

def State.fusOf (s : State) (e : Nat) : Nat :=
  match s.partOfEp e with
  | some k => (s.part k).fus
  | none => 0

/-! ### Registers of a group (R15, R16) -/

/-- A lane register in a lane. -/
def Group.lane (g : Group) (r l : Nat) : Word32 := mget 0 g.v (r * 32 + l)
def Group.setLane (g : Group) (r l : Nat) (w : Word32) : Group := { g with v := mset 0 g.v (r * 32 + l) w }

/-- A 32-bit register, or the even-odd pair, in a lane (R47). -/
def Group.laneW (g : Group) (wide : Bool) (r l : Nat) : Word64 :=
  if wide then (g.lane (r + 1) l) ++ (g.lane r l) else (g.lane r l).setWidth 64

def Group.setLaneW (g : Group) (wide : Bool) (r l : Nat) (w : Word64) : Group :=
  if wide then (g.setLane r l (w.extractLsb' 0 32)).setLane (r + 1) l (w.extractLsb' 32 32)
  else g.setLane r l (w.extractLsb' 0 32)

/-- A uniform register; s63 reads zero (R15). -/
def Group.uni (g : Group) (r : Nat) : Word64 := if r = 63 then 0 else mget 0 g.s r
def Group.setUni (g : Group) (r : Nat) (w : Word64) : Group := if r = 63 then g else { g with s := mset 0 g.s r w }

/-- A lane predicate as a mask; p7 reads all true (R15). -/
def Group.pred (g : Group) (n : Nat) : Lanes := if n = 7 then BitVec.allOnes 32 else mget 0 g.p n
/-- Writing a lane predicate in the lanes of a mask; a write to p7 is discarded. -/
def Group.setPred (g : Group) (n : Nat) (m v : Lanes) : Group :=
  if n = 7 then g else { g with p := mset 0 g.p n ((g.pred n &&& ~~~m) ||| (v &&& m)) }

def Group.upred (g : Group) (n : Nat) : Bool := g.q.getLsbD n
def Group.setUpred (g : Group) (n : Nat) (b : Bool) : Group :=
  { g with q := if b then g.q ||| (1#4 <<< n) else g.q &&& ~~~(1#4 <<< n) }

/-- Writing lane values in the lanes of a mask, in increasing lane order. -/
def writeLanes (wide : Bool) (r : Nat) (f : Nat → Word64) : List Nat → Group → Group
  | [], g => g
  | l :: ls, g => writeLanes wide r f ls (g.setLaneW wide r l (f l))

/-! ### Paths -/

def Group.path? (g : Group) (second : Bool) : Option Path := if second then g.p1 else g.p0
def Group.setPath (g : Group) (second : Bool) (p : Option Path) : Group :=
  if second then { g with p1 := p } else { g with p0 := p }

/-- The lanes of a path whose guard is true (R52). -/
def guardOf (g : Group) (p : Path) (c : Ctl) : Lanes :=
  let v := g.pred c.gp.toNat
  p.mask &&& (if c.gn then ~~~v else v)

/-- The word index of the last word of a clause. -/
def Clause.lastIx (c : Clause) : Word64 := c.at_ + c.h.len.setWidth 64

/-- A path after the word it issued: the next word index, out of the clause when that was its last word. -/
def Path.next (p : Path) : Path :=
  { p with
    pc := p.pc + 1
    issued := p.issued + 1
    clause :=
      match p.clause with
      | some c => if p.pc = c.lastIx then none else some c
      | none => none }

/-- A path after a control transfer: it enters a header at the target. -/
def Path.goto (p : Path) (t : Word64) : Path := { p with pc := t, clause := none, issued := p.issued + 1 }

/-- A path that resumes after a restore enters its clause's header again, and goes on from there at the word it stood at
(R25, R59). -/
def Path.reenter (p : Path) : Path :=
  match p.clause with
  | some c => { p with pc := c.at_, clause := none, again := false, resume := if p.pc = c.at_ + 1 then none else some p.pc }
  | none => { p with again := false }

/-- The legality context of a group and path. -/
def ctxOf (g : Group) (p : Path) : LCtx :=
  { regs := g.regs, tenant := !g.sys,
    f0v := match p.clause with | some c => c.h.f0v | none => false
    f1v := match p.clause with | some c => c.h.f1v | none => false
    last := match p.clause with | some c => p.pc == c.lastIx | none => true }

/-- The number of the flag an instruction sets (R54). -/
def flagOf (p : Path) (c : Ctl) : Option Nat :=
  if c.fset then
    match p.clause with
    | some k => some (if c.fsel then k.h.f1n.toNat else k.h.f0n.toNat)
    | none => none
  else none

/-- The agent a group is, with what it belongs to (R264). -/
def State.who (s : State) (g : Group) : Who :=
  { gid := g.id, blk := g.block, quad := quadOf g.ep, part := g.part, ext := 0,
    pch := match s.block? g.block with | some b => b.patch | none => 0 }

/-- The launch header of a group. -/
def State.hdrOf (s : State) (g : Group) : LHdr :=
  match s.launch? g.launch with
  | some l => l.hdr
  | none => {}

/-! ### Fields of %wid (R10) -/

/-- The lowest bit of field f. -/
def wfBase (ws : List Nat) : Nat → Nat
  | 0 => 0
  | f + 1 => wfBase ws f + ws.getD f 0

def wfGet (ws : List Nat) (f : Nat) (w : Nat) : Nat := w / 2 ^ wfBase ws f % 2 ^ (ws.getD f 0)

end Sys2Proof.Machine
end

