-- ==== Sys2Proof/Machine/Flags.lean ====
section
/-! DEFINITION. Completion flags (R24), and the results that arithmetic writes to predicates (R126, R132, R138). -/

namespace Sys2Proof.Machine

/-- The count of a completion flag (R24). -/
def Group.flag (g : Group) (k : Nat) : Nat := mget 0 g.flags k

/-- The count rises by one when an operation issues (R24). -/
def Group.raiseFlag (g : Group) (k : Option Nat) : Group :=
  match k with
  | none => g
  | some n => { g with flags := mset 0 g.flags n (g.flag n + 1) }

/-- The count falls by one. -/
def Group.lowerFlag (g : Group) (k : Option Nat) : Group :=
  match k with
  | none => g
  | some n => { g with flags := mset 0 g.flags n (g.flag n - 1) }

/-- Whether an operation would raise a count past 63, so that it does not issue (R24). -/
def Group.flagFull (g : Group) (k : Option Nat) : Bool :=
  match k with
  | none => false
  | some n => decide (63 ≤ g.flag n)

/-- Whether every flag that a wait mask selects reads clear (R25). -/
def Group.flagsClear (g : Group) (wait : BitVec 12) : Bool :=
  (range 0 12).all fun k => !(wait.getLsbD k) || g.flag k == 0

/-- Whether every completion flag reads clear (R195, R209, R370). -/
def Group.allClear (g : Group) : Bool := g.flagsClear (BitVec.allOnes 12)

/-- Writes a predicate in the lanes of a mask, or the uniform predicate where the mask is not empty (R126). -/
def Group.writePred (g : Group) (d : PReg) (m : Lanes) (f : Nat → Bool) : Group :=
  match d with
  | .lane p => g.setPred p.toNat m (maskOf f)
  | .uni q => if m == 0 then g else g.setUpred q.toNat (f 0)

/-- The value of a predicate in a lane; a uniform predicate reads the same in every lane (R178). -/
def Group.predVal (g : Group) (p : PReg) (l : Nat) : Bool :=
  match p with
  | .lane n => (g.pred n.toNat).getLsbD l
  | .uni n => g.upred n.toNat

/-- The carry predicate of `IADDC`, and the predicate of `SEL`: on the destination's side (R132, R139). -/
def sidePred (d : Dst) (n : BitVec 3) : PReg :=
  match d with
  | .lane _ => .lane n
  | .uni _ => .uni (n.extractLsb' 0 2)

/-- The carry out of a sum: the exact sum reaches 2^W (R132). -/
def carryOut (w sum : Nat) : Bool := decide (2 ^ w ≤ sum)

end Sys2Proof.Machine
end

