-- ==== Sys2Proof/Machine/Memory.lean ====
section
/-! DEFINITION. Memory: physical contents, the page walk (R256 to R261), and the abstract machine's writes, views and floors
(R262 to R280). -/

namespace Sys2Proof.Machine

/-! ### Contents -/

/-- What a byte of memory that nothing has written reads as (log 3). -/
def memDefault : Byte := 0

/-- The canonical form of memory: rising addresses, and no entry equal to what an unlisted address reads as. -/
abbrev Memory.wf (m : List Host.Cell) : Bool := mwf memDefault m

/-- Reading one byte of memory: the co-last write to its physical address (R262). -/
def State.byte (s : State) (pa : Nat) : Byte := mget memDefault s.mem pa

def setBytes (m : List Host.Cell) : List (Nat × Byte) → List Host.Cell
  | [] => m
  | (a, b) :: r => setBytes (mset memDefault m a b) r

/-- Local-store bytes: by position and physical offset. -/
def lsKey (e off : Nat) : Nat := e * 2 ^ 19 + off
def State.lsByte (s : State) (e off : Nat) : Byte := mget 0 s.lstore (lsKey e off)
def State.lsBytes (s : State) (e off n : Nat) : List Byte := (range off n).map (s.lsByte e)
/-- Where the dirty bit of a local-store byte stands (R385). -/
def dirtyKey (ls : Nat) : Nat := ls / 2 ^ 19 * 96 + ls % 2 ^ 19 / 4096
def State.setLsByte (s : State) (e off : Nat) (b : Byte) : State :=
  { s with lstore := mset 0 s.lstore (lsKey e off) b, dirty := mset 0 s.dirty (dirtyKey (lsKey e off)) s.nextId }

def State.setLsBytes (s : State) (e off : Nat) : List Byte → State
  | [] => s
  | b :: r => (s.setLsByte e off b).setLsBytes e (off + 1) r

/-- The live-object map: one bit for each 16-byte unit (R107). -/
def State.liveAt (s : State) (e off : Nat) : Bool := mget false s.live (e * 2 ^ 15 + off / 16)
def State.setLive (s : State) (e off : Nat) (b : Bool) : State :=
  { s with live := mset false s.live (e * 2 ^ 15 + off / 16) b }

/-- Whether any byte of a range lies in a live object. -/
def State.liveIn (s : State) (e off n : Nat) : Bool := (range off n).any fun o => s.liveAt e o

/-! ### Scopes (R43, R264) -/

def Scope.rank : Scope → Nat
  | .grp => 0 | .blk => 1 | .pch => 2 | .quad => 3 | .part => 4 | .dev => 5 | .host => 6 | .pool => 7 | .fab => 8

def scopeLe (a b : Scope) : Bool := decide (Scope.rank a ≤ Scope.rank b)
def scopeMin (a b : Scope) : Scope := if scopeLe a b then a else b
def scopeMax (a b : Scope) : Scope := if scopeLe a b then b else a

/-- The device's own agents: dispatcher, walkers, record writers. -/
def devWho : Who := { gid := 0 }
/-- The host's processors and cache agents. -/
def hostWho : Who := { gid := 0, ext := 1 }

/-- S(A, B): the narrowest scope whose instance of A contains B (R264). -/
def sBetween (a b : Who) : Scope :=
  if a.ext != 0 || b.ext != 0 then
    if a = b then .host
    else if a.ext = 3 || b.ext = 3 then .fab
    else if a.ext = 2 || b.ext = 2 then .pool
    else .host
  else if a.gid = 0 || b.gid = 0 then (if a.gid = b.gid then .grp else .dev)
  else if a.gid = b.gid then .grp
  else if a.blk = b.blk then .blk
  else if a.pch = b.pch then .pch
  else if a.part = b.part && a.quad = b.quad then .quad
  else if a.part = b.part then .part
  else .dev

/-- The home of a device-memory location (R263), by the physical address's memory (R257). -/
def homeOf (pa : Nat) : Scope :=
  match pa / 2 ^ 54 with
  | 1 => .pool
  | 2 => .host
  | _ => .dev

/-! ### Coherence order, visibility and floors -/

/-- Locations: a tenant's virtual byte is the location of its alias (R278); a physical access, by the device, the host or a
system group, names the byte under every alias. -/
def locOf (sys : Bool) (part tenant va pa : Nat) : Nat := if sys then pa else (part * 16 + tenant + 1) * 2 ^ 56 + va

def physLoc (loc : Nat) : Bool := decide (loc < 2 ^ 56)

/-- Whether two locations belong to one translation context. -/
def sameCtx (a b : Nat) : Bool := a / 2 ^ 56 == b / 2 ^ 56

/-- Whether a written byte is a write to the location that an access names. -/
def WByte.hits (b : WByte) (pa loc : Nat) : Bool :=
  b.pa == pa &&
    (if b.all then !(physLoc loc) && sameCtx b.loc loc && b.loc != loc else b.loc == loc || physLoc b.loc || physLoc loc)

/-- The key of a written byte's location in floors; what an `AFENCE` entered under every alias but one has a key of its own. -/
def WByte.key (b : WByte) : Nat := if b.all then 2 ^ 80 * (b.loc + 1) + b.pa else b.loc

/-- Whether a key of floors stands for a location. -/
def keyHits (k pa loc : Nat) : Bool :=
  if 2 ^ 80 ≤ k then k % 2 ^ 80 == pa && sameCtx (k / 2 ^ 80 - 1) loc && k / 2 ^ 80 - 1 != loc else k == loc || k == pa

def Write.hits (w : Write) (pa loc : Nat) : Bool := w.bytes.any fun b => b.hits pa loc

/-- Whether a drained write is visible to an agent (R269, R270). -/
def Write.visible (w : Write) (a : Who) : Bool :=
  (a.ext == 0 && w.who.ext == 0 && w.who.blk == a.blk && w.who.gid != 0 && a.gid != 0)
    || (w.who.gid == a.gid && w.who.ext == a.ext) || scopeLe (sBetween w.who a) w.lvl

/-- The place of an identity in a list, from n + 1. -/
def idPos : List Nat → Nat → Nat → Nat
  | [], _, n => n + 1
  | x :: r, id, n => if x = id then n + 1 else idPos r id (n + 1)

/-- The place of a write in coherence order, from 1; 0 for the initial contents; undrained stores come after all drained
writes, in the order in which they will drain (R268, R270). -/
def State.pos (s : State) (id : Nat) : Nat :=
  if id = 0 then 0 else idPos (s.co.map (fun w => w.id) ++ s.sb.map fun e => e.id) id 0

/-- The co-later of two floors. -/
def State.later (s : State) (a b : Nat) : Nat := if s.pos a < s.pos b then b else a

/-- Joining floors location by location (R273). -/
def State.joinFloors (s : State) (f : Map Nat) : Map Nat → Map Nat
  | [] => f
  | (l, id) :: r => s.joinFloors (mset 0 f l (s.later (mget 0 f l) id)) r

/-- The floor of an agent for a location: the co-latest that any key of the location names. -/
def State.floorAt (s : State) (f : Map Nat) (pa loc : Nat) : Nat :=
  f.foldl (fun a x => if keyHits x.1 pa loc then s.later a x.2 else a) 0

/-- The co-latest write to a location that satisfies a predicate, with its byte. -/
def lastHit (p : Write → Bool) (pa loc : Nat) : List Write → Option (Nat × Byte) → Option (Nat × Byte)
  | [], acc => acc
  | w :: r, acc =>
    if p w then
      match w.bytes.find? fun b => b.hits pa loc with
      | some b => lastHit p pa loc r (some (w.id, b.new))
      | none => lastHit p pa loc r acc
    else lastHit p pa loc r acc

/-- Whether a byte was written at a physical address; what an `AFENCE` enters again changes no memory. -/
def WByte.at_ (b : WByte) (pa : Nat) : Bool := b.pa == pa && !b.all

/-- The contents of a byte before any listed write. -/
def State.initialByte (s : State) (pa : Nat) : Byte :=
  match s.co.find? fun w => w.bytes.any fun b => b.at_ pa with
  | some w =>
    match w.bytes.find? fun b => b.at_ pa with
    | some b => b.old
    | none => s.byte pa
  | none => s.byte pa

/-- A byte as the device itself reads it: the co-latest write visible at `.dev` (R258, R270). -/
def State.devByte (s : State) (pa : Nat) : Byte :=
  match lastHit (fun w => w.visible devWho) pa pa s.co none with
  | some (_, b) => b
  | none => s.initialByte pa

/-- n bytes from a physical address, as the device reads them. -/
def State.bytes (s : State) (pa n : Nat) : List Byte := (range pa n).map s.devByte

/-- A little-endian number of n bytes at a physical address, as the device reads it. -/
def State.num (s : State) (pa n : Nat) : Nat := valueLE (s.bytes pa n)

/-- The newest undrained store of a block to a location (R270). -/
def State.sbHit (s : State) (blk pa loc : Nat) : Option (Nat × Byte) :=
  s.sb.foldl (fun acc e =>
    if e.blk = blk then
      match e.bytes.find? fun b => b.hits pa loc with
      | some b => some (e.id, b.new)
      | none => acc
    else acc) none

/-- Where the writes to a byte through an alias have come to for an agent that knows, by its own `AFENCE`, what writers' `AFENCE`s have
entered of them: the place of the co-latest such write (R278). -/
def State.aliasFloor (s : State) (f : Map Nat) (pa loc : Nat) : Nat :=
  let known := s.pos (mget 0 f (2 ^ 80 * (loc + 1) + pa))
  let of_ := fun (m : Nat) (orig : Option Nat) (bs : List WByte) =>
    match orig with
    | some k => if bs.any fun b => b.all && b.loc == loc && b.pa == pa then max m (s.pos k) else m
    | none => m
  let m := (s.co.take known).foldl (fun m w => of_ m w.copyOf w.bytes) 0
  (s.sb.take (known - s.co.length)).foldl (fun m e => of_ m e.copyOf e.bytes) m

/-- A write made to the same byte through another alias, the k-th of the drained writes and then of the block's own stores:
a load may return it, in no order with it, unless a later one through that alias has been ordered before the load by the `AFENCE`s of its
writer and of the reader, or one at the physical address, which names every alias, is a floor of the reader (R278, R281). -/
def State.aliasByte (s : State) (a : Who) (floors : Map Nat) (k pa loc : Nat) : Option Byte :=
  let all := s.co.map (fun w => (w.id, w.bytes)) ++ (s.sb.filter fun e => e.blk == a.blk).map fun e => (e.id, e.bytes)
  match all[k]? with
  | some (id, bs) =>
    match bs.find? fun b => b.at_ pa && !(b.hits pa loc) with
    | some b => if s.pos id < s.aliasFloor floors pa b.loc || decide (s.pos id < s.pos (mget 0 floors pa)) then none else some b.new
    | none => none
  | none => none

/-- What a load of one byte returns, and the write it returns (R270): the newest undrained store of its block; else the
co-latest visible write among the first `cut / 2` of the coherence order, but never one before the floor. With an odd `cut` it
may be a write through another alias, which is not named (R278). -/
def State.loadByte (s : State) (a : Who) (floors : Map Nat) (cut pa loc : Nat) : Nat × Byte :=
  match if cut % 2 = 1 then s.aliasByte a floors (cut / 2) pa loc else none with
  | some b => (0, b)
  | none =>
    match s.sbHit a.blk pa loc with
    | some r => r
    | none =>
      let fl := s.floorAt floors pa loc
      let atFloor := (lastHit (fun w => w.id == fl) pa loc s.co none).getD (0, s.initialByte pa)
      match lastHit (fun w => w.visible a || w.id == fl) pa loc (s.co.take (cut / 2)) none with
      | some (id, b) => if s.pos id < s.pos fl then atFloor else (id, b)
      | none => atFloor

/-- What decides which of the visible writes a load returns that is made as its instruction issues (R270, log 11). -/
def State.openCut (s : State) (salt : Nat) : Nat := Config.freeNat (s.tick + salt)

/-- The byte as it stood after the first `cut` drained writes: what an access that is not coherent may return (R58, R190). -/
def State.byteAt (s : State) (cut pa : Nat) : Byte :=
  match (s.co.drop cut).find? fun w => w.bytes.any fun b => b.at_ pa with
  | some w =>
    match w.bytes.find? fun b => b.at_ pa with
    | some b => b.old
    | none => s.byte pa
  | none => s.byte pa

/-- The level of a write: up to its home's scope (R269), and `.host` for HBM that a release at `.host` raises (R280). -/
def capLevel (lvl home : Scope) : Scope := if home = .dev && scopeLe .host lvl then .host else scopeMin lvl home

/-- A sector that is written is no longer marked uncorrectable (R399). -/
def clearMarks : List WByte → Map Bool → Map Bool
  | [], u => u
  | b :: r, u => clearMarks r (mset false u (b.pa / 32) false)

/-- Places a write last in the coherence order of its locations, at a level (R268); what an `AFENCE` enters again changes no memory
(R278). -/
def State.drainWrite (s : State) (id : Nat) (who : Who) (lvl : Scope) (bytes : List WByte) (views : List View)
    (copyOf : Option Nat := none) : State :=
  let bs := bytes.map fun b => { b with old := s.byte b.pa }
  let home := match bytes with | b :: _ => homeOf b.pa | [] => .dev
  { s with
    co := s.co ++ [{ id := id, who := who, lvl := capLevel lvl home, home := home, bytes := bs, views := views, copyOf := copyOf }]
    mem := setBytes s.mem ((bytes.filter fun b => !b.all).map fun b => (b.pa, b.new))
    uncorr := if s.uncorr = [] then [] else clearMarks bytes s.uncorr }

/-- The bytes of a write of consecutive physical addresses by the device itself. -/
def physBytes (pa : Nat) : List Byte → List WByte
  | [] => []
  | b :: r => { pa := pa, loc := pa, new := b } :: physBytes (pa + 1) r

/-- A write by the device, the host or an engine thread that drains at once at a level (R275, R350). -/
def State.devWrite (s : State) (who : Who) (lvl : Scope) (pa : Nat) (bs : List Byte) : State :=
  if bs = [] then s
  else { s with nextId := s.nextId + 1 }.drainWrite s.nextId who lvl (physBytes pa bs) []

/-- The views a location's last write carries. -/
def State.viewsOf (s : State) (id : Nat) : List View :=
  match s.co.find? fun w => w.id == id with
  | some w => w.views
  | none =>
    match s.sb.find? fun e => e.id == id with
    | some e => e.views
    | none => []

/-- Joining every view that an acquire at a scope synchronises with (R273). -/
def State.acquire (s : State) (a : Who) (sc : Scope) (f : Map Nat) : List View → Map Nat
  | [] => f
  | v :: r =>
    if scopeLe (sBetween v.who a) (scopeMin sc v.sc) then s.acquire a sc (s.joinFloors f v.fl) r
    else s.acquire a sc f r

/-- Whether a release at a scope may be performed (R272): every floor that is a device-memory write has drained, uncommitted
stores of a restartable block apart, and its level is at least the scope, or its home's where that is narrower. -/
def State.mayRelease (s : State) (sc : Scope) (f : Map Nat) : Bool :=
  f.all fun (_, id) =>
    match s.sb.find? fun e => e.id == id with
    | some e => !e.committed
    | none =>
      match s.co.find? fun w => w.id == id with
      | some w => scopeLe (scopeMin sc w.home) w.lvl
      | none => true

/-! ### Translation (R256 to R258, R261) -/

/-- What an access needs of a page (R258). -/
inductive Access where
  | read | write | fetch
  deriving DecidableEq, Repr

inductive WalkRes where
  | page (pa size : Nat) (r w x tr : Bool)
  | miss (tier : Bool) (e : Nat)
  | viol
  deriving DecidableEq, Repr

/-- Whether two answers name the same page with the same rights. -/
def WalkRes.same : WalkRes → WalkRes → Bool
  | .page a b c d e _, .page a' b' c' d' e' _ => a == a' && b == b' && c == c' && d == d' && e == e'
  | _, _ => false

def pageSize (sz : Nat) : Nat :=
  match sz with
  | 0 => 2 ^ 12
  | 1 => 2 ^ 16
  | 2 => 2 ^ 21
  | 3 => 2 ^ 25
  | 4 => 2 ^ 29
  | _ => 2 ^ 34

/-- The leaf sizes a level allows (R257). -/
def szAllowed (lvl sz : Nat) : Bool :=
  match lvl with
  | 2 => sz == 5
  | 3 => sz == 2 || sz == 3 || sz == 4
  | 4 => sz == 0 || sz == 1
  | _ => false

/-- How many replicated leaves hold the page of an entry: one, but for a page larger than its level's span (R257). -/
def replicas (lvl sh e : Nat) : Nat :=
  let sz := bits e 10 8
  if bitOf e 1 || !(szAllowed lvl sz) || !(bitOf e 0 || bitOf e 6) then 1 else pageSize sz / 2 ^ sh

/-- The entry that a walk reads at an index of a table: where the replicas of a leaf differ, any one of them (R257, log 11). -/
def State.entryAtIx (s : State) (va lvl sh table ix : Nat) : Nat :=
  let e := s.num (table + 8 * ix) 8
  let n := replicas lvl sh e
  if n = 1 then e
  else
    let es := (range (ix / n * n) n).map fun k => s.num (table + 8 * k) 8
    if es.all fun x => x == e then e else es.getD (Config.freeNat (s.tick + va / 4096) % n) e

/-- One entry of the walk, in the order of R258. The levels still to read are (level, shift of its index). -/
def walkFrom (s : State) (va : Nat) : List (Nat × Nat) → Nat → WalkRes
  | [], _ => .viol
  | (lvl, sh) :: rest, table =>
    let e := s.entryAtIx va lvl sh table (va / 2 ^ sh % (if lvl = 0 then 256 else 512))
    let v := bitOf e 0
    let t := bitOf e 1
    let tr := bitOf e 6
    let sz := bits e 10 8
    let pa := bits e 55 12 * 4096
    if !v && !tr then .miss false e
    else if (t && lvl == 4) || (!t && (lvl == 0 || lvl == 1)) || (!t && !(szAllowed lvl sz)) || (tr && sz != 1)
        || bits e 63 56 != 0 || bitOf e 11 || bitOf e 7 || bitOf e 2 then .viol
    else if !v then .miss true e
    else if t then walkFrom s va rest pa
    else .page (pa / pageSize sz * pageSize sz) (pageSize sz) (bitOf e 3) (bitOf e 4) (bitOf e 5) tr

/-- The walk of a tenant's page tables (R257). -/
def State.walk (s : State) (p t va : Nat) : WalkRes :=
  walkFrom s va [(0, 48), (1, 39), (2, 30), (3, 21), (4, 12)] (s.tenant p t).ttbr

/-- The regions of R261 and the reserved physical space: no tenant access may resolve to them. The third is the memory of
the weight buffers, where only copies may write (R228, log 14). -/
def inRange (pa base len : Nat) : Bool := decide (base ≤ pa) && decide (pa < base + len)

def State.privatePa (s : State) (pa : Nat) : Bool :=
  (range 0 4).any fun k =>
    let p := s.part k
    p.exists_ && p.configured &&
      ((p.stgbase != 0 && inRange pa p.stgbase.toNat (p.wp * p.hp * 393216))
        || inRange pa p.shbase (16 * 16 * 393216)
        || inRange pa p.ovbase (p.ovn * 4096)
        || inRange pa p.cabase (p.wp * p.hp * 32 * 4096)
        || inRange pa p.wqbase (p.wqn * 65536))

/-- The physical place of a weight buffer's byte (log 14). -/
def wbufPa (quad off : Nat) : Nat := 3 * 2 ^ 54 + quad * 2 ^ 24 + off
def isWbuf (pa : Nat) : Bool := inRange pa (3 * 2 ^ 54) (4 * 2 ^ 24)

/-- Whether a physical address exists (R257): HBM below 512 GiB, CXL memory, host memory. -/
def paExists (pa : Nat) : Bool :=
  match pa / 2 ^ 54 with
  | 0 => decide (pa < 2 ^ 39)
  | 1 => true
  | 2 => true
  | _ => false

inductive TRes where
  | ok (pa : Nat)
  | miss (tier : Bool)
  | viol
  deriving DecidableEq, Repr

def judge (s : State) (k : Access) (copy : Bool) (va : Nat) : WalkRes → TRes
  | .miss t _ => .miss t
  | .viol => .viol
  | .page pa size r w x _ =>
    let ok := match k with | .read => r | .write => w | .fetch => x
    let a := pa + va % size
    if !ok then .viol
    else if isWbuf a then (if copy then .ok a else .viol)
    else if !(paExists a) || s.privatePa a then .viol
    else .ok a

/-- The cached translations of an address in the buffers of an EP's quadrant that the page table no longer gives (R256). -/
def State.cached (s : State) (e p t va : Nat) (now : WalkRes) : List WalkRes :=
  ((s.tlb.filter fun x => x.quad == quadOf e && x.part == p && x.tenant == t && inRange va x.va x.size).map fun x =>
    WalkRes.page x.pa x.size x.r x.w x.x false).filter fun c => !(c.same now)

/-- Translation of one address of a tenant at an EP: the walk's answer, or a cached one that the page table no longer holds;
which of them is open until a covering `TLBINV` (R256, log 11). -/
def State.translate (s : State) (e p t : Nat) (k : Access) (copy : Bool) (va : Nat) : TRes :=
  if 2 ^ 56 ≤ va then .viol
  else
    let now := s.walk p t va
    match s.cached e p t va now with
    | [] => judge s k copy va now
    | cs => judge s k copy va ((now :: cs).getD (Config.freeNat (s.tick + va / 4096) % (cs.length + 1)) now)

/-- A physical address used by a system group (log 9). -/
def State.translateSys (s : State) (va : Nat) : TRes :=
  let _ := s
  if 2 ^ 56 ≤ va || !(paExists va) then .viol else .ok va

/-- The buffers of an EP's quadrant hold the page of an address (R256). -/
def State.noteTlb (s : State) (e p t va : Nat) : State :=
  match s.walk p t va with
  | .page pa size r w x _ =>
    let n : TlbEntry :=
      { quad := quadOf e, part := p, tenant := t, va := va / size * size, size := size, pa := pa, r := r, w := w, x := x }
    if s.tlb.contains n then s else { s with tlb := n :: s.tlb }
  | _ => s

/-- The pages of some addresses. -/
def State.noteAll (s : State) (e p t : Nat) (vas : List Nat) : State :=
  vas.foldl (fun (s : State) va => s.noteTlb e p t va) s

/-- The page of an address that a group used is cached; a system group's is not translated. -/
def State.noteGroup (s : State) (g : Group) (va : Nat) : State := if g.sys then s else s.noteTlb g.ep g.part g.tenant va

/-- Translation for a group's access. -/
def State.trGroup (s : State) (g : Group) (k : Access) (va : Nat) : TRes :=
  if g.sys then s.translateSys va else s.translate g.ep g.part g.tenant k false va

/-- The location that a group's access to an address names. -/
def Group.loc (g : Group) (va pa : Nat) : Nat := locOf g.sys g.part g.tenant va pa

/-- Translates n consecutive addresses; the first that is not mapped decides. -/
def trRange (f : Nat → TRes) (va : Nat) : Nat → Except TRes (List Nat)
  | 0 => .ok []
  | n + 1 =>
    match f va with
    | .ok pa =>
      match trRange f (va + 1) n with
      | .ok r => .ok (pa :: r)
      | .error e => .error e
    | e => .error e

/-- The first of n consecutive addresses that has no translation: the lowest faulting address (R374). -/
def missAt (f : Nat → TRes) (va : Nat) : Nat → Nat
  | 0 => va
  | n + 1 =>
    match f va with
    | .miss _ => va
    | _ => missAt f (va + 1) n

/-! ### Raising writes and commits -/

/-- Raises to a scope every drained write that satisfies a predicate. -/
def raiseWrites (p : Write → Bool) (sc : Scope) : List Write → List Write
  | [] => []
  | w :: r => (if p w then { w with lvl := scopeMax w.lvl (capLevel sc w.home) } else w) :: raiseWrites p sc r

/-- Drains one store-buffer entry at a level, keeping its views. -/
def State.drainEntry (s : State) (e : SbEntry) (lvl : Scope) (extra : List View) : State :=
  { s with sb := dropKey (fun x => x.id) e.id s.sb }.drainWrite e.id e.who lvl e.bytes (e.views ++ extra) e.copyOf

def State.drainAll (s : State) (lvl : Scope) (extra : List View) : List SbEntry → State
  | [] => s
  | e :: r => (s.drainEntry e lvl extra).drainAll lvl extra r

/-- Joined floors of the groups of a block. -/
def State.blockFloors (s : State) (blk : Nat) : Map Nat :=
  (s.groups.filter fun g => g.block == blk).foldl (fun f g => s.joinFloors f g.floors) []

/-- The commit of a block's uncommitted stores in one step: drained, raised to `.dev`, each carrying the commit's view; the
block is not restartable from then on, and its patch is not relaunched (R279, R400). -/
def State.commitBlock (s : State) (blk : Nat) : State :=
  let es := s.sb.filter fun e => e.blk == blk
  let own := (es.filter fun e => e.copyOf.isNone).foldl (fun f e => e.bytes.foldl (fun f b => mset 0 f b.loc e.id) f) ([] : Map Nat)
  let fl := s.joinFloors (s.blockFloors blk) own
  let who : Who := match es with | e :: _ => e.who | [] => devWho
  let s := s.drainAll .dev [{ who := who, sc := .dev, fl := fl }] es
  let pat := match s.block? blk with | some b => b.patch | none => 0
  { s with patches := modifyKey (fun p => p.id) pat (fun p => { p with committed := true }) s.patches }.modBlock blk fun b =>
    { b with restartable := false }

/-- Whether a block is restartable. -/
def State.restartable (s : State) (blk : Nat) : Bool :=
  match s.block? blk with
  | some b => b.restartable
  | none => false

end Sys2Proof.Machine
end

