-- ==== Sys2Proof/Machine/Operands.lean ====
section
/-! DEFINITION. Every operand form: register, immediate and constant-bank sources (R45 to R50, R126, R128, R158), memory
operands and windows (R40, R185, R191), and the writing of results (R47, R126). -/

namespace Sys2Proof.Machine

/-! ### Sources -/

/-- A register source in a lane, at 32 or 64 bits (R47, R126). -/
def rsrcVal (g : Group) (wide : Bool) (r : RSrc) (l : Nat) : Word64 :=
  match r with
  | .lane n => g.laneW wide n.toNat l
  | .uni n => if wide then g.uni n.toNat else (g.uni n.toNat) &&& 0xFFFFFFFF#64

/-- An immediate at the operating width: a 64-bit operation sign-extends it for `.s64` and in the EXT form (R50, R128). -/
def immVal (wide sx : Bool) (v : BitVec 32) : Word64 :=
  if wide && sx then v.signExtend 64 else v.setWidth 64

/-- The address and bound size of a constant bank of a group's launch (R121). -/
def State.bankOf (s : State) (g : Group) (n : Nat) : Nat × Nat := (s.hdrOf g).banks.getD n (0, 0)

/-- The place in coherence order that a read through a constant or instruction cache may be as old as: any point since the
launch was created (R58, R190, log 11). -/
def State.cacheCut (s : State) (g : Group) (salt : Nat) : Nat :=
  let start := match s.launch? g.launch with | some l => l.coStart | none => 0
  if s.co.length ≤ start then start
  else start + Config.freeNat (s.tick + salt) % (s.co.length - start + 1)

/-- A read through the constant cache sees the sub-pan's description as the dispatcher last wrote it (R283). -/
def State.descCut (s : State) (g : Group) (cut pa : Nat) : Nat :=
  match s.launch? g.launch with
  | some l => max cut (mget 0 l.desc pa)
  | none => cut

/-- One byte of a constant bank: zero beyond the bound size (R46, R190). -/
def State.constByte (s : State) (g : Group) (bank off : Nat) : Byte :=
  let (a, size) := s.bankOf g bank
  if size ≤ off then 0
  else
    match s.trGroup g .read (a + off) with
    | .ok pa => s.byteAt (s.descCut g (s.cacheCut g (a + off)) pa) pa
    | _ => 0

def State.constVal (s : State) (g : Group) (bank off n : Nat) : Word64 :=
  BitVec.ofNat 64 (valueLE ((range off n).map (s.constByte g bank)))

/-- The first address of a constant-bank operand that has no usable translation (R46, R259). -/
def State.constFault (s : State) (g : Group) (bank off n : Nat) : Option (Nat × TRes) :=
  let (a, size) := s.bankOf g bank
  (range off n).findSome? fun o =>
    if size ≤ o then none
    else
      match s.trGroup g .read (a + o) with
      | .ok _ => none
      | e => some (a + o, e)

/-- A source of any class, `n` bytes wide in a constant bank. -/
def srcVal (s : State) (g : Group) (wide sx : Bool) (n : Nat) (b : Src) (l : Nat) : Word64 :=
  match b with
  | .lane r => g.laneW wide r.toNat l
  | .uni r => if wide then g.uni r.toNat else (g.uni r.toNat) &&& 0xFFFFFFFF#64
  | .imm v => immVal wide sx v
  | .cbank k off => s.constVal g k.toNat off.toNat n

/-- The uniform or immediate operand of barriers and `SLEEP`. -/
def usrcVal (g : Group) (v : USrc) : Word64 :=
  match v with
  | .uni r => g.uni r.toNat
  | .imm i => i.setWidth 64

/-! ### Results -/

/-- The bits of a value at a width. -/
def maskW (wide : Bool) (v : Word64) : Word64 := if wide then v else v &&& 0xFFFFFFFF#64

/-- A result written to a uniform register: a 32-bit result is sign-extended for `.s` types, zero-extended otherwise (R47). -/
def extendUni (t : Ty) (v : Word64) : Word64 :=
  if wideTy t then v
  else if signedTy t then (v.extractLsb' 0 32).signExtend 64
  else v &&& 0xFFFFFFFF#64

/-- Writes a data result: in every guarded lane, or once where some lane's guard is true (R126). -/
def Group.writeDst (g : Group) (t : Ty) (d : Dst) (m : Lanes) (f : Nat → Word64) : Group :=
  match d with
  | .lane r => writeLanes (wideTy t) r.toNat f (lanesOf m) g
  | .uni r => if m == 0 then g else g.setUni r.toNat (extendUni t (f 0))

/-! ### Memory operands -/

/-- The device address of a lane (R185). -/
def devAddr (g : Group) (base : BitVec 6) (ix : MemIx) (l : Nat) : Nat :=
  match ix with
  | .idx v => ((g.uni base.toNat).toNat + (g.lane v.toNat l).toNat) % 2 ^ 64
  | .off i => (g.uni base.toNat + i.signExtend 64).toNat

/-- The address form of an atomic: an index, or the base alone (R185). -/
def atomIx : Option (BitVec 8) → MemIx
  | some v => .idx v
  | none => .off 0

/-- The local-store offset of a lane (R191). -/
def locOff (g : Group) (a : RSrc) (ix : MemIx) (l : Nat) : Nat :=
  let base := (rsrcVal g false a l).toNat
  match ix with
  | .idx v => (base + (g.lane v.toNat l).toNat) % 2 ^ 32
  | .off i => (base + i.toNat) % 2 ^ 32

/-- The displacement of a window (R40): y increases southward. -/
def winDelta : Win → Int × Int
  | .own => (0, 0)
  | .north => (0, -1)
  | .northEast => (1, -1)
  | .east => (1, 0)
  | .southEast => (1, 1)
  | .south => (0, 1)
  | .southWest => (-1, 1)
  | .west => (-1, 0)
  | .northWest => (-1, -1)

/-- Whether a position holds a block of a launch (R285). -/
def State.holdsBlock (s : State) (launch e : Nat) : Bool := s.blocks.any fun b => b.launch == launch && b.ep == e

/-- The position a window selects: in the sub-pan, and holding a block of the group's launch or a hole (R182). -/
def State.winPos (s : State) (g : Group) (w : Win) : Option Nat :=
  let (dx, dy) := winDelta w
  let x : Int := epX g.ep + dx
  let y : Int := epY g.ep + dy
  if x < 0 || y < 0 then none
  else if !((s.part g.part).inSub x.toNat y.toNat) then none
  else
    let e := epOf x.toNat y.toNat
    if s.holdsBlock g.launch e || s.isHole e then some e else none

/-- The range of a launch in every store: physical base and length (R284). -/
def State.rangeOf (s : State) (launch : Nat) : Nat × Nat :=
  match s.launch? launch with
  | some l => (l.rangeBase, l.rangeLen)
  | none => (0, 0)

/-- The index of a hole in its partition's list (R388). -/
def State.holeIx (s : State) (part e : Nat) : Nat :=
  ((s.holes.filter fun h => (s.part part).inSub (epX h) (epY h)).findIdx fun h => h == e)

/-- The physical address of a byte of a hole's shadow for a tenant (R287, R388). -/
def State.shadowPa (s : State) (part tenant e off : Nat) : Nat :=
  (s.part part).shbase + (16 * tenant + s.holeIx part e) * 393216 + off

/-- Sign- or zero-extension of the n bytes that a load read to a register's width (R187). -/
def loadExt (n : Nat) (sext : Bool) (v : Nat) : Word64 :=
  if sext then
    match n with
    | 1 => (BitVec.ofNat 8 v).signExtend 64
    | 2 => (BitVec.ofNat 16 v).signExtend 64
    | 4 => (BitVec.ofNat 32 v).signExtend 64
    | _ => BitVec.ofNat 64 v
  else BitVec.ofNat 64 v

end Sys2Proof.Machine
end

