-- ==== Sys2Proof/Machine/Paths.lean ====
section
/-! DEFINITION. Paths, join records and the reconvergence stack (R19 to R21, R145 to R149), and the end of groups and blocks. -/

namespace Sys2Proof.Machine

/-- The slot a path ends in is refilled from the top of the stack, or left empty (R21, R147). -/
def Group.refill (g : Group) (second : Bool) : Group :=
  match g.stack with
  | [] => g.setPath second none
  | t :: r => { g with stack := r }.setPath second (some { t with issued := 0 })

/-- Puts a path into a free slot, or pushes it. -/
def Group.place (g : Group) (p : Path) : Group :=
  if g.p0.isNone then { g with p0 := some { p with issued := 0 } }
  else if g.p1.isNone then { g with p1 := some { p with issued := 0 } }
  else { g with stack := p :: g.stack }

/-- The record with a given identity. -/
def Group.rec? (g : Group) (k : Nat) : Option JoinRec := findKey (fun r => r.id) k g.recs

/-- The point of a path's record, if it has one. -/
def Group.pointOf (g : Group) (p : Path) : Option Word64 :=
  match p.jr with
  | none => none
  | some k =>
    match g.rec? k with
    | some r => some r.pt
    | none => none

/-- The parts of a split as paths of their own program orders (R265). A part counts the instructions that it issues from 0 on, whether
or not the stack is empty (log 96). -/
def numberParts (n : Nat) (jr : Option Nat) : List Path → List Path
  | [] => []
  | p :: r => { p with jr := jr, thr := n, hist := n :: p.hist, issued := 0 } :: numberParts (n + 1) jr r

/-- A split of a path into parts at a point (R146); `point` is the named point with its header, or none. No result: the
divergence-depth trap. -/
def Group.split (g : Group) (second : Bool) (p : Path) (parts : List Path) (point : Option (Word64 × Header)) : Option Group :=
  let fresh : Option (Word64 × Header) :=
    match point with
    | none => none
    | some (x, h) => if g.pointOf p = some x then none else some (x, h)
  let otherFree := (g.path? (!second)).isNone
  let pushes := parts.length - 1 - (if otherFree then 1 else 0)
  if decide (64 < g.stack.length + pushes) || (fresh.isSome && decide (64 ≤ g.recs.length)) then none
  else
    let jr := match fresh with | none => p.jr | some _ => some g.nextRec
    let g1 : Group :=
      match fresh with
      | none => g
      | some (x, h) =>
        { g with nextRec := g.nextRec + 1,
                 recs := { id := g.nextRec, pt := x, exp := p.mask, arr := 0, out := p.jr, hd := h } :: g.recs }
    let ps := numberParts g.nextThr jr parts
    let g2 := { g1 with nextThr := g.nextThr + parts.length }
    match ps with
    | [] => some g2
    | a :: [] => some (g2.setPath second (some a))
    | a :: b :: r =>
      if otherFree then some { (g2.setPath second (some a)).setPath (!second) (some b) with stack := r ++ g2.stack }
      else some { g2.setPath second (some a) with stack := b :: r ++ g2.stack }

/-- The clause context at word PT + 2, in the clause whose header is at PT. -/
def afterPoint (pt : Word64) (h : Header) : Option Clause :=
  if h.len.toNat ≤ 1 then none else some { at_ := pt, h := h }

def subsetM (a b : Lanes) : Bool := a &&& ~~~b == 0#32

/-- A path reaches `RECONV` or `JOIN` at its program counter (R147). -/
def Group.arrive (g : Group) (second : Bool) (p : Path) : Group :=
  match p.jr with
  | none => g.setPath second (some p.next)
  | some k =>
    match g.rec? k with
    | none => g.setPath second (some p.next)
    | some j =>
      if j.pt != p.pc - 1 then g.setPath second (some p.next)
      else
        let arr := j.arr ||| p.mask
        let hist := p.hist ++ j.hist
        if subsetM j.exp arr then
          let q := p.next
          { g with recs := dropKey (fun r => r.id) k g.recs, nextThr := g.nextThr + 1 }.setPath second
            (some { q with mask := arr, jr := j.out, thr := g.nextThr, hist := g.nextThr :: hist.eraseDups })
        else
          ({ g with recs := modifyKey (fun r => r.id) k (fun r => { r with arr := arr, hist := hist }) g.recs }).refill second

/-- Closes the records that the end of lanes leaves with EXP within ARR, and discards the empty ones (R148). -/
def Group.closeReady (g : Group) : List JoinRec → Group
  | [] => g
  | j :: r =>
    if j.exp == 0 && j.arr == 0 then { g with recs := dropKey (fun x => x.id) j.id g.recs }.closeReady r
    else if subsetM j.exp j.arr then
      ({ g with recs := dropKey (fun x => x.id) j.id g.recs, nextThr := g.nextThr + 1 }.place
        { pc := j.pt + 2, mask := j.arr, jr := j.out, clause := afterPoint j.pt j.hd, thr := g.nextThr,
          hist := g.nextThr :: j.hist.eraseDups }).closeReady r
    else g.closeReady r

/-- Lanes of a path with a program order end: they leave EXP of every open record, which takes the order over where it expected
one of them, and records that become complete close (R148, R265). -/
def Group.endLanes (g : Group) (m : Lanes) (hist : List Nat) : Group :=
  let rs := g.recs.map fun r => { r with exp := r.exp &&& ~~~m, hist := if r.exp &&& m = 0 then r.hist else hist ++ r.hist }
  { g with recs := rs }.closeReady rs

/-- Every active lane of a path ends (R209). Its slot is refilled before a record that the end completes places its merged
path (log 85). -/
def Group.endPath (g : Group) (second : Bool) (p : Path) : Group := (g.refill second).endLanes p.mask p.hist

/-- A group with no path left, and no lanes waiting to be merged, has ended. -/
def Group.ended (g : Group) : Bool := g.p0.isNone && g.p1.isNone && g.stack.isEmpty && g.recs.isEmpty

/-! ### The end of groups and blocks (R8, R209) -/

/-- Whether a command still holds a block's local store: the block issued it, or it completes into the block's store. -/
def holdsStore (b : Block) (c : Cmd) : Bool :=
  (c.block == b.id && c.launch == b.launch)
    || (match c.compl with
        | .none =>
          (match c.kind with
           | .copy d => d.ck != 0 && c.launch == b.launch && c.dests.any fun x => x.ep == b.ep
           | _ => false)
        | .barrier o => o.ep == b.ep && c.launch == b.launch
        | .ring o => o.ep == b.ep && c.launch == b.launch)

/-- Releases the stores of blocks whose groups have exited and whose commands have completed (R209). -/
def State.releaseStores (s : State) : State :=
  { s with blocks := s.blocks.filter fun b => !(b.alive == 0 && !(s.cmds.any (holdsStore b))) }

/-- A group leaves; the last group of a restartable block commits it (R209, R279). -/
def State.endGroup (s : State) (g : Group) : State :=
  match s.block? g.block with
  | none => { s with groups := dropKey (fun x => x.id) g.id s.groups }
  | some b =>
    let s := if b.alive ≤ 1 && b.restartable then (s.setGroup g).commitBlock b.id else s
    ({ s with groups := dropKey (fun x => x.id) g.id s.groups }.modBlock b.id
      fun b => { b with alive := b.alive - 1 }).releaseStores

/-- Stores a group back, or ends it when no path is left. -/
def State.putGroup (s : State) (g : Group) : State := if g.ended then s.endGroup g else s.setGroup g

end Sys2Proof.Machine
end

