-- ==== Sys2Proof/Machine/Ops.lean ====
section
/-! DEFINITION. What every instruction's issue shares: who issues, the causes of R62, the count limit of R24, traps and their
return (R368 to R373), translation faults (R183, R259, R374), manager interrupts (R405), and device-written records. -/

namespace Sys2Proof.Machine

/-! ### Interrupts, the system queue and the configuration's device-written fields (R388, R389, R405) -/

/-- A device-written field of a partition's configuration record. -/
def State.cfgWrite (s : State) (k off : Nat) (bs : List Byte) : State :=
  s.devWrite devWho .dev ((s.part k).cfgAt + off) bs

/-- Appends an item to a partition's system queue; a full queue counts it in SQOVF instead (R405). -/
def State.sysAppend (s : State) (k : Nat) (w : Word64) : State :=
  let p := s.part k
  if p.sysq.length < 64 then s.setPart k { p with sysq := p.sysq ++ [w] }
  else
    let n := sat32 (p.sqovf + 1)
    (s.setPart k { p with sqovf := n }).cfgWrite k 232 (bytesLE n 4)

/-- A message sent out of the device: kinds 1 to 8 are the manager interrupts of R405, 9 a tenant's vector (R347), 10
Iluarning's vector 0 (R416), 11 the interrupt of a chain entry (R111). -/
def State.sendIrq (s : State) (kind part a b : Nat) : State :=
  { s with irqs := s.irqs ++ [{ kind := kind, part := part, a := a, b := b }] }

/-- A manager interrupt with its system-queue item (R405). -/
def State.managerIrq (s : State) (k kind arg : Nat) : State :=
  (s.sendIrq kind k 0 arg).sysAppend k (BitVec.ofNat 64 (kind * 2 ^ 56 + arg))

/-! ### Inputs of a lockstep pair (R419) -/

/-- An input of a partition takes effect now; in a lockstep partition the primary forwards it for a later cycle, and the
secondary drops what reaches its own windows. -/
def State.asInput (s : State) (part : Nat) (ev : Instr) (drop now : State) : State :=
  let p := s.part part
  if !p.lockstep then now
  else if p.role = 0 then
    { s with nextId := s.nextId + 1, pairIn := s.pairIn ++ [{ id := s.nextId, part := part, due := s.clock + 8192, ev := .event ev }] }
  else drop

/-- Whether a lockstep partition accesses memory outside its package's HBM: what is read there is an input of the pair, and what is
written there has a signature point (R419, R420). -/
def State.offPackage (s : State) (part : Nat) (pas : List Nat) : Bool :=
  (s.part part).lockstep && pas.any fun pa => homeOf pa != .dev

/-- Whether this package discards such a write, since the peer makes it. -/
def State.discards (s : State) (part : Nat) (pas : List Nat) : Bool := s.offPackage part pas && (s.part part).role != 0

/-- The bytes that an access takes: on the secondary those that the link brings, which the model leaves open (log 26). -/
def State.linked (s : State) (part : Nat) (pas : List Nat) (bs : List Byte) : List Byte :=
  if s.discards part pas then
    (pas.zip bs).map fun x => if homeOf x.1 = .dev then x.2 else Config.freeByte (s.tick + s.nextId * 2 ^ 20 + x.1 % 2 ^ 20)
  else bs

/-- Whether data asked for by cycle `due` are here: within 8,192 cycles after it (log 119). -/
def State.arrived (s : State) (due : Nat) : Bool := due != 0 && decide (due ≤ s.clock) && decide (s.clock < due + 8192)

/-! ### Trap records and machine checks (R371, R373) -/

/-- The 64 bytes of a trap record (R371). -/
def trapRecord (g : Group) (i : TrapInfo) : List Byte :=
  bytesLE
    (i.code % 256 + (if i.deferred then 2 ^ 15 else 0) + i.eng % 8 * 2 ^ 16 + g.tenant % 16 * 2 ^ 28
      + i.hdr.toNat % 2 ^ 32 * 2 ^ 32 + i.seqn.toNat * 2 ^ 64 + i.fmask.toNat * 2 ^ 128 + i.amask.toNat * 2 ^ 160
      + i.pc.toNat % 2 ^ 32 * 2 ^ 192 + i.fpc.toNat % 2 ^ 32 * 2 ^ 224 + g.wid.toNat * 2 ^ 256 + i.va.toNat * 2 ^ 320
      + i.arg.toNat * 2 ^ 384 + (g.uni 62).toNat * 2 ^ 448) 64

/-- The record of a precise trap of a path at its program counter (R370, R371). -/
def precise (p : Path) (code : Nat) (fmask : Lanes) (va arg : Word64) : TrapInfo :=
  { code := code, fpc := p.pc, pc := p.pc, amask := p.mask, fmask := fmask, va := va, arg := arg,
    hdr := match p.clause with | some c => c.at_ | none => p.pc }

/-- Stops a group with its state, logs the record and interrupts the manager (R373); MCHK counts the checks of tenants' groups
(R390, R392). A stopped group meets no second one. -/
def State.machineCheck (s : State) (g : Group) (i : TrapInfo) : State :=
  if g.wait = .stopped then s.setGroup g
  else
  let s := s.setGroup { g with wait := .stopped, trap := none }
  let s := if g.sys then s else s.modTenant g.part g.tenant fun t => { t with mchk := sat32 (t.mchk + 1) }
  let p := s.part g.part
  let mcrd := (s.devByte (p.cfgAt + 55)).toNat
  let next := (p.mcwr + 1) % 256
  if next = mcrd then
    let n := sat32 (p.mcovf + 1)
    ((s.setPart g.part { p with mcovf := n }).cfgWrite g.part 4 (bytesLE n 4)).managerIrq g.part 4 p.mcwr
  else
    (((s.devWrite devWho .dev (p.mcbase + 64 * p.mcwr) (trapRecord g i)).modPart g.part
      fun p => { p with mcwr := next }).cfgWrite g.part 54 [BitVec.ofNat 8 next]).managerIrq g.part 4 next

/-- The context area of a group slot exists (R261, R368). -/
def State.areaOk (s : State) (part e slot : Nat) : Bool :=
  let p := s.part part
  let a := p.cabase + 4096 * (p.posIx e * 32 + slot)
  paExists a && paExists (a + 4095)

/-- The address of a group's trap record (R369). -/
def State.trapRecordVa (s : State) (g : Group) : Nat :=
  ((s.tenant g.part g.tenant).tbase + 64 * ((s.part g.part).posIx g.ep * 32 + g.slot)) % 2 ^ 64

/-- The written bytes of a record that the device stores at a tenant's virtual address. -/
def virtBytes (part tenant : Nat) : Nat → List Nat → List Byte → List WByte
  | va, pa :: ps, b :: bs => { pa := pa, loc := locOf false part tenant va pa, new := b } :: virtBytes part tenant (va + 1) ps bs
  | _, _, _ => []

/-- Floors that name one write for the locations it wrote. -/
def floorsTo (id : Nat) : List WByte → Map Nat → Map Nat
  | [], f => f
  | b :: r, f => floorsTo id r (mset 0 f b.key id)

/-- The group enters its tenant's handler: the divergence state is saved, the record is written, s62 names it, and one path
with the trapped path's mask continues at HENT (R370). A context area that does not exist, or a trap area that is not mapped for
writing, is machine check 0x63 (R368). -/
def State.enterHandler (s : State) (g : Group) (t : PendTrap) : State :=
  let va := s.trapRecordVa g
  let tr := trRange (s.translate g.ep g.part g.tenant .write false) va 64
  match if s.areaOk g.part g.ep g.slot then tr.toOption else none with
  | none => s.machineCheck g { t.info with code := 0x63 }
  | some pas =>
    match g.path? t.second with
    | none => s.setGroup { g with trap := none }
    | some p =>
      let ws := virtBytes g.part g.tenant va pas (trapRecord g t.info)
      let id := s.nextId
      let s := { s with nextId := id + 1 }.drainWrite id devWho .dev ws []
      let d : DivBlock :=
        { inSecond := t.second, other := g.path? (!t.second), stack := g.stack, recs := g.recs, mask := p.mask, jr := p.jr,
          hdr := t.info.hdr }
      let h : Path := { pc := BitVec.ofNat 64 (s.tenant g.part g.tenant).hent, mask := p.mask, thr := p.thr, hist := p.hist }
      let g := { g with trap := none, handler := some d, p0 := some h, p1 := none, stack := [], recs := [],
                        floors := floorsTo id ws g.floors }
      s.setGroup (g.setUni 62 (BitVec.ofNat 64 va))

/-- A raised trap is taken once every completion flag of the group reads clear (R370). -/
def State.settle (s : State) (gid : Nat) : State :=
  match s.group? gid with
  | none => s
  | some g =>
    match g.trap with
    | none => s
    | some t => if g.allClear then s.enterHandler g t else s

/-- TAKING A TRAP (R368, R370): in a handler it is machine check 0x62; without a handler (a system group has none, log 16) it
is machine check 0x61; else the group stops issuing and enters the handler when its flags are clear. -/
def State.takeTrap (s : State) (g : Group) (second : Bool) (i : TrapInfo) : State :=
  if g.handler.isSome then s.machineCheck g { i with code := 0x62 }
  else if g.sys || (s.tenant g.part g.tenant).hseg = 0 then s.machineCheck g { i with code := 0x61 }
  else (s.setGroup { g with fmask := i.fmask, trap := some { info := i, second := second } }).settle g.id

/-- A precise trap at the word of a path (R62, R182). -/
def State.trapAt (s : State) (g : Group) (p : Path) (second : Bool) (code : Nat) (fmask : Lanes) (va : Nat) (arg : Word64) :
    State :=
  s.takeTrap g second (precise p code fmask (BitVec.ofNat 64 va) arg)

/-! ### Translation faults (R183, R259, R374) -/

/-- Whether an EP's fault buffer has a free entry (R259). -/
def State.faultRoom (s : State) (e : Nat) : Bool :=
  decide ((s.faults.filter fun f => f.ep == e && match f.target with | .lanes .. => true | .fetch .. => true | _ => false).length < 64)

/-- A new outstanding fault with the next TAG of its partition. -/
def State.addFault (s : State) (f : FaultEntry) : State :=
  let tag := (s.part f.part).nextTag
  { s with faults := s.faults ++ [{ f with id := s.nextId, tag := tag }], nextId := s.nextId + 1 }.modPart f.part
    fun p => { p with nextTag := tag + 1 }

/-- The faulting lanes of an instruction take a fault-buffer entry and the group is parked; `op` is the identity of an access whose
other lanes go on (R183, R259). -/
def State.parkNow (s : State) (g : Group) (second : Bool) (i : Instr) (m : Lanes) (va : Nat) (w tier : Bool) (op : Nat) : State :=
  (s.setGroup { g with wait := .fault s.nextId second }).addFault
    { id := 0, part := g.part, tag := 0, src := 0, ep := g.ep, slot := g.slot, va := BitVec.ofNat 64 va, w := w,
      tenant := g.tenant, tier := tier, target := .lanes g.id i second m op }

/-- An instruction that is to issue again as a whole is parked; with no free entry the group does not issue (R259). -/
def State.parkLanes (s : State) (g : Group) (second : Bool) (i : Instr) (m : Lanes) (va : Nat) (w tier : Bool) : State :=
  if s.faultRoom g.ep then s.parkNow g second i m va w tier 0 else s

/-- A fetch of the word at an address, part of which has no translation, parks the group; `pc` is the word at which the path
stops if the driver declines (R58, R374). -/
def State.parkFetch (s : State) (g : Group) (second : Bool) (pc : Word64) (va : Nat) (tier : Bool) : State :=
  if s.faultRoom g.ep then
    (s.setGroup { g with wait := .fetchFault s.nextId second }).addFault
      { id := 0, part := g.part, tag := 0, src := 6, ep := g.ep, slot := g.slot, va := BitVec.ofNat 64 (missAt (s.trGroup g .fetch) va 12), w := false,
        tenant := g.tenant, tier := tier, target := .fetch g.id second pc (BitVec.ofNat 64 va) }
  else s

/-- The record of a fetch of a word that fails: the path stops at the word `pc`, and VA is the word's address (R58). -/
def fetchInfo (p : Path) (pc : Word64) (va : Nat) : TrapInfo :=
  { precise p 0x21 p.mask (BitVec.ofNat 64 va) 0 with fpc := pc, pc := pc }

/-! ### Code words (R58) -/

/-- The base of the segment a group fetches from (R58, R369). -/
def State.codeBase (s : State) (g : Group) : Nat :=
  if g.handler.isSome then (s.tenant g.part g.tenant).hseg else (s.hdrOf g).code

/-- A word of a code segment, perhaps as it stood at an earlier moment of the launch (R58, log 11). -/
def State.codeWord (s : State) (g : Group) (base : Nat) (pc : Word64) : Except (Nat × TRes) Word96 :=
  let va := (base + 12 * pc.toNat) % 2 ^ 64
  match trRange (s.trGroup g .fetch) va 12 with
  | .ok pas => .ok (wordOfBytes (pas.map (s.byteAt (s.cacheCut g va))))
  | .error e => .error (va, e)

/-- The opcode of a word is the header's (R57). -/
def isHeader (w : Word96) : Bool := w.extractLsb' 88 8 == 0xF0#8

/-! ### Return from a trap (R372) -/

/-- The group after a successful `RTT`: the opaque block is restored, lanes outside AMASK end, and the path enters header h,
with issue continuing at PC. -/
def Group.resume (g : Group) (d : DivBlock) (p : Path) (am : Lanes) (h pc : Word64) : Group :=
  let q : Path := { pc := h, mask := am, jr := d.jr, thr := p.thr, hist := p.hist, resume := if pc = h then none else some pc }
  let g := { g with handler := none, cancel := false, stack := d.stack, recs := d.recs }
  ((g.setPath d.inSecond (some q)).setPath (!d.inSecond) d.other).endLanes (d.mask &&& ~~~am) p.hist

/-! ### Issuing -/

/-- Runs a meaning on the issuing group and path. -/
def withCur (s : State) (k : Group → Path → Bool → Out) : Out :=
  match s.cur with
  | none => .fault .noIssuer
  | some c =>
    match s.group? c.gid with
    | none => .fault .noIssuer
    | some g =>
      match g.path? c.second with
      | none => .fault .noIssuer
      | some p => k g p c.second

/-- Every instruction's issue: a cause of R62 traps with the lowest code, and an operation that would raise a flag's count
past 63 does not issue (R24). -/
def issue (i : Instr) (c : Ctl) (s : State) (k : Group → Path → Bool → Out) : Out :=
  withCur s fun g p sec =>
    match causes (ctxOf g p) i with
    | [] => if g.flagFull (flagOf p c) then .next s else k g p sec
    | x :: r => .next (s.trapAt g p sec ((lowest (x :: r)).getD 0) p.mask 0 0)

/-- The path moves on past its word (R144). -/
def advance (s : State) (g : Group) (p : Path) (sec : Bool) : State := s.setGroup (g.setPath sec (some p.next))

/-- The path moves on and the group is stored, or ended when no path is left. -/
def stay (s : State) : Out := .next s

/-- A constant-bank operand of `n` bytes is fetched before issue: a byte without a translation parks the group, one on a
page that forbids it raises access-violation (R46, R58, R183). -/
def fetchConst (i : Instr) (s : State) (g : Group) (p : Path) (sec : Bool) (m : Lanes) (n : Nat) (b : Src) (k : Out) : Out :=
  match b with
  | .cbank bank off =>
    if m == 0 then k
    else
      match s.constFault g bank.toNat off.toNat n with
      | none => k
      | some (va, .miss t) => .next (s.parkLanes g sec i m va false t)
      | some (va, _) => .next (s.trapAt g p sec 0x21 m va 0)
  | _ => k

/-- A fixed-latency instruction whose result is a function of the group (R23, R126): the constant operand arrives, the
result is written in the guarded lanes, the path moves on. -/
def fixed (i : Instr) (c : Ctl) (n : Nat) (b : Option Src) (s : State) (res : Group → Lanes → Group) : Out :=
  issue i c s fun g p sec =>
    let m := guardOf g p c
    let fin : Out := .next (advance s (res g m) p sec)
    match b with
    | none => fin
    | some b => fetchConst i s g p sec m n b fin

/-- Marks a non-idempotent instruction or engine command in the since-mark record (R196). -/
def Group.note (g : Group) : Group := { g with sinceMark := true }

end Sys2Proof.Machine
end

