-- ==== Sys2Proof/Machine/Integer.lean ====
section
/-! DEFINITION. The integer, shift, logic, field, compare, select and move instructions (R126 to R143), over one shared form:
a function of W-bit source words. -/

namespace Sys2Proof.Machine

/-! ### Values at an operating width (R126) -/

/-- The operating width of a type. -/
def widthOf (t : Ty) : Nat := if wideTy t then 64 else 32

/-- sx: the W-bit value read as two's complement. -/
def sxW (w : Bool) (x : Word64) : Int := if w then x.toInt else (x.extractLsb' 0 32).toInt

/-- ux: the W-bit value read as unsigned. -/
def uxW (w : Bool) (x : Word64) : Nat := (maskW w x).toNat

/-- The view a type takes of a value. -/
def viewT (t : Ty) (x : Word64) : Int := if signedTy t then sxW (wideTy t) x else (uxW (wideTy t) x : Int)

/-- An exact integer reduced modulo 2^W. -/
def wrapW (w : Bool) (z : Int) : Word64 := maskW w (BitVec.ofInt 64 z)

/-- The least and greatest values of a type (R75). -/
def loT (t : Ty) : Int := if signedTy t then -(2 ^ (widthOf t - 1)) else 0
def hiT (t : Ty) : Int := if signedTy t then 2 ^ (widthOf t - 1) - 1 else 2 ^ widthOf t - 1

/-- An exact result, saturated or wrapped (R75, R131). -/
def satT (sat : Bool) (t : Ty) (z : Int) : Word64 := wrapW (wideTy t) (if sat then clampInt (loT t) (hiT t) z else z)

/-! ### The functions of the instructions -/

def aluAdd (t : Ty) (sat : Bool) (a b : Word64) : Word64 := satT sat t (viewT t a + viewT t b)
def aluSub (t : Ty) (sat : Bool) (a b : Word64) : Word64 := satT sat t (viewT t a - viewT t b)
def aluAbs (t : Ty) (sat : Bool) (a : Word64) : Word64 := satT sat t (viewT t a).natAbs
def aluMul (t : Ty) (a b : Word64) : Word64 := wrapW (wideTy t) (viewT t a * viewT t b)
def aluMulh (t : Ty) (a b : Word64) : Word64 := wrapW (wideTy t) (viewT t a * viewT t b / 2 ^ widthOf t)
def aluMad (t : Ty) (a b c : Word64) : Word64 := wrapW (wideTy t) (viewT t a * viewT t b + viewT t c)
def aluMin (t : Ty) (a b : Word64) : Word64 := if viewT t a < viewT t b then a else b
def aluMax (t : Ty) (a b : Word64) : Word64 := if viewT t b < viewT t a then a else b

/-- The carry-less product of the low n bits of a with b (R142). -/
def clmulN (b a : Nat) : Nat → Nat
  | 0 => 0
  | n + 1 => clmulN b a n ^^^ (if bitOf a n then b * 2 ^ n else 0)

def aluClmul (t : Ty) (hi : Bool) (a b : Word64) : Word64 :=
  let p := clmulN (uxW (wideTy t) b) (uxW (wideTy t) a) (widthOf t)
  if hi then BitVec.ofNat 64 (p / 2 ^ widthOf t) else BitVec.ofNat 64 (p % 2 ^ widthOf t)

/-- Shifts take the count as the whole W-bit value (R134). -/
def aluShl (t : Ty) (a b : Word64) : Word64 :=
  let n := uxW (wideTy t) b
  if widthOf t ≤ n then 0 else BitVec.ofNat 64 (uxW (wideTy t) a * 2 ^ n % 2 ^ widthOf t)

def aluShr (t : Ty) (a b : Word64) : Word64 :=
  let n := uxW (wideTy t) b
  if widthOf t ≤ n then 0 else BitVec.ofNat 64 (uxW (wideTy t) a / 2 ^ n)

def aluSar (t : Ty) (a b : Word64) : Word64 :=
  wrapW (wideTy t) (sxW (wideTy t) a / 2 ^ min (uxW (wideTy t) b) (widthOf t - 1))

def aluRotl (t : Ty) (a b : Word64) : Word64 :=
  let w := widthOf t
  let m := uxW (wideTy t) b % w
  let x := uxW (wideTy t) a
  BitVec.ofNat 64 ((x * 2 ^ m + x / 2 ^ (w - m)) % 2 ^ w)

def popcN (a : Nat) : Nat → Nat
  | 0 => 0
  | n + 1 => popcN a n + (if bitOf a n then 1 else 0)

/-- The number of zero bits above the highest one bit, among the low n. -/
def clzN (a : Nat) : Nat → Nat
  | 0 => 0
  | n + 1 => if bitOf a n then 0 else clzN a n + 1

/-- The bits of a word in reverse order. -/
def brevN (a w : Nat) : Nat → Nat
  | 0 => 0
  | n + 1 => brevN a w n + (if bitOf a n then 2 ^ (w - 1 - n) else 0)

def aluPopc (t : Ty) (a : Word64) : Word64 := BitVec.ofNat 64 (popcN (uxW (wideTy t) a) (widthOf t))
def aluClz (t : Ty) (a : Word64) : Word64 := BitVec.ofNat 64 (clzN (uxW (wideTy t) a) (widthOf t))
def aluBrev (t : Ty) (a : Word64) : Word64 := BitVec.ofNat 64 (brevN (uxW (wideTy t) a) (widthOf t) (widthOf t))

/-- The zero bits below the lowest one bit are those above the highest of the reversed word. -/
def aluCtz (t : Ty) (a : Word64) : Word64 := aluClz t (aluBrev t a)

/-- Bytes in reverse order; `.n16` swaps the two low bytes and clears the rest (R134). -/
def aluBswap (t : Ty) (a : Word64) : Word64 :=
  BitVec.ofNat 64 (valueLE (bytesLE a.toNat (tyBytes t)).reverse)

/-- The bits at which the lookup table reads one (R136). -/
def blutBits (lut : BitVec 8) (a b c : Word64) : List Nat → Word64
  | [] => 0
  | i :: r =>
    let ix := (if a.getLsbD i then 1 else 0) + (if b.getLsbD i then 2 else 0) + (if c.getLsbD i then 4 else 0)
    blutBits lut a b c r ||| (if lut.getLsbD ix then 1#64 <<< i else 0)

def aluBlut (t : Ty) (lut : BitVec 8) (a b c : Word64) : Word64 := blutBits lut a b c (range 0 (widthOf t))

def aluNot (t : Ty) (a : Word64) : Word64 := maskW (wideTy t) (~~~a)

/-- Position and length of a field, the length cut at the width (R137). -/
def fieldPos (b : Word64) : Nat := bits b.toNat 7 0
def fieldLen (t : Ty) (b : Word64) : Nat :=
  if widthOf t ≤ fieldPos b then 0 else min (bits b.toNat 15 8) (widthOf t - fieldPos b)

def aluBfx (t : Ty) (a b : Word64) : Word64 :=
  let n := fieldLen t b
  let f : Nat := uxW (wideTy t) a / 2 ^ fieldPos b % 2 ^ n
  if n = 0 then 0
  else if signedTy t && bitOf f (n - 1) then wrapW (wideTy t) ((f : Int) - 2 ^ n)
  else BitVec.ofNat 64 f

def aluBfi (t : Ty) (a b c : Word64) : Word64 :=
  let p := fieldPos b
  let m := 2 ^ fieldLen t b
  let x := uxW (wideTy t) c
  BitVec.ofNat 64 (x % 2 ^ p + uxW (wideTy t) a % m * 2 ^ p + x / 2 ^ p / m * m * 2 ^ p)

/-- The conditions of ISET (R138). -/
def condHolds (cc : Cond) (x y : Int) : Bool :=
  match cc with
  | .eq => decide (x = y)
  | .ne => decide (x ≠ y)
  | .lt => decide (x < y)
  | .le => decide (x ≤ y)
  | .gt => decide (y < x)
  | .ge => decide (y ≤ x)

def aluMovi (t : Ty) (step : BitVec 8) (b : Word64) (l : Nat) : Word64 :=
  wrapW (wideTy t) ((uxW (wideTy t) b : Int) + (l : Int) * step.toInt)

def aluMovh (hi : BitVec 32) (a : Word64) : Word64 := hi ++ a.extractLsb' 0 32

def aluLea (t : Ty) (n : BitVec 6) (a b : Word64) : Word64 :=
  BitVec.ofNat 64 ((uxW (wideTy t) a + uxW (wideTy t) b * 2 ^ n.toNat) % 2 ^ widthOf t)

/-- Byte j of BYSEL's result (R143). -/
def byselByte (sel : BitVec 20) (src : List Byte) (j : Nat) : Byte :=
  let x := src.getD (sel.toNat / 2 ^ (3 * j) % 8) 0
  if sel.getLsbD (16 + j) then 0
  else if sel.getLsbD (12 + j) then (if x.getLsbD 7 then 0xFF#8 else 0)
  else x

def aluBysel (sel : BitVec 20) (a b : Word64) : Word64 :=
  let src := bytesLE a.toNat 4 ++ bytesLE b.toNat 4
  BitVec.ofNat 64 (valueLE ((range 0 4).map (byselByte sel src)))

/-! ### The shared forms -/

/-- Two sources, B of any class. -/
def bin (i : Instr) (c : Ctl) (t : Ty) (sx : Bool) (d : Dst) (a : RSrc) (b : Src) (s : State) (f : Word64 → Word64 → Word64) :
    Out :=
  fixed i c (opBytes t) (some b) s fun g m =>
    g.writeDst t d m fun l => f (rsrcVal g (wideTy t) a l) (srcVal s g (wideTy t) sx (opBytes t) b l)

/-- One register source. -/
def un (i : Instr) (c : Ctl) (t : Ty) (d : Dst) (a : RSrc) (s : State) (f : Word64 → Word64) : Out :=
  fixed i c 0 none s fun g m => g.writeDst t d m fun l => f (rsrcVal g (wideTy t) a l)

/-- Three register sources. -/
def tern (i : Instr) (c : Ctl) (t : Ty) (d : Dst) (a b e : RSrc) (s : State) (f : Word64 → Word64 → Word64 → Word64) : Out :=
  fixed i c 0 none s fun g m =>
    g.writeDst t d m fun l => f (rsrcVal g (wideTy t) a l) (rsrcVal g (wideTy t) b l) (rsrcVal g (wideTy t) e l)

/-- Whether an immediate of a type is sign-extended (R50). -/
def sxImm (t : Ty) : Bool := t == .s64

/-! ### The meanings -/

def execIadd (c : Ctl) (t : Ty) (sat : Bool) (d : Dst) (a : RSrc) (b : Src) (s : State) : Out :=
  bin (.iadd c t sat d a b) c t (sxImm t) d a b s (aluAdd t sat)

/-- The exact sum of IADDC (R132). -/
def addcSum (t : Ty) (x y : Word64) (p : Bool) : Nat := uxW (wideTy t) x + uxW (wideTy t) y + (if p then 1 else 0)

def execIaddc (c : Ctl) (t : Ty) (d : Dst) (a : RSrc) (b : Src) (pn : BitVec 3) (s : State) : Out :=
  fixed (.iaddc c t d a b pn) c (tyBytes t) (some b) s fun g m =>
    let w := wideTy t
    let sum := fun l => addcSum t (rsrcVal g w a l) (srcVal s g w true (tyBytes t) b l) (g.predVal (sidePred d pn) l)
    (g.writeDst t d m fun l => BitVec.ofNat 64 (sum l % 2 ^ widthOf t)).writePred (sidePred d pn) m
      fun l => carryOut (widthOf t) (sum l)

def execIsub (c : Ctl) (t : Ty) (sat : Bool) (d : Dst) (a : RSrc) (b : Src) (s : State) : Out :=
  bin (.isub c t sat d a b) c t (sxImm t) d a b s (aluSub t sat)

def execImul (c : Ctl) (t : Ty) (d : Dst) (a : RSrc) (b : Src) (s : State) : Out :=
  bin (.imul c t d a b) c t (sxImm t) d a b s (aluMul t)

def execImulh (c : Ctl) (t : Ty) (d : Dst) (a : RSrc) (b : Src) (s : State) : Out :=
  bin (.imulh c t d a b) c t (sxImm t) d a b s (aluMulh t)

def execImad (c : Ctl) (t : Ty) (d : Dst) (a b e : RSrc) (s : State) : Out :=
  tern (.imad c t d a b e) c t d a b e s (aluMad t)

def execImin (c : Ctl) (t : Ty) (d : Dst) (a : RSrc) (b : Src) (s : State) : Out :=
  bin (.imin c t d a b) c t (sxImm t) d a b s (aluMin t)

def execImax (c : Ctl) (t : Ty) (d : Dst) (a : RSrc) (b : Src) (s : State) : Out :=
  bin (.imax c t d a b) c t (sxImm t) d a b s (aluMax t)

def execIabs (c : Ctl) (t : Ty) (sat : Bool) (d : Dst) (a : RSrc) (s : State) : Out :=
  un (.iabs c t sat d a) c t d a s (aluAbs t sat)

def execClmul (c : Ctl) (t : Ty) (hi : Bool) (d : Dst) (a : RSrc) (b : Src) (s : State) : Out :=
  bin (.clmul c t hi d a b) c t (sxImm t) d a b s (aluClmul t hi)

def execShl (c : Ctl) (t : Ty) (d : Dst) (a : RSrc) (b : Src) (s : State) : Out :=
  bin (.shl c t d a b) c t (sxImm t) d a b s (aluShl t)

def execShr (c : Ctl) (t : Ty) (d : Dst) (a : RSrc) (b : Src) (s : State) : Out :=
  bin (.shr c t d a b) c t (sxImm t) d a b s (aluShr t)

def execSar (c : Ctl) (t : Ty) (d : Dst) (a : RSrc) (b : Src) (s : State) : Out :=
  bin (.sar c t d a b) c t (sxImm t) d a b s (aluSar t)

def execRotl (c : Ctl) (t : Ty) (d : Dst) (a : RSrc) (b : Src) (s : State) : Out :=
  bin (.rotl c t d a b) c t (sxImm t) d a b s (aluRotl t)

/-- The old value of a destination, read as the third input (R136). -/
def dstVal (g : Group) (wide : Bool) (d : Dst) (l : Nat) : Word64 :=
  match d with
  | .lane r => rsrcVal g wide (.lane r) l
  | .uni r => rsrcVal g wide (.uni r) l

def execBlut (c : Ctl) (t : Ty) (d : Dst) (a : RSrc) (b : Src) (lut : BitVec 8) (s : State) : Out :=
  fixed (.blut c t d a b lut) c (tyBytes t) (some b) s fun g m =>
    let w := wideTy t
    g.writeDst t d m fun l => aluBlut t lut (rsrcVal g w a l) (srcVal s g w true (tyBytes t) b l) (dstVal g w d l)

def execAnd (c : Ctl) (t : Ty) (d : Dst) (a : RSrc) (b : Src) (s : State) : Out :=
  bin (.and c t d a b) c t (sxImm t) d a b s fun x y => x &&& y

def execOr (c : Ctl) (t : Ty) (d : Dst) (a : RSrc) (b : Src) (s : State) : Out :=
  bin (.or c t d a b) c t (sxImm t) d a b s fun x y => x ||| y

def execXor (c : Ctl) (t : Ty) (d : Dst) (a : RSrc) (b : Src) (s : State) : Out :=
  bin (.xor c t d a b) c t (sxImm t) d a b s fun x y => x ^^^ y

def execNot (c : Ctl) (t : Ty) (d : Dst) (a : RSrc) (s : State) : Out := un (.not c t d a) c t d a s (aluNot t)

def execPopc (c : Ctl) (t : Ty) (d : Dst) (a : RSrc) (s : State) : Out := un (.popc c t d a) c t d a s (aluPopc t)

def execClz (c : Ctl) (t : Ty) (d : Dst) (a : RSrc) (s : State) : Out := un (.clz c t d a) c t d a s (aluClz t)

def execCtz (c : Ctl) (t : Ty) (d : Dst) (a : RSrc) (s : State) : Out := un (.ctz c t d a) c t d a s (aluCtz t)

def execBrev (c : Ctl) (t : Ty) (d : Dst) (a : RSrc) (s : State) : Out := un (.brev c t d a) c t d a s (aluBrev t)

def execBswap (c : Ctl) (t : Ty) (d : Dst) (a : RSrc) (s : State) : Out := un (.bswap c t d a) c t d a s (aluBswap t)

def execBfx (c : Ctl) (t : Ty) (d : Dst) (a : RSrc) (b : Src) (s : State) : Out :=
  bin (.bfx c t d a b) c t (sxImm t) d a b s (aluBfx t)

def execBfi (c : Ctl) (t : Ty) (d : Dst) (a b e : RSrc) (s : State) : Out :=
  tern (.bfi c t d a b e) c t d a b e s (aluBfi t)

def execIset (c : Ctl) (t : Ty) (cc : Cond) (d : PReg) (a : RSrc) (b : Src) (s : State) : Out :=
  fixed (.iset c t cc d a b) c (tyBytes t) (some b) s fun g m =>
    g.writePred d m fun l =>
      condHolds cc (viewT t (rsrcVal g (wideTy t) a l)) (viewT t (srcVal s g (wideTy t) (sxImm t) (tyBytes t) b l))

def execSel (c : Ctl) (t : Ty) (d : Dst) (a : RSrc) (b : Src) (pn : BitVec 3) (neg : Bool) (s : State) : Out :=
  fixed (.sel c t d a b pn neg) c (tyBytes t) (some b) s fun g m =>
    let w := wideTy t
    g.writeDst t d m fun l =>
      if g.predVal (sidePred d pn) l != neg then rsrcVal g w a l else srcVal s g w true (tyBytes t) b l

def execMov (c : Ctl) (t : Ty) (d : Dst) (b : Src) (s : State) : Out :=
  fixed (.mov c t d b) c (tyBytes t) (some b) s fun g m =>
    g.writeDst t d m fun l => srcVal s g (wideTy t) false (tyBytes t) b l

def execMovi (c : Ctl) (t : Ty) (d : BitVec 8) (b : Src) (step : BitVec 8) (s : State) : Out :=
  fixed (.movi c t d b step) c (tyBytes t) (some b) s fun g m =>
    g.writeDst t (.lane d) m fun l => aluMovi t step (srcVal s g (wideTy t) true (tyBytes t) b l) l

def execMovh (c : Ctl) (d : Dst) (a : RSrc) (hi : BitVec 32) (s : State) : Out :=
  un (.movh c d a hi) c .n64 d a s (aluMovh hi)

def execLea (c : Ctl) (t : Ty) (d : Dst) (a b : RSrc) (n : BitVec 6) (s : State) : Out :=
  fixed (.lea c t d a b n) c 0 none s fun g m =>
    g.writeDst t d m fun l => aluLea t n (rsrcVal g (wideTy t) a l) (rsrcVal g (wideTy t) b l)

def execBysel (c : Ctl) (d : Dst) (a b : RSrc) (sel : BitVec 20) (s : State) : Out :=
  fixed (.bysel c d a b sel) c 0 none s fun g m =>
    g.writeDst .n32 d m fun l => aluBysel sel (rsrcVal g false a l) (rsrcVal g false b l)

end Sys2Proof.Machine
end

