-- ==== Sys2Proof/Machine/Special.lean ====
section
/-! DEFINITION. The special functions (R92 to R94): the special values of R93, and a result that is any FP32 value within the
bound of R92. The candidate is a constant of Config; a candidate outside the bound is replaced by the correctly rounded
result, so that the bound holds whatever the constant is (log 12). Values are integers over 2^400. -/

namespace Sys2Proof.Machine

/-- The scale of the fixed-point values: 2^400. -/
def fxOne : Int := 2 ^ 400

/-- Σ y^k / k! from term k on. -/
def expLoop (y : Int) : Nat → Nat → Int → Int → Int
  | 0, _, _, acc => acc
  | n + 1, k, term, acc => expLoop y n (k + 1) (term * y / fxOne / (k : Int)) (acc + term)

/-- e^y for y in fixed point, |y| at most 40. -/
def fxExp (y : Int) : Int := expLoop y 260 1 fxOne 0

/-- Σ z^(2k+1) / (2k+1) from term k on; `sgn` is −1 for the arc tangent, 1 for its hyperbolic companion. -/
def atanLoop (z2 sgn : Int) : Nat → Nat → Int → Int → Int
  | 0, _, _, acc => acc
  | n + 1, k, term, acc => atanLoop z2 sgn n (k + 1) (sgn * (term * z2 / fxOne)) (acc + term / ((2 * k + 1 : Nat) : Int))

def fxAtan (z : Int) : Int := atanLoop (z * z / fxOne) (-1) 200 0 z 0
def fxAtanh (z : Int) : Int := atanLoop (z * z / fxOne) 1 200 0 z 0

/-- ln 2 = 2 atanh(1/3); π by Machin's formula. -/
def fxLn2 : Int := 2 * fxAtanh (fxOne / 3)
def fxPi : Int := 16 * fxAtan (fxOne / 5) - 4 * fxAtan (fxOne / 239)

/-- 2^x: the whole part of x shifts, the fraction goes through e^(f ln 2). -/
def fxExp2 (x : Int) : Int :=
  let n := x / fxOne
  let e := fxExp (x % fxOne * fxLn2 / fxOne)
  if 0 ≤ n then e * 2 ^ n.toNat else e / 2 ^ (-n).toNat

/-- ln(m) for a positive integer m: m = t × 2^k with t in [1, 2). -/
def fxLnNat (m : Nat) : Int :=
  let k := Nat.log2 m
  let t : Int := (m : Int) * fxOne / 2 ^ k
  2 * fxAtanh ((t - fxOne) * fxOne / (t + fxOne)) + (k : Int) * fxLn2

/-- log2(m × 2^e). -/
def fxLog2 (m : Nat) (e : Int) : Int := fxLnNat m * fxOne / fxLn2 + e * fxOne

/-- Σ (−1)^k x^(2k+i) / (2k+i)!, from a first term. -/
def trigLoop (x2 : Int) : Nat → Nat → Int → Int → Int
  | 0, _, _, acc => acc
  | n + 1, k, term, acc =>
    trigLoop x2 n (k + 2) (-(term * x2 / fxOne / ((k + 1) * (k + 2) : Nat))) (acc + term)

/-- The argument reduced to [0, 2π). -/
def fxReduce (x : Int) : Int := x % (2 * fxPi)

def fxSin (x : Int) : Int :=
  let r := fxReduce x
  trigLoop (r * r / fxOne) 150 1 r 0

def fxCos (x : Int) : Int :=
  let r := fxReduce x
  trigLoop (r * r / fxOne) 150 0 fxOne 0

/-- tanh x = (1 − e^−2x) / (1 + e^−2x); from 200 on it lies below 1 by less than the fixed point shows. -/
def fxTanh (x : Int) : Int :=
  let a := if x < 0 then -x else x
  let v := if 200 * fxOne ≤ a then fxOne - 1
    else
      let e := fxExp2 (-(2 * a * fxOne / fxLn2))
      (fxOne - e) * fxOne / (fxOne + e)
  if x < 0 then -v else v

/-- An exact dyadic value in fixed point. -/
def fxOfExt : Ext → Int
  | .num neg m e =>
    let v : Int := if 0 ≤ e + 400 then (m : Int) * 2 ^ (e + 400).toNat else (m : Int) / 2 ^ (-(e + 400)).toNat
    if neg then -v else v
  | _ => 0

/-- A fixed-point value as an exact number. -/
def extOfFx (v : Int) : Ext := .num (decide (v < 0)) v.natAbs (-400)

/-- The spacing of FP32 at a value, in fixed point (R92). -/
def fxUlp (v : Int) : Int :=
  let ex : Int := (Nat.log2 v.natAbs : Int) - 400
  2 ^ ((max ex (-126)) - 23 + 400).toNat

/-- The value of a function at a finite argument, in fixed point. -/
def fxValue (f : SpecFn) (m : Nat) (neg : Bool) (e : Int) : Int :=
  let x := fxOfExt (.num neg m e)
  match f with
  | .rcp => fxOfExt (Ext.div Ext.one (.num neg m e))
  | .rsq => fxOfExt (Ext.div Ext.one (Ext.sqrtPos m e))
  | .ex2 => fxExp2 x
  | .lg2 => fxLog2 m e
  | .sin => fxSin x
  | .cos => fxCos x
  | .tanh => fxTanh x

/-- The greatest error R92 allows at an argument with a value, in fixed point. -/
def fxBound (f : SpecFn) (m : Nat) (e v : Int) : Int :=
  let a : Int := fxOfExt (.num false m e)
  match f with
  | .rcp => fxUlp v
  | .rsq => fxUlp v
  | .ex2 => 2 * fxUlp v
  | .lg2 => if fxOne / 2 ≤ a && a ≤ 2 * fxOne then fxOne / 2 ^ 22 else 2 * fxUlp v
  | .sin => if a ≤ 2 ^ 15 * fxPi then fxOne / 2 ^ 21 else fxOne / 2 ^ 14
  | .cos => if a ≤ 2 ^ 15 * fxPi then fxOne / 2 ^ 21 else fxOne / 2 ^ 14
  | .tanh => 2 * fxUlp v

/-- Whether the fixed point holds the value of a function exactly: of RCP at a power of two, RSQ at a power of four, LG2 at a power of
two. -/
def fxExact (f : SpecFn) (m : Nat) (e : Int) : Bool :=
  let two := m == 2 ^ Nat.log2 m
  match f with
  | .rcp => two
  | .rsq => two && (Nat.log2 m + e) % 2 == 0
  | .lg2 => two
  | _ => false

/-- A candidate, if it is finite and within a bound of a value, the bound itself included; else the correctly rounded value. A value that
is not held exactly is known to 2^−200, and a candidate closer to the bound than that is not taken (log 114). -/
def within (cand : Word32) (v bound : Int) (exact : Bool) : Word32 :=
  let y := f32 cand
  let d := fxOfExt y - v
  if y.isFinite && decide (d.natAbs + (if exact then 0 else 2 ^ 200) ≤ bound.natAbs) then cand else toF32 (extOfFx v)

/-- The special values of R93 and, where a result is exact or overflows, that result; none: R92's bound applies, as it does to the
1/x that the table gives RCP of a negative x (log 95). -/
def special93 (f : SpecFn) (x : Ext) : Option Word32 :=
  let canon : Word32 := 0x7FC00000
  let pInf : Word32 := 0x7F800000
  let nInf : Word32 := 0xFF800000
  match f, x with
  | _, .nan => some canon
  | .rcp, .inf n => some (if n then 0x80000000 else 0)
  | .rsq, .inf n => some (if n then canon else 0)
  | .ex2, .inf n => some (if n then 0 else pInf)
  | .lg2, .inf n => some (if n then canon else pInf)
  | .sin, .inf _ => some canon
  | .cos, .inf _ => some canon
  | .tanh, .inf n => some (if n then 0xBF800000 else 0x3F800000)
  | .rcp, .num n 0 _ => some (if n then nInf else pInf)
  | .rsq, .num n 0 _ => some (if n then nInf else pInf)
  | .ex2, .num _ 0 _ => some 0x3F800000
  | .lg2, .num _ 0 _ => some nInf
  | .sin, .num n 0 _ => some (if n then 0x80000000 else 0)
  | .cos, .num _ 0 _ => some 0x3F800000
  | .tanh, .num n 0 _ => some (if n then 0x80000000 else 0)
  | .rsq, .num true _ _ => some canon
  | .lg2, .num true _ _ => some canon
  | g, .num neg m e =>
    let x := Ext.num neg m e
    match g with
    | .rcp => if Ext.eqv x Ext.one then some 0x3F800000 else none
    | .rsq => if Ext.eqv x Ext.one then some 0x3F800000 else none
    | .lg2 => if Ext.eqv x Ext.one then some 0 else none
    | .ex2 =>
      if Ext.le (Ext.ofInt 128) x then some pInf
      else if Ext.le x (Ext.ofInt (-150)) then some 0
      else
        let v := fxOfExt x
        if v % fxOne = 0 then some (toF32 (.num false 1 (v / fxOne))) else none
    | _ => none

/-- Whether the magnitude of a value lies below FP32's normal numbers. -/
def fxTiny (v : Int) : Bool := decide (v.natAbs * 2 ^ 126 < fxOne.natAbs)

/-- A special function of an FP32 value: one that overflows or underflows is correctly rounded (R92, R93). -/
def specialFn (f : SpecFn) (w : Word32) : Word32 :=
  match special93 f (f32 w) with
  | some r => r
  | none =>
    match f32 w with
    | .num neg m e =>
      let v := fxValue f m neg e
      let r := toF32 (extOfFx v)
      if (f32 r).isInf || fxTiny v then r else within (Config.special f w) v (fxBound f m e v) (fxExact f m e)
    | _ => 0x7FC00000

/-- SQRT is correctly rounded (R92, R93). -/
def sqrtFn (w : Word32) : Word32 :=
  match f32 w with
  | .nan => 0x7FC00000
  | .inf n => if n then 0x7FC00000 else 0x7F800000
  | .num n 0 _ => if n then 0x80000000 else 0
  | .num true _ _ => 0x7FC00000
  | .num false m e => toF32 (Ext.sqrtPos m e)

/-- The multiplicity logarithm: round_rne(ln m, FP32) (R94). -/
def lnMult (m : Nat) : Word32 := if m ≤ 1 then 0 else toF32 (extOfFx (fxLnNat m))

end Sys2Proof.Machine
end

