-- ==== Sys2Proof/Machine/FloatOps.lean ====
section
/-! DEFINITION. The floating-point, packed, comparison and conversion instructions (R156 to R171). -/

namespace Sys2Proof.Machine

/-! ### Stochastic rounding (R83, R84, R159) -/

/-- The generator of a pipe after an instruction: it steps once under `.sr` where some lane's guard is true (R83). -/
def Group.stepGen (g : Group) (fma : Bool) (rm : Rnd) (m : Lanes) : Group :=
  if rm = .sr && m != 0 then
    if fma then { g with gFma := srNext g.gFma } else { g with gAlu := srNext g.gAlu }
  else g

/-- The random word of lane L after the step (R84). -/
def Group.srWord (g : Group) (fma : Bool) (l : Nat) : Word32 := rotl32 (if fma then g.gFma else g.gAlu) (7 * l)

/-! ### Elements -/

/-- A pattern of a format as an exact value. -/
def fval (t : Ty) (x : Word64) : Ext := (tyFmt t).decode (x.toNat % 2 ^ (tyFmt t).width)

/-- A rounded result as a register word (R158). -/
def fres (t : Ty) (rm : Rnd) (u : Word32) (x : Ext) : Word64 := BitVec.ofNat 64 ((tyFmt t).round rm u.toNat x)

/-- The low or high half of a packed register (R158). -/
def half (hi : Bool) (x : Word64) : Word64 := if hi then x.extractLsb' 16 16 |>.setWidth 64 else x.extractLsb' 0 16 |>.setWidth 64

/-- Two halves computed on their own, the high one with the rotated random word (R159, R161). -/
def twin (f : Bool → Word32 → Word64) (u : Word32) : Word64 :=
  (f false u &&& 0xFFFF#64) ||| ((f true (rotl32 u 16) &&& 0xFFFF#64) <<< 16)

/-- The sign that rounding gives an exact zero sum (R80). -/
def isRdn (rm : Rnd) : Bool := rm == .rdn

def fopAdd (rm : Rnd) (x y : Ext) : Ext := Ext.add (isRdn rm) x y
def fopFma (rm : Rnd) (x y z : Ext) : Ext := Ext.fma (isRdn rm) x y z

/-! ### The arithmetic instructions (R160, R161) -/

/-- A two-source FP32 operation of the FMA pipe. -/
def fbin (i : Instr) (c : Ctl) (rm : Rnd) (d : Dst) (a : RSrc) (b : Src) (s : State) (f : Ext → Ext → Ext) : Out :=
  fixed i c 4 (some b) s fun g m =>
    let g := g.stepGen true rm m
    g.writeDst .f32 d m fun l =>
      fres .f32 rm (g.srWord true l) (f (fval .f32 (rsrcVal g false a l)) (fval .f32 (srcVal s g false false 4 b l)))

def execFadd (c : Ctl) (rm : Rnd) (d : Dst) (a : RSrc) (b : Src) (s : State) : Out :=
  fbin (.fadd c rm d a b) c rm d a b s (fopAdd rm)

def execFmul (c : Ctl) (rm : Rnd) (d : Dst) (a : RSrc) (b : Src) (s : State) : Out :=
  fbin (.fmul c rm d a b) c rm d a b s Ext.mul

def execFfma (c : Ctl) (rm : Rnd) (d : Dst) (a b e : RSrc) (s : State) : Out :=
  fixed (.ffma c rm d a b e) c 0 none s fun g m =>
    let g := g.stepGen true rm m
    g.writeDst .f32 d m fun l =>
      fres .f32 rm (g.srWord true l)
        (fopFma rm (fval .f32 (rsrcVal g false a l)) (fval .f32 (rsrcVal g false b l)) (fval .f32 (rsrcVal g false e l)))

/-- A packed two-source operation of the FMA pipe. -/
def twbin (i : Instr) (c : Ctl) (t : Ty) (rm : Rnd) (d : Dst) (a : RSrc) (b : Src) (s : State) (f : Ext → Ext → Ext) : Out :=
  fixed i c 4 (some b) s fun g m =>
    let g := g.stepGen true rm m
    g.writeDst t d m fun l =>
      let x := rsrcVal g false a l
      let y := srcVal s g false false 4 b l
      twin (fun hi u => fres t rm u (f (fval t (half hi x)) (fval t (half hi y)))) (g.srWord true l)

def execTwadd (c : Ctl) (t : Ty) (rm : Rnd) (d : Dst) (a : RSrc) (b : Src) (s : State) : Out :=
  twbin (.twadd c t rm d a b) c t rm d a b s (fopAdd rm)

def execTwmul (c : Ctl) (t : Ty) (rm : Rnd) (d : Dst) (a : RSrc) (b : Src) (s : State) : Out :=
  twbin (.twmul c t rm d a b) c t rm d a b s Ext.mul

def execTwfma (c : Ctl) (t : Ty) (rm : Rnd) (d : Dst) (a b e : RSrc) (s : State) : Out :=
  fixed (.twfma c t rm d a b e) c 0 none s fun g m =>
    let g := g.stepGen true rm m
    g.writeDst t d m fun l =>
      let x := rsrcVal g false a l
      let y := rsrcVal g false b l
      let z := rsrcVal g false e l
      twin (fun hi u => fres t rm u (fopFma rm (fval t (half hi x)) (fval t (half hi y)) (fval t (half hi z))))
        (g.srWord true l)

/-! ### Minimum, maximum, compare, classify and round (R162 to R166) -/

/-- The order of FMIN and FMAX: −0 below +0 (R163). -/
def fbelow (x y : Ext) : Bool := if x.isZero && y.isZero then x.isNeg && !y.isNeg else Ext.lt x y

/-- FMIN or FMAX of two patterns: a NaN operand is ignored, a result is an operand's pattern (R163). -/
def fminmax (t : Ty) (mx : Bool) (a b : Word64) : Word64 :=
  let x := fval t a
  let y := fval t b
  let pick := fun (z : Word64) => BitVec.ofNat 64 (z.toNat % 2 ^ (tyFmt t).width)
  if x.isNan && y.isNan then BitVec.ofNat 64 (tyFmt t).canonNan
  else if x.isNan then pick b
  else if y.isNan then pick a
  else if mx then (if fbelow x y then pick b else pick a)
  else (if fbelow y x then pick b else pick a)

def execFmin (c : Ctl) (t : Ty) (d : Dst) (a : RSrc) (b : Src) (s : State) : Out :=
  bin (.fmin c t d a b) c t false d a b s (fminmax t false)

def execFmax (c : Ctl) (t : Ty) (d : Dst) (a : RSrc) (b : Src) (s : State) : Out :=
  bin (.fmax c t d a b) c t false d a b s (fminmax t true)

/-- The conditions of FSET (R164). -/
def fcondHolds (cc : FCond) (x y : Ext) : Bool :=
  let un := x.isNan || y.isNan
  match cc with
  | .eq => Ext.eqv x y
  | .ne => un || !(Ext.eqv x y)
  | .lt => Ext.lt x y
  | .le => Ext.le x y
  | .gt => Ext.lt y x
  | .ge => Ext.le y x
  | .num => !un
  | .nan => un

def execFset (c : Ctl) (t : Ty) (cc : FCond) (d : PReg) (a : RSrc) (b : Src) (s : State) : Out :=
  fixed (.fset c t cc d a b) c (opBytes t) (some b) s fun g m =>
    g.writePred d m fun l =>
      fcondHolds cc (fval t (rsrcVal g false a l)) (fval t (srcVal s g false false (opBytes t) b l))

/-- The class bit of a value (R165). -/
def classBit (t : Ty) (x : Ext) : Nat :=
  match x with
  | .nan => 8
  | .inf n => if n then 0 else 7
  | .num n m e =>
    let f := tyFmt t
    if m = 0 then (if n then 3 else 4)
    else
      let normal := decide ((1 - (f.bias : Int)) ≤ (Nat.log2 m : Int) + e)
      match n, normal with
      | true, true => 1
      | true, false => 2
      | false, false => 5
      | false, true => 6

def execFclass (c : Ctl) (t : Ty) (d : PReg) (a : RSrc) (mask : BitVec 9) (s : State) : Out :=
  fixed (.fclass c t d a mask) c 0 none s fun g m =>
    g.writePred d m fun l => mask.getLsbD (classBit t (fval t (rsrcVal g false a l)))

/-- The integral value in the format, with a's sign where it is zero (R166). -/
def frndVal (t : Ty) (rm : Rnd) (x : Ext) : Word64 :=
  match x with
  | .num n m e => fres t .rne 0 (.num n (roundToInt rm 0 n m e).natAbs 0)
  | y => fres t .rne 0 y

def execFrnd (c : Ctl) (t : Ty) (rm : Rnd) (d : Dst) (a : RSrc) (s : State) : Out :=
  un (.frnd c t rm d a) c t d a s fun x => frndVal t rm (fval t x)

/-! ### Conversion (R167 to R170) -/

/-- The bits of an integer type. -/
def intBits : Ty → Nat
  | .s8 | .n8 => 8
  | .s16 | .n16 => 16
  | .s64 | .n64 => 64
  | _ => 32

/-- The exact value that CVT reads (R168). -/
def cvtRead (st : Ty) (x : Word64) : Ext :=
  if isIntTy st then
    let v := x.toNat % 2 ^ intBits st
    Ext.ofInt (if signedTy st && bitOf v (intBits st - 1) then (v : Int) - 2 ^ intBits st else (v : Int))
  else if st = .e8m0 then decodeE8M0 (x.toNat % 256)
  else fval st x

/-- The saturated integer that a value rounds to (R81). -/
def cvtInt (dt : Ty) (rm : Rnd) (u : Nat) (x : Ext) : Int :=
  let lo : Int := if signedTy dt then -(2 ^ (intBits dt - 1)) else 0
  let hi : Int := if signedTy dt then 2 ^ (intBits dt - 1) - 1 else 2 ^ intBits dt - 1
  match x with
  | .nan => 0
  | .inf n => if n then lo else hi
  | .num n m e => clampInt lo hi (roundToInt rm u n m e)

/-- A float result with its infinities turned into the largest finite value under `.satf` (R168). -/
def cvtFloat (t : Ty) (satf : Bool) (rm : Rnd) (u : Nat) (x : Ext) : Nat :=
  let f := tyFmt t
  let y := f.round rm u x
  if satf && (x.isInf || (f.decode y).isInf) then f.signBit x.isNeg + f.maxMag else y

/-- CVT of one value (R168). -/
def cvtVal (satf : Bool) (dt st : Ty) (rm : Rnd) (u : Word32) (a : Word64) : Word64 :=
  let x := cvtRead st a
  if isIntTy dt then wrapW (wideTy dt) (cvtInt dt rm u.toNat x)
  else if dt = .e8m0 then BitVec.ofNat 64 (roundE8M0 rm x)
  else BitVec.ofNat 64 (cvtFloat dt satf rm u.toNat x)

def execCvt (c : Ctl) (satf : Bool) (dt st : Ty) (rm : Rnd) (d : Dst) (a : RSrc) (s : State) : Out :=
  fixed (.cvt c satf dt st rm d a) c 0 none s fun g m =>
    let g := g.stepGen false rm m
    g.writeDst dt d m fun l => cvtVal satf dt st rm (g.srWord false l) (rsrcVal g (wideTy st) a l)

/-- PACK of two FP32 values over the old destination (R169). -/
def packVal (t : Ty) (rm : Rnd) (satf h : Bool) (u : Word32) (a b old : Word64) : Word64 :=
  let ra := cvtFloat t satf rm u.toNat (fval .f32 a)
  let rb := cvtFloat t satf rm (rotl32 u 16).toNat (fval .f32 b)
  if tyBytes t = 2 then BitVec.ofNat 64 (rb * 2 ^ 16 + ra)
  else
    let lo := old.toNat % 2 ^ 16
    let hi := old.toNat / 2 ^ 16 % 2 ^ 16
    BitVec.ofNat 64 (if h then (rb * 2 ^ 8 + ra) * 2 ^ 16 + lo else hi * 2 ^ 16 + (rb * 2 ^ 8 + ra))

def execPack (c : Ctl) (t : Ty) (rm : Rnd) (satf h : Bool) (d : Dst) (a b : RSrc) (s : State) : Out :=
  fixed (.pack c t rm satf h d a b) c 0 none s fun g m =>
    let g := g.stepGen false rm m
    g.writeDst t d m fun l =>
      packVal t rm satf h (g.srWord false l) (rsrcVal g false a l) (rsrcVal g false b l) (dstVal g false d l)

/-- A signed field of n bits. -/
def signedField (v n : Nat) : Ext := Ext.ofInt (if bitOf v (n - 1) then (v : Int) - 2 ^ n else (v : Int))

/-- UNPACK of one element (R170). -/
def unpackVal (t : Ty) (sel : BitVec 6) (a : Word64) : Word64 :=
  let k := sel.toNat
  let x : Ext :=
    match t with
    | .i4 => signedField (a.toNat / 2 ^ (4 * k) % 16) 4
    | .i3 => signedField (a.toNat / 2 ^ k % 8) 3
    | .e8m0 => decodeE8M0 (a.toNat / 2 ^ (8 * k) % 256)
    | .f16 => fmtF16.decode (a.toNat / 2 ^ (16 * k) % 2 ^ 16)
    | .bf16 => fmtBF16.decode (a.toNat / 2 ^ (16 * k) % 2 ^ 16)
    | t => (tyFmt t).decode (a.toNat / 2 ^ (8 * k) % 256)
  fres .f32 .rne 0 x

def execUnpack (c : Ctl) (t : Ty) (d : Dst) (a : RSrc) (sel : BitVec 6) (s : State) : Out :=
  fixed (.unpack c t d a sel) c 0 none s fun g m =>
    g.writeDst .f32 d m fun l => unpackVal t sel (rsrcVal g (t == .i3) a l)

/-! ### Special functions (R92, R93, R171) -/

/-- A function of FP32, applied to a 16-bit value widened exactly and rounded afterwards (R92). -/
def viaF32 (t : Ty) (f : Word32 → Word32) (x : Word64) : Word64 :=
  if t = .f32 then (f (x.extractLsb' 0 32)).setWidth 64 else fres t .rne 0 (f32 (f (toF32 (fval t x))))

def execRcp (c : Ctl) (t : Ty) (d : Dst) (a : RSrc) (s : State) : Out :=
  un (.rcp c t d a) c t d a s (viaF32 t (specialFn .rcp))

def execRsq (c : Ctl) (t : Ty) (d : Dst) (a : RSrc) (s : State) : Out :=
  un (.rsq c t d a) c t d a s (viaF32 t (specialFn .rsq))

def execSqrt (c : Ctl) (t : Ty) (d : Dst) (a : RSrc) (s : State) : Out :=
  un (.sqrt c t d a) c t d a s (viaF32 t sqrtFn)

def execEx2 (c : Ctl) (t : Ty) (d : Dst) (a : RSrc) (s : State) : Out :=
  un (.ex2 c t d a) c t d a s (viaF32 t (specialFn .ex2))

def execLg2 (c : Ctl) (t : Ty) (d : Dst) (a : RSrc) (s : State) : Out :=
  un (.lg2 c t d a) c t d a s (viaF32 t (specialFn .lg2))

def execSin (c : Ctl) (t : Ty) (d : Dst) (a : RSrc) (s : State) : Out :=
  un (.sin c t d a) c t d a s (viaF32 t (specialFn .sin))

def execCos (c : Ctl) (t : Ty) (d : Dst) (a : RSrc) (s : State) : Out :=
  un (.cos c t d a) c t d a s (viaF32 t (specialFn .cos))

def execTanh (c : Ctl) (t : Ty) (d : Dst) (a : RSrc) (s : State) : Out :=
  un (.tanh c t d a) c t d a s (viaF32 t (specialFn .tanh))

end Sys2Proof.Machine
end

