-- ==== Sys2Proof/Machine/Kill.lean ====
section
/-! DEFINITION. What is charged for an event, killing a patch, and what detecting and consuming an error does (R279, R393, R394,
R398 to R403). -/

namespace Sys2Proof.Machine

/-! ### Charges (R393, R394) -/

/-- Charges n events of a coefficient to a tenant; B and EUSED are kept in picojoules. -/
def State.coefOf (s : State) (part ix : Nat) : Word32 := (mget none (s.part part).coef ix).getD (mget 0 s.coef ix)

/-- Whether no event of a partition costs anything. -/
def State.noCoef (s : State) (part : Nat) : Bool := s.coef == [] && (s.part part).coef == []

def State.charge (s : State) (part tenant ix n : Nat) : State :=
  let pj := n * (s.coefOf part ix).toNat
  if pj = 0 then s
  else s.modTenant part tenant fun t => { t with balance := t.balance - pj, eused := t.eused + pj }

/-- A group's events; a system group's are charged to no tenant. -/
def State.chargeGroup (s : State) (g : Group) (ix n : Nat) : State :=
  if g.sys then s else s.charge g.part g.tenant ix n

/-- The energy index of a physical address. -/
def memIx (pa : Nat) : Nat :=
  match homeOf pa with
  | .pool => 6
  | .host => 7
  | _ => 5

/-- One sector of each address, charged under an index that the address gives. -/
def State.chargeSectors (s : State) (g : Group) (ix : Nat → Nat) : List Nat → State
  | [] => s
  | x :: r => (s.chargeGroup g (ix x) 1).chargeSectors g ix r

def sectorsOf (as : List Nat) : List Nat := (as.map fun a => a / 32 * 32).eraseDups

/-- Whether an `LDC`, a constant operand or a fetch hits its cache, whose contents the model does not hold (log 11). -/
def State.constHit (s : State) : Bool := Config.freeNat s.tick % 2 == 0

/-! ### Killing a patch (R279, R399) -/

/-- The blocks of a patch. -/
def State.patchBlocks (s : State) (k : Nat) : List Block := s.blocks.filter fun b => b.patch == k

/-- Whether a fault waits for one of some groups. -/
def faultOf (gids : List Nat) (f : FaultEntry) : Bool :=
  match f.target with
  | .lanes g .. => gids.contains g
  | .fetch g .. => gids.contains g
  | _ => false

/-- Whether a command was issued by one of some blocks or completes into one of their stores. -/
def cmdOf (bs : List Block) (c : Cmd) : Bool := bs.any fun b => holdsStore b c

/-- The thread of a command is killed: nothing more moves, and the command is about to complete with an error, on what is left of
its completion objects, in which the sectors that have landed are counted (R214, R279, R329, R399). -/
def Cmd.kill (bs : List Block) (c : Cmd) : Cmd :=
  let gone := fun e => bs.any fun b => b.launch == c.launch && b.ep == e
  let lost := match c.compl with | .none => false | .barrier o => gone o.ep | .ring o => gone o.ep
  let ds := (c.dests.filter fun x => !(gone x.ep)).map fun (x : CDst) =>
    { x with left := [], granted := false, queued := 0, done := true, due := if x.left = [] then x.due else some (x.landed.length - x.before) }
  { c with
    held := none, left := [], err := true, sts := if c.status = 0 then 4 else c.sts, dests := ds, stopAt := some 0
    compl := if lost then .none else c.compl
    status := if c.status ≠ 0 then c.status else if ds.any fun x => x.due.isSome || x.slot.isSome then 0 else 2 }

/-! ### Floors that a command leaves to the next (R276) -/

/-- The entry that a cache command acts on; wakes and ageing visits are not commands. -/
def CmdKind.entry? : CmdKind → Option Nat
  | .kvapp e _ _ _ => some e
  | .kvmrg e _ _ _ => some e
  | .park e _ => some e
  | .promo e _ _ => some e
  | _ => none

/-- The entry of a cache command, a wake or a visit. -/
def CmdKind.acts : CmdKind → Option Nat
  | .wake e _ _ _ => some e
  | .age e => some e
  | k => k.entry?

/-- Where the floors of an entry are kept. -/
def entryKey (part tenant entry : Nat) : Nat := (part * 16 + tenant) * 2 ^ 64 + entry
def Cmd.floorKey (c : Cmd) : Nat := entryKey c.part c.tenant (c.kind.acts.getD 0)

/-- Whether a command runs on an array. -/
def CmdKind.isArr : CmdKind → Bool
  | .wload .. => true
  | .mma .. => true
  | .aload .. => true
  | .adrain .. => true
  | .azero _ => true
  | .delta .. => true
  | .tsolve .. => true
  | .atile .. => true
  | .amerge .. => true
  | _ => false

/-- The floors a command has are those that the next in its order begins with: of its array, or of its entry (R276). -/
def State.handOn (s : State) (c : Cmd) : State :=
  if c.kind.isArr then s.modArray (s.arrayOf c.ep) fun u => { u with floors := c.floors }
  else if c.kind.acts.isSome then
    { s with cacheFloors := mset [] s.cacheFloors c.floorKey (s.joinFloors (mget [] s.cacheFloors c.floorKey) c.floors) }
  else s

/-- A command that had begun leaves its floors although it is killed (R276). -/
def State.leaveFloors (s : State) (c : Cmd) : State := if c.status = 0 && c.phase != 0 then s.handOn c else s

/-- Removes blocks with their groups, undrained stores and outstanding faults; the threads of their engine commands are killed
(R279). -/
def State.dropBlocks (s : State) (bs : List Block) : State :=
  let ids := bs.map fun b => b.id
  let gids := (s.groups.filter fun g => ids.contains g.block).map fun g => g.id
  let dead := (s.cmds.filter (cmdOf bs)).map fun c => c.id
  let s := (s.cmds.filter (cmdOf bs)).foldl State.leaveFloors s
  { s with
    groups := s.groups.filter fun g => !(ids.contains g.block)
    blocks := s.blocks.filter fun b => !(ids.contains b.id)
    sb := s.sb.filter fun e => !(ids.contains e.blk)
    faults := s.faults.filter fun f => !(faultOf gids f) && !(match f.target with | .cmd c => dead.contains c | _ => false)
    cmds := s.cmds.map fun c => if dead.contains c.id then c.kill bs else c }

/-- The whole patch is killed and waits to be placed again (R399). -/
def State.killPatch (s : State) (p : Patch) : State :=
  let part := match s.launch? p.launch with | some l => l.part | none => 0
  let tenant := match s.launch? p.launch with | some l => l.tenant | none => 0
  let s := s.dropBlocks (s.patchBlocks p.id)
  let s := { s with patches := dropKey (fun x => x.id) p.id s.patches }
  let s := s.modLaunch p.launch fun l => { l with again := l.again ++ [{ p with relaunches := p.relaunches + 1 }] }
  s.modTenant part tenant fun t => { t with reln := sat32 (t.reln + 1) }

/-- The record of a machine check of a group that is at some instruction boundary. -/
def boundaryInfo (g : Group) (code : Nat) : TrapInfo :=
  match g.p0, g.p1 with
  | some p, _ => precise p code p.mask 0 0
  | none, some p => precise p code p.mask 0 0
  | none, none => { code := code, fpc := 0, pc := 0, hdr := 0, amask := 0, fmask := 0 }

/-- A lane access, a fetch or an engine read of a group's block has taken data of an uncorrectable sector: its patch is killed, or it
meets a machine check (R399). -/
def State.consumeNow (s : State) (g : Group) : State :=
  let stop := (s.machineCheck g (boundaryInfo g 0x60)).modLaunch g.launch fun l => { l with killed := 3 }
  if g.sys then stop
  else
    match s.block? g.block with
    | none => stop
    | some b =>
      match findKey (fun (p : Patch) => p.id) b.patch s.patches with
      | none => stop
      | some p =>
        if p.relaunches < 3 && !p.committed && (s.patchBlocks p.id).all fun x => x.restartable then s.killPatch p else stop

/-- The consumption takes effect now; in a lockstep partition it is an input of the pair, until whose cycle the group stands (R422). -/
def State.consume (s : State) (g : Group) : State :=
  if (s.part g.part).lockstep then
    let x : PairInput := { id := s.nextId, part := g.part, due := s.clock + 8192, ev := .flaw (.chip g.id 0 0 true 0) }
    if g.wait = .stopped then s.setGroup g
    else ({ s with nextId := s.nextId + 1, pairIn := s.pairIn ++ [x] } : State).setGroup { g with wait := .stopped }
  else s.consumeNow g

/-- Whether a byte lies in a sector marked uncorrectable. -/
def State.poisoned (s : State) (pa : Nat) : Bool := mget false s.uncorr (pa / 32)

/-! ### Error banks (R402, R403) -/

/-- Whether a detection names the sector of the record that a bank holds: it only counts (R403). -/
def ErrBank.again (b : ErrBank) (r : ErrRec) : Bool := b.held.val && b.held.loc.toNat / 32 == r.loc.toNat / 32

/-- A detection counts, and its record is kept by precedence; the second result says that a new uncorrectable record is kept. -/
def ErrBank.detect (b : ErrBank) (uc : Bool) (r : ErrRec) : ErrBank × Bool :=
  let r := { r with uc := uc, val := true }
  let b := if uc then { b with ucnt := min (b.ucnt + 1) 0xFFFF } else { b with ccnt := min (b.ccnt + 1) 0xFFFF }
  if b.again r then (b, false)
  else if !uc then
    (if b.held.val then b
     else if b.lat then (if b.pend.isNone then { b with pend := some r } else b) else { b with held := r }, false)
  else if b.held.val && b.held.uc then ({ b with ovf := true }, false)
  else if b.lat then
    match b.pend with
    | some q => if q.uc then ({ b with ovf := true }, false) else ({ b with pend := some r }, true)
    | none => ({ b with pend := some r }, true)
  else ({ b with held := r }, true)

/-- A detected error updates bank k, which belongs to quadrant q; the manager of the quadrant's partition hears of a new
uncorrectable record, and CLK is `%clock` as that partition counts it (R402, R403, R419). -/
def State.record (s : State) (k q loc : Nat) (uc : Bool) (src : Nat) (tnt : Option Nat) (syn : Word64) : State :=
  let clk := match s.partOfQuad q with | some part => s.partClock part | none => s.clock
  let r : ErrRec :=
    { loc := BitVec.ofNat 64 loc, clk := BitVec.ofNat 64 clk, syn := syn, tnt := tnt.getD 0, tv := tnt.isSome, src := src }
  let (b, new) := (mget ({} : ErrBank) s.errs k).detect uc r
  let s := { s with errs := mset {} s.errs k b }
  match s.partOfQuad q with
  | some part => if new then s.managerIrq part 8 k else s
  | none => s

/-- A detected error of a sector of a stack (R3). The stack of an address is 64 GiB of the physical addresses from stack 0 on (log
94). -/
def State.detect (s : State) (pa : Nat) (uc : Bool) (src : Nat) (tnt : Option Nat) (syn : Word64) : State :=
  if 2 ^ 39 ≤ pa then s else s.record (4 + pa / 2 ^ 36) (pa / 2 ^ 37) pa uc src tnt syn

/-- LOC of a quadrant's bank: position, structure and byte offset (R402). -/
def chipLoc (e st off : Nat) : Nat := epX e % 64 * 2 ^ 58 + epY e % 32 * 2 ^ 53 + st % 8 * 2 ^ 50 + off % 2 ^ 50

/-- A sector of HBM is marked uncorrectable until it is next written (R399). -/
def State.markUncorr (s : State) (pa : Nat) : State := { s with uncorr := mset false s.uncorr (pa / 32) true }

/-- Data of an uncorrectable sector are taken: the detection is recorded, and takes effect (R399, R403). -/
def State.consumeAt (s : State) (g : Group) (src : Nat) (pas : List Nat) : State :=
  match pas.find? s.poisoned with
  | some pa => (s.detect (pa / 32 * 32) true src (if g.sys then none else some g.tenant) (Config.freeWord s.tick)).consume g
  | none => s.consume g

/-! ### Errors that reads find (R398, R399)

When a stored bit fails is nothing that the machine decides: a failure is a move of its own (log 115). -/

/-- A stored word has failed. A sector of HBM becomes uncorrectable, and is found so by its next read; or a read of a sector finds an
error that its code corrects; or a group's read of a word of its register file, its local store, a store buffer or a weight buffer
finds one, which is corrected, or cannot be and is consumed. -/
def State.flaw (s : State) : Flaw → State
  | .sector pa => if pa < 2 ^ 39 then s.markUncorr pa else s
  | .corrected pa src tnt => if src < 3 || src = 4 then s.detect (pa / 32 * 32) false src tnt (Config.freeWord s.tick) else s
  | .chip gid st off uc src =>
    match s.group? gid with
    | none => s
    | some g =>
      if 3 < st || 2 < src || g.wait = .stopped then s
      else
        let q := quadOf g.ep
        let s := s.record q q (chipLoc g.ep st off) uc src (if g.sys then none else some g.tenant) (Config.freeWord s.tick)
        if uc then s.consume g else s

end Sys2Proof.Machine
end

