-- ==== Sys2Proof/Machine/Issue.lean ====
section
/-! DEFINITION. What an element processor issues: readiness, tenants, priorities, pairing, fetch and the charges of an issue
(R25, R27 to R32, R56, R58, R59, R393, R394). -/

namespace Sys2Proof.Machine

/-! ### Pairing (R31, R56) -/

/-- What pairing looks at: the pipe, the lane destination with its width, written predicates, register sources with their
widths, and read predicates. -/
structure Ports where
  c : Ctl
  fma : Bool
  dw : Bool := false
  d : Option Dst := none
  pw : List PReg := []
  rd : List (Bool × RSrc) := []
  pr : List PReg := []
  deriving DecidableEq, Repr

def srcR (w : Bool) : Src → List (Bool × RSrc)
  | .lane r => [(w, .lane r)]
  | .uni r => [(w, .uni r)]
  | _ => []

/-- The ports of a two-source instruction. -/
def ports2 (c : Ctl) (fma : Bool) (t : Ty) (d : Dst) (a : RSrc) (b : Src) : Option Ports :=
  let w := wideTy t
  some { c := c, fma := fma, dw := w, d := some d, rd := (w, a) :: srcR w b }

/-- The ports of an instruction with register sources alone. -/
def portsR (c : Ctl) (fma : Bool) (t : Ty) (d : Dst) (rs : List RSrc) : Option Ports :=
  let w := wideTy t
  some { c := c, fma := fma, dw := w, d := some d, rd := rs.map fun r => (w, r) }

/-- The old value of a lane destination, which counts as a read (R56). -/
def oldD (w : Bool) : Dst → List (Bool × RSrc)
  | .lane r => [(w, .lane r)]
  | .uni r => [(w, .uni r)]

/-- The predicates that a mask of P2S or S2P selects. -/
def maskPreds (u : Bool) (m : BitVec 8) : List PReg :=
  if u then ((range 0 4).filter fun k => m.getLsbD k).map fun k => .uni (BitVec.ofNat 2 k)
  else ((range 0 8).filter fun k => m.getLsbD k).map fun k => .lane (BitVec.ofNat 3 k)

/-- The ports of an instruction of the two pipes; none for one that issues alone (R56). -/
def ports : Instr → Option Ports
  | .imul c t d a b => ports2 c true t d a b
  | .imulh c t d a b => ports2 c true t d a b
  | .imad c t d a b e => portsR c true t d [a, b, e]
  | .clmul c t _ d a b => ports2 c true t d a b
  | .fadd c _ d a b => ports2 c true .f32 d a b
  | .fmul c _ d a b => ports2 c true .f32 d a b
  | .ffma c _ d a b e => portsR c true .f32 d [a, b, e]
  | .twadd c t _ d a b => ports2 c true t d a b
  | .twmul c t _ d a b => ports2 c true t d a b
  | .twfma c t _ d a b e => portsR c true t d [a, b, e]
  | .iadd c t _ d a b => ports2 c false t d a b
  | .iaddc c t d a b pn =>
    (ports2 c false t d a b).map fun p => { p with pw := [sidePred d pn], pr := [sidePred d pn] }
  | .isub c t _ d a b => ports2 c false t d a b
  | .imin c t d a b => ports2 c false t d a b
  | .imax c t d a b => ports2 c false t d a b
  | .iabs c t _ d a => portsR c false t d [a]
  | .shl c t d a b => ports2 c false t d a b
  | .shr c t d a b => ports2 c false t d a b
  | .sar c t d a b => ports2 c false t d a b
  | .rotl c t d a b => ports2 c false t d a b
  | .blut c t d a b _ => (ports2 c false t d a b).map fun p => { p with rd := p.rd ++ oldD (wideTy t) d }
  | .and c t d a b => ports2 c false t d a b
  | .or c t d a b => ports2 c false t d a b
  | .xor c t d a b => ports2 c false t d a b
  | .not c t d a => portsR c false t d [a]
  | .popc c t d a => portsR c false t d [a]
  | .clz c t d a => portsR c false t d [a]
  | .ctz c t d a => portsR c false t d [a]
  | .brev c t d a => portsR c false t d [a]
  | .bswap c t d a => portsR c false t d [a]
  | .bfx c t d a b => ports2 c false t d a b
  | .bfi c t d a b e => portsR c false t d [a, b, e]
  | .iset c t _ d a b => some { c := c, fma := false, pw := [d], rd := (wideTy t, a) :: srcR (wideTy t) b }
  | .sel c t d a b pn _ => (ports2 c false t d a b).map fun p => { p with pr := [sidePred d pn] }
  | .mov c t d b => some { c := c, fma := false, dw := wideTy t, d := some d, rd := srcR (wideTy t) b }
  | .movi c t d b _ => some { c := c, fma := false, dw := wideTy t, d := some (.lane d), rd := srcR (wideTy t) b }
  | .movh c d a _ => some { c := c, fma := false, dw := true, d := some d, rd := [(true, a)] }
  | .lea c t d a b _ => portsR c false t d [a, b]
  | .bysel c d a b _ => portsR c false .n32 d [a, b]
  | .fmin c t d a b => ports2 c false t d a b
  | .fmax c t d a b => ports2 c false t d a b
  | .fset c t _ d a b => some { c := c, fma := false, pw := [d], rd := (wideTy t, a) :: srcR (wideTy t) b }
  | .fclass c t d a _ => some { c := c, fma := false, pw := [d], rd := [(wideTy t, a)] }
  | .frnd c t _ d a => portsR c false t d [a]
  | .cvt c _ dt st _ d a => some { c := c, fma := false, dw := wideTy dt, d := some d, rd := [(wideTy st, a)] }
  | .pack c t _ _ _ d a b =>
    (portsR c false t d [a, b]).map fun p => { p with rd := p.rd ++ (if tyBytes t = 1 then oldD false d else []) }
  | .unpack c t d a _ => some { c := c, fma := false, d := some d, rd := [(t == .i3, a)] }
  | .pset c d a b e _ => some { c := c, fma := false, pw := [d], pr := [a, b, e] }
  | .p2s c d m => some { c := c, fma := false, d := some d, pr := maskPreds (Dst.isUni d) m }
  | .s2p c u a m => some { c := c, fma := false, pw := maskPreds u m, rd := [(u == false, a)].map fun x => (false, x.2) }
  | _ => none

/-- Whether a register number of a width lies in a bank (even 0, odd 1). -/
def inBank (odd : Bool) (w : Bool) (r : BitVec 8) : Bool := w || r.getLsbD 0 == odd

def bankReads (odd : Bool) (l : List (Bool × RSrc)) : Nat :=
  (l.filter fun x => match x.2 with | .lane r => inBank odd x.1 r | .uni _ => false).length

def bankWrite (odd : Bool) (p : Ports) : Bool :=
  match p.d with
  | some (.lane r) => inBank odd p.dw r
  | _ => false

/-- Whether a source reads a register that a destination writes. -/
def readsDst (p : Ports) (x : Bool × RSrc) : Bool :=
  match p.d, x.2 with
  | some (.lane d), .lane r =>
    let lo := d.toNat
    let hi := if p.dw then lo + 1 else lo
    let rlo := r.toNat
    let rhi := if x.1 then rlo + 1 else rlo
    decide (rlo ≤ hi) && decide (lo ≤ rhi)
  | some (.uni d), .uni r => d == r && d != 63
  | _, _ => false

/-- The predicate of a guard. -/
def guardReg (c : Ctl) : PReg := .lane c.gp

/-- Whether two instructions of one clause pair (R31). -/
def pairOk (i j : Instr) : Bool :=
  match ports i, ports j with
  | some p, some q =>
    p.c.pair && (p.fma != q.fma)
      && decide (bankReads false (p.rd ++ q.rd) ≤ 2) && decide (bankReads true (p.rd ++ q.rd) ≤ 2)
      && !(bankWrite false p && bankWrite false q) && !(bankWrite true p && bankWrite true q)
      && !(q.rd.any (readsDst p))
      && !((guardReg q.c :: q.pr).any fun x => p.pw.contains x && x != .lane 7)
  | _, _ => false

/-- The common fields of an instruction word. -/
def ctlOf (i : Instr) : Ctl := pCtl (Raw.ofWord (encode i))

/-- Whether an instruction is a word of a program, and not a step of the machine. -/
def isWord (i : Instr) : Bool :=
  match i with
  | .clause _ => true
  | .reservedOpcode _ _ => true
  | _ => (rawEnc i).isSome

/-- The energy index of an issued instruction: 1 for the FMA pipe, else 0 (R393). -/
def energyIx (i : Instr) : Nat :=
  match ports i with
  | some p => if p.fma then 1 else 0
  | none => 0

/-! ### Fetch (R58, R59, R61, R62) -/

/-- What a path finds at its program counter: an instruction word, or a stop already taken. -/
inductive Fetched where
  | word (i : Instr)
  | done (s : State)
  deriving DecidableEq, Repr

/-- The causes of a word that no instruction's encoding matches, or none (R62). -/
def badWord (x : LCtx) (w : Word96) : Option Nat :=
  match bitCauses w with
  | [] => none
  | c :: r => lowest (c :: r ++ causes x (parse w).1)

/-- The bytes of the word at a path's program counter. -/
def State.fetchPas (s : State) (g : Group) (p : Path) : List Nat :=
  match trRange (s.trGroup g .fetch) ((s.codeBase g + 12 * p.pc.toNat) % 2 ^ 64) 12 with
  | .ok pas => pas
  | .error _ => []

/-- The memory byte at which the constant-bank operand of a word begins, where an issue with some lane fetches one; an `LDC` makes its
own access. Operands are aligned, so that it names their sector (R46). -/
def State.operandPas (s : State) (g : Group) (p : Path) (i : Instr) : List Nat :=
  let r := Raw.ofWord (encode i)
  let (a, size) := s.bankOf g (r.b.toNat % 16)
  if r.cb != 3 || decide (size ≤ r.imm.toNat) || guardOf g p (ctlOf i) == 0 || (match i with | .ldc .. => true | _ => false) then []
  else match s.trGroup g .read (a + r.imm.toNat) with | .ok pa => [pa] | _ => []

/-- The sectors of a word and of its constant operand are charged where a cache does not hold them, which the model leaves open (R393,
log 11). -/
def State.chargeFetch (s : State) (g : Group) (pas : List Nat) : State :=
  if s.noCoef g.part || s.constHit then s else s.chargeSectors g memIx (sectorsOf pas)

/-- The word lies in an uncorrectable sector, so that its fetch consumes the error (R399). -/
def State.fetchPoisoned (s : State) (g : Group) (p : Path) : Bool := s.uncorr != [] && (s.fetchPas g p).any s.poisoned

/-- A path fetches its word: past the segment's end, untranslated or not executable pages, then what the word is. -/
def State.fetchAt (s : State) (g : Group) (p : Path) (sec : Bool) : Fetched :=
  if 1048576 ≤ p.pc.toNat then .done (s.trapAt g p sec 0x11 p.mask 0 0)
  else
    match s.codeWord g (s.codeBase g) p.pc with
    | .error (va, .miss t) => .done (s.parkFetch g sec p.pc va t)
    | .error (va, _) => .done (s.trapAt g p sec 0x21 p.mask va 0)
    | .ok w =>
      if s.fetchPoisoned g p then .done (s.consumeAt g 2 (s.fetchPas g p))
      else if p.clause.isNone && !(isHeader w) then .done (s.trapAt g p sec 0x13 p.mask 0 0)
      else
        match badWord (ctxOf g p) w with
        | some c => .done (s.trapAt g p sec c p.mask 0 0)
        | none => .word (parse w).1

/-- The pages of a word, and of its constant-bank operand, are cached in the EP's quadrant (R256). -/
def State.noteWord (s : State) (g : Group) (p : Path) (i : Instr) : State :=
  let r := Raw.ofWord (encode i)
  let (a, size) := s.bankOf g (r.b.toNat % 16)
  let s := s.noteGroup g ((s.codeBase g + 12 * p.pc.toNat) % 2 ^ 64)
  if r.cb == 3 && decide (r.imm.toNat < size) then s.noteGroup g (a + r.imm.toNat) else s

/-! ### Readiness (R27, R9, R25, R32)

A path whose next instruction turns out not to issue in a cycle (a header's wait, a full channel, a flag at 63, a held fence) is
held: its group is as if not ready through that path, and the choice is made again without it (R19, R27 to R30). -/

/-- The paths found to be held in this cycle: group and slot. -/
abbrev Held := List (Nat × Bool)

def State.patchOf (s : State) (g : Group) : Option Nat := (s.block? g.block).map fun b => b.patch

/-- Whether a group of the same patch is evicted (R9). -/
def State.patchHeld (s : State) (g : Group) : Bool :=
  !g.sys && s.groups.any fun h => (h.evicted || h.leaving) && h.launch == g.launch && s.patchOf h == s.patchOf g

/-- A path whose swap with the top of the stack is due issues no more until it has come about (R21). -/
def Group.swapDue (g : Group) (p : Path) : Bool := decide (4096 ≤ p.issued) && !g.stack.isEmpty

def State.pathReady (s : State) (held : Held) (g : Group) (sec : Bool) : Bool :=
  match g.path? sec with
  | none => false
  | some p => decide (p.stallUntil ≤ s.clock) && !(g.swapDue p) && !(held.contains (g.id, sec))

/-- Whether anything keeps the whole group from issuing. -/
def State.groupFree (s : State) (g : Group) : Bool :=
  decide (g.wait = .none) && g.trap.isNone && !(s.patchHeld g)
    && (g.sys || (!((s.part g.part).stopped) && !((s.part g.part).pairStopped)))

def State.groupReady (s : State) (held : Held) (g : Group) : Bool :=
  s.groupFree g && (s.pathReady held g false || s.pathReady held g true)

/-- The path that issues: round-robin between the two (R19). -/
def State.nextPath (s : State) (held : Held) (g : Group) : Bool :=
  if s.pathReady held g (!g.lastSecond) then !g.lastSecond else g.lastSecond

/-! ### Choosing (R27, R28, R30) -/

/-- The order among ready groups: priority, the yield hint, the block that became resident earliest, then %wf0 (R27, R32). -/
def better (s : State) (a b : Group) : Bool :=
  if a.prio ≠ b.prio then decide (b.prio < a.prio)
  else
    let ya := decide (s.clock < a.hintUntil)
    let yb := decide (s.clock < b.hintUntil)
    if ya ≠ yb then yb
    else if a.age ≠ b.age then decide (a.age < b.age)
    else decide (wfGet (s.hdrOf a).wf 0 a.wid.toNat < wfGet (s.hdrOf b).wf 0 b.wid.toNat)

/-- The best of a list of groups. -/
def bestGroup (s : State) : List Group → Option Group
  | [] => none
  | g :: r =>
    match bestGroup s r with
    | none => some g
    | some h => if better s h g then some h else some g

/-- Among a tenant's ready groups, one that has yielded is chosen only if no other is ready (R209). -/
def bestOf (s : State) (l : List Group) : Option Group :=
  match l.filter fun g => decide (g.yieldUntil ≤ s.clock) with
  | [] => bestGroup s l
  | m => bestGroup s m

/-- Tenants in cyclic order after the one that issued last (R28). -/
def tenantsAfter (last : Nat) : List Nat := (range 1 16).map fun k => (last + k) % 16

/-- Whether a tenant may issue in this cycle, as its partition counts cycles (R17, R28, R396). -/
def State.eligible (s : State) (part : Nat) (ready : List Group) (t : Nat) : Bool :=
  ready.any (fun g => g.tenant == t) && decide (s.partClock part % 16 < min (s.tenant part t).level (if (s.part part).capped then 8 else 16))

/-- The tenants that have a group resident on an EP. A tenant that leaves keeps its counter for its return (log 86). -/
def State.residents (s : State) (e : Nat) : List Nat :=
  (range 0 16).filter fun t => s.groups.any fun g => g.ep == e && !g.sys && g.tenant == t && !g.evicted

/-- The refill of the deficit counters (R28). -/
def refillD (part : Partition) : List Nat → Map Int → Map Int
  | [], d => d
  | t :: r, d =>
    let w : Int := ((part.tenant t).iw : Nat)
    refillD part r (mset 0 d t (min (mget 0 d t + w) (2 * w)))

/-- The second instruction of a pair, where its group is there and free: it does not wait for the first one's stall count (R31,
R32). -/
def State.pickPair (s : State) (e : Nat) (held : Held) (gid : Nat) (sec : Bool) (at_ : Nat) : Option (Group × Bool) :=
  match s.group? gid with
  | none => none
  | some g =>
    if at_ = s.clock && g.ep == e && s.groupFree g && (g.path? sec).isSome && !(held.contains (gid, sec)) then some (g, sec) else none

/-- A tenant's choice by the deficit rule, with the counters after the cycle's refill, which a cycle has once (R28). Where no tenant
issues, the cycle is over for the EP. -/
def State.pickTenant (s : State) (e part : Nat) (held : Held) (ready : List Group) : State × Option (Group × Bool) :=
  let u := s.ep e
  let el := (tenantsAfter u.last).filter (s.eligible part ready)
  let fill := !(el.any fun t => decide (0 < mget 0 u.deficit t)) && u.refillAt != some s.clock
  let d := if fill then refillD (s.part part) (s.residents e) u.deficit else u.deficit
  let at_ := if fill then some s.clock else u.refillAt
  let done := s.modEp e fun u => { u with deficit := d, refillAt := at_, lastIssueAt := some s.clock }
  match el.find? fun t => decide (0 < mget 0 d t) with
  | none => (done, none)
  | some t =>
    match bestOf s (ready.filter fun g => g.tenant == t) with
    | some g => (s.modEp e fun u => { u with deficit := d, refillAt := at_ }, some (g, s.nextPath held g))
    | none => (done, none)

/-- What an EP chooses in a cycle among the paths that are not held: the state with the cycle's refill made, and the group and
path, if any. A system group comes first, if none of the three cycles before was one's (R30). -/
def State.pick (s : State) (e : Nat) (held : Held) : State × Option (Group × Bool) :=
  let u := s.ep e
  match u.pair with
  | some (gid, sec, at_) => (s.modEp e fun u => { u with pair := none }, s.pickPair e held gid sec at_)
  | none =>
    if u.lastIssueAt = some s.clock then (s, none)
    else
      let ready := s.groups.filter fun g => g.ep == e && s.groupReady held g
      let sysOk := match u.sysIssued with | some c => decide (c + 3 < s.clock) | none => true
      match (if sysOk then bestOf s (ready.filter fun g => g.sys) else none) with
      | some g => (s, some (g, s.nextPath held g))
      | none =>
        match s.partOfEp e with
        | none => (s, none)
        | some k => s.pickTenant e k held (ready.filter fun g => !g.sys)

/-! ### After an issue -/

/-- Whether a path's instruction did not issue: the path stands where it stood, and its group neither waits nor traps. -/
def State.isHeld (s : State) (gid : Nat) (sec : Bool) (p : Path) : Bool :=
  match s.group? gid with
  | some g => g.path? sec == some p && decide (g.wait = .none) && g.trap.isNone
  | none => false

/-- The counters after a tenant's or a system group's issue (R28, R30). -/
def EpSt.issued (u : EpSt) (g : Group) (clock : Nat) : EpSt :=
  if g.sys then { u with sysIssued := some clock, lastIssueAt := some clock }
  else { u with deficit := mset 0 u.deficit g.tenant (mget 0 u.deficit g.tenant - 1), last := g.tenant, lastIssueAt := some clock }

/-- Whether the next word of a path forms a pair with the instruction before it (R31). -/
def State.pairs (s : State) (g : Group) (p q : Path) (i : Instr) : Bool :=
  (ctlOf i).pair && q.pc == p.pc + 1 && q.clause.isSome && q.clause == p.clause &&
    match s.codeWord g (s.codeBase g) q.pc with
    | .ok w => (badWord (ctxOf g q) w).isNone && pairOk i (parse w).1
    | .error _ => false

/-- The charges and hints of an instruction that moved its path: the deficit, energy, round-robin, the stall count, the yield
hint and the pair hint; the second of a pair opens no further pair (R28, R30 to R32, R394). -/
def afterIssue (g : Group) (p : Path) (sec second : Bool) (i : Instr) (s : State) : State :=
  let moved := match s.group? g.id with | some h => h.path? sec != some p | none => true
  if !moved then s
  else
    let c := ctlOf i
    let s := (s.chargeGroup g (energyIx i) 1).modEp g.ep fun u => u.issued g s.clock
    match s.group? g.id with
    | none => s
    | some h =>
      let h := { h with lastSecond := sec, hintUntil := if c.yld then s.clock + 2 else h.hintUntil }
      match h.path? sec with
      | none => s.setGroup h
      | some q =>
        let s := s.setGroup (h.setPath sec (some { q with stallUntil := max q.stallUntil (s.clock + 1 + c.stall.toNat) }))
        if !second && s.pairs h p q i then s.modEp g.ep fun u => { u with pair := some (h.id, sec, s.clock) } else s

/-- One cycle's issue of an EP: the arbitration, the fetch, and the instruction's meaning, which the caller supplies. A path that is
held is passed over, with no trace in the EP's counters; the fuel bounds the paths. A header takes no issue slot and costs nothing
(R144). A word that traps or parks when it is fetched or issued, so that its path has not moved, takes no issue slot and costs its
tenant nothing either: R28 does not say, and this is the model's choice (log 103). -/
def issueOn (run : Instr → State → Out) (e : Nat) : Nat → Held → State → Out
  | 0, _, s => .next s
  | n + 1, held, s =>
    let u := s.ep e
    match s.pick e held with
    | (t, none) => .next t
    | (t, some (g, sec)) =>
      match g.path? sec with
      | none => .next t
      | some p =>
        let again := fun (v : State) => issueOn run e n ((g.id, sec) :: held) (v.modEp e fun _ => { u with pair := none })
        match t.fetchAt g p sec with
        | .done v => if v.isHeld g.id sec p then again v else .next v
        | .word i =>
          let ops := t.operandPas g p i
          if t.uncorr != [] && ops.any t.poisoned then .next (t.consumeAt g 2 ops)
          else
          match run i { t.noteWord g p i with cur := some { gid := g.id, second := sec } } with
          | .next v =>
            if v.isHeld g.id sec p then again v
            else
              let v := v.chargeFetch g (t.fetchPas g p ++ ops)
              .next (match i with | .clause _ => v | _ => afterIssue g p sec u.pair.isSome i v)
          | .fault f => .fault f
          | .refused r => .refused r

/-- How many paths an EP may have to pass over. -/
def State.issueFuel (s : State) : Nat := 2 * s.groups.length + 1

end Sys2Proof.Machine
end

