-- ==== Sys2Proof/Machine/Access.lean ====
section
/-! DEFINITION. Memory accesses: their checks and their issue (R182 to R192), and how the abstract machine performs them
(R262 to R271). -/

namespace Sys2Proof.Machine

/-! ### The issue queue (R265, R266, R193) -/

/-- Whether y comes before x in the program order of the group (R265); y stands earlier in the queue. The lanes of one instruction
have no order among themselves (R263). -/
def before (y x : MemOp) : Bool := x.hist.contains y.thr && y.instr != x.instr

/-- Whether a fence, `AFENCE` or `COMMIT` of a path holds its later instructions (R193, R194). -/
def isFence (x : MemOp) : Bool :=
  match x.kind with
  | .fence _ => true
  | .afence => true
  | .commit => true
  | _ => false

def Group.fenceHeld (g : Group) (p : Path) : Bool := g.iq.any fun x => isFence x && p.hist.contains x.thr

/-- `COMMIT` holds later memory instructions alone; the other two hold object, channel and engine instructions too (R193, R194). -/
def Group.fenceHeldOther (g : Group) (p : Path) : Bool :=
  g.iq.any fun x => isFence x && decide (x.kind ≠ .commit) && p.hist.contains x.thr

/-- The queue's operations that stand before x. -/
def earlier (x : MemOp) : List MemOp → List MemOp
  | [] => []
  | y :: r => if y.id = x.id then [] else if before y x then y :: earlier x r else earlier x r

def shares (a b : List Nat) : Bool := a.any fun l => b.contains l

/-- The barrier and phase of a `BTRY` or of a `BWAIT` that may time out: such a wait is an acquire only if it returns true. -/
def softWait (y : MemOp) : Option (Obj × Nat) :=
  match y.kind with
  | .btry o ph => some (o, ph)
  | .bwait o ph limit => if limit = 0 then none else some (o, ph)
  | _ => none

/-- Whether x may overtake an earlier operation y, but for the class of y (R266). -/
def clearOf (x y : MemOp) : Bool := !x.rel && !(shares x.locs y.locs)

/-- Whether x may overtake an earlier operation y (R266). -/
def overtakes (x y : MemOp) : Bool := !y.acq && clearOf x y

/-- The waits that the performing of x overtakes will return false. -/
def Group.passWaits (g : Group) (x : MemOp) : Group :=
  let es := (earlier x g.iq).filter fun y => y.acq && (softWait y).isSome
  if es = [] then g else { g with iq := g.iq.map fun y => if es.any fun e => e.id == y.id then { y with passed := true } else y }

/-- Operations join the end of the queue; each takes an identity of its own. -/
def State.enqueue (s : State) (g : Group) (xs : List MemOp) : State × Group :=
  let n := s.nextId
  ({ s with nextId := n + xs.length },
    { g with iq := g.iq ++ (range 0 xs.length).zipWith (fun k (x : MemOp) => { x with id := n + k }) xs })

/-! ### Commits of restartable blocks (R184, R420) -/

/-- The sector of a location, and the record of one committed sector: its address, byte mask, data and four zero bytes. -/
def sectorRecord (bs : List WByte) (x : Nat) : List Byte :=
  let byteOf := fun k => (bs.reverse.find? fun b => b.loc == x * 32 + k).map fun b => b.new
  bytesLE (x * 32 % 2 ^ 56) 8
    ++ bytesLE ((range 0 32).foldl (fun m k => if (byteOf k).isSome then m + 2 ^ k else m) 0) 4
    ++ (range 0 32).map (fun k => (byteOf k).getD 0) ++ bytesLE 0 4

def insertNat (x : Nat) : List Nat → List Nat
  | [] => [x]
  | y :: r => if x < y then x :: y :: r else if x = y then y :: r else y :: insertNat x r

/-- The signature of a block's commit (R420). -/
def State.commitSig (s : State) (blk : Nat) : Word32 :=
  let bs := (s.sb.filter fun e => e.blk == blk).flatMap fun e => e.bytes
  crc32 (((bs.map fun b => b.loc / 32).foldl (fun l x => insertNat x l) []).flatMap (sectorRecord bs))

/-- Whether a commit of the group's block must wait for the peer's signature, in the state in which the point is reached
(R420); none where it may go on. `full` says that the overflow region forces it (R260). -/
def State.gate (s : State) (g : Group) (full : Bool) : Option State :=
  if s.restartable g.block && (s.part g.part).lockstep then
    if s.sigs.any fun x => match x.act with | .commit b _ _ => b == g.block | _ => false then some s
    else
      let x : SigPoint :=
        { id := s.nextId, part := g.part, gid := g.id, sig := s.commitSig g.block, act := .commit g.block g.id full }
      some { s with nextId := s.nextId + 1, sigs := s.sigs ++ [x] }
  else none

/-- A commit that an instruction makes before its own effect: the group notes it (R184, R378). -/
def Group.noteCommit (g : Group) (s : State) : Group := if s.restartable g.block then g.note else g

/-! ### Results of variable-latency instructions (R23, R24) -/

/-- The outstanding record of an instruction. -/
def Group.out? (g : Group) (k : Nat) : Option Outst := findKey (fun o => o.instr) k g.outst

/-- A lane's result is known. -/
def Group.answer (g : Group) (k l : Nat) (v : Word64) : Group :=
  let f : Outst → Outst := fun o => { o with ready := o.ready ||| (1#32 <<< l), vals := mset 0 o.vals l v }
  { g with outst := modifyKey (fun o => o.instr) k f g.outst }

/-- An outstanding record is closed, and its flag falls. -/
def Group.closeOut (g : Group) (k : Nat) : Group :=
  match g.out? k with
  | none => g
  | some o =>
    let rest := dropKey (fun o => o.instr) k g.outst
    match o.twin with
    | none => ({ g with outst := rest } : Group).lowerFlag o.flag
    | some t =>
      let keep : Outst → Outst := fun x => { x with flag := if o.flag.isSome then o.flag else x.flag, twin := none }
      { g with outst := modifyKey (fun o => o.instr) t keep rest }

/-- Lanes leave an outstanding record that they will not write. -/
def Group.withdraw (g : Group) (k : Nat) (m : Lanes) : Group :=
  match g.out? k with
  | none => g
  | some o =>
    let left := o.pend &&& ~~~m
    if left = 0 then g.closeOut k
    else
      let f : Outst → Outst := fun o => { o with pend := left }
      { g with outst := modifyKey (fun o => o.instr) k f g.outst }

/-- Writes the known results of some lanes, in increasing lane order. -/
def Group.writeOut (g : Group) (o : Outst) (m : Lanes) : Group :=
  let v := fun l => mget 0 o.vals l
  let g :=
    match o.dst with
    | .none => g
    | .lane r w => writeLanes w r v (lanesOf m) g
    | .uni r => g.setUni r (v 0)
    | .lpred p => g.setPred p m (maskOf fun l => v l != 0)
    | .upred q => g.setUpred q (v 0 != 0)
    | .beta first cnt =>
      let put : Map Word32 → Nat → Map Word32 := fun b l => if l < cnt then mset 0 b (first + l) ((v l).setWidth 32) else b
      { g with beta := (lanesOf m).foldl put g.beta }
  match o.qn with
  | some (q, b) => g.setUpred q b
  | none => g

/-- A new outstanding record; the flag rises (R24). -/
def Group.begin (g : Group) (k : Nat) (flag : Option Nat) (dst : ResDst) (m : Lanes) : Group :=
  ({ g with outst := { instr := k, flag := flag, dst := dst, pend := m } :: g.outst } : Group).raiseFlag flag

/-- A variable-latency instruction writes some of its known results; its flag falls when it has written all of them, and a
raised trap that waited for the flags is then taken (R24, R370). -/
def execVariableLatencyResult (g op : Nat) (lanes : Lanes) (s : State) : Out :=
  match s.group? g with
  | none => .next s
  | some g =>
    match g.out? op with
    | none => .next s
    | some o =>
      let m := o.pend &&& o.ready &&& lanes
      if m = 0 then .next s
      else .next ((s.setGroup ((g.writeOut o m).withdraw op m)).settle g.id)

/-! ### What an access names -/

/-- Where an access goes. -/
inductive Space where
  | dev (base : BitVec 6) (ix : MemIx)
  | store (w : Win) (a : RSrc) (ix : MemIx)
  | bank (k : BitVec 4) (off : BitVec 32) (ix : RSrc)
  deriving DecidableEq, Repr

/-- A memory instruction: its space, type, access rights, result, ordering, whether it commits a restartable block first
(R184) and whether it is non-idempotent (R196). -/
structure Acc where
  sp : Space
  t : Ty
  rd : Bool := false
  wr : Bool := false
  dst : ResDst := .none
  uni : Bool := false
  acq : Bool := false
  rel : Bool := false
  sc : Scope := .grp
  commits : Bool := false
  noted : Bool := false
  deriving DecidableEq, Repr

/-- The address or offset of a lane. -/
def Space.at (g : Group) : Space → Nat → Nat
  | .dev b ix, l => devAddr g b ix l
  | .store _ a ix, l => locOff g a ix l
  | .bank _ off ix, l => off.toNat + (rsrcVal g false ix l).toNat

def winOf : Space → Win
  | .store w _ _ => w
  | _ => .own

/-- Local-store locations stand above all device-memory locations. -/
def storeLoc (e off : Nat) : Nat := 2 ^ 63 + lsKey e off

/-- The physical offset of a launch's local-store offset (R284). -/
def State.storeOff (s : State) (g : Group) (off : Nat) : Nat := (s.rangeOf g.launch).1 + off

/-- The locations of an access's lanes at a store, where its window names a position. -/
def accUnits (s : State) (g : Group) (a : Acc) (ls : List Nat) : List Nat :=
  match a.sp with
  | .store w _ _ =>
    match s.winPos g w with
    | some e => ls.flatMap fun l => (range (s.storeOff g (Space.at g a.sp l)) (tyBytes a.t)).map (storeLoc e)
    | none => []
  | _ => []

/-- The checks of an access that need no translation, in the order of its description, each with the lanes that fail (R182,
R183, R190, R192). -/
def accChecks (s : State) (g : Group) (a : Acc) : List (Nat × (Nat → Bool)) :=
  let n := tyBytes a.t
  let at_ := fun l => Space.at g a.sp l
  let align := (0x22, fun l => decide (at_ l % n ≠ 0))
  match a.sp with
  | .dev _ _ => [(0x21, fun l => decide (2 ^ 56 ≤ at_ l)), align]
  | .bank _ _ _ => [align]
  | .store w _ _ =>
    match s.winPos g w with
    | none => [(0x23, fun _ => true)]
    | some e =>
      [(0x24, fun l => decide ((s.rangeOf g.launch).2 < at_ l + n)), align,
        (0x25, fun l => a.wr && !(s.isHole e) && s.liveIn e (s.storeOff g (at_ l)) n)]

/-- The first check that some lane fails, with those lanes. -/
def firstFail (ls : List Nat) : List (Nat × (Nat → Bool)) → Option (Nat × List Nat)
  | [] => none
  | (code, bad) :: r =>
    match ls.filter bad with
    | [] => firstFail ls r
    | fs => some (code, fs)

/-- The physical bytes and locations of a lane's access, or why its translation fails. -/
def accTranslate (s : State) (g : Group) (a : Acc) (l : Nat) : Except (Nat × TRes) (List Nat × List Nat) :=
  let n := tyBytes a.t
  let x := Space.at g a.sp l
  match a.sp with
  | .dev _ _ =>
    let f := fun v => if a.rd && a.wr then (match s.trGroup g .read v with | .ok _ => s.trGroup g .write v | e => e)
      else s.trGroup g (if a.wr then .write else .read) v
    match trRange f x n with
    | .ok pas => .ok (pas, (range 0 n).zipWith (fun k pa => g.loc (x + k) pa) pas)
    | .error e => .error (x, e)
  | .store w _ _ =>
    let e := (s.winPos g w).getD g.ep
    let off := s.storeOff g x
    let pas := if s.isHole e then (range off n).map (s.shadowPa g.part g.tenant e) else []
    .ok (pas, (range off n).map (storeLoc e))
  | .bank k _ _ =>
    let b := s.bankOf g k.toNat
    match trRange (s.trGroup g .read) (b.1 + x) (min n (b.2 - x)) with
    | .ok pas => .ok (pas, [])
    | .error e => .error (b.1 + x, e)

def isOk {α β : Type} : Except α β → Bool
  | .ok _ => true
  | .error _ => false

def isViol : Except (Nat × TRes) (List Nat × List Nat) → Option Nat
  | .error (va, .viol) => some va
  | _ => none

def isMiss : Except (Nat × TRes) (List Nat × List Nat) → Option (Nat × Bool)
  | .error (va, .miss t) => some (va, t)
  | _ => none

/-! ### Energy (R393) -/

/-- The sectors that an access reads or writes are charged. -/
def State.chargeAccess (s : State) (g : Group) (a : Acc) (ts : List (List Nat × List Nat)) : State :=
  if s.noCoef g.part then s
  else
    match a.sp with
    | .dev _ _ => s.chargeSectors g memIx (sectorsOf (ts.flatMap fun t => t.1))
    | .store w _ _ => s.chargeSectors g (fun _ => if w == .own then 2 else 3) (sectorsOf (ts.flatMap fun t => t.2))
    | .bank _ _ _ => if s.constHit then s else s.chargeSectors g memIx (sectorsOf (ts.flatMap fun t => t.1))

/-! ### Issue of an access -/

/-- Whether the group may not yet touch a 16-byte unit because a `BINIT`, `RINIT` or `BINV` of its own on it is not performed. -/
def Group.unitBusy (g : Group) (locs : List Nat) : Bool :=
  g.iq.any fun x =>
    (match x.kind with | .binit _ _ => true | .rinit _ _ => true | .binv _ => true | _ => false) && shares x.locs locs

/-- One lane's operation; its identity is the same when a replay makes it. -/
def laneOp (g : Group) (p : Path) (a : Acc) (k : Nat) (mk : Nat → MKind) (l : Nat) (t : List Nat × List Nat) : MemOp :=
  { id := k + 1 + l, instr := k, lane := l, thr := p.thr, hist := p.hist, acq := a.acq, rel := a.rel, com := a.commits, sc := a.sc, pas := t.1,
    locs := t.2, kind := mk l, views := if a.wr then g.fenceViews else [] }

/-- The address that a lane's access names. -/
def accVa (s : State) (g : Group) (a : Acc) (l : Nat) : Nat :=
  match a.sp with
  | .bank k _ _ => (s.bankOf g k.toNat).1 + Space.at g a.sp l
  | _ => Space.at g a.sp l

/-- The lanes of an instruction: every guarded lane, or lane 0 once for a uniform result where some lane is guarded. -/
def accLanes (a : Acc) (m : Lanes) : List Nat := if a.uni then (if m = 0 then [] else [0]) else lanesOf m

/-- The mask that stands for some of an access's lanes: a uniform access stands for its whole guard. -/
def accMask (a : Acc) (m : Lanes) (ls : List Nat) : Lanes := if a.uni then m else maskOf fun l => ls.contains l

/-- The pages that an access used are cached in its quadrant (R256). -/
def State.noteLanes (s : State) (g : Group) (a : Acc) : List Nat → State
  | [] => s
  | l :: r =>
    match a.sp with
    | .store .. => s
    | _ => (s.noteGroup g (accVa s g a l)).noteLanes g a r

/-- The codes whose record names a faulting address (R371). -/
def hasVa (code : Nat) : Bool := code == 0x21 || code == 0x22 || code == 0x24

/-- A trap of an access: no lane is performed, and lanes that a replay was to perform will write nothing (R183). -/
def accTrap (s : State) (g : Group) (p : Path) (sec : Bool) (k : Nat) (m : Lanes) (code : Nat) (fm : Lanes) (va : Nat) : State :=
  s.trapAt (g.withdraw k m) p sec code fm (if hasVa code then va else 0) 0

/-- With every entry of the fault buffer in use, an access of device memory does not issue, nor an `LDC` that misses the constant
cache (R259). -/
def State.bufferFull (s : State) (g : Group) (a : Acc) (miss : Bool) : Bool :=
  !(s.faultRoom g.ep) &&
    match a.sp with
    | .dev _ _ => true
    | .bank _ _ _ => miss || !s.constHit
    | .store .. => false

/-- The least of the addresses of some lanes without a translation, with its cause (R374). -/
def leastMiss : List (Nat × Nat × Bool) → Option (Nat × Bool)
  | [] => none
  | (_, va, t) :: r =>
    match leastMiss r with
    | some (v, u) => if v < va then some (v, u) else some (va, t)
    | none => some (va, t)

/-- An access in the lanes `m`: checked, translated, and queued in the lanes that translate; lanes without a translation wait in
the fault buffer (R182, R183). `k` is the instruction's identity; a replay has its outstanding record and its buffer entry already. -/
def accRun (i : Instr) (a : Acc) (mk : Nat → MKind) (flag : Option Nat) (k : Nat) (replay : Bool) (m : Lanes) (s : State) (g : Group) (p : Path)
    (sec : Bool) : State :=
  let ls := accLanes a m
  if g.unitBusy (accUnits s g a ls) then s
  else
  match firstFail ls (accChecks s g a) with
  | some (code, fs) => accTrap s g p sec k m code (accMask a m fs) (Space.at g a.sp (fs.headD 0)) 
  | none =>
    let ts := ls.map fun l => (l, accTranslate s g a l)
    match ts.filter fun x => (isViol x.2).isSome with
    | (l, t) :: r => accTrap s g p sec k m 0x21 (accMask a m (l :: r.map fun x => x.1)) ((isViol t).getD 0)
    | [] =>
      let good := ts.filterMap fun x => match x.2 with | .ok t => some (x.1, t) | .error _ => none
      let miss := ts.filterMap fun x => (isMiss x.2).map fun e => (x.1, e)
      if !replay && s.bufferFull g a (miss != []) then s
      else
        let noted := a.noted || (a.commits && s.restartable g.block)
        let g := if replay then g
          else
            let g := if noted then g.note else g
            if a.dst = .none then g else g.begin k flag a.dst (if a.uni then 1 else m)
        let g := { g with iq := g.iq ++ good.map fun x => laneOp g p a k mk x.1 x.2 }
        let s := (s.noteLanes g a (good.map fun x => x.1)).chargeAccess g a (good.map fun x => x.2)
        match leastMiss miss with
        | none => advance s g p sec
        | some (va, t) => s.parkNow g sec i (accMask a m (miss.map fun x => x.1)) va a.wr t k

/-- Issue of a memory instruction with its guard. -/
def accIssue (i : Instr) (c : Ctl) (a : Acc) (mk : Group → Nat → MKind) (s : State) : Out :=
  issue i c s fun g p sec =>
    if g.fenceHeld p then .next s
    else if guardOf g p c = 0 then .next (advance s g p sec)
    else
      let k := s.nextId
      .next (accRun i a (mk g) (flagOf p c) k false (guardOf g p c) { s with nextId := k + 33 } g p sec)

/-! ### Performing loads (R270) -/

/-- A group's floors after reading a byte: the write returned, where it is co-later (R270). -/
def State.raiseFloor (s : State) (f : Map Nat) (loc id : Nat) : Map Nat := mset 0 f loc (s.later (mget 0 f loc) id)

/-- Reads bytes as an agent: the bytes, the agent's floors after, and the views that the writes carried. -/
def loadBytes (s : State) (a : Who) (cut : Nat) : List Nat → List Nat → Map Nat → List Byte × Map Nat × List View
  | pa :: ps, loc :: ls, f =>
    let (id, b) := s.loadByte a f cut pa loc
    let (bs, f', vs) := loadBytes s a cut ps ls (s.raiseFloor f loc id)
    (b :: bs, f', s.viewsOf id ++ vs)
  | _, _, f => ([], f, [])

/-- An acquire joins the views it reads; another load keeps them for `FENCE.acq` (R273, R274). -/
def Group.takeViews (g : Group) (s : State) (a : Who) (acq : Bool) (sc : Scope) (vs : List View) : Group :=
  if acq then { g with floors := s.acquire a sc g.floors vs } else { g with readViews := g.readViews ++ vs }

/-- The bytes that an operation reads at a local store or its shadow. -/
def State.storeRead (s : State) (x : MemOp) : List Byte :=
  if x.pas = [] then x.locs.map fun l => mget 0 s.lstore (l - 2 ^ 63) else x.pas.map s.byte

def putStore : List Nat → List Byte → Map Byte → Map Byte
  | l :: ls, b :: bs, m => putStore ls bs (mset 0 m (l - 2 ^ 63) b)
  | _, _, m => m

/-- The units that local-store locations lie in are dirty (R385). -/
def touchUnits (n : Nat) (ls : List Nat) (d : Map Nat) : Map Nat := ls.foldl (fun d l => mset 0 d (dirtyKey (l - 2 ^ 63)) n) d

/-- Written bytes at physical addresses. -/
def wbytes : List Nat → List Nat → List Byte → List WByte
  | pa :: ps, l :: ls, b :: bs => { pa := pa, loc := l, new := b } :: wbytes ps ls bs
  | _, _, _ => []

/-- Writes bytes at a local store, or at a hole's shadow, in one step (R267, R287). -/
def State.storeWrite (s : State) (w : Who) (x : MemOp) (bs : List Byte) : State :=
  if x.pas = [] then { s with lstore := putStore x.locs bs s.lstore, dirty := touchUnits s.nextId x.locs s.dirty }
  else { s with nextId := s.nextId + 1 }.drainWrite s.nextId w .dev (wbytes x.pas x.pas bs) []

/-! ### The store buffer (R260, R267, R268) -/

def sectorKeys (e : SbEntry) : List Nat := (e.bytes.map fun b => e.blk * 2 ^ 64 + b.pa / 32).eraseDups

/-- The 32-byte sectors that entries occupy; stores of one block to one sector share an entry (R260). -/
def sectorCount (es : List SbEntry) : Nat := (es.flatMap sectorKeys).eraseDups.length

/-- The sector entry of the oldest store of a block still in its EP's buffer moves to the overflow region, with every store that
has merged into it. -/
def overflowOne (blk : Nat) (es : List SbEntry) : Option (List SbEntry) :=
  match es.find? fun e => e.blk == blk && !e.ovf with
  | none => none
  | some o => some (es.map fun e => if shares (sectorKeys e) (sectorKeys o) then { e with ovf := true } else e)

/-- Moves oldest entries of a block until its EP has room, at most n of them. -/
def makeRoom (blk ep need : Nat) : Nat → List SbEntry → Option (List SbEntry)
  | 0, _ => none
  | n + 1, es =>
    if sectorCount (es.filter fun e => e.ep == ep && !e.ovf) + need ≤ 2048 then some es
    else
      match overflowOne blk es with
      | none => none
      | some es => makeRoom blk ep need n es

/-- Where a store goes: into the entry that its sector has already, in the buffer or in the overflow region, or into a new one, for
which room is made (R260). -/
def sbRoom (e : SbEntry) (sb : List SbEntry) : Option (List SbEntry × SbEntry) :=
  match sb.find? fun x => shares (sectorKeys x) (sectorKeys e) with
  | some x => some (sb, { e with ovf := x.ovf })
  | none => (makeRoom e.blk e.ep (sectorKeys e).length (sb.length + 1) sb).map fun es => (es, e)

/-- The bytes of an overflow slot: a sector, its mask and its tag (log 15). -/
def ovfSlot : Nat := 64

/-- Whether a block's overflow region holds its moved entries. -/
def ovfFits (s : State) (blk : Nat) (es : List SbEntry) : Bool :=
  match s.block? blk with
  | some b => decide (sectorCount (es.filter fun e => e.blk == blk && e.ovf) * ovfSlot ≤ b.ovUnits * 4096)
  | none => true

/-- A store enters its block's buffer as the newest entry for its bytes; none where there is no room. A restartable block that
would exceed its overflow region commits first (R260, R267). The Boolean says whether the store has entered. -/
def State.sbInsert (s : State) (g : Group) (e : SbEntry) : Option (State × Bool) :=
  match sbRoom e s.sb with
  | some (es, e) =>
    if ovfFits s e.blk es then some ({ s with sb := es ++ [e] }, true)
    else if s.restartable e.blk then
      match s.gate g true with
      | some s => some (s, false)
      | none =>
      let s := (s.commitBlock e.blk).modTenant g.part g.tenant fun t => { t with fcmt := sat32 (t.fcmt + 1) }
      some ({ s with sb := s.sb ++ [{ e with committed := true }] }, true)
    else none
  | none => none

/-- The views of an operation's write: those of earlier fences, and its own where it is a release (R272, R274). -/
def ownViews (w : Who) (g : Group) (x : MemOp) : List View :=
  x.views ++ (if x.rel then [{ who := w, sc := x.sc, fl := g.floors }] else [])

/-- A release at `.host` raises what it covers to `.host` (R280). -/
def State.releaseUp (s : State) (sc : Scope) (f : Map Nat) : State :=
  if sc = .host then { s with co := raiseWrites (fun w => f.any fun (_, id) => id == w.id) .host s.co } else s

/-! ### Atomics (R189, R271) -/

def sxN (w x : Nat) : Int := if bitOf x (w - 1) then (x : Int) - 2 ^ w else (x : Int)

/-- The new value of an atomic at the width of its type (R189). -/
def atomNew (t : Ty) (op : AtomOp) (f : Bool) (old v cmp : Nat) : Nat :=
  let w := 8 * tyBytes t
  let lt := fun a b => if signedTy t then decide (sxN w a < sxN w b) else decide (a < b)
  match op with
  | .add => if f then fmtF32.rne (Ext.add false (fmtF32.decode old) (fmtF32.decode v)) else (old + v) % 2 ^ w
  | .min =>
    if f then (fminmax .f32 false (BitVec.ofNat 64 old) (BitVec.ofNat 64 v)).toNat else if lt v old then v else old
  | .max =>
    if f then (fminmax .f32 true (BitVec.ofNat 64 old) (BitVec.ofNat 64 v)).toNat else if lt old v then v else old
  | .and => old &&& v
  | .or => old ||| v
  | .xor => old ^^^ v
  | .exch => v
  | .cas => if old = cmp then v else old

/-- The entries of a block that must drain before some locations are read: those that touch them, and older ones in their way. -/
def drainSet (blk : Nat) : List SbEntry → List Nat → List SbEntry
  | [], _ => []
  | e :: older, locs =>
    let mine := e.bytes.map fun b => b.loc
    if e.blk = blk && e.committed && shares mine locs then drainSet blk older (mine ++ locs) ++ [e]
    else drainSet blk older locs

/-- The co-last write to a location with its byte; 0 and the initial contents where there is none (R271). -/
def State.lastWrite (s : State) (pa loc : Nat) : Nat × Byte := (lastHit (fun _ => true) pa loc s.co none).getD (0, s.initialByte pa)

/-! ### Performing -/

/-- The numeric value of bytes as a result of a load. -/
def resultOf (n : Nat) (sext : Bool) (bs : List Byte) : Word64 := loadExt n sext (valueLE bs)

/-- A lane's operation leaves the queue without a result. -/
def Group.abandon (g : Group) (x : MemOp) : Group :=
  { g with iq := dropKey (fun y => y.id) x.id g.iq }.withdraw x.instr (1#32 <<< x.lane)

/-- Performs a lane access of the queue; no result where the machine may not take the step (R266 to R271). -/
def State.performAccess (s : State) (g : Group) (x : MemOp) (cut : Nat) : Option State :=
  let w := s.who g
  let g1 := { g with iq := dropKey (fun y => y.id) x.id g.iq }
  match x.kind with
  | .load n sext =>
    if x.pas.any s.poisoned then some (s.consumeAt (g.abandon x) 0 x.pas)
    else
      let (bs, f, vs) := loadBytes s w cut x.pas x.locs g.floors
      let g2 := { g1 with floors := f }.takeViews s w x.acq x.sc vs
      some (s.setGroup (g2.answer x.instr x.lane (resultOf n sext (s.linked g.part x.pas bs))))
  | .store data =>
    if x.rel && !(s.mayRelease x.sc g.floors) then none
    else
      let bs := wbytes x.pas x.locs data
      let s := if x.rel then s.releaseUp x.sc g.floors else s
      let e : SbEntry :=
        { id := x.id, blk := g.block, ep := g.ep, who := w, bytes := bs, committed := !(s.restartable g.block),
          views := ownViews w g x }
      (s.sbInsert g e).map fun (s, done) => if done then s.setGroup { g1 with floors := floorsTo x.id bs g.floors } else s
  | .atom t op f v cmp ret =>
    if x.pas.any s.poisoned then some (s.consumeAt (g.abandon x) 0 x.pas)
    else if x.rel && !(s.mayRelease x.sc g.floors) then none
    else
      let s := if x.rel then s.releaseUp x.sc g.floors else s
      let s := s.drainAll .blk [] (drainSet g.block s.sb.reverse x.locs)
      let last := x.pas.zipWith s.lastWrite x.locs
      let old := valueLE (s.linked g.part x.pas (last.map fun y => y.2))
      let vs := ((last.map fun y => y.1).eraseDups).flatMap s.viewsOf
      let bs := wbytes x.pas x.locs (bytesLE (atomNew t op f old v.toNat cmp.toNat) (tyBytes t))
      let s := if s.discards g.part x.pas then s else s.drainWrite x.id w x.sc bs (vs ++ ownViews w g x)
      let g2 := { g1 with floors := floorsTo x.id bs g.floors }
      let g3 := if ret then g2.takeViews s w x.acq x.sc vs else g2
      some (s.setGroup (if ret then g3.answer x.instr x.lane (resultOf (tyBytes t) (signedTy t) (bytesLE old (tyBytes t))) else g3))
  | .lds n sext =>
    if x.pas.any s.poisoned then some (s.consumeAt (g.abandon x) 0 x.pas)
    else some (s.setGroup (g1.answer x.instr x.lane (resultOf n sext (s.storeRead x))))
  | .sts data => some ((s.storeWrite w x data).setGroup g1)
  | .atoms t op f v cmp =>
    if x.pas.any s.poisoned then some (s.consumeAt (g.abandon x) 0 x.pas)
    else
      let old := valueLE (s.storeRead x)
      let s := s.storeWrite w x (bytesLE (atomNew t op f old v.toNat cmp.toNat) (tyBytes t))
      some (s.setGroup (g1.answer x.instr x.lane (resultOf (tyBytes t) (signedTy t) (bytesLE old (tyBytes t)))))
  | .ldc n sext =>
    let c := max (match s.launch? g.launch with | some l => l.coStart | none => 0) cut
    if x.pas.any s.poisoned then some (s.consumeAt (g.abandon x) 0 x.pas)
    else some (s.setGroup (g1.answer x.instr x.lane (resultOf n sext
      (s.linked g.part x.pas (x.pas.map fun pa => s.byteAt (s.descCut g c pa) pa)))))
  | _ => none

/-! ### Host and CXL memory in a lockstep partition (R419, R420) -/

/-- Whether an operation takes data of memory, and the operands of an atomic. -/
def takesData (x : MemOp) : Bool :=
  match x.kind with
  | .load .. => true
  | .atom .. => true
  | .ldc .. => true
  | .launch _ => true
  | _ => false

def atomOperands (x : MemOp) : Option (List Byte × Bool) :=
  match x.kind with
  | .atom _ _ _ v cmp ret => some (bytesLE (x.pas.headD 0) 8 ++ bytesLE v.toNat 8 ++ bytesLE cmp.toNat 8, ret)
  | _ => none

/-- What an operation waits for that takes data of host or CXL memory: an atomic for its signature point, and then, or a load at once, for
the cycle at which the data count on both packages; none where it may be performed. -/
def State.linkWait (s : State) (g : Group) (x : MemOp) : Option State :=
  if !(takesData x && s.offPackage g.part x.pas) then none
  else if x.due ≠ 0 then (if s.clock < x.due then some s else none)
  else
    match atomOperands x with
    | none => some (s.setGroup { g with iq := modifyKey (fun y => y.id) x.id (fun y => { y with due := s.clock + 8192 }) g.iq })
    | some (bs, _) =>
      if s.sigs.any fun y => y.act == .atom g.id x.id bs then some s
      else some { s with nextId := s.nextId + 1
                         sigs := s.sigs ++ [{ id := s.nextId, part := g.part, gid := 0, sig := crc32 bs, act := .atom g.id x.id bs }] }

/-- The signature point of an atomic has passed: its request leaves, and what it returns counts 8,192 cycles later. -/
def State.atomPassed (s : State) (gid op : Nat) : State :=
  match s.group? gid with
  | none => s
  | some g =>
    let f : MemOp → MemOp := fun x =>
      { x with due := match atomOperands x with | some (_, true) => s.clock + 8192 | _ => max 1 s.clock }
    s.setGroup { g with iq := modifyKey (fun y => y.id) op f g.iq }

end Sys2Proof.Machine
end

