-- ==== Sys2Proof/Machine/Header.lean ====
section
/-! DEFINITION. Launch headers as they stand in memory, and the checks of the dispatcher (R10, R68, R119 to R122). -/

namespace Sys2Proof.Machine

/-- A number's bits by 16-byte entries from a byte offset. -/
def entryAt (x off i : Nat) : Nat := bits x (8 * (off + 16 * i) + 127) (8 * (off + 16 * i))

def depOf (e : Nat) : Dep := { kind := bits e 95 94, idx := bits e 75 64, val := bits e 63 0 }

def stageOf (e : Nat) : Stage :=
  { maxB := bits e 95 80, minB := bits e 79 64, lst := bits e 44 26, rg8 := bits e 25 20, entry := bits e 19 0, raw := e }

/-- The field widths of WFW. -/
def widthsOf (w : Nat) : List Nat := [bits w 2 0, bits w 5 3, bits w 12 6, bits w 19 13, bits w 26 20, bits w 33 27]

/-- A 640-byte launch header, read (R119 to R121). -/
def parseHeader (bs : List Byte) : LHdr :=
  let x := valueLE bs
  let deps := (range 0 4).map fun i => entryAt x 64 i
  let stages := (range 0 8).map fun i => entryAt x 128 i
  let chans := (range 0 64).map fun i => bits x (8 * (256 + 2 * i) + 15) (8 * (256 + 2 * i))
  let banks := (range 0 16).map fun i => entryAt x 384 i
  { reservedZero :=
      bits x 511 320 == 0 && bits x 255 240 == 0 && bits x 191 166 == 0 && bits x 127 124 == 0
        && deps.all (fun e => bits e 127 96 == 0 && bits e 93 76 == 0)
        && stages.all (fun e => bits e 127 96 == 0 && bits e 63 45 == 0)
        && chans.all (fun e => bits e 15 13 == 0) && banks.all fun e => bits e 127 96 == 0
    eest := bits x 319 288
    seed := BitVec.ofNat 32 (bits x 287 256)
    npat := bits x 239 192
    ph := bits x 165 164 + 1
    pw := bits x 163 162 + 1
    wf := widthsOf (bits x 161 128)
    groups := bits x 123 119 + 1
    nstg := bits x 118 115
    lst := bits x 114 96
    prio := bits x 95 91
    rst := bitOf x 90
    rg8 := bits x 89 84
    entry := bits x 83 64
    code := bits x 63 0
    deps := deps.map depOf
    stages := stages.map stageOf
    chans := chans.map fun e => bits e 12 0
    banks := banks.map fun e => (bits e 63 0, bits e 95 64) }

/-- The widths meet R10. -/
def widthsOk (w : List Nat) : Bool := decide (w.getD 0 0 ≤ 5) && decide (w.getD 1 0 ≤ 4) && decide (wfBase w 6 ≤ 64)

/-- Lane registers and local-store bytes that R16, R68 and the store allow. -/
def sizesOk (rg8 lst : Nat) : Bool := decide (2 ≤ rg8) && decide (rg8 ≤ 32) && decide (lst ≤ 393216)

/-- A dependence that R354 accepts; engines 0 to 7 only in a header given to `LAUNCH`. -/
def depOk (device : Bool) (d : Dep) : Bool :=
  match d.kind with
  | 0 => true
  | 1 => true
  | 2 => d.idx == 8 || (device && decide (d.idx < 8))
  | _ => false

/-- The checks of R122, the reserved fields of R5 and the alignment of the code segment and of the constant banks. With stages the
core's ENTRY, RG8 and LST are not used, and not checked (log 98). -/
def LHdr.ok (h : LHdr) (device : Bool) : Bool :=
  h.reservedZero && widthsOk h.wf
    && decide (h.groups ≤ 2 ^ h.wf.getD 0 0) && decide (h.pw * h.ph ≤ 2 ^ h.wf.getD 1 0)
    && decide (h.npat ≠ 0) && decide (h.npat ≤ 2 ^ (wfBase h.wf 6 - wfBase h.wf 2))
    && decide (h.nstg ≤ 8)
    && (if h.nstg = 0 then sizesOk h.rg8 h.lst && decide (h.entry < 1048576) else true)
    && (h.stages.take h.nstg).all (fun t =>
        sizesOk t.rg8 t.lst && decide (t.entry < 1048576) && decide (t.minB ≠ 0) && decide (t.minB ≤ t.maxB))
    && (h.stages.drop h.nstg).all (fun t => t.raw == 0)
    && h.deps.all (depOk device)
    && h.code % 4096 == 0
    && h.chans.all (fun d => decide (d ≤ 4096))
    && h.banks.all fun b => b.1 % 64 == 0 && decide (b.2 ≤ 65536)

end Sys2Proof.Machine
end

