-- ==== Sys2Proof/Machine/Mem.lean ====
section
/-! DEFINITION. The memory instructions of spec/08 R185 to R196, and the drain and raise steps (R268, R269). -/

namespace Sys2Proof.Machine

/-! ### Loads and stores (R187, R190, R192) -/

/-- The result place of a load of a type. -/
def resDst (t : Ty) : Dst → ResDst
  | .lane r => .lane r.toNat (wideTy t)
  | .uni r => .uni r.toNat

/-- The bytes that a lane stores (R187). -/
def storeBytes (t : Ty) (d : BitVec 8) (g : Group) (l : Nat) : List Byte :=
  bytesLE (g.laneW (wideTy t) d.toNat l).toNat (tyBytes t)

/-- Ordering at a scope wider than `.blk` (R184). -/
def widerThanBlk (sc : Scope) : Bool := !(scopeLe sc .blk)

def releases (o : Ord) : Bool := o == .rel || o == .ar
def acquires (o : Ord) : Bool := o == .acq || o == .ar

def execLd (c : Ctl) (t : Ty) (sc : Scope) (o : Ord) (d : Dst) (base : BitVec 6) (ix : MemIx) (s : State) : Out :=
  accIssue (.ld c t sc o d base ix) c
    { sp := .dev base ix, t := t, rd := true, dst := resDst t d, uni := Dst.isUni d, acq := acquires o, sc := sc }
    (fun _ _ => .load (tyBytes t) (signedTy t)) s

def execSt (c : Ctl) (t : Ty) (sc : Scope) (o : Ord) (d : BitVec 8) (base : BitVec 6) (ix : MemIx) (s : State) : Out :=
  accIssue (.st c t sc o d base ix) c
    { sp := .dev base ix, t := t, wr := true, rel := releases o, sc := sc, commits := releases o && widerThanBlk sc }
    (fun g l => .store (storeBytes t d g l)) s

def execLds (c : Ctl) (t : Ty) (w : Win) (d : Dst) (a : RSrc) (ix : MemIx) (s : State) : Out :=
  accIssue (.lds c t w d a ix) c
    { sp := .store w a ix, t := t, rd := true, dst := resDst t d, uni := Dst.isUni d }
    (fun _ _ => .lds (tyBytes t) (signedTy t)) s

def execSts (c : Ctl) (t : Ty) (w : Win) (d : BitVec 8) (a : RSrc) (ix : MemIx) (s : State) : Out :=
  accIssue (.sts c t w d a ix) c
    { sp := .store w a ix, t := t, wr := true, commits := w != .own }
    (fun g l => .sts (storeBytes t d g l)) s

def execLdc (c : Ctl) (t : Ty) (d : Dst) (ix : RSrc) (bank : BitVec 4) (off : BitVec 32) (s : State) : Out :=
  accIssue (.ldc c t d ix bank off) c
    { sp := .bank bank off ix, t := t, rd := true, dst := resDst t d, uni := Dst.isUni d }
    (fun _ _ => .ldc (tyBytes t) (signedTy t)) s

/-- `PREF.tb` starts fills of the translations at its lanes' addresses; a fill of a line is invisible; neither faults (R187). -/
def execPref (c : Ctl) (tb : Bool) (base : BitVec 6) (ix : MemIx) (s : State) : Out :=
  issue (.pref c tb base ix) c s fun g p sec =>
    if g.fenceHeld p then .next s
    else
      let a : Acc := { sp := .dev base ix, t := .n8 }
      .next (advance (if tb then s.noteLanes g a (lanesOf (guardOf g p c)) else s) g p sec)

/-! ### Atomics (R188, R189, R192) -/

/-- The value and compare operands of an atomic in a lane. -/
def atomVals (t : Ty) (g : Group) (l : Nat) : AtomVal → Word64 × Word64
  | .imm v => ((v.signExtend 64) &&& BitVec.ofNat 64 (2 ^ (8 * tyBytes t) - 1), 0)
  | .reg v k =>
    let m := BitVec.ofNat 64 (2 ^ (8 * tyBytes t) - 1)
    (rsrcVal g (wideTy t) v l &&& m, rsrcVal g (wideTy t) k l &&& m)

def execAtom (c : Ctl) (t : Ty) (sc : Scope) (o : Ord) (d : Dst) (base : BitVec 6) (ix : Option (BitVec 8)) (op : AtomOp)
    (f : Bool) (v : AtomVal) (s : State) : Out :=
  accIssue (.atom c t sc o d base ix op f v) c
    { sp := .dev base (atomIx ix), t := t, rd := true, wr := true, dst := resDst t d, uni := Dst.isUni d, acq := acquires o,
      rel := releases o, sc := sc, commits := true, noted := true }
    (fun g l => .atom t op f (atomVals t g l v).1 (atomVals t g l v).2 true) s

def execAtoms (c : Ctl) (t : Ty) (w : Win) (d : Dst) (a : RSrc) (ix : Option (BitVec 8)) (op : AtomOp) (f : Bool)
    (v : AtomVal) (s : State) : Out :=
  accIssue (.atoms c t w d a ix op f v) c
    { sp := .store w a (atomIx ix), t := t, rd := true, wr := true, dst := resDst t d, uni := Dst.isUni d,
      commits := w != .own, noted := true }
    (fun g l => .atoms t op f (atomVals t g l v).1 (atomVals t g l v).2) s

def execRed (c : Ctl) (t : Ty) (sc : Scope) (o : Ord) (base : BitVec 6) (ix : Option (BitVec 8)) (op : AtomOp) (f : Bool)
    (v : AtomVal) (s : State) : Out :=
  accIssue (.red c t sc o base ix op f v) c
    { sp := .dev base (atomIx ix), t := t, rd := true, wr := true, rel := releases o, sc := sc, commits := true, noted := true }
    (fun g l => .atom t op f (atomVals t g l v).1 (atomVals t g l v).2 false) s

/-! ### Ordering instructions (R193, R194) -/

/-- Queues an operation of the whole group, with a flag that falls when it is performed. -/
def queueOne (s : State) (g : Group) (p : Path) (sec : Bool) (flag : Option Nat) (dst : ResDst) (x : MemOp) : State :=
  let k := s.nextId
  let g := if flag = none && dst = .none then g else g.begin k flag dst 1
  let (s, g) := { s with nextId := k + 1 }.enqueue g [{ x with instr := k, thr := p.thr, hist := p.hist }]
  advance s g p sec

def execFence (c : Ctl) (o : Ord) (sc : Scope) (s : State) : Out :=
  issue (.fence c o sc) c s fun g p sec =>
    if g.fenceHeld p then .next s
    else if guardOf g p c = 0 then .next (advance s g p sec)
    else
      let com := releases o && widerThanBlk sc
      .next (queueOne s (if com then g.noteCommit s else g) p sec (flagOf p c) .none
        { id := 0, instr := 0, lane := 0, thr := 0, hist := [], com := com, sc := sc, kind := .fence o })

def execAfence (c : Ctl) (sc : Scope) (s : State) : Out :=
  issue (.afence c sc) c s fun g p sec =>
    if g.fenceHeld p then .next s
    else if guardOf g p c = 0 then .next (advance s g p sec)
    else
      .next (queueOne s (if widerThanBlk sc then g.noteCommit s else g) p sec (flagOf p c) .none
        { id := 0, instr := 0, lane := 0, thr := 0, hist := [], com := widerThanBlk sc, sc := sc, kind := .afence })

def execCommit (c : Ctl) (s : State) : Out :=
  issue (.commit c) c s fun g p sec =>
    if g.fenceHeld p then .next s
    else if guardOf g p c = 0 then .next (advance s g p sec)
    else
      .next (queueOne s g.note p sec (flagOf p c) .none
        { id := 0, instr := 0, lane := 0, thr := 0, hist := [], sc := .dev, kind := .commit })

/-- A load, returning atomic or receive whose value `FENCE.acq` waits for; a completed wait has its value and has left the queue
(R193, log 105). -/
def isValue (x : MemOp) : Bool :=
  match x.kind with
  | .load .. => true
  | .lds .. => true
  | .ldc .. => true
  | .dstep => true
  | .atom _ _ _ _ _ ret => ret
  | .atoms .. => true
  | .recv .. => true
  | _ => false

/-- The group's writes, and its earlier engine commands, are performed at a scope (R193). -/
def State.performedAt (s : State) (g : Group) (sc : Scope) : Bool :=
  s.co.all (fun w => !(w.who.gid == g.id && w.who.ext == 0 && w.copyOf.isNone) || scopeLe (scopeMin sc w.home) w.lvl)
    && !(s.cmds.any fun c => c.gid == g.id && c.status == 0)

/-- The group's floors after every write that is visible to it, and performed at `sc`, has raised them (R274, R278); what its own
`AFENCE` entered is in no floor of its own. -/
def State.raiseVisible (s : State) (a : Who) (sc : Scope) (f : Map Nat) : Map Nat :=
  s.co.foldl (fun f w => if w.visible a && scopeLe (sBetween w.who a) sc && !(w.copyOf.isSome && w.who.gid == a.gid) then
    w.bytes.foldl (fun f b => s.raiseFloor f b.key w.id) f else f) f

/-- A finished fence leaves the queue, and its flag falls. -/
def Group.finish (g : Group) (x : MemOp) : Group := { g with iq := dropKey (fun y => y.id) x.id g.iq }.withdraw x.instr 1

/-- A release fence's view replaces those of narrower scope that later stores would carry (R274). -/
def addFenceView (v : View) (vs : List View) : List View := vs.filter (fun u => !(scopeLe u.sc v.sc)) ++ [v]

/-- Performs a fence (R193, R274). -/
def State.performFence (s : State) (g : Group) (x : MemOp) (o : Ord) : Option State :=
  let w := s.who g
  let es := earlier x g.iq
  let rel := releases o
  let acq := acquires o
  if rel && !(es.isEmpty && s.mayRelease x.sc g.floors && s.performedAt g x.sc) then none
  else if acq && es.any isValue then none
  else
    let s := if rel then s.releaseUp x.sc g.floors else s
    let g := g.finish x
    let v : View := { who := w, sc := x.sc, fl := g.floors }
    let g := if rel then { g with fenceViews := addFenceView v g.fenceViews } else g
    let g := if acq then { g with floors := s.acquire w x.sc g.floors g.readViews } else g
    let g := if o = .ar then { g with floors := s.raiseVisible w .fab g.floors } else g
    some ((s.setGroup g).settle g.id)

/-- Whether a write is one of a group's. -/
def Write.ofGroup (w : Write) (gid : Nat) : Bool := w.who.gid == gid && w.who.ext == 0

/-- The write of a group entered again under every other alias of its page, drained and at a level (R278, log 100). -/
def Write.copy (w : Write) (id : Nat) (sc : Scope) : Write :=
  { w with id := id, lvl := scopeMax .blk (capLevel sc w.home), views := [], copyOf := some w.id,
           bytes := w.bytes.map fun b => { b with all := true } }

/-- The writes of a group that no `AFENCE` of it has entered again; a write at a physical address names every alias already. -/
def State.notCopied (s : State) (gid : Nat) : List Write :=
  s.co.filter fun w => w.ofGroup gid && w.copyOf.isNone && w.bytes.any (fun b => !(physLoc b.loc))
    && !(s.co.any fun c => c.copyOf == some w.id)

/-- The uncommitted stores of a group that no `AFENCE` of it has entered again. -/
def State.sbNotCopied (s : State) (gid : Nat) : List SbEntry :=
  s.sb.filter fun e => e.who.gid == gid && e.copyOf.isNone && e.bytes.any (fun b => !(physLoc b.loc))
    && !(s.sb.any fun c => c.copyOf == some e.id)

/-- An uncommitted store entered again, uncommitted as it is. -/
def SbEntry.copy (e : SbEntry) (id : Nat) : SbEntry :=
  { e with id := id, views := [], copyOf := some e.id, bytes := e.bytes.map fun b => { b with all := true } }

/-- The writer's part of `AFENCE`: its earlier writes are entered under their other aliases, and all of them raised (R278); those of a
restartable block that it does not commit are entered beside them in the store buffer. -/
def State.enterAliases (s : State) (gid : Nat) (sc : Scope) : State :=
  let ws := s.notCopied gid
  let es := s.sbNotCopied gid
  let new := (range s.nextId ws.length).zipWith (fun id (w : Write) => w.copy id sc) ws
  let news := (range (s.nextId + ws.length) es.length).zipWith (fun id (e : SbEntry) => e.copy id) es
  { s with nextId := s.nextId + ws.length + es.length, co := raiseWrites (fun v => v.ofGroup gid) sc s.co ++ new, sb := s.sb ++ news }

/-- Performs an alias fence: the earlier stores have drained; as a writer it enters them under their other aliases and raises
them, as a reader it raises its floors (R193, R278). -/
def State.performAfence (s : State) (g : Group) (x : MemOp) : Option State :=
  let w := s.who g
  if !(earlier x g.iq).isEmpty || s.sb.any fun e => e.who.gid == g.id && e.committed then none
  else
    let s := s.enterAliases g.id x.sc
    let g := g.finish x
    some ((s.setGroup { g with floors := s.raiseVisible w x.sc g.floors }).settle g.id)

/-- The instructions that store to device memory. -/
def storesMem : Instr → Bool
  | .st .. => true
  | .atom .. => true
  | .red .. => true
  | _ => false

/-- A store of a block, issued before an identity, some of whose lanes wait for their fault (R183). -/
def State.storeParked (s : State) (blk id : Nat) (f : FaultEntry) : Bool :=
  match f.target with
  | .lanes gid i _ _ op =>
    storesMem i && op != 0 && decide (op < id) && (match s.group? gid with | some g => g.block == blk | none => false)
  | _ => false

/-- Whether every store of a block issued before an identity has been performed at `.dev` (R194). -/
def State.storesDone (s : State) (blk id : Nat) : Bool :=
  !((s.faults ++ s.groups.flatMap fun g => g.faults).any (s.storeParked blk id)) && (s.groups.all fun g => !(g.block == blk) || g.iq.all fun x =>
      !(match x.kind with | .store _ => decide (x.id < id) | .atom .. => decide (x.id < id) | _ => false))
    && s.sb.all (fun e => !(e.blk == blk && decide (e.id < id)))
    && s.co.all fun w => !(w.who.blk == blk && w.who.gid != 0 && decide (w.id < id)) || scopeLe .dev w.lvl

/-- Performs `COMMIT` (R194). -/
def State.performCommit (s : State) (g : Group) (x : MemOp) : Option State :=
  if s.restartable g.block then
    if !(earlier x g.iq).isEmpty then none
    else
      match s.gate g false with
      | some s => some s
      | none => some (((s.setGroup (g.finish x)).commitBlock g.block).settle g.id)
  else if s.storesDone g.block x.id then some ((s.setGroup (g.finish x)).settle g.id)
  else none

/-! ### Flashback points (R195) -/

/-- The values of registers as a snapshot. -/
def snapLanes (g : Group) (first n : Nat) : Map Word32 :=
  g.v.filter fun (k, _) => decide (first ≤ k / 32) && decide (k / 32 < first + n)

def snapUnis (g : Group) (first n : Nat) : Map Word64 := g.s.filter fun (k, _) => decide (first ≤ k) && decide (k < first + n)

/-- `MARK` has no effect in a divergent group; else it waits for the flags and records the point (R195). -/
def execMark (c : Ctl) (nl : BitVec 5) (a : BitVec 8) (nu : BitVec 5) (b : BitVec 6) (disp : BitVec 24) (s : State) : Out :=
  issue (.mark c nl a nu b disp) c s fun g p sec =>
    if guardOf g p c = 0 then .next (advance s g p sec)
    else if (g.p0.isSome && g.p1.isSome) || !(g.stack.isEmpty) || !(g.recs.isEmpty) then .next (advance s g p sec)
    else if !(g.allClear) then .next s
    else
      let pt : Point :=
        { cont := p.pc + 1, recipe := p.pc + disp.signExtend 64, mask := p.mask, vregs := snapLanes g a.toNat nl.toNat,
          sregs := snapUnis g b.toNat nu.toNat, p := g.p, q := g.q, gAlu := g.gAlu, gFma := g.gFma, srseed := g.srseed }
      .next (advance s { g with point := some pt, sinceMark := false } p sec)

/-! ### The machine's own steps on writes -/

/-- Whether the write of an entry leaves the package's HBM from a lockstep partition (R420). -/
def State.leaves (s : State) (e : SbEntry) : Bool :=
  (s.part e.who.part).lockstep && (match e.bytes with | b :: _ => homeOf b.pa != .dev | [] => false)

/-- Its signature point, over the destination and the payload. -/
def State.drainPoint (s : State) (e : SbEntry) : State :=
  if s.sigs.any fun x => x.act == .drain e.id then s
  else
    let bs := bytesLE (match e.bytes with | b :: _ => b.pa | [] => 0) 8 ++ e.bytes.map fun b => b.new
    { s with nextId := s.nextId + 1, sigs := s.sigs ++ [{ id := s.nextId, part := e.who.part, gid := 0, sig := crc32 bs, act := .drain e.id }] }

/-- Drains a committed store-buffer entry whose block has no older one for any of its locations (R268). -/
def execStoreBufferDrain (entry : Nat) (s : State) : Out :=
  match s.sb.find? fun e => e.id == entry with
  | none => .next s
  | some e =>
    let older := s.sb.takeWhile fun x => x.id != entry
    if e.committed && !(older.any fun x => x.blk == e.blk && shares (x.bytes.map fun b => b.loc) (e.bytes.map fun b => b.loc))
    then .next (if s.leaves e then s.drainPoint e else s.drainEntry e .blk [])
    else .next s

def scopeUp : Scope → Scope
  | .grp => .blk | .blk => .pch | .pch => .quad | .quad => .part | .part => .dev | .dev => .host | .host => .pool
  | .pool => .fab | .fab => .fab

/-- Raises a drained write's level by one scope, up to its home's (R269). -/
def execPropagationLevelRaise (w : Nat) (s : State) : Out :=
  .next { s with co := s.co.map fun x => if x.id = w && !(scopeLe x.home x.lvl) then { x with lvl := scopeUp x.lvl } else x }

end Sys2Proof.Machine
end

