-- ==== Sys2Proof/Machine/Objects.lean ====
section
/-! DEFINITION. Barrier and ring objects: their fields, what the barrier and ring rules and the engines do to them, and who
resumes (R106 to R109, R199 to R203, R214). -/

namespace Sys2Proof.Machine

/-! ### Fields (R106, R108) -/

/-- Replaces bits [hi:lo] of a value. -/
def setBits (v hi lo x : Nat) : Nat := v - bits v hi lo * 2 ^ lo + x % 2 ^ (hi + 1 - lo) * 2 ^ lo

def State.objVal (s : State) (o : Obj) : Nat := valueLE (s.lsBytes o.ep o.off 16)
def State.setObj (s : State) (o : Obj) (v : Nat) : State := s.setLsBytes o.ep o.off (bytesLE v 16)
def State.modObj (s : State) (o : Obj) (f : Nat → Nat) : State := s.setObj o (f (s.objVal o))

def barEcnt (v : Nat) : Nat := bits v 111 96
def barWtrs (v : Nat) : Nat := bits v 95 80
def barSect (v : Nat) : Nat := bits v 79 56
def barExps (v : Nat) : Nat := bits v 55 32
def barPend (v : Nat) : Nat := bits v 31 20
def barExpa (v : Nat) : Nat := bits v 19 8
def barPh (v : Nat) : Nat := bits v 3 0

def ringRl (v : Nat) : Nat := bits v 123 112
def ringRd (v : Nat) : Nat := bits v 111 100
def ringPb (v : Nat) : Nat := bits v 99 88
def ringWr (v : Nat) : Nat := bits v 87 76
def ringCnt (v : Nat) : Nat := bits v 74 64 + 1
def ringSz (v : Nat) : Nat := (bits v 63 56 + 1) * 32
def ringBase (v : Nat) : Nat := bits v 55 37
def ringEng (v : Nat) : Bool := bitOf v 3

/-- The offset of the slot that an index names (R109). -/
def ringSlot (v n : Nat) : Nat := ringBase v + n % ringCnt v * ringSz v

/-- The next index, modulo 2·CNT. -/
def ringNext (v n : Nat) : Nat := (n + 1) % (2 * ringCnt v)

/-- Whether the ring has a free slot, and whether it has a published one (R203). -/
def ringFree (v : Nat) : Bool := decide ((ringWr v + 2 * ringCnt v - ringRl v) % (2 * ringCnt v) < ringCnt v)
def ringFull (v : Nat) : Bool := ringRd v != ringPb v

/-- The object's error bits: a clobber (bit 5 of a barrier, bit 1 of a ring) or an error (bit 4, bit 0). -/
def barErr (v : Nat) : Nat := setBits v 4 4 1
def barClb (v : Nat) : Nat := setBits v 5 5 1
def ringErr (v : Nat) : Nat := setBits v 0 0 1
def ringClb (v : Nat) : Nat := setBits v 1 1 1

/-! ### The barrier rules on the bits (R199) -/

def barInit (expa : Nat) : Nat := setBits (setBits 0 19 8 expa) 31 20 expa

/-- An arrival of count n. -/
def barArrive (n v : Nat) : Nat :=
  let pend := barPend v
  if pend < n then setBits (setBits (barErr v) 111 96 (min (barEcnt v + (n - pend)) 0xFFFF)) 31 20 0
  else setBits v 31 20 (pend - n)

/-- An expectation of e sectors. -/
def barExpect (e v : Nat) : Nat :=
  let t := barExps v + e
  if 0xFFFFFF < t then setBits (barErr v) 55 32 0xFFFFFF else setBits v 55 32 t

/-- Sectors that an engine has landed. -/
def barLand (n v : Nat) : Nat :=
  let t := barSect v + n
  if 0xFFFFFF < t then setBits (barErr v) 79 56 0xFFFFFF else setBits v 79 56 t

/-- Whether complete() completes the phase. -/
def barDone (v : Nat) : Bool := barPend v == 0 && barSect v == barExps v

/-- The object after the phase has completed. -/
def barNext (v : Nat) : Nat :=
  setBits (setBits (setBits (setBits v 3 0 ((barPh v + 1) % 16)) 31 20 (barExpa v)) 79 56 0) 55 32 0

/-! ### Views on objects (R272, R273) -/

def State.addView (s : State) (o : Obj) (tag : Nat) (v : View) : State :=
  { s with objViews := s.objViews ++ [{ o := o, tag := tag, v := v }] }

def State.dropTag (s : State) (o : Obj) (tag : Nat) : State :=
  { s with objViews := s.objViews.filter fun x => !(x.o == o && x.tag == tag) }

def State.dropViews (s : State) (o : Obj) : State := { s with objViews := s.objViews.filter fun x => x.o != o }

/-- The views of the phases completed since phase `ph` (R273). -/
def State.phaseViews (s : State) (o : Obj) (ph now : Nat) : List View :=
  (s.objViews.filter fun x => x.o == o && decide ((x.tag + 16 - ph) % 16 < (now + 16 - ph) % 16)).map fun x => x.v

/-- The views of a ring index. -/
def State.slotViews (s : State) (o : Obj) (n : Nat) : List View :=
  (s.objViews.filter fun x => x.o == o && x.tag == n).map fun x => x.v

/-! ### Resuming -/

/-- Gives one result to every lane that an instruction still has to write. -/
def Group.answerAll (g : Group) (k : Nat) (v : Word64) : Group :=
  match g.out? k with
  | none => g
  | some o => (lanesOf o.pend).foldl (fun g l => g.answer k l v) g

/-- A group's operation ends with a result for all its lanes, and leaves the queue. -/
def Group.endOp (g : Group) (x : MemOp) (v : Word64) : Group :=
  { g.answerAll x.instr v with iq := dropKey (fun y => y.id) x.id g.iq }

/-- The phase of a `BWAIT` on an object that waits. -/
def waitsOn (o : Obj) (x : MemOp) : Option Nat :=
  match x.kind with
  | .bwait o' ph _ => if x.wseq != 0 && o' == o then some ph else none
  | _ => none

/-- A waiting `BWAIT` of a group on an object; a group that a machine check has stopped keeps it. -/
def Group.bwaitOn (g : Group) (o : Obj) : Option (MemOp × Nat) := g.iq.findSome? fun x => (waitsOn o x).map fun ph => (x, ph)

/-- The group's wait after it has been served: a stopped group stays stopped (R373). -/
def Wait.served (w : Wait) : Wait := if w = .stopped then .stopped else .none

/-- A waiting group resumes: with true it acquires, and WTRS has fallen by one (R201). -/
def State.resumeBwait (s : State) (g : Group) (x : MemOp) (o : Obj) (ph : Nat) (v : Bool) : State :=
  let now := barPh (s.objVal o)
  let g := { g.endOp x (if v then 1 else 0) with wait := g.wait.served }
  let g := if v then { g with floors := s.acquire (s.who g) x.sc g.floors (s.phaseViews o ph now) } else g
  (s.modObj o fun b => setBits b 95 80 (barWtrs b - 1)).setGroup g

/-- Every waiter of a list of groups that satisfies a predicate on its phase resumes. -/
def State.resumeWaiters (s : State) (o : Obj) (v : Bool) (p : Nat → Bool) : List Nat → State
  | [] => s
  | k :: r =>
    match s.group? k with
    | none => s.resumeWaiters o v p r
    | some g =>
      match g.bwaitOn o with
      | none => s.resumeWaiters o v p r
      | some (x, ph) => (if p ph then s.resumeBwait g x o ph v else s).resumeWaiters o v p r

def State.groupIds (s : State) : List Nat := s.groups.map fun g => g.id

/-- Whether an object is live; what completes into an object that is no longer live changes nothing (R107). -/
def State.objLive (s : State) (o : Obj) : Bool := s.liveAt o.ep o.off

/-- complete() (R199): the phase advances, and waiters whose phase it no longer is resume with true. -/
def State.complete (s : State) (o : Obj) : State :=
  let v := s.objVal o
  if barDone v then
    let n := (barPh v + 1) % 16
    ((s.setObj o (barNext v)).dropTag o n).resumeWaiters o true (fun ph => ph != n) s.groupIds
  else s

/-! ### The order of updates within a cycle (R200)

Landings and arrivals come first, and complete() runs once the cycle's last of them is in: when an expectation, a `BINIT` or a
`BINV` acts on the barrier, or when the clock moves on. After the cycle's last expectation it runs again. What comes later in the order
bars what comes earlier until then. -/

/-- complete() of a barrier is still to run in this cycle. -/
def State.dueAt (s : State) (o : Obj) : State := if s.objDue.contains o then s else { s with objDue := s.objDue ++ [o] }

/-- complete() runs for a barrier if it is due. -/
def State.completeDue (s : State) (o : Obj) : State :=
  if s.objDue.contains o then
    let t := { s with objDue := s.objDue.filter fun x => x != o }
    if s.objLive o then t.complete o else t
  else s

/-- An update of stage k has reached a barrier in this cycle. -/
def State.lateAt (s : State) (o : Obj) (k : Nat) : State := { s with objLate := s.objLate ++ [(o, k)] }

/-- An expectation posted in this cycle has reached a barrier: the complete() that is due is the second one. -/
def State.expected (s : State) (o : Obj) : Bool := s.objLate.any fun x => x.1 == o && x.2 == 4

/-- Whether a wait on a barrier has been overtaken by a later operation, or is `also`; it must return false (R266). -/
def mustFail (o : Obj) (also : Nat) (y : MemOp) : Bool :=
  (y.passed || y.id == also) && match softWait y with | some (o', _) => o' == o | none => false

/-- The arrivals of a group on a barrier, but for operation `but`, that come before one of its waits that must return false. -/
def Group.arrivalsBefore (g : Group) (o : Obj) (but also : Nat) : Nat :=
  let ys := g.iq.filter (mustFail o also)
  ((g.iq.filter fun z => z.id != but && ys.any fun y => (earlier y g.iq).any fun e => e.id == z.id).map fun z =>
    match z.kind with | .barr o' n => if o' = o then n else 0 | _ => 0).sum

/-- Whether the phase of a barrier with value v stays open, even after the arrivals that the waits on it that must return false wait for:
then every such wait can still be performed, and returns false (R266). -/
def State.staysOpen (s : State) (o : Obj) (v but also : Nat) : Bool :=
  let gs := s.groups.filter fun g => g.iq.any (mustFail o also)
  gs.isEmpty || !(barDone (setBits v 31 20 (barPend v - (gs.map fun g => g.arrivalsBefore o but also).sum)))

/-- Whether a barrier may be written anew or invalidated: no wait on it must return false (R266). -/
def State.noneFails (s : State) (o : Obj) : Bool := !(s.groups.any fun g => g.iq.any (mustFail o 0))

/-- Whether a later operation may overtake a wait of a group, which then returns false (R266): its phase is the current one and stays
open, and nothing but arrivals on the barrier keeps the wait from being performed. -/
def State.mayFail (s : State) (g : Group) (y : MemOp) : Bool :=
  match softWait y with
  | none => false
  | some (o, ph) =>
    barPh (s.objVal o) == ph && s.staysOpen o (s.objVal o) 0 y.id
      && (earlier y g.iq).all fun z => !(shares z.locs y.locs) || (match z.kind with | .barr _ _ => true | _ => false)

/-- Whether x may be performed as far as the queue is concerned (R266). -/
def State.mayPerform (s : State) (g : Group) (x : MemOp) : Bool :=
  (earlier x g.iq).all fun y => overtakes x y || (clearOf x y && s.mayFail g y)

/-- Whether operation x may make an update of a stage on a barrier now (R200, R266): 2 landings and arrivals, 4 expectations. -/
def State.mayUpdate (s : State) (o : Obj) (k x : Nat) (f : Nat → Nat) : Bool :=
  !(s.objLate.any fun y => y.1 == o && decide (k < y.2)) && s.staysOpen o (f (s.objVal o)) x 0

/-- The cycle ends: complete() runs for every barrier for which it is due. -/
def State.endCycle (s : State) : State := { s.objDue.foldl (fun (s : State) o => s.completeDue o) s with objDue := [], objLate := [] }

/-- An arrival of count n with its view (R199, R214). -/
def State.arrive (s : State) (o : Obj) (n : Nat) (v : View) : State :=
  if !(s.objLive o) then s else ((s.addView o (barPh (s.objVal o)) v).modObj o (barArrive n)).dueAt o

/-- Sectors landed with their view (R104, R199). -/
def State.land (s : State) (o : Obj) (n : Nat) (v : View) : State :=
  if n = 0 || !(s.objLive o) then s else ((s.addView o (barPh (s.objVal o)) v).modObj o (barLand n)).dueAt o

/-! ### Rings (R203) -/

/-- What a request on a ring waits for: a free slot, or a published one. -/
def isRres (o : Obj) (x : MemOp) : Bool := x.kind == .rres o
def isRwait (o : Obj) (x : MemOp) : Bool := x.kind == .rwait o

/-- The waiting request of a kind with the earliest place, with its group. -/
def firstWaiting (p : MemOp → Bool) (gs : List Group) : Option (Nat × MemOp) :=
  gs.foldl (fun acc g => g.iq.foldl (fun acc x =>
    if p x && x.wseq != 0 then
      match acc with
      | none => some (g.id, x)
      | some (_, y) => if x.wseq < y.wseq then some (g.id, x) else acc
    else acc) acc) none

/-- `RRES` takes the next slot. -/
def State.serveRres (s : State) (g : Group) (x : MemOp) (o : Obj) : State :=
  let v := s.objVal o
  (s.setObj o (setBits v 87 76 (ringNext v (ringWr v)))).setGroup (g.endOp x (BitVec.ofNat 64 (ringSlot v (ringWr v))))

/-- `RWAIT` takes the oldest published slot, and acquires its view. -/
def State.serveRwait (s : State) (g : Group) (x : MemOp) (o : Obj) : State :=
  let v := s.objVal o
  let n := ringRd v
  let g := g.endOp x (BitVec.ofNat 64 (ringSlot v n))
  let g := { g with floors := s.acquire (s.who g) x.sc g.floors (s.slotViews o n) }
  (s.setObj o (setBits v 111 100 (ringNext v n))).setGroup g

/-- Serves waiting requests of both kinds, each in its order, while slots last; the fuel bounds the requests. -/
def State.serveRing (s : State) (o : Obj) : Nat → State
  | 0 => s
  | n + 1 =>
    let v := s.objVal o
    match (if ringFull v then firstWaiting (isRwait o) s.groups else none) with
    | some (k, x) =>
      match s.group? k with
      | some g => (s.serveRwait g x o).serveRing o n
      | none => s
    | none =>
      match (if ringFree v then firstWaiting (isRres o) s.groups else none) with
      | some (k, x) =>
        match s.group? k with
        | some g => (s.serveRres g x o).serveRing o n
        | none => s
      | none => s

/-- How many requests wait in all queues. -/
def State.waiting (s : State) : Nat := (s.groups.flatMap fun g => g.iq.filter fun x => x.wseq != 0).length

def State.serve (s : State) (o : Obj) : State := s.serveRing o s.waiting

/-- A publication of index PB with its view, which replaces that of the index's last lap; waiting requests are served. -/
def State.publish (s : State) (o : Obj) (view : View) : State :=
  let v := s.objVal o
  (((s.dropTag o (ringPb v)).addView o (ringPb v) view).setObj o (setBits v 99 88 (ringNext v (ringPb v)))).serve o

/-- An engine has landed every sector of the next slot: WR and PB advance together (R109). -/
def State.fillSlot (s : State) (o : Obj) (view : View) : State :=
  let v := s.objVal o
  (s.setObj o (setBits v 87 76 (ringNext v (ringWr v)))).publish o view

/-- Requests that wait on a ring end with all-ones when `BINIT`, `RINIT` or `BINV` acts on it (R203). -/
def Group.endRequests (g : Group) (o : Obj) : List MemOp → Group
  | [] => g
  | x :: r =>
    if x.wseq != 0 && (isRres o x || isRwait o x) then (g.endOp x (BitVec.allOnes 64)).endRequests o r
    else g.endRequests o r

/-- The completion object of a copy at one of its destinations (R105). -/
def State.dstObj (s : State) (c : Cmd) (d : CopyD) (x : CDst) : Obj :=
  { ep := x.ep, off := (s.rangeOf c.launch).1 + d.co * 16 }

/-- Whether a destination completes into a ring. -/
def State.onRing (s : State) (c : Cmd) (o : Obj) (x : CDst) : Bool :=
  match c.kind with
  | .copy d => d.ck == 2 && s.dstObj c d x == o
  | _ => false

/-- How many slots of a ring copies have reserved and not published, those of saved patches among them (R331). -/
def State.reserved (s : State) (o : Obj) : Nat :=
  ((s.cmds ++ s.parked.flatMap fun p => p.cmds).flatMap fun c => c.dests.filter fun x => s.onRing c o x && x.slot.isSome).length

/-- Copies lose the slots they reserved in a ring that is written anew or invalidated. -/
def State.loseSlots (s : State) (o : Obj) : State :=
  if s.reserved o = 0 then s
  else
    let lose : Cmd → CDst → CDst := fun c x => if s.onRing c o x then { x with slot := none } else x
    { s with cmds := s.cmds.map fun c => { c with dests := c.dests.map (lose c) } }

/-- Everyone who waits on an object resumes with its timeout result (R107, R199, R203). -/
def State.dismiss (s : State) (o : Obj) : State :=
  let s := (s.loseSlots o).resumeWaiters o false (fun _ => true) s.groupIds
  { s with groups := s.groups.map fun g => g.endRequests o g.iq }

/-! ### Operands of object instructions (R182, R197) -/

/-- The object an instruction names, with the lowest of its faults (R182): window, range, liveness, alignment, and what the
instruction adds. -/
def State.object (s : State) (g : Group) (w : Win) (a : BitVec 6) (live : Bool) (more : List Nat) : Except Nat Obj :=
  let off := ((g.uni a.toNat).toNat) % 2 ^ 32
  let al := if off % 16 = 0 then [] else [0x30]
  match s.winPos g w with
  | none => .error 0x23
  | some e =>
    let r := if (s.rangeOf g.launch).2 < off + 16 then [0x24] else []
    let o := s.storeOff g off
    let d := if s.isHole e || (live && !(s.liveAt e o)) then [0x26] else []
    match lowest (r ++ d ++ more ++ al) with
    | some c => .error c
    | none => .ok { ep := e, off := o }

/-- The sixteen locations of an object. -/
def objLocs (o : Obj) : List Nat := (range o.off 16).map (storeLoc o.ep)

end Sys2Proof.Machine
end

