-- ==== Sys2Proof/Machine/Sync.lean ====
section
/-! DEFINITION. The barrier and ring instructions of spec/08 R197 to R203. -/

namespace Sys2Proof.Machine

/-! ### Issue -/

/-- Whether an object instruction reaches beyond the block, so that a restartable block commits first (R184). -/
def reaches (w : Win) (sc : Scope) : Bool := w != .own || widerThanBlk sc

/-- The offset that an object instruction's register holds (R197). -/
def objOffset (g : Group) (a : BitVec 6) : Nat := (g.uni a.toNat).toNat % 2 ^ 32

/-- The issue of an object instruction: once for the group where a guard is true, checked, and queued (R38, R182, R197).
`noted` marks the non-idempotent ones (R378). -/
def objIssue (i : Instr) (c : Ctl) (w : Win) (sc : Scope) (a : BitVec 6) (live noted : Bool) (s : State)
    (more : Group → List Nat) (dst : Group → Path → ResDst × Lanes) (x : Group → Obj → MemOp) : Out :=
  issue i c s fun g p sec =>
    let m := guardOf g p c
    if g.fenceHeldOther p then .next s
    else if m = 0 then .next (advance s g p sec)
    else
      let off := objOffset g a
      let locs := match s.winPos g w with | some e => (range (s.storeOff g off) 16).map (storeLoc e) | none => []
      if g.unitBusy locs then .next s
      else
        match s.object g w a live (more g) with
        | .error code => .next (s.trapAt g p sec code m (if hasVa code then off else 0) 0)
        | .ok o =>
          let g := if noted then g.note else g
          let g := if reaches w sc then g.noteCommit s else g
          let k := s.nextId
          let (d, pend) := dst g p
          let flag := flagOf p c
          let g := if flag = none && d = .none then g else g.begin k flag d pend
          let op := { x g o with instr := k, thr := p.thr, hist := p.hist, com := reaches w sc, sc := sc, locs := objLocs o }
          let (s, g) := { s with nextId := k + 1 }.enqueue g [op]
          .next (advance s g p sec)

/-- An operation of an object instruction; the issue fills in the rest. -/
def objOp (k : MKind) (acq rel : Bool) : MemOp :=
  { id := 0, instr := 0, lane := 0, thr := 0, hist := [], acq := acq, rel := rel, kind := k }

def noDst (_ : Group) (_ : Path) : ResDst × Lanes := (.none, 1)
def uniDst (d : BitVec 6) (_ : Group) (_ : Path) : ResDst × Lanes := (.uni d.toNat, 1)

/-- The predicate of `BWAIT` and `BTRY`: in the guarded lanes, or once (R197). -/
def predDst (c : Ctl) (d : PReg) (g : Group) (p : Path) : ResDst × Lanes :=
  match d with
  | .lane n => (.lpred n.toNat, guardOf g p c)
  | .uni q => (.upred q.toNat, 1)

/-- A register operand outside its limits is object-operand (R198); an immediate was checked by R62. -/
def limitC (lim : Nat) (v : USrc) (g : Group) : List Nat :=
  let n := (usrcVal g v).toNat
  if n = 0 || lim < n then [0x28] else []

def execBinit (c : Ctl) (w : Win) (sc : Scope) (a : BitVec 6) (v : USrc) (s : State) : Out :=
  objIssue (.binit c w sc a v) c w sc a false true s (limitC 4095 v) noDst
    fun g o => objOp (.binit o (usrcVal g v).toNat) false false

def execBarr (c : Ctl) (w : Win) (sc : Scope) (a : BitVec 6) (v : USrc) (s : State) : Out :=
  objIssue (.barr c w sc a v) c w sc a true true s (limitC 15 v) noDst
    fun g o => objOp (.barr o (usrcVal g v).toNat) false true

def execBexp (c : Ctl) (w : Win) (sc : Scope) (a : BitVec 6) (v : USrc) (s : State) : Out :=
  objIssue (.bexp c w sc a v) c w sc a true true s (limitC 0xFFFFFF v) noDst
    fun g o => objOp (.bexp o (usrcVal g v).toNat) false false

def execBwait (c : Ctl) (w : Win) (sc : Scope) (d : PReg) (a ph : BitVec 6) (t : BitVec 32) (s : State) : Out :=
  objIssue (.bwait c w sc d a ph t) c w sc a true false s (fun _ => []) (predDst c d)
    fun g o => objOp (.bwait o ((g.uni ph.toNat).toNat % 16) t.toNat) true false

def execBtry (c : Ctl) (w : Win) (sc : Scope) (d : PReg) (a ph : BitVec 6) (s : State) : Out :=
  objIssue (.btry c w sc d a ph) c w sc a true false s (fun _ => []) (predDst c d)
    fun g o => objOp (.btry o ((g.uni ph.toNat).toNat % 16)) true false

def execBinv (c : Ctl) (w : Win) (sc : Scope) (a : BitVec 6) (s : State) : Out :=
  objIssue (.binv c w sc a) c w sc a true true s (fun _ => []) noDst fun _ o => objOp (.binv o) false false

/-- The faults of a ring's parameters: reserved bits or a misaligned BASE, and slots beyond the launch's range (R109, R202). -/
def ringC (s : State) (m : BitVec 6) (g : Group) : List Nat :=
  let v := (g.uni m.toNat).toNat
  let base := bits v 37 19
  (if bits v 63 39 != 0 || base % 32 != 0 then [0x28] else [])
    ++ (if (s.rangeOf g.launch).2 < base + (bits v 10 0 + 1) * ((bits v 18 11 + 1) * 32) then [0x34] else [])

def execRinit (c : Ctl) (w : Win) (sc : Scope) (a m : BitVec 6) (s : State) : Out :=
  objIssue (.rinit c w sc a m) c w sc a false true s (ringC s m) noDst
    fun g o => objOp (.rinit o (g.uni m.toNat)) false false

def execRres (c : Ctl) (w : Win) (sc : Scope) (d a : BitVec 6) (s : State) : Out :=
  objIssue (.rres c w sc d a) c w sc a true true s (fun _ => []) (uniDst d) fun _ o => objOp (.rres o) false false

def execRpub (c : Ctl) (w : Win) (sc : Scope) (a : BitVec 6) (s : State) : Out :=
  objIssue (.rpub c w sc a) c w sc a true true s (fun _ => []) noDst fun _ o => objOp (.rpub o) false true

def execRwait (c : Ctl) (w : Win) (sc : Scope) (d a : BitVec 6) (s : State) : Out :=
  objIssue (.rwait c w sc d a) c w sc a true true s (fun _ => []) (uniDst d) fun _ o => objOp (.rwait o) true false

def execRrel (c : Ctl) (w : Win) (sc : Scope) (a : BitVec 6) (s : State) : Out :=
  objIssue (.rrel c w sc a) c w sc a true true s (fun _ => []) noDst fun _ o => objOp (.rrel o) false false

/-! ### Performing (R199 to R203) -/

/-- The object as `RINIT` writes it (R108, R203). -/
def ringInit (m : Nat) : Nat :=
  setBits (setBits (setBits (setBits 0 74 64 (bits m 10 0)) 63 56 (bits m 18 11)) 55 37 (bits m 37 19)) 3 3 (bits m 38 38)

/-- An object is written anew and becomes live (R107). -/
def State.initObj (s : State) (o : Obj) (v : Nat) : State := (((s.dismiss o).dropViews o).setObj o v).setLive o.ep o.off true

/-- A request takes its place in the order of performing and waits. -/
def Group.waitFor (g : Group) (x : MemOp) (seq : Nat) : Group :=
  { g with iq := modifyKey (fun y => y.id) x.id (fun y => { y with wseq := seq }) g.iq }

/-- Performs an operation on an object; no result where the machine may not take the step. -/
def State.performObject (s : State) (g : Group) (x : MemOp) : Option State :=
  let w := s.who g
  let out := s.setGroup (g.finish x)
  let view : View := { who := w, sc := x.sc, fl := g.floors }
  match x.kind with
  | .binit o n => if s.noneFails o then some (((out.completeDue o).initObj o (barInit n)).lateAt o 6) else none
  | .rinit o m => if s.noneFails o then some (((out.completeDue o).initObj o (ringInit m.toNat)).lateAt o 6) else none
  | .barr o n => if s.mayRelease x.sc g.floors && s.mayUpdate o 2 x.id (barArrive n) then some ((out.releaseUp x.sc g.floors).arrive o n view) else none
  | .bexp o e =>
    if s.mayUpdate o 4 x.id (barExpect e) then
      some ((((if s.expected o then out else out.completeDue o).modObj o (barExpect e)).dueAt o).lateAt o 4)
    else none
  | .binv o => if !(s.noneFails o) then none else some (((((out.completeDue o).dismiss o).modObj o fun v => setBits v 6 6 1).setLive o.ep o.off false).lateAt o 6)
  | .btry o ph =>
    let now := barPh (s.objVal o)
    let v := now != ph
    let g := g.endOp x (if v then 1 else 0)
    some (s.setGroup (if v then { g with floors := s.acquire w x.sc g.floors (s.phaseViews o ph now) } else g))
  | .bwait o ph limit =>
    let now := barPh (s.objVal o)
    if x.wseq != 0 || g.wait != .none then none
    else if now != ph then
      let g := g.endOp x 1
      some (s.setGroup { g with floors := s.acquire w x.sc g.floors (s.phaseViews o ph now) })
    else
      let g := { g.waitFor x s.nextId with wait := .bwait x.id o ph s.clock limit }
      some (({ s with nextId := s.nextId + 1 }.setGroup g).modObj o fun v => setBits v 95 80 (min (barWtrs v + 1) 0xFFFF))
  | .rres o =>
    let v := s.objVal o
    if x.wseq != 0 then none
    else if ringEng v then some ((s.setGroup (g.endOp x (BitVec.allOnes 64))).modObj o ringErr)
    else if ringFree v && (firstWaiting (isRres o) s.groups).isNone then some (s.serveRres g x o)
    else some ({ s with nextId := s.nextId + 1 }.setGroup (g.waitFor x s.nextId))
  | .rwait o =>
    let v := s.objVal o
    if x.wseq != 0 then none
    else if ringFull v && (firstWaiting (isRwait o) s.groups).isNone then some (s.serveRwait g x o)
    else some ({ s with nextId := s.nextId + 1 }.setGroup (g.waitFor x s.nextId))
  | .rpub o =>
    let v := s.objVal o
    if !(s.mayRelease x.sc g.floors) then none
    else if ringEng v || ringPb v == ringWr v then some (out.modObj o ringErr)
    else some ((out.releaseUp x.sc g.floors).publish o view)
  | .rrel o =>
    let v := s.objVal o
    if ringRl v == ringRd v then some (out.modObj o ringErr)
    else some ((out.setObj o (setBits v 123 112 (ringNext v (ringRl v)))).serve o)
  | _ => none

/-- A waiting `BWAIT` whose t cycles have passed resumes with false (R201). -/
def execBwaitTimeout (g : Nat) (s : State) : Out :=
  match s.group? g with
  | none => .next s
  | some g =>
    match g.wait with
    | .bwait op o ph since limit =>
      if limit != 0 && decide (since + limit ≤ s.clock) then
        match findKey (fun x => x.id) op g.iq with
        | some x => .next (s.resumeBwait g x o ph false)
        | none => .next s
      else .next s
    | _ => .next s

end Sys2Proof.Machine
end

