-- ==== Sys2Proof/Machine/Work.lean ====
section
/-! DEFINITION. Channels, work items, device launches, yielding, sleeping and work identifiers (R204 to R209). -/

namespace Sys2Proof.Machine

/-! ### Stages, and the end of creation (R14, R356, R358) -/

/-- The queue of a launch's channel, and its location in the issue queue's order. -/
def Launch.chan (l : Launch) (c : Nat) : List ChanWord := mget [] l.chans c
def chanLoc (launch c : Nat) : Nat := 2 ^ 65 + launch * 64 + c

/-- The resident blocks of a stage of a launch; those of a patch that is saved to make room count (log 90). -/
def State.resident (s : State) (l : Launch) (stg : Nat) : Nat :=
  (s.blocks.filter fun b => b.launch == l.id && b.stg == stg).length
    + ((s.parked.flatMap fun p => p.blocks).filter fun b => b.launch == l.id && b.stg == stg).length

/-- Whether a stage's minimum has lapsed: stage 0's with its last patch; a later one's once the stage before has lapsed and holds
no block, and the channels it reads are empty. A stage reads the channels on which its groups have performed `RECV` (log 91). -/
def State.lapsed (s : State) (l : Launch) : Nat → Bool
  | 0 => decide (l.hdr.npat ≤ mget 0 l.perStage 0)
  | k + 1 =>
    s.lapsed l k && s.resident l k == 0
      && (l.recvs.filter fun x => x.1 == k + 1).all fun x => (l.chan x.2).isEmpty

/-- Whether a launch has no further patch to create; one that a machine check or a kill has ended creates none. -/
def State.allCreated (s : State) (l : Launch) : Bool :=
  l.killed != 0 || l.again.isEmpty && (if l.hdr.nstg = 0 then decide (l.hdr.npat ≤ l.created) else (range 0 l.hdr.nstg).all (s.lapsed l))

/-- An entry of the pending-launch store is freed when its launch has created its last patch (R358). -/
def State.freeEntries (s : State) (part : Nat) : State :=
  let done := fun (e : Pending) => match e.launch with
    | some k => (match s.launch? k with | some l => l.completed || s.allCreated l | none => true)
    | none => false
  s.modPart part fun p => { p with pending := p.pending.filter fun e => !(done e) }

/-! ### Channels (R205) -/

/-- The depth of a channel of a group's launch. -/
def State.depth (s : State) (g : Group) (c : Nat) : Nat := (s.hdrOf g).chans.getD c 0

def State.chanLen (s : State) (launch c : Nat) : Nat :=
  match s.launch? launch with
  | some l => (l.chan c).length
  | none => 0

def isSend (c : Nat) (x : MemOp) : Bool :=
  match x.kind with
  | .send k _ _ => k == c
  | _ => false

/-- Sends to a channel that have issued and are not performed. -/
def State.sendsPending (s : State) (launch c : Nat) : Nat :=
  ((s.groups.filter fun g => g.launch == launch).flatMap fun g => g.iq.filter (isSend c)).length

/-- The issue of a channel, work or launch instruction that takes effect once (R38): held by fences, with the faults of the
instruction, committing first where it must, and queued. -/
def workIssue (i : Instr) (c : Ctl) (s : State) (commits : Bool) (fault : Group → Option Nat) (held : Group → Bool)
    (dst : Group → Path → ResDst × Lanes) (qn : Option (Nat × Bool)) (x : Group → MemOp) : Out :=
  issue i c s fun g p sec =>
    let m := guardOf g p c
    if g.fenceHeldOther p then .next s
    else if m = 0 then .next (advance s g p sec)
    else
      match fault g with
      | some code => .next (s.trapAt g p sec code m 0 0)
      | none =>
        if held g then .next s
        else
          let k := s.nextId
          let (d, pend) := dst g p
          let flag := flagOf p c
          let g := g.note
          let g := if flag = none && d = .none then g else g.begin k flag d pend
          let g := match qn with
            | none => g
            | some b => { g with outst := modifyKey (fun o => o.instr) k (fun (o : Outst) => { o with qn := some b }) g.outst }
          let op := { x g with instr := k, thr := p.thr, hist := p.hist, com := commits }
          let (s, g) := { s with nextId := k + 1 }.enqueue g [op]
          .next (advance s g p sec)

def execSend (c : Ctl) (rel : Bool) (a ch : BitVec 6) (s : State) : Out :=
  let n := ch.toNat
  workIssue (.send c rel a ch) c s true (fun g => if s.depth g n = 0 then some 0x27 else none)
    (fun g => decide (s.depth g n ≤ s.chanLen g.launch n + s.sendsPending g.launch n)) noDst none
    fun g => { objOp (.send n (g.uni a.toNat) rel) false rel with sc := .part, locs := [chanLoc g.launch n], views := g.fenceViews }

def execRecv (c : Ctl) (acq : Bool) (d ch : BitVec 6) (s : State) : Out :=
  let n := ch.toNat
  workIssue (.recv c acq d ch) c s false (fun g => if s.depth g n = 0 then some 0x27 else none) (fun _ => false) (uniDst d) none
    fun g => { objOp (.recv n acq) acq false with sc := .part, locs := [chanLoc g.launch n] }

/-! ### Work items (R206, R280, R405) -/

def partKey (e t : Nat) : Nat := e * 16 + t
def Partition.part_ (p : Partition) (e t : Nat) : List Item := mget [] p.parts (partKey e t)
def Partition.over (p : Partition) (e t : Nat) : List Item := mget [] p.ovItems (partKey e t)
def Partition.setItems (p : Partition) (e t : Nat) (a b : List Item) : Partition :=
  { p with parts := mset [] p.parts (partKey e t) a, ovItems := mset [] p.ovItems (partKey e t) b }

/-- Items in the work-queue area, and how many it holds (R206, R388). -/
def Partition.overflowed (p : Partition) : Nat := (p.ovItems.map fun x => x.2.length).sum
def Partition.areaItems (p : Partition) : Nat := p.wqn * 8192

/-- An item joins the newest end of an EP's part: on chip up to 256, then in the work-queue area. -/
def Partition.pushItem (p : Partition) (e t : Nat) (x : Item) : Partition :=
  let a := p.part_ e t
  let b := p.over e t
  if a.length < 256 && b.isEmpty then p.setItems e t (a ++ [x]) b else p.setItems e t a (b ++ [x])

/-- The oldest item leaves; an item of the work-queue area takes the place on chip. -/
def Partition.pullItem (p : Partition) (e t : Nat) : Option (Item × Partition) :=
  match p.part_ e t, p.over e t with
  | x :: a, [] => some (x, p.setItems e t a [])
  | x :: a, y :: b => some (x, p.setItems e t (a ++ [y]) b)
  | [], y :: b => some (y, p.setItems e t [] b)
  | [], [] => none

def isWpush (x : MemOp) : Bool := match x.kind with | .wpush _ => true | _ => false
def isWpull (x : MemOp) : Bool := match x.kind with | .wpull _ => true | _ => false
def isRecv (c : Nat) (x : MemOp) : Bool := match x.kind with | .recv k _ => k == c | _ => false

/-- The pushes of a partition that have issued and are not performed, by the part that they go to; system groups' by 0. -/
def State.pushesPending (s : State) (part : Nat) (sys : Bool) : List Nat :=
  (s.groups.filter fun g => g.part == part && g.sys == sys).flatMap fun g =>
    (g.iq.filter isWpush).map fun _ => if sys then 0 else partKey g.ep g.tenant

/-- The room on chip of an EP's part: none while items of it are in the work-queue area. -/
def Partition.chipRoom (p : Partition) (key : Nat) : Nat := if mget [] p.ovItems key = [] then 256 - (mget [] p.parts key).length else 0

/-- Whether a push waits for room: its part is full, and so is the work-queue area (R206); or the system queue is full (R405). -/
def State.pushHeld (s : State) (g : Group) : Bool :=
  let p := s.part g.part
  let pend := s.pushesPending g.part g.sys
  if g.sys then decide (64 ≤ p.sysq.length + pend.length)
  else
    let key := partKey g.ep g.tenant
    let toArea := (pend.eraseDups.map fun k => pend.count k - p.chipRoom k).sum
    decide (p.chipRoom key ≤ pend.count key) && decide (p.areaItems ≤ p.overflowed + toArea)

/-- Whether the part of a tenant on an EP has room for one more item (R206). -/
def State.itemRoom (s : State) (part e t : Nat) : Bool :=
  let p := s.part part
  decide (0 < p.chipRoom (partKey e t)) || decide (p.overflowed < p.areaItems)

def workLoc (g : Group) : Nat := 2 ^ 64 + g.part

def execWpush (c : Ctl) (a : BitVec 6) (s : State) : Out :=
  workIssue (.wpush c a) c s true (fun _ => none) s.pushHeld noDst none
    fun g => { objOp (.wpush (g.uni a.toNat)) false false with locs := [workLoc g], views := g.fenceViews }

def execWpull (c : Ctl) (poll : Bool) (d : BitVec 6) (q : BitVec 2) (s : State) : Out :=
  workIssue (.wpull c poll d q) c s false (fun _ => none) (fun _ => false) (uniDst d) (if poll then some (q.toNat, false) else none)
    fun g => { objOp (.wpull poll) false false with locs := [workLoc g] }

/-! ### Launches (R207, R358, R359) -/

/-- The faults of a launch header's address: bits [63:56], then its alignment (R95, R183). -/
def launchFault (a : BitVec 6) (g : Group) : Option (Nat × Nat) :=
  let va := (g.uni a.toNat).toNat
  if 2 ^ 56 ≤ va then some (0x21, va) else if va % 64 ≠ 0 then some (0x30, 0) else none

/-- The predicate of `LAUNCH`: in the guarded lanes, or once. -/
def execLaunch (c : Ctl) (w : Bool) (d : PReg) (a : BitVec 6) (s : State) : Out :=
  let i := Instr.launch c w d a
  issue i c s fun g p sec =>
    let m := guardOf g p c
    if g.fenceHeldOther p then .next s
    else if m = 0 then .next (advance s g p sec)
    else
      let va := (g.uni a.toNat).toNat
      match launchFault a g with
      | some (code, v) => .next (s.trapAt g p sec code m v 0)
      | none =>
        match trRange (s.trGroup g .read) va 640 with
        | .error (.miss t) => .next (s.parkLanes g sec i m (missAt (s.trGroup g .read) va 640) false t)
        | .error _ => .next (s.trapAt g p sec 0x21 m va 0)
        | .ok pas =>
          let k := s.nextId
          let (dst, pend) := predDst c d g p
          let g := g.note.begin k (flagOf p c) dst pend
          let op := { objOp (.launch w) false true with
            instr := k, thr := p.thr, hist := p.hist, com := true, sc := .part, pas := pas, locs := (range va 640).zipWith g.loc pas }
          let (s, g) := { s with nextId := k + 1 }.enqueue g [op]
          .next (advance s g p sec)

/-- The overflow region of the blocks of a group's launch, which its own launches take over (R260). -/
def State.ovOf (s : State) (g : Group) : Nat :=
  match s.launch? g.launch with
  | some l => l.ovUnits
  | none => (s.part g.part).ovdef

/-- Takes an entry of the pending-launch store for a header that the group reads now (R207, R359). -/
def State.takePending (s : State) (g : Group) (x : MemOp) (cut : Nat) : State :=
  let w := s.who g
  let (bs, f, _) := loadBytes s w cut x.pas x.locs g.floors
  let g := { g with floors := f }
  let seq := (s.tenant g.part g.tenant).devSeq + 1
  let e : Pending :=
    { id := s.nextId, ep := g.ep, tenant := g.tenant, seq := seq, hdr := parseHeader bs,
      views := [{ who := w, sc := .part, fl := g.floors }], from_ := g.launch, age := s.clock, ovUnits := s.ovOf g }
  let s := { s with nextId := s.nextId + 1 }.modTenant g.part g.tenant fun t => { t with devSeq := seq }
  let s := s.modPart g.part fun p => { p with pending := p.pending ++ [e] }
  s.setGroup (g.endOp x 1)

/-! ### Performing -/

/-- An operation of a waiting kind takes its place, and the group is not ready (R205, R206). -/
def State.waitOp (s : State) (g : Group) (x : MemOp) (w : Wait) : State :=
  { s with nextId := s.nextId + 1 }.setGroup { g.waitFor x s.nextId with wait := w }

/-- Whether x is next to be served among the requests that satisfy a predicate: no other waits before it. -/
def State.isNext (s : State) (p : Group → MemOp → Bool) (x : MemOp) : Bool :=
  !(s.groups.any fun g => g.iq.any fun y => p g y && y.wseq != 0 && (x.wseq == 0 || decide (y.wseq < x.wseq)))

/-- Performs a channel, work-queue or launch operation; no result where the machine may not take the step. -/
def State.performWork (s : State) (g : Group) (x : MemOp) (cut : Nat) : Option State :=
  let w := s.who g
  match x.kind with
  | .send c v rel =>
    if rel && !(s.mayRelease .part g.floors) then none
    else
      let word : ChanWord := { v := v, views := ownViews w g x }
      some ((s.setGroup (g.finish x)).modLaunch g.launch fun l =>
        { l with chans := mset [] l.chans c (l.chan c ++ [word]),
                 sends := if l.sends.contains (g.stg, c) then l.sends else l.sends ++ [(g.stg, c)] })
  | .recv c acq =>
    let s := s.modLaunch g.launch fun l =>
      { l with recvs := if l.recvs.contains (g.stg, c) then l.recvs else l.recvs ++ [(g.stg, c)] }
    match s.launch? g.launch with
    | none => none
    | some l =>
      match l.chan c with
      | v :: r =>
        if s.isNext (fun h y => h.launch == g.launch && isRecv c y) x then
          let g := { (g.endOp x v.v).takeViews s w acq .part v.views with wait := if x.wseq = 0 then g.wait else g.wait.served }
          some ((s.modLaunch g.launch fun l => { l with chans := mset [] l.chans c r }).setGroup g)
        else if x.wseq = 0 && g.wait = .none then some (s.waitOp g x (.recv x.id)) else none
      | [] => if x.wseq = 0 && g.wait = .none then some (s.waitOp g x (.recv x.id)) else none
  | .wpush v =>
    let item : Item := { v := v, views := x.views }
    if !(if g.sys then decide ((s.part g.part).sysq.length < 64) else s.itemRoom g.part g.ep g.tenant) then none
    else
    let s := s.setGroup (g.finish x)
    some (s.modPart g.part fun p => if g.sys then { p with sysq := p.sysq ++ [v] } else p.pushItem g.ep g.tenant item)
  | .wpull poll =>
    let p := s.part g.part
    let got : Option (Item × Partition) :=
      if g.sys then (match p.sysq with | v :: r => some ({ v := v }, { p with sysq := r }) | [] => none)
      else p.pullItem g.ep g.tenant
    let mine := fun (h : Group) (y : MemOp) =>
      h.part == g.part && h.sys == g.sys && (g.sys || (h.ep == g.ep && h.tenant == g.tenant)) && isWpull y
    match got with
    | some (it, p') =>
      if s.isNext mine x then
        let set : Outst → Outst := fun o => { o with qn := o.qn.map fun q => (q.1, true) }
        let g := { g with outst := modifyKey (fun o => o.instr) x.instr set g.outst }
        let g := { (g.endOp x it.v).takeViews s w false .part it.views with wait := if x.wseq = 0 then g.wait else g.wait.served }
        some ((s.setPart g.part p').setGroup g)
      else if poll then none
      else if x.wseq = 0 && g.wait = .none then some (s.waitOp g x (.wpull x.id)) else none
    | none =>
      if poll then
        let set : Outst → Outst := fun o => { o with dst := .none }
        some (s.setGroup ({ g with outst := modifyKey (fun o => o.instr) x.instr set g.outst }.endOp x 0))
      else if x.wseq = 0 && g.wait = .none then some (s.waitOp g x (.wpull x.id)) else none
  | .launch wt =>
    if !(s.mayRelease .part g.floors) then none
    else if x.pas.any s.poisoned then some (s.consumeAt (g.abandon x) 0 x.pas)
    else if ((s.freeEntries g.part).part g.part).pending.length < 256 then some ((s.freeEntries g.part).takePending g x cut)
    else if !wt then some (s.setGroup (g.endOp x 0))
    else if x.until_ = 0 then
      some (s.setGroup { g with iq := modifyKey (fun y => y.id) x.id (fun y => { y with until_ := s.clock + 65536 }) g.iq })
    else none
  | _ => none

/-- A `LAUNCH.w` that has waited for its 65,536 cycles. -/
def launchLate (clock : Nat) (x : MemOp) : Bool := x.kind == .launch true && x.until_ != 0 && decide (x.until_ ≤ clock)

/-- `LAUNCH.w` has waited 65,536 cycles and fails (R207). -/
def execLaunchWaitTimeout (g : Nat) (s : State) : Out :=
  match s.group? g with
  | none => .next s
  | some g =>
    match g.iq.find? (launchLate s.clock) with
    | some x => .next (s.setGroup (g.endOp x 0))
    | none => .next s

/-! ### Yielding, sleeping, identifiers (R208, R209) -/

def execYld (c : Ctl) (s : State) : Out :=
  issue (.yld c) c s fun g p sec =>
    if guardOf g p c = 0 then .next (advance s g p sec)
    else .next (advance s { g with yieldUntil := s.clock + 33 } p sec)

def execSleep (c : Ctl) (v : USrc) (s : State) : Out :=
  issue (.sleep c v) c s fun g p sec =>
    let n := (usrcVal g v).toNat % 2 ^ 32
    if guardOf g p c = 0 || n = 0 then .next (advance s g p sec)
    else .next (advance s { g with wait := .sleep (s.clock + n) } p sec)

/-- A sleeping group becomes ready when its cycles have passed (R209). -/
def execSleepExpiry (g : Nat) (s : State) : Out :=
  match s.group? g with
  | none => .next s
  | some g =>
    match g.wait with
    | .sleep u => if u ≤ s.clock then .next (s.setGroup { g with wait := .none }) else .next s
    | _ => .next s

/-- `WIDX` by the field widths of the group's launch (R208). -/
def widxVal (ws : List Nat) (ext : Bool) (f : Nat) (a b : Nat) : Nat :=
  let lo := wfBase ws f
  let w := ws.getD f 0
  if ext then a / 2 ^ lo % 2 ^ w else a - a / 2 ^ lo % 2 ^ w * 2 ^ lo + b % 2 ^ w * 2 ^ lo

def execWidx (c : Ctl) (ext : Bool) (d : Dst) (a b : RSrc) (f : BitVec 3) (s : State) : Out :=
  fixed (.widx c ext d a b f) c 8 none s fun g m =>
    g.writeDst .n64 d m fun l =>
      BitVec.ofNat 64 (widxVal (s.hdrOf g).wf ext f.toNat (rsrcVal g true a l).toNat (rsrcVal g true b l).toNat)

end Sys2Proof.Machine
end

