-- ==== Sys2Proof/Machine/Engine.lean ====
section
/-! DEFINITION. What all engine commands share: acceptance, descriptors and rectangles, sequences, the thread's accesses to
memory and to the pan, faults, deferred traps and completion (R95 to R100, R211 to R217, R275, R284, R285, R428). -/

namespace Sys2Proof.Machine

/-! ### Sequences (R213) -/

def seqKey (eng inst : Nat) : Nat := eng * 4096 + inst

/-- The completed value after the numbers of a list have completed; the fuel bounds the list. -/
def advanceDone (key : Nat) (fin : List (Nat × Nat)) : Nat → Nat → Nat
  | 0, d => d
  | n + 1, d => if fin.contains (key, d + 1) then advanceDone key fin n (d + 1) else d

/-- Command n of a sequence has completed (R111, R213). -/
def Launch.finishSeq (l : Launch) (key n : Nat) (v : View) : Launch :=
  let fin := l.finished ++ [(key, n)]
  let d := advanceDone key fin fin.length (mget 0 l.done key)
  { l with
    done := mset 0 l.done key d
    finished := fin.filter fun x => !(x.1 == key && decide (x.2 ≤ d))
    seqViews := l.seqViews ++ [(key, n, v)] }

/-! ### The issue of a command (R211, R275) -/

/-- The issue of an engine command: once where a guard is true, held by fences, and after every earlier operation of the group
has been performed (R38, R193, R275). -/
def engineIssue (i : Instr) (c : Ctl) (s : State) (k : Group → Path → Bool → Lanes → Out) : Out :=
  issue i c s fun g p sec =>
    let m := guardOf g p c
    if g.fenceHeldOther p then .next s
    else if m = 0 then .next (advance s g p sec)
    else if g.iq.any fun x => p.hist.contains x.thr && x.wseq == 0 then .next s
    else k g p sec m

/-- A precise fault of a command at its word (R211). -/
def cmdTrap (s : State) (g : Group) (p : Path) (sec : Bool) (m : Lanes) (code va : Nat) : Out :=
  .next (s.trapAt g p sec code m (if hasVa code then va else 0) 0)

/-- What reading an operand of a command finds: its bytes, with the thread of the group after it and where they lie in memory, by
virtual and physical address; a fault at the word; or no translation. -/
inductive Desc where
  | bytes (bs : List Byte) (fl : Map Nat) (at_ : List (Nat × Nat))
  | fault (code va : Nat)
  | miss (va : Nat) (tier : Bool)
  deriving DecidableEq, Repr

/-- Reads an operand of n bytes at a device virtual address, as the group does (R96). -/
def readVirt (s : State) (g : Group) (va n : Nat) : Desc :=
  match trRange (s.trGroup g .read) va n with
  | .error (.miss t) => .miss (missAt (s.trGroup g .read) va n) t
  | .error _ => .fault 0x21 va
  | .ok pas =>
    let (bs, f, _) := loadBytes s (s.who g) (s.openCut va) pas ((range va n).zipWith g.loc pas) g.floors
    .bytes bs f ((range va n).zip pas)

/-- The descriptor that a uniform register names, checked in the order of R97: alignment, reserved bits, range (R95, R215; log 37). -/
def readDesc (s : State) (g : Group) (r n align : Nat) : Desc :=
  let v := (g.uni r).toNat
  if v % align ≠ 0 then .fault 0x30 0
  else if bitOf v 63 then
    let off := bits v 18 0
    if bits v 62 19 != 0 then .fault 0x31 0
    else if (s.rangeOf g.launch).2 < off + n then .fault 0x24 off
    else .bytes (s.lsBytes g.ep (s.storeOff g off) n) g.floors []
  else if 2 ^ 56 ≤ v then .fault 0x21 v
  else readVirt s g v n

/-- The pages of addresses, each once. -/
def pagesOf (vas : List Nat) : List Nat := (vas.map fun v => v / 4096 * 4096).eraseDups

/-- The sectors of an operand that was read are charged to its group, and its pages are cached in the quadrant (R256, R393, R394). -/
def chargeRead (g : Group) (at_ : List (Nat × Nat)) : Out → Out
  | .next s =>
    let s := (pagesOf (at_.map fun x => x.1)).foldl (fun (s : State) v => s.noteGroup g v) s
    .next (if s.noCoef g.part then s else s.chargeSectors g memIx (sectorsOf (at_.map fun x => x.2)))
  | o => o

/-- Whether any sector that is read is uncorrectable (R399). -/
def State.badSector (s : State) (pas : List Nat) : Bool := s.uncorr != [] && pas.any s.poisoned

/-- Goes on with the bytes of an operand, or takes its fault; a page without a translation parks the group as a lane access
does, an uncorrectable sector is consumed, and a lockstep partition waits for data that come over the link (R183, R211, R399, R419). -/
def withDesc (i : Instr) (s : State) (g : Group) (p : Path) (sec : Bool) (m : Lanes) (d : Desc) (k : List Byte → Group → Out) : Out :=
  match d with
  | .bytes bs f at_ =>
    if s.offPackage g.part (at_.map fun x => x.2) && !(s.arrived g.due) then
      .next (if s.clock < g.due then s else s.setGroup { g with due := s.clock + 8192 })
    else if s.badSector (at_.map fun x => x.2) then .next (s.consumeAt g 1 (at_.map fun x => x.2))
    else chargeRead g at_ (k (if at_ = [] then bs else s.linked g.part (at_.map fun x => x.2) bs) { g with floors := f })
  | .fault code va => cmdTrap s g p sec m code va
  | .miss va t => .next (s.parkLanes g sec i m va false t)

/-- A bare local-store offset in a register (R428): the fault, or the offset. -/
def bareOffset (v align n len : Nat) : Except Nat Nat :=
  if bits v 63 19 != 0 then .error 0x28
  else if v % align ≠ 0 then .error 0x22
  else if len < v + n then .error 0x24
  else .ok v

/-- A new command of a group, numbered in its engine's sequence for the launch (R213), with the group's floors (R275). -/
def newCmd (s : State) (g : Group) (eng inst : Nat) (kind : CmdKind) (compl : Compl) : Cmd :=
  let l := s.launch? g.launch
  { id := s.nextId, kind := kind, gid := g.id, who := s.who g, launch := g.launch, block := g.block, part := g.part,
    tenant := g.tenant, ep := g.ep, eng := eng, inst := inst,
    seq := (match l with | some l => mget 0 l.accepted (seqKey eng inst) | none => 0) + 1, sysA := g.sys, compl := compl,
    floors := g.floors }

/-- A command joins its engine. -/
def State.addCmd (s : State) (c : Cmd) : State :=
  { s with nextId := s.nextId + 1, cmds := s.cmds ++ [c] }.modLaunch c.launch fun l =>
    { l with accepted := mset 0 l.accepted (seqKey c.eng c.inst) c.seq }

/-- Acceptance: the command joins, the group notes it (R196) and its path moves on; a flag would rise and fall here (R24). -/
def accept (s : State) (g : Group) (p : Path) (sec : Bool) (c : Cmd) : State := advance (s.addCmd c) g.note p sec

/-- How many commands an engine holds. -/
def State.engineLoad (s : State) (eng inst : Nat) : Nat := (s.cmds.filter fun c => c.eng == eng && c.inst == inst).length

/-! ### Rectangles (R98 to R100, R285) -/

/-- A basic rectangle from its 128 bits; `rsv` says that its reserved fields are zero. -/
def parseRect (x : Nat) : Rect :=
  { x := bits x 5 0, y := bits x 10 6, w := bits x 16 11 + 1, h := bits x 21 17 + 1, off := bits x 42 24, len := bits x 61 43,
    fmt := bits x 67 64, cbv := bitOf x 91, cbo := bits x 90 76,
    rsv := bits x 127 92 == 0 && bits x 75 68 == 0 && bits x 63 62 == 0 && bits x 23 22 == 0 }

/-- The rectangle in a register pair (R95). -/
def pairRect (g : Group) (n : BitVec 6) : Rect := parseRect ((g.uni n.toNat).toNat + (g.uni (n.toNat + 1)).toNat * 2 ^ 64)

/-- Bytes of one element of a type code; INT3 stands in groups of 12 bytes (R100). -/
def elemSize (fmt : Nat) : Nat :=
  match fmt with
  | 0 => 1 | 1 => 2 | 2 => 4 | 3 => 8 | 4 => 1 | 5 => 2 | 6 => 4 | 7 => 8
  | 8 => 4 | 9 => 2 | 10 => 2 | 11 => 1 | 12 => 1 | 13 => 1 | 14 => 12 | _ => 1

/-- The positions of a rectangle, rows first or columns first. -/
def Rect.positions (r : Rect) (rows : Bool) : List Nat :=
  if rows then (range r.y r.h).flatMap fun y => (range r.x r.w).map fun x => epOf x y
  else (range r.x r.w).flatMap fun x => (range r.y r.h).map fun y => epOf x y

/-- Whether every position holds a block of the launch or is a hole (R285). -/
def State.held (s : State) (launch : Nat) (ps : List Nat) : Bool := ps.all fun e => s.holdsBlock launch e || s.isHole e

/-- R100 and R285 for a rectangle with its completion offset. -/
def State.rectFits (s : State) (part launch : Nat) (r : Rect) (co : Option Nat) : Bool :=
  let p := s.part part
  let len := (s.rangeOf launch).2
  decide (p.ox ≤ r.x) && decide (r.x + r.w ≤ p.ox + p.wp) && decide (p.oy ≤ r.y) && decide (r.y + r.h ≤ p.oy + p.hp)
    && decide (r.off + r.len ≤ 393216) && decide (r.off + r.len ≤ len)
    && r.off % elemSize r.fmt == 0 && r.len % elemSize r.fmt == 0
    && (match co with | some c => decide (c * 16 + 16 ≤ len) | none => true)
    && s.held launch (r.positions false)

/-- The first failed check of a basic rectangle in the order of R97: reserved fields, the field range of LEN, then R100. -/
def State.rectFault (s : State) (part launch : Nat) (r : Rect) : Option Nat :=
  if !r.rsv then some 0x31
  else if r.len = 0 || 393216 < r.len then some 0x36
  else if !(s.rectFits part launch r (if r.cbv then some r.cbo else none)) then some 0x32
  else none

/-- The completion object at an offset of the issuing EP's store, in 16-byte units. -/
def objAt (s : State) (launch ep co : Nat) : Obj := { ep := ep, off := (s.rangeOf launch).1 + co * 16 }

/-- The barrier that a basic rectangle names. -/
def rectCompl (s : State) (launch ep : Nat) (r : Rect) : Compl :=
  if r.cbv then .barrier (objAt s launch ep r.cbo) else .none

/-! ### The thread's accesses (R214, R275, R285, R287) -/

/-- Translation for a command's access. -/
def State.trCmd (s : State) (c : Cmd) (k : Access) (copy : Bool) (va : Nat) : TRes :=
  if c.sysA then (if isWbuf va && !copy then .viol else s.translateSys va) else s.translate c.ep c.part c.tenant k copy va

def Cmd.loc (c : Cmd) (va pa : Nat) : Nat := locOf c.sysA c.part c.tenant va pa

/-- What a thread's access finds. -/
inductive Touch (α : Type) where
  | ok (x : α)
  | miss (va : Nat) (tier : Bool)
  | viol (va : Nat)
  deriving DecidableEq, Repr

/-- The physical bytes of a list of addresses, or the first that has no usable translation. -/
def State.touchAll (s : State) (c : Cmd) (k : Access) (copy : Bool) : List Nat → Touch (List Nat)
  | [] => .ok []
  | va :: vs =>
    match s.trCmd c k copy va with
    | .miss t => .miss va t
    | .viol => .viol va
    | .ok pa =>
      match s.touchAll c k copy vs with
      | .ok r => .ok (pa :: r)
      | e => e

def State.touch (s : State) (c : Cmd) (k : Access) (copy : Bool) (va n : Nat) : Touch (List Nat) :=
  s.touchAll c k copy (range va n)

/-- The bytes that a thread reads at translated addresses, and its floors after (R270, R275). -/
def threadRead (s : State) (c : Cmd) (cut : Nat) (vas pas : List Nat) : List Byte × Map Nat :=
  let (bs, f, _) := loadBytes s c.who cut pas (vas.zipWith c.loc pas) c.floors
  (bs, f)

/-- How many choices a digit of a cut has, and the rest of a cut after a read of k bytes. -/
def State.cuts (s : State) : Nat := 2 * s.co.length + 2
def State.cutAfter (s : State) (cut k : Nat) : Nat := cut / s.cuts ^ k

/-- One element of z bytes after another, each with a digit of `cut` of its own, one of n from `lo` on: an element is read in one step
(R263, R275). -/
def loadElems (s : State) (a : Who) (lo n z cut : Nat) : Nat → List Nat → List Nat → Map Nat → List Byte × Map Nat
  | 0, _, _, f => ([], f)
  | k + 1, ps, ls, f =>
    let (bs, f, _) := loadBytes s a (lo + cut % n) (ps.take z) (ls.take z) f
    let (cs, f) := loadElems s a lo n z (cut / n) k (ps.drop z) (ls.drop z) f
    (bs ++ cs, f)

/-- The bytes that a thread reads in any order, element by element of z bytes, within a part of coherence order, and its floors after. -/
def threadMixed (s : State) (c : Cmd) (cut : Nat) (vas pas : List Nat) (z : Nat := 1) (w : Nat × Nat := (0, s.co.length)) :
    List Byte × Map Nat :=
  loadElems s c.who (2 * w.1) (2 * (w.2 - w.1) + 2) z cut (pas.length / z) pas (vas.zipWith c.loc pas) c.floors

/-- Where the merges of pages that touch some bytes stand in coherence order, each from its first write to beyond its last (R313). -/
def State.merges (s : State) (pas : List Nat) : List (Nat × Nat) :=
  let ids := ((s.co.filter fun w => w.set != 0 && w.bytes.any fun b => pas.contains b.pa).map fun w => w.set).eraseDups
  ids.map fun k =>
    let a := (s.co.takeWhile fun w => w.set != k).length
    (a, a + (s.co.filter fun w => w.set == k).length)

/-- The part of coherence order around its first k writes, or those and the rest of a merge among them, in which no merge of some bytes
lies: what is read there holds each merge whole or not at all (R313; log 117). -/
def State.span (s : State) (pas : List Nat) (k : Nat) : Nat × Nat :=
  let ms := s.merges pas
  let k := ms.foldl (fun k m => if m.1 < k && k < m.2 then m.2 else k) k
  (ms.foldl (fun a m => if m.2 ≤ k then max a m.2 else a) 0, ms.foldl (fun a m => if k ≤ m.1 then min a m.1 else a) s.co.length)

/-- The destination and payload that a signature covers (R420). -/
def SigAct.bytes : SigAct → List Byte
  | .write pa bs => bytesLE pa 8 ++ bs
  | .irq k a b => bytesLE k 8 ++ bytesLE a 8 ++ bytesLE b 8
  | .message c => bytesLE c 8
  | .drain e => bytesLE e 8
  | .commit b _ _ => bytesLE b 8
  | .thread _ _ bs => bytesLE (match bs with | b :: _ => b.pa | [] => 0) 8 ++ bs.map fun b => b.new
  | .atom _ _ bs => bs

/-- A signature point of a lockstep partition, which no group waits at. -/
def State.signed (s : State) (part : Nat) (a : SigAct) : State :=
  { s with nextId := s.nextId + 1, sigs := s.sigs ++ [{ id := s.nextId, part := part, gid := 0, sig := crc32 a.bytes, act := a }] }

/-- An MSI-X message: in a lockstep partition a signature point comes first (R347, R350, R420). -/
def State.vecOut (s : State) (kind part a b : Nat) : State :=
  if (s.part part).lockstep then s.signed part (.irq kind a b) else s.sendIrq kind part a b

/-- Whether a thread waits for a signature point of a write of its own, or for the driver's answer. -/
def State.signing (s : State) (c : Cmd) : Bool := s.sigs.any fun x => match x.act with | .thread k _ _ => k == c.id | _ => false
def State.waits (s : State) (c : Cmd) : Bool := c.held.isSome || s.signing c

/-- A thread takes data of memory: in a lockstep partition those of host or CXL memory count 8,192 cycles after it has asked (R419). -/
def State.viaLink (s : State) (c : Cmd) (pas : List Nat) (k : State) : State :=
  if !(s.offPackage c.part pas) || s.arrived c.due then k
  else if s.clock < c.due then s else s.setCmd { c with due := s.clock + 8192 }

/-- A thread's device-memory write drains at once at `.part` (R275); one that leaves a lockstep partition's package has its signature
point first, for which the thread waits (R420). -/
def State.threadWrite (s : State) (c : Cmd) (va : Nat) (pas : List Nat) (bs : List Byte) : State × Cmd :=
  if bs = [] then (s, c)
  else
    let ws := wbytes pas ((range va pas.length).zipWith c.loc pas) bs
    let id := s.nextId
    if s.offPackage c.part pas then (s.signed c.part (.thread c.id c.who ws), c)
    else
    ({ s with nextId := id + 1 }.drainWrite id c.who .part ws [], { c with floors := floorsTo id ws c.floors })

/-- The bytes at a physical offset of a position: its store, or the tenant's shadow of a hole (R287). -/
def State.panRead (s : State) (part tenant e off n : Nat) : List Byte :=
  if s.isHole e then (range off n).map fun o => s.byte (s.shadowPa part tenant e o) else s.lsBytes e off n

/-- Writes bytes at a position's store, or at the shadow of a hole. -/
def State.panWrite (s : State) (c : Cmd) (e off : Nat) (bs : List Byte) : State × Cmd :=
  if s.isHole e then
    let pas := (range off bs.length).map (s.shadowPa c.part c.tenant e)
    let ws := wbytes pas pas bs
    let id := s.nextId
    if bs = [] then (s, c)
    else ({ s with nextId := id + 1 }.drainWrite id c.who .part ws [], { c with floors := floorsTo id ws c.floors })
  else (s.setLsBytes e off bs, c)

/-- Whether a write at a position would touch a live object; a hole keeps none (R107, R287). -/
def State.clobbers (s : State) (e off n : Nat) : Bool := !(s.isHole e) && s.liveIn e off n

/-- Charges a command's events to its tenant (R394). -/
def State.chargeCmd (s : State) (c : Cmd) (ix n : Nat) : State := if c.sysA then s else s.charge c.part c.tenant ix n

/-! ### Faults and deferred traps (R214, R216, R217, R374) -/

/-- The SRC of a command's fault record. -/
def faultSrc (c : Cmd) : Nat :=
  match c.eng with
  | 0 => 1
  | 1 => 2
  | 2 => 3
  | 3 => 4
  | _ => 5

/-- A thread holds its translation fault in its own state, and waits for the driver (R216, R374). -/
def State.holdFault (s : State) (c : Cmd) (va : Nat) (w tier : Bool) : State :=
  let id := s.nextId
  (s.setCmd { c with held := some id }).addFault
    { id := 0, part := c.part, tag := 0, src := faultSrc c, ep := c.ep, slot := 0, va := BitVec.ofNat 64 va, w := w,
      tenant := c.tenant, tier := tier, target := .cmd c.id }

/-- A command that a failed access or check has ended (R214). -/
def State.endErr (s : State) (c : Cmd) (sts : Nat) : State :=
  (s.setCmd { c with status := 2, sts := sts, err := true }).handOn c

/-- The group that issued a command, or what stands for it once it has gone. -/
def State.issuer (s : State) (c : Cmd) : Group :=
  (s.group? c.gid).getD
    { id := c.gid, launch := c.launch, block := c.block, sys := c.sysA, ep := c.ep, part := c.part, tenant := c.tenant }

/-- A thread reads an uncorrectable sector: its command ends in error, and the issuer's block consumes the error (R399). -/
def State.consumeCmd (s : State) (c : Cmd) (pas : List Nat) : State := (s.endErr c 2).consumeAt (s.issuer c) 1 pas

/-- Charges the sectors of physical addresses to a command's tenant (R393). -/
def State.chargeTo (s : State) (c : Cmd) : List Nat → State
  | [] => s
  | x :: r => (s.chargeCmd c (memIx x) 1).chargeTo c r

def State.chargePas (s : State) (c : Cmd) (pas : List Nat) : State :=
  if s.noCoef c.part then s else s.chargeTo c (sectorsOf pas)

/-- The pages that a thread used are cached in its quadrant (R256). -/
def State.notePages (s : State) (c : Cmd) (vas : List Nat) : State :=
  if c.sysA then s else s.noteAll c.ep c.part c.tenant (pagesOf vas)

/-- A thread reads device addresses, in elements of z bytes within a part of coherence order, and goes on with the bytes and its new
floors; a miss is held for the driver, and another failure ends the command (R214, R216). -/
def State.withReads (s : State) (c : Cmd) (cut : Nat) (vas : List Nat) (k : State → Cmd → List Byte → State) (z : Nat := 1)
    (w : Nat × Nat := (0, s.co.length)) : State :=
  match s.touchAll c .read false vas with
  | .miss v t => s.holdFault c v false t
  | .viol _ => s.endErr c 2
  | .ok pas =>
    if s.badSector pas then s.consumeCmd c pas
    else
      let (bs, f) := threadMixed s c cut vas pas z w
      s.viaLink c pas (k ((s.chargePas c pas).notePages c vas) { c with floors := f } (s.linked c.part pas bs))

def State.withRead (s : State) (c : Cmd) (cut va n : Nat) (k : State → Cmd → List Byte → State) : State :=
  s.withReads c cut (range va n) k

/-- Reads a sequence-table entry: its fields are read whole (log 117). -/
def State.withEntry (s : State) (c : Cmd) (cut entry : Nat) (k : State → Cmd → List Byte → State) : State :=
  s.withReads c cut (range entry 320) k 8

/-- A thread writes device addresses and goes on. -/
def State.withWrite (s : State) (c : Cmd) (va : Nat) (bs : List Byte) (k : State → Cmd → State) : State :=
  match s.touch c .write false va bs.length with
  | .miss v t => s.holdFault c v true t
  | .viol _ => s.endErr c 2
  | .ok pas =>
    let (s, c) := s.threadWrite c va pas bs
    k ((s.chargePas c pas).notePages c (range va bs.length)) c

/-- A deferred trap against the issuing group, kept with the command until that has finished (R217). -/
def Cmd.defer (c : Cmd) (code : Nat) (arg : Word64) : Cmd :=
  let t : TrapInfo :=
    { code := code, fpc := 0, pc := 0, hdr := 0, amask := 0, fmask := 0, arg := arg, seqn := BitVec.ofNat 64 c.seq,
      eng := c.eng, deferred := true }
  { c with traps := c.traps ++ [t] }

/-- A command has finished: its group will meet its deferred traps at the next header that it enters (R217). -/
def State.raiseTraps (s : State) (c : Cmd) : State :=
  match s.group? c.gid with
  | none => s
  | some g => if c.traps = [] then s else s.setGroup { g with deferred := g.deferred ++ c.traps }

/-! ### Completion (R214, R275) -/

/-- The view of a thread's join: all of its writes, at `.part`. -/
def Cmd.view (c : Cmd) : View := { who := c.who, sc := .part, fl := c.floors }

/-- Sets ERR or CLB in a completion object. -/
def State.complMark (s : State) (c : Cmd) (err clb : Bool) : State :=
  match c.compl with
  | .none => s
  | .barrier o =>
    if !(s.objLive o) then s
    else
      let s := if err then s.modObj o barErr else s
      if clb then s.modObj o barClb else s
  | .ring o =>
    if !(s.objLive o) then s
    else
      let s := if err then s.modObj o ringErr else s
      if clb then s.modObj o ringClb else s

/-- Whether a ring takes a posted record now: a free slot, and none before it that a copy still fills (R331). -/
def State.ringRoom (s : State) (o : Obj) : Bool := !(s.objLive o) || (ringFree (s.objVal o) && s.reserved o == 0)

/-- Posts a 32-byte record in the next slot of an engine-filled ring of a launch (R109, R114, R291). -/
def State.post (s : State) (launch : Nat) (o : Obj) (val : Nat) (v : View) : State :=
  if !(s.objLive o) then s
  else
    let x := s.objVal o
    (s.setLsBytes o.ep ((s.rangeOf launch).1 + ringSlot x (ringWr x)) (bytesLE val 32)).fillSlot o v

/-- The command leaves: its number completes, its deferred traps are raised, and stores that only it held are released (R209,
R213, R217). -/
def State.retire (s : State) (c : Cmd) : State :=
  let unq : Nat × ArrayU → Nat × ArrayU := fun x => (x.1, { x.2 with queue := x.2.queue.filter fun q => q != c.id })
  let s := { s with cmds := dropKey (fun x => x.id) c.id s.cmds, arrays := s.arrays.map unq }
  ((s.modLaunch c.launch fun l => l.finishSeq (seqKey c.eng c.inst) c.seq c.view).raiseTraps c).releaseStores

/-- Whether a command is an entry of the chain of another. -/
def sameChain (c x : Cmd) : Bool := x.launch == c.launch && x.eng == c.eng && x.inst == c.inst && x.chain.isSome

/-- Whether an entry waits for the one before it (WPRV, R110). -/
def State.waitsPrev (s : State) (c : Cmd) : Bool :=
  match c.chain with
  | some r => r.wprv && s.cmds.any fun x => sameChain c x && x.seq + 1 == c.seq
  | none => false

/-! ### Work in any order (R275) -/

/-- A stretch of the elements left, chosen by `cut`, and what is left without it. -/
def takeLeft (cut : Nat) (left : List (Nat × Nat)) : (Nat × Nat) × List (Nat × Nat) :=
  let i := cut % left.length
  let (a, n) := left.getD i (0, 0)
  let x := cut / left.length
  let lo := x % n
  let k := 1 + x / n % (n - lo)
  ((a + lo, k),
    left.take i ++ (if lo = 0 then [] else [(a, lo)]) ++ (if lo + k = n then [] else [(a + lo + k, n - lo - k)]) ++ left.drop (i + 1))

/-- All of n elements. -/
def allOf (n : Nat) : List (Nat × Nat) := if n = 0 then [] else [(0, n)]

/-- Keeps what a stretch of elements holds, in the order of the elements. -/
def gotAt (k : Nat) (bs : List Byte) : List (Nat × List Byte) → List (Nat × List Byte)
  | [] => [(k, bs)]
  | x :: r => if k < x.1 then (k, bs) :: x :: r else x :: gotAt k bs r

/-- The release of a completion at `.part` needs its writes at `.part`, where they were drained (R272, R275). -/
def State.mayJoin (s : State) (c : Cmd) : Bool := s.mayRelease .part c.floors

end Sys2Proof.Machine
end

