-- ==== Sys2Proof/Machine/Scroll.lean ====
section
/-! DEFINITION. The scroll engine (R98 to R100, R218 to R221, R285 to R292). -/

namespace Sys2Proof.Machine

/-! ### Rectangles of scrolls -/

/-- A full rectangle from its 256 bits (R99), and whether its reserved fields are as they must be. -/
def parseScroll (x : Nat) (dx dy : Int) : ScrollD × Nat × Nat × Bool :=
  let r := parseRect (x % 2 ^ 128)
  ({ r := r, spb := bits x 255 192, spl := bits x 191 160, ex := bitOf x 131, ey := bitOf x 132, ro := bitOf x 130, dx := dx,
     dy := dy, staged := false },
    bits x 159 158, bits x 157 143,
    r.rsv && bits x 142 133 == 0 && bits x 129 128 == 0 && !r.cbv && r.cbo == 0 && bits x 159 158 != 3)

/-- One axis of a destination: wrapped, or left as it is (R288). -/
def scrollAxis (spill : Bool) (x n : Int) : Int := if spill then x else x % n

/-- The destination of a source position in the sub-pan; none where the element leaves it (R288). -/
def scrollDest (p : Partition) (d : ScrollD) (e : Nat) : Option Nat :=
  let rx := scrollAxis d.ex ((epX e : Int) - p.ox + d.dx) p.wp
  let ry := scrollAxis d.ey ((epY e : Int) - p.oy + d.dy) p.hp
  if 0 ≤ rx && rx < p.wp && 0 ≤ ry && ry < p.hp then some (epOf (p.ox + rx.toNat) (p.oy + ry.toNat)) else none

/-- Source positions in route order (R219). -/
def ScrollD.sources (d : ScrollD) : List Nat := d.r.positions d.ro

/-- Whether a scroll is staged: some destination in the sub-pan is also a source (R290). -/
def scrollStaged (p : Partition) (d : ScrollD) : Bool :=
  let ps := d.sources
  !(d.dx == 0 && d.dy == 0) && ps.any fun e =>
    match scrollDest p d e with
    | some x => ps.contains x
    | none => false

/-- The checks of a scroll in the order of R97, with its completion object. A non-zero SPB of a scroll that spills on neither axis is
accepted and not used: R99 calls it zero then and names no cause, and this is the model's choice (log 111). -/
def scrollCheck (s : State) (part launch ep : Nat) (d : ScrollD) (ck co : Nat) (rsv : Bool) : Except Nat Compl :=
  let o := objAt s launch ep co
  if !rsv then .error 0x31
  else if d.r.len = 0 || 393216 < d.r.len || d.spb % 32 ≠ 0 || d.spl % 32 ≠ 0 then .error 0x36
  else if !(s.rectFits part launch d.r (if ck = 0 then none else some co)) || ((d.ex || d.ey) && d.spb == 0) then .error 0x32
  else if ck = 0 then .ok .none
  else if ck = 1 then .ok (.barrier o)
  else if s.objLive o && ringEng (s.objVal o) && ringSz (s.objVal o) == 32 then .ok (.ring o)
  else .error 0x36

/-- The group's scroll as it starts: running, or already done where nothing moves (R219). -/
def scrollCmd (s : State) (g : Group) (d : ScrollD) (compl : Compl) : Cmd :=
  let c := newCmd s g 1 g.ep (.scroll { d with staged := scrollStaged (s.part g.part) d }) compl
  if d.dx == 0 && d.dy == 0 then { c with status := 1 } else c

/-- Accepts a scroll. -/
def acceptScroll (s : State) (g : Group) (p : Path) (sec : Bool) (d : ScrollD) (compl : Compl) : Out :=
  let c := scrollCmd s g d compl
  let st : ScrollSt := { sts := 1, sin := (match c.kind with | .scroll x => x.staged && c.status == 0 | _ => false), cmd := some c.id }
  .next (accept s { g with scroll := st } p sec c)

/-- Goes on where the group's scroll slot is free: a running scroll holds the command, a halted one raises context-state (R219). -/
def scrollSlot (s : State) (g : Group) (p : Path) (sec : Bool) (m : Lanes) (k : Out) : Out :=
  if g.scroll.sts = 1 then .next s else if 3 ≤ g.scroll.sts then cmdTrap s g p sec m 0x3B 0 else k

def execScroll (c : Ctl) (n : BitVec 6) (dx dy : BitVec 7) (s : State) : Out :=
  engineIssue (.scroll c n dx dy) c s fun g p sec m =>
    scrollSlot s g p sec m <|
      let r := pairRect g n
      let d : ScrollD := { r := r, dx := dx.toInt, dy := dy.toInt, staged := false }
      match scrollCheck s g.part g.launch g.ep d (if r.cbv then 1 else 0) r.cbo r.rsv with
      | .error code => cmdTrap s g p sec m code 0
      | .ok compl => acceptScroll s g p sec d compl

def execScrollX (c : Ctl) (n : BitVec 6) (dx dy : BitVec 7) (s : State) : Out :=
  engineIssue (.scrollX c n dx dy) c s fun g p sec m =>
    scrollSlot s g p sec m <|
      withDesc (.scrollX c n dx dy) s g p sec m (readDesc s g n.toNat 32 32) fun bs g =>
        let (d, ck, co, rsv) := parseScroll (valueLE bs) dx.toInt dy.toInt
        match scrollCheck s g.part g.launch g.ep d ck co rsv with
        | .error code => cmdTrap s g p sec m code 0
        | .ok compl => acceptScroll s g p sec d compl

/-! ### The scroll state (R220, R221) -/

def scrollWord (x : ScrollSt) : Word64 :=
  BitVec.ofNat 64 (x.sts % 16 * 2 ^ 52 + x.frg % 16 * 2 ^ 48 + (if x.sin then 2 ^ 16 else 0) + x.ccol % 256 * 2 ^ 8 + x.crow % 256)

def execScrq (c : Ctl) (d : BitVec 6) (s : State) : Out :=
  fixed (.scrq c d) c 8 none s fun g m => if m = 0 then g else g.setUni d.toNat (scrollWord g.scroll)

/-- A scroll is abandoned: ERR in its object, no arrival and no event; its number completes (R213, R221, R292). -/
def State.abandonScroll (s : State) (g : Group) : State :=
  match g.scroll.cmd.bind s.cmd? with
  | none => s.setGroup { g with scroll := {} }
  | some c =>
    let s := s.setGroup { g with scroll := {} }
    ({ s with faults := s.faults.filter fun f => f.target != FTarget.cmd c.id }.complMark c true false).retire c

def execScrres (c : Ctl) (s : State) : Out :=
  engineIssue (.scrres c) c s fun g p sec m =>
    match g.scroll.sts with
    | 3 => .next (advance s { g.note with scroll := { g.scroll with want := true } } p sec)
    | 4 => .next (advance s { g.note with scroll := { g.scroll with sts := 1, frg := 0 } } p sec)
    | 5 =>
      let s := s.abandonScroll g
      match s.group? g.id with
      | some g => cmdTrap s g p sec m 0x21 0
      | none => .next s
    | _ => cmdTrap s g p sec m 0x3B 0

/-! ### Progress (R219, R220, R285, R288, R289) -/

/-- The state of the group's scroll follows its command; a chained scroll has no such state (R112). -/
def State.scrollSts (s : State) (c : Cmd) (f : ScrollSt → ScrollSt) : State :=
  if c.chain.isSome then s
  else
    match s.group? c.gid with
    | some g => if g.scroll.cmd = some c.id then s.setGroup { g with scroll := f g.scroll } else s
    | none => s

/-- Whether the scroll may move: a chained one unless it waits for the driver or for its predecessor, a group's while its STS is
1. -/
def State.scrollRuns (s : State) (c : Cmd) : Bool :=
  c.status == 0 && !(s.waits c) &&
    (if c.chain.isSome then !(s.waitsPrev c)
     else match s.group? c.gid with | some g => g.scroll.sts == 1 && g.scroll.cmd == some c.id | none => false)

/-- A chained scroll that cannot go on ends in error (R112); a group's halts with STS 5. -/
def State.scrollFail (s : State) (c : Cmd) (frg : Nat) : State :=
  if c.chain.isSome then s.setCmd { c with status := 2, sts := 2, err := true }
  else (s.setCmd c).scrollSts c fun x => { x with sts := 5, frg := frg }

/-- CCOL and CROW after n whole positions (R220). -/
def scrollCount (d : ScrollD) (n : Nat) (x : ScrollSt) : ScrollSt :=
  if d.ro then { x with crow := n / d.r.w, ccol := n % d.r.w } else { x with ccol := n / d.r.h, crow := n % d.r.h }

/-- Bytes of an element of the scroll, and how many elements a position holds. -/
def ScrollD.esz (d : ScrollD) : Nat := elemSize d.r.fmt
def ScrollD.per (d : ScrollD) : Nat := d.r.len / d.esz

def stagedKey (i o : Nat) : Nat := i * 2 ^ 19 + o

/-- Keeps bytes that a thread has read. -/
def keep (m : Map Byte) (k : Nat) : List Byte → Map Byte
  | [] => m
  | b :: r => keep (mset 0 m k b) (k + 1) r

def kept (m : Map Byte) (k n : Nat) : List Byte := (range k n).map (mget 0 m)

/-- The physical offset of element e in the store of a position. -/
def State.scrollOff (s : State) (c : Cmd) (d : ScrollD) (e : Nat) : Nat := (s.rangeOf c.launch).1 + d.r.off + e * d.esz

/-- The bytes of the staging region that hold n bytes of a position (R251, R261). -/
def State.stagePas (s : State) (part e off n : Nat) : List Nat :=
  let p := s.part part
  range (p.stgbase.toNat + p.posIx e * 393216 + off) n

/-- Whether element e, at a physical offset, is the first of its position in its sector (R393). -/
def ScrollD.opens (d : ScrollD) (e off : Nat) : Bool := e == 0 || decide (off % 32 < d.esz)

/-- Whether a position is a hole whose shadow lies where there is no memory. -/
def State.noShadow (s : State) (c : Cmd) (e off n : Nat) : Bool :=
  s.isHole e && !((range off n).all fun o => paExists (s.shadowPa c.part c.tenant e o))

/-- Element e of source i is read, and a staged scroll writes it to the staging region (R219, R290). A staged scroll without a
staging region halts (R251), and a position that has stopped holding a block ends the scroll (R214, R285). -/
def scrollRead (s : State) (c : Cmd) (d : ScrollD) (i e : Nat) : State :=
  let x := d.sources.getD i 0
  let off := s.scrollOff c d e
  let sh := if s.isHole x then (range off d.esz).map (s.shadowPa c.part c.tenant x) else []
  let st := s.stagePas c.part x off d.esz
  if d.staged && ((s.part c.part).stgbase == 0 || !(st.all paExists)) then s.scrollFail c 3
  else if !(s.held c.launch [x]) then s.endErr c 1
  else if s.noShadow c x off d.esz then s.scrollFail c 2
  else if s.badSector sh then s.consumeCmd c sh
  else
    let bs := s.panRead c.part c.tenant x off d.esz
    let charge := fun (s : State) (pas : List Nat) => if d.opens e off then s.chargePas c pas else s
    let s := charge s sh
    if d.staged then
      let id := s.nextId
      let ws := wbytes st st bs
      let s := { s with nextId := id + 1 }.drainWrite id c.who .part ws []
      charge (s.setCmd { c with floors := floorsTo id ws c.floors }) st
    else s.setCmd { c with staged := keep c.staged (stagedKey i (e * d.esz)) bs }

/-- The bytes of element e of source i that were read. -/
def State.scrollBytes (s : State) (c : Cmd) (d : ScrollD) (i e : Nat) : List Byte :=
  if d.staged then (s.stagePas c.part (d.sources.getD i 0) (s.scrollOff c d e) d.esz).map s.byte
  else kept c.staged (stagedKey i (e * d.esz)) d.esz

/-- One element of a spill record is written, the last with the record's zero tail (R220, R289). -/
def scrollSpill (s : State) (c : Cmd) (d : ScrollD) (i e : Nat) : State :=
  let rlen := (d.r.len + 31) / 32 * 32
  let k := ((d.sources.take i).filter fun x => (scrollDest (s.part c.part) d x).isNone).length
  if d.spl < (k + 1) * rlen then s.scrollFail c 1
  else
    let va := d.spb + k * rlen + e * d.esz
    let last := e + 1 == d.per
    let n := if last then rlen - e * d.esz else d.esz
    match s.touch c .write false va n with
    | .miss v t => (s.scrollSts c fun x => { x with sts := 3, frg := 1 }).holdFault c v true t
    | .viol _ => s.scrollFail c 1
    | .ok pas =>
      let (s, c) := s.threadWrite c va pas (s.scrollBytes c d i e ++ List.replicate (n - d.esz) 0)
      let s := (if last then s.chargeCmd c (memIx (pas.headD 0)) (rlen / 32) else s).notePages c (range va n)
      s.setCmd { c with spilled := if last then c.spilled + 1 else c.spilled }

/-- One element is written at its destination in the sub-pan (R219, R285, R287). -/
def scrollWrite (s : State) (c : Cmd) (d : ScrollD) (x i e : Nat) : State :=
  let off := s.scrollOff c d e
  if !(s.held c.launch [x]) then s.setCmd { c with forDrop := true, err := true }
  else if s.noShadow c x off d.esz then s.scrollFail c 2
  else if s.clobbers x off d.esz then s.setCmd { c with clb := true }
  else
    let s := if d.opens e off && s.isHole x then s.chargePas c ((range off d.esz).map (s.shadowPa c.part c.tenant x)) else s
    let (s, c) := s.panWrite c x off (s.scrollBytes c d i e)
    (s.setCmd c).chargeCmd c 4 (if e = 0 then (d.r.len + 31) / 32 else 0)

/-- A stretch of elements, one after another, while the scroll runs; an element that could not be read or written stands before those
that are left, and one whose write has its signature point does not (R420). -/
def scrollEach (f : State → Cmd → Nat → State) (id : Nat) : Nat → Nat → State → State
  | 0, _, s => s
  | n + 1, e, s =>
    match s.cmd? id with
    | none => s
    | some c =>
      let t := f s c e
      match t.cmd? id with
      | none => t
      | some c' =>
        if t.scrollRuns c' then scrollEach f id n (e + 1) t
        else if c'.status ≠ 0 then t
        else if !(t.signing c') then t.setCmd { c' with left := (e, n + 1) :: c'.left }
        else if n = 0 then t
        else t.setCmd { c' with left := (e + 1, n) :: c'.left }

/-- The scroll goes on to the next source position, or is over (R219, R220). -/
def scrollNext (s : State) (c : Cmd) (d : ScrollD) : State :=
  let n := c.pos + 1
  (s.setCmd { c with pos := n, left := allOf d.per, status := if n = d.sources.length then 1 else 0 }).scrollSts c (scrollCount d n)

/-- A stretch of a scroll's elements is read, or written: reads in any order, all of them before any write, writes position by
position in route order, and those of a spill record in address order (R219, R275, R289). -/
def scrollStep (s : State) (c : Cmd) (d : ScrollD) (cut : Nat) : State :=
  match c.phase with
  | 0 => s.setCmd { c with phase := 1, left := allOf (d.sources.length * d.per) }
  | 1 =>
    let (w, left) := takeLeft cut c.left
    let t := scrollEach (fun s c k => scrollRead s c d (k / d.per) (k % d.per)) c.id w.2 w.1 (s.setCmd { c with left := left })
    match t.cmd? c.id with
    | some c => if c.status = 0 && c.left == [] then
        (t.setCmd { c with phase := 3, left := allOf d.per }).scrollSts c fun x => { x with sin := false } else t
    | none => t
  | _ =>
    let t := match scrollDest (s.part c.part) d (d.sources.getD c.pos 0), c.left with
      | none, (e, n) :: r =>
        scrollEach (fun s c e => scrollSpill s c d c.pos e) c.id 1 e (s.setCmd { c with left := if n ≤ 1 then r else (e + 1, n - 1) :: r })
      | none, [] => s
      | some x, _ =>
        let (w, left) := takeLeft cut c.left
        scrollEach (fun s c e => scrollWrite s c d x c.pos e) c.id w.2 w.1 (s.setCmd { c with left := left })
    match t.cmd? c.id with
    | some c => if c.status = 0 && c.left == [] then scrollNext t c d else t
    | none => t

/-- A stretch of a scroll's elements is read or written. `cut` chooses it. -/
def execScrollProgress (cmd cut : Nat) (s : State) : Out :=
  match s.cmd? cmd with
  | none => .next s
  | some c =>
    match c.kind with
    | .scroll d => .next (if s.scrollRuns c then scrollStep s c d cut else s)
    | _ => .next s

/-! ### The end of a group (R148, R209, R292) -/

/-- Whether a group that reaches its end must still wait: unperformed operations, or a running scroll. -/
def Group.busy (g : Group) : Bool := !(g.iq.isEmpty) || !(g.outst.isEmpty) || g.scroll.sts == 1

/-- `EXIT` waits for the flags, then ends every active lane of the path; the last path of the group ends it, with a halted scroll
abandoned and, for the last group of a restartable block, the block committed (R209, R292). -/
def execExit (c : Ctl) (s : State) : Out :=
  issue (.exit c) c s fun g p sec =>
    if guardOf g p c = 0 then .next (advance s g p sec)
    else if !(g.allClear) then .next s
    else
      let h := g.endPath sec p
      if !(h.ended) then .next (s.setGroup h)
      else if g.busy then .next s
      else
        let last := match s.block? g.block with | some b => decide (b.alive ≤ 1) | none => false
        match (if last then s.gate g false else none) with
        | some s => .next s
        | none =>
          let s := if 3 ≤ g.scroll.sts then s.abandonScroll g else s
          .next (s.endGroup { h with scroll := {} })

end Sys2Proof.Machine
end

