-- ==== Sys2Proof/Machine/Array.lean ====
section
/-! DEFINITION. The matrix arrays: weights, products, checksums, accumulators and the correcting mode (R88 to R91, R228 to
R240, R295 to R311). -/

namespace Sys2Proof.Machine

/-! ### The values of an array -/

def accKey (bank row j : Nat) : Nat := bank * 2 ^ 20 + row * 2 ^ 12 + j
def rowKey (bank row : Nat) : Nat := bank * 256 + row
def colKey (bank j : Nat) : Nat := bank * 4096 + j
def wKey (k j : Nat) : Nat := k * 4096 + j

/-- The pattern of −∞, which `AZERO` leaves in m. -/
def negInf : Word32 := 0xFF800000#32
def posInf : Word32 := 0x7F800000#32
def nan32 : Word32 := 0x7FC00000#32

/-- A map's FP32 value at a key; an unlisted one is +0. -/
def getF (m : Map Word32) (k : Nat) : Ext := f32 (mget 0 m k)
def putF (m : Map Word32) (k : Nat) (x : Ext) : Map Word32 := mset 0 m k (toF32 x)

/-- Writes a list of words from a key on. -/
def putWords (m : Map Word32) (k : Nat) : List Word32 → Map Word32
  | [] => m
  | w :: r => putWords (mset 0 m k w) (k + 1) r

/-- R90 with every rounding upward: the bounds of R303. -/
def sumUp : Nat → List Ext → Ext → Ext
  | 0, _, acc => acc
  | fuel + 1, ps, acc =>
    match ps with
    | [] => acc
    | _ =>
      let t := f32 (toF32Up ((chunkSum (ps.take 16) none).getD Ext.zero))
      sumUp fuel (ps.drop 16) (f32 (toF32Up (Ext.add false acc t)))

def boundUp (ps : List Ext) (acc : Ext) : Ext := sumUp (ps.length / 16 + 1) ps acc

/-- An exact sum. -/
def exactSum (l : List Ext) : Ext := (chunkSum l none).getD Ext.zero

/-- Element-wise products of two vectors. -/
def products (a b : List Ext) : List Ext := a.zipWith Ext.mul b

/-- A latched weight (R230). -/
def Latch.at (w : Latch) (k j : Nat) : Ext := mget Ext.zero w.w (wKey k j)
def Latch.column (w : Latch) (kd j : Nat) : List Ext := (range 0 kd).map fun k => w.at k j
def Latch.line (w : Latch) (n k : Nat) : List Ext := (range 0 n).map fun j => w.at k j

/-! ### Little-endian elements -/

/-- Splits bytes into values of z bytes each. -/
def chopLE (z : Nat) : Nat → List Byte → List Nat
  | 0, _ => []
  | n + 1, bs => valueLE (bs.take z) :: chopLE z n (bs.drop z)

/-- The elements of a row of n values of a type code (BF16, E4M3, E5M2 or FP32). -/
def elemsOf (fmt n : Nat) (bs : List Byte) : List Ext :=
  let f := match fmt with
    | 8 => fmtF32
    | 10 => fmtBF16
    | 11 => fmtE4M3
    | _ => fmtE5M2
  (chopLE (elemSize fmt) n bs).map f.decode

def wordsOf (n : Nat) (bs : List Byte) : List Word32 := (chopLE 4 n bs).map (BitVec.ofNat 32)
def bytesOf (ws : List Word32) : List Byte := ws.flatMap fun w => bytesLE w.toNat 4

/-! ### Rows of rectangles (R231, R285) -/

/-- How many rows of n bytes a rectangle holds. -/
def Rect.rows (r : Rect) (n : Nat) : Nat := r.w * r.h * (r.len / n)

/-- Elements of a rectangle, position by position in row-major order and in address order in each: where one lies. -/
def Rect.per (r : Rect) : Nat := r.len / elemSize r.fmt
def Rect.count (r : Rect) : Nat := r.w * r.h * r.per
def Rect.at (r : Rect) (i : Nat) : Nat × Nat :=
  let k := i / r.per
  (epOf (r.x + k % r.w) (r.y + k / r.w), r.off + i % r.per * elemSize r.fmt)

/-- The rows of n bytes in one position's bytes, and in those of every position; no row spans two. -/
def rowsIn (n : Nat) : Nat → List Byte → List (List Byte)
  | 0, _ => []
  | k + 1, bs => bs.take n :: rowsIn n k (bs.drop n)

def rowsOf (len n : Nat) : Nat → List Byte → List (List Byte)
  | 0, _ => []
  | k + 1, bs => rowsIn n (len / n) bs ++ rowsOf len n k (bs.drop len)

/-- The rectangles a command reads; the scale vector of `ADRAIN` stands in the store of the issuing EP (R233). -/
def CmdKind.reads (ep : Nat) : CmdKind → List Rect
  | .mma _ _ r _ => [r]
  | .aload _ _ r _ _ => [r]
  | .adrain _ _ _ _ _ (some o) _ nc => [{ x := epX ep, y := epY ep, off := o, len := 2 * nc, fmt := 1 }]
  | .delta ck _ _ kr vr tr _ _ _ _ _ => [kr, vr] ++ if ck then [tr] else []
  | .tsolve kr _ _ _ _ => [kr]
  | .atile q _ _ _ _ _ _ _ _ _ _ _ => [q]
  | .amerge _ r _ => [r]
  | _ => []

/-- The rectangle a command writes. -/
def CmdKind.writes : CmdKind → Option Rect
  | .adrain _ _ _ _ r _ _ _ => some r
  | .tsolve _ r _ _ _ => some r
  | .atile _ o _ _ _ _ _ _ _ _ _ _ => some o
  | _ => none

/-- Element i of a list of rectangles. -/
def elemIn : List Rect → Nat → Option (Rect × Nat)
  | [], _ => none
  | r :: rs, i => if i < r.count then some (r, i) else elemIn rs (i - r.count)

/-- How many elements a command reads; a tile's weights count byte by byte. -/
def Cmd.inputs (c : Cmd) : Nat :=
  match c.kind with
  | .wload _ _ wlen _ _ _ => wlen
  | k => ((k.reads c.ep).map Rect.count).sum

/-- The bytes of a rectangle, by its place among those a command reads. -/
def Cmd.rectBytes (c : Cmd) (k : Nat) : List Byte :=
  let rs := (c.kind.reads c.ep).map fun r => r.w * r.h * r.len
  ((c.got.flatMap fun x => x.2).drop (rs.take k).sum).take (rs.getD k 0)

/-- The rows of n bytes of a rectangle, by its place. -/
def Cmd.rows (c : Cmd) (k n : Nat) : List (List Byte) :=
  match (c.kind.reads c.ep)[k]? with
  | some r => rowsOf r.len n (r.w * r.h) (c.rectBytes k)
  | none => []

/-- The rows of a rectangle as elements of a type code. -/
def Cmd.elemRows (c : Cmd) (k fmt n : Nat) : List (List Ext) := (c.rows k (n * elemSize fmt)).map (elemsOf fmt n)

/-- The bytes of memory that element i of what a command reads comes from: the tenant's window of the weight buffer (R298), or a
hole's shadow. -/
def State.inputPas (s : State) (c : Cmd) (i : Nat) : List Nat :=
  match c.kind, elemIn (c.kind.reads c.ep) i with
  | .wload _ wbo _ _ _ _, _ => [wbufPa (s.arrayOf c.ep) ((s.tenant c.part c.tenant).wwb * 65536 + wbo + i)]
  | _, some (r, k) =>
    let (e, o) := r.at k
    if s.isHole e then (range ((s.rangeOf c.launch).1 + o) (elemSize r.fmt)).map (s.shadowPa c.part c.tenant e) else []
  | _, none => []

/-- Element i of what a command reads; zeros at a position that has stopped holding a block, which the second result says. -/
def State.input (s : State) (c : Cmd) (i : Nat) : List Byte × Bool :=
  match c.kind, elemIn (c.kind.reads c.ep) i with
  | .wload .., _ => ((s.inputPas c i).map s.byte, false)
  | _, some (r, k) =>
    let (e, o) := r.at k
    let z := elemSize r.fmt
    if s.held c.launch [e] then (s.panRead c.part c.tenant e ((s.rangeOf c.launch).1 + o) z, false) else (List.replicate z 0, true)
  | _, none => ([], false)

/-- A stretch of what a command reads is read (R399). -/
def State.readIn (s : State) (c : Cmd) (w : Nat × Nat) : State :=
  let xs := range w.1 w.2
  let pas := xs.flatMap (s.inputPas c)
  if s.badSector pas then s.consumeCmd c pas
  else
    let ys := xs.map (s.input c)
    (s.setCmd { c with got := gotAt w.1 (ys.flatMap fun y => y.1) c.got, err := c.err || ys.any fun y => y.2 }).chargePas c
      (match c.kind with | .wload .. => [] | _ => pas)

/-- A stretch of what a command reads before it computes; the reads come in any order (R275). -/
def State.gather (s : State) (c : Cmd) (cut : Nat) : State :=
  let (w, left) := takeLeft cut c.left
  s.readIn { c with left := left, phase := if left = [] then 2 else 1 } w

/-- The bytes of a hole's shadow that element i of what a command writes goes to. -/
def State.outputPas (s : State) (c : Cmd) (r : Rect) (i : Nat) : List Nat :=
  let (e, o) := r.at i
  if s.isHole e then (range ((s.rangeOf c.launch).1 + o) (elemSize r.fmt)).map (s.shadowPa c.part c.tenant e) else []

/-- Element i of what a command writes, at a position that still holds a block; one that no longer does is not written. -/
def State.output (s : State) (c : Cmd) (r : Rect) (i : Nat) : State × Cmd :=
  let (e, o) := r.at i
  let z := elemSize r.fmt
  if s.held c.launch [e] then s.panWrite c e ((s.rangeOf c.launch).1 + o) ((c.outb.drop (i * z)).take z)
  else (s, { c with err := true })

def State.outputs (s : State) (c : Cmd) (r : Rect) : List Nat → State × Cmd
  | [] => (s, c)
  | i :: is =>
    let (s, c) := s.output c r i
    s.outputs c r is

/-! ### Acceptance (R211, R212, R305) -/

/-- An array command's issue: held while the queue of the group's array holds 64 commands. -/
def arrayIssue (i : Instr) (c : Ctl) (s : State) (k : Group → Path → Bool → Lanes → Out) : Out :=
  engineIssue i c s fun g p sec m =>
    if 64 ≤ (s.array (s.arrayOf g.ep)).queue.length then .next s else k g p sec m

/-- The array of a command: that of its EP's quadrant. -/
def State.arrOf (s : State) (c : Cmd) : Nat := s.arrayOf c.ep

/-- A finished array command: its banks, its floors, and any error it met. -/
def State.arrDone (s : State) (c : Cmd) (st : AccSt) (err : Bool) : State :=
  (s.setCmd { c with status := 1, err := c.err || err, got := [], outb := [], staged := [] }).modArray (s.arrOf c)
    fun u => { u with st := st, floors := c.floors }

/-- A command has its results: its banks, and the bytes that it goes on to write. -/
def State.arrOut (s : State) (c : Cmd) (st : AccSt) (bs : List Byte) : State :=
  let n := match c.kind.writes with | some r => bs.length / elemSize r.fmt | none => 0
  if n = 0 then s.arrDone c st false
  else (s.setCmd { c with phase := 3, outb := bs, left := allOf n }).modArray (s.arrOf c) fun u => { u with st := st }

/-- A stretch of what a command writes; the writes come in any order (R275). -/
def State.scatter (s : State) (c : Cmd) (cut : Nat) : State :=
  match c.kind.writes with
  | none => s
  | some r =>
    let (w, left) := takeLeft cut c.left
    let s := s.chargePas c ((range w.1 w.2).flatMap (s.outputPas c r))
    let (s, c) := s.outputs c r (range w.1 w.2)
    if left = [] then s.arrDone c (s.array (s.arrOf c)).st false else s.setCmd { c with left := left }

/-- A command joins the queue of its array. -/
def State.joinArray (s : State) (c : Cmd) : State :=
  (s.addCmd c).modArray (s.arrOf c) fun u => { u with queue := u.queue ++ [c.id] }

/-- A new array command; a group whose trap is on its way gets its commands cancelled (R305). -/
def arrayCmd (s : State) (g : Group) (kind : CmdKind) (compl : Compl) : Cmd :=
  { newCmd s g 2 (s.arrayOf g.ep) kind compl with cancelled := g.cancel && g.handler.isNone, hnd := g.handler.isSome }

def acceptArr (s : State) (g : Group) (p : Path) (sec : Bool) (kind : CmdKind) (compl : Compl) : Out :=
  .next (advance (s.joinArray (arrayCmd s g kind compl)) g.note p sec)

/-- Width N and depth kd of a group's array (R295). -/
def State.widthAt (s : State) (ep : Nat) : Nat := arrN (s.fusOf ep)
def State.depthAt (s : State) (ep : Nat) : Nat := arrKd (s.fusOf ep)

/-- How many quadrants an array fuses. -/
def State.members (s : State) (ep : Nat) : Nat :=
  match s.fusOf ep with
  | 1 => 2 | 2 => 2 | 3 => 4 | _ => 1

/-- The checks of a rectangle of rows (R97, R231, R233, R241): the rectangle, its format and row size, and the bank's rows. -/
def rowsFault (s : State) (part launch : Nat) (r : Rect) (fmt n row0 : Nat) : Option Nat :=
  match s.rectFault part launch r with
  | some c => some c
  | none =>
    if r.fmt ≠ fmt || r.len % n ≠ 0 then some 0x33
    else if 256 < row0 + r.rows n then some 0x32
    else none

/-! ### Weights (R228 to R230) -/

/-- A weight-tile descriptor, checked: reserved fields, then ranges. -/
def wloadKind (s : State) (part tenant launch ep : Nat) (t : Ty) (x : Nat) : Except Nat (CmdKind × Compl) :=
  let n := bits x 39 28 + 1
  let k := bits x 27 18 + 1
  let wbo := bits x 63 40
  let wlen := bits x 127 96
  let cbv := bitOf x 91
  let cbo := bits x 90 76
  let ten := s.tenant part tenant
  let win := min (ten.wwn * 65536) (2 ^ 24)
  if bits x 255 128 != 0 || bits x 95 92 != 0 || bits x 75 65 != 0 || bits x 17 0 != 0 then .error 0x31
  else if k % 32 != 0 || decide (s.depthAt ep < k) || decide (s.widthAt ep < n) || wbo % 32 != 0 || decide (win < wbo + wlen)
      || (cbv && decide ((s.rangeOf launch).2 < cbo * 16 + 16)) then .error 0x36
  else .ok (.wload t wbo wlen k n (bitOf x 64), if cbv then .barrier (objAt s launch ep cbo) else .none)

def execWload (c : Ctl) (t : Ty) (n : BitVec 6) (s : State) : Out :=
  arrayIssue (.wload c t n) c s fun g p sec m =>
    withDesc (.wload c t n) s g p sec m (readDesc s g n.toNat 32 32) fun bs g =>
      match wloadKind s g.part g.tenant g.launch g.ep t (valueLE bs) with
      | .error code => cmdTrap s g p sec m code 0
      | .ok (kind, compl) => acceptArr s g p sec kind compl

/-- Bytes of the 32 elements of a record. -/
def recBytes : Ty → Nat
  | .bf16 => 64
  | .i4 => 16
  | .i3 => 12
  | _ => 32

/-- An integer weight with its scale (R88). -/
def scaledWeight (q : Int) (e : Nat) : Ext :=
  if e = 255 then .nan else if q = 0 then Ext.zero else .num (decide (q < 0)) q.natAbs ((e : Int) - 127)

/-- Element i of a record (R76, R88, R229). -/
def weightOf (t : Ty) (x scale i : Nat) : Ext :=
  match t with
  | .bf16 => fmtBF16.decode (bits x (16 * i + 15) (16 * i))
  | .e4m3 => fmtE4M3.decode (bits x (8 * i + 7) (8 * i))
  | .i4 => scaledWeight (sxN 4 (bits x (4 * i + 3) (4 * i))) scale
  | .i3 => scaledWeight (sxN 3 (bits x (3 * i + 2) (3 * i))) scale
  | _ => fmtE5M2.decode (bits x (8 * i + 7) (8 * i))

/-- One record: its 32 elements and the bytes after it; none where it runs out or a reserved control bit is set. -/
def takeRecord (t : Ty) (bs : List Byte) : Option (List Ext × List Byte) :=
  match bs with
  | [] => none
  | ctl :: r =>
    if 2 ≤ ctl.toNat then none
    else if ctl = 1 then some (List.replicate 32 Ext.zero, r)
    else
      let int := t == .i4 || t == .i3
      let n := recBytes t
      match int, r with
      | true, [] => none
      | true, sc :: r =>
        if r.length < n then none
        else some ((range 0 32).map (weightOf t (valueLE (r.take n)) sc.toNat), r.drop n)
      | false, _ =>
        if r.length < n then none else some ((range 0 32).map (weightOf t (valueLE (r.take n)) 0), r.drop n)

/-- A line of whole records. -/
def takeLine (t : Ty) : Nat → List Byte → Option (List Ext × List Byte)
  | 0, bs => some ([], bs)
  | n + 1, bs =>
    match takeRecord t bs with
    | none => none
    | some (xs, r) => (takeLine t n r).map fun y => (xs ++ y.1, y.2)

/-- The lines of a tile in increasing order; every byte must be used (R229, R230). -/
def takeLines (t : Ty) (recs : Nat) : Nat → List Byte → Option (List (List Ext))
  | 0, bs => if bs = [] then some [] else none
  | n + 1, bs =>
    match takeLine t recs bs with
    | none => none
    | some (xs, r) => (takeLines t recs n r).map (xs :: ·)

/-- Latches the elements of one line; those at or beyond the line's length are not latched. -/
def putLine (tr : Bool) (line len : Nat) : Nat → List Ext → Map Ext → Map Ext
  | _, [], m => m
  | i, x :: r, m =>
    if len ≤ i then m
    else putLine tr line len (i + 1) r (mset Ext.zero m (if tr then wKey line i else wKey i line) x)

def putTile (tr : Bool) (len : Nat) : Nat → List (List Ext) → Map Ext → Map Ext
  | _, [], m => m
  | line, xs :: r, m => putTile tr len (line + 1) r (putLine tr line len 0 xs m)

/-- The standby half that a `WLOAD` fills (R230, R300). -/
def tileOf (t : Ty) (k n : Nat) (tr : Bool) (bs : List Byte) : Latch :=
  let len := if tr then n else k
  match takeLines t ((len + 31) / 32) (if tr then k else n) bs with
  | none => {}
  | some ls => { valid := true, fmt := some t, k := k, n := n, w := putTile tr len 0 ls [] }

/-! ### Products (R89 to R91, R303) -/

def execMma (c : Ctl) (t : Ty) (bank : BitVec 3) (n : BitVec 6) (row0 : BitVec 8) (s : State) : Out :=
  arrayIssue (.mma c t bank n row0) c s fun g p sec m =>
    let r := pairRect g n
    let fmt := (tyCode t).toNat
    match rowsFault s g.part g.launch r fmt (s.depthAt g.ep * elemSize fmt) row0.toNat with
    | some code => cmdTrap s g p sec m code 0
    | none => acceptArr s g p sec (.mma t bank.toNat r row0.toNat) (rectCompl s g.launch g.ep r)

/-- The elements (W·1)_k of the weight loader (R303). -/
def onesOf (w : Latch) (kd n : Nat) : List Ext := (range 0 kd).map fun k => dotR90 (w.line n k) Ext.zero

/-- One column of one row: the accumulator and its bounds (R90, R303). -/
def mmaColumn (bank row : Nat) (a mags : List Ext) (st : AccSt) (jw : Nat × List Ext) : AccSt :=
  let (j, w) := jw
  let k := accKey bank row j
  let ps := products mags (w.map Ext.abs)
  { st with
    acc := putF st.acc k (dotR90 (products a w) (getF st.acc k))
    beta := putF st.beta (rowKey bank row) (boundUp ps (getF st.beta (rowKey bank row)))
    betaD := putF st.betaD (colKey bank j) (boundUp ps (getF st.betaD (colKey bank j))) }

/-- One activation row: every column, then the checksum column. -/
def mmaRow (bank : Nat) (cols : List (Nat × List Ext)) (ones : List Ext) (st : AccSt) (x : Nat × List Ext) : AccSt :=
  let (row, a) := x
  let st := cols.foldl (mmaColumn bank row a (a.map Ext.abs)) st
  { st with c := putF st.c (rowKey bank row) (dotR90 (products a ones) (getF st.c (rowKey bank row))) }

/-- The elements (1ᵀA)_k of the west feeder: each addition rounded, in row order (R303). -/
def feedSum : List (List Ext) → List Ext → List Ext
  | [], t => t
  | a :: r, t => feedSum r (t.zipWith (fun x y => rneE (Ext.add false x y)) a)

def feedRows : List (List Ext) → List Ext
  | [] => []
  | a :: r => feedSum r (a.map rneE)

/-- The checksum row takes one `MMA` (R303). -/
def mmaCheckRow (bank : Nat) (t : List Ext) (st : AccSt) (jw : Nat × List Ext) : AccSt :=
  let k := colKey bank jw.1
  { st with d := putF st.d k (dotR90 (products t jw.2) (getF st.d k)) }

/-- The effect of an `MMA` on the accumulators: rows from `row0` on against the active half (R231, R303). -/
def mmaApply (kd n bank row0 : Nat) (rows : List (List Ext)) (st : AccSt) : AccSt :=
  let cols := (range 0 n).map fun j => (j, st.active.column kd j)
  let ones := onesOf st.active kd n
  let st := ((range row0 rows.length).zip rows).foldl (mmaRow bank cols ones) st
  cols.foldl (mmaCheckRow bank (feedRows rows)) st

/-- The standby half becomes the active one where a `WLOAD` has filled it since the last `MMA` (R300). -/
def AccSt.swap (st : AccSt) : AccSt := if st.standbyFresh then { st with active := st.standby, standbyFresh := false } else st

/-! ### Accumulators (R233 to R235, R303, R304) -/

/-- The columns of an `ALOAD` or `ADRAIN`: the array's width where W = 1 (R233). -/
def ncOf (s : State) (ep : Nat) (nc : BitVec 11) (full : Bool) : Nat := if full then s.widthAt ep else nc.toNat + 1

def accRowBytes (nc : Nat) (sc : Bool) : Nat := 4 * nc + (if sc then 8 else 0)

/-- The checks of a rectangle of bank rows, in the order of R97 (R233; log 37). -/
def accFault (s : State) (part launch ep : Nat) (r : Rect) (nc : Nat) (sc : Bool) (row0 : Nat) : Option Nat :=
  if !r.rsv then some 0x31 else if s.widthAt ep < nc then some 0x36 else rowsFault s part launch r 8 (accRowBytes nc sc) row0

def execAload (c : Ctl) (sc : Bool) (bank : BitVec 3) (n : BitVec 6) (row0 : BitVec 8) (nc : BitVec 11) (full : Bool)
    (s : State) : Out :=
  arrayIssue (.aload c sc bank n row0 nc full) c s fun g p sec m =>
    let r := pairRect g n
    let w := ncOf s g.ep nc full
    match accFault s g.part g.launch g.ep r w sc row0.toNat with
    | some code => cmdTrap s g p sec m code 0
    | none => acceptArr s g p sec (.aload sc bank.toNat r row0.toNat w) (rectCompl s g.launch g.ep r)

/-- `ADRAIN`; the faults of its scale vector's offset are found after those of its rectangle, which is the model's choice (log 37). -/
def execAdrain (c : Ctl) (nochk nrm sc : Bool) (bank : BitVec 3) (n : BitVec 6) (sv : Option (BitVec 6)) (row0 : BitVec 8)
    (nc : BitVec 11) (full : Bool) (s : State) : Out :=
  arrayIssue (.adrain c nochk nrm sc bank n sv row0 nc full) c s fun g p sec m =>
    let r := pairRect g n
    let w := ncOf s g.ep nc full
    match accFault s g.part g.launch g.ep r w sc row0.toNat with
    | some code => cmdTrap s g p sec m code 0
    | none =>
      let go := fun v => acceptArr s g p sec (.adrain nochk nrm sc bank.toNat r v row0.toNat w) (rectCompl s g.launch g.ep r)
      match sv with
      | none => go none
      | some x =>
        let v := (g.uni x.toNat).toNat
        match bareOffset v 2 (2 * w) (s.rangeOf g.launch).2 with
        | .error code => cmdTrap s g p sec m code v
        | .ok o => go (some o)

def execAzero (c : Ctl) (bank : BitVec 3) (s : State) : Out :=
  arrayIssue (.azero c bank) c s fun g p sec _ => acceptArr s g p sec (.azero bank.toNat) .none

/-- Drops the entries of one bank, given how many keys a bank has. -/
def dropBank (size bank : Nat) (m : Map Word32) : Map Word32 := m.filter fun x => x.1 / size ≠ bank

/-- `AZERO` (R234). An unlisted m is −∞. -/
def AccSt.zeroBank (st : AccSt) (b : Nat) : AccSt :=
  { st with
    acc := dropBank (2 ^ 20) b st.acc, m := dropBank 256 b st.m, l := dropBank 256 b st.l, c := dropBank 256 b st.c,
    beta := dropBank 256 b st.beta, d := dropBank 4096 b st.d, betaD := dropBank 4096 b st.betaD,
    unchecked := st.unchecked &&& ~~~(1#8 <<< b) }

def AccSt.uncheck (st : AccSt) (b : Nat) : AccSt := { st with unchecked := st.unchecked ||| (1#8 <<< b) }
def AccSt.checked (st : AccSt) (b : Nat) : Bool := !(st.unchecked.getLsbD b)

/-- Both halves of the latch become invalid (R300). -/
def AccSt.spoil (st : AccSt) : AccSt := { st with active := {}, standby := {}, standbyFresh := false }

def AccSt.mAt (st : AccSt) (b row : Nat) : Word32 := mget negInf st.m (rowKey b row)
def AccSt.lAt (st : AccSt) (b row : Nat) : Word32 := mget 0 st.l (rowKey b row)
def AccSt.row (st : AccSt) (b row n : Nat) : List Ext := (range 0 n).map fun j => getF st.acc (accKey b row j)
def AccSt.column (st : AccSt) (b j : Nat) : List Ext := (range 0 256).map fun r => getF st.acc (accKey b r j)

/-- The checksums and bounds of a bank from its contents (R303). -/
def AccSt.recheck (st : AccSt) (n b : Nat) : AccSt :=
  let rs := range 0 256
  let cs := range 0 n
  let st := rs.foldl (fun (st : AccSt) r =>
    let v := st.row b r n
    { st with c := putF st.c (rowKey b r) (exactSum v),
              beta := mset 0 st.beta (rowKey b r) (toF32Up (exactSum (v.map Ext.abs))) }) st
  let st := cs.foldl (fun (st : AccSt) j =>
    let v := st.column b j
    { st with d := putF st.d (colKey b j) (exactSum v),
              betaD := mset 0 st.betaD (colKey b j) (toF32Up (exactSum (v.map Ext.abs))) }) st
  { st with unchecked := st.unchecked &&& ~~~(1#8 <<< b) }

/-- One loaded row: its columns, then m and l (R234). -/
def aloadRow (sc : Bool) (b nc : Nat) (st : AccSt) (x : Nat × List Word32) : AccSt :=
  let (row, ws) := x
  let st := { st with acc := putWords st.acc (accKey b row 0) (ws.take nc) }
  if sc then
    { st with m := mset negInf st.m (rowKey b row) (ws.getD nc 0), l := mset 0 st.l (rowKey b row) (ws.getD (nc + 1) 0) }
  else st

/-- Whether a row's or column's exact sum mismatches its checksum (R235). -/
def mismatch (rel abs : Ext) (sum chk beta : Ext) : Bool :=
  if sum.isFinite && chk.isFinite then
    if rel.isNan || abs.isNan then true
    else if beta.isInf then false
    else
      let tol := Ext.fma false rel beta abs
      tol.isNan || Ext.lt tol (Ext.sub false sum chk).abs
  else !(sum.isNan && chk.isNan) && !(sum.isInf && chk.isInf && sum.isNeg == chk.isNeg)

/-- What the check finds: nothing, one element to correct with its new value, or another pattern. -/
inductive Found where
  | fine
  | fix (row j : Nat) (w : Word32)
  | other
  deriving DecidableEq, Repr

/-- The check of R235 over all 256 rows and every column (R304). -/
def AccSt.check (st : AccSt) (n b : Nat) (rel abs : Ext) : Found :=
  let rows := (range 0 256).filter fun r =>
    mismatch rel abs (exactSum (st.row b r n)) (getF st.c (rowKey b r)) (getF st.beta (rowKey b r))
  let cols := (range 0 n).filter fun j =>
    mismatch rel abs (exactSum (st.column b j)) (getF st.d (colKey b j)) (getF st.betaD (colKey b j))
  match rows, cols with
  | [], [] => .fine
  | [r], [j] =>
    let others := ((range 0 256).filter fun x => x != r).map fun x => getF st.acc (accKey b x j)
    let d := getF st.d (colKey b j)
    if d.isFinite && others.all Ext.isFinite then .fix r j (toF32 (Ext.sub false d (exactSum others))) else .other
  | _, _ => .other

/-- One drained value (R234). -/
def drainVal (x : Ext) (scale : Option Ext) (nrm : Bool) (l : Ext) : Word32 :=
  let x := match scale with | some k => rneE (x.mul k) | none => x
  if nrm then (if l.isZero then 0 else toF32 (Ext.div x l)) else toF32 x

/-- One drained value that is neither scaled nor normalised is the bank's bits. -/
def drainWord (w : Word32) (scale : Option Ext) (nrm : Bool) (l : Ext) : Word32 :=
  if scale.isNone && !nrm then w else drainVal (f32 w) scale nrm l

/-- The bytes of a drained row. -/
def AccSt.drainRow (st : AccSt) (b row nc : Nat) (scales : Option (List Ext)) (nrm sc : Bool) : List Byte :=
  let l := st.lAt b row
  let ws := (range 0 nc).map fun j =>
    drainWord (mget 0 st.acc (accKey b row j)) (scales.map fun v => v.getD j Ext.zero) nrm (f32 l)
  bytesOf (ws ++ if sc then [st.mAt b row, l] else [])

/-! ### The correcting mode (R236 to R240, R306 to R310) -/

/-- The first failed check of R97 of a structure with rectangles: its own reserved fields and theirs, its field ranges and theirs,
then R100 for each rectangle. -/
def State.rectsFault (s : State) (part launch : Nat) (rs : List Rect) (reserved ranges : Bool) : Option Nat :=
  if reserved || rs.any fun r => !r.rsv then some 0x31
  else if ranges || rs.any fun r => r.len == 0 || decide (393216 < r.len) then some 0x36
  else if rs.any fun r => !(s.rectFits part launch r (if r.cbv then some r.cbo else none)) then some 0x32
  else none

/-- The checks of a correcting descriptor: reserved fields, then what R236 reports as field-range, then the rectangles. -/
def deltaFault (s : State) (g : Group) (ck scalar : Bool) (bank x : Nat) (kr vr tr : Rect) : Option Nat :=
  let used := [kr, vr] ++ if ck then [tr] else []
  let nt := bits x 33 25 + 1
  let dk := bits x 41 34 + 1
  let dv := bits x 51 42 + 1
  let dlim := bits x 127 96
  s.rectsFault g.part g.launch used (bits x 95 92 != 0 || bits x 75 62 != 0 || bits x 24 0 != 0 || (!ck && bits x 511 384 != 0))
    (kr.fmt != 10 || (vr.fmt != 8 && vr.fmt != 10) || (ck && tr.fmt != 8) || (used.any fun r => r.cbv)
      || decide (kr.rows (2 * dk) < nt) || decide (vr.rows (dv * elemSize vr.fmt) < nt)
      || (!scalar && !ck && decide (64 < bits x 61 56 + nt)) || (bitOf x 55 && bits x 54 52 == bank)
      || (ck && (decide (64 < nt) || decide (tr.rows (4 * nt) < nt))) || dlim == 0 || decide (0x7F800000 ≤ dlim)
      || (bitOf x 91 && decide ((s.rangeOf g.launch).2 < bits x 90 76 * 16 + 16)))

/-- The command of a correcting descriptor, with the step sizes copied now (R307). -/
def deltaKind (g : Group) (ck : Bool) (scalar : Option Word32) (bank x : Nat) : CmdKind :=
  let nt := bits x 33 25 + 1
  let betas := match scalar with
    | some b => List.replicate nt b
    | none => if ck then [] else (range (bits x 61 56) nt).map (mget 0 g.beta)
  .delta ck bank betas (parseRect (bits x 255 128)) (parseRect (bits x 383 256)) (parseRect (bits x 511 384))
    (BitVec.ofNat 32 (bits x 127 96)) (if bitOf x 55 then some (bits x 54 52) else none)
    (bits x 51 42 + 1) (bits x 41 34 + 1) nt

/-- Acceptance of `DELTA` in both forms. -/
def deltaIssue (i : Instr) (c : Ctl) (ck : Bool) (scalar : Option Word32) (bank : BitVec 3) (n : BitVec 6) (s : State) : Out :=
  arrayIssue i c s fun g p sec m =>
    withDesc i s g p sec m (readDesc s g n.toNat 64 64) fun bs g =>
      let x := valueLE bs
      match deltaFault s g ck scalar.isSome bank.toNat x (parseRect (bits x 255 128)) (parseRect (bits x 383 256))
          (parseRect (bits x 511 384)) with
      | some code => cmdTrap s g p sec m code 0
      | none =>
        acceptArr s g p sec (deltaKind g ck scalar bank.toNat x)
          (if bitOf x 91 then .barrier (objAt s g.launch g.ep (bits x 90 76)) else .none)

def execDelta (c : Ctl) (scalar : Bool) (bank : BitVec 3) (n : BitVec 6) (beta : BitVec 32) (s : State) : Out :=
  deltaIssue (.delta c scalar bank n beta) c false (if scalar then some beta else none) bank n s

def execDeltaCk (c : Ctl) (bank : BitVec 3) (n : BitVec 6) (s : State) : Out :=
  deltaIssue (.deltaCk c bank n) c true none bank n s

/-- The checks of `TSOLVE` (R237, R239). -/
def tsolveFault (s : State) (part launch : Nat) (kr orr : Rect) (c : Nat) : Option Nat :=
  let tot := kr.w * kr.h * kr.len
  let dk := tot / (2 * c)
  s.rectsFault part launch [kr, orr] false
    (kr.fmt != 10 || orr.fmt != 8 || kr.cbv || kr.cbo != 0 || tot % (2 * c) != 0 || dk == 0 || decide (256 < dk)
      || kr.len % (2 * dk) != 0 || orr.w * orr.h * orr.len != 4 * c * c || orr.len % (4 * c) != 0)

def execTsolve (c : Ctl) (n m : BitVec 6) (cnt : BitVec 7) (bofs : BitVec 6) (s : State) : Out :=
  arrayIssue (.tsolve c n m cnt bofs) c s fun g p sec ms =>
    let kr := pairRect g n
    let orr := pairRect g m
    let k := cnt.toNat
    match tsolveFault s g.part g.launch kr orr k with
    | some code => cmdTrap s g p sec ms code 0
    | none =>
      acceptArr s g p sec
        (.tsolve kr orr ((range bofs.toNat k).map (mget 0 g.beta)) k (kr.w * kr.h * kr.len / (2 * k)))
        (rectCompl s g.launch g.ep orr)

/-- A dot product from +0 in R90's order. -/
def dot0 (a b : List Ext) : Ext := dotR90 (products a b) Ext.zero

/-- Fused multiply-adds one after another, one rounding each (R239, R240). -/
def seqFma : List (Ext × Ext) → Ext → Ext
  | [], acc => acc
  | (a, b) :: r, acc => seqFma r (rneE (Ext.fma false a b acc))

/-- The state's column j, rows 0 to d_k − 1. -/
def AccSt.stateCol (st : AccSt) (b dk j : Nat) : List Ext := (range 0 dk).map fun i => getF st.acc (accKey b i j)

/-- Copies the state's rectangle to the shadow bank. -/
def AccSt.shadow (st : AccSt) (b : Nat) (shb : Option Nat) (dk dv : Nat) : AccSt :=
  match shb with
  | none => st
  | some h =>
    let rows := (range 0 dk).foldl (fun m i =>
      putWords m (accKey h i 0) ((range 0 dv).map fun j => mget 0 st.acc (accKey b i j))) st.acc
    { st with acc := rows }

/-- Sets one state element. -/
def AccSt.setS (st : AccSt) (b i j : Nat) (x : Ext) : AccSt := { st with acc := putF st.acc (accKey b i j) x }

/-- One token of sequential `DELTA` (R238); a β of +0 leaves the state as it is, bit for bit (R307). -/
def deltaToken (st : AccSt) (b : Nat) (shb : Option Nat) (dk dv : Nat) (beta : Ext) (k v : List Ext) : AccSt :=
  let u := (range 0 dv).map fun j =>
    let y := dot0 (st.stateCol b dk j) k
    rneE (beta.mul (rneE (Ext.sub false (v.getD j Ext.zero) y)))
  let st := st.shadow b shb dk dv
  if beta.isZero && !beta.isNeg then st
  else
    (range 0 dk).foldl (fun st i => (range 0 dv).foldl (fun (st : AccSt) j =>
      st.setS b i j (Ext.fma false (k.getD i Ext.zero) (u.getD j Ext.zero) (getF st.acc (accKey b i j)))) st) st

/-- One chunk of `DELTA.ck` (R240). -/
def deltaChunk (st : AccSt) (b : Nat) (shb : Option Nat) (dk dv nt : Nat) (ks vs ts : List (List Ext)) : AccSt :=
  let at_ := fun (m : List (List Ext)) t i => (m.getD t []).getD i Ext.zero
  let mix := fun (m : List (List Ext)) t i => seqFma ((range 0 (t + 1)).map fun t' => (at_ ts t t', at_ m t' i)) Ext.zero
  let d := (range 0 nt).map fun t =>
    let w := (range 0 dk).map (mix ks t)
    (range 0 dv).map fun j => rneE (Ext.sub false (mix vs t j) (dot0 w (st.stateCol b dk j)))
  let st := st.shadow b shb dk dv
  (range 0 dk).foldl (fun st i => (range 0 dv).foldl (fun (st : AccSt) j =>
    st.setS b i j (seqFma ((range 0 nt).map fun t => (at_ ks t i, at_ d t j)) (getF st.acc (accKey b i j)))) st) st

/-- Whether a state element is NaN, infinite or beyond the limit (R238). -/
def AccSt.diverged (st : AccSt) (b dk dv : Nat) (dlim : Word32) : Bool :=
  (range 0 dk).any fun i => (range 0 dv).any fun j =>
    decide (dlim.toNat < (mget 0 st.acc (accKey b i j)).toNat % 2 ^ 31)

/-- The rows of T by forward substitution (R239); `a` holds the rows of a[t][t'], `xs` the rows of x found so far. -/
def solveRow (a : List Ext) (xs : List (List Ext)) (t : Nat) : List Ext :=
  ((range 0 t).map fun t' =>
    (seqFma ((range t' (t - t')).map fun m => (a.getD m Ext.zero, (xs.getD m []).getD t' Ext.zero)) Ext.zero).neg) ++ [Ext.one]

def solveRows (a : List (List Ext)) : Nat → Nat → List (List Ext) → List (List Ext)
  | 0, _, xs => xs
  | n + 1, t, xs => solveRows a n (t + 1) (xs ++ [solveRow (a.getD t []) xs t])

/-- T for C keys and their step sizes (R239). -/
def tsolveRows (ks : List (List Ext)) (b : List Ext) : List (List Word32) :=
  let c := ks.length
  let a := (range 0 c).map fun t => (range 0 t).map fun t' =>
    rneE ((b.getD t Ext.zero).mul (dot0 (ks.getD t []) (ks.getD t' [])))
  let xs := solveRows a c 0 []
  (range 0 c).map fun t => (range 0 c).map fun t' =>
    if t' ≤ t then toF32 (((xs.getD t []).getD t' Ext.zero).mul (b.getD t' Ext.zero)) else 0

/-! ### Reads and writes in any order (R275) -/

/-- Whether an element has been read. -/
def Cmd.hasRead (c : Cmd) (i : Nat) : Bool := c.rest.all fun x => !(inRange i x.1 x.2)

/-- Whether all that element i of what a command writes depends on has been read: a column's scale, the keys up to a row's own. -/
def Cmd.ready (c : Cmd) (i : Nat) : Bool :=
  match c.kind with
  | .adrain _ _ sc _ _ _ _ nc =>
    let j := i % (accRowBytes nc sc / 4)
    decide (nc ≤ j) || c.hasRead j
  | .tsolve _ _ _ cnt dk => c.rest.all fun x => decide ((i / cnt + 1) * dk ≤ x.1)
  | _ => true

/-- Element i, of two bytes, of what has been read; zeros for one that has not. -/
def Cmd.read2 (c : Cmd) (i : Nat) : List Byte :=
  match c.got.find? fun x => inRange i x.1 (x.2.length / 2) with
  | some x => (x.2.drop (2 * (i - x.1))).take 2
  | none => [0, 0]

/-- The command with zeros for what it has not read. -/
def Cmd.padded (c : Cmd) : Cmd := { c with got := [(0, (range 0 c.inputs).flatMap c.read2)] }

/-- What a command writes, as far as it depends on what has been read. -/
def Cmd.mixedOut (c : Cmd) (st : AccSt) : List Byte :=
  match c.kind with
  | .adrain _ nrm sc bank r _ row0 nc =>
    let scales := some (elemsOf 10 nc (c.padded.rectBytes 0))
    (range row0 (r.rows (accRowBytes nc sc))).flatMap fun row => st.drainRow bank row nc scales nrm sc
  | .tsolve _ _ betas cnt dk => (tsolveRows ((c.padded.elemRows 0 10 dk).take cnt) (betas.map f32)).flatMap bytesOf
  | _ => []

/-- A command that reads and writes in any order has begun: its banks, and all elements still to read and to write. -/
def State.startMixed (s : State) (c : Cmd) (st : AccSt) : State :=
  let n := match c.kind.writes with | some r => r.count | none => 0
  (s.setCmd { c with phase := 4, left := allOf n, rest := allOf c.inputs }).modArray (s.arrOf c) fun u => { u with st := st }

/-- A stretch of elements is read, or one that depends on nothing unread is written; `cut` chooses. -/
def State.mixed (s : State) (c : Cmd) (cut : Nat) : State :=
  if c.rest ≠ [] && cut % 2 = 0 then
    let (w, rest) := takeLeft (cut / 2) c.rest
    s.readIn { c with rest := rest } w
  else
    let w := (takeLeft (cut / 2) c.left).1
    if (range w.1 w.2).all c.ready then s.scatter { c with outb := c.mixedOut (s.array (s.arrOf c)).st } (cut / 2) else s

end Sys2Proof.Machine
end

