-- ==== Sys2Proof/Machine/Entry.lean ====
section
/-! DEFINITION. Sequence-table entries: their fields, checks, pages and tier tags (R115 to R118). -/

namespace Sys2Proof.Machine

/-- A sequence-table entry, read; `exts` are base, pages and stride of the extents in use. -/
structure Entry where
  mula : Nat
  witm : Word64
  pkt : Word64
  ag2 : Nat
  ag1 : Nat
  wkey : Word64
  taga : Nat
  pst : Nat
  nkvh : Nat
  len : Nat
  exts : List (Nat × Nat × Nat)
  fault : Option Nat
  deriving DecidableEq, Repr

/-- Extent i, and whether it breaks a field range (R116). -/
def extentOf (x i : Nat) : Nat × Nat × Nat :=
  let e := bits x (639 + 128 * i) (512 + 128 * i)
  (bits e 63 0, bits e 95 64, bits e 127 96)

def badExtent (e : Nat × Nat × Nat) : Bool := e.2.1 == 0 || e.2.2 == 0 || e.1 % 65536 != 0

/-- A 320-byte entry with the first of its failed checks: reserved fields, then ranges (R116). The alignment of TAGA and the range of
LEN are not checked (log 97). -/
def parseEntry (bs : List Byte) : Entry :=
  let x := valueLE bs
  let n := bits x 29 25
  let used := (range 0 (min n 16)).map (extentOf x)
  let rest := (range n (16 - n)).map (extentOf x)
  { mula := bits x 447 384
    witm := BitVec.ofNat 64 (bits x 383 320)
    pkt := BitVec.ofNat 64 (bits x 319 256)
    ag2 := bits x 255 224
    ag1 := bits x 223 192
    wkey := BitVec.ofNat 64 (bits x 191 128)
    taga := bits x 127 64
    pst := bits x 39 38
    nkvh := bits x 37 30 + 1
    len := bits x 24 0
    exts := used
    fault :=
      if bits x 511 448 != 0 || bits x 63 40 != 0 || rest.any (fun e => e != (0, 0, 0))
          || (decide (n < 16) && bits x 2559 (512 + 128 * n) != 0) then some 0x31
      else if decide (16 < n) || used.any badExtent then some 0x36
      else none }

/-- The address of page g, walking the extents from extent 0 (R117). -/
def pageIn : List (Nat × Nat × Nat) → Nat → Option Nat
  | [], _ => none
  | (base, npg, str) :: r, g => if g < npg then some (base + g * str * 65536) else pageIn r (g - npg)

def Entry.page (e : Entry) (g : Nat) : Option Nat := pageIn e.exts g

/-- The page of slot n of a head, and the slot's byte in it (R117). -/
def Entry.pageIx (e : Entry) (n h : Nat) : Nat := n / 128 * e.nkvh + h
def slotOff (n : Nat) : Nat := n % 128 * 256

/-- The address of the key of a slot of a head; its value lies 32,768 bytes beyond. -/
def Entry.keyVa (e : Entry) (n h : Nat) : Option Nat := (e.page (e.pageIx n h)).map fun b => b + slotOff n

/-- The tier tag of page g in the byte that holds it (R115). -/
def tagOf (b : Byte) (g : Nat) : Nat := b.toNat / 4 ^ (g % 4) % 4

/-- The byte with the tag of page g replaced. -/
def withTag (b : Byte) (g t : Nat) : Byte :=
  BitVec.ofNat 8 (b.toNat - tagOf b g * 4 ^ (g % 4) + t * 4 ^ (g % 4))

def Entry.tagVa (e : Entry) (g : Nat) : Nat := e.taga + g / 4

/-- The pages of every head of a token page. -/
def Entry.headPages (e : Entry) (tp : Nat) : List Nat := range (tp * e.nkvh) e.nkvh

/-- The default work item of an entry, or its own (R118). -/
def Entry.item (e : Entry) (va : Nat) : Word64 :=
  if e.witm ≠ 0 then e.witm else BitVec.ofNat 64 (0b111110 * 2 ^ 58 + va / 64 % 2 ^ 58)

end Sys2Proof.Machine
end

