-- ==== Sys2Proof/Machine/Attention.lean ====
section
/-! DEFINITION. Attention tiles and their merging, and the execution of array commands (R212, R241 to R244, R276, R300, R305,
R312, R313). -/

namespace Sys2Proof.Machine

/-! ### Acceptance (R113, R241) -/

/-- The checks of an attention descriptor, in the order of R97, with the command it names. -/
def atileKind (s : State) (part tenant launch ep : Nat) (x entry : Nat) : Except Nat (CmdKind × Compl) :=
  let q := parseRect (bits x 255 128)
  let o := parseRect (bits x 383 256)
  let rows := bits x 44 37 + 1
  let npg := bits x 36 17
  let roff := bits x 431 417 * 16
  let ring := objAt s launch ep (bits x 431 417)
  let z := elemSize q.fmt
  match s.rectsFault part launch [q, o]
      (bits x 511 434 != 0 || bitOf x 432 || bits x 416 384 != 0 || bits x 127 96 != 0)
      (npg == 0 || decide (131072 < npg) || decide ((s.rangeOf launch).2 < roff + 16) || !(s.objLive ring)
        || !(ringEng (s.objVal ring)) || ringSz (s.objVal ring) != 32) with
  | some c => .error c
  | none =>
    if (q.fmt ≠ 10 && q.fmt ≠ 11 && q.fmt ≠ 12) || q.len % (128 * z) ≠ 0 || o.fmt ≠ 8 || o.len % 520 ≠ 0 then .error 0x33
    else if q.rows (128 * z) < rows || o.rows 520 < rows then .error 0x32
    else
      let before := s.cmds.filter fun c => c.part == part && c.tenant == tenant && c.kind.entry? == some entry
      .ok (.atile q o ring (bitOf x 433) (BitVec.ofNat 32 (bits x 95 64)) (bits x 63 48) (bits x 47 45) rows npg (bits x 16 0)
        entry (before.map fun c => c.id), .ring ring)

def execAtile (c : Ctl) (n m : BitVec 6) (s : State) : Out :=
  arrayIssue (.atile c n m) c s fun g p sec ms =>
    let entry := (g.uni m.toNat).toNat
    if entry % 64 ≠ 0 then cmdTrap s g p sec ms 0x30 0
    else
      withDesc (.atile c n m) s g p sec ms (readDesc s g n.toNat 64 64) fun bs g =>
        match atileKind s g.part g.tenant g.launch g.ep (valueLE bs) entry with
        | .error code => cmdTrap s g p sec ms code 0
        | .ok (kind, compl) => acceptArr s g p sec kind compl

def execAmerge (c : Ctl) (bank : BitVec 3) (n : BitVec 6) (row0 : BitVec 8) (s : State) : Out :=
  arrayIssue (.amerge c bank n row0) c s fun g p sec m =>
    let r := pairRect g n
    match rowsFault s g.part g.launch r 8 520 row0.toNat with
    | some code => cmdTrap s g p sec m code 0
    | none => acceptArr s g p sec (.amerge bank.toNat r row0.toNat) (rectCompl s g.launch g.ep r)

/-! ### One chunk (R242, R243) -/

/-- log2 e in FP32. -/
def l2e : Ext := f32 0x3FB8AA3B#32

/-- The exponential of the soft-maximum unit, EX2.f32 (R94). -/
def ex2 (x : Ext) : Ext := f32 (specialFn .ex2 (toF32 x))

/-- EX2(round(round(x − mn) × L2E)). -/
def expDiff (x mn : Ext) : Ext := ex2 (rneE ((rneE (Ext.sub false x mn)).mul l2e))

/-- The rescaling factor of a state with maximum m at a new maximum (R242, R244). -/
def rescale (m mn : Ext) : Ext := if mn.isInf && !mn.isNeg then (if m.isInf && !m.isNeg then Ext.one else Ext.zero) else expDiff m mn

def maxE (a b : Ext) : Ext := if Ext.lt a b then b else a

/-- A row of a bank's attention state: o for head dimensions 0 to 127, m and l, as their patterns. -/
structure ARow where
  o : List Word32
  m : Word32
  l : Word32
  deriving DecidableEq, Repr

def ARow.nan : ARow := { o := List.replicate 128 nan32, m := nan32, l := nan32 }
def ARow.start : ARow := { o := List.replicate 128 0, m := negInf, l := 0 }

/-- The 130 values of a state row. -/
def ARow.words (x : ARow) : List Word32 := x.o ++ [x.m, x.l]

def AccSt.arow (st : AccSt) (b row : Nat) : ARow :=
  { o := (range 0 128).map fun j => mget 0 st.acc (accKey b row j), m := st.mAt b row, l := st.lAt b row }

def AccSt.putARow (st : AccSt) (b row : Nat) (x : ARow) : AccSt :=
  { st with
    acc := putWords st.acc (accKey b row 0) x.o
    m := mset negInf st.m (rowKey b row) x.m
    l := mset 0 st.l (rowKey b row) x.l }

/-- One token of a chunk: key, value and the logarithm of its multiplicity. -/
structure Tok where
  key : List Ext
  val : List Ext
  lnm : Ext
  deriving DecidableEq, Repr

/-- One query row takes one chunk. The Boolean says that a score was NaN. A row whose m is NaN already, from an earlier tile, takes
the NaN that its maximum then is (log 87). -/
def chunkRow (scale : Ext) (toks : List Tok) (q : List Ext) (x : ARow) : ARow × Bool :=
  let sc := toks.map fun t => rneE (Ext.fma false (dot0 q t.key) scale t.lnm)
  let nan := sc.any Ext.isNan
  let m := f32 x.m
  if nan || m.isNan then (ARow.nan, nan)
  else
    let mn := sc.foldl maxE m
    if mn.isInf && mn.isNeg then (x, false)
    else
      let alpha := rescale m mn
      let p := sc.map fun y => bf16 (toBF16 (rescale y mn))
      ({ o := (range 0 128).map fun j =>
            toF32 (dotR90 (p.zipWith (fun w t => w.mul (t.val.getD j Ext.zero)) toks) (rneE ((f32 (x.o.getD j 0)).mul alpha)))
         m := toF32 mn
         l := toF32 (dotR90 p (rneE ((f32 x.l).mul alpha))) }, false)

/-! ### The tile's thread -/

/-- Where a thread keeps the entry it read, and gathered token i: its key, its value and its multiplicity. -/
def tokKey (i : Nat) : Nat := 4096 + i * 1024

def tokAt (m : Map Byte) (i : Nat) : Tok :=
  { key := elemsOf 10 128 (kept m (tokKey i) 256), val := elemsOf 10 128 (kept m (tokKey i + 256) 256),
    lnm := f32 (lnMult (mget 0 m (tokKey i + 512)).toNat) }

/-- The tokens after the first n move to the front. -/
def dropToks (n : Nat) (m : Map Byte) : Map Byte :=
  m.filterMap fun (k, v) => if k < 4096 then some (k, v) else if k < tokKey n then none else some (k - n * 1024, v)

/-- Keeps the tokens of gathered bytes, 512 for each. -/
def keepToks (m : Map Byte) (i : Nat) : List Nat → List Byte → Map Byte
  | [], _ => m
  | mu :: r, bs => keepToks (keep m (tokKey i) (bs.take 512 ++ [BitVec.ofNat 8 mu])) (i + 1) r (bs.drop 512)

/-- A check that fails while a command is performed: a deferred trap, nothing else changed, the completion to come (R214, R217). -/
def State.failDeferred (s : State) (c : Cmd) (code : Nat) (arg : Word64) : State := s.endErr (c.defer code arg) 1

/-- A compute-error or divergence trap: deferred, and the group's other commands on the array are cancelled (R305). -/
def State.arrTrap (s : State) (c : Cmd) (code arg : Nat) : State :=
  let q := (s.array (s.arrOf c)).queue
  let cancel : Cmd → Cmd := fun x => if x.gid == c.gid && x.id != c.id && q.contains x.id then { x with cancelled := true } else x
  let s := { s with cmds := s.cmds.map cancel }
  let s := s.failDeferred c code (BitVec.ofNat 64 arg)
  match s.group? c.gid with
  | some g => s.setGroup { g with cancel := true }
  | none => s

/-- An event record of `ATILE` (R114). -/
def tileEvent (kind tag arg : Nat) : Nat := kind + tag * 2 ^ 24 + arg % 2 ^ 32 * 2 ^ 32

/-- The tile begins, with the floors that the cache commands before it left: the entry is read and checked, the rows start or
continue, the latch is lost, and the query rows come next (R242, R276, R300, R312, R313). -/
def atileStart (s : State) (c : Cmd) (cut : Nat) (kvh bank rows npg pg0 entry : Nat) (cont : Bool) : State :=
  let c := { c with floors := s.joinFloors c.floors (mget [] s.cacheFloors (entryKey c.part c.tenant entry)) }
  s.withEntry c cut entry fun s c bs =>
    let e := parseEntry bs
    match e.fault with
    | some code => s.failDeferred c code 0
    | none =>
      if e.nkvh ≤ kvh then s.failDeferred c 0x36 0
      else if (e.page ((pg0 + npg - 1) * e.nkvh + kvh)).isNone then s.failDeferred c 0x35 0
      else
        let start : AccSt → AccSt := fun st =>
          let st := (st.spoil).uncheck bank
          if cont then st else (range 0 rows).foldl (fun (st : AccSt) r => st.putARow bank r ARow.start) st
        (s.setCmd { c with phase := 1, left := allOf c.inputs, pos := 1, lim := e.len, staged := keep [] 0 bs }).modArray (s.arrOf c)
          fun u => { u with st := start u.st }

/-- The live slots of a token page below LEN, with their multiplicities. -/
def liveSlots (tp lim : Nat) (mu : List Byte) : List (Nat × Nat) :=
  ((range 0 128).map fun i => (tp * 128 + i, (mu.getD i 0).toNat)).filter fun x => x.2 != 0 && decide (x.1 < lim)

/-- The live tokens of a token page found with tag 0 are gathered, and the page is passed (R242). The page is read in any order, but a
merge of it is seen whole or not at all (R313). -/
def atileTokens (s : State) (c : Cmd) (cut tp base : Nat) (e : Entry) : State :=
  let mvas := range (e.mula + tp * 128) 128
  let w := match s.touchAll c .read false mvas with
    | .ok pas => s.span pas (cut % (s.co.length + 1))
    | _ => (0, s.co.length)
  let cut := cut / (s.co.length + 1)
  s.withReads c cut mvas (w := w) fun s c mu =>
    let live := liveSlots tp c.lim mu
    let vas := live.flatMap fun x => range (base + slotOff x.1) 256 ++ range (base + 32768 + slotOff x.1) 256
    s.withReads c (s.cutAfter cut 128) vas (z := 2) (w := w) fun s c bs =>
      s.setCmd { c with pos := c.pos + 1, pin := false, ntok := c.ntok + live.length,
                        staged := keepToks c.staged c.ntok (live.map fun x => x.2) bs }

/-- The next token page: its tag is read as it stands at the moment; it is skipped with an event where that is not 0, else it is
pinned until its live tokens have been gathered, and a chunk is under way (R242, R312). -/
def atilePage (s : State) (c : Cmd) (cut : Nat) (ring : Obj) (kvh tp : Nat) : State :=
  let e := parseEntry (kept c.staged 0 320)
  let g := tp * e.nkvh + kvh
  match e.page g with
  | none => s.failDeferred c 0x35 0
  | some base =>
    if c.pin then atileTokens s c cut tp base e
    else
      match s.touch c .read false (e.tagVa g) 1 with
      | .miss v t => s.holdFault c v false t
      | .viol _ => s.endErr c 2
      | .ok pas =>
        if s.badSector pas then s.consumeCmd c pas
        else
          let (tb, f) := threadRead s c (2 * s.co.length) [e.tagVa g] pas
          let tag := tagOf (tb.headD 0) g
          let t := (s.chargePas c pas).notePages c [e.tagVa g]
          if tag = 0 then t.setCmd { c with floors := f, pin := true, rest := [(c.pos, 1)] }
          else if s.ringRoom ring then
            (t.setCmd { c with floors := f, pos := c.pos + 1, skipped := c.skipped + 1 }).post c.launch ring
              (tileEvent 2 tag tp) c.view
          else s

/-- A chunk of at most 256 tokens acts on every query row; a first NaN score waits for room for its event (R243). -/
def atileChunk (s : State) (c : Cmd) (q : Rect) (ring : Obj) (scale : Word32) (bank rows : Nat) : State :=
  let n := min c.ntok 256
  let toks := (range 0 n).map (tokAt c.staged)
  let st := (s.array (s.arrOf c)).st
  let out := (((c.elemRows 0 q.fmt 128).take rows).zip (range 0 rows)).map fun (x, r) =>
    (r, chunkRow (f32 scale) toks x (st.arow bank r))
  let nan := out.any fun x => x.2.2
  let first := nan && !c.nanSeen
  if first && !(s.ringRoom ring) then s
  else
    let st := out.foldl (fun (st : AccSt) x => st.putARow bank x.1 x.2.1) st
    let c := { c with ntok := c.ntok - n, staged := dropToks n c.staged, nanSeen := c.nanSeen || nan, rest := [] }
    let s' := ((s.setCmd c).modArray (s.arrOf c) fun u => { u with st := st }).chargeCmd c 10 1
    if first then s'.post c.launch ring (tileEvent 3 0 0) c.view else s'

/-- The pages are over: empty rows hold +0, event 4 reports one, and ORECT is to receive every row (R242, R243). -/
def atileEnd (s : State) (c : Cmd) (ring : Obj) (bank rows : Nat) : State :=
  let st := (s.array (s.arrOf c)).st
  let empty := fun (x : ARow) => x.m == negInf
  let rs := (range 0 rows).map fun r =>
    let x := st.arow bank r
    if empty x then ARow.start else x
  let any := rs.any empty
  if any && !(s.ringRoom ring) then s
  else
    let st := ((range 0 rows).zip rs).foldl (fun (st : AccSt) x => st.putARow bank x.1 x.2) st
    let s := s.arrOut c st (rs.flatMap fun x => bytesOf x.words)
    if any then s.post c.launch ring (tileEvent 4 0 0) c.view else s

/-- One step of `ATILE`'s pages and chunks. -/
def atileStep (s : State) (c : Cmd) (cut : Nat) (q : Rect) (ring : Obj) (scale : Word32) (kvh bank rows npg pg0 : Nat) : State :=
  if 256 ≤ c.ntok || (npg < c.pos && c.ntok ≠ 0) then atileChunk s c q ring scale bank rows
  else if c.pos ≤ npg then atilePage s c cut ring kvh (pg0 + c.pos - 1)
  else atileEnd s c ring bank rows

/-! ### Merging (R244) -/

/-- a1·x1 + a2·x2 with the roundings of R244. -/
def mergeVal (x1 x2 : Word32) (a1 a2 : Ext) : Word32 := toF32 (Ext.fma false (f32 x2) a2 (rneE ((f32 x1).mul a1)))

/-- One state row merged into one bank row. -/
def mergeRow (x y : ARow) : ARow :=
  let none_ := fun (z : ARow) => z.m == negInf && (f32 z.l).isZero
  let m1 := f32 x.m
  let m2 := f32 y.m
  if m1.isNan || m2.isNan then ARow.nan
  else if none_ y then x
  else if none_ x then y
  else
    let mn := maxE m1 m2
    let a1 := rescale m1 mn
    let a2 := rescale m2 mn
    { o := x.o.zipWith (fun p q => mergeVal p q a1 a2) y.o, m := toF32 mn, l := mergeVal x.l y.l a1 a2 }

/-- The state row of 520 bytes. -/
def arowOf (bs : List Byte) : ARow :=
  let v := wordsOf 130 bs
  { o := v.take 128, m := v.getD 128 0, l := v.getD 129 0 }

/-- `AMERGE` over the rows of its rectangle. -/
def amergeRows (bank : Nat) (st : AccSt) : List (Nat × List Byte) → AccSt
  | [] => st
  | (row, bs) :: r => amergeRows bank (st.putARow bank row (mergeRow (st.arow bank row) (arowOf bs))) r

/-! ### Execution of an array's commands (R212, R276, R305) -/

/-- The array becomes the property of a launch: banks as `AZERO` leaves them, both latch halves invalid. Its commands stay one sequence
(R276). -/
def State.own (s : State) (arr launch : Nat) : State :=
  if (s.array arr).owner = some launch then s
  else s.modArray arr fun u => { u with owner := some launch, st := {} }

/-- The next command of an array: the first of the owner's launch, or of any launch where there is no owner. -/
def State.nextArr (s : State) (arr : Nat) : Option Cmd :=
  let u := s.array arr
  let cs := u.queue.filterMap s.cmd?
  match u.owner with
  | none => cs.head?
  | some l => cs.find? fun c => c.launch == l

/-- Charges rows or tokens to every member of the array (R393). -/
def State.chargeRows (s : State) (c : Cmd) (n : Nat) : State := s.chargeCmd c 8 (n * s.members c.ep)

def runWload (s : State) (c : Cmd) (t : Ty) (k n : Nat) (tr : Bool) (st : AccSt) : State :=
  let w := tileOf t k n tr (c.got.flatMap fun x => x.2)
  (s.chargeCmd c 9 1).arrDone c { st with standby := w, standbyFresh := true } (!w.valid)

def runMma (s : State) (c : Cmd) (bank : Nat) (r : Rect) (row0 : Nat) (st : AccSt) : State :=
  let st := st.swap
  let kd := s.depthAt c.ep
  let rows := c.elemRows 0 r.fmt kd
  let s := s.chargeRows c rows.length
  if st.active.valid then s.arrDone c (mmaApply kd (s.widthAt c.ep) bank row0 rows st) false else s.arrDone c st true

def runAload (s : State) (c : Cmd) (sc : Bool) (bank row0 nc : Nat) (st : AccSt) : State :=
  let n := accRowBytes nc sc
  let rows := (c.rows 0 n).map (wordsOf (n / 4))
  let st := ((range row0 rows.length).zip rows).foldl (aloadRow sc bank nc) st
  (s.chargeRows c rows.length).arrDone c (st.recheck (s.widthAt c.ep) bank) false

/-- The drain itself, after the check; with a scale vector its reads and its writes are made in any order. -/
def drainRows (s : State) (c : Cmd) (nrm sc : Bool) (bank : Nat) (r : Rect) (sv : Option Nat) (row0 nc : Nat) (st : AccSt) : State :=
  let n := r.rows (accRowBytes nc sc)
  if sv.isSome then (s.chargeRows c n).startMixed c st
  else (s.chargeRows c n).arrOut c st ((range row0 n).flatMap fun row => st.drainRow bank row nc none nrm sc)

def runAdrain (s : State) (c : Cmd) (nochk nrm sc : Bool) (bank : Nat) (r : Rect) (sv : Option Nat) (row0 nc : Nat) (st : AccSt) :
    State :=
  if nochk || !(st.checked bank) then drainRows s c nrm sc bank r sv row0 nc st
  else
    match st.check (s.widthAt c.ep) bank (f32 (mget 0x37800000#32 s.ckrel (s.arrOf c))) (f32 (mget 0x00800000#32 s.ckabs (s.arrOf c))) with
    | .fine => drainRows s c nrm sc bank r sv row0 nc st
    | .fix row j w =>
      let n := (mget 0 s.ckfix (s.arrOf c)).toNat
      let s := { s with ckfix := mset 0 s.ckfix (s.arrOf c) (BitVec.ofNat 32 (sat32 (n + 1))) }
      drainRows s c nrm sc bank r sv row0 nc { st with acc := mset 0 st.acc (accKey bank row j) w }
    | .other => s.arrTrap c 0x38 bank

/-- The banks that a correcting command writes become unchecked (R234). -/
def AccSt.uncheckAll (st : AccSt) (b : Nat) (shb : Option Nat) : AccSt :=
  match shb with
  | some h => (st.uncheck b).uncheck h
  | none => st.uncheck b

/-- One token of `DELTA`, or the whole of `DELTA.ck` (R238, R240, R311). -/
def runDelta (s : State) (c : Cmd) (ck : Bool) (bank : Nat) (betas : List Word32) (vfmt : Nat) (dlim : Word32)
    (shb : Option Nat) (dv dk nt : Nat) (st : AccSt) : State :=
  let st := (st.spoil).uncheckAll bank shb
  let ks := c.elemRows 0 10 dk
  let vs := c.elemRows 1 vfmt dv
  let n := if ck then nt else 1
  let s := s.chargeRows c n
  let st := if ck then deltaChunk st bank shb dk dv nt ks vs (c.elemRows 2 8 nt)
    else deltaToken st bank shb dk dv (f32 (betas.getD c.pos 0)) (ks.getD c.pos []) (vs.getD c.pos [])
  let s := s.modArray (s.arrOf c) fun u => { u with st := st }
  if st.diverged bank dk dv dlim then s.arrTrap c 0x39 (if ck then nt - 1 else c.pos)
  else if ck || c.pos + 1 = nt then s.arrDone c st false
  else s.setCmd { c with pos := c.pos + 1 }

def runTsolve (s : State) (c : Cmd) (cnt : Nat) (st : AccSt) : State := (s.chargeRows c cnt).startMixed c st.spoil

def runAmerge (s : State) (c : Cmd) (bank row0 : Nat) (st : AccSt) : State :=
  let rows := c.rows 0 520
  (s.chargeRows c rows.length).arrDone c (amergeRows bank ((st.spoil).uncheck bank) ((range row0 rows.length).zip rows)) false

/-- What an array command does with what it has read. -/
def runArr (s : State) (c : Cmd) (cut : Nat) (st : AccSt) : State :=
  match c.kind with
  | .wload t _ _ k n tr => runWload s c t k n tr st
  | .mma _ bank r row0 => runMma s c bank r row0 st
  | .aload sc bank _ row0 nc => runAload s c sc bank row0 nc st
  | .adrain nochk nrm sc bank r sv row0 nc => runAdrain s c nochk nrm sc bank r sv row0 nc st
  | .azero bank => s.arrDone c (st.zeroBank bank) false
  | .delta ck bank betas _ vr _ dlim shb dv dk nt => runDelta s c ck bank betas vr.fmt dlim shb dv dk nt st
  | .tsolve _ _ _ cnt _ => runTsolve s c cnt st
  | .atile q _ ring _ scale kvh bank rows npg pg0 _ _ => atileStep s c cut q ring scale kvh bank rows npg pg0
  | .amerge bank _ row0 => runAmerge s c bank row0 st
  | _ => s

/-- Whether an append has begun to write to an entry: a tile reads the entry before it, or after it (R313). -/
def State.appending (s : State) (c : Cmd) (entry : Nat) : Bool :=
  s.cmds.any fun x => x.part == c.part && x.tenant == c.tenant && x.status == 0 && x.pos != 0 &&
    match x.kind with
    | .kvapp e .. => e == entry
    | _ => false

/-- Whether a command reads what it reads as it writes (R275). -/
def CmdKind.mixes : CmdKind → Bool
  | .adrain .. => true
  | .tsolve .. => true
  | _ => false

/-- A command begins: `ATILE` after every earlier cache command on its entry (R242, R313), any other with its reads. -/
def beginArr (s : State) (c : Cmd) (cut : Nat) : State :=
  match c.kind with
  | .atile _ _ _ cont _ kvh bank rows npg pg0 entry after =>
    if (s.cmds.any fun x => after.contains x.id) || s.appending c entry then s else atileStart s c cut kvh bank rows npg pg0 entry cont
  | _ =>
    let n := if c.kind.mixes then 0 else c.inputs
    s.setCmd { c with phase := if n = 0 then 2 else 1, left := allOf n }

/-- One step of an array command: it begins, reads, computes, or writes, or reads and writes. -/
def stepArr (s : State) (c : Cmd) (cut : Nat) (st : AccSt) : State :=
  match c.phase with
  | 0 => beginArr s c cut
  | 1 => s.gather c cut
  | 2 => runArr s c cut st
  | 3 => s.scatter c cut
  | _ => s.mixed c cut

/-- An array takes the next step of the first command of its owning launch; a cancelled one has no effect, and a chain entry that
must wait keeps its place (R110, R212, R276, R305). -/
def execArrayCommandExecute (arr cut : Nat) (s : State) : Out :=
  match s.nextArr arr with
  | none => .next s
  | some c =>
    if c.status ≠ 0 || s.waits c || !c.kind.isArr || s.waitsPrev c then .next s
    else
      let s := s.own arr c.launch
      let c := { c with floors := s.joinFloors c.floors (s.array arr).floors }
      .next (if c.cancelled then s.endErr c 4 else stepArr s c cut (s.array arr).st)

end Sys2Proof.Machine
end

