-- ==== Sys2Proof/Machine/Copy.lean ====
section
/-! DEFINITION. The copy engine (R101 to R105, R222 to R225, R325 to R334, R364, R366, R429). -/

namespace Sys2Proof.Machine

/-! ### Descriptors -/

def dimOf (e : Nat) : CDim :=
  { dstr := bits e 255 208, sstr := bits e 207 160, dext := bits e 159 128, dcrd := sxN 32 (bits e 127 96),
    sext := bits e 95 64, scrd := sxN 32 (bits e 63 32), box := bits e 31 0 }

/-- The reserved bits of AUX by instruction (0 `CPY`, 1 `CPYM`, 2 `CPYG`, 3 `CPYN`) are zero (R105). -/
def auxOk (op : Nat) (fmma : Bool) (aux : Nat) : Bool :=
  match op with
  | 0 => if fmma then bits aux 31 3 == 0 && bits aux 63 51 == 0 else aux == 0
  | 1 => bits aux 63 49 == 0
  | 3 => bits aux 63 12 == 0
  | _ => true

/-- A copy descriptor from its 256 bytes; `rsv` says that its reserved fields are as they must be (R101, R102, R105). -/
def parseCopy (op x : Nat) : CopyD :=
  let n := bits x 130 128
  let e := fun k => bits x (256 * k + 511) (256 * k + 256)
  let aux := bits x 255 192
  let fmma := bitOf x 142
  let pan := fun (kind : Bool) a => !kind || bits a 63 30 == 0
  { op := op, aux := BitVec.ofNat 64 aux, gsel := bitOf x 165, co := bits x 164 150, ck := bits x 144 143, fmma := fmma,
    psup := bitOf x 141, dlay := bits x 140 139, slay := bits x 138 137, dpan := bitOf x 136, span := bitOf x 135,
    ety := bits x 134 131, ndim := n, dsta := bits x 127 64, srca := bits x 63 0
    rsv := bits x 191 166 == 0 && bits x 149 145 == 0 && bits x 144 143 != 3 && decide (bits x 140 139 < 2)
      && decide (bits x 138 137 < 2) && pan (bitOf x 136) (bits x 127 64) && pan (bitOf x 135) (bits x 63 0)
      && auxOk op (op == 0 && fmma) aux && (range n (7 - n)).all fun k => e k == 0
    dims := (range 0 n).map fun k => dimOf (e k) }

def CopyD.z (d : CopyD) : Nat := elemSize d.ety

/-- The stride of dimension 0 suits the layout (R103). -/
def strideOk (lay z s0 : Nat) : Bool := if lay = 0 then s0 == 0 else s0 != 0 && s0 % (32 * z) == 0

/-- The strides suit the layouts and the element size (R103). -/
def CopyD.stridesOk (d : CopyD) : Bool :=
  strideOk d.slay d.z ((d.dims.map fun k => k.sstr).headD 0) && strideOk d.dlay d.z ((d.dims.map fun k => k.dstr).headD 0)

/-- The field ranges that need nothing but the descriptor (R102, R105, R222, R325). -/
def CopyD.fieldsOk (d : CopyD) : Bool :=
  d.ndim != 0 && d.dims.all (fun k => k.box != 0 && k.sext != 0 && k.dext != 0)
    && (d.ck != 0 || d.co == 0)
    && (d.op == 2 || !d.gsel) && (d.op == 0 || !d.fmma)
    && (d.op != 3 || (!d.dpan && d.dlay == 0 && d.dsta == 0))
    && (d.op != 1 || (d.dpan && bits d.dsta 29 19 == 0))
    && (d.op != 2 || d.aux.toNat % 4 == 0)
    && (d.ck != 2 || d.dpan)

/-- The position and offset of a pan address (R101). -/
def panPos (a : Nat) : Nat := epOf (bits a 24 19) (bits a 29 25)
def panOff (a : Nat) : Nat := bits a 18 0

/-- The saved patches that hold a block of a launch which stood at a position (R381). -/
def State.savedAt (s : State) (launch e : Nat) : Option Saved :=
  s.parked.find? fun p => p.blocks.any fun b => b.launch == launch && b.ep == e

/-- Whether a position holds a block of the launch, or held one that is saved (R224, R285, R381). -/
def State.owns (s : State) (launch e : Nat) : Bool := s.holdsBlock launch e || (s.savedAt launch e).isSome

/-- The value of a live object of a launch, in its store or in its saved one. -/
def State.liveVal (s : State) (launch : Nat) (o : Obj) : Option Nat :=
  match if s.holdsBlock launch o.ep then none else s.savedAt launch o.ep with
  | none => if s.objLive o then some (s.objVal o) else none
  | some v =>
    if mget false v.live (o.ep * 2 ^ 15 + o.off / 16) then
      some (valueLE ((range o.off 16).map fun k => mget 0 v.store (o.ep * 2 ^ 19 + k)))
    else none

/-- Whether a pan address names a position that a copy of the launch may reach (R381, R429). -/
def State.panOk (s : State) (part launch a : Nat) : Bool :=
  (s.part part).inSub (bits a 24 19) (bits a 29 25) && (s.owns launch (panPos a) || s.isHole (panPos a))

/-- The positions a `CPYM` names: blocks of a patch, or positions of a quadrant; none where one holds no block of the launch
(R105, R327). -/
def State.maskDests (s : State) (launch ep aux : Nat) : Option (List Nat) :=
  let rows := (range 0 16).filter fun k => bitOf aux k
  let cols := (range 0 32).filter fun k => bitOf aux (16 + k)
  let ps : List (Option Nat) :=
    if bitOf aux 48 then
      let q := quadOf ep
      rows.flatMap fun j => cols.map fun i =>
        let e := epOf (quadX q + i) (quadY q + j)
        if s.owns launch e && !(s.isHole e) then some e else none
    else
      match s.blocks.find? fun b => b.launch == launch && b.ep == ep with
      | none => rows.map fun _ => none
      | some b =>
        match s.patch? b.patch with
        | none => rows.map fun _ => none
        | some p => rows.map fun n =>
            let e := epOf (p.x + n % p.w) (p.y + n / p.w)
            if n < p.w * p.h && s.owns launch e then some e else none
  if ps.all Option.isSome then some (ps.filterMap id) else none

/-- The destinations of a copy: its positions, or the issuing EP. -/
def State.copyDests (s : State) (launch ep : Nat) (d : CopyD) : Option (List Nat) :=
  if d.op = 1 then s.maskDests launch ep d.aux.toNat else some [if d.dpan then panPos d.dsta else ep]

/-- The indices along one dimension of elements that are written: from, and up to. -/
def dimSpan (psup : Bool) (k : CDim) : Int × Int :=
  let lo := max 0 (-k.dcrd)
  let hi := min (k.box : Int) (k.dext - k.dcrd)
  if psup then (max lo (-k.scrd), min hi (k.sext - k.scrd)) else (lo, hi)

/-- The address of coordinates in a layout, from its base (R103). -/
def layAddr (lay z : Nat) (strs cs : List Nat) : Nat :=
  match strs, cs with
  | s0 :: ss, c0 :: r =>
    (if lay = 0 then c0 * z else c0 / 32 * s0 + c0 % 32 * z) + (ss.zipWith (fun a b => a * b) r).sum
  | _, _ => 0

/-- The largest destination coordinate along one dimension of an element that is written, if any; of the outermost dimension of a
`CPYG` as the list gives it. -/
def CopyD.top (d : CopyD) (list : List Int) (outer : Bool) (k : CDim) : Option Int :=
  if d.op = 2 && outer then
    let ok := fun (x : Nat × Int) =>
      let sc : Int := if d.gsel then k.scrd + x.1 else x.2
      let dc : Int := if d.gsel then x.2 else k.dcrd + x.1
      if dc < 0 || k.dext ≤ dc || (d.psup && (sc < 0 || k.sext ≤ sc)) then none else some dc
    (((range 0 k.box).zip list).filterMap ok).foldl (fun a x => match a with | none => some x | some y => some (max x y)) none
  else
    let (lo, hi) := dimSpan d.psup k
    if hi ≤ lo then none else some (k.dcrd + hi - 1)

/-- How far a copy's written bytes reach beyond its destination's base (R331). -/
def CopyD.reach (d : CopyD) (list : List Int) : Nat :=
  let tops := ((range 0 d.ndim).zip d.dims).map fun x => d.top list (x.1 == d.ndim - 1) x.2
  if tops.any Option.isNone then 0
  else layAddr d.dlay d.z (d.dims.map fun k => k.dstr) (tops.map fun x => (x.getD 0).toNat) + d.z

/-- The coordinates of a list's bytes (R105). -/
def coordsOf (bs : List Byte) : List Int := (chopLE 4 (bs.length / 4) bs).map (sxN 32)

/-- Where the list lies that acceptance reads, for the reach of a `CPYG` into a ring's slot, and how long it is (R331). -/
def listAt (op x : Nat) : Option (Nat × Nat) :=
  let d := parseCopy op x
  if d.op = 2 && d.ck = 2 && d.rsv && d.fieldsOk then some (d.aux.toNat, 4 * (d.dims.getLastD { dstr := 0, sstr := 0, dext := 0, dcrd := 0, sext := 0, scrd := 0, box := 0 }).box)
  else none

/-- The follow-on `MMA` of a copy: its bank and the rectangle in the issuing EP's store, checked as R231 checks it (R225). -/
def followOn (s : State) (part launch ep : Nat) (d : CopyD) : Except Nat (Option (Nat × Rect)) :=
  if !d.fmma then .ok none
  else
    let off := bits d.aux.toNat 50 32
    if (s.rangeOf launch).2 < off + 16 then .error 0x36
    else
      let r := parseRect (valueLE (s.lsBytes ep ((s.rangeOf launch).1 + off) 16))
      match s.rectFault part launch r with
      | some c => .error c
      | none =>
        if r.fmt ≠ 10 && r.fmt ≠ 11 && r.fmt ≠ 12 then .error 0x33
        else
          match rowsFault s part launch r r.fmt (s.depthAt ep * elemSize r.fmt) 0 with
          | some c => .error c
          | none => .ok (some (bits d.aux.toNat 2 0, r))

/-- The completion offset: CO, or the bare offset that `[sM]` gives instead, which is checked whatever CK is (R105, R222, R428). That a
CO, or a follow-on's offset, beyond the launch's range is field-range is the model's choice (log 112). -/
def complOff (len : Nat) (d : CopyD) (sm : Option Nat) : Except (Nat × Nat) Nat :=
  match sm with
  | some v =>
    match bareOffset v 16 16 len with
    | .error c => .error (c, v)
    | .ok o => .ok (o / 16)
  | none => if d.ck ≠ 0 && decide (len < d.co * 16 + 16) then .error (0x36, 0) else .ok d.co

/-- The first fault of the completion objects: a hole, an object that is not live, a ring that does not suit (R287, R327, R331). -/
def State.complFault (s : State) (launch : Nat) (d : CopyD) (es : List Nat) (list : List Int) : Option Nat :=
  let vs := es.map fun e => s.liveVal launch (objAt s launch e d.co)
  if d.ck = 0 then none
  else if es.any s.isHole then some 0x36
  else if vs.any Option.isNone then some 0x26
  else if d.ck = 2 && vs.any (fun v => !(ringEng (v.getD 0)) || decide (ringSz (v.getD 0) < panOff d.dsta + d.reach list)) then some 0x36
  else none

/-- The send-queue descriptor that a `CPYN` names; none where it is not valid (R364). -/
def State.sendQueue (s : State) (part tenant q : Nat) : Option Nat :=
  let x := s.num ((s.tenant part tenant).sqbase + 32 * q) 32
  if bits x 255 176 != 0 || !(bitOf x 172) then none else some x

/-- Whether a byte that a copy of a tenant reaches may be the tenant's: of a weight buffer only the window that is its own, in the
quadrants of its partition (R298, R392). -/
def State.ownWindow (s : State) (part tenant pa : Nat) : Bool :=
  let t := s.tenant part tenant
  let a := pa - 3 * 2 ^ 54
  !(isWbuf pa) || ((s.part part).quads.contains (a / 2 ^ 24) && inRange (a % 2 ^ 24) (t.wwb * 65536) (t.wwn * 65536))

/-- Whether a tenant's address names a place that the hardware knows to be another tenant's: its weight window, or a region of R261
(R224, log 113). -/
def State.othersPlace (s : State) (part tenant va : Nat) : Bool :=
  match s.walk part tenant va with
  | .page pa size _ _ _ _ => let a := pa + va % size; !(s.ownWindow part tenant a) || (!(isWbuf a) && s.privatePa a)
  | _ => false

/-- A copy's device-memory destination begins or ends in another tenant's (R224). -/
def State.destOther (s : State) (part tenant : Nat) (sysA : Bool) (d : CopyD) (list : List Int) : Bool :=
  !sysA && !d.dpan && d.op != 3 && d.reach list != 0
    && (s.othersPlace part tenant d.dsta || s.othersPlace part tenant (d.dsta + d.reach list - 1))

/-- A copy's checks in the order of R97, with its destinations and its follow-on; an error carries an address for its record. -/
def copySetup (s : State) (part tenant launch ep op x : Nat) (sysA : Bool) (list : List Int) (sm : Option Nat) :
    Except (Nat × Nat) (CopyD × List CDst × Option (Nat × Rect)) :=
  let d := parseCopy op x
  if d.op = 0 && d.fmma && bits d.aux.toNat 50 32 % 16 ≠ 0 then .error (0x30, 0)
  else if !d.rsv then .error (0x31, 0)
  else if !d.fieldsOk then .error (0x36, 0)
  else if d.ety = 13 || d.ety = 14 then .error (0x33, 0)
  else if !d.stridesOk || (d.span && !(s.panOk part launch d.srca)) || (d.dpan && d.op != 1 && !(s.panOk part launch d.dsta)) then
    .error (0x36, 0)
  else
    match s.copyDests launch ep d, followOn s part launch ep d, complOff (s.rangeOf launch).2 d sm with
    | none, _, _ => .error (0x36, 0)
    | _, .error c, _ => .error (c, 0)
    | _, _, .error e => .error e
    | some es, .ok f, .ok co =>
      let d := { d with co := co }
      match s.complFault launch d es list with
      | some c => .error (c, 0)
      | none =>
        if s.destOther part tenant sysA d list then .error (0x21, d.dsta)
        else
        match if d.op = 3 then s.sendQueue part tenant (bits d.aux.toNat 11 0) else some 0 with
        | none => .error (0x21, 0)
        | some q => .ok ({ d with sqd := q }, es.map fun e => { ep := e }, f)

/-! ### Acceptance (R211, R222) -/

/-- The command of a checked copy; one with no destination is done at once. -/
def copyCmd (c : Cmd) (dests : List CDst) (f : Option (Nat × Rect)) : Cmd :=
  { c with dests := dests, follow := f, status := if dests = [] then 1 else 0 }

/-- Goes on with the list that a copy's acceptance reads; where there is none to read, or it may not be read, with no list (R331). -/
def withList (i : Instr) (s : State) (g : Group) (p : Path) (sec : Bool) (m : Lanes) (op x : Nat) (k : List Int → Group → Out) : Out :=
  match listAt op x with
  | none => k [] g
  | some (va, n) =>
    match readVirt s g va n with
    | .fault .. => k [] g
    | d => withDesc i s g p sec m d fun bs g => k (coordsOf bs) g

/-- Acceptance of the four copies. -/
def copyIssue (i : Instr) (c : Ctl) (op : Nat) (n : BitVec 6) (m : Option (BitVec 6)) (s : State) : Out :=
  engineIssue i c s fun g p sec ms =>
    if 32 ≤ s.engineLoad 0 g.ep then .next s
    else
      withDesc i s g p sec ms (readDesc s g n.toNat 256 64) fun bs g =>
        withList i s g p sec ms op (valueLE bs) fun list g =>
          match copySetup s g.part g.tenant g.launch g.ep op (valueLE bs) g.sys list (m.map fun r => (g.uni r.toNat).toNat) with
          | .error (code, va) => cmdTrap s g p sec ms code va
          | .ok (d, dests, f) =>
            let x := newCmd s g 0 g.ep (.copy d) .none
            .next (accept s g p sec { copyCmd x dests f with hnd := g.handler.isSome })

def execCpy (c : Ctl) (n : BitVec 6) (m : Option (BitVec 6)) (s : State) : Out := copyIssue (.cpy c n m) c 0 n m s
def execCpym (c : Ctl) (n : BitVec 6) (m : Option (BitVec 6)) (s : State) : Out := copyIssue (.cpym c n m) c 1 n m s
def execCpyg (c : Ctl) (n : BitVec 6) (m : Option (BitVec 6)) (s : State) : Out := copyIssue (.cpyg c n m) c 2 n m s
def execCpyn (c : Ctl) (n : BitVec 6) (m : Option (BitVec 6)) (s : State) : Out := copyIssue (.cpyn c n m) c 3 n m s

/-! ### Elements (R103, R104, R223) -/

def CopyD.count (d : CopyD) : Nat := d.dims.foldl (fun n k => n * k.box) 1

/-- The indices of element n, dimension 0 innermost. -/
def elemIx : List CDim → Nat → List Nat
  | [], _ => []
  | k :: r, n => n % k.box :: elemIx r (n / k.box)

/-- Replaces the last coordinate by a list's entry. -/
def setLast (cs : List Int) (v : Option Int) : List Int :=
  match v with
  | none => cs
  | some x => cs.dropLast ++ [x]

/-- Where element n is read and written, from the bases; none where it is clipped or suppressed (R104). -/
def CopyD.elem (d : CopyD) (n : Nat) (entry : Option Int) : Option (Nat × Nat) :=
  let ix := elemIx d.dims n
  let sc := setLast (d.dims.zipWith (fun k (i : Nat) => k.scrd + i) ix) (if d.gsel then none else entry)
  let dc := setLast (d.dims.zipWith (fun k (i : Nat) => k.dcrd + i) ix) (if d.gsel then entry else none)
  let clipped := (d.dims.zip dc).any fun x => decide (x.2 < 0) || decide ((x.1.dext : Int) ≤ x.2)
  let pad := (d.dims.zip sc).any fun x => decide (x.2 < 0) || decide ((x.1.sext : Int) ≤ x.2)
  if clipped || (pad && d.psup) then none
  else
    let sc := d.dims.zipWith (fun k c => (clampInt 0 (k.sext - 1) c).toNat) sc
    some (layAddr d.slay d.z (d.dims.map fun k => k.sstr) sc, layAddr d.dlay d.z (d.dims.map fun k => k.dstr) (dc.map Int.toNat))

/-- What prevents an element: no translation, bytes at a pan address that it may not reach, a forbidden access, bytes beyond
its ring's slot, or a list entry in an uncorrectable sector. -/
inductive Bar where
  | miss (va : Nat) (w tier : Bool)
  | range
  | access
  | slot
  | poison (pas : List Nat)
  deriving DecidableEq, Repr

/-- The spot of z bytes at a pan address (R284, R429). -/
def State.panSpot (s : State) (c : Cmd) (e off z : Nat) : Except Bar Spot :=
  let r := s.rangeOf c.launch
  if r.2 < off + z || !(s.held c.launch [e]) then .error .range else .ok (.pan e (r.1 + off))

/-- Whether a byte that a copy reaches may be the tenant's (R298, R392). -/
def State.inWindow (s : State) (c : Cmd) (pa : Nat) : Bool := c.sysA || s.ownWindow c.part c.tenant pa

/-- The spot of z bytes at a device address. -/
def State.memSpot (s : State) (c : Cmd) (k : Access) (va z : Nat) : Except Bar Spot :=
  match s.touch c k true (va % 2 ^ 64) z with
  | .miss v t => .error (.miss v (k == .write) t)
  | .viol _ => .error .access
  | .ok pas => if pas.all (s.inWindow c) then .ok (.mem (va % 2 ^ 64) pas) else .error .access

/-- The list entry of element n, for a `CPYG`, with the thread's floors after reading it, and where it lies in memory. -/
def State.listEntry (s : State) (c : Cmd) (d : CopyD) (n cut : Nat) : Except Bar (Option Int × Cmd × List Nat) :=
  if d.op ≠ 2 then .ok (none, c, [])
  else
    let va := (d.aux.toNat + 4 * ((elemIx d.dims n).getLastD 0)) % 2 ^ 64
    match s.touch c .read false va 4 with
    | .miss v t => .error (.miss v false t)
    | .viol _ => .error .access
    | .ok pas =>
      if s.badSector pas then .error (.poison pas)
      else
        let (bs, f) := threadRead s c cut (range va 4) pas
        .ok (some (sxN 32 (valueLE bs)), { c with floors := f }, pas)

/-- The base of the destination's addresses: the slot reserved in a ring, the offset of a pan address, or a device address. -/
def State.dstBase (s : State) (c : Cmd) (d : CopyD) (x : CDst) : Nat :=
  if d.dpan then
    (match x.slot with | some n => ringSlot (s.objVal (s.dstObj c d x)) n | none => 0) + panOff d.dsta
  else d.dsta

/-- Whether an element would reach beyond the slot reserved for it (R331). -/
def State.beyondSlot (s : State) (c : Cmd) (d : CopyD) (x : CDst) (a : Nat) : Bool :=
  d.ck == 2 && x.slot.isSome && decide (ringSz (s.objVal (s.dstObj c d x)) < panOff d.dsta + a + d.z)

/-- The two spots of an element (R104, R328). -/
def State.spots (s : State) (c : Cmd) (d : CopyD) (x : CDst) (a : Nat × Nat) (packed : Nat) : Except Bar (Spot × Spot) :=
  match (if d.span then s.panSpot c (panPos d.srca) (panOff d.srca + a.1) d.z else s.memSpot c .read (d.srca + a.1) d.z) with
  | .error b => .error b
  | .ok src =>
    if d.op = 3 then .ok (src, .net packed)
    else if s.beyondSlot c d x a.2 then .error .slot
    else
      match (if d.dpan then s.panSpot c x.ep (s.dstBase c d x + a.2) d.z else s.memSpot c .write (d.dsta + a.2) d.z) with
      | .error b => .error b
      | .ok dst => .ok (src, dst)

/-! ### Runs (R223, R333) -/

/-- One run, found before it moves: its elements, the list entries read for them, the next element, what stops the copy there, and
the thread. -/
structure Run where
  els : List Elem := []
  lists : List Nat := []
  next : Nat
  bar : Option Bar := none
  c : Cmd
  deriving DecidableEq, Repr

/-- A run for which some list entries more are read. -/
def Run.reads (r : Run) (pas : List Nat) : Run := { r with lists := pas ++ r.lists }

/-- The first byte that an element is written to, which settles the 4 KiB run that it belongs to. -/
def State.dstStart (s : State) (c : Cmd) (d : CopyD) (x : CDst) (a : Nat × Nat) (packed : Nat) : Nat :=
  if d.op = 3 then packed else if d.dpan then (s.rangeOf c.launch).1 + s.dstBase c d x + a.2 else (d.dsta + a.2) % 2 ^ 64

/-- Collects elements from `pos` on whose destinations lie in one 4 KiB block; the fuel is the number of elements left. -/
def State.plan (s : State) (d : CopyD) (x : CDst) (cut : Nat) : Nat → Nat → Option Nat → Nat → List Elem → Cmd → Run
  | 0, pos, _, _, acc, c => { els := acc.reverse, next := pos, c := c }
  | fuel + 1, pos, blk, packed, acc, c =>
    match s.listEntry c d pos cut with
    | .error b => { els := acc.reverse, next := pos, bar := some b, c := c }
    | .ok (entry, c, pas) =>
      match d.elem pos entry with
      | none => (s.plan d x cut fuel (pos + 1) blk packed acc c).reads pas
      | some a =>
        let k := s.dstStart c d x a packed / 4096
        if blk.any fun b => b != k then { els := acc.reverse, next := pos, c := c }
        else
          match s.spots c d x a packed with
          | .error b => { els := acc.reverse, lists := pas, next := pos, bar := some b, c := c }
          | .ok (e, f) =>
            (s.plan d x cut fuel (pos + 1) (some k) (packed + d.z) ({ n := pos, src := e, dst := f } :: acc) c).reads pas

/-- The element at which a copy ends: the last and one, or the one it stops at (R429). -/
def Cmd.bound (c : Cmd) (d : CopyD) : Nat := match c.stopAt with | some n => min n d.count | none => d.count

/-- A destination's run is over: its new sectors are due to be counted. -/
def CDst.ran (x : CDst) (bound : Nat) : CDst :=
  { x with left := [], due := some (x.landed.length - x.before), done := x.done || decide (bound ≤ x.pos) }

/-- A copy stops at element n: what comes before it still moves, at every destination, and nothing else (R214, R429). -/
def Cmd.stop (c : Cmd) (n sts : Nat) : Cmd :=
  let n := match c.stopAt with | some k => min k n | none => n
  let cut : CDst → CDst := fun x =>
    let l := x.left.filter fun e => decide (e.n < n)
    if x.left ≠ [] && l = [] then x.ran n
    else if x.left = [] && decide (n ≤ x.pos) then
      { x with done := true, queued := 0, granted := x.granted && x.due.isSome }
    else { x with left := l }
  { c with err := true, sts := sts, stopAt := some n, dests := c.dests.map cut }

def setNth (l : List CDst) (i : Nat) (x : CDst) : List CDst := l.set i x

/-- The memory bytes of a spot: its own, or a hole's shadow. -/
def State.spotBytes (s : State) (c : Cmd) (z : Nat) : Spot → List Nat
  | .pan e off => if s.isHole e then (range off z).map (s.shadowPa c.part c.tenant e) else []
  | .mem _ pas => pas
  | .net _ => []

/-- The device addresses of a spot. -/
def Spot.vas (z : Nat) : Spot → List Nat
  | .mem va _ => range va z
  | _ => []

/-- A run begins: its elements are found; whatever bars the one behind them but a translation fault stops the copy there, and a
fault holds the copy before any of the run's elements has moved (R214, R216, R223, R331, R429). -/
def State.beginRun (s : State) (c : Cmd) (d : CopyD) (i : Nat) (x : CDst) (cut : Nat) : State :=
  let r := s.plan d x cut (c.bound d - x.pos) x.pos none c.ntok [] c
  let y := { x with left := r.els, before := x.landed.length, pos := r.next }
  let go := fun (s : State) (c : Cmd) =>
    let y := if r.els = [] then y.ran (c.bound d) else y
    let s := s.setCmd { c with dests := setNth c.dests i y }
    let s := s.chargePas c r.lists
    let s := if d.op = 1 then s else s.chargePas c (r.els.flatMap fun e => s.spotBytes c d.z e.src)
    let s := s.chargePas c (r.els.flatMap fun e => s.spotBytes c d.z e.dst)
    s.notePages c ((if d.op = 2 then [d.aux.toNat] else []) ++ r.els.flatMap fun e => e.src.vas d.z ++ e.dst.vas d.z)
  s.viaLink c r.lists <|
  match r.bar with
  | some (.miss va w t) => s.holdFault { c with lim := r.next } va w t
  | some .range => go s (r.c.stop r.next 1)
  | some .access => go s (r.c.stop r.next 2)
  | some .slot => go s ((r.c.stop r.next 1).defer 0x36 0)
  | some (.poison pas) => (go s (r.c.stop r.next 2)).consumeAt (s.issuer c) 1 pas
  | none => go s r.c

/-- The aligned sectors of z bytes. -/
def sectorsAt (a z : Nat) : List Nat := range (a / 32) ((a + z - 1) / 32 + 1 - a / 32)

/-- The bytes of an element that lie in a sector: where they start, and which they are. -/
def inSector (a : Nat) (bs : List Byte) (x : Nat) : Nat × List Byte :=
  let lo := max a (x * 32)
  (lo, (bs.drop (lo - a)).take ((x + 1) * 32 - lo))

/-- The bytes of an element, and the thread after reading them. -/
def State.spotRead (s : State) (c : Cmd) (cut z : Nat) : Spot → List Byte × Cmd
  | .pan e off => (s.panRead c.part c.tenant e off z, c)
  | .mem va pas =>
    let (bs, f) := threadRead s c cut (range va z) pas
    (s.linked c.part pas bs, { c with floors := f })
  | .net _ => ([], c)

/-- The address that the bytes of a source start at. -/
def Spot.start : Spot → Nat
  | .pan _ off => off
  | .mem va _ => va
  | .net off => off

/-- The number under which a `CPYM` keeps sector k of a source: the position's or the address's. -/
def Spot.sectorKey (k : Nat) : Spot → Nat
  | .pan e _ => e * 2 ^ 14 + k
  | .mem _ _ => 2 ^ 60 + k
  | .net off => off

/-- The byte at an address of a source, where it has been read: a kept sector is 32 bytes, and 32 flags of those that are in. -/
def Cmd.keptByte (c : Cmd) (src : Spot) (a : Nat) : Option Byte :=
  match c.got.find? fun x => x.1 == src.sectorKey (a / 32) with
  | some x => if x.2.getD (32 + a % 32) 0 = 1 then some (x.2.getD (a % 32) 0) else none
  | none => none

/-- Keeps the byte at an address of a source. -/
def Cmd.keepByte (c : Cmd) (src : Spot) (a : Nat) (b : Byte) : Cmd :=
  let key := src.sectorKey (a / 32)
  let put := fun (l : List Byte) => (l.set (a % 32) b).set (32 + a % 32) 1
  match c.got.find? fun x => x.1 == key with
  | some _ => { c with got := c.got.map fun x => if x.1 = key then (key, put x.2) else x }
  | none => { c with got := (key, put (List.replicate 64 0)) :: c.got }

/-- A `CPYM` reads each source sector once, element by element, and keeps it for its other destinations (R223, R263, R334). -/
def State.readOnce (s : State) (c : Cmd) (cut z : Nat) (src : Spot) : State × List Byte × Cmd :=
  let as := range src.start z
  let old := as.map (c.keptByte src)
  if old.all Option.isSome then (s, old.filterMap id, c)
  else
    let fresh := ((range 0 z).filter fun i => !(c.got.any fun x => x.1 == src.sectorKey ((src.start + i) / 32))).map fun i =>
      (s.spotBytes c z src)[i]?
    let (bs, c) := s.spotRead c cut z src
    let bs := (old.zip bs).map fun x => x.1.getD x.2
    (s.chargePas c (fresh.filterMap id), bs, (as.zip bs).foldl (fun (c : Cmd) x => c.keepByte src x.1 x.2) c)

/-- Writes an element at a position sector by sector; a sector that covers a live object's byte is dropped whole (R107). -/
def State.panSectors (s : State) (c : Cmd) (x : CDst) (e a : Nat) (bs : List Byte) : List Nat → State × Cmd × CDst
  | [] => (s, c, x)
  | k :: r =>
    if x.dropped.contains k || s.clobbers e (k * 32) 32 then
      s.panSectors { c with clb := true, sts := if c.sts = 0 then 3 else c.sts } { x with dropped := insertNat k x.dropped } e a bs r
    else
      let (lo, part) := inSector a bs k
      let (s, c) := s.panWrite c e lo part
      s.panSectors c { x with landed := insertNat k x.landed } e a bs r

/-- Writes the bytes of an element. -/
def State.spotWrite (s : State) (c : Cmd) (x : CDst) (bs : List Byte) : Spot → State × Cmd × CDst
  | .pan e a => s.panSectors c x e a bs (sectorsAt a bs.length)
  | .mem va pas =>
    let (s, c) := s.threadWrite c va pas bs
    (s, c, { x with landed := (sectorsAt va bs.length).foldl (fun l k => insertNat k l) x.landed })
  | .net off => (s, { c with staged := keep c.staged off bs, ntok := off + bs.length }, x)

/-- Whether two places share a byte. -/
def Spot.meets (z : Nat) : Spot → Spot → Bool
  | .pan e a, .pan f b => e == f && decide (a < b + z) && decide (b < a + z)
  | .mem _ ps, .mem _ qs => ps.any qs.contains
  | .net _, .net _ => true
  | _, _ => false

/-- Whether an element must move after an earlier one: their places meet (R223). -/
def Elem.after (z : Nat) (e x : Elem) : Bool := x.dst.meets z e.dst || x.dst.meets z e.src || x.src.meets z e.dst

/-- The element of a run that moves next, chosen by `cut`: elements that do not meet move in any order (R275). -/
def pickElem (z cut : Nat) (left : List Elem) : Option Elem :=
  match left[cut % left.length]? with
  | some e => if (left.take (cut % left.length)).any (e.after z) then left.head? else some e
  | none => left.head?

/-- Whether a place still holds a block of the launch, or is a hole (R285, R429). -/
def State.spotHeld (s : State) (c : Cmd) : Spot → Bool
  | .pan e _ => s.held c.launch [e]
  | _ => true

/-- An element of a run is read (R263, R275). -/
def State.readElem (s : State) (c : Cmd) (d : CopyD) (i : Nat) (x : CDst) (e : Elem) (cut : Nat) : State :=
  let (t, bs, c) := if d.op = 1 then s.readOnce c cut d.z e.src else let (bs, c) := s.spotRead c cut d.z e.src; (s, bs, c)
  let left := x.left.map fun f => if f.n = e.n then { f with got := some bs } else f
  t.setCmd { c with dests := setNth c.dests i { x with left := left } }

/-- An element that has been read is written; a run with none left is due to be counted (R223). -/
def State.writeElem (s : State) (c : Cmd) (d : CopyD) (i : Nat) (x : CDst) (e : Elem) (bs : List Byte) : State :=
  let (t, c, y) := s.spotWrite c x bs e.dst
  let left := y.left.filter fun f => f.n != e.n
  t.setCmd { c with dests := setNth c.dests i (if left = [] then y.ran (c.bound d) else { y with left := left }) }

/-- One element of a run is read or written; a position that no longer holds a block stops the copy there, and so does an
uncorrectable sector (R223, R275, R399, R429). -/
def State.moveElem (s : State) (c : Cmd) (d : CopyD) (i : Nat) (x : CDst) (cut : Nat) : State :=
  match pickElem d.z cut x.left with
  | none => s
  | some e =>
    match e.got with
    | some bs => if s.spotHeld c e.dst then s.writeElem c d i x e bs else s.setCmd (c.stop e.n 1)
    | none =>
      let pas := s.spotBytes c d.z e.src
      if !(s.spotHeld c e.src && s.spotHeld c e.dst) then s.setCmd (c.stop e.n 1)
      else if s.badSector pas then (s.setCmd (c.stop e.n 2)).consumeAt (s.issuer c) 1 pas
      else s.viaLink c pas (s.readElem c d i x e (cut / x.left.length))

/-- The driver declined a copy's fault (R375): the copy stops at the element that met it (R214). -/
def State.declineCopy (s : State) (c : Cmd) : State := s.setCmd (c.stop c.lim 2)

/-! ### Landing (R104, R109, R199, R214, R331) -/

/-- The bytes a `CPYN` has handed over: its message joins the send queue's unacknowledged ones (R328, R364). -/
def State.handOver (s : State) (c : Cmd) (d : CopyD) : State :=
  let x := d.sqd
  let rqn := bits x 171 160
  let m : NetMsg :=
    { part := c.part, tenant := c.tenant, q := bits d.aux.toNat 11 0, port := bits x 175 173, fep := bits x 127 0, rqn := rqn,
      job := BitVec.ofNat 32 (bits x 159 128), bytes := bytesLE (1 + rqn * 2 ^ 8 + c.ntok * 2 ^ 32) 16 ++ kept c.staged 0 c.ntok }
  let p := s.part c.part
  let s := if p.lockstep && p.role != 0 then s else { s with net := s.net ++ [m] }
  s.chargeCmd c 11 ((c.ntok + 31) / 32)

/-- Whether a `CPYN` that is over hands over what it holds: all of it, or what came before the element it stopped at (R328, R429). -/
def Cmd.handsOver (c : Cmd) (d : CopyD) (x : CDst) : Bool := d.op == 3 && x.done && (!c.err || (c.ntok != 0 && c.stopAt != some 0))

/-- How many sectors a moved run counts now: its new ones, or the whole payload of a `CPYN` when it is handed over. -/
def dueCount (c : Cmd) (d : CopyD) (x : CDst) (n : Nat) : Nat :=
  if d.op = 3 then (if c.handsOver d x then (c.ntok + 31) / 32 else 0) else n

/-- A moved run is counted into its completion object, and its permit returns. -/
def State.landRun (s : State) (c : Cmd) (d : CopyD) (i : Nat) (x : CDst) (n : Nat) : State :=
  let y := { x with due := none, granted := false }
  let s := (s.setCmd { c with dests := setNth c.dests i y }).chargeCmd c 4 n
  let s := if c.handsOver d x then s.handOver c d else s
  if d.ck = 1 then s.land (s.dstObj c d x) (dueCount c d x n) c.view else s

/-- The slot of a finished destination is published when every slot before it has been (R331). -/
def State.publishSlot (s : State) (c : Cmd) (d : CopyD) (i : Nat) (x : CDst) : State :=
  let o := s.dstObj c d x
  let out := s.setCmd { c with dests := setNth c.dests i { x with slot := none } }
  if !(s.objLive o) then out
  else if x.slot = some (ringWr (s.objVal o)) then
    let out := if c.err then out.modObj o ringErr else out
    (if c.clb then out.modObj o ringClb else out).fillSlot o c.view
  else s

/-- The `MMA` that follows a copy: it forks from the copy's thread and joins its array's queue (R225, R276). -/
def State.follow (s : State) (c : Cmd) : State :=
  match c.follow with
  | none => s
  | some (bank, r) =>
    if c.err || c.clb then s
    else
      let arr := s.arrayOf c.ep
      let n := match s.launch? c.launch with | some l => mget 0 l.accepted (seqKey 2 arr) | none => 0
      let gone := match s.group? c.gid with | some g => g.cancel && !c.hnd | none => false
      s.joinArray
        { id := s.nextId, kind := .mma (tyOf (BitVec.ofNat 4 r.fmt)) bank r 0, gid := c.gid, who := c.who, launch := c.launch,
          block := c.block, part := c.part, tenant := c.tenant, ep := c.ep, eng := 2, inst := arr, seq := n + 1, sysA := c.sysA,
          compl := rectCompl s c.launch c.ep r, floors := c.floors, hnd := c.hnd, cancelled := gone }

/-- Whether every sector that a copy counts has landed and been counted (R225). -/
def Cmd.counted (c : Cmd) : Bool := c.dests.all fun x => x.done && x.due.isNone

/-- Whether nothing of a copy is left to move, count or publish. -/
def Cmd.landed (c : Cmd) : Bool := c.dests.all fun x => x.done && x.due.isNone && x.slot.isNone

/-- After a landing: the follow-on is issued once the last counted sector has landed, and a copy with nothing left ends. -/
def State.copyEnd (s : State) (id : Nat) : State :=
  match s.cmd? id with
  | some c =>
    if c.status ≠ 0 || !c.counted then s
    else
      let d := { c with follow := none }
      let s := (s.setCmd d).follow c
      if c.landed then s.setCmd { d with status := if c.err then 2 else 1, staged := [] } else s
  | none => s

/-- The destinations that a landing may act on: a run with a permit, a run still to be counted, a slot still to be published. -/
def landable (ds : List CDst) : List (Nat × CDst) :=
  ((range 0 ds.length).zip ds).filter fun x =>
    (x.2.granted && !x.2.done) || x.2.due.isSome || (x.2.done && x.2.slot.isSome)

/-- Whether the counting of a run may be performed: it is a release at `.part`, and has its place among the updates of a barrier in
a cycle (R200, R214, R272). -/
def State.mayCount (s : State) (c : Cmd) (d : CopyD) (x : CDst) : Bool :=
  d.ck == 0 || (s.mayJoin c && (d.ck != 1 || s.mayUpdate (s.dstObj c d x) 2 0 (barLand (dueCount c d x (x.due.getD 0)))))

/-- The signature point of a `CPYN` message in a lockstep partition: over the send queue and the payload (R420). -/
def State.messagePoint (s : State) (c : Cmd) (d : CopyD) : State :=
  if s.sigs.any fun x => x.act == .message c.id then s
  else
    let bs := bytesLE (bits d.aux.toNat 11 0) 8 ++ kept c.staged 0 c.ntok
    { s with nextId := s.nextId + 1, sigs := s.sigs ++ [{ id := s.nextId, part := c.part, gid := 0, sig := crc32 bs, act := .message c.id }] }

/-- Counts, or publishes, what a destination has ready, once its writes have passed their signature points (R420). -/
def State.settleDst (s : State) (id i : Nat) : State :=
  match s.cmd? id with
  | none => s
  | some c =>
    match c.kind, c.dests[i]? with
    | .copy d, some x =>
      if s.signing c || !(s.mayCount c d x) then s
      else
        match x.due with
        | some n =>
          if c.handsOver d x && (s.part c.part).lockstep then s.messagePoint c d else s.landRun c d i x n
        | none => if x.done && x.slot.isSome then s.publishSlot c d i x else s
    | _, _ => s

/-- The message of a copy has passed its signature point: it is handed over (R420). -/
def State.messagePassed (s : State) (id : Nat) : State :=
  match s.cmd? id with
  | none => s
  | some c =>
    match c.kind, c.dests[0]? with
    | .copy d, some x => (match x.due with | some n => (s.landRun c d 0 x n).copyEnd id | none => s)
    | _, _ => s

/-- A run of a copy begins, one of its elements moves, or its sectors are counted; a run that could not be counted at once is
counted later. `cut` chooses the destination, the element, and what the thread's loads return. -/
def execCopyRunLand (cmd cut : Nat) (s : State) : Out :=
  match s.cmd? cmd with
  | none => .next s
  | some c =>
    match c.kind with
    | .copy d =>
      let ls := landable c.dests
      if c.status ≠ 0 || s.waits c || ls = [] then .next s
      else
        match ls[cut % ls.length]? with
        | none => .next s
        | some (i, x) =>
          let cut := cut / ls.length
          let s := if !x.granted || x.done || x.due.isSome then s
            else if x.left = [] then s.beginRun c d i x cut else s.moveElem c d i x cut
          .next (((s.settleDst cmd i).settleDst cmd i).copyEnd cmd)
    | _ => .next s

/-! ### Permits (R331, R333, R364) -/

/-- Runs that hold a permit to an EP. -/
def State.permits (s : State) (e : Nat) : Nat :=
  (s.cmds.flatMap fun c => c.dests.filter fun x =>
    x.ep == e && x.granted && (match c.kind with | .copy d => d.dpan | _ => false)).length

/-- Whether another destination satisfying a predicate has asked before. -/
def State.askedBefore (s : State) (p : Cmd → CDst → Bool) (q : Nat) : Bool :=
  s.cmds.any fun c => c.dests.any fun x => p c x && x.queued != 0 && decide (x.queued < q)

/-- Messages of a send queue that are handed over or about to be. -/
def State.inFlight (s : State) (part tenant q : Nat) : Nat :=
  (s.net.filter fun m => m.part == part && m.tenant == tenant && m.q == q).length
    + (s.cmds.filter fun c => c.part == part && c.tenant == tenant && (match c.kind with
        | .copy d => c.status == 0 && d.op == 3 && bits d.aux.toNat 11 0 == q && c.dests.any fun x => x.granted || x.pos != 0
        | _ => false)).length

/-- Whether a copy's runs are held at their source: a save of a block that it completes into, of the block it reads, or of the
block that issued it, has begun, or such a block is saved (R381). -/
def State.runsHeld (s : State) (c : Cmd) (d : CopyD) : Bool :=
  let mine := fun (b : Block) =>
    b.launch == c.launch && ((c.dests.any fun x => x.ep == b.ep) || b.id == c.block || (d.span && b.ep == panPos d.srca))
  s.blocks.any (fun b => b.saving && mine b) || s.parked.any fun p => p.blocks.any mine

/-- The next step of a destination towards a permit: it asks, it takes its ring's slot, or it is granted one; none where it must
wait. -/
def State.grant (s : State) (c : Cmd) (d : CopyD) (i : Nat) (x : CDst) : Option State :=
  let put := fun (s : State) (y : CDst) => s.setCmd { c with dests := setNth c.dests i y }
  let ask := put { s with nextId := s.nextId + 1 } { x with queued := s.nextId }
  let give := put s { x with granted := true, queued := 0 }
  let o := s.dstObj c d x
  if x.done || x.granted || x.due.isSome || s.runsHeld c d then none
  else if d.op = 3 then
    if c.ntok != 0 || decide (s.inFlight c.part c.tenant (bits d.aux.toNat 11 0) < 64) then some give else none
  else if d.ck = 2 && x.slot.isNone then
    if x.queued = 0 then some ask
    else
      let v := s.objVal o
      let k := s.reserved o
      let wr := (ringWr v + k) % (2 * ringCnt v)
      let room := decide ((wr + 2 * ringCnt v - ringRl v) % (2 * ringCnt v) < ringCnt v)
      if s.askedBefore (fun c y => s.onRing c o y && y.slot.isNone) x.queued || !(room || !(s.objLive o)) then none
      else some (put s { x with slot := some wr, queued := 0 })
  else if d.dpan then
    let rival := fun (c : Cmd) (y : CDst) =>
      y.ep == x.ep && (match c.kind with | .copy d => d.dpan && (d.ck != 2 || y.slot.isSome) | _ => false)
    if x.queued = 0 then some ask
    else if s.askedBefore rival x.queued || decide (8 ≤ s.permits x.ep) then none
    else some give
  else some give

/-- A copy asks for, or is granted, the permit of its next run: the first of its destinations that can go on (R333). -/
def execCopyRunGrant (cmd : Nat) (s : State) : Out :=
  match s.cmd? cmd with
  | none => .next s
  | some c =>
    match c.kind with
    | .copy d =>
      if c.status ≠ 0 || s.waits c || s.waitsPrev c then .next s
      else .next ((((range 0 c.dests.length).zip c.dests).findSome? fun (i, x) => s.grant c d i x).getD s)
    | _ => .next s

end Sys2Proof.Machine
end

