-- ==== Sys2Proof/Machine/Chain.lean ====
section
/-! DEFINITION. Command chains, sequence reads and the completion of every engine command (R110 to R112, R213, R214, R226, R227,
R276, R332). -/

namespace Sys2Proof.Machine

/-! ### Chains (R212, R226) -/

def chainIs (launch ep num : Nat) (x : Chain) : Bool := x.launch == launch && x.ep == ep && x.num == num

/-- A launch's chain on an EP; one that nothing has used is empty. -/
def State.chain (s : State) (launch ep num : Nat) : Chain :=
  (s.chains.find? (chainIs launch ep num)).getD { launch := launch, ep := ep, num := num }

def State.setChain (s : State) (x : Chain) : State :=
  { s with chains := x :: s.chains.filter fun y => !(chainIs x.launch x.ep x.num y) }

/-! ### Beginning an entry (R110 to R112) -/

/-- What reading an operand block finds. -/
inductive Blk where
  | bytes (bs : List Byte) (c : Cmd) (at_ : List (Nat × Nat))
  | miss (va : Nat) (tier : Bool)
  | bad (sts : Nat)
  deriving DecidableEq, Repr

/-- Reads n bytes that an address names under R215, for an entry's thread. -/
def State.block (s : State) (c : Cmd) (a n align : Nat) : Blk :=
  if bitOf a 63 then
    let off := bits a 18 0
    if bits a 62 19 != 0 || off % align != 0 || decide ((s.rangeOf c.launch).2 < off + n) then .bad 1
    else .bytes (s.lsBytes c.ep ((s.rangeOf c.launch).1 + off) n) c []
  else if a % align ≠ 0 then .bad 1
  else if 2 ^ 56 ≤ a then .bad 2
  else
    match s.touch c .read false a n with
    | .miss v t => .miss v t
    | .viol _ => .bad 2
    | .ok pas =>
      let (bs, f) := threadRead s c (s.openCut a) (range a n) pas
      .bytes bs { c with floors := f } ((range a n).zip pas)

/-- Goes on with an operand block, whose sectors are charged and whose pages are cached; a miss is held for the driver, an uncorrectable
sector is consumed, another failure ends the entry (R215, R256, R393, R399). -/
def State.withBlock (s : State) (c : Cmd) (a n align : Nat) (k : List Byte → Cmd → State) : State :=
  match s.block c a n align with
  | .miss v t => s.holdFault c v false t
  | .bad sts => s.endErr c sts
  | .bytes bs c at_ =>
    let pas := at_.map fun x => x.2
    if s.badSector pas then s.consumeCmd c pas
    else s.viaLink c pas <| ((k (if at_ = [] then bs else s.linked c.part pas bs) c).chargePas c pas).notePages c (at_.map fun x => x.1)

/-- Goes on with the list that a chained copy's acceptance reads (R331). -/
def State.withEntryList (s : State) (c : Cmd) (op x : Nat) (k : List Int → Cmd → State) : State :=
  match listAt op x with
  | none => k [] c
  | some (va, n) =>
    match s.block c va n 4 with
    | .bad _ => k [] c
    | _ => s.withBlock c va n 4 fun bs c => k (coordsOf bs) c

/-- A failed check ends an entry with STS 1, an access-violation with STS 2 (R110). -/
def State.entryFault (s : State) (c : Cmd) (code : Nat) : State := s.endErr c (if code = 0x21 then 2 else 1)

/-- An entry's array command is known: it has its place in its array's queue since the entry was accepted (R112, R212). -/
def State.entryArr (s : State) (c : Cmd) (kind : CmdKind) (compl : Compl) : State := s.setCmd { c with kind := kind, compl := compl }

/-- The scale operand of a chained `ADRAIN`. -/
def entryScale (len opnd nc : Nat) : Except Nat (Option Nat) :=
  if bitOf opnd 25 then
    match bareOffset (bits opnd 44 26) 2 (2 * nc) len with
    | .error c => .error c
    | .ok o => .ok (some o)
  else .ok none

/-- The operand block of an accepted entry is read and checked, and its command is known (R96, R112). Bits of the scale's offset
without a scale are read as reserved (log 88). -/
def State.beginEntry (s : State) (c : Cmd) : State :=
  match c.kind with
  | .entry op opnd desc =>
    let t := tyOf (BitVec.ofNat 4 (bits opnd 3 0))
    match op with
    | 0xB0 =>
      if bits opnd 53 15 != 0 || bitOf opnd 7 || bits opnd 6 0 == 64 || bits opnd 14 8 == 64 then s.endErr c 1
      else
        s.withBlock c desc 32 32 fun bs c =>
          let (d, ck, co, rsv) := parseScroll (valueLE bs) (sxN 7 (bits opnd 6 0)) (sxN 7 (bits opnd 14 8))
          match scrollCheck s c.part c.launch c.ep d ck co rsv with
          | .error code => s.entryFault c code
          | .ok compl =>
            s.setCmd { c with kind := .scroll { d with staged := scrollStaged (s.part c.part) d }, compl := compl,
                              status := if d.dx == 0 && d.dy == 0 then 1 else 0 }
    | 0xC0 =>
      if bits opnd 53 4 != 0 || !([Ty.bf16, .e4m3, .e5m2, .i4, .i3].contains t) then s.endErr c 1
      else
        s.withBlock c desc 32 32 fun bs c =>
          match wloadKind s c.part c.tenant c.launch c.ep t (valueLE bs) with
          | .error code => s.entryFault c code
          | .ok (kind, compl) => s.entryArr c kind compl
    | 0xC1 =>
      if bits opnd 53 15 != 0 || !([Ty.bf16, .e4m3, .e5m2].contains t) then s.endErr c 1
      else
        s.withBlock c desc 16 16 fun bs c =>
          let r := parseRect (valueLE bs)
          let fmt := (tyCode t).toNat
          match rowsFault s c.part c.launch r fmt (s.depthAt c.ep * elemSize fmt) (bits opnd 14 7) with
          | some code => s.entryFault c code
          | none => s.entryArr c (.mma t (bits opnd 6 4) r (bits opnd 14 7)) (rectCompl s c.launch c.ep r)
    | 0xC3 =>
      if bits opnd 53 46 != 0 || (bitOf opnd 45 && bits opnd 24 14 != 0) || (!(bitOf opnd 25) && bits opnd 44 26 != 0) then
        s.endErr c 1
      else
        s.withBlock c desc 16 16 fun bs c =>
          let r := parseRect (valueLE bs)
          let sc := bitOf opnd 5
          let nc := if bitOf opnd 45 then s.widthAt c.ep else bits opnd 24 14 + 1
          match accFault s c.part c.launch c.ep r nc sc (bits opnd 13 6), entryScale (s.rangeOf c.launch).2 opnd nc with
          | some code, _ => s.entryFault c code
          | none, .error _ => s.endErr c 1
          | none, .ok sv =>
            s.entryArr c (.adrain (bitOf opnd 3) (bitOf opnd 4) sc (bits opnd 2 0) r sv (bits opnd 13 6) nc)
              (rectCompl s c.launch c.ep r)
    | 0xC8 =>
      if opnd ≠ 0 then s.endErr c 1
      else
        s.withBlock c desc 16 16 fun bs c =>
          let x := valueLE bs
          let entry := bits x 127 64
          if entry % 64 ≠ 0 then s.endErr c 1
          else
            s.withBlock c (bits x 63 0) 64 64 fun bs c =>
              match atileKind s c.part c.tenant c.launch c.ep (valueLE bs) entry with
              | .error code => s.entryFault c code
              | .ok (kind, compl) => s.entryArr c kind compl
    | _ =>
      if op < 0xB3 || 0xB6 < op || opnd ≠ 0 then s.endErr c 1
      else
        s.withBlock c desc 256 64 fun bs c =>
          s.withEntryList c (op - 0xB3) (valueLE bs) fun list c =>
            match copySetup s c.part c.tenant c.launch c.ep (op - 0xB3) (valueLE bs) c.sysA list none with
            | .error (code, _) => s.entryFault c code
            | .ok (d, dests, f) => s.setCmd (copyCmd { c with kind := .copy d } dests f)
  | _ => s

/-- Reads an accepted entry's block, unless the driver is still to answer for it. -/
def State.tryBegin (s : State) (id : Nat) : State :=
  match s.cmd? id with
  | none => s
  | some c =>
    match c.kind with
    | .entry .. => if c.status ≠ 0 || s.waits c then s else s.beginEntry c
    | _ => s

/-! ### `CPYC` (R226, R332) -/

/-- Whether a CMD runs on an array (R110). -/
def cmdArr (op : Nat) : Bool := op == 0xC0 || op == 0xC1 || op == 0xC3 || op == 0xC8

/-- Whether an entry must wait for room in its array's queue (R112, R212). -/
def State.entryFull (s : State) (g : Group) (x : Nat) : Bool :=
  cmdArr (bits x 135 128) && decide (64 ≤ (s.array (s.arrayOf g.ep)).queue.length)

/-- The floors of an entry that starts after a predecessor which has completed: those of its join as well (R276). -/
def State.prevFloors (s : State) (c : Cmd) : Map Nat :=
  match s.launch? c.launch with
  | none => c.floors
  | some l => match l.seqViews.find? fun x => x.1 == seqKey c.eng c.inst && x.2.1 + 1 == c.seq with
    | some x => s.joinFloors c.floors x.2.2.fl
    | none => c.floors

/-- An entry is accepted: numbered, in its array's queue if its command is an array's, its reserved bits checked and its block
read (R5, R96, R97, R110 to R112, R305). -/
def State.acceptEntry (s : State) (g : Group) (num va x : Nat) : State :=
  let r : ChainRef := { chain := num, entry := va, irq := bitOf x 137, wprv := bitOf x 136 }
  let op := bits x 135 128
  let c := { newCmd s g (4 + num) g.ep (.entry op (bits x 191 138) (bits x 127 64)) .none with
    chain := some r, hnd := g.handler.isSome, cancelled := cmdArr op && g.cancel && g.handler.isNone }
  let c := if r.wprv then { c with floors := s.prevFloors c } else c
  let s := if cmdArr op then s.joinArray c else s.addCmd c
  if bits x 254 252 != 0 then s.endErr c 1 else s.tryBegin c.id

/-- Whether another group's `CPYC` is walking the chain. -/
def State.walkedByOther (s : State) (x : Chain) (gid : Nat) : Bool :=
  match x.walk with
  | some k => k != gid && (s.group? k).isSome
  | none => false

/-- `CPYC` accepts one entry at a time; its path moves on after the entry at sN, or when the chain halts. On a halted chain it has no
effect, whatever it names: the order of this and the alignment of sN is the model's choice (log 110). -/
def execCpyc (c : Ctl) (n : BitVec 6) (ch : BitVec 2) (s : State) : Out :=
  let i := Instr.cpyc c n ch
  engineIssue i c s fun g p sec m =>
    let num := ch.toNat
    let x := s.chain g.launch g.ep num
    let want := (g.uni n.toNat).toNat
    let take := fun (va : Nat) (g : Group) (s : State) =>
      withDesc i s g p sec m (readVirt s g va 32) fun bs g =>
        if s.entryFull g (valueLE bs) then .next s
        else
        let s := s.acceptEntry g num va (valueLE bs)
        let g := g.note
        if va = want then .next (advance (s.setChain { x with lc := some va, walk := none }) g p sec)
        else .next ((s.setChain { x with lc := some va, walk := some g.id }).setGroup g)
    if s.walkedByOther x g.id then .next s
    else if x.halted then .next (advance s g p sec)
    else if want % 32 ≠ 0 then cmdTrap s g p sec m 0x30 0
    else
      match x.lc with
      | none => if 2 ^ 56 ≤ want then cmdTrap s g p sec m 0x21 want else take want g s
      | some lc =>
        withDesc i s g p sec m (readVirt s g lc 32) fun bs g =>
          let next := bits (valueLE bs) 63 0
          if next = 0 then .next (advance (s.setChain { x with halted := true, walk := none }) g.note p sec)
          else if next % 32 ≠ 0 then cmdTrap (s.setChain { x with walk := none }) g p sec m 0x30 0
          else if 2 ^ 56 ≤ next then cmdTrap (s.setChain { x with walk := none }) g p sec m 0x21 next
          else take next g s

/-- `CPYC.rst` (R226): nothing stands between the accepted entries and the rest of the chain, so that dropping Lc abandons it. -/
def execCpycRst (c : Ctl) (n : BitVec 6) (ch : BitVec 2) (s : State) : Out :=
  engineIssue (.cpycRst c n ch) c s fun g p sec _ =>
    let x := s.chain g.launch g.ep ch.toNat
    if s.walkedByOther x g.id then .next s
    else .next (advance (s.setChain { x with lc := none, halted := false, walk := none }) g.note p sec)

/-! ### `CPYQ` (R213, R227, R273) -/

/-- The instance of an engine that a group's commands go to (R212). -/
def State.instOf (s : State) (g : Group) (e : Nat) : Nat :=
  match e with
  | 2 => s.arrayOf g.ep
  | 3 => quadOf g.ep
  | _ => g.ep

/-- What `CPYQ` returns. -/
def cpyqVal (s : State) (g : Group) (sel e : Nat) : Word64 :=
  let key := seqKey e (s.instOf g e)
  let get := fun (f : Launch → Map Nat) => match s.launch? g.launch with | some l => mget 0 (f l) key | none => 0
  let done := get Launch.done
  let acc := get Launch.accepted
  if sel = 0 then BitVec.ofNat 64 done
  else if sel = 1 then BitVec.ofNat 64 acc
  else if 4 ≤ e && (s.chain g.launch g.ep (e - 4)).halted then 2
  else if done < acc then 1 else 0

/-- The views of the commands that a completed value covers. -/
def State.doneViews (s : State) (g : Group) (e : Nat) : List View :=
  match s.launch? g.launch with
  | none => []
  | some l =>
    let key := seqKey e (s.instOf g e)
    (l.seqViews.filter fun x => x.1 == key && decide (x.2.1 ≤ mget 0 l.done key)).map fun x => x.2.2

def execCpyq (c : Ctl) (sel : BitVec 2) (d : BitVec 6) (e : BitVec 3) (s : State) : Out :=
  fixed (.cpyq c sel d e) c 8 none s fun g m =>
    if m = 0 then g
    else
      let g := if sel.toNat = 0 then { g with floors := s.acquire (s.who g) .part g.floors (s.doneViews g e.toNat) } else g
      g.setUni d.toNat (cpyqVal s g sel.toNat e.toNat)

/-! ### Completion (R209, R213, R214, R291) -/

/-- The event that marks a command's completion in its ring (R114, R291). -/
def Cmd.event (c : Cmd) : Nat :=
  match c.kind with
  | .scroll _ => 8 + (if c.clb then 2 ^ 8 else 0) + (if c.forDrop then 2 ^ 9 else 0) + c.spilled % 2 ^ 32 * 2 ^ 32
  | _ => tileEvent 1 0 c.skipped

/-- ERR and CLB in the objects of a copy's destinations; a copy makes no arrival (R214). -/
def State.copyMarks (s : State) (c : Cmd) (d : CopyD) : List CDst → State
  | [] => s
  | x :: r =>
    let o := s.dstObj c d x
    let s := if d.ck = 0 then s
      else s.complMark { c with compl := if d.ck = 1 then .barrier o else .ring o } c.err c.clb
    s.copyMarks c d r

/-- The completion update of a command (R214); none where it must wait for room or for its release. -/
def State.report (s : State) (c : Cmd) : Option State :=
  match c.kind, c.compl with
  | .copy d, _ => some (s.copyMarks c d c.dests)
  | _, .none => some s
  | _, .barrier o =>
    if s.mayJoin c && s.mayUpdate o 2 0 (barArrive 1) then some ((s.complMark c c.err c.clb).arrive o 1 c.view) else none
  | _, .ring o =>
    if s.mayJoin c && s.ringRoom o then some ((s.complMark c c.err c.clb).post c.launch o c.event c.view) else none

/-- The number a completed entry reports (R110). -/
def Cmd.entrySts (c : Cmd) : Nat := if c.sts ≠ 0 then c.sts else if c.clb then 3 else if c.err then 1 else 0

/-- An accepted command has made all its effects: its completion object is updated, and it leaves; a chain entry stays until its
record is written, and leaves its array's queue; with WPRV it waits for the entry before it, also where it had nothing to do
(R110, R111, R213, R214). -/
def execEngineCommandCompletion (cmd : Nat) (s : State) : Out :=
  match s.cmd? cmd with
  | none => .next s
  | some c =>
    if c.status = 0 || s.waits c || s.waitsPrev c || (match c.chain with | some r => r.done | none => false) then .next s
    else
      match s.report c with
      | none => .next s
      | some s =>
        let s := s.scrollSts c fun x => { x with sts := 2, sin := false, want := false }
        match c.chain with
        | none => .next (s.retire c)
        | some r =>
          let unq : Nat × ArrayU → Nat × ArrayU := fun x => (x.1, { x.2 with queue := x.2.queue.filter fun q => q != c.id })
          .next { s.setCmd { c with chain := some { r with done := true } } with arrays := s.arrays.map unq }

/-- The next entry of a chain begins after a predecessor's join, with the floors the predecessor ended with (R110, R276). -/
def State.nextEntry (s : State) (c : Cmd) : State :=
  match s.cmds.find? fun x => sameChain c x && x.seq == c.seq + 1 with
  | none => s
  | some x =>
    match x.chain with
    | some r => if r.wprv then s.setCmd { x with floors := s.joinFloors x.floors c.floors } else s
    | none => s

/-- The engine writes DONE, STS and SEQN of a completed entry with one write, raises the chain interrupt, and the entry leaves;
an entry that has not begun begins where it now may (R110, R111, R226). -/
def execChainEntryComplete (cmd : Nat) (s : State) : Out :=
  match s.cmd? cmd with
  | none => .next s
  | some c =>
    match c.chain with
    | none => .next s
    | some r =>
      if s.waits c then .next s
      else if !r.done then .next (s.tryBegin cmd)
      else
        let leave := fun (s : State) (c : Cmd) =>
          let s := if r.irq then s.vecOut 11 c.part c.tenant r.chain else s
          (s.retire c).nextEntry c
        if r.wrote then .next (leave s c)
        else
        match s.touch c .write false r.entry 32 with
        | .miss v t => .next (s.holdFault c v true t)
        | .viol _ => .next (leave s c)
        | .ok pas =>
          let x := valueLE (pas.map s.byte)
          let y := setBits x 255 192 (2 ^ 63 + c.entrySts * 2 ^ 56 + c.seq % 2 ^ 56)
          let (s, c) := s.threadWrite c r.entry pas (bytesLE y 32)
          let s := (s.chargePas c pas).notePages c [r.entry]
          .next (if s.signing c then s.setCmd { c with chain := some { r with wrote := true } } else leave s c)

end Sys2Proof.Machine
end

