-- ==== Sys2Proof/Machine/Cache.lean ====
section
/-! DEFINITION. The key-value cache: its commands, page moves between the ponds, ageing, wakes and staged promotion (R245 to R249,
R312 to R321, R367, R430). -/

namespace Sys2Proof.Machine

/-! ### Who performs what (R245, R276, R318, R320) -/

/-- The quadrant whose cache engine owns an entry. -/
def Partition.owner (p : Partition) (entry : Nat) : Nat :=
  let n := p.quads.length
  if n = 0 then 0 else (p.quads.foldl (fun l x => insertNat x l) []).getD (entry / 64 % n) 0

/-- The cache engine as an agent of its own: wakes and ageing visits belong to no group. -/
def engWho (part quad : Nat) : Who :=
  let k := 2 ^ 40 + part * 4 + quad
  { gid := k, blk := k, pch := k, quad := quad, part := part }

/-- Whether a command holds up the later ones on its entry: a wake only until it has been checked, a promotion until it has
gone through its pages, a visit never. -/
def Cmd.blocks (c : Cmd) : Bool :=
  c.status == 0 &&
    (match c.kind with
     | .wake _ _ _ st => st == 0
     | .promo _ _ _ => c.pos == 0 || decide (c.pos ≤ c.lim)
     | .age _ => false
     | _ => true)

def sameEntry (c x : Cmd) : Bool := x.part == c.part && x.tenant == c.tenant && x.kind.acts == c.kind.acts

/-- Whether a command has surely reached the owner before another: it was accepted before, and a wake, which comes to the owner
directly, may find it still on its way (R245, R320, R322). -/
def Cmd.ahead (x c : Cmd) : Bool := decide (x.id < c.id) && (x.gid == 0 || c.gid != 0 || x.phase != 0)

/-- Whether it is a command's turn among those on its entry: nothing that reached the owner before it holds it up. -/
def State.cacheTurn (s : State) (c : Cmd) : Bool := !(s.cmds.any fun x => sameEntry c x && x.ahead c && (x.blocks || s.signing x))

/-- Whether a move of a page of a command is in progress. -/
def State.moving (s : State) (c : Cmd) : Bool := s.moves.any fun m => m.cmd == c.id

/-- Whether another command is between the start and the end of a page of the same entry. -/
def State.otherMoving (s : State) (c : Cmd) : Bool :=
  s.moves.any fun m => m.cmd != c.id && m.part == c.part && m.tenant == c.tenant && some m.entry == c.kind.acts

/-- A command begins with the floors of its predecessor on the entry. -/
def State.withFloors (s : State) (c : Cmd) : Cmd :=
  { c with floors := s.joinFloors c.floors (mget [] s.cacheFloors c.floorKey) }

/-- Stores a command with its floors, which the next on the entry begins with. -/
def State.keepCmd (s : State) (c : Cmd) : State :=
  (s.setCmd c).handOn c

/-- A command has made its effects. -/
def State.cacheDone (s : State) (c : Cmd) : State := s.keepCmd { c with status := 1 }

/-! ### Accesses with their own failure (R214, R430) -/

/-- A thread that belongs to no group takes data of uncorrectable sectors: the detection of the first is recorded (R399, R403). -/
def State.noticed (s : State) (c : Cmd) (pas : List Nat) : State :=
  match pas with
  | pa :: _ => s.detect (pa / 32 * 32) true 1 (some c.tenant) (Config.freeWord s.tick)
  | [] => s

/-- Reads device addresses; a miss is held for the driver, another failure goes its own way. -/
def State.tryReads (s : State) (c : Cmd) (cut : Nat) (vas : List Nat) (bad : State) (k : State → Cmd → List Byte → State) (z : Nat := 1) :
    State :=
  match s.touchAll c .read false vas with
  | .miss v t => s.holdFault c v false t
  | .viol _ => bad
  | .ok pas =>
    if s.badSector pas then (if c.gid = 0 then bad.noticed c (pas.filter s.poisoned) else s.consumeCmd c pas)
    else
      let (bs, f) := threadMixed s c cut vas pas z
      s.viaLink c pas (k ((s.chargePas c pas).notePages c vas) { c with floors := f } (s.linked c.part pas bs))

/-- Writes pieces whose pages have all been found. -/
def State.putPieces (s : State) (c : Cmd) : List (Nat × List Byte) → State × Cmd
  | [] => (s, c)
  | (va, bs) :: r =>
    match s.touch c .write false va bs.length with
    | .ok pas =>
      let (s, c) := s.threadWrite c va pas bs
      ((s.chargePas c pas).notePages c (range va bs.length)).putPieces c r
    | _ => s.putPieces c r

/-- The writes from an identity on are those of one merge of a page (R313). -/
def State.joinFrom (s : State) (k : Nat) : State := { s with co := s.co.map fun w => if k ≤ w.id then { w with set := k } else w }

/-- Writes pieces of memory, all of them or none; with `whole` they are a merge of a page. -/
def State.tryWrites (s : State) (c : Cmd) (ws : List (Nat × List Byte)) (bad : State) (k : State → Cmd → State) (whole : Bool := false) :
    State :=
  match s.touchAll c .write false (ws.flatMap fun w => range w.1 w.2.length) with
  | .miss v t => s.holdFault c v true t
  | .viol _ => bad
  | .ok _ =>
    let id := s.nextId
    let (s, c) := s.putPieces c ws
    k (if whole then s.joinFrom id else s) c

/-! ### The entry's fields -/

/-- The byte of PST with a new value; `b` is the byte as it stands. -/
def pstByte (b : Byte) (v : Nat) : Byte := BitVec.ofNat 8 (b.toNat % 64 + v % 4 * 64)

/-- Writes PST and goes on; a write that fails is passed over (R430). -/
def State.setPst (s : State) (c : Cmd) (cut entry v : Nat) (k : State → Cmd → State) : State :=
  s.tryReads c cut [entry + 4] (k s c) fun s c bs => s.tryWrites c [(entry + 4, [pstByte (bs.headD 0) v])] (k s c) k

/-! ### Page leaves (R257, R258) -/

/-- Where the replicas of a tierable leaf stand, and its value; none where the walk reaches no tierable 64 KiB leaf. -/
def leafFrom (s : State) (va : Nat) : List (Nat × Nat) → Nat → Option (Nat × Nat)
  | [], _ => none
  | (lvl, sh) :: rest, table =>
    let ix := va / 2 ^ sh % (if lvl = 0 then 256 else 512)
    let e := s.num (table + 8 * ix) 8
    let clean := bits e 63 56 == 0 && !(bitOf e 11) && !(bitOf e 7) && !(bitOf e 2)
    if lvl = 4 then
      if clean && !(bitOf e 1) && bitOf e 6 && bits e 10 8 == 1 then some (table + 8 * (ix / 16 * 16), e) else none
    else if clean && bitOf e 0 && bitOf e 1 && (!(bitOf e 6) || bits e 10 8 == 1) then leafFrom s va rest (bits e 55 12 * 4096)
    else none

def State.leaf (s : State) (part tenant va : Nat) : Option (Nat × Nat) :=
  if 2 ^ 56 ≤ va then none
  else leafFrom s va [(0, 48), (1, 39), (2, 30), (3, 21), (4, 12)] (s.tenant part tenant).ttbr

/-- The physical address a leaf holds. -/
def leafPa (e : Nat) : Nat := bits e 55 12 * 4096

/-- Rewrites all sixteen replicas of a leaf, and drops every cached translation of the page in the partition. -/
def State.remap (s : State) (part tenant va at_ e : Nat) (v : Bool) (pa : Nat) : State :=
  let e := setBits (setBits e 55 12 (pa / 4096)) 0 0 (if v then 1 else 0)
  let s := s.devWrite devWho .dev at_ ((List.replicate 16 e).flatMap fun x => bytesLE x 8)
  { s with tlb := s.tlb.filter fun x => !(x.part == part && x.tenant == tenant && decide (x.va < va + 65536) && decide (va < x.va + x.size)) }

/-! ### The pools (R317, R367) -/

/-- The backing a leaf names for a slot of pond 2, and where the model keeps that slot's 64 KiB (log 20). -/
def slotPa (slot : Nat) : Nat := 3 * 2 ^ 54 + slot * 4096
def slotOf (pa : Nat) : Nat := pa / 4096 % 2 ^ 32
def flashPa (part slot : Nat) : Nat := 3 * 2 ^ 54 + 2 ^ 50 + part * 2 ^ 48 + slot * 65536

/-- Where the data of a backing are. -/
def dataPa (part tag pa : Nat) : Nat := if tag = 2 then flashPa part (slotOf pa) else pa

/-- The first free frame of pond 1, and the first free good slot of pond 2. -/
def Partition.frame1 (p : Partition) : Option Nat := (range 0 p.p1n).find? (mget true p.p1free)

def Partition.slot2 (p : Partition) : Option Nat :=
  (range 0 (p.p2n0 + p.p2n1)).find? fun k =>
    !(mget false p.p2used k) && !(mget false p.p2bad k) && (if k < p.p2n0 then p.p2ns0 != 0 else p.p2ns1 != 0)

/-- The bits of the tiering engine's region: a free bit for each frame and each slot, then a bad bit for each slot (R367, log 20). -/
def Partition.tmBit (p : Partition) (i : Nat) : Bool :=
  let n := p.p2n0 + p.p2n1
  if i < p.p1n then mget true p.p1free i
  else if i < p.p1n + n then !(mget false p.p2used (i - p.p1n))
  else decide (i < p.p1n + 2 * n) && mget false p.p2bad (i - p.p1n - n)

/-- Writes the byte of the region that holds a bit. -/
def State.tmWrite (s : State) (part i : Nat) : State :=
  let p := s.part part
  let v := ((range 0 8).map fun k => if p.tmBit (i / 8 * 8 + k) then 2 ^ k else 0).sum
  s.devWrite devWho .dev (p.tmbase + i / 8) [BitVec.ofNat 8 v]

/-- Writes the bits of a backing. -/
def State.tmPut (s : State) (part pond pa : Nat) : State :=
  let p := s.part part
  match pond with
  | 0 => s
  | 1 => if inRange pa p.p1base (p.p1n * 65536) then s.tmWrite part ((pa - p.p1base) / 65536) else s
  | _ => (s.tmWrite part (p.p1n + slotOf pa)).tmWrite part (p.p1n + p.p2n0 + p.p2n1 + slotOf pa)

/-- Every frame and slot becomes free and good, and a partition with slots in pond 2 gets its queue pairs (R367). -/
def State.tmInit (s : State) (part : Nat) : State :=
  let s := s.modPart part fun p =>
    { p with p0free := Config.pond0Frames part, p1free := [], p2used := [], p2bad := []
             qpairs := if p.p2n0 + p.p2n1 = 0 then 0 else 16, qpNext := 0, qpSq := [], qpCq := [] }
  let p := s.part part
  (range 0 ((p.p1n + 2 * (p.p2n0 + p.p2n1) + 7) / 8)).foldl (fun (s : State) k => s.tmWrite part (k * 8)) s

/-- Gives a backing back to the pool of its pond. -/
def Partition.freePa (p : Partition) (pond pa : Nat) : Partition :=
  match pond with
  | 0 => { p with p0free := p.p0free ++ [pa] }
  | 1 =>
    if inRange pa p.p1base (p.p1n * 65536) then { p with p1free := mset true p.p1free ((pa - p.p1base) / 65536) true } else p
  | _ => { p with p2used := mset false p.p2used (slotOf pa) false }

/-- The thread of a move copies a stretch of its page, as memory holds it, to pond 0 under the page's own address; a sector marked
uncorrectable stays marked where it goes (R275, R317). -/
def State.copyPage (s : State) (c : Cmd) (m : PageMove) (w : Nat × Nat) (src dst : Nat) : State × Cmd :=
  let pas := range (dst + w.1) w.2
  let locs := if m.to_ = 0 then (range (m.va + w.1) w.2).zipWith c.loc pas else pas
  let ws := wbytes pas locs ((range (src + w.1) w.2).map s.byte)
  let id := s.nextId
  let bad := (range (w.1 / 32) ((w.1 + w.2 + 31) / 32 - w.1 / 32)).filter fun k => s.poisoned (src + 32 * k)
  let s := { s with nextId := id + 1 }.drainWrite id c.who .part ws []
  ({ s with uncorr := bad.foldl (fun u k => mset false u (dst / 32 + k) true) s.uncorr }, { c with floors := floorsTo id ws c.floors })

/-- A backing is free again, in the pool and in the region. -/
def State.freeBacking (s : State) (part pond pa : Nat) : State := (s.modPart part fun p => p.freePa pond pa).tmPut part pond pa

/-- The manager learns of a page whose move failed (R405, R430). -/
def State.tierError (s : State) (part entry page : Nat) : State :=
  (s.sendIrq 7 part entry page).sysAppend part (BitVec.ofNat 64 (7 * 2 ^ 56))

/-! ### Moves (R317, R367) -/

/-- The ways a page can start to move: to pond 0, 1 or 2. -/
def State.addMove (s : State) (m : PageMove) : State := { s with nextId := s.nextId + 1, moves := s.moves ++ [{ m with id := s.nextId }] }

/-- Takes the frame or the slot a demotion needs; none where the pond is full. -/
def State.takeSpace (s : State) (part to_ : Nat) : Option (Nat × State) :=
  let p := s.part part
  match to_ with
  | 1 => p.frame1.map fun k =>
      (p.p1base + k * 65536, (s.setPart part { p with p1free := mset true p.p1free k false }).tmPut part 1 (p.p1base + k * 65536))
  | _ => p.slot2.map fun k => (slotPa k, (s.setPart part { p with p2used := mset false p.p2used k true }).tmPut part 2 (slotPa k))

/-- The bytes of the free and bad bits, in whole 4 KiB, and where a queue pair lies after them: 1,024 entries of 64 bytes for commands,
then 1,024 of 16 bytes for completions. What an entry holds the spec does not say (R367, log 20). -/
def Partition.tmBytes (p : Partition) : Nat := ((p.p1n + 2 * (p.p2n0 + p.p2n1) + 7) / 8 + 4095) / 4096 * 4096
def Partition.pairAt (p : Partition) (q : Nat) : Nat := p.tmbase + p.tmBytes + q * 81920

/-- The flash commands that are outstanding on a queue pair, and whether it has an entry free. -/
def State.pairLoad (s : State) (part q : Nat) : Nat :=
  (s.moves.filter fun m => m.part == part && m.flash && m.stage == 1 && m.qp == q).length
    + (s.flushes.filter fun f => f.part == part && f.qp == some q).length
def State.pairRoom (s : State) (part : Nat) : Bool := decide (s.pairLoad part (s.part part).qpNext < 1024)

/-- Bytes of an entry of a queue, whose content is open. -/
def State.openBytes (s : State) (n : Nat) : List Byte := (range 0 n).map fun k => Config.freeByte (s.tick + s.nextId * 2 ^ 20 + k)

/-- A flash command goes on the next queue pair in turn, into the next entry of its ring (R367). -/
def State.queuePair (s : State) (part : Nat) : Nat × State :=
  let p := s.part part
  let q := p.qpNext
  let n := mget 0 p.qpSq q
  (q, (s.setPart part { p with qpNext := (q + 1) % p.qpairs, qpSq := mset 0 p.qpSq q (n + 1) }).devWrite devWho .dev
    (p.pairAt q + n % 1024 * 64) (s.openBytes 64))

/-- Flushes that wait for an entry of a queue pair take one in turn. -/
def State.startFlushes (s : State) (part : Nat) : State :=
  (s.flushes.filter fun f => f.part == part && f.qp.isNone).foldl (fun (s : State) f =>
    if s.pairRoom part then
      let (q, s) := s.queuePair part
      { s with flushes := modifyKey (fun (x : Flush) => x.id) f.id (fun x => { x with qp := some q, issuedAt := s.clock }) s.flushes }
    else s) s

/-- A flash command completes: the drive writes the next entry of its pair's completion ring. -/
def State.pairDone (s : State) (part q : Nat) : State :=
  let p := s.part part
  let n := mget 0 p.qpCq q
  (s.setPart part { p with qpCq := mset 0 p.qpCq q (n + 1) }).devWrite devWho .dev (p.pairAt q + 65536 + n % 1024 * 16) (s.openBytes 16)

/-- Starts a move of page g: its leaf is checked, its tag becomes 3, and a demotion takes its place; `next` is the command with
its progress past the page. A page that cannot move keeps its tag (R317, R430). -/
def State.startMove (s : State) (c next : Cmd) (cut entry g va tagVa tag to_ : Nat) : State :=
  let skip := s.keepCmd next
  let fail := (s.keepCmd next).tierError c.part entry g
  match s.leaf c.part c.tenant va with
  | none => fail
  | some (_, e) =>
    if to_ = 2 && !(s.pairRoom c.part) then s
    else
    let m : PageMove :=
      { id := 0, cmd := c.id, part := c.part, tenant := c.tenant, entry := entry, page := g, va := va, tagVa := tagVa,
        from_ := tag, to_ := to_, fromPa := leafPa e, issuedAt := s.clock, left := allOf 65536 }
    s.tryReads c cut [tagVa] fail fun s c bs =>
      let mark := fun (s : State) (m : PageMove) =>
        s.tryWrites c [(tagVa, [withTag (bs.headD 0) g 3])] fail fun s c =>
          (s.keepCmd { next with floors := c.floors }).addMove m
      if to_ = 0 then mark s { m with stage := 0 }
      else
        match s.takeSpace c.part to_ with
        | none => skip
        | some (pa, s') =>
          match s.touch c .write false tagVa 1 with
          | .ok _ =>
            if to_ = 2 then let (q, s') := s'.queuePair c.part; mark s' { m with toPa := pa, flash := true, qp := q }
            else mark s' { m with toPa := pa }
          | _ => mark s m

/-- Takes a frame of pond 0 for a promotion that waits for one; the pool's shortage is reported (R317). -/
def State.takeFrame (s : State) (m : PageMove) : State :=
  let p := s.part m.part
  match p.p0free with
  | [] => s.setPart m.part { p with poolLow := true }
  | f :: r =>
    if m.from_ = 2 && !(s.pairRoom m.part) then s
    else
    let s := s.setPart m.part { p with p0free := r }
    let (q, s) := if m.from_ = 2 then s.queuePair m.part else (0, s)
    let start : PageMove → PageMove := fun m => { m with toPa := f, stage := 1, flash := m.from_ == 2, qp := q, issuedAt := s.clock }
    { s with moves := modifyKey (fun m => m.id) m.id start s.moves }

def State.dropMove (s : State) (m : PageMove) : State := { s with moves := dropKey (fun x => x.id) m.id s.moves }

/-- The thread that moves a page: of its command, or, where that has gone, one of the engine's own. -/
def State.mover (s : State) (m : PageMove) : Cmd :=
  (s.cmd? m.cmd).getD
    { id := m.cmd, kind := .age m.entry, gid := 0, who := engWho m.part 0, launch := 0, block := 0, part := m.part,
      tenant := m.tenant, ep := 0, eng := 3, inst := 255, seq := 0 }

/-- Whether the thread of a move waits for the driver. -/
def State.moveHeld (s : State) (m : PageMove) : Bool := s.waits (s.mover m) || s.faults.any fun f => f.target == .cmd m.cmd

/-- Writes a page's tag. -/
def State.putTag (s : State) (c : Cmd) (m : PageMove) (tag : Nat) (bad : State) (k : State → Cmd → State) : State :=
  s.tryReads c (2 * s.co.length) [m.tagVa] bad fun s c bs => s.tryWrites c [(m.tagVa, [withTag (bs.headD 0) m.page tag])] bad k

/-- A move is given up: its tag and backing are as before, and its new place is free again (R430). A tag that the driver will
not map stays as it is. -/
def State.giveUp (s : State) (m : PageMove) (declined : Bool) : State :=
  let c := s.mover m
  let done := fun (s : State) (c : Cmd) =>
    let s := if m.stage = 0 then s else s.freeBacking m.part m.to_ m.toPa
    ((s.keepCmd c).dropMove m).tierError m.part m.entry m.page
  let lost := match s.touch c .write false m.tagVa 1 with | .miss _ _ => declined | _ => false
  if lost then done s c else s.putTag c m m.from_ (done s c) done

/-- A page whose data have arrived is copied, one stretch after another in any order; then it is remapped, takes its new tag, and its old
backing is free (R275, R317). -/
def State.moveOn (s : State) (m : PageMove) : State :=
  let c := s.mover m
  match s.leaf m.part m.tenant m.va with
  | none => s.giveUp m false
  | some (at_, e) =>
    match s.touch c .write false m.tagVa 1 with
    | .miss v t => s.holdFault c v true t
    | .viol _ => s.giveUp m false
    | .ok _ =>
      if m.left ≠ [] then
        let (w, left) := takeLeft (s.openCut m.id) m.left
        let (s, c) := s.copyPage c m w (dataPa m.part m.from_ m.fromPa) (dataPa m.part m.to_ m.toPa)
        let s := s.keepCmd c
        { s with moves := modifyKey (fun (x : PageMove) => x.id) m.id (fun x => { x with left := left }) s.moves }
      else
        let s := s.remap m.part m.tenant m.va at_ e (m.to_ == 0) m.toPa
        let s := s.freeBacking m.part m.from_ m.fromPa
        let s := (s.chargeCmd c (if m.from_ = 2 then 12 else memIx m.fromPa) (if m.from_ = 2 then 16 else 2048)).chargeCmd c
          (if m.to_ = 2 then 12 else memIx m.toPa) (if m.to_ = 2 then 16 else 2048)
        s.putTag c m m.to_ (s.dropMove m) fun s c => (s.keepCmd c).dropMove m

/-- A write to flash has failed: the page, which stays in pond 1, has its tag 1 back (R367). -/
def State.flashBack (s : State) (m : PageMove) : State :=
  s.putTag (s.mover m) m 1 ((s.dropMove m).tierError m.part m.entry m.page) fun s c =>
    ((s.keepCmd c).dropMove m).tierError m.part m.entry m.page

/-- A page move that no flash command holds goes on, or ends; one that waits for a frame of pond 0 takes it (R317). -/
def execTierMoveDone (id : Nat) (s : State) : Out :=
  match findKey (fun (m : PageMove) => m.id) id s.moves with
  | none => .next s
  | some m =>
    if s.moveHeld m then .next s
    else if m.stage = 0 then .next (s.takeFrame m)
    else if m.stage = 3 then .next (s.flashBack m)
    else if m.flash && m.stage == 1 then .next s
    else .next (s.moveOn m)

/-- The end of a flash command in error (R367): a write leaves the page in pond 1 and marks the slot bad; a read leaves tag 3. -/
def State.flashError (s : State) (m : PageMove) : State :=
  if m.to_ = 2 then
    let bad := (s.modPart m.part fun p => { p.freePa 2 m.toPa with p2bad := mset false p.p2bad (slotOf m.toPa) true }).tmPut m.part 2 m.toPa
    let m := { m with stage := 3 }
    { bad with moves := modifyKey (fun (x : PageMove) => x.id) m.id (fun _ => m) bad.moves }.flashBack m
  else ((s.freeBacking m.part 0 m.toPa).dropMove m).tierError m.part m.entry m.page

/-- Flushes every namespace that a partition uses (R367). -/
def State.flush (s : State) (part : Nat) : State :=
  let p := s.part part
  let use := (if p.p2n0 ≠ 0 && p.p2ns0 ≠ 0 then [0] else []) ++ (if p.p2n1 ≠ 0 && p.p2ns1 ≠ 0 then [1] else [])
  let ask := fun (s : State) d =>
    { s with nextId := s.nextId + 1, flushes := s.flushes ++ [{ id := s.nextId, part := part, drive := d, issuedAt := s.clock }] }
  (use.foldl ask s).startFlushes part

/-- A Flush is over; a failed one is reported to Iluarning. -/
def State.flushed (s : State) (f : Flush) (ok : Bool) : State :=
  { s with flushes := dropKey (fun x => x.id) f.id s.flushes
           flushErrs := if ok then s.flushErrs else s.flushErrs ++ [(f.part, f.drive)] }.startFlushes f.part

/-- A flash command has ended, on the move or the Flush that it belongs to; `done` says that the drive has completed it. -/
def State.flashEnds (s : State) (id : Nat) (done ok : Bool) : State :=
  match findKey (fun (m : PageMove) => m.id) id s.moves with
  | none =>
    (match findKey (fun (f : Flush) => f.id) id s.flushes with
     | some f =>
       match f.qp with
       | some q => if !done && decide (s.clock < f.issuedAt + 3300000000) then s else (if done then s.pairDone f.part q else s).flushed f ok
       | none => s
     | none => s)
  | some m =>
    if !m.flash || m.stage != 1 || s.moveHeld m || (!done && decide (s.clock < m.issuedAt + 3300000000)) then s
    else
      let s := if done then s.pairDone m.part m.qp else s
      let m' := { m with stage := 2 }
      (if ok then { s with moves := modifyKey (fun m => m.id) id (fun _ => m') s.moves }.moveOn m' else s.flashError m).startFlushes m.part

def execFlashCommandCompletion (id : Nat) (ok : Bool) (s : State) : Out := .next (s.flashEnds id true ok)

/-- A flash command without completion for 1 s ends as an error does (R367). -/
def execFlashCommandTimeout (id : Nat) (s : State) : Out := .next (s.flashEnds id false false)

/-- The pool-low interrupt, at most once per 100 µs (R317, R405). -/
def execPoolLowInterrupt (part : Nat) (s : State) : Out :=
  let p := s.part part
  let due := match p.lastPoolIrq with | some t => decide (t + 330000 ≤ s.clock) | none => true
  if p.poolLow && due then
    let t := s.setPart part { p with poolLow := false, lastPoolIrq := some s.clock }
    .next (t.asInput part (.poolLowInterrupt part) t (t.managerIrq part 6 0))
  else .next s

/-! ### Acceptance (R211, R245, R428) -/

/-- The issue of a cache command: held while the quadrant's engine holds 64; a misaligned entry and the faults of the
instruction are met at the word, in increasing code. -/
def cacheIssue (i : Instr) (c : Ctl) (n : BitVec 6) (s : State) (more : Group → List Nat) (kind : Group → CmdKind)
    (compl : Group → Compl) : Out :=
  engineIssue i c s fun g p sec m =>
    if 64 ≤ s.engineLoad 3 (quadOf g.ep) then .next s
    else
      let al := if (g.uni n.toNat).toNat % 64 = 0 then [] else [0x30]
      match lowest (more g ++ al) with
      | some code => cmdTrap s g p sec m code 0
      | none => .next (accept s g p sec { newCmd s g 3 (quadOf g.ep) (kind g) (compl g) with hnd := g.handler.isSome })

/-- The source offset of `KVAPP`, whose range is checked later (R428). -/
def kvappC (m q : BitVec 6) (g : Group) : List Nat :=
  let v := (g.uni m.toNat).toNat
  (if bits v 63 19 != 0 then [0x28] else if v % 16 ≠ 0 then [0x22] else [])
    ++ (if 2 ^ 24 ≤ (g.uni q.toNat).toNat then [0x3A] else [])

def execKvapp (c : Ctl) (n m p : BitVec 6) (base : BitVec 32) (s : State) : Out :=
  cacheIssue (.kvapp c n m p base) c n s (kvappC m p)
    (fun g => .kvapp (g.uni n.toNat).toNat (g.uni m.toNat).toNat (g.uni p.toNat).toNat base) fun _ => .none

def execKvmrg (c : Ctl) (n m : BitVec 6) (tau : BitVec 32) (s : State) : Out :=
  cacheIssue (.kvmrg c n m tau) c n s (fun _ => [])
    (fun g =>
      let v := (g.uni m.toNat).toNat
      .kvmrg (g.uni n.toNat).toNat (bits v 23 0) (bits v 47 24) tau) fun _ => .none

def execPark (c : Ctl) (n m : BitVec 6) (s : State) : Out :=
  cacheIssue (.park c n m) c n s (fun _ => []) (fun g => .park (g.uni n.toNat).toNat (g.uni m.toNat)) fun _ => .none

/-- The operand of `PROMO`: reserved bits, and a barrier within the launch's range. -/
def promoC (s : State) (m : BitVec 6) (g : Group) : List Nat :=
  let v := (g.uni m.toNat).toNat
  (if bits v 63 53 != 0 then [0x28] else [])
    ++ (if bitOf v 52 && decide ((s.rangeOf g.launch).2 < bits v 51 37 * 16 + 16) then [0x24] else [])

def execPromo (c : Ctl) (n m : BitVec 6) (s : State) : Out :=
  cacheIssue (.promo c n m) c n s (promoC s m)
    (fun g =>
      let v := (g.uni m.toNat).toNat
      .promo (g.uni n.toNat).toNat (bits v 16 0) (bits v 36 17)) fun g =>
      let v := (g.uni m.toNat).toNat
      if bitOf v 52 then .barrier (objAt s g.launch g.ep (bits v 51 37)) else .none

/-! ### `KVMAP`, `TIERQ` (R247, R249) -/

/-- Whether an earlier operation of a path, still in the queue, may not be overtaken by a relaxed load of some addresses (R266). -/
def Group.holdsLoad (g : Group) (p : Path) (vas : List Nat) : Bool :=
  let locs := vas.map fun v => g.loc v v
  g.iq.any fun x => p.hist.contains x.thr && (x.acq || shares x.locs locs)

/-- The issue of a query of an entry: the entry is read and checked at the word, and `k` gives the result or a fault. Its faults are
precise, so its loads are performed as it issues, which waits for the earlier operations that they may not overtake (log 107). -/
def entryIssue (i : Instr) (c : Ctl) (d n : BitVec 6) (s : State)
    (k : Group → Path → Entry → Desc ⊕ (Word64 × Map Nat × List (Nat × Nat))) : Out :=
  issue i c s fun g p sec =>
    let m := guardOf g p c
    if g.fenceHeld p then .next s
    else if m = 0 then .next (advance s g p sec)
    else
      let va := (g.uni n.toNat).toNat
      if g.holdsLoad p (range va 320) then .next s
      else if va % 64 ≠ 0 then cmdTrap s g p sec m 0x30 0
      else if 2 ^ 56 ≤ va then cmdTrap s g p sec m 0x21 va
      else
        withDesc i s g p sec m (readVirt s g va 320) fun bs g =>
          let e := parseEntry bs
          match e.fault with
          | some code => cmdTrap s g p sec m code 0
          | none =>
            match k g p e with
            | .inl (.fault code x) => cmdTrap s g p sec m code x
            | .inl (.miss x t) => .next (s.parkLanes g sec i m x false t)
            | .inl (.bytes ..) => .next s
            | .inr (v, f, at_) =>
              if s.offPackage g.part (at_.map fun x => x.2) && !(s.arrived g.due) then
                .next (if s.clock < g.due then s else s.setGroup { g with due := s.clock + 8192 })
              else if s.badSector (at_.map fun x => x.2) then .next (s.consumeAt g 1 (at_.map fun x => x.2))
              else
              let id := s.nextId
              let g := { g with floors := f }
              chargeRead g at_ (.next (advance { s with nextId := id + 1 } ((g.begin id (flagOf p c) (.uni d.toNat) 1).answerAll id v) p sec))

/-- The address of a slot's key for a head. -/
def kvmapVal (m : BitVec 6) (h : Nat) (g : Group) (_ : Path) (e : Entry) : Desc ⊕ (Word64 × Map Nat × List (Nat × Nat)) :=
  if e.nkvh ≤ h then .inl (.fault 0x28 0)
  else
    match e.keyVa (g.uni m.toNat).toNat h with
    | none => .inl (.fault 0x35 0)
    | some a => .inr (BitVec.ofNat 64 a, g.floors, [])

def execKvmap (c : Ctl) (d n m : BitVec 6) (h : BitVec 16) (s : State) : Out :=
  entryIssue (.kvmap c d n m h) c d n s (kvmapVal m h.toNat)

/-- The highest tag of a list of pages, from the bytes of the tag array from page `first`'s on. -/
def highTag (first : Nat) (bs : List Byte) (gs : List Nat) : Nat :=
  (gs.map fun g => tagOf (bs.getD (g / 4 - first / 4) 0) g).foldl max 0

def tierqVal (s : State) (m : BitVec 6) (g : Group) (p : Path) (e : Entry) : Desc ⊕ (Word64 × Map Nat × List (Nat × Nat)) :=
  let gs := e.headPages (g.uni m.toNat).toNat
  let g0 := gs.headD 0
  if gs.any fun x => (e.page x).isNone then .inl (.fault 0x35 0)
  else
    let n := (g0 + e.nkvh - 1) / 4 - g0 / 4 + 1
    if g.holdsLoad p (range (e.tagVa g0) n) then .inl (.bytes [] [] [])
    else
    match readVirt s g (e.tagVa g0) n with
    | .bytes bs f at_ =>
      .inr (BitVec.ofNat 64 (highTag g0 (s.linked g.part (at_.map fun x => x.2) bs) gs + e.pst * 4), f, at_)
    | d => .inl d

def execTierq (c : Ctl) (d n m : BitVec 6) (s : State) : Out :=
  entryIssue (.tierq c d n m) c d n s (tierqVal s m)

/-! ### `KVAPP` (R246) -/

/-- The value of an FP32 pattern scaled as m × 2^e. -/
def patNat (w : Nat) : Nat × Int := if w / 2 ^ 23 = 0 then (w, -149) else (w % 2 ^ 23 + 2 ^ 23, (w / 2 ^ 23 : Nat) - 150)

/-- Whether a × 2^e is below 1, equal to it (with `eq`), or above. -/
def cmpOne (a : Nat) (e : Int) : Int :=
  if 0 ≤ e then (a * 2 ^ e.toNat : Nat) - 1 else (a : Int) - 2 ^ (-e).toNat

/-- The comparison of y^64 × b^i with 1, for y = m × 2^e and b = bm × 2^be. -/
def cmpPow (i bm : Nat) (be : Int) (y : Nat × Int) : Int := cmpOne (y.1 ^ 64 * bm ^ i) (64 * y.2 + i * be)

/-- The greatest FP32 pattern whose value is at most b^(−i/64), by its bits from the highest. -/
def powFloor (i bm : Nat) (be : Int) : Nat → Nat → Nat
  | 0, w => w
  | n + 1, w =>
    let t := w + 2 ^ n
    powFloor i bm be n (if t < 0x7F800000 && decide (cmpPow i bm be (patNat t) ≤ 0) then t else w)

/-- round_rne(b^(−i/64), FP32) for a positive finite b. -/
def powRound (i bm : Nat) (be : Int) : Nat :=
  let w := powFloor i bm be 31 0
  let a := patNat w
  let b := patNat (w + 1)
  let mid : Nat × Int := (a.1 + b.1 * 2 ^ (b.2 - a.2).toNat, a.2 - 1)
  let c := cmpPow i bm be mid
  if c < 0 then w + 1 else if c = 0 && w % 2 == 1 then w + 1 else w

/-- The factor of pair i. A base with no real power has an open one (log 21). -/
def rotFactor (s : State) (base : Word32) (i : Nat) : Word32 :=
  match f32 base with
  | .nan => nan32
  | .inf false => if i = 0 then 0x3F800000#32 else 0
  | .num false m e => if i = 0 then 0x3F800000#32 else BitVec.ofNat 32 (powRound i m e)
  | _ => if i = 0 then 0x3F800000#32 else (Config.freeWord (s.tick + i)).extractLsb' 0 32

/-- COS or SIN of the exact angle position × f, to the bounds of R92 (log 12). -/
def rotaryFn (cosine : Bool) (pos : Nat) (f : Word32) : Ext :=
  match Ext.mul (Ext.ofInt pos) (f32 f) with
  | .num neg 0 _ => if cosine then Ext.one else .num neg 0 0
  | .num neg m e =>
    let x := fxOfExt (.num neg m e)
    f32 (within (Config.rotary cosine pos f) (if cosine then fxCos x else fxSin x) (fxBound .sin m e 0) false)
  | _ => .nan

/-- The rotated pair of key elements. -/
def rotPair (c sn k0 k1 : Ext) : List Byte :=
  bytesLE (toBF16 (Ext.fma false k0 c (k1.mul sn).neg)).toNat 2 ++ bytesLE (toBF16 (Ext.fma false k0 sn (k1.mul c))).toNat 2

/-- A token's elements: for each head 128 of the key and 128 of the value, and then the multiplicity and LEN. Element i of the source,
and element i as it is stored, from the source as far as it has been read. -/
def srcElem (c : Cmd) (i : Nat) : List Byte := c.read2 i

def storedElem (s : State) (c : Cmd) (base : Word32) (pos i : Nat) : List Byte :=
  if i % 256 ≥ 128 || (f32 base).isZero then srcElem c i
  else
    let j := i / 2 * 2
    let f := rotFactor s base (i % 256 / 2)
    let x := fun k => fmtBF16.decode (valueLE (srcElem c k))
    ((rotPair (rotaryFn true pos f) (rotaryFn false pos f) (x j) (x (j + 1))).drop (i % 2 * 2)).take 2

/-- Whether what element i of a token depends on has been read. -/
def kvappReady (c : Cmd) (base : Word32) (i : Nat) : Bool :=
  if i % 256 ≥ 128 || (f32 base).isZero then c.hasRead i else c.hasRead (i / 2 * 2) && c.hasRead (i / 2 * 2 + 1)

/-- Where element i of a token goes, and its bytes. -/
def kvappPiece (s : State) (c : Cmd) (e : Entry) (entry : Nat) (pos : Nat) (base : Word32) (hdr : List Byte) (i : Nat) :
    Nat × List Byte :=
  let n := e.len
  if i < 256 * e.nkvh then
    ((e.keyVa n (i / 256)).getD 0 + (if i % 256 < 128 then 0 else 32768) + i % 128 * 2, storedElem s c base pos i)
  else if i = 256 * e.nkvh then (e.mula + n, [1#8])
  else (entry, bytesLE (valueLE (hdr.take 4) / 2 ^ 25 * 2 ^ 25 + (n + 1)) 4)

/-- The address of the tag byte of each page of a list. -/
def tagVas (e : Entry) (gs : List Nat) : List Nat := gs.map e.tagVa

/-- Whether every page of a list has tag 0, from the bytes at their tag addresses. -/
def allZero : List Nat → List Byte → Bool
  | g :: gs, b :: bs => tagOf b g == 0 && allZero gs bs
  | _, _ => true

/-- The checks of an append, made when the owner performs it (R246, R315): the entry's own, PST, LEN, the source's range, the extents,
the tags. Their order is the model's choice (log 48). -/
def kvappCheck (s : State) (c : Cmd) (cut entry src : Nat) : State :=
  s.withEntry c cut entry fun s c bs =>
    let e := parseEntry bs
    let n := e.len
    let fail := fun code => s.failDeferred c code (BitVec.ofNat 64 n)
    let gs := e.headPages (n / 128)
    match e.fault with
    | some code => s.failDeferred c code 0
    | none =>
      if e.pst ≠ 0 then fail 0x3B
      else if 2 ^ 24 ≤ n then fail 0x3A
      else if (s.rangeOf c.launch).2 < src + 512 * e.nkvh then fail 0x24
      else if gs.any fun g => (e.page g).isNone then fail 0x35
      else
        s.withReads c (s.cutAfter cut 40) (tagVas e gs) fun s c tb =>
          if !(allZero gs tb) then s.failDeferred c 0x3B (BitVec.ofNat 64 n)
          else s.setCmd { c with pos := 1, staged := keep [] 0 bs, rest := allOf (256 * e.nkvh), left := allOf (256 * e.nkvh + 2) }

/-- Appends a token: the checks, then the source's elements are read and the token's are written in any order, each once what it depends
on has been read (R246, R275). -/
def kvappStep (s : State) (c : Cmd) (cut entry src pos : Nat) (base : Word32) : State :=
  if c.pos = 0 then kvappCheck s c cut entry src
  else if c.rest ≠ [] && cut % 2 = 0 then
    let (w, rest) := takeLeft (cut / 2) c.rest
    let bs := s.lsBytes c.ep ((s.rangeOf c.launch).1 + src + 2 * w.1) (2 * w.2)
    s.setCmd { c with rest := rest, got := gotAt w.1 bs c.got }
  else
    let hdr := kept c.staged 0 320
    let e := parseEntry hdr
    let (w, left) := takeLeft (cut / 2) c.left
    let is := range w.1 w.2
    if is.all fun i => decide (256 * e.nkvh ≤ i) || kvappReady c base i then
      s.tryWrites c (is.map (kvappPiece s c e entry pos base hdr)) (s.endErr c 2) fun s c =>
        if left = [] then s.cacheDone { c with left := [], got := [] } else s.keepCmd { c with left := left }
    else s

/-! ### `KVMRG` (R248, R316) -/

/-- A live slot of a page: its number in the page, its multiplicity, and key and value of every head, 512 bytes each. -/
structure MSlot where
  ix : Nat
  mult : Nat
  kv : List (List Byte)
  deriving DecidableEq, Repr

def keyOf (kv : List Byte) : List Ext := elemsOf 10 128 (kv.take 256)

/-- Whether one head's keys are close enough to merge. -/
def headClose (tau : Ext) (a b : List Byte) : Bool :=
  let ka := keyOf a
  let kb := keyOf b
  let root := fun (k : List Ext) => f32 (sqrtFn (toF32 (dot0 k k)))
  Ext.lt (rneE ((rneE (tau.mul (root ka))).mul (root kb))) (dot0 ka kb)

/-- The weighted mean of one element. -/
def meanElem (ma mb : Nat) (x y : Ext) : Ext :=
  Ext.div (Ext.add false ((Ext.ofInt ma).mul x) ((Ext.ofInt mb).mul y)) (Ext.ofInt (ma + mb : Nat))

def mergeKv (ma mb : Nat) (a b : List Byte) : List Byte :=
  ((elemsOf 10 256 a).zipWith (meanElem ma mb) (elemsOf 10 256 b)).flatMap fun x => bytesLE (toBF16 x).toNat 2

/-- Merges the slots of a page in order, the first being the survivor. -/
def mergeSlots (tau : Ext) (a : MSlot) : List MSlot → List MSlot
  | [] => [a]
  | b :: r =>
    if (a.kv.zip b.kv).all (fun x => headClose tau x.1 x.2) && decide (a.mult + b.mult ≤ 255) then
      mergeSlots tau { a with mult := a.mult + b.mult, kv := a.kv.zipWith (mergeKv a.mult b.mult) b.kv } r
    else a :: mergeSlots tau b r

/-- The slots of a page after the merge of those in a range of slot numbers. -/
def mergePage (tau : Ext) (lo hi : Nat) (l : List MSlot) : List MSlot :=
  let pre := l.filter fun x => decide (x.ix < lo)
  let post := l.filter fun x => decide (hi ≤ x.ix)
  match l.filter fun x => decide (lo ≤ x.ix) && decide (x.ix < hi) with
  | [] => l
  | a :: r => pre ++ mergeSlots tau a r ++ post

/-- Slots from the bytes of their heads, 512 for each head of each slot. -/
def slotsOf (nk : Nat) : List (Nat × Nat) → List Byte → List MSlot
  | [], _ => []
  | (ix, mu) :: r, bs =>
    { ix := ix, mult := mu, kv := (range 0 nk).map fun h => (bs.drop (512 * h)).take 512 } :: slotsOf nk r (bs.drop (512 * nk))

/-- The writes of a page's slots from its start, and of its multiplicities. -/
def pageWrites (e : Entry) (tp : Nat) (n : Nat) (l : List MSlot) : List (Nat × List Byte) :=
  (((range 0 l.length).zip l).flatMap fun (i, x) =>
    ((range 0 e.nkvh).zip x.kv).flatMap fun (h, kv) =>
      let a := (e.keyVa (tp * 128 + i) h).getD 0
      [(a, kv.take 256), (a + 32768, kv.drop 256)])
  ++ [(e.mula + tp * 128, (range 0 n).map fun i => BitVec.ofNat 8 ((l.getD i { ix := 0, mult := 0, kv := [] }).mult))]

/-- One step of a merge: the entry is checked, then one token page after another is merged, each whole (R313); the last ends the command. -/
def kvmrgStep (s : State) (c : Cmd) (cut entry first cnt : Nat) (tau : Word32) : State :=
  let tp0 := first / 128
  let pages := if cnt = 0 then 0 else (first + cnt - 1) / 128 - tp0 + 1
  if c.pos = 0 then
    s.withEntry c cut entry fun s c bs =>
      let e := parseEntry bs
      match e.fault with
      | some code => s.failDeferred c code 0
      | none =>
        if pages ≠ 0 && (e.page ((tp0 + pages) * e.nkvh - 1)).isNone then s.failDeferred c 0x35 0
        else if pages = 0 then s.cacheDone c
        else s.keepCmd { c with pos := 1, lim := pages, staged := keep [] 0 bs }
  else
    let e := parseEntry (kept c.staged 0 320)
    let tp := tp0 + c.pos - 1
    let gs := e.headPages tp
    let next := fun (s : State) (c : Cmd) => if c.pos = c.lim then s.cacheDone c else s.keepCmd { c with pos := c.pos + 1 }
    s.withReads c cut (tagVas e gs) fun s c tb =>
      if !(allZero gs tb) then next s c
      else
        let cut := s.cutAfter cut gs.length
        s.withReads c cut (range entry 4) (z := 4) fun s c lb =>
          let n := min 128 (valueLE lb % 2 ^ 25 - tp * 128)
          let cut := s.cutAfter cut 1
          s.withRead c cut (e.mula + tp * 128) 128 fun s c mu =>
            let live := ((range 0 n).map fun i => (i, (mu.getD i 0).toNat)).filter fun x => x.2 != 0
            let vas := live.flatMap fun x => (range 0 e.nkvh).flatMap fun h =>
              let a := (e.keyVa (tp * 128 + x.1) h).getD 0
              range a 256 ++ range (a + 32768) 256
            s.withReads c (s.cutAfter cut 128) vas (z := 2) fun s c bs =>
              let l := mergePage (f32 tau) (first - tp * 128) (first + cnt - tp * 128) (slotsOf e.nkvh live bs)
              s.tryWrites c (pageWrites e tp n l) (s.endErr c 2) next (whole := true)

/-! ### `PARK`, `PROMO` (R249, R318) -/

/-- How many places of the park list are taken, or will be by `PARK`s that have passed their checks. -/
def State.parkLoad (s : State) (part : Nat) : Nat :=
  let l := (s.part part).parked
  let due := fun (x : Cmd) => x.part == part && x.status == 0 && x.pos != 0 &&
    match x.kind with
    | .park entry _ => !(l.contains { tenant := x.tenant, entry := entry })
    | _ => false
  l.length + (s.cmds.filter due).length

/-- What a `PARK` writes: the key, the clock at the moment of the check, and PST. -/
def parkPiece (entry : Nat) (key : Word64) (at_ : Nat) (pst : Byte) (i : Nat) : Nat × List Byte :=
  match i with
  | 0 => (entry + 16, bytesLE key.toNat 8)
  | 1 => (entry + 32, bytesLE at_ 8)
  | _ => (entry + 4, [pstByte pst 1])

/-- `PARK`: its checks, then its writes in any order (R249, R275, R318). -/
def parkStep (s : State) (c : Cmd) (cut entry : Nat) (key : Word64) : State :=
  let x : Parked := { tenant := c.tenant, entry := entry }
  if c.pos = 0 then
    s.withEntry c cut entry fun s c bs =>
      let e := parseEntry bs
      let p := s.part c.part
      match e.fault with
      | some code => s.failDeferred c code 0
      | none =>
        if e.pst ≠ 0 || (!(p.parked.contains x) && decide (p.pln ≤ s.parkLoad c.part)) then s.failDeferred c 0x3B 0
        else s.keepCmd { c with pos := 1, left := allOf 3, staged := keep [] 4 [bs.getD 4 0], lim := s.partClock c.part % 2 ^ 64 }
  else
    let (w, left) := takeLeft cut c.left
    s.tryWrites c ((range w.1 w.2).map (parkPiece entry key c.lim (mget 0 c.staged 4))) (s.endErr c 2) fun s c =>
      if left ≠ [] then s.keepCmd { c with left := left }
      else (s.modPart c.part fun p => if p.parked.contains x then p else { p with parked := p.parked ++ [x] }).cacheDone { c with left := [] }

/-- The next page of a list that a command promotes: moved where its tag is 1 or 2, passed over else. -/
def promoteNext (s : State) (c next : Cmd) (cut entry : Nat) (e : Entry) (g : Nat) : State :=
  let fail := (s.keepCmd next).tierError c.part entry g
  match e.page g with
  | none => fail
  | some va =>
    s.tryReads c cut [e.tagVa g] fail fun s c bs =>
      let t := tagOf (bs.headD 0) g
      let next := { next with floors := c.floors }
      if t = 1 || t = 2 then s.startMove c next cut entry g va (e.tagVa g) t 0
      else if t = 3 && s.moves.any fun m => m.part == c.part && m.tenant == c.tenant && m.entry == entry && m.page == g then
        (match c.kind with | .wake _ _ _ _ => s | _ => s.keepCmd next)
      else s.keepCmd next

/-- `PROMO`: its pages one after another, then the wait until all of them have tag 0; tags that cannot be read
are read again (R430). -/
def promoStep (s : State) (c : Cmd) (cut entry pg0 cnt : Nat) : State :=
  if c.pos = 0 then
    s.withEntry c cut entry fun s c bs =>
      let e := parseEntry bs
      match e.fault with
      | some code => s.failDeferred c code 0
      | none =>
        if cnt ≠ 0 && (e.page ((pg0 + cnt) * e.nkvh - 1)).isNone then s.failDeferred c 0x35 0
        else s.keepCmd { c with pos := 1, lim := cnt * e.nkvh, staged := keep [] 0 bs }
  else
    let e := parseEntry (kept c.staged 0 320)
    if c.pos ≤ c.lim then promoteNext s c { c with pos := c.pos + 1 } cut entry e (pg0 * e.nkvh + c.pos - 1)
    else
      let gs := range (pg0 * e.nkvh) c.lim
      s.tryReads c cut (tagVas e gs) s fun s c tb => if allZero gs tb then s.cacheDone c else s

/-! ### Wakes (R319 to R321) -/

/-- A wake record or a visit as a thread of the entry's owner. -/
def State.ownThread (s : State) (part tenant entry : Nat) (kind : CmdKind) (inst : Nat) : Cmd :=
  let q := (s.part part).owner entry
  { id := s.nextId, kind := kind, gid := 0, who := engWho part q, launch := 0, block := 0, part := part, tenant := tenant,
    ep := epOf (quadX q) (quadY q), eng := 3, inst := inst, seq := 0 }

/-- A wake record arrives for a tenant: it joins its owner's queue, or waits while that is full; none in that case. -/
def State.wakeArrives (s : State) (part tenant : Nat) (r : Nat) : Option State :=
  let entry := bits r 63 6 * 64
  let q := (s.part part).owner entry
  if 64 ≤ s.engineLoad 3 q then none
  else
    let c := s.ownThread part tenant entry (.wake entry (BitVec.ofNat 64 (bits r 127 64)) (bits r 5 0 != 0) 0) q
    some { s with nextId := s.nextId + 1, cmds := s.cmds ++ [c] }

/-- The wake leaves, counted as rejected or as a duplicate. -/
def State.wakeCount (s : State) (c : Cmd) (dup : Bool) : State :=
  { s with cmds := dropKey (fun x => x.id) c.id s.cmds }.modTenant c.part c.tenant fun t =>
    if dup then { t with wakeDup := sat32 (t.wakeDup + 1) } else { t with wakeRej := sat32 (t.wakeRej + 1) }

/-- The token pages of stage A, and those of stage B. -/
def stageA (len : Nat) : List Nat :=
  if len = 0 then [] else if (len - 1) / 128 = 0 then [0] else [(len - 1) / 128, 0]
def stageB (len : Nat) : List Nat := (range 1 ((len - 1) / 128 - 1)).reverse

/-- A wake is checked when it is performed, and enters stage A (R320, R321). -/
def State.wakeCheck (s : State) (c : Cmd) (entry : Nat) (key : Word64) (rsv : Bool) : State :=
  let cut := 2 * s.co.length
  let rej := s.wakeCount c false
  if !((s.part c.part).parked.contains { tenant := c.tenant, entry := entry }) then rej
  else
    s.tryReads c cut (range entry 320) rej (z := 8) fun s c bs =>
      let e := parseEntry bs
      if e.fault.isSome then rej
      else if e.pst = 2 || e.pst = 3 then s.wakeCount c true
      else if e.pst ≠ 1 || e.wkey ≠ key || rsv then rej
      else
        s.setPst c cut entry 2 fun s c =>
          s.keepCmd { c with kind := .wake entry key rsv 1, pos := 1, lim := (stageA e.len).length * e.nkvh, staged := keep [] 0 bs }

def execWakePerform (id : Nat) (s : State) : Out :=
  match s.cmd? id with
  | none => .next s
  | some c =>
    match c.kind with
    | .wake entry key rsv 0 =>
      if s.waits c || !(s.cacheTurn c) || s.otherMoving c then .next s
      else .next (s.wakeCheck (s.withFloors c) entry key rsv)
    | _ => .next s

/-- The pages of a stage in order. -/
def stagePages (e : Entry) (st : Nat) : List Nat := (if st = 1 then stageA e.len else stageB e.len).flatMap e.headPages

/-- The next page of a wake's stage. -/
def wakeStep (s : State) (c : Cmd) (cut entry st : Nat) : State :=
  let e := parseEntry (kept c.staged 0 320)
  if c.lim < c.pos then s
  else
    match (stagePages e st)[c.pos - 1]? with
    | none => s.keepCmd { c with pos := c.pos + 1 }
    | some g => promoteNext s c { c with pos := c.pos + 1 } cut entry e g

/-- The first position of a sub-pan that is not a hole (R321). -/
def State.firstEp (s : State) (part : Nat) : Nat := ((s.part part).positions.find? fun e => !(s.isHole e)).getD 0

/-- Stage A is over: the work item is pushed with a view that covers the engine's writes, and PST becomes 3 (R118, R321). -/
def execWakeStageADone (part : Nat) (entry : Nat) (s : State) : Out :=
  match s.cmds.find? fun c => c.part == part && decide (c.lim < c.pos) && (match c.kind with | .wake e _ _ 1 => e == entry | _ => false) with
  | none => .next s
  | some c =>
    let ep := s.firstEp part
    if s.waits c || s.moving c || !(s.itemRoom part ep c.tenant) then .next s
    else
      let e := parseEntry (kept c.staged 0 320)
      .next (s.setPst (s.withFloors c) (2 * s.co.length) entry 3 fun s c =>
        let it : Item := { v := e.item entry, views := [c.view] }
        let kind := match c.kind with | .wake e k r _ => CmdKind.wake e k r 2 | k => k
        (s.modPart part fun p => p.pushItem ep c.tenant it).keepCmd
          { c with kind := kind, pos := 1, lim := (stageB e.len).length * e.nkvh })

/-- Stage B is over: PST becomes 0, and the entry leaves the park list (R318, R321). -/
def execWakeStageBDone (part : Nat) (entry : Nat) (s : State) : Out :=
  match s.cmds.find? fun c => c.part == part && decide (c.lim < c.pos) && (match c.kind with | .wake e _ _ 2 => e == entry | _ => false) with
  | none => .next s
  | some c =>
    if s.waits c || s.moving c then .next s
    else
      .next (s.setPst (s.withFloors c) (2 * s.co.length) entry 0 fun s c =>
        let s := (s.keepCmd c).modPart part fun p =>
          { p with parked := p.parked.filter fun x => !(x.tenant == c.tenant && x.entry == entry) }
        { s with cmds := dropKey (fun x => x.id) c.id s.cmds })

/-! ### Ageing (R318) -/

def State.endVisit (s : State) (c : Cmd) : State := { s with cmds := dropKey (fun x => x.id) c.id s.cmds }

/-- A partition's default age where the entry gives none. -/
def ageOf (own dflt : Nat) : Nat := if own = 0 then dflt else own

/-- The owner visits an entry of the park list. -/
def execAgeingVisit (part : Nat) (entry : Nat) (s : State) : Out :=
  match (s.part part).parked.find? fun x => x.entry == entry && !(s.cmds.any fun c => c.part == part && c.tenant == x.tenant && c.kind == .age entry) with
  | none => .next s
  | some x => .next { s with nextId := s.nextId + 1, cmds := s.cmds ++ [s.ownThread part x.tenant entry (.age entry) 255] }

/-- Whether a tile is at a page that it found with tag 0 (R312). -/
def State.pinned (s : State) (part tenant entry g : Nat) : Bool :=
  s.cmds.any fun c => c.part == part && c.tenant == tenant && c.pin &&
    match c.kind with
    | .atile _ _ _ _ _ kvh _ _ _ pg0 e _ => e == entry && (pg0 + c.pos - 1) * (parseEntry (kept c.staged 0 320)).nkvh + kvh == g
    | _ => false

/-- One step of a visit: PST is read; while it is 1, the next page moves down where its tag and the entry's age say so. A header
that cannot be read or is malformed makes the visit skip the entry (R430). -/
def ageStep (s : State) (c : Cmd) (cut entry : Nat) : State :=
  let skip := (s.endVisit c).tierError c.part entry 0
  s.tryReads c cut (range entry 320) skip (z := 8) fun s c bs =>
    let e := parseEntry bs
    let p := s.part c.part
    let a := (s.partClock c.part - e.pkt.toNat) / 3300
    let a1 := ageOf e.ag1 p.ag1d
    let a2 := ageOf e.ag2 p.ag2d
    let total := (e.exts.map fun x => x.2.1).sum
    if e.fault.isSome then skip
    else if e.pst ≠ 1 || total ≤ c.pos then s.endVisit c
    else
      let g := c.pos
      let next := { c with pos := c.pos + 1 }
      match e.page g with
      | none => s.endVisit c
      | some va =>
        s.tryReads c (s.cutAfter cut 40) [e.tagVa g] (s.keepCmd next |>.tierError c.part entry g) fun s c bs =>
          let t := tagOf (bs.headD 0) g
          let next := { next with floors := c.floors }
          if t = 0 && decide (a1 ≤ a) && !(s.pinned c.part c.tenant entry g) then s.startMove c next cut entry g va (e.tagVa g) 0 1
          else if t = 1 && decide (a1 + a2 ≤ a) then s.startMove c next cut entry g va (e.tagVa g) 1 2
          else s.keepCmd next

/-! ### Execution (R245) -/

/-- One step of a command of the cache engine. -/
def runCache (s : State) (c : Cmd) (cut : Nat) : State :=
  match c.kind with
  | .kvapp entry src pos base => kvappStep s c cut entry src pos base
  | .kvmrg entry first cnt tau => kvmrgStep s c cut entry first cnt tau
  | .park entry key => parkStep s c cut entry key
  | .promo entry pg0 cnt => promoStep s c cut entry pg0 cnt
  | .wake entry _ _ (st + 1) => wakeStep s c cut entry (st + 1)
  | .age entry => ageStep s c cut entry
  | _ => s

/-- The owner of an entry performs the next step of a command, a wake or a visit, in their order on the entry. -/
def execCacheCommandExecute (cmd cut : Nat) (s : State) : Out :=
  match s.cmd? cmd with
  | none => .next s
  | some c =>
    if c.status ≠ 0 || s.waits c || s.moving c || s.otherMoving c || !(s.cacheTurn c) then .next s
    else
      let c := { c with phase := 1 }
      .next (runCache (s.setCmd c) (s.withFloors c) cut)

/-- A fault of a thread of the cache engine was declined, or its access failed: a command ends in error, a promotion, a wake or
a visit gives up the page it is at and goes on (R214, R430). -/
def State.cacheDeclined (s : State) (c : Cmd) (va : Nat) : State :=
  match s.moves.find? fun m => m.cmd == c.id with
  | some m => s.giveUp m true
  | none =>
    let next := s.keepCmd { c with pos := c.pos + 1 }
    match c.kind with
    | .wake _ _ _ 0 => s.wakeCount c false
    | .wake entry _ _ st =>
      if c.lim < c.pos then s
      else
        next.tierError c.part entry ((stagePages (parseEntry (kept c.staged 0 320)) st)[c.pos - 1]?.getD 0)
    | .age entry =>
      if inRange va entry 320 then (s.endVisit c).tierError c.part entry 0 else next.tierError c.part entry c.pos
    | .promo entry pg0 _ =>
      if c.pos = 0 then s.endErr c 2
      else if c.lim < c.pos then s
      else next.tierError c.part entry (pg0 * (parseEntry (kept c.staged 0 320)).nkvh + c.pos - 1)
    | _ => s.endErr c 2

end Sys2Proof.Machine
end

