-- ==== Sys2Proof/Machine/Perform.lean ====
section
/-! DEFINITION. `DSTEP`, and the step in which the abstract machine performs an operation of a group's queue (R237, R262, R266,
R428). -/

namespace Sys2Proof.Machine

/-- `DSTEP` reads its step sizes from the store of its EP. -/
def execDstep (c : Ctl) (n : BitVec 6) (first : BitVec 6) (cnt : BitVec 7) (s : State) : Out :=
  issue (.dstep c n first cnt) c s fun g p sec =>
    let m := guardOf g p c
    let len := 4 * cnt.toNat
    if g.fenceHeld p then .next s
    else if m = 0 then .next (advance s g p sec)
    else
      let v := (g.uni n.toNat).toNat
      match bareOffset v 4 len (s.rangeOf g.launch).2 with
      | .error code => cmdTrap s g p sec m code (v % 2 ^ 19)
      | .ok off =>
        let locs := (range (s.storeOff g off) len).map (storeLoc g.ep)
        if g.unitBusy locs then .next s
        else
          let k := s.nextId
          let g := g.begin k (flagOf p c) (.beta first.toNat cnt.toNat) (maskOf fun l => decide (l < cnt.toNat))
          let op : MemOp := { id := 0, instr := k, lane := 0, thr := p.thr, hist := p.hist, locs := locs, kind := .dstep }
          let (s, g) := { s with nextId := k + 1 }.enqueue g [op]
          let s := if s.noCoef g.part then s else s.chargeSectors g (fun _ => 2) (sectorsOf locs)
          .next (advance s g p sec)

/-- The word at index i of little-endian bytes. -/
def wordAt (bs : List Byte) (i : Nat) : Nat := valueLE ((bs.drop (4 * i)).take 4)

/-- The record of a `DSTEP` of more than 32 step sizes becomes two, the second for those beyond. -/
def Group.splitBeta (g : Group) (k t : Nat) : Group :=
  match g.out? k with
  | none => g
  | some o =>
    match o.dst with
    | .beta first cnt =>
      if cnt ≤ 32 then g
      else
        let upper : Outst := { instr := t, flag := none, dst := .beta (first + 32) (cnt - 32), pend := maskOf fun l => decide (l < cnt - 32),
                               twin := some k }
        { g with outst := upper :: modifyKey (fun o => o.instr) k (fun o => { o with dst := .beta first 32, twin := some t }) g.outst }
    | _ => g

/-- The step sizes arrive, each for its register (R237). -/
def State.performDstep (s : State) (g : Group) (x : MemOp) : State :=
  let bs := s.storeRead x
  let t := s.nextId
  let g := ({ g with iq := dropKey (fun y => y.id) x.id g.iq } : Group).splitBeta x.instr t
  let give : Group → Nat → Group := fun g i => g.answer (if i < 32 then x.instr else t) (i % 32) (BitVec.ofNat 64 (wordAt bs i))
  { s with nextId := t + 1 }.setGroup ((range 0 (bs.length / 4)).foldl give g)

/-- Performs an operation that the queue lets pass; no result where its own rule forbids the step. -/
def State.perform (s : State) (g : Group) (x : MemOp) (cut : Nat) : Option State :=
  match x.kind with
  | .load _ _ => s.performAccess g x cut
  | .store _ => s.performAccess g x cut
  | .atom .. => s.performAccess g x cut
  | .lds _ _ => s.performAccess g x cut
  | .sts _ => s.performAccess g x cut
  | .atoms .. => s.performAccess g x cut
  | .ldc _ _ => s.performAccess g x cut
  | .dstep => some (s.performDstep g x)
  | .fence o => s.performFence g x o
  | .afence => s.performAfence g x
  | .commit => s.performCommit g x
  | .send .. => s.performWork g x cut
  | .recv .. => s.performWork g x cut
  | .wpull _ => s.performWork g x cut
  | .wpush _ => s.performWork g x cut
  | .launch _ => s.performWork g x cut
  | _ => s.performObject g x

/-- A restartable block commits before an operation that says so, as `COMMIT` does: when every earlier operation of the group has been
performed, and in a lockstep partition once the peer agrees (R184, R194, R420, log 106). The Boolean says whether the operation may now
be performed. -/
def State.commitBefore (s : State) (g : Group) (x : MemOp) : State × Bool :=
  if !(x.com && s.restartable g.block) then (s, true)
  else if !(earlier x g.iq).isEmpty then (s, false)
  else
    match s.gate g false with
    | some s => (s, false)
    | none => (s.commitBlock g.block, true)

/-- The machine performs an operation of a group's queue that may overtake every earlier one it would pass; a raised trap that
waited for the group's flags is then taken (R262, R266, R370). -/
def execMemoryOperationPerform (g op cut : Nat) (s : State) : Out :=
  match s.group? g with
  | none => .next s
  | some g =>
    match findKey (fun x => x.id) op g.iq with
    | none => .next s
    | some x =>
      if g.evicted || !(s.mayPerform g x) then .next s
      else
        match s.commitBefore g x with
        | (s, false) => .next s
        | (s, true) =>
          match s.linkWait g x with
          | some s => .next s
          | none =>
            match s.perform (g.passWaits x) x cut with
            | none => .next s
            | some s => .next (s.settle g.id)

end Sys2Proof.Machine
end

