-- ==== Sys2Proof/Machine/Faults.lean ====
section
/-! DEFINITION. Translation faults: their records, the driver's interrupt, and the driver's answer (R183, R216, R220, R259, R374,
R375, R405, R430). -/

namespace Sys2Proof.Machine

/-! ### Records (R374) -/

/-- The 32 bytes of a fault record. -/
def faultRecord (f : FaultEntry) : List Byte :=
  bytesLE
    ((if f.tier then 2 ^ 64 else 0) + f.tenant % 16 * 2 ^ 72 + (if f.w then 2 ^ 76 else 0) + f.src % 8 * 2 ^ 77
      + f.slot % 32 * 2 ^ 80 + epY f.ep % 32 * 2 ^ 85 + epX f.ep % 64 * 2 ^ 90 + f.tag.toNat * 2 ^ 160 + f.va.toNat * 2 ^ 192) 32

/-- A fault's record joins the partition's fault ring; a full ring delays it. -/
def execFaultRecordPost (part : Nat) (id : Nat) (s : State) : Out :=
  match s.fault? id with
  | none => .next s
  | some f =>
    let p := s.part part
    let rd := s.num (p.cfgAt + 60) 4
    if f.part ≠ part || f.posted || decide ((p.fqwr.toNat + 2 ^ 32 - rd) % 2 ^ 32 = 4096) then .next s
    else
      let wr := p.fqwr + 1
      let s := s.devWrite devWho .dev (p.fqbase + 32 * (p.fqwr.toNat % 4096)) (faultRecord f)
      let s := (s.setPart part { p with fqwr := wr, faultIrqDue := true }).cfgWrite part 56 (bytesLE wr.toNat 4)
      .next { s with faults := modifyKey (fun f => f.id) id (fun f => { f with posted := true }) s.faults }

/-- The fault interrupt, at most one every 10 µs (R374, R405). -/
def execFaultInterrupt (part : Nat) (s : State) : Out :=
  let p := s.part part
  let due := match p.lastFaultIrq with | some t => decide (t + 33000 ≤ s.clock) | none => true
  if p.faultIrqDue && due then
    .next ((s.setPart part { p with faultIrqDue := false, lastFaultIrq := some s.clock }).managerIrq part 5 0)
  else .next s

/-! ### A lane access again (R183) -/

/-- The access of a memory instruction, for its replay. -/
def accOf : Instr → Option (Acc × (Group → Nat → MKind))
  | .ld _ t sc o d base ix =>
    some ({ sp := .dev base ix, t := t, rd := true, dst := resDst t d, uni := Dst.isUni d, acq := acquires o, sc := sc },
      fun _ _ => .load (tyBytes t) (signedTy t))
  | .st _ t sc o d base ix =>
    some ({ sp := .dev base ix, t := t, wr := true, rel := releases o, sc := sc, commits := releases o && widerThanBlk sc },
      fun g l => .store (storeBytes t d g l))
  | .ldc _ t d ix bank off =>
    some ({ sp := .bank bank off ix, t := t, rd := true, dst := resDst t d, uni := Dst.isUni d },
      fun _ _ => .ldc (tyBytes t) (signedTy t))
  | .atom _ t sc o d base ix op f v =>
    some ({ sp := .dev base (atomIx ix), t := t, rd := true, wr := true, dst := resDst t d, uni := Dst.isUni d,
            acq := acquires o, rel := releases o, sc := sc, commits := true, noted := true },
      fun g l => .atom t op f (atomVals t g l v).1 (atomVals t g l v).2 true)
  | .red _ t sc o base ix op f v =>
    some ({ sp := .dev base (atomIx ix), t := t, rd := true, wr := true, rel := releases o, sc := sc, commits := true, noted := true },
      fun g l => .atom t op f (atomVals t g l v).1 (atomVals t g l v).2 false)
  | _ => none

/-- After a restore or a return, a path whose access has been made enters its clause's header anew (R25). -/
def State.enterAgain (s : State) (gid : Nat) (sec : Bool) : State :=
  match s.group? gid with
  | none => s
  | some g =>
    match g.path? sec with
    | some p => if p.again && decide (g.wait = .none) && g.trap.isNone then s.setGroup (g.setPath sec (some p.reenter)) else s
    | none => s

/-- A parked instruction goes on: an access in its faulting lanes only; any other word issues again. -/
def State.replay (s : State) (g : Group) (i : Instr) (sec : Bool) (m : Lanes) (op : Nat) : State :=
  let g := { g with wait := .none }
  let t := match accOf i, g.path? sec with
    | some (a, f), some p => if op = 0 then s.setGroup g else accRun i a (f g) (flagOf p (ctlOf i)) op true m s g p sec
    | _, _ => s.setGroup g
  t.enterAgain g.id sec

/-- Whether a group waits for a fault; one that a machine check has stopped waits for none any more (R373). -/
def Group.awaits (g : Group) (f : FaultEntry) : Bool :=
  match g.wait with
  | .fault id _ => id == f.id
  | .fetchFault id _ => id == f.id
  | _ => false

/-- The address of the lowest of some lanes of a declined access, which the trap's record names (R182, R371); another word's is the
one its fault record named. -/
def declinedVa (s : State) (g : Group) (i : Instr) (m : Lanes) (va op : Nat) : Nat :=
  match accOf i with
  | some (a, _) => if op = 0 then va else accVa s g a ((accLanes a m).headD 0)
  | none => va

/-- The driver declined a lane access: access-violation at the word, and its lanes write nothing. -/
def State.declineLanes (s : State) (g : Group) (i : Instr) (sec : Bool) (m : Lanes) (va op : Nat) : State :=
  let va := declinedVa s g i m va op
  let g := { g with wait := .none }.withdraw op m
  match g.path? sec with
  | some p => s.trapAt g p sec 0x21 m va 0
  | none => s.setGroup g

/-! ### An engine's fault answered (R216, R220, R375, R430) -/

/-- The engine of a command whose fault was serviced goes on by itself, but for a group's scroll. -/
def State.cmdServiced (s : State) (c : Cmd) : State :=
  let s := s.setCmd { c with held := none }
  match c.kind with
  | .scroll _ => s.scrollSts c fun x => if x.want then { x with sts := 1, frg := 0, want := false } else { x with sts := 4 }
  | .entry .. => s.tryBegin c.id
  | _ => s

/-- A chain entry whose record could not be written leaves all the same. -/
def State.leaveEntry (s : State) (c : Cmd) (r : ChainRef) : State :=
  let s := if r.irq then s.vecOut 11 c.part c.tenant r.chain else s
  (s.retire c).nextEntry c

/-- The command of a declined fault ends in error, or gives up what it was at. -/
def State.cmdDeclined (s : State) (c : Cmd) (va : Nat) : State :=
  let c := { c with held := none }
  let s := s.setCmd c
  let done := match c.chain with | some r => if r.done then some r else none | none => none
  match done with
  | some r => s.leaveEntry c r
  | none =>
    match c.kind with
    | .scroll _ => if c.chain.isSome then s.endErr c 2 else s.scrollSts c fun x => { x with sts := 5 }
    | .copy _ => (s.declineCopy c).copyEnd c.id
    | .kvapp .. => s.cacheDeclined c va
    | .kvmrg .. => s.cacheDeclined c va
    | .park .. => s.cacheDeclined c va
    | .promo .. => s.cacheDeclined c va
    | .wake .. => s.cacheDeclined c va
    | .age _ => s.cacheDeclined c va
    | _ => s.endErr c 2

/-! ### The answer (R375) -/

def State.dropFault (s : State) (f : FaultEntry) : State := { s with faults := dropKey (fun x => x.id) f.id s.faults }

/-- What waited for a fault goes on. -/
def State.serviced (s : State) (f : FaultEntry) : State :=
  let s := s.dropFault f
  match f.target with
  | .lanes gid i sec m op =>
    (match s.group? gid with
     | some g => if g.awaits f then (s.replay g i sec m op).settle gid else s
     | none => s)
  | .fetch gid .. =>
    (match s.group? gid with
     | some g => if g.awaits f then s.setGroup { g with wait := .none } else s
     | none => s)
  | .cmd id =>
    match s.cmd? id with
    | some c => s.cmdServiced c
    | none => s

/-- What waited for a fault meets its failure. -/
def State.declined (s : State) (f : FaultEntry) : State :=
  let s := s.dropFault f
  match f.target with
  | .lanes gid i sec m op =>
    (match s.group? gid with
     | some g => if g.awaits f then s.declineLanes g i sec m f.va.toNat op else s
     | none => s)
  | .fetch gid sec pc va =>
    (match s.group? gid with
     | some g =>
       if !(g.awaits f) then s
       else
         (match g.path? sec with
          | some p => s.takeTrap { g with wait := .none } sec (fetchInfo p pc va.toNat)
          | none => s.setGroup { g with wait := .none })
     | none => s)
  | .cmd id =>
    match s.cmd? id with
    | some c => s.cmdDeclined c f.va.toNat
    | none =>
      match s.moves.find? fun m => m.cmd == id with
      | some m => s.giveUp m true
      | none => s

/-- The driver answers a record; a TAG that is not outstanding is ignored. -/
def State.answerFault (s : State) (part : Nat) (v : Word64) : State :=
  match s.faults.find? fun f => f.part == part && f.posted && f.tag == v.extractLsb' 0 32 with
  | none => s
  | some f => if v.getLsbD 32 then s.declined f else s.serviced f

def execFaultResponse (part : Nat) (v : Word64) (s : State) : Out :=
  .next (s.asInput part (.faultResponse part v) s (s.answerFault part v))

end Sys2Proof.Machine
end

