-- ==== Sys2Proof/Machine/Sys.lean ====
section
/-! DEFINITION. Traps by instruction, the return from a trap, special registers and no-operations (R17, R250, R251, R372). -/

namespace Sys2Proof.Machine

/-! ### Software traps -/

/-- A trap that an instruction raises as its effect, where some guard is true (R38, R250). -/
def softTrap (i : Instr) (c : Ctl) (s : State) (info : Path → Lanes → TrapInfo) : Out :=
  issue i c s fun g p sec =>
    let m := guardOf g p c
    if m = 0 then .next (advance s g p sec) else .next (s.takeTrap g sec (info p m))

/-- The record of `TRAP` resumes at the next word, a header (R371). -/
def trapInfo (n : BitVec 4) (p : Path) (m : Lanes) : TrapInfo :=
  { precise p (0x40 + n.toNat) m 0 0 with pc := p.pc + 1, hdr := p.pc + 1 }

def execTrap (c : Ctl) (n : BitVec 4) (s : State) : Out := softTrap (.trap c n) c s (trapInfo n)

def execBkpt (c : Ctl) (n : BitVec 8) (s : State) : Out :=
  softTrap (.bkpt c n) c s fun p m => precise p 0x50 m 0 (n.setWidth 64)

def execNop (c : Ctl) (s : State) : Out := fixed (.nop c) c 4 none s fun g _ => g

/-! ### Return from a trap (R372) -/

/-- The point of a return: its header, or no suitable one, or a fetch that has no translation. -/
inductive RttPoint where
  | at_ (h : Word64)
  | bad
  | miss (va : Nat) (tier : Bool)
  deriving DecidableEq, Repr

/-- Where a return to a word of the launch's segment enters: the word itself where it is a header, else the header of the
clause that trapped, where the word lies inside it (R58). What an unfetchable word means here is the model's choice, for R58 and R372 do not
say: without a translation the group parks as at any fetch, at the `RTT`, and on a page that forbids it the point is not suitable
(log 104). -/
def rttPoint (s : State) (g : Group) (d : DivBlock) (pc : Word64) : RttPoint :=
  let base := (s.hdrOf g).code
  match s.codeWord g base pc with
  | .error (va, .miss t) => .miss va t
  | .error _ => .bad
  | .ok w =>
    if isHeader w then .at_ pc
    else
      match s.codeWord g base d.hdr with
      | .error (va, .miss t) => .miss va t
      | .error _ => .bad
      | .ok h =>
        let len := (headerOf h).len.toNat
        if d.hdr.toNat < pc.toNat && decide (pc.toNat ≤ d.hdr.toNat + len) then .at_ d.hdr else .bad

def execRtt (c : Ctl) (n : BitVec 6) (s : State) : Out :=
  let i := Instr.rtt c n
  issue i c s fun g p sec =>
    let m := guardOf g p c
    if m = 0 then .next (advance s g p sec)
    else
      match g.handler with
      | none => .next (s.trapAt g p sec 0x3B m 0 0)
      | some d =>
        let va := (g.uni n.toNat).toNat
        match trRange (s.trGroup g .read) va 64 with
        | .error (.miss t) => .next (s.parkLanes g sec i m (missAt (s.trGroup g .read) va 64) false t)
        | .error _ => .next (s.trapAt g p sec 0x21 m va 0)
        | .ok pas =>
          let locs := (range va 64).zipWith g.loc pas
          if g.iq.any fun x => shares x.locs locs then .next s
          else if s.uncorr != [] && pas.any s.poisoned then .next (s.consumeAt g 0 pas)
          else
            let (bs, f, _) := loadBytes s (s.who g) (s.openCut va) pas locs g.floors
            let v := valueLE bs
            let am : Lanes := BitVec.ofNat 32 (bits v 191 160)
            let pc : Word64 := BitVec.ofNat 64 (bits v 223 192)
            if am = 0 || !(subsetM am d.mask) then .next (s.trapAt g p sec 0x3B m 0 0)
            else
              match rttPoint s g d pc with
              | .miss va t => .next (s.parkFetch g sec p.pc va t)
              | .bad => .next (s.trapAt g p sec 0x3B m 0 0)
              | .at_ h =>
                let g := { g with floors := f }.setUni 62 (BitVec.ofNat 64 (bits v 511 448))
                .next (s.setGroup (g.resume d p am h pc))

/-! ### Special registers (R17, R51, R251) -/

/-- `%clock`: the device's cycles, or a lockstep partition's shared count (R17, R419). -/
def State.clockOf (s : State) (g : Group) : Word64 :=
  let p := s.part g.part
  BitVec.ofInt 64 ((s.clock : Int) + if p.lockstep then p.clockOffset else 0)

/-- The value of a special register in a lane. -/
def spVal (s : State) (g : Group) (n l : Nat) : Word64 :=
  let nat := fun k => BitVec.ofNat 64 k
  if n = 0x00 then nat l
  else if n = 0x01 then nat (epX g.ep)
  else if n = 0x02 then nat (epY g.ep)
  else if n = 0x03 then nat (quadOf g.ep)
  else if n = 0x04 then nat g.tenant
  else if n = 0x05 then nat g.stg
  else if n = 0x08 then s.clockOf g
  else if n = 0x09 then g.wid
  else if 0x0A ≤ n && n ≤ 0x0F then nat (wfGet (s.hdrOf g).wf (n - 0x0A) g.wid.toNat)
  else if n = 0x10 then g.srseed.setWidth 64
  else if n = 0x11 then g.fmask.setWidth 64
  else if 0x40 ≤ n && n ≤ 0x7F then (mget 0 g.beta (n - 0x40)).setWidth 64
  else if n = 0x80 then (mget 0x37800000#32 s.ckrel (s.arrayOf g.ep)).setWidth 64
  else if n = 0x81 then (mget 0x00800000#32 s.ckabs (s.arrayOf g.ep)).setWidth 64
  else if n = 0x82 then (mget 0 s.ckfix (s.arrayOf g.ep)).setWidth 64
  else if n = 0x83 then (s.part g.part).stgbase
  else if n = 0x84 then nat g.part
  else if n = 0x85 then nat (s.part g.part).shp
  else 0

/-- The type that gives a special register's width as a result. -/
def spTy (x : BitVec 8) : Ty := if spWide x then .n64 else .n32

def execRds (c : Ctl) (d : Dst) (x : BitVec 8) (s : State) : Out :=
  fixed (.rds c d x) c 8 none s fun g m => g.writeDst (spTy x) d m fun l => spVal s g x.toNat l

/-- Setting `%srseed` seeds both generators (R87). -/
def Group.seed (g : Group) (v : Word32) : Group := { g with srseed := v, gAlu := seedAlu v, gFma := seedFma v }

/-- A write of a special register that is not read-only. -/
def spWrite (s : State) (g : Group) (n : Nat) (v : Word64) : State × Group :=
  let w := v.extractLsb' 0 32
  if n = 0x10 then (s, g.seed w)
  else if 0x40 ≤ n && n ≤ 0x7F then (s, { g with beta := mset 0 g.beta (n - 0x40) w })
  else if n = 0x80 then ({ s with ckrel := mset 0x37800000#32 s.ckrel (s.arrayOf g.ep) w }, g)
  else if n = 0x81 then ({ s with ckabs := mset 0x00800000#32 s.ckabs (s.arrayOf g.ep) w }, g)
  else if n = 0x83 then (s.modPart g.part fun p => { p with stgbase := v }, g)
  else (s, g)

/-- `WRS` takes its operand from the lowest active lane whose guard is true (R250). -/
def execWrs (c : Ctl) (x : BitVec 8) (b : Src) (s : State) : Out :=
  let n := if spWide x then 8 else 4
  issue (.wrs c x b) c s fun g p sec =>
    let m := guardOf g p c
    match lanesOf m with
    | [] => .next (advance s g p sec)
    | l :: _ =>
      fetchConst (.wrs c x b) s g p sec m n b
        (let (s, g) := spWrite s g x.toNat (srcVal s g (spWide x) false n b l)
         .next (advance s g p sec))

end Sys2Proof.Machine
end

