-- ==== Sys2Proof/Machine/Place.lean ====
section
/-! DEFINITION. The dispatcher's resources: lane registers, group slots, local-store ranges and overflow regions, the rectangle a
patch goes on, and the start of its groups (R8 to R12, R87, R260, R283, R284, R296, R355, R387). -/

namespace Sys2Proof.Machine

/-! ### Periodic events (R356, R360, R362, R395, R396, R415) -/

def tickKey (kind id : Nat) : Nat := kind * 2 ^ 64 + id

/-- Whether an event that happens at every multiple of a period has still to happen. -/
def State.tickDue (s : State) (kind id clock period : Nat) : Bool := decide (mget 0 s.tickAt (tickKey kind id) + 1 ≤ clock / period)

def State.ticked (s : State) (kind id : Nat) : State :=
  { s with tickAt := mset 0 s.tickAt (tickKey kind id) (mget 0 s.tickAt (tickKey kind id) + 1) }

/-- The next event comes at the next multiple of the period. -/
def State.tickFrom (s : State) (kind id clock period : Nat) : State :=
  { s with tickAt := mset 0 s.tickAt (tickKey kind id) (clock / period) }

/-! ### A tenant's memory as the device reaches it (R348 to R350) -/

/-- Translation of a tenant's address by the device itself. -/
def State.trTenant (s : State) (part tenant : Nat) (k : Access) (va : Nat) : TRes :=
  if 2 ^ 56 ≤ va then .viol else judge s k false va (s.walk part tenant va)

/-- n bytes at a tenant's address, as the device reads them. -/
def State.tenantBytes (s : State) (part tenant va n : Nat) : Option (List Byte) :=
  match trRange (s.trTenant part tenant .read) va n with
  | .ok pas => some (pas.map s.devByte)
  | .error _ => none

/-- Writes bytes at a tenant's address at a level; nothing where the address cannot be written. -/
def State.tenantWrite (s : State) (part tenant va : Nat) (lvl : Scope) (bs : List Byte) : State :=
  match trRange (s.trTenant part tenant .write) va bs.length with
  | .ok pas =>
    if bs = [] then s
    else { s with nextId := s.nextId + 1 }.drainWrite s.nextId devWho lvl (virtBytes part tenant va pas bs) []
  | .error _ => s

/-! ### Free registers, slots, ranges and regions (R8, R260, R284, R387) -/

/-- The position that holds a quadrant's system groups: the first that is no hole, in row-major order (R387). -/
def State.sysEp (s : State) (q : Nat) : Option Nat :=
  ((range (quadY q) 16).flatMap fun y => (range (quadX q) 32).map fun x => epOf x y).find? fun e => !(s.isHole e)

def State.isSysEp (s : State) (e : Nat) : Bool := s.sysEp (quadOf e) == some e

/-- The tenants' groups that hold registers and a slot at a position. -/
def State.seated (s : State) (e : Nat) : List Group := s.groups.filter fun g => g.ep == e && !g.sys && !g.evicted

/-- Free lane registers for tenants at a position: 1,024 in all, 32 of them kept for a system group. -/
def State.freeRegs (s : State) (e : Nat) : Nat :=
  1024 - (if s.isSysEp e then 32 else 0) - ((s.seated e).map fun g => g.regs).sum

/-- Free group slots for tenants at a position; slot 31 is kept for a system group. -/
def State.freeSlots (s : State) (e : Nat) : List Nat :=
  let used := (s.seated e).map fun g => g.slot
  (range 0 (if s.isSysEp e then 31 else 32)).filter fun n => !(used.contains n)

/-- The ranges that blocks hold in a position's store. -/
def State.ranges (s : State) (e : Nat) : List (Nat × Nat) :=
  (((s.blocks.filter fun b => b.ep == e).map fun b => s.rangeOf b.launch).filter fun r => r.2 != 0).eraseDups

/-- Whether n units from `at_` meet none of the used ones. -/
def fits (used : List (Nat × Nat)) (at_ n : Nat) : Bool := used.all fun u => decide (at_ + n ≤ u.1) || decide (u.1 + u.2 ≤ at_)

/-- The least of a list of numbers. -/
def least : List Nat → Option Nat
  | [] => none
  | x :: r => match least r with | none => some x | some y => some (min x y)

/-- The lowest multiple of a step from which n units are free below a limit. -/
def firstFit (used : List (Nat × Nat)) (n lim step : Nat) : Option Nat :=
  least ((0 :: used.map fun u => (u.1 + u.2 + step - 1) / step * step).filter fun a => decide (a + n ≤ lim) && fits used a n)

/-- The parts of a partition's overflow pool that are in use. -/
def State.ovUsed (s : State) (part : Nat) : List (Nat × Nat) :=
  let bs := s.blocks ++ s.parked.flatMap fun p => p.blocks
  ((bs.filter fun b => b.part == part && b.ovUnits != 0).map fun b => (b.ovBase, b.ovUnits))

/-- Overflow regions for n blocks, the first of them lowest; none where the pool has no room. -/
def ovTake (pool units : Nat) : Nat → List (Nat × Nat) → Option (List Nat)
  | 0, _ => some []
  | n + 1, used =>
    match firstFit used units pool 1 with
    | none => none
    | some a => (ovTake pool units n ((a, units) :: used)).map fun r => a :: r

/-! ### What a patch needs, and where it goes (R8, R284, R355) -/

/-- A launch's next patch: its shape, groups in a block, lane registers of a group, entry and stage. -/
structure Need where
  w : Nat
  h : Nat
  groups : Nat
  regs : Nat
  entry : Nat
  stg : Nat
  deriving DecidableEq, Repr

def LHdr.need (h : LHdr) (stg : Nat) : Need :=
  match if h.nstg = 0 then none else h.stages[stg]? with
  | some t => { w := h.pw, h := h.ph, groups := h.groups, regs := t.rg8 * 8, entry := t.entry, stg := stg }
  | none => { w := h.pw, h := h.ph, groups := h.groups, regs := h.rg8 * 8, entry := h.entry, stg := 0 }

/-- The length of a launch's range: its largest allocation (R284). -/
def LHdr.rangeLen (h : LHdr) : Nat :=
  if h.nstg = 0 then h.lst else ((h.stages.take h.nstg).map fun t => t.lst).foldl max 0

/-- The positions of a rectangle in row-major order. -/
def rectEps (x y w h : Nat) : List Nat := (range y h).flatMap fun v => (range x w).map fun u => epOf u v

/-- Whether a position of a partition can take a block. -/
def State.epTakes (s : State) (part : Nat) (l : Launch) (n : Need) (e : Nat) : Bool :=
  (s.part part).inSub (epX e) (epY e) && !(s.isHole e) && decide (n.groups ≤ (s.freeSlots e).length)
    && decide (n.groups * n.regs ≤ s.freeRegs e) && (l.created == 0 || l.rangeLen == 0 || fits (s.ranges e) l.rangeBase l.rangeLen)

/-- The range's base: what the launch has, or the lowest free on every position. -/
def State.baseFor (s : State) (l : Launch) (es : List Nat) : Option Nat :=
  if l.rangeLen = 0 then some 0
  else if l.created ≠ 0 then some l.rangeBase
  else firstFit (es.flatMap s.ranges) l.rangeLen 393216 4096

/-- The rectangle with the most free lane registers, the lowest row and then column first; positions in `avoid` are passed over. -/
def State.rectFor (s : State) (part : Nat) (l : Launch) (n : Need) (avoid : List Nat) : Option (Nat × Nat × Nat) :=
  let p := s.part part
  let ok := p.positions.filter fun e => s.epTakes part l n e && !(avoid.contains e)
  let tryAt := fun (acc : Option (Nat × Nat × Nat × Nat)) (e : Nat) =>
    let es := rectEps (epX e) (epY e) n.w n.h
    if !(es.all ok.contains) then acc
    else
      let score := (es.map s.freeRegs).sum
      match acc, s.baseFor l es with
      | _, none => acc
      | none, some b => some (score, epX e, epY e, b)
      | some a, some b => if a.1 < score then some (score, epX e, epY e, b) else acc
  (ok.foldl tryAt none).map fun a => a.2

/-! ### Constant bank 15 (R283, R296) -/

/-- Bytes 8 to 23 of constant bank 15. -/
def State.bank15 (s : State) (part : Nat) : List Byte :=
  let p := s.part part
  let arrays := (p.quads.map (leadOf p.fus)).eraseDups.length
  bytesLE p.ox 1 ++ bytesLE p.oy 1 ++ bytesLE p.wp 1 ++ bytesLE p.hp 1 ++ bytesLE 0 4
    ++ bytesLE (arrN p.fus) 2 ++ bytesLE (arrKd p.fus) 2 ++ bytesLE arrays 1 ++ bytesLE 0 3

/-- The bytes of memory that hold n bytes of a launch's bank 15 from its byte 8 on: a manager's bank is physical (log 9). -/
def State.bank15Pas (s : State) (l : Launch) (n : Nat) : List Nat :=
  let a := (l.hdr.banks.getD 15 (0, 0)).1 + 8
  if l.origin = .manager then range a n
  else match trRange (s.trTenant l.part l.tenant .write) a n with | .ok pas => pas | .error _ => []

/-- Writes the description of the sub-pan and of the arrays into a launch's bank 15, as far as the launch binds one (R283, R296).
Nothing is written where the bank cannot be (log 89). -/
def State.writeBank15 (s : State) (l : Launch) : State :=
  let (a, size) := l.hdr.banks.getD 15 (0, 0)
  let bs := (s.bank15 l.part).take (size - 8)
  let t := if l.origin = .manager then s.devWrite devWho .dev (a + 8) bs else s.tenantWrite l.part l.tenant (a + 8) .dev bs
  t.modLaunch l.id fun x => { x with desc := (s.bank15Pas l bs.length).map fun pa => (pa, t.co.length) }

/-! ### The start of a patch (R8, R11, R87) -/

/-- A new group of a block. -/
def State.newGroup (s : State) (l : Launch) (n : Need) (b : Block) (num bix k slot age : Nat) : Group :=
  let w := l.hdr.wf
  let wid := k + bix * 2 ^ wfBase w 1 + num * 2 ^ wfBase w 2
  let g : Group :=
    { id := s.nextId + k, launch := l.id, block := b.id, ep := b.ep, slot := slot, part := l.part, tenant := l.tenant,
      prio := l.hdr.prio, age := age, wid := BitVec.ofNat 64 wid, stg := n.stg, regs := n.regs,
      p0 := some { pc := BitVec.ofNat 64 n.entry, mask := BitVec.allOnes 32 } }
  let who : Who := { gid := g.id, blk := b.id, pch := b.patch, quad := quadOf b.ep, part := l.part }
  { g.seed l.hdr.seed with floors := s.acquire who .fab [] l.startViews }

/-- Nothing is live or awaited in a range that a new block takes. -/
def State.clearRange (s : State) (e base len : Nat) : State :=
  { s with
    live := s.live.filter fun x => !(x.1 / 2 ^ 15 == e && decide (base ≤ x.1 % 2 ^ 15 * 16) && decide (x.1 % 2 ^ 15 * 16 < base + len))
    objViews := s.objViews.filter fun x => !(x.o.ep == e && decide (base ≤ x.o.off) && decide (x.o.off < base + len)) }

/-- Places the blocks of a patch, row-major, each with its groups. -/
def State.placeBlocks (s : State) (l : Launch) (n : Need) (patch num age : Nat) : Nat → List Nat → List Nat → State
  | _, [], _ => s
  | bix, e :: es, ov =>
    let b : Block :=
      { id := s.nextId, launch := l.id, patch := patch, ep := e, part := l.part, tenant := l.tenant, stg := n.stg,
        restartable := l.hdr.rst, ovBase := ov.headD 0, ovUnits := l.ovUnits, alive := n.groups }
    let s := { s with nextId := s.nextId + 1, blocks := s.blocks ++ [b] }
    let s := s.clearRange e l.rangeBase l.rangeLen
    let gs := ((range 0 n.groups).zip (s.freeSlots e)).map fun x => s.newGroup l n b num bix x.1 x.2 age
    { s with groups := s.groups ++ gs, nextId := s.nextId + n.groups }.placeBlocks l n patch num age (bix + 1) es (ov.drop 1)

/-- Creates a patch on a rectangle whose resources are free, with its number and the times it was relaunched. -/
def State.placePatch (s : State) (l : Launch) (n : Need) (num relaunches : Nat) (x y base : Nat) (ov : List Nat) : State :=
  let k := s.nextId
  let p : Patch := { id := k, launch := l.id, x := x, y := y, w := n.w, h := n.h, stg := n.stg, num := num, relaunches := relaunches }
  let l := { l with rangeBase := base, pids := l.pids ++ [k] }
  let s := { s with nextId := k + 1, patches := s.patches ++ [p] }.modLaunch l.id fun _ => l
  s.placeBlocks l n k num k 0 (rectEps x y n.w n.h) ov

end Sys2Proof.Machine
end

