-- ==== Sys2Proof/Machine/Errors.lean ====
section
/-! DEFINITION. The rake's reads, and the host's accesses to HBM (R398 to R404). -/

namespace Sys2Proof.Machine

/-- The sectors of a pseudo-channel: the 64 GiB of a stack over its 512. -/
def rakeSectors : Nat := 2 ^ 36 / 512 / 32

/-- The rake of an address, and whether it may read: a pass reads every sector of the pseudo-channel once, and the next does not begin
before the pass length is over (R401, log 120). -/
def rakeOf (pa : Nat) : Nat := pa / 2 ^ 36 * 512 + Config.rakeChannel (pa / 32) % 512
def State.rakeDue (s : State) (k : Nat) : Bool :=
  decide (mget 0 s.rakeCnt k < rakeSectors) || decide (mget 0 s.rakeAt k + s.rakeLen * 3300000000 ≤ s.clock)

/-- The rake has read one more sector; the first of a pass begins it. -/
def State.raked (s : State) (k : Nat) : State :=
  let n := mget 0 s.rakeCnt k
  if n < rakeSectors then { s with rakeCnt := mset 0 s.rakeCnt k (n + 1), rakeAt := if n = 0 then mset 0 s.rakeAt k s.clock else s.rakeAt }
  else { s with rakeCnt := mset 0 s.rakeCnt k 1, rakeAt := mset 0 s.rakeAt k s.clock }

/-- A rake's progress in its pass, in units of 1/65,536 of one (R417, R424). -/
def State.rakePart (s : State) (k : Nat) : Nat := min (mget 0 s.rakeCnt k * 65536 / rakeSectors) 65535

/-- The rake reads a sector (R401). An uncorrectable one is recorded and marked; a corrected one is recorded and written back with
the value it has, whether or not a store has come between. -/
def execRakePatrol (addr : Nat) (kind : ErrKind) (syn : Word64) (_racing : Bool) (s : State) : Out :=
  let pa := addr / 32 * 32
  if 2 ^ 39 ≤ addr || !(s.rakeDue (rakeOf pa)) then .next s
  else
    let s := s.raked (rakeOf pa)
    match kind with
    | .uncorrectable => .next ((s.markUncorr pa).detect pa true 3 none syn)
    | .corrected => .next (if s.poisoned pa then s.detect pa true 3 none syn else s.detect pa false 3 none syn)
    | .none => .next (if s.poisoned pa then s.detect pa true 3 none syn else s)

/-- The sectors that n bytes from an address touch. -/
def sectorsIn (pa n : Nat) : List Nat := if n = 0 then [] else (range (pa / 32) ((pa + n - 1) / 32 - pa / 32 + 1)).map fun k => k * 32

/-- The host reads or writes HBM over CXL.mem, as an agent at `.host` (R280); a read of an uncorrectable sector returns poison,
and is a detection (R399). -/
def execHostCxlMemAccess (addr : Nat) (store : Option (List Byte)) (len : Nat) (s : State) : Out :=
  match store with
  | some bs => .next (if addr + bs.length ≤ 2 ^ 39 then s.devWrite hostWho .host addr bs else s)
  | none =>
    if addr + len ≤ 2 ^ 39 then
      let bad := (sectorsIn addr len).filter s.poisoned
      .next (bad.foldl (fun (s : State) pa => s.detect pa true 4 none (Config.freeWord s.tick)) s)
    else .next s

end Sys2Proof.Machine
end

