-- ==== Sys2Proof/Machine/Queues.lean ====
section
/-! DEFINITION. Queues: descriptors, entries and status records, what leaves a lockstep package, and the start and the end of
launches (R122, R348 to R351, R354, R357 to R359, R362, R420). -/

namespace Sys2Proof.Machine

/-! ### What leaves the package (R420) -/

/-- A tenant's MSI-X vector (R347, R350); in a lockstep partition a signature point comes first. -/
def State.tenantVec (s : State) (part tenant vec : Nat) : State := s.vecOut 9 part tenant vec

/-- A write to a tenant's memory that leaves the package, as a release at `.host` (R350, R420). -/
def State.hostWrite (s : State) (part tenant va : Nat) (bs : List Byte) (v : View) : State :=
  match trRange (s.trTenant part tenant .write) va bs.length with
  | .error _ => s
  | .ok pas =>
    let k := s.nextId
    let s := { s with nextId := k + 1 }
    if (s.part part).lockstep then
      let a := SigAct.write (pas.headD 0) bs
      { s with sigs := s.sigs ++ [{ id := k, part := part, gid := 0, sig := crc32 a.bytes, act := a }] }
    else s.drainWrite k devWho .host (virtBytes part tenant va pas bs) [v]

/-! ### Descriptors and status records (R348, R350) -/

def Partition.descPa (p : Partition) (q : Nat) : Nat := p.qtbase + 64 * q
def State.qdesc (s : State) (part q : Nat) : Nat := s.num ((s.part part).descPa q) 64

/-- The status record of a queue: HEAD, CSEQ, LSTS and LTAG, where it can be read. -/
def State.statusRec (s : State) (part q : Nat) : Option (Nat × Nat × Nat × Nat) :=
  let d := s.qdesc part q
  match s.tenantBytes part (bits d 31 28) (bits d 255 192) 32 with
  | none => none
  | some bs =>
    let x := valueLE bs
    some (bits x 95 64, bits x 63 0, bits x 135 128, bits x 255 192)

/-- The 32 bytes of a slot's status record. -/
def Slot.record (q : Slot) : List Byte :=
  bytesLE (q.cseq.toNat + q.head.toNat * 2 ^ 64 + q.lsts % 256 * 2 ^ 128 + q.ltag.toNat * 2 ^ 192) 32

/-- The slot that a queue is mapped to. -/
def Partition.slotOfQ (p : Partition) (q : Nat) : Option Nat :=
  (range 0 128).find? fun k => (p.slot k).mapped && (p.slot k).qid == q

/-- A queue's completed number: in its slot, or in its record. -/
def State.cseqOf (s : State) (part q : Nat) : Option Nat :=
  match (s.part part).slotOfQ q with
  | some k => some ((s.part part).slot k).cseq.toNat
  | none => (s.statusRec part q).map fun r => r.2.1

/-! ### The end of a launch (R213, R350, R357, R359) -/

/-- The completed number after the numbers of a list; the fuel bounds the list. -/
def advanceSeq (fin : List Nat) : Nat → Nat → Nat
  | 0, n => n
  | f + 1, n => if fin.contains (n + 1) then advanceSeq fin f (n + 1) else n

/-- Every write that a launch's patches have made, as floors. -/
def State.launchFloors (s : State) (l : Launch) : Map Nat :=
  s.co.foldl (fun f w => if l.pids.contains w.who.pch && w.who.gid != 0 then floorsTo w.id w.bytes f else f) []

/-- A number of a queue completes: CSEQ advances, a failure is kept, the record is written, and vectors are raised. -/
def State.finishNumber (s : State) (part k seq : Nat) (tag : Word64) (irq : Bool) (vec lsts : Nat) (fl : Map Nat) : State :=
  let q := (s.part part).slot k
  let fin := q.doneSeqs ++ [seq]
  let n := advanceSeq fin fin.length q.cseq.toNat
  let q := { q with cseq := BitVec.ofNat 64 n, doneSeqs := fin.filter fun x => decide (n < x) }
  let q := if lsts = 0 then q else { q with ltag := tag, lsts := lsts }
  let s := s.modSlot part k fun _ => q
  let s := s.hostWrite part q.tenant q.stsa q.record { who := devWho, sc := .host, fl := fl }
  let s := if irq then s.tenantVec part q.tenant vec else s
  if lsts = 0 then s else s.tenantVec part q.tenant 31

/-- A number of a tenant's device-launch sequence completes. -/
def State.finishDevice (s : State) (part tenant seq lsts : Nat) : State :=
  let s := s.modTenant part tenant fun t =>
    let fin := t.devFinished ++ [seq]
    let n := advanceSeq fin fin.length t.devDone
    { t with devDone := n, devFinished := fin.filter fun x => decide (n < x) }
  if lsts = 0 then s else s.tenantVec part tenant 31

/-- The argument buffer of a Neltik launch is free again when the launch completes (R362). -/
def State.freeBuffer (s : State) (part tenant : Nat) (tag : Word64) : State :=
  s.modTenant part tenant fun t =>
    { t with bufBusy := t.bufBusy.filter fun b => !(b.1 == tag.toNat / 2 ^ 48 && b.2.2 == tag.toNat % 2 ^ 48) }

/-- Launches that have completed stay only while an entry that has not started may ask for their sequences (R354). -/
def State.purge (s : State) : State :=
  { s with launches := s.launches.filter fun l =>
      !l.completed || s.parts.any fun x => x.2.pending.any fun e => e.launch.isNone && e.from_ == l.id }

/-- A launch completes with a status (R350); the watchdog of its slot starts again (R357), and its entry of the pending-launch store
is free (R358). -/
def State.completeLaunch (s : State) (l : Launch) (lsts : Nat) : State :=
  let fl := s.launchFloors l
  let mine := fun (w : Write) => l.pids.contains w.who.pch && w.who.gid != 0
  let s := { s with co := raiseWrites mine .host s.co, chains := s.chains.filter fun c => c.launch != l.id }
  let s := (range 0 4).foldl (fun (s : State) a => if (s.array a).owner = some l.id then s.modArray a fun x => { x with owner := none } else s) s
  let s := match l.origin with
    | .queue k qid seq tag irq vec =>
      let q := (s.part l.part).slot k
      let s := if q.org = 1 then s.freeBuffer l.part l.tenant tag else s
      if q.mapped && q.qid == qid then
        (s.finishNumber l.part k seq tag irq vec lsts fl).modSlot l.part k fun q => { q with wdogAt := s.clock }
      else s
    | .device seq => s.finishDevice l.part l.tenant seq lsts
    | .manager => s
  ((s.modLaunch l.id fun l => { l with completed := true }).freeEntries l.part).purge

/-! ### The end of a launch as a step (R350) -/

/-- Every block has exited, every store is committed and every command has completed. -/
def State.launchOver (s : State) (l : Launch) : Bool :=
  s.allCreated l && !(s.blocks.any fun b => b.launch == l.id) && !(s.parked.any fun p => p.blocks.any fun b => b.launch == l.id)
    && !(s.cmds.any fun c => c.launch == l.id) && !(s.sb.any fun e => l.pids.contains e.who.pch)
    && s.co.all fun w => !(l.pids.contains w.who.pch && w.who.gid != 0) || scopeLe w.home w.lvl

def execLaunchCompletion (launch : Nat) (s : State) : Out :=
  match s.launch? launch with
  | none => .next s
  | some l => if !l.completed && s.launchOver l then .next (s.completeLaunch l l.killed) else .next s

/-! ### Entries (R349, R354) -/

structure QEntry where
  tag : Word64
  argo : Nat
  vec : Nat
  irq : Bool
  ser : Bool
  hdr : Nat
  ok : Bool
  deriving DecidableEq, Repr

/-- An entry's fields; reserved bits that are not zero, and a misaligned ARGO, make it malformed (R5, R349). -/
def parseQEntry (x : Nat) : QEntry :=
  { tag := BitVec.ofNat 64 (bits x 255 192), argo := bits x 191 128, vec := bits x 71 67, irq := bitOf x 66, ser := bitOf x 64,
    hdr := bits x 63 0, ok := bits x 127 72 == 0 && !(bitOf x 65) && bits x 191 128 % 64 == 0 && bits x 63 0 % 64 == 0 }

/-- A queue of another tenant, or of none, is no dependence (R354). -/
def State.depTenant (s : State) (part tenant : Nat) (d : Dep) : Bool :=
  if d.kind = 1 then decide (d.idx < 4096) && bits (s.qdesc part d.idx) 31 28 == tenant else true

/-- Whether a dependence is met; one on an engine names the launch that issued the `LAUNCH` and its EP (R213, R354). -/
def State.depMet (s : State) (part tenant : Nat) (from_ : Option (Nat × Nat)) (d : Dep) : Bool :=
  match d.kind with
  | 1 => (match s.cseqOf part d.idx with | some n => decide (d.val ≤ n) | none => false)
  | 2 =>
    if d.idx = 8 then decide (d.val ≤ (s.tenant part tenant).devDone)
    else
      match from_ with
      | none => true
      | some (l, ep) =>
        let inst := s.instOf { ep := ep } d.idx
        match s.launch? l with
        | some l => decide (d.val ≤ mget 0 l.done (seqKey d.idx inst))
        | none => false
  | _ => true

/-- Whether the launch before lets the next entry of a slot start. -/
def State.priorOk (s : State) (q : Slot) (ser : Bool) : Bool :=
  match q.cur with
  | none => true
  | some k =>
    match s.launch? k with
    | none => true
    | some l => l.completed || (!ser && s.allCreated l)

/-- A launch starts: bank 15 is written, and it joins the partition's launches (R283, R296). -/
def State.addLaunch (s : State) (l : Launch) : State :=
  let l := { l with id := s.nextId, coStart := s.co.length, rangeLen := l.hdr.rangeLen }
  let clk := s.partClock l.part
  ({ s with nextId := s.nextId + 1, launches := s.launches ++ [l] }.writeBank15 l).tickFrom 0 l.id clk 1024

/-- The place of an entry of a queue's ring in the record of notifies (R355). -/
def ageKey (q ix : Nat) : Nat := q * 2 ^ 32 + ix % 2 ^ 32

/-- Whether a launch of a slot has started and not completed. -/
def State.slotRuns (s : State) (part k : Nat) : Bool :=
  s.launches.any fun l => l.part == part && !l.completed && (match l.origin with | .queue j .. => j == k | _ => false)

/-- The next entry of a slot is read: rejected, held by a dependence, or its launch starts. -/
def State.startSlot (s : State) (part k : Nat) : State :=
  let p := s.part part
  let q := p.slot k
  if !q.mapped || q.susp || p.stopped || p.pairStopped || q.head == q.tail || !(s.priorOk q false) then s
  else
    let ent := (s.tenantBytes part q.tenant (q.rbase + 32 * (q.head.toNat % 2 ^ (q.lgn + 4))) 32).map fun bs => parseQEntry (valueLE bs)
    let seq := q.nextSeq
    let taken := { q with head := q.head + 1, nextSeq := seq + 1, waiting := false, cur := none }
    let reject := fun (tag : Word64) (irq : Bool) (vec : Nat) =>
      let s := if q.org = 1 then s.freeBuffer part q.tenant tag else s
      (s.modSlot part k fun _ => taken).finishNumber part k seq tag irq vec 1 []
    match ent with
    | none => reject 0 false 0
    | some e =>
      if e.ser && !(s.priorOk q true) then s
      else
        match (if e.ok then (s.tenantBytes part q.tenant e.hdr 640).map parseHeader else none) with
        | none => reject e.tag e.irq e.vec
        | some h =>
          if !(h.ok false) || !(h.deps.all (s.depTenant part q.tenant)) then reject e.tag e.irq e.vec
          else if !(h.deps.all (s.depMet part q.tenant none)) then s.modSlot part k fun q => { q with waiting := true }
          else if (p.tenant q.tenant).balance ≤ 0 then s.modSlot part k fun q => { q with waiting := false }
          else
            let h := if e.argo = 0 then h else { h with banks := h.banks.set 0 (e.argo, 256) }
            let v : View := { who := hostWho, sc := .host, fl := mget [] p.qviews q.qid }
            let l : Launch :=
              { id := 0, part := part, tenant := q.tenant, origin := .queue k q.qid seq e.tag e.irq e.vec, hdr := h,
                startViews := [v], ovUnits := if q.ovsz = 0 then p.ovdef else q.ovsz, age := mget 0 p.qages (ageKey q.qid q.head.toNat) }
            let wd := if s.slotRuns part k then q.wdogAt else s.clock
            (s.modSlot part k fun _ => { taken with cur := some s.nextId, wdogAt := wd }).addLaunch l

/-- An entry of the pending-launch store is rejected, held, or its launch starts (R358, R359). -/
def State.startPending (s : State) (part id : Nat) : State :=
  let p := s.part part
  match findKey (fun (e : Pending) => e.id) id p.pending with
  | none => s
  | some e =>
    if e.launch.isSome || p.stopped || p.pairStopped then s
    else if !(e.hdr.ok true) || !(e.hdr.deps.all (s.depTenant part e.tenant)) then
      ((s.modPart part fun p => { p with pending := dropKey (fun (e : Pending) => e.id) id p.pending }).finishDevice part e.tenant e.seq 1).purge
    else if !(e.hdr.deps.all (s.depMet part e.tenant (some (e.from_, e.ep)))) || (p.tenant e.tenant).balance ≤ 0 then s
    else
      let l : Launch :=
        { id := 0, part := part, tenant := e.tenant, origin := .device e.seq, hdr := e.hdr, startViews := e.views, ovUnits := e.ovUnits, age := e.age }
      let set : Pending → Pending := fun x => { x with launch := some s.nextId }
      ((s.modPart part fun p => { p with pending := modifyKey (fun (e : Pending) => e.id) id set p.pending }).addLaunch l).purge

def execLaunchEntryStart (part : Nat) (src : LaunchFrom) (s : State) : Out :=
  match src with
  | .slot k => .next (s.startSlot part k)
  | .pending id => .next (s.startPending part id)

end Sys2Proof.Machine
end

