-- ==== Sys2Proof/Machine/Save.lean ====
section
/-! DEFINITION. What saving and restoring groups and patches does: rewinding to a point, withdrawing waits, quiescence, taking
patches off their positions and seating them again, there or elsewhere (R9, R376 to R381, R385, R386). -/

namespace Sys2Proof.Machine

/-! ### One group (R377, R379) -/

/-- Whether only the group's point is kept. -/
def Group.mayRewind (g : Group) : Option Point := if g.sinceMark || g.handler.isSome then none else g.point

/-- A rewound group: the registers of its point, and one path at the recipe's entry; a running scroll goes on (R220). -/
def Group.rewind (g : Group) (t : Point) : Group :=
  { g with
    v := t.vregs, s := t.sregs, p := t.p, q := t.q, flags := [], gAlu := t.gAlu, gFma := t.gFma, srseed := t.srseed, fmask := 0
    p0 := some { pc := t.recipe, mask := t.mask, thr := g.nextThr, hist := [g.nextThr] }, p1 := none, nextThr := g.nextThr + 1
    stack := [], recs := [], iq := [], outst := [], wait := .none, trap := none, lastSecond := true
    yieldUntil := 0, hintUntil := 0 }

/-- The kinds of operation that wait to be served; those of the second sort keep the whole group waiting. -/
def isRequest (x : MemOp) : Bool :=
  match x.kind with
  | .rres _ => true
  | .rwait _ => true
  | _ => false

def isGroupWait (x : MemOp) : Bool :=
  match x.kind with
  | .recv .. => true
  | .wpull poll => !poll
  | .bwait .. => true
  | _ => false

/-- An operation that waits to be served, and is withdrawn by a save. -/
def waitsAt (x : MemOp) : Bool := x.wseq != 0 && (isRequest x || isGroupWait x)

/-- A waiting `BWAIT` withdrawn lowers WTRS. -/
def State.unwaitObj (s : State) (x : MemOp) : State :=
  match x.kind with
  | .bwait o _ _ => s.modObj o fun v => setBits v 95 80 (barWtrs v - 1)
  | _ => s

/-- The requests of a group that have not been served are withdrawn; they are made again when it issues again. -/
def State.withdrawWaits (s : State) (g : Group) : State × Group :=
  let xs := g.iq.filter waitsAt
  let s := xs.foldl State.unwaitObj s
  let w := match g.wait with | .bwait .. => Wait.none | .recv _ => .none | .wpull _ => .none | w => w
  (s, { g with wait := w, iq := g.iq.map fun x => if waitsAt x then { x with wseq := 0, passed := false } else x })

/-- Whether an earlier operation that a save keeps in the queue keeps x there. -/
def barredBy (x y : MemOp) : Bool :=
  before y x && (!(overtakes x y) || x.com
    || match x.kind with
       | .fence o => releases o || (acquires o && isValue y)
       | .afence => true
       | .commit => true
       | _ => false)

/-- Whether an operation cannot be performed before a save, since it waits to be served, waits behind such a one, or is a fence that waits
for a command of its group. -/
def State.mustStay (s : State) (g : Group) (seen : List MemOp) (x : MemOp) : Bool :=
  waitsAt x || (isGroupWait x && g.wait != .none) || seen.any (barredBy x)
    || match x.kind with
       | .fence o => releases o && s.cmds.any fun c => c.gid == g.id && c.status == 0
       | _ => false

def State.allStay (s : State) (g : Group) : List MemOp → List MemOp → Bool
  | _, [] => true
  | seen, x :: r => s.mustStay g seen x && s.allStay g (seen ++ [x]) r

/-- The outstanding results of a group are in, but for withdrawn waits and what waits behind them, and for lanes whose fault waits for the
driver. A trap that waits for such a flag is kept (R370, R377). -/
def State.quiet (s : State) (g : Group) : Bool :=
  let parked := match g.wait with | .fault .. => true | _ => false
  s.allStay g [] g.iq
    && (if parked then g.outst.drop 1 else g.outst).all fun o => g.iq.any fun x => x.instr == o.instr

/-- The group as a save keeps it. -/
def Group.kept (g : Group) : SavedGroup :=
  match g.mayRewind with
  | some t => { g := g.rewind t, rewound := true }
  | none => { g := g, rewound := false }

/-! ### Patches off their positions (R376, R380, R381, R385) -/

/-- Whether an array command that has begun runs on: to its end, but a sequential `DELTA` stops between tokens, and an `ATILE` between
chunks; one that waits for the driver or for room in its ring waits there (R216, R242, R311, R380). -/
def State.runsOn (s : State) (c : Cmd) : Bool :=
  c.status == 0 && c.kind.isArr && c.phase != 0 &&
    match c.kind with
    | .delta ck .. => ck
    | .atile _ _ ring .. => c.phase == 3 || (c.rest != [] && !(s.waits c) && s.ringRoom ring)
    | _ => true

/-- Whether a granted run of a copy goes into the store of one of some blocks, or comes from it (R381). -/
def Cmd.onStores (c : Cmd) (bs : List Block) : Bool :=
  let at_ := fun e => bs.any fun b => b.launch == c.launch && b.ep == e
  c.dests.any fun x => (x.granted || x.due.isSome) &&
    (at_ x.ep || match c.kind with | .copy d => d.span && at_ (panPos d.srca) | _ => false)

/-- Whether the blocks of a list of patches, with their commands, have reached a point at which they can be saved. -/
def State.saveReady (s : State) (bs : List Block) : Bool :=
  let ids := bs.map fun b => b.id
  (s.groups.filter fun g => ids.contains g.block).all s.quiet
    && !(s.sb.any fun e => ids.contains e.blk && e.committed)
    && (s.cmds.filter (cmdOf bs)).all (fun c =>
      !(s.moving c) && !(s.runsOn c) && c.dests.all fun x => !(x.granted || x.due.isSome))
    && !(s.cmds.any fun c => c.onStores bs)
    && !(s.sigs.any fun x => match x.act with | .commit b _ _ => ids.contains b | _ => false)

/-- A save of blocks has begun: their groups issue no more, and no further run lands in their stores. -/
def State.beginSave (s : State) (bs : List Block) : State :=
  let ids := bs.map fun b => b.id
  { s with
    blocks := s.blocks.map fun b => if ids.contains b.id then { b with saving := true } else b
    groups := s.groups.map fun g => if ids.contains g.block then { g with leaving := true } else g }

/-- Whether a local-store key lies in the range of one of some blocks. -/
def State.inBlocks (s : State) (bs : List Block) (e off : Nat) : Bool :=
  bs.any fun b => b.ep == e && inRange off (s.rangeOf b.launch).1 (s.rangeOf b.launch).2

/-- What a staged scroll has put into the staging region, by source and byte (R220, R251). -/
def State.stagedNow (s : State) (c : Cmd) (d : ScrollD) : Map Byte :=
  ((range 0 d.sources.length).zip d.sources).flatMap fun x =>
    ((range 0 d.r.len).zip (s.stagePas c.part x.2 (s.scrollOff c d 0) d.r.len)).map fun y => (stagedKey x.1 y.1, s.byte y.2)

/-- What a scroll had put into the staging region stands there again. -/
def State.restage (s : State) (c : Cmd) (d : ScrollD) : State :=
  if (s.part c.part).stgbase == 0 then s
  else ((range 0 d.sources.length).zip d.sources).foldl (fun (s : State) x =>
    s.devWrite c.who .part ((s.stagePas c.part x.2 (s.scrollOff c d 0) 1).headD 0) (kept c.staged (stagedKey x.1 0) d.r.len)) s

/-- Whether a command is a staged scroll that has begun to read. -/
def Cmd.stages (c : Cmd) : Option ScrollD :=
  match c.kind with
  | .scroll d => if d.staged && c.phase != 0 && c.status == 0 then some d else none
  | _ => none

/-- A command as it is saved: its run requests are withdrawn, its fault is met again, the tag of a page that a tile has not passed is read
again, and staged data are kept with it (R312, R380). -/
def State.keptCmd (s : State) (c : Cmd) : Cmd :=
  let c : Cmd := { c with pin := false, dests := c.dests.map fun (x : CDst) => { x with queued := 0, granted := false } }
  match c.stages with
  | some d => { c with staged := s.stagedNow c d }
  | none => c

/-- Whether a byte lies in the range of one of some blocks, in a unit that a write has reached since its launch began (R385). -/
def State.dirtyIn (s : State) (bs : List Block) (e off : Nat) : Bool :=
  bs.any fun b => b.ep == e && inRange off (s.rangeOf b.launch).1 (s.rangeOf b.launch).2
    && decide (b.launch < mget 0 s.dirty (dirtyKey (lsKey e off)))

/-- Groups of a list leave: each with its waits withdrawn. -/
def State.keepGroups (s : State) : List Nat → List SavedGroup → State × List SavedGroup
  | [], acc => (s, acc)
  | k :: r, acc =>
    match s.group? k with
    | none => s.keepGroups r acc
    | some g =>
      let (s, g) := s.withdrawWaits g
      (s.setGroup g).keepGroups r (acc ++ [g.kept])

/-- Takes patches off their positions with everything of theirs; `chain` says which chains go along. Updates of this cycle's
barriers are complete before (R200). -/
def State.takePatches (s : State) (part tenant : Nat) (ps : List Patch) (chain : Chain → Bool) : State × Saved :=
  let s := s.objDue.foldl (fun (s : State) o => s.completeDue o) s
  let bs := ps.flatMap fun p => s.patchBlocks p.id
  let ids := bs.map fun b => b.id
  let gids := (s.groups.filter fun g => ids.contains g.block).map fun g => g.id
  let (s, gs) := s.keepGroups gids []
  let cs := s.cmds.filter (cmdOf bs)
  let dead := cs.map fun c => c.id
  let p := s.part part
  let ofCmd := fun (f : FaultEntry) => match f.target with | .cmd c => dead.contains c | _ => false
  let rewound := (gs.filter fun g => g.rewound).map fun g => g.g.id
  let sv : Saved :=
    { part := part, tenant := tenant, ox := p.ox, oy := p.oy, patches := ps, blocks := bs, groups := gs
      store := s.lstore.filter fun x => s.dirtyIn bs (x.1 / 2 ^ 19) (x.1 % 2 ^ 19)
      live := s.live.filter fun x => s.inBlocks bs (x.1 / 2 ^ 15) (x.1 % 2 ^ 15 * 16)
      dirty := (s.dirty.filter fun x => s.dirtyIn bs (x.1 / 96) (x.1 % 96 * 4096)).map fun x => (x.1, true)
      objViews := s.objViews.filter fun x => s.inBlocks bs x.o.ep x.o.off
      sb := s.sb.filter fun e => ids.contains e.blk
      cmds := cs.map s.keptCmd
      faults := (gs.filter fun g => !g.rewound).flatMap (fun g => g.g.faults)
        ++ s.faults.filter fun f => (faultOf gids f && !(faultOf rewound f)) || ofCmd f
      chains := s.chains.filter chain
      arrays := [], shadow := [] }
  let pids := ps.map fun p => p.id
  let unq : Nat × ArrayU → Nat × ArrayU := fun x => (x.1, { x.2 with queue := x.2.queue.filter fun q => !(dead.contains q) })
  ({ s with
     groups := s.groups.filter fun g => !(gids.contains g.id)
     blocks := s.blocks.filter fun b => !(ids.contains b.id)
     patches := s.patches.filter fun p => !(pids.contains p.id)
     sb := s.sb.filter fun e => !(ids.contains e.blk)
     faults := s.faults.filter fun f => !(faultOf gids f) && !(ofCmd f)
     cmds := s.cmds.filter fun c => !(dead.contains c.id)
     chains := s.chains.filter fun c => !(chain c)
     arrays := s.arrays.map unq }, sv)

/-! ### Positions again (R386) -/

/-- A launch's position at the save, and where it is now. -/
structure Moved where
  launch : Nat
  from_ : Nat
  to_ : Nat
  deriving DecidableEq, Repr

/-- How a restore renames: the new partition and tenant, the displacement of the sub-pan, the positions that changed in another
way, the shift of identities, whether the locations of the tenant's memory keep their names, the drained writes, the identities that are
restored, those of undrained stores among them, and the new quadrants of blocks. -/
structure Rename where
  part : Nat
  tenant : Nat
  dx : Int
  dy : Int
  fus : Nat
  moved : List Moved
  shift : Nat
  same : Bool
  co : List Write
  ids : List Nat
  sbs : List Nat
  quads : List (Nat × Nat)
  deriving DecidableEq, Repr

/-- Nothing has moved. -/
def Rename.stay (part tenant fus : Nat) : Rename :=
  { part := part, tenant := tenant, dx := 0, dy := 0, fus := fus, moved := [], shift := 0, same := true, co := [], ids := [], sbs := [],
    quads := [] }

def Rename.disp (r : Rename) (e : Nat) : Nat := epOf ((epX e : Int) + r.dx).toNat ((epY e : Int) + r.dy).toNat

/-- A launch's position after the restore. -/
def Rename.pos (r : Rename) (launch e : Nat) : Nat :=
  match r.moved.find? fun m => m.launch == launch && m.from_ == e with
  | some m => m.to_
  | none => r.disp e

/-- The array, or the quadrant, that stands where another stood. -/
def Rename.quad (r : Rename) (q : Nat) : Nat := quadOf (r.disp (epOf (quadX q) (quadY q)))
def Rename.arr (r : Rename) (q : Nat) : Nat := leadOf r.fus (r.quad q)

def Rename.obj (r : Rename) (l : Nat) (o : Obj) : Obj := { o with ep := r.pos l o.ep }

def Rename.inst (r : Rename) (l eng inst : Nat) : Nat :=
  match eng with
  | 2 => r.arr inst
  | 3 => r.quad inst
  | _ => r.pos l inst

def Rename.key (r : Rename) (l k : Nat) : Nat := seqKey (k / 4096) (r.inst l (k / 4096) (k % 4096))

def Rename.who (r : Rename) (w : Who) (l e : Nat) : Who :=
  { w with gid := w.gid + r.shift, blk := w.blk + r.shift, pch := w.pch + r.shift, part := r.part, quad := quadOf (r.pos l e) }

/-- A location of a local store, or of a tenant's memory, after the restore. -/
def Rename.loc (r : Rename) (l x : Nat) : Nat :=
  if 2 ^ 65 ≤ x then x + r.shift * 64
  else if 2 ^ 64 ≤ x then 2 ^ 64 + r.part
  else if 2 ^ 63 ≤ x then storeLoc (r.pos l ((x - 2 ^ 63) / 2 ^ 19)) ((x - 2 ^ 63) % 2 ^ 19)
  else if 2 ^ 56 ≤ x then locOf false r.part r.tenant (x % 2 ^ 56) 0
  else x

def Rename.mkind (r : Rename) (l : Nat) : MKind → MKind
  | .bwait o a b => .bwait (r.obj l o) a b
  | .rres o => .rres (r.obj l o)
  | .rwait o => .rwait (r.obj l o)
  | k => k

def Rename.op (r : Rename) (l : Nat) (x : MemOp) : MemOp := { x with locs := x.locs.map (r.loc l), kind := r.mkind l x.kind }

/-- The byte of a write that a location named: at its own name, or, of a write at physical addresses, at the same place of a page. -/
def Write.byteOf (w : Write) (k : Nat) : Option WByte :=
  match w.bytes.find? fun b => b.key == k with
  | some b => some b
  | none => w.bytes.find? fun b => physLoc b.loc && b.pa % 4096 == k % 4096

/-- A floor after a restore: it names the write that it named, an undrained store under its new identity. Where the tenant's memory has
other names now, it stands at the byte's physical address, which names it under every alias (R270, R278, R379; log 118). -/
def Rename.floor (r : Rename) (x : Nat × Nat) : Option (Nat × Nat) :=
  if r.sbs.contains x.2 then (if 2 ^ 80 ≤ x.1 then none else some (r.loc 0 x.1, x.2 + r.shift))
  else
    match r.co.find? fun w => w.id == x.2 with
    | none => none
    | some w => if r.same then some x else (w.byteOf x.1).map fun b => (b.pa, x.2)

/-- Nothing is renamed where a patch returns to its place. -/
def Rename.stays (r : Rename) : Bool := r.same && r.shift == 0

def Rename.floors (r : Rename) (f : Map Nat) : Map Nat :=
  if r.stays && r.ids == [] then f
  else (f.filterMap r.floor).foldl (fun m x => mset 0 m x.1 x.2) []

/-- An agent, after a restore. -/
def Rename.agent (r : Rename) (w : Who) : Who :=
  if !(r.ids.contains w.blk) || w.ext != 0 then w
  else
    let f := fun x => if r.ids.contains x then x + r.shift else x
    { w with gid := f w.gid, blk := f w.blk, pch := f w.pch, part := r.part
             quad := (match r.quads.find? fun q => q.1 == w.blk with | some q => q.2 | none => r.quad w.quad) }

def Rename.view (r : Rename) (v : View) : View := { v with who := r.agent v.who, fl := r.floors v.fl }
def Rename.views (r : Rename) (v : List View) : List View := v.map r.view

/-- The path of a slot of a group that is in a slot of its EP again: it enters its clause's header anew, at once or, where its access
waits for a fault, once that has been made (R25, R59, R377). -/
def Group.reenterPath (g : Group) (second : Bool) (p : Path) : Path :=
  match g.wait with
  | .fault _ sec => if sec = second then { p with again := true } else p.reenter
  | _ => p.reenter

/-- The paths of a group in a slot again: each enters its clause's header anew (R25, R59, R377). -/
def Group.reenter (g : Group) : Group :=
  let div : DivBlock → DivBlock := fun d => { d with other := d.other.map Path.reenter, stack := d.stack.map Path.reenter }
  { g with p0 := g.p0.map (g.reenterPath false), p1 := g.p1.map (g.reenterPath true), stack := g.stack.map Path.reenter,
           handler := g.handler.map div }

/-- Once a group has its slot again, its access that had no translation is made again, and a word that had none is fetched again
(R379). -/
def Group.unpark (g : Group) : Group :=
  { g with faults := [], wait := match g.wait with | .fault .. => .none | .fetchFault .. => .none | w => w }

/-- A group at its new place; its block is resident anew, from `age` on (R27). -/
def Rename.group (r : Rename) (g : Group) (slot age : Nat) : Group :=
  { g.reenter.unpark with
    age := age
    id := g.id + r.shift, launch := g.launch + r.shift, block := g.block + r.shift, ep := r.pos g.launch g.ep, slot := slot
    part := r.part, tenant := r.tenant, iq := g.iq.map (r.op g.launch), floors := r.floors g.floors
    readViews := r.views g.readViews, fenceViews := r.views g.fenceViews, evicted := false, leaving := false
    wait := (match g.reenter.unpark.wait with | .stopped => .none | w => w)
    scroll := { g.scroll with cmd := g.scroll.cmd.map fun c => c + r.shift } }

def Rename.block (r : Rename) (b : Block) : Block :=
  { b with id := b.id + r.shift, launch := b.launch + r.shift, patch := b.patch + r.shift, ep := r.pos b.launch b.ep, part := r.part,
           tenant := r.tenant, saving := false }

def Rename.patch (r : Rename) (p : Patch) : Patch :=
  let e := r.pos p.launch (epOf p.x p.y)
  { p with id := p.id + r.shift, launch := p.launch + r.shift, x := epX e, y := epY e }

def Rename.rect (r : Rename) (l : Nat) (x : Rect) : Rect := let e := r.pos l (epOf x.x x.y); { x with x := epX e, y := epY e }

def Rename.compl (r : Rename) (l : Nat) : Compl → Compl
  | .none => .none
  | .barrier o => .barrier (r.obj l o)
  | .ring o => .ring (r.obj l o)

/-- A pan address after the restore (R386). -/
def Rename.pan (r : Rename) (l a : Nat) : Nat := let e := r.pos l (panPos a); panOff a + epX e * 2 ^ 19 + epY e * 2 ^ 24

def Rename.kind (r : Rename) (l : Nat) : CmdKind → CmdKind
  | .copy d => .copy { d with srca := if d.span then r.pan l d.srca else d.srca, dsta := if d.dpan && d.op != 1 then r.pan l d.dsta else d.dsta }
  | .scroll d => .scroll { d with r := r.rect l d.r }
  | .mma t b x row => .mma t b (r.rect l x) row
  | .aload sc b x row nc => .aload sc b (r.rect l x) row nc
  | .adrain n m sc b x sv row nc => .adrain n m sc b (r.rect l x) sv row nc
  | .delta ck b be k v t d sh dv dk nt => .delta ck b be (r.rect l k) (r.rect l v) (r.rect l t) d sh dv dk nt
  | .tsolve k o be c dk => .tsolve (r.rect l k) (r.rect l o) be c dk
  | .atile q o ring co sc kv b rows n p e a => .atile (r.rect l q) (r.rect l o) (r.obj l ring) co sc kv b rows n p e (a.map fun x => x + r.shift)
  | .amerge b x row => .amerge b (r.rect l x) row
  | k => k

def Rename.cmd (r : Rename) (c : Cmd) : Cmd :=
  let l := c.launch
  { c with
    id := c.id + r.shift, kind := r.kind l c.kind, gid := c.gid + r.shift, who := r.who c.who l c.ep, launch := l + r.shift
    block := c.block + r.shift, part := r.part, tenant := r.tenant, ep := r.pos l c.ep, inst := r.inst l c.eng c.inst
    compl := r.compl l c.compl, floors := r.floors c.floors, held := none
    dests := c.dests.map fun x => { x with ep := r.pos l x.ep }
    got := (match c.kind with
      | .copy _ => c.got.map fun x => if x.1 < 2 ^ 60 then (r.pos l (x.1 / 2 ^ 14) * 2 ^ 14 + x.1 % 2 ^ 14, x.2) else x
      | _ => c.got)
    follow := c.follow.map fun f => (f.1, r.rect l f.2) }

def Rename.chain (r : Rename) (c : Chain) : Chain := { c with launch := c.launch + r.shift, ep := r.pos c.launch c.ep }

def Rename.mapKeys (r : Rename) (l : Nat) (m : Map Nat) : Map Nat := m.foldl (fun a x => mset 0 a (r.key l x.1) x.2) []

def Rename.launch (r : Rename) (l : Launch) : Launch :=
  { l with
    id := l.id + r.shift, part := r.part, tenant := r.tenant
    accepted := r.mapKeys l.id l.accepted, done := r.mapKeys l.id l.done
    finished := l.finished.map fun x => (r.key l.id x.1, x.2)
    seqViews := l.seqViews.map fun x => (r.key l.id x.1, x.2.1, r.view x.2.2)
    startViews := r.views l.startViews
    chans := l.chans.map fun x => (x.1, x.2.map fun w => { w with views := r.views w.views })
    pids := l.pids ++ (if r.shift = 0 then [] else l.pids.map fun p => p + r.shift)
    again := l.again.map r.patch }

/-! ### Seating (R8, R386) -/

/-- Writes the map entries of saved stores at their new positions. -/
def moveKeys {β : Type} [DecidableEq β] (d : β) (w : Nat) (pos : Nat → Nat → Nat) (src dst : Map β) : Map β :=
  src.foldl (fun m x => mset d m (pos (x.1 / w) (x.1 % w) * w + x.1 % w) x.2) dst

/-- The launch whose saved block holds a byte of a position. -/
def Saved.launchAt (sv : Saved) (range : Nat → Nat × Nat) (e off : Nat) : Nat :=
  match sv.blocks.find? fun b => b.ep == e && inRange off (range b.launch).1 (range b.launch).2 with
  | some b => b.launch
  | none => 0

/-- The new place of a byte of a saved store. -/
def Saved.place (sv : Saved) (r : Rename) (range : Nat → Nat × Nat) (e off : Nat) : Nat := r.pos (sv.launchAt range e off) e

/-- A store-buffer entry at its new place: its addresses are translated again. -/
def State.renameSb (s : State) (r : Rename) (l : Nat) (e : SbEntry) : SbEntry :=
  let fix := fun (b : WByte) =>
    if 2 ^ 56 ≤ b.loc then
      match s.trTenant r.part r.tenant .write (b.loc % 2 ^ 56) with
      | .ok pa => { b with pa := pa, loc := r.loc l b.loc }
      | _ => { b with loc := r.loc l b.loc }
    else b
  { e with id := e.id + r.shift, blk := e.blk + r.shift, ep := r.pos l e.ep, who := r.who e.who l e.ep, bytes := e.bytes.map fix,
           views := r.views e.views }

/-- The groups of saved blocks take slots: their own where it is free. `age` gives the age of a block's groups. -/
def State.seatGroups (s : State) (r : Rename) (age : Nat → Nat) : List SavedGroup → State
  | [] => s
  | x :: rest =>
    let g := x.g
    let e := r.pos g.launch g.ep
    let free := s.freeSlots e
    let n := if free.contains g.slot then g.slot else free.headD g.slot
    { s with groups := s.groups ++ [r.group g n (age g.block)] }.seatGroups r age rest

/-- A parked access, fetch or command of a restored context meets its fault again, if the page still has no translation (R379). -/
def State.refault (s : State) (r : Rename) (f : FaultEntry) : State :=
  let again := fun (s : State) (t : FTarget) => s.addFault { f with part := r.part, tenant := r.tenant, posted := false, target := t }
  match f.target with
  | .lanes gid i sec m op =>
    match s.group? (gid + r.shift) with
    | some g => s.replay g i sec m op
    | none => s
  | .fetch .. => s
  | .cmd id =>
    match s.cmd? (id + r.shift) with
    | none => s
    | some c =>
      match s.trCmd c (if f.w then .write else .read) false f.va.toNat with
      | .miss _ => again (s.setCmd { c with held := some s.nextId }) (.cmd c.id)
      | _ => s.cmdServiced c

/-- The place of a saved block's patch among the saved ones, which become resident in this order (R27). -/
def Saved.order (sv : Saved) (blk : Nat) : Nat :=
  match sv.blocks.find? fun b => b.id == blk with
  | some b => (sv.patches.takeWhile fun p => p.id != b.patch).length
  | none => 0

/-- A restored array command takes its place in its array's queue: that of its acceptance, behind one that has begun (R212, R302, R380). -/
def State.requeue (s : State) (c : Cmd) : State :=
  let arr := c.kind.isArr || (match c.kind with | .entry op _ _ => cmdArr op | _ => false)
  let first := fun q => decide (q < c.id) || (match s.cmd? q with | some x => x.phase != 0 | none => false)
  if arr && !(match c.chain with | some x => x.done | none => false) then
    s.modArray (s.arrOf c) fun a => { a with queue := a.queue.takeWhile first ++ [c.id] ++ a.queue.dropWhile first }
  else s

/-- Seats saved patches at their new places; the launches' ranges are as they were. -/
def State.seat (s : State) (r : Rename) (sv : Saved) : State :=
  let range := s.rangeOf
  let old := fun (l : Nat) => range (l + r.shift)
  let place := sv.place r old
  let bs := sv.blocks.map r.block
  let s := bs.foldl (fun (s : State) b => s.clearRange b.ep (range b.launch).1 (range b.launch).2) s
  let taken := fun e off => bs.any fun b => b.ep == e && inRange off (range b.launch).1 (range b.launch).2
  let marks : Map Nat := sv.dirty.map fun x => (x.1, s.nextId)
  let clean : Map Nat := s.dirty.filter fun x => !(taken (x.1 / 96) (x.1 % 96 * 4096))
  let zero : Map Byte := s.lstore.filter fun x => !(taken (x.1 / 2 ^ 19) (x.1 % 2 ^ 19))
  let lOf := fun (k : Nat) => match sv.blocks.find? fun b => b.id == k with | some b => b.launch | none => 0
  let view : ObjView → ObjView := fun x => { x with o := { x.o with ep := place x.o.ep x.o.off }, v := r.view x.v }
  let s := { s with
    patches := s.patches ++ sv.patches.map r.patch
    blocks := s.blocks ++ bs
    lstore := moveKeys 0 (2 ^ 19) place sv.store zero
    live := moveKeys false (2 ^ 15) (fun e u => place e (u * 16)) sv.live s.live
    dirty := moveKeys 0 96 (fun e u => place e (u * 4096)) marks clean
    objViews := s.objViews ++ sv.objViews.map view
    cmds := s.cmds ++ sv.cmds.map r.cmd
    chains := s.chains ++ sv.chains.map r.chain }
  let s := { s with sb := s.sb ++ sv.sb.map (fun (e : SbEntry) => s.renameSb r (lOf e.blk) e) }
  let n := s.nextId
  let s := { s with nextId := n + sv.patches.length }.seatGroups r (fun b => n + sv.order b) sv.groups
  let s := sv.cmds.foldl (fun (s : State) c => s.requeue (r.cmd c)) s
  let stage := fun (s : State) (c : Cmd) => match (r.cmd c).stages with | some d => s.restage (r.cmd c) d | none => s
  let s := sv.cmds.foldl stage s
  sv.faults.foldl (fun (s : State) f => s.refault r f) s

/-- The renaming of a patch that returns to its own positions. -/
def Saved.own (sv : Saved) (fus : Nat) : Rename := .stay sv.part sv.tenant fus

/-- Whether positions can take saved blocks: a hole-free place with registers, slots and the range free. -/
def State.canSeat (s : State) (part : Nat) (gs : List SavedGroup) (b : Block) (e : Nat) (base len : Nat) : Bool :=
  let mine := gs.filter fun g => g.g.block == b.id
  (s.part part).inSub (epX e) (epY e) && !(s.isHole e) && decide (mine.length ≤ (s.freeSlots e).length)
    && decide ((mine.map fun g => g.g.regs).sum ≤ s.freeRegs e) && (len == 0 || fits (s.ranges e) base len)

end Sys2Proof.Machine
end

