-- ==== Sys2Proof/Machine/Dispatcher.lean ====
section
/-! DEFINITION. The dispatcher's steps: placing and evicting patches, stages, work-queue balancing, energy windows, throttling and
watchdogs (R14, R355 to R357, R360, R376, R391, R394 to R396, R415, R419). -/

namespace Sys2Proof.Machine

/-! ### Candidates (R355) -/

/-- A launch that may create its next patch now: its priority, the age of its notify or entry, the launch, the patch's stage, and
whether the patch is one that only the launch's own tick creates (R356). -/
structure Cand where
  prio : Nat
  age : Nat
  l : Launch
  stg : Nat
  tick : Bool
  deriving DecidableEq, Repr

/-- Whether a stage has still a patch to create. -/
def Launch.stageOpen (l : Launch) (k : Nat) : Bool := k != 0 || decide (mget 0 l.perStage 0 < l.hdr.npat)

/-- A stage's minimum and maximum. -/
def Launch.minOf (l : Launch) (k : Nat) : Nat := match l.hdr.stages[k]? with | some t => t.minB | none => 0
def Launch.maxOf (l : Launch) (k : Nat) : Nat := match l.hdr.stages[k]? with | some t => t.maxB | none => 0

/-- Whether a stage is below its minimum, and may create a patch (R14, R356). -/
def State.short (s : State) (l : Launch) (k : Nat) : Bool := decide (s.resident l k < l.minOf k) && !(s.lapsed l k) && l.stageOpen k

/-- The stage of the next patch that a launch waits for: a killed one's, the only one of a launch without stages, else that of the
first stage below its minimum (log 92); none where it waits for no patch. -/
def State.nextStage (s : State) (l : Launch) : Option Nat :=
  match l.again with
  | p :: _ => some p.stg
  | [] =>
    if l.hdr.nstg = 0 then (if l.created < l.hdr.npat then some 0 else none)
    else (range 0 l.hdr.nstg).find? (s.short l)

/-- The rank of a launch of a partition that may create a block: its priority, and its age. -/
def State.rankOf (s : State) (part : Nat) (l : Launch) : Option (Nat × Nat) :=
  let p := s.part part
  if l.part ≠ part || l.completed || l.killed ≠ 0 || (p.tenant l.tenant).balance ≤ 0 then none
  else
    match l.origin with
    | .queue k qid .. =>
      let q := p.slot k
      if q.mapped && q.qid == qid && !q.susp then some (q.prio, l.age) else none
    | .device _ => some (l.hdr.prio, l.age)
    | .manager => none

/-- A launch as a candidate of its partition. -/
def State.candOf (s : State) (part : Nat) (l : Launch) : Option Cand :=
  match s.rankOf part l, s.nextStage l with
  | some r, some k => some { prio := r.1, age := r.2, l := l, stg := k, tick := l.hdr.nstg != 0 && l.again.isEmpty }
  | _, _ => none

/-- Whether a rank comes before another: the higher priority, then the older. -/
def ranksBefore (b a : Nat × Nat) : Bool := decide (a.1 < b.1) || (a.1 == b.1 && decide (b.2 < a.2))

/-- The better of two candidates. -/
def Cand.first (a b : Cand) : Cand := if ranksBefore (b.prio, b.age) (a.prio, a.age) then b else a

def topCand : List Cand → Option Cand
  | [] => none
  | c :: r => match topCand r with | none => some c | some d => some (c.first d)

/-- Every slot's and every entry's next launch is considered (R354). -/
def State.startAll (s : State) (part : Nat) : State :=
  let s := (range 0 128).foldl (fun s k => if ((s.part part).slot k).mapped then s.startSlot part k else s) s
  (s.part part).pending.foldl (fun s e => s.startPending part e.id) s

/-! ### Placing (R8, R9, R11, R399) -/

/-- The overflow regions of a patch's blocks. -/
def State.ovFor (s : State) (l : Launch) (n : Need) : Option (List Nat) :=
  if l.ovUnits = 0 then some (List.replicate (n.w * n.h) 0)
  else ovTake (s.part l.part).ovn l.ovUnits (n.w * n.h) (s.ovUsed l.part)

/-- Creates a launch's next patch of a stage, where a rectangle and the regions are free. -/
def State.createPatch (s : State) (l : Launch) (stg : Nat) : Option State :=
  let n := l.hdr.need stg
  match s.rectFor l.part l n [], s.ovFor l n with
  | some (x, y, base), some ov =>
    let l' := { l with created := l.created + 1, perStage := mset 0 l.perStage stg (mget 0 l.perStage stg + 1) }
    some (s.placePatch { l' with rangeBase := base } n l.created 0 x y base ov)
  | _, _ => none

/-- A killed patch goes on other positions than its own where a rectangle is free, else on its own. -/
def State.replacePatch (s : State) (l : Launch) (p : Patch) (rest : List Patch) : Option State :=
  let n := l.hdr.need p.stg
  let at_ := match s.rectFor l.part l n (rectEps p.x p.y p.w p.h) with
    | some r => some r
    | none => s.rectFor l.part l n []
  match at_, s.ovFor l n with
  | some (x, y, base), some ov => some (s.placePatch { l with again := rest } n p.num p.relaunches x y base ov)
  | _, _ => none

/-- Creates the patch that a candidate waits for. -/
def State.placeNext (s : State) (c : Cand) : Option State :=
  match c.l.again with
  | p :: r => s.replacePatch c.l p r
  | [] => s.createPatch c.l c.stg

/-! ### Making room (R376) -/

/-- Whether a group may be evicted for a candidate of a launch: never one of the same launch (log 22), nor one that a machine check
has stopped (R373). -/
def State.evictable (s : State) (prio own : Nat) (g : Group) : Bool :=
  let npre := match s.launch? g.launch with
    | some l => (match l.origin with | .queue k .. => ((s.part l.part).slot k).npre | _ => false)
    | none => true
  !g.sys && !g.evicted && g.wait != .stopped && g.launch != own && decide (g.prio < prio) && !npre

/-- The order of eviction: the lowest priority, the youngest block, the highest %wf0. -/
def goesFirst (s : State) (a b : Group) : Bool :=
  if a.prio ≠ b.prio then decide (a.prio < b.prio)
  else if a.age ≠ b.age then decide (b.age < a.age)
  else decide (wfGet (s.hdrOf b).wf 0 b.wid.toNat < wfGet (s.hdrOf a).wf 0 a.wid.toNat)

def insertVictim (s : State) (g : Group) : List Group → List Group
  | [] => [g]
  | h :: r => if goesFirst s g h then g :: h :: r else h :: insertVictim s g r

/-- The first groups of a list that free what is missing; none where all together do not. -/
def enough : List Group → Nat → Nat → Option (List Group)
  | [], slots, regs => if slots = 0 && regs = 0 then some [] else none
  | g :: r, slots, regs =>
    if slots = 0 && regs = 0 then some [] else (enough r (slots - 1) (regs - g.regs)).map fun v => g :: v

/-- The groups to evict at a position for a block. -/
def State.victims (s : State) (prio own : Nat) (n : Need) (e : Nat) : Option (List Group) :=
  if s.isHole e then none
  else
    let vs := (s.groups.filter fun g => g.ep == e && s.evictable prio own g).foldl (fun l g => insertVictim s g l) []
    enough vs (n.groups - (s.freeSlots e).length) (n.groups * n.regs - s.freeRegs e)

/-- The victims on all positions of a rectangle. -/
def State.rectVictims (s : State) (prio own : Nat) (n : Need) : List Nat → Option (List Group)
  | [] => some []
  | e :: r =>
    match s.victims prio own n e, s.rectVictims prio own n r with
    | some a, some b => some (a ++ b)
    | _, _ => none

/-- Whether a patch can be saved whole: each of its groups may be evicted, or is off its EP already. -/
def State.wholeOk (s : State) (prio own : Nat) (p : Patch) : Bool :=
  s.groups.all fun g => s.patchOf g != some p.id || s.evictable prio own { g with evicted := false }

/-- The patches to save, one after another, until what a predicate asks for is free; none where all together do not free it. -/
def takeWhole (free : List Patch → Bool) : List Patch → List Patch → Option (List Patch)
  | acc, [] => if free acc then some acc else none
  | acc, p :: r => if free acc then some acc else takeWhole free (acc ++ [p]) r

/-- The patches that stand on some positions and can be saved whole, in the order in which their groups are evicted. -/
def State.wholeVictims (s : State) (prio own : Nat) (es : List Nat) : List Patch :=
  let gs := (s.groups.filter fun g => es.contains g.ep && s.evictable prio own { g with evicted := false }).foldl (fun l g => insertVictim s g l) []
  let ids := (gs.filterMap s.patchOf).eraseDups
  (ids.filterMap fun k => findKey (fun (p : Patch) => p.id) k s.patches).filter (s.wholeOk prio own)

/-- The machine without some patches. -/
def State.without (s : State) (ps : List Patch) : State :=
  { s with
    blocks := s.blocks.filter fun b => !(ps.any fun p => p.id == b.patch)
    groups := s.groups.filter fun g => !(ps.any fun p => s.patchOf g == some p.id) }

/-- What a rectangle would cost: groups to evict, or whole patches where the stores have no room. -/
def State.costOf (s : State) (prio : Nat) (l : Launch) (n : Need) (e : Nat) : Option (List Group ⊕ List Patch) :=
  let es := rectEps (epX e) (epY e) n.w n.h
  if !(es.all fun e => (s.part l.part).inSub (epX e) (epY e) && !(s.isHole e)) then none
  else
    let storeOk := fun (t : State) => if l.created = 0 || l.rangeLen = 0 then (t.baseFor l es).isSome
      else es.all fun e => fits (t.ranges e) l.rangeBase l.rangeLen
    if storeOk s then (s.rectVictims prio l.id n es).map .inl
    else
      let free := fun ps => let t := s.without ps; storeOk t && es.all (t.epTakes l.part l n)
      (takeWhole free [] (s.wholeVictims prio l.id es)).map .inr

/-- The first rectangle, rows first, where lower priorities can make room. -/
def State.makeRoomAt (s : State) (prio : Nat) (l : Launch) (n : Need) : Option (List Group ⊕ List Patch) :=
  (s.part l.part).positions.findSome? (s.costOf prio l n)

/-- A group leaves its position; it keeps what a save keeps, in place, and its entries of the fault buffer go with it where it is
saved in full (R377). -/
def State.evictGroup (s : State) (k : Nat) : State :=
  match s.group? k with
  | none => s
  | some g =>
    if !(s.areaOk g.part g.ep g.slot) then s.machineCheck { g with leaving := false } (boundaryInfo g 0x63)
    else
      let (s, g) := s.withdrawWaits g
      let h := g.kept
      let fs := if h.rewound then [] else s.faults.filter (faultOf [k])
      { s with faults := s.faults.filter fun f => !(faultOf [k] f) }.setGroup { h.g with evicted := true, leaving := false, faults := fs }

/-- Patches are saved whole, each with the chains of its blocks; a group whose context area does not exist meets a machine check
instead (R368, R376). -/
def State.parkPatches (s : State) (part : Nat) (ps : List Patch) : State :=
  let ids := (ps.flatMap fun p => s.patchBlocks p.id).map fun b => b.id
  let bad := s.groups.filter fun g => ids.contains g.block && !(s.areaOk g.part g.ep g.slot)
  if bad ≠ [] then bad.foldl (fun (s : State) g => s.machineCheck { g with leaving := false } (boundaryInfo g 0x63)) s
  else
    ps.foldl (fun (s : State) p =>
      let es := (s.patchBlocks p.id).map fun b => b.ep
      let t := match s.launch? p.launch with | some l => l.tenant | none => 0
      let (s, sv) := s.takePatches part t [p] fun x => x.launch == p.launch && es.contains x.ep
      { s with parked := s.parked ++ [sv] }) s

/-- No group of a partition is asked to leave any more. -/
def State.stayAll (s : State) (part : Nat) : State :=
  { s with groups := s.groups.map fun g => if g.part = part then { g with leaving := false } else g
           blocks := s.blocks.map fun b => if b.part = part then { b with saving := false } else b }

/-- Lower priorities make room for a candidate: once the groups concerned have come to rest they leave. Groups that were asked to
leave and are not chosen any more stay. -/
def State.makeRoom (s : State) (c : Cand) : State :=
  let s := s.stayAll c.l.part
  match s.makeRoomAt c.prio c.l (c.l.hdr.need c.stg) with
  | none => s
  | some (.inl gs) =>
    let ids := gs.map fun g => g.id
    if gs.all s.quiet then ids.foldl State.evictGroup s
    else { s with groups := s.groups.map fun g => if ids.contains g.id then { g with leaving := true } else g }
  | some (.inr ps) =>
    let bs := ps.flatMap fun p => s.patchBlocks p.id
    if s.saveReady bs then s.parkPatches c.l.part ps else s.beginSave bs

/-- The dispatcher considers its candidates: the first one's next patch is placed, or room is made for it (R355, R376). A candidate
whose patch has a place and comes with its launch's tick stops nobody. -/
def execPatchPlacement (part : Nat) (s : State) : Out :=
  let p := s.part part
  if p.stopped || p.pairStopped then .next s
  else
    let s := s.startAll part
    match topCand ((s.launches.filterMap (s.candOf part)).filter fun c => !(c.tick && (s.placeNext c).isSome)) with
    | none => .next (s.stayAll part)
    | some c =>
      match if c.tick then none else s.placeNext c with
      | some s => .next ((s.stayAll part).freeEntries part)
      | none => .next (s.makeRoom c)

/-- Constant bank 15 is written again before groups of a launch resume (R283, R296). -/
def State.describe (s : State) (launch : Nat) : State :=
  match s.launch? launch with
  | some l => s.writeBank15 l
  | none => s

/-- A group has a slot of its position again: its clause's header is entered anew, and what had no translation is met again (R25,
R376, R379). -/
def State.comeBack (s : State) (g : Group) (n : Nat) : State :=
  let s := (s.describe g.launch).setGroup { g.reenter.unpark with evicted := false, slot := n }
  g.faults.foldl (fun (s : State) f => s.refault (.stay g.part g.tenant 0) f) s

/-- A saved patch takes its positions again; a group whose context area does not exist meets a machine check (R368). -/
def State.seatAgain (s : State) (sv : Saved) : State :=
  let ls := (sv.blocks.map fun b => b.launch).eraseDups
  let s := ls.foldl (fun (s : State) l => s.describe l) { s with parked := s.parked.filter fun x => x != sv }
  let s := s.seat (sv.own (s.part sv.part).fus) sv
  (s.groups.filter fun g => sv.groups.any fun x => x.g.id == g.id).foldl
    (fun (s : State) g => if s.areaOk g.part g.ep g.slot then s else s.machineCheck g (boundaryInfo g 0x63)) s

/-- An evicted group returns to its position, or a patch that was saved whole to its positions, when there is room (R376). -/
def execEvictedGroupReturn (g : Nat) (s : State) : Out :=
  match s.group? g with
  | some g =>
    let free := s.freeSlots g.ep
    if g.evicted && decide (g.regs ≤ s.freeRegs g.ep) && !free.isEmpty then
      let n := if free.contains g.slot then g.slot else free.headD 0
      if s.areaOk g.part g.ep n then .next (s.comeBack g n)
      else .next ((s.machineCheck { g with evicted := false, slot := n } (boundaryInfo g 0x63)))
    else .next s
  | none =>
    match s.parked.find? fun x => x.groups.any fun y => y.g.id == g with
    | none => .next s
    | some sv =>
      let ok := sv.blocks.all fun b => s.canSeat sv.part sv.groups b b.ep (s.rangeOf b.launch).1 (s.rangeOf b.launch).2
      .next (if ok then s.seatAgain sv else s)

/-! ### Stages (R356) -/

/-- Whether a launch may create a block now. -/
def State.mayCreate (s : State) (l : Launch) : Bool :=
  let p := s.part l.part
  let susp := match l.origin with | .queue k .. => (p.slot k).susp | _ => false
  !p.stopped && !p.pairStopped && !susp && !l.completed && l.killed == 0 && decide (0 < (p.tenant l.tenant).balance)

/-- D(s) as a fraction, and whether a channel that s sends on is full. -/
def Launch.demand (l : Launch) (k : Nat) : Nat × Nat :=
  let fr := fun (c : Nat) => ((l.chan c).length, l.hdr.chans.getD c 0)
  let big := fun (a b : Nat × Nat) => if a.1 * b.2 < b.1 * a.2 then b else a
  let start := if k = 0 && l.stageOpen 0 then (1, 1) else (0, 1)
  ((l.recvs.filter fun x => x.1 == k).map fun x => fr x.2).foldl big start

def Launch.blocked (l : Launch) (k : Nat) : Bool :=
  (l.sends.filter fun x => x.1 == k).any fun x => decide (l.hdr.chans.getD x.2 0 ≤ (l.chan x.2).length)

/-- Creates patches of a stage until it holds its minimum; the fuel bounds them. -/
def State.toMinimum (s : State) (id k : Nat) : Nat → State
  | 0 => s
  | n + 1 =>
    match s.launch? id with
    | none => s
    | some l =>
      if s.short l k then
        match s.createPatch l k with
        | some s => s.toMinimum id k n
        | none => s
      else s

/-- One more patch of a stage, where its demand, its back-pressure and its maximum allow. -/
def State.oneMore (s : State) (id k : Nat) (d : Nat × Nat) (full : Bool) : State :=
  match s.launch? id with
  | none => s
  | some l =>
    if !full && decide (d.2 ≤ 2 * d.1) && decide (s.resident l k + l.hdr.pw * l.hdr.ph ≤ l.maxOf k) && l.stageOpen k then
      (s.createPatch l k).getD s
    else s

/-- Inserts a stage in decreasing demand; equal demands keep their order. -/
def insertStage (x : Nat × (Nat × Nat) × Bool) : List (Nat × (Nat × Nat) × Bool) → List (Nat × (Nat × Nat) × Bool)
  | [] => [x]
  | y :: r => if y.2.1.1 * x.2.1.2 < x.2.1.1 * y.2.1.2 then x :: y :: r else y :: insertStage x r

/-- The candidates that come before a launch in its partition (R355). -/
def State.candsBefore (s : State) (l : Launch) : List Cand :=
  match s.rankOf l.part l with
  | none => []
  | some r => (s.launches.filterMap (s.candOf l.part)).filter fun c => c.l.id != l.id && ranksBefore (c.prio, c.age) r

/-- A tick of a launch with stages (R356). Candidates that come before it are placed first, and one of them that finds no place
stops it from taking resources (R355). -/
def execStageTick (launch : Nat) (s : State) : Out :=
  match s.launch? launch with
  | none => .next s
  | some l =>
    if l.hdr.nstg = 0 || l.completed || !(s.tickDue 0 launch (s.partClock l.part) 1024) then .next s
    else
      let before := s.candsBefore l
      if before.any fun c => !c.tick && (s.placeNext c).isSome then .next s
      else if !(s.mayCreate l) || before.any fun c => (s.placeNext c).isNone then .next (s.ticked 0 launch)
      else
        let s := s.ticked 0 launch
        let ks := range 0 l.hdr.nstg
        let info := ks.map fun k => (k, l.demand k, l.blocked k)
        let order := info.foldl (fun acc x => insertStage x acc) []
        let s := ks.foldl (fun (s : State) k => s.toMinimum launch k 65536) s
        let s := order.foldl (fun (s : State) x => s.oneMore launch x.1 x.2.1 x.2.2) s
        .next (s.freeEntries l.part)

/-! ### Work-queue balancing (R360) -/

/-- The nearest position that is no hole in a direction within the sub-pan: 0 north, 1 east, 2 south, 3 west. -/
def State.nearest (s : State) (p : Partition) (dir : Nat) : Nat → Nat → Nat → Option Nat
  | 0, _, _ => none
  | n + 1, x, y =>
    let step := match dir with
      | 0 => if y ≤ p.oy then none else some (x, y - 1)
      | 1 => if p.ox + p.wp ≤ x + 1 then none else some (x + 1, y)
      | 2 => if p.oy + p.hp ≤ y + 1 then none else some (x, y + 1)
      | _ => if x ≤ p.ox then none else some (x - 1, y)
    match step with
    | none => none
    | some (u, v) => if s.isHole (epOf u v) then s.nearest p dir n u v else some (epOf u v)

/-- The reported depth of a tenant's part at a position. -/
def State.reportAt (s : State) (p : Partition) (t e : Nat) : Nat :=
  let d := (p.part_ e t).length + (p.over e t).length
  if s.groups.any fun g => g.ep == e && !g.sys && g.tenant == t && !g.evicted then min d 255 else min (d + 128) 255

/-- The numbers of items a position sends in the four directions. -/
def State.owes (s : State) (p : Partition) (rep : Nat → Nat) (e : Nat) : List (Nat × Nat) :=
  (range 0 4).filterMap fun dir =>
    match s.nearest p dir 64 (epX e) (epY e) with
    | none => none
    | some f => if rep f + p.bthr < rep e then some (f, min ((rep e - rep f) / 2) 32) else none

/-- Takes n items from the newest end of a part, in their order. -/
def Partition.takeNewest (p : Partition) (e t n : Nat) : List Item × Partition :=
  let l := p.part_ e t ++ p.over e t
  let keep := l.take (l.length - n)
  (l.drop (l.length - n), p.setItems e t (keep.take 256) (keep.drop 256))

/-- A position's items leave in the order north, east, south, west, while it has any. -/
def State.sendItems (s : State) (part t e : Nat) : List (Nat × Nat) → State
  | [] => s
  | (f, n) :: r =>
    let (xs, p) := (s.part part).takeNewest e t n
    if xs = [] then s
    else
      let x : Transit := { id := s.nextId, part := part, tenant := t, dst := f, items := xs }
      ({ s with nextId := s.nextId + 1, transit := s.transit ++ [x] }.setPart part p).sendItems part t e r

/-- The balancing of one tenant: every transfer comes from the reports at the start. -/
def State.balanceTenant (s : State) (part t : Nat) : State :=
  let p := s.part part
  let es := p.positions.filter fun e => !(s.isHole e)
  let rep := s.reportAt p t
  (es.map fun e => (e, s.owes p rep e)).foldl (fun (s : State) x => s.sendItems part t x.1 x.2) s

/-- Every 1,024 cycles: balancing, and the charge for each resident group (R360, R393). -/
def execBalanceTick (part : Nat) (s : State) : Out :=
  if !(s.tickDue 1 part (s.partClock part) 1024) then .next s
  else
    let s := s.ticked 1 part
    let s := (range 0 16).foldl (fun (s : State) t => s.balanceTenant part t) s
    .next ((range 0 16).foldl (fun (s : State) t =>
      s.charge part t 13 (s.groups.filter fun g => g.part == part && !g.sys && g.tenant == t && !g.evicted).length) s)

/-- Items in transit join the part of the position they were sent to. -/
def execBalanceItemArrival (id : Nat) (s : State) : Out :=
  match findKey (fun (x : Transit) => x.id) id s.transit with
  | none => .next s
  | some x =>
    .next ({ s with transit := dropKey (fun (x : Transit) => x.id) id s.transit }.modPart x.part fun p =>
      x.items.foldl (fun p it => p.pushItem x.dst x.tenant it) p)

/-! ### Energy (R390, R391, R394 to R396, R415) -/

/-- The address of a tenant's record. -/
def Partition.tenantPa (p : Partition) (t : Nat) : Nat := p.tcbase + 128 * t

/-- A tenant's counters are written to its record. -/
def State.writeCounters (s : State) (part t : Nat) : State :=
  let p := s.part part
  let x := p.tenant t
  s.devWrite devWho .dev (p.tenantPa t + 40)
    (bytesLE x.thrt 4 ++ bytesLE x.mchk 4 ++ bytesLE x.reln 4 ++ bytesLE x.fcmt 4 ++ bytesLE (x.eused / 1000000) 8)

/-- A tenant's refill at a window boundary. -/
def State.refill (s : State) (part t : Nat) : State :=
  let p := s.part part
  let x := p.tenant t
  if !x.active then s
  else
    let qta := s.num (p.tenantPa t + 80) 2
    let r : Int := ((p.share * qta / 1024 * 1000000 : Nat) : Int)
    (s.modTenant part t fun x => { x with qta := qta, balance := min (x.balance + r) (p.brst * r) }).writeCounters part t

def execEnergyWindow (part : Nat) (s : State) : Out :=
  if !(s.tickDue 2 part (s.partClock part) 3300000) then .next s
  else .next ((range 0 16).foldl (fun (s : State) t => s.refill part t) (s.ticked 2 part))

/-- The next throttle level of a tenant, and its count of throttled ticks. -/
def Tenant.throttle (x : Tenant) (cap : Nat) : Tenant :=
  if !x.active then x
  else
    let n := if x.balance ≤ 0 then max (x.level - 1) 1 else min (x.level + 2) 16
    { x with level := n, thrt := if min n cap < 16 then sat32 (x.thrt + 1) else x.thrt }

def execThrottleTick (part : Nat) (s : State) : Out :=
  if !(s.tickDue 3 part (s.partClock part) 32768) then .next s
  else
    let cap := if (s.part part).capped then 8 else 16
    .next ((range 0 16).foldl (fun (s : State) t => s.modTenant part t fun x => x.throttle cap) (s.ticked 3 part))

/-! ### Watchdogs (R357, R408, R419) -/

/-- A slot's period has passed while one of its launches runs. -/
def State.wdogDue (s : State) (part k : Nat) : Bool :=
  let q := (s.part part).slot k
  q.mapped && q.wdogUs != 0 && !q.susp && s.slotRuns part k && decide (q.wdogAt + q.wdogUs * 3300 ≤ s.clock)

/-- The slot is suspended, and the manager is told. -/
def State.wdogFire (s : State) (part k : Nat) : State :=
  (s.modSlot part k fun q => { q with susp := true, expired := true }).managerIrq part 3 k

def execWatchdogExpiry (part : Nat) (slot : Nat) (s : State) : Out :=
  if decide (slot < 128) && s.wdogDue part slot then
    let t := s.modSlot part slot fun q => { q with wdogAt := s.clock }
    .next (t.asInput part (.watchdogExpiry part slot) s (s.wdogFire part slot))
  else .next s

end Sys2Proof.Machine
end

