-- ==== Sys2Proof/Machine/Partition.lean ====
section
/-! DEFINITION. A partition's configuration record, its tenants' records, activation, and the reset that kills every tenant context
(R287, R388 to R391, R410). -/

namespace Sys2Proof.Machine

/-! ### The configuration record (R296, R388, R389) -/

/-- The fusion settings that a shape allows. -/
def fusOk (shp fus : Nat) : Bool :=
  match shp with
  | 0 => fus == 0
  | 1 => fus == 0 || fus == 1
  | 2 => fus == 0 || fus == 2
  | _ => decide (fus ≤ 3)

/-- Whether the SW fields of a record are in range, and its reserved fields zero. -/
def cfgOk (shp x : Nat) : Bool :=
  bits x 186 160 == 0 && bits x 31 0 == 0 && bits x 1743 1728 == 0 && bits x 1503 1472 == 0 && bits x 1407 1024 == 0
    && decide (1 ≤ bits x 202 196) && fusOk shp (bits x 195 194) && bits x 1983 1920 % 4096 == 0 && bits x 1823 1760 % 8 == 0
    && bits x 1471 1408 % 4096 == 0 && bits x 703 640 % 4096 == 0 && decide (1 ≤ bits x 189 187) && decide (bits x 189 187 ≤ 4)

/-- The fields that `PCTL.reset` reads; the scroll staging region is reset (R410). -/
def Partition.readCfg (p : Partition) (x : Nat) : Partition :=
  { p with
    tcbase := bits x 1023 960, qtbase := bits x 959 896, pbase := bits x 895 832, mcbase := bits x 831 768
    fqbase := bits x 767 704, shbase := bits x 703 640, wqbase := bits x 639 576, plbase := bits x 575 512
    pln := bits x 431 416, wqn := bits x 415 400, ovdef := bits x 399 384, bthr := bits x 202 196, fus := bits x 195 194
    ag1d := bits x 127 96, ag2d := bits x 95 64
    cabase := bits x 2047 1984, ovbase := bits x 1983 1920, ovn := bits x 1919 1888, fbbase := bits x 1823 1760
    fbn := bits x 1759 1744, p1base := bits x 1727 1664, p1n := bits x 1663 1632, p2ns0 := bits x 1631 1600
    p2ns1 := bits x 1599 1568, p2n0 := bits x 1567 1536, p2n1 := bits x 1535 1504, tmbase := bits x 1471 1408
    configured := true, stgbase := 0 }

/-- The fields of a new record that have a reset value, in front of what the device writes (R388, R389). -/
def State.resetRecord (s : State) (part : Nat) : State :=
  let fields : List (Nat × List Byte) :=
    [(0, bytesLE 0 8), (8, bytesLE 2000000 4), (12, bytesLE 20000 4), (20, bytesLE 0 3), (23, [16#8, 128#8, 0#8]), (48, bytesLE 2048 2),
     (54, bytesLE 0 10), (128, bytesLE 0 48), (184, bytesLE 0 4), (216, bytesLE 0 2), (228, bytesLE 0 8)]
  fields.foldl (fun (s : State) x => s.cfgWrite part x.1 x.2) s

/-- The holes of a partition, in the order of its list. -/
def State.holesOf (s : State) (part : Nat) : List Nat := s.holes.filter fun h => (s.part part).inSub (epX h) (epY h)

/-- Writes the device's fields of the record: the holes, their number, the shape and the lowest quadrant (R388). -/
def State.writeHw (s : State) (part : Nat) : State :=
  let p := s.part part
  let hs := (s.holesOf part).take 16
  let b := fun off => (s.devByte (p.cfgAt + off)).toNat
  let list := ((range 0 hs.length).zip hs).foldl (fun n x => n + (epX x.2 * 32 + epY x.2) * 2 ^ (11 * x.1)) 0
  let w := b 23 % 64 + p.quads.headD 0 * 64 + (b 24 / 4 * 4 + p.shp) * 2 ^ 8 + (b 25 % 8 + hs.length * 8) * 2 ^ 16
  s.cfgWrite part 23 (bytesLE w 3 ++ bytesLE list 22)

/-! ### Tenant records (R287, R347, R390, R391) -/

/-- Whether a tenant record's fields are in range and its reserved fields zero. -/
def tenantOk (x : Nat) : Bool :=
  bits x 863 832 == 0 && bits x 694 688 == 0 && bits x 670 656 == 0 && bits x 631 513 == 0 && bits x 191 0 == 0
    && decide (bits x 703 695 ≤ 256) && decide (bits x 679 671 ≤ 256) && decide (bits x 687 680 + bits x 679 671 ≤ 256)
    && decide (1 ≤ bits x 639 632) && bits x 831 768 % 64 == 0 && bits x 959 896 % 4096 == 0

/-- The SW fields of a tenant's record. -/
def Tenant.readRec (t : Tenant) (x : Nat) : Tenant :=
  { t with
    valid := true, ttbr := bits x 1023 960, hseg := bits x 959 896, hent := bits x 895 864, tbase := bits x 831 768
    ltbase := bits x 767 704, ltn := bits x 703 695, wwb := bits x 687 680, wwn := bits x 679 671, qta := bits x 655 640
    iw := bits x 639 632, sqbase := bits x 319 256, rqbase := bits x 255 192 }

def State.tenantRec (s : State) (part t : Nat) : Nat := s.num ((s.part part).tenantPa t) 128

/-- The counters of a tenant that is created read zero, and so do its shadows of holes (R287, R347). -/
def State.createTenant (s : State) (part t : Nat) : State :=
  let s := s.modTenant part t fun x =>
    { x with notifyRej := 0, wakeRej := 0, wakeDup := 0, frameRej := 0, tokens := [], frames := [], bufBusy := [] }
  { s with mem := s.mem.filter fun c => !((s.holesOf part).any fun e => inRange c.1 (s.shadowPa part t e 0) 393216) }

/-- Reads a tenant's record; one with VAL = 0 is no tenant. -/
def State.readTenant (s : State) (part t : Nat) : State :=
  let x := s.tenantRec part t
  if !(bitOf x 512) then s.modTenant part t fun _ => {}
  else
    let fresh := !((s.tenant part t).valid)
    let s := s.modTenant part t fun k => k.readRec x
    if fresh then s.createTenant part t else s

/-- The sum of QTA over the tenants whose records exist (R391). -/
def State.qtaSum (s : State) (part : Nat) : Nat :=
  ((range 0 16).map fun t => let x := s.tenantRec part t; if bitOf x 512 then bits x 655 640 else 0).sum

/-- A tenant's activation: the record is read, and the counters of the device are zero (R391, R396). -/
def State.activate (s : State) (part t : Nat) : State :=
  let s := s.readTenant part t
  (s.modTenant part t fun x =>
    { x with active := true, eused := 0, fcmt := 0, reln := 0, mchk := 0, thrt := 0, level := 16 }).writeCounters part t

/-- Whether a tenant holds a context: a resident block, or a patch saved to make room. -/
def State.holdsContext (s : State) (part t : Nat) : Bool :=
  (s.blocks.any fun b => b.part == part && b.tenant == t && !(s.groups.any fun g => g.block == b.id && g.sys))
    || s.parked.any fun p => p.part == part && p.tenant == t

/-! ### The reset of a partition (R410) -/

/-- Commits' entries that are already committed drain; the others are dropped. -/
def State.settleStores (s : State) (ids : List Nat) : State :=
  let done := s.sb.filter fun e => ids.contains e.blk && e.committed
  let s := s.drainAll .dev [] done
  { s with sb := s.sb.filter fun e => !(ids.contains e.blk) }

/-- The blocks of a partition's tenants. -/
def State.tenantBlocks (s : State) (part : Nat) : List Block :=
  s.blocks.filter fun b => b.part == part && !(s.launches.any fun l => l.id == b.launch && l.origin == Origin.manager)

/-- Whether a local-store byte belongs to a system group's range. -/
def State.sysBytes (s : State) (e off : Nat) : Bool :=
  s.blocks.any fun b => b.ep == e && inRange off (s.rangeOf b.launch).1 (s.rangeOf b.launch).2

/-- Everything of the tenants' contexts is gone; memory, the launches and the queues are still to be settled. The arrays are reset;
the tolerances and counts of array members that the fusion setting read now leaves unused keep their values (R251, R410). -/
def State.dropContexts (s : State) (part fus : Nat) : State :=
  let p := s.part part
  let bs := s.tenantBlocks part
  let ids := bs.map fun b => b.id
  let s := s.settleStores ids
  let gids := (s.groups.filter fun g => ids.contains g.block).map fun g => g.id
  let mine := fun (c : Cmd) => c.part == part && !c.sysA
  let dead := (s.cmds.filter mine).map fun c => c.id
  let s := (s.moves.filter fun m => m.part == part).foldl (fun (s : State) m => s.giveUp m true) s
  let lead := fun q => p.quads.contains q && leadOf fus q == q
  let unq : Nat × ArrayU → Nat × ArrayU := fun x =>
    if p.quads.contains x.1 then (x.1, { queue := x.2.queue.filter fun q => !(dead.contains q) }) else x
  let s := { s with
    groups := s.groups.filter fun g => !(gids.contains g.id)
    blocks := s.blocks.filter fun b => !(ids.contains b.id)
    patches := s.patches.filter fun q => !(bs.any fun b => b.patch == q.id)
    faults := s.faults.filter fun f => f.part != part || (match f.target with | .cmd c => !(dead.contains c) | _ => !(faultOf gids f))
    cmds := s.cmds.filter fun c => !(mine c)
    moves := s.moves.filter fun m => m.part != part
    arrays := s.arrays.map unq
    chains := s.chains.filter fun c => !(s.launches.any fun l => l.id == c.launch && l.part == part && l.origin != Origin.manager)
    tlb := s.tlb.filter fun x => x.part != part
    transit := s.transit.filter fun x => x.part != part
    parked := s.parked.filter fun x => x.part != part
    sigs := s.sigs.filter fun x => match x.act with | .commit b _ _ => !(ids.contains b) | _ => true
    ckrel := s.ckrel.filter fun x => !(lead x.1)
    ckabs := s.ckabs.filter fun x => !(lead x.1)
    ckfix := s.ckfix.filter fun x => !(lead x.1) }
  let here := fun (e : Nat) => p.inSub (epX e) (epY e)
  let fresh : Nat × EpSt → Nat × EpSt := fun x =>
    if here x.1 then (x.1, { sysIssued := x.2.sysIssued, lastIssueAt := x.2.lastIssueAt }) else x
  { s with
    eps := s.eps.map fresh
    live := s.live.filter fun x => !(here (x.1 / 2 ^ 15)) || s.sysBytes (x.1 / 2 ^ 15) (x.1 % 2 ^ 15 * 16)
    objViews := s.objViews.filter fun x => !(here x.o.ep) || s.sysBytes x.o.ep x.o.off }.modPart part fun p => { p with parts := [] }

/-- Entries of the pending-launch store are discarded, each with its vector (R410). -/
def State.dropPending (s : State) (part : Nat) : List Pending → State
  | [] => s
  | e :: r =>
    let s := match e.launch with
      | none => s.finishDevice part e.tenant e.seq 1
      | some k =>
        match s.launch? k with
        | some l => if l.completed then s.tenantVec part e.tenant 31 else s.completeLaunch { l with killed := 2 } 2
        | none => s
    s.dropPending part r

/-- Every tenant context still resident is killed in one step. -/
def State.killContexts (s : State) (part fus : Nat) : State :=
  let s := s.freeEntries part
  let lost := s.launches.filter fun l =>
    l.part == part && l.origin != Origin.manager && !l.completed
      && ((s.blocks.any fun b => b.launch == l.id) || s.parked.any fun p => p.blocks.any fun b => b.launch == l.id)
  let s := s.dropContexts part fus
  let s := lost.foldl (fun (s : State) l => s.completeLaunch l (if l.killed = 3 then 3 else 2)) s
  let ids := lost.map fun l => l.id
  let es := (s.part part).pending.filter fun e => match e.launch with | some k => !(ids.contains k) | none => true
  ((s.modPart part fun p => { p with pending := [] }).dropPending part es).purge

/-- The periodic events of a partition count from now. -/
def State.ticksFrom (s : State) (part : Nat) : State :=
  let c := s.partClock part
  (((s.tickFrom 1 part c 1024).tickFrom 2 part c 3300000).tickFrom 3 part c 32768).tickFrom 4 part c 3300000

/-- `PCTL.reset` of a stopped partition: the records are checked, every context is killed, the records are read, and the tiering
engine marks its frames and slots free and flushes its namespaces (R367, R410); none where a record is refused. -/
def State.resetPart (s : State) (part : Nat) : Option State :=
  let p := s.part part
  let x := s.num p.cfgAt 256
  let tc := bits x 1023 960
  let recs := (range 0 16).map fun t => s.num (tc + 128 * t) 128
  let qta := (recs.map fun r => if bitOf r 512 then bits r 655 640 else 0).sum
  if !(cfgOk p.shp x) || recs.any (fun r => bitOf r 512 && !(tenantOk r)) || decide (1024 < qta) then none
  else
    let s := s.killContexts part (bits x 195 194)
    let s := ((s.modPart part fun p => p.readCfg x).tmInit part).flush part
    let s := (range 0 16).foldl (fun (s : State) t => s.readTenant part t) s
    some ((s.ticksFrom part).writeHw part)

end Sys2Proof.Machine
end

