-- ==== Sys2Proof/Machine/Supervisor.lean ====
section
/-! DEFINITION. The privileged instructions but for the context images: translation buffers, queues, partitions, error banks,
watchdogs and energy accounts (R252, R256, R348, R351, R353, R393 to R395, R402, R403, R406 to R410). -/

namespace Sys2Proof.Machine

/-- The issue of a privileged instruction: its effect is made at once, for the partition of the issuing group; a refused operand
traps; a result reaches its register through the flag (R252, R407). -/
def supIssue (i : Instr) (c : Ctl) (s : State) (f : Group → Except Nat (State × Option (BitVec 6 × Word64))) : Out :=
  issue i c s fun g p sec =>
    let m := guardOf g p c
    if m = 0 then .next (advance s g p sec)
    else
      match f g with
      | .error code => .next (s.trapAt g p sec code m 0 0)
      | .ok (s, none) => .next (advance s g p sec)
      | .ok (s, some (d, v)) =>
        let k := s.nextId
        let g := (g.begin k (flagOf p c) (.uni d.toNat) 1).answerAll k v
        .next (advance { s with nextId := k + 1 } g p sec)

/-- An operand's value. -/
def Group.opnd (g : Group) (n : BitVec 6) : Nat := (g.uni n.toNat).toNat

/-- object-operand (R252). -/
def badOperand {α : Type} : Except Nat α := .error 0x28

/-- An effect without a result, where its operands are within their limits. -/
def effect (ok : Bool) (s : State) : Except Nat (State × Option (BitVec 6 × Word64)) := if ok then .ok (s, none) else badOperand

/-! ### Translation buffers (R252, R256) -/

def execTlbinvVa (c : Ctl) (n m : BitVec 6) (s : State) : Out :=
  supIssue (.tlbinvVa c n m) c s fun g =>
    let hit := fun (x : TlbEntry) => x.part == g.part && x.tenant == g.opnd m && inRange (g.opnd n) x.va x.size
    effect (decide (g.opnd m < 16)) { s with tlb := s.tlb.filter fun x => !(hit x) }

def execTlbinvTnt (c : Ctl) (n m : BitVec 6) (s : State) : Out :=
  supIssue (.tlbinvTnt c n m) c s fun g =>
    effect (decide (g.opnd m < 16)) { s with tlb := s.tlb.filter fun x => !(x.part == g.part && x.tenant == g.opnd m) }

def execTlbinvPart (c : Ctl) (n m : BitVec 6) (s : State) : Out :=
  supIssue (.tlbinvPart c n m) c s fun g => effect true { s with tlb := s.tlb.filter fun x => !(x.part == g.part) }

/-! ### Queues (R348, R351, R353, R408) -/

/-- Whether a descriptor's fields are in range and its reserved fields zero. -/
def descOk (d q : Nat) : Bool :=
  bits d 11 0 == q && bits d 511 256 == 0 && bits d 95 56 == 0 && bits d 27 24 == 0 && bits d 19 12 == 0
    && decide (bits d 39 38 ≤ 1) && decide (bits d 23 20 ≤ 12) && bits d 191 128 % 4096 == 0 && bits d 255 192 % 32 == 0

/-- The slot of a queue that is mapped now. -/
def slotOf_ (s : State) (d q : Nat) (r : Nat × Nat × Nat × Nat) : Slot :=
  { mapped := true, qid := q, tenant := bits d 31 28, prio := bits d 36 32, npre := bitOf d 37, org := bits d 39 38
    lgn := bits d 23 20, rbase := bits d 191 128, stsa := bits d 255 192, ovsz := bits d 55 40, head := BitVec.ofNat 32 r.1
    tail := BitVec.ofNat 32 (bits d 127 96), cseq := BitVec.ofNat 64 r.2.1, nextSeq := r.2.1 + 1, lsts := r.2.2.1
    ltag := BitVec.ofNat 64 r.2.2.2, wdogAt := s.clock }

/-- Maps the queue of a descriptor into a free slot; a tenant's first mapped queue activates it (R351, R391). -/
def State.mapQueue (s : State) (part desc k : Nat) : Option State :=
  let p := s.part part
  let q := (desc - p.qtbase) / 64
  let d := s.qdesc part q
  let t := bits d 31 28
  if 128 ≤ k || desc < p.qtbase || desc % 64 != 0 || (desc - p.qtbase) % 64 != 0 || decide (4096 ≤ q) || !(descOk d q)
      || (p.slotOfQ q).isSome || (p.slot k).mapped then none
  else
    let first := !((range 0 128).any fun j => (p.slot j).mapped && (p.slot j).tenant == t) && !(s.holdsContext part t)
    let x := s.tenantRec part t
    if first && (!(tenantOk x) || !(bitOf x 512) || decide (1024 < s.qtaSum part)) then none
    else
      let s := if first then s.activate part t else s
      if !((s.tenant part t).valid) then none
      else (s.statusRec part q).map fun r => s.modSlot part k fun _ => slotOf_ s d q r

/-- Whether a slot holds a resident block or a running command. -/
def State.slotBusy (s : State) (part k : Nat) : Bool :=
  s.launches.any fun l =>
    l.part == part && (match l.origin with | .queue j .. => j == k | _ => false)
      && ((s.blocks.any fun b => b.launch == l.id) || (s.cmds.any fun c => c.launch == l.id)
        || s.parked.any fun p => p.blocks.any fun b => b.launch == l.id)

/-- Unmaps a slot: the record and the descriptor are written, and launches that have not completed are dropped; an entry whose
launch has created nothing is read again later (log 23). -/
def State.unmapQueue (s : State) (part k : Nat) : State :=
  let q := (s.part part).slot k
  let back := match q.cur with
    | some l => (match s.launch? l with | some l => if l.created = 0 && !l.completed then 1 else 0 | none => 0)
    | none => 0
  let q := { q with head := q.head - BitVec.ofNat 32 back }
  let gone := fun (l : Launch) => l.part == part && (match l.origin with | .queue j .. => j == k | _ => false)
  let s := { s with launches := s.launches.filter fun l => !(gone l) }
  let s := s.hostWrite part q.tenant q.stsa q.record { who := devWho, sc := .host, fl := [] }
  let s := s.devWrite devWho .dev ((s.part part).descPa q.qid + 12) (bytesLE q.tail.toNat 4)
  s.modSlot part k fun _ => {}

def execQctlMap (c : Ctl) (d n m : BitVec 6) (s : State) : Out :=
  supIssue (.qctlMap c d n m) c s fun g =>
    match s.mapQueue g.part (g.opnd n) (g.opnd m) with
    | none => badOperand
    | some s => .ok (s, none)

/-- An operation on a mapped slot. -/
def onSlot (i : Instr) (c : Ctl) (m : BitVec 6) (s : State) (more : Group → Bool) (f : Group → Nat → State) : Out :=
  supIssue i c s fun g =>
    let k := g.opnd m
    effect (decide (k < 128) && ((s.part g.part).slot k).mapped && more g) (f g k)

def execQctlUnmap (c : Ctl) (d n m : BitVec 6) (s : State) : Out :=
  onSlot (.qctlUnmap c d n m) c m s (fun g => !(s.slotBusy g.part (g.opnd m))) fun g k => s.unmapQueue g.part k

def execQctlPrio (c : Ctl) (d n m : BitVec 6) (s : State) : Out :=
  onSlot (.qctlPrio c d n m) c m s (fun _ => true) fun g k => s.modSlot g.part k fun q => { q with prio := g.opnd n % 32 }

def execQctlSusp (c : Ctl) (d n m : BitVec 6) (s : State) : Out :=
  onSlot (.qctlSusp c d n m) c m s (fun _ => true) fun g k => s.modSlot g.part k fun q => { q with susp := true }

/-- A save of a slot's contexts that has begun is given up. -/
def State.unsave (s : State) (part : Nat) : State := s.stayAll part

def execQctlResm (c : Ctl) (d n m : BitVec 6) (s : State) : Out :=
  onSlot (.qctlResm c d n m) c m s (fun _ => true) fun g k =>
    (s.modSlot g.part k fun q => { q with susp := false, wdogAt := s.clock }).unsave g.part

/-- A slot's state (R351). -/
def Slot.state (q : Slot) : Nat :=
  if !q.mapped then 0
  else q.qid + 2 ^ 12 + (if q.susp then 2 ^ 13 else 0) + (if q.expired then 2 ^ 14 else 0) + (if q.waiting then 2 ^ 15 else 0)

def execQctlState (c : Ctl) (d n m : BitVec 6) (s : State) : Out :=
  supIssue (.qctlState c d n m) c s fun g =>
    let k := g.opnd m
    if 128 ≤ k then badOperand else .ok (s, some (d, BitVec.ofNat 64 ((s.part g.part).slot k).state))

/-! ### Partitions (R252, R407, R410) -/

def execPctlCfg (c : Ctl) (d n m : BitVec 6) (s : State) : Out :=
  supIssue (.pctlCfg c d n m) c s fun g => .ok (s, some (d, BitVec.ofNat 64 (s.part g.part).cfgAt))

def execPctlIw (c : Ctl) (d n m : BitVec 6) (s : State) : Out :=
  supIssue (.pctlIw c d n m) c s fun g =>
    let t := g.opnd n
    let w := g.opnd m
    effect (decide (t < 16) && decide (1 ≤ w) && decide (w ≤ 255)) (s.modTenant g.part t fun x => { x with iw := w })

def execPctlStop (c : Ctl) (d n m : BitVec 6) (s : State) : Out :=
  supIssue (.pctlStop c d n m) c s fun g => .ok (s.modPart g.part fun p => { p with stopped := true }, none)

def execPctlReset (c : Ctl) (d n m : BitVec 6) (s : State) : Out :=
  supIssue (.pctlReset c d n m) c s fun g =>
    if !((s.part g.part).stopped) then .error 0x3B
    else
      match s.resetPart g.part with
      | none => badOperand
      | some s => .ok (s, none)

def execPctlGo (c : Ctl) (d n m : BitVec 6) (s : State) : Out :=
  supIssue (.pctlGo c d n m) c s fun g => .ok ((s.modPart g.part fun p => { p with stopped := false }).unsave g.part, none)

/-! ### Error banks (R402, R403) -/

def State.errBank (s : State) (b : Nat) : ErrBank := mget {} s.errs b
def State.setErrBank (s : State) (b : Nat) (x : ErrBank) : State := { s with errs := mset {} s.errs b x }

/-- A word of a bank as it is read. -/
def ErrBank.word (b : ErrBank) (n : Nat) : Word64 :=
  match n with
  | 0 =>
    BitVec.ofNat 64 ((if b.held.val then 1 else 0) + (if b.held.uc then 2 else 0) + (if b.ovf then 4 else 0) + (if b.lat then 8 else 0)
      + b.held.src % 16 * 2 ^ 4 + (if b.held.tv then 2 ^ 19 else 0) + b.held.tnt % 16 * 2 ^ 20 + b.ucnt % 2 ^ 16 * 2 ^ 32
      + b.ccnt % 2 ^ 16 * 2 ^ 48)
  | 1 => b.held.syn
  | 2 => b.held.clk
  | _ => b.held.loc

/-- The bank after it is cleared: the pending record, if any, becomes its record. -/
def ErrBank.clear (b : ErrBank) : ErrBank := { held := b.pend.getD {} }

/-- The quadrant that a bank belongs to: its own, or that of the stack (R3, R402). -/
def bankQuad (b : Nat) : Nat := if b < 4 then b else (b - 4) / 2

/-- The issue of a read of a bank; a bank of another partition's quadrant is out of reach (R407, log 93). -/
def errIssue (i : Instr) (c : Ctl) (d n m : BitVec 6) (s : State) (f : Nat → ErrBank → ErrBank) : Out :=
  supIssue i c s fun g =>
    let b := g.opnd n
    let w := g.opnd m
    if 12 ≤ b || 4 ≤ w || !((s.part g.part).quads.contains (bankQuad b)) then badOperand
    else .ok (s.setErrBank b (f w (s.errBank b)), some (d, (s.errBank b).word w))

def execErrrdRd (c : Ctl) (d n m : BitVec 6) (s : State) : Out :=
  errIssue (.errrdRd c d n m) c d n m s fun w b => if w = 0 then { b with lat := true } else b

def execErrrdRdclr (c : Ctl) (d n m : BitVec 6) (s : State) : Out :=
  errIssue (.errrdRdclr c d n m) c d n m s fun _ b => b.clear

/-! ### Watchdogs (R252, R357) -/

def execWdogSet (c : Ctl) (n m : BitVec 6) (s : State) : Out :=
  onSlot (.wdogSet c n m) c n s (fun g => let us := g.opnd m; us == 0 || (decide (10 ≤ us) && decide (us ≤ 10000000)))
    fun g k => s.modSlot g.part k fun q => { q with wdogUs := g.opnd m, wdogAt := s.clock }

/-! ### Energy accounts (R393 to R395) -/

def execEnrgBal (c : Ctl) (d n m : BitVec 6) (s : State) : Out :=
  supIssue (.enrgBal c d n m) c s fun g =>
    let t := g.opnd n
    if 16 ≤ t then badOperand else .ok (s, some (d, BitVec.ofInt 64 ((s.tenant g.part t).balance / 1000000)))

def execEnrgCoef (c : Ctl) (d n m : BitVec 6) (s : State) : Out :=
  supIssue (.enrgCoef c d n m) c s fun g =>
    let k := g.opnd n
    let v := g.opnd m
    effect (decide (k ≤ 13) && decide (v < 2 ^ 32)) (s.modPart g.part fun p => { p with coef := mset none p.coef k (some (BitVec.ofNat 32 v)) })

def execEnrgBurst (c : Ctl) (d n m : BitVec 6) (s : State) : Out :=
  supIssue (.enrgBurst c d n m) c s fun g =>
    let b := g.opnd m
    let at_ := (s.part g.part).cfgAt + 23
    let old := (s.devByte at_).toNat
    let byte := old / 64 * 64 + b * 8 + old % 8
    effect (decide (1 ≤ b) && decide (b ≤ 4))
      ((s.modPart g.part fun p => { p with brst := b }).devWrite devWho .dev at_ [BitVec.ofNat 8 byte])

/-- The shares of the partitions but one. -/
def State.otherShares (s : State) (part : Nat) : Nat :=
  ((range 0 4).map fun k => if k = part then 0 else if (s.part k).exists_ then (s.part k).share else 0).sum

def execEnrgShare (c : Ctl) (d n m : BitVec 6) (s : State) : Out :=
  supIssue (.enrgShare c d n m) c s fun g =>
    let w := g.opnd m
    effect (decide (s.otherShares g.part + w ≤ 1800000))
      ((s.modPart g.part fun p => { p with share := w }).cfgWrite g.part 16 (bytesLE w 4))

end Sys2Proof.Machine
end

