-- ==== Sys2Proof/Machine/HostPort.lean ====
section
/-! DEFINITION. The tenants' windows on the host port: notifies, the manager's queue interrupts, the wake address, and every other
offset (R319, R347, R352). -/

namespace Sys2Proof.Machine

/-! ### Windows (R347) -/

/-- The partition and the tenant of a virtual function. -/
def vfPart (vf : Nat) : Nat := vf / 16
def vfTenant (vf : Nat) : Nat := vf % 16

/-- Whether a virtual function is the window of a partition that exists. -/
def State.window (s : State) (vf : Nat) : Bool := decide (vf < 64) && (s.part (vfPart vf)).exists_

/-! ### Advancing a queue's TAIL (R352, R362) -/

/-- Every write that the host has made, as floors. -/
def State.hostFloors (s : State) : Map Nat :=
  s.co.foldl (fun (f : Map Nat) w => if w.who.ext == 1 then floorsTo w.id w.bytes f else f) []

/-- The HEAD that a notify compares with: the slot's, or the one in the status record. -/
def State.headOf (s : State) (part q : Nat) : Option Nat :=
  match (s.part part).slotOfQ q with
  | some k => some ((s.part part).slot k).head.toNat
  | none => (s.statusRec part q).map fun r => r.1

/-- The TAIL of a queue. -/
def State.tailOf (s : State) (part q : Nat) : Nat :=
  match (s.part part).slotOfQ q with
  | some k => ((s.part part).slot k).tail.toNat
  | none => bits (s.qdesc part q) 127 96

/-- Sets bit q of the pending bitmap; a bit that rises is owed an interrupt. -/
def State.setPendingBit (s : State) (part q : Nat) : State :=
  let pa := (s.part part).pbase + q / 8
  let old := s.byte pa
  let s := if old.getLsbD (q % 8) then s else s.modPart part fun p => { p with bitmap := p.bitmap ++ [q] }
  s.devWrite devWho .dev pa [old ||| (1#8 <<< (q % 8))]

/-- The entries that a new TAIL covers were notified in this cycle (R355). -/
def State.noteAges (s : State) (q old tail : Nat) (m : Map Nat) : Map Nat :=
  let n := (tail + 2 ^ 32 - old) % 2 ^ 32
  if n ≤ 2 ^ 16 then (range old n).foldl (fun m i => mset 0 m (ageKey q i) s.clock) m else m

/-- A new TAIL with what its writer has seen: in the slot, or in the descriptor and the bitmap. -/
def State.advanceTail (s : State) (part q tail : Nat) (fl : Map Nat) : State :=
  let old := s.tailOf part q
  let s := s.modPart part fun p =>
    { p with qviews := mset [] p.qviews q (s.joinFloors (mget [] p.qviews q) fl), qages := s.noteAges q old tail p.qages }
  match (s.part part).slotOfQ q with
  | some k => s.modSlot part k fun x => { x with tail := BitVec.ofNat 32 tail }
  | none => (s.devWrite devWho .dev ((s.part part).descPa q + 12) (bytesLE tail 4)).setPendingBit part q

/-! ### Notifies (R352, R419) -/

def State.rejectNotify (s : State) (part tenant : Nat) : State :=
  s.modTenant part tenant fun t => { t with notifyRej := sat32 (t.notifyRej + 1) }

/-- A doorbell write: accepted, or rejected with nothing changed but the counter. -/
def State.notifyNow (s : State) (vf off : Nat) (data : List Byte) : State :=
  let part := vfPart vf
  let tenant := vfTenant vf
  let q := off / 8
  let d := s.qdesc part q
  let tail := valueLE data
  let room := match s.headOf part q with
    | some h => decide ((tail + 2 ^ 32 - h) % 2 ^ 32 ≤ 2 ^ (bits d 23 20 + 4))
    | none => false
  if data.length = 8 && off % 8 == 0 && decide (tail < 2 ^ 32) && bits d 31 28 == tenant && bits d 39 38 == 0 && room then
    s.advanceTail part q tail s.hostFloors
  else s.rejectNotify part tenant

def execNotify (vf : Nat) (off : Nat) (data : List Byte) (s : State) : Out :=
  if !(s.window vf) || decide (0x8000 ≤ off) then .next s
  else .next (s.asInput (vfPart vf) (.notify vf off data) (s.rejectNotify (vfPart vf) (vfTenant vf)) (s.notifyNow vf off data))

/-- The queue-pending interrupt: bits that have risen, at least 10 µs after the last. -/
def execQueuePendingInterrupt (part : Nat) (s : State) : Out :=
  let p := s.part part
  let due := match p.lastPendingIrq with | some t => decide (t + 33000 ≤ s.clock) | none => true
  if p.bitmap != [] && due then
    .next ((s.setPart part { p with bitmap := [], lastPendingIrq := some s.clock }).managerIrq part 1 0)
  else .next s

/-- The slot-starvation interrupt: a bit is set and every slot holds a queue that may not be pre-empted; once in 100 µs. -/
def execSlotStarvationInterrupt (part : Nat) (s : State) : Out :=
  let p := s.part part
  let due := match p.lastStarveIrq with | some t => decide (t + 330000 ≤ s.clock) | none => true
  let full := (range 0 128).all fun k => (p.slot k).mapped && (p.slot k).npre
  if p.configured && full && due && ((s.bytes p.pbase 512).any fun b => b != 0) then
    .next ((s.setPart part { p with lastStarveIrq := some s.clock }).managerIrq part 2 0)
  else .next s

/-! ### The wake address and the rest (R319, R320, R347, R419) -/

def State.rejectWake (s : State) (part tenant : Nat) : State :=
  s.modTenant part tenant fun t => { t with wakeRej := sat32 (t.wakeRej + 1) }

/-- A sluice write; while the owner's queue is full it waits outside. -/
def State.sluiceNow (s : State) (vf off : Nat) (data : List Byte) : State :=
  if off = 0x8000 && data.length = 16 then (s.wakeArrives (vfPart vf) (vfTenant vf) (valueLE data)).getD s
  else s.rejectWake (vfPart vf) (vfTenant vf)

def execSluiceWrite (vf : Nat) (off : Nat) (data : List Byte) (s : State) : Out :=
  if !(s.window vf) || !(inRange off 0x8000 16) then .next s
  else .next (s.asInput (vfPart vf) (.sluiceWrite vf off data) (s.rejectWake (vfPart vf) (vfTenant vf)) (s.sluiceNow vf off data))

/-- What a byte of a tenant's window reads as for the host: a counter, or zero at a reserved offset. What a read of a doorbell or of the wake
address returns the spec does not say (log 121). -/
def State.windowByte (s : State) (vf off : Nat) : Byte :=
  let t := s.tenant (vfPart vf) (vfTenant vf)
  let counter := fun (n : Nat) => BitVec.ofNat 8 (n / 256 ^ (off % 4))
  if off < 0x8010 then Config.freeByte (s.tick + off)
  else if off < 0x8014 then counter t.notifyRej
  else if off < 0x8018 then counter t.wakeRej
  else if off < 0x801C then counter t.wakeDup
  else if off < 0x8020 then counter t.frameRej
  else 0

end Sys2Proof.Machine
end

