-- ==== Sys2Proof/Machine/Package.lean ====
section
/-! DEFINITION. Bring-up, package reset and power (R367, R387, R414, R415, R425). -/

namespace Sys2Proof.Machine

/-! ### Bring-up (R414) -/

/-- The holes of the part's fuse map: at most 16 positions (R2). -/
def fuseMap : List Nat := ((Config.fuseHoles.filter fun h => decide (h < 2048)).eraseDups).take 16

def State.fwBank (s : State) (b : Nat) : FwBank := if b = 0 then s.fw0 else s.fw1

/-- A bank has been found not to verify. -/
def State.spoilBank (s : State) (b : Nat) : State :=
  if b = 0 then { s with fw0 := { s.fw0 with valid := false } } else { s with fw1 := { s.fw1 with valid := false } }

/-- The bank that boots: the active one, or the other where that does not verify. -/
def State.bootBank (s : State) : Option Nat :=
  if (s.fwBank s.fwActive).valid then some s.fwActive
  else if (s.fwBank (1 - s.fwActive)).valid then some (1 - s.fwActive)
  else none

/-- Steps 1 to 4 before the one that fails; 0 says that the outside world fails none, 1 that the active firmware bank does not verify, so
that the other boots, and 5 that neither does. -/
def State.bringUp (s : State) (fail : Nat) : State :=
  let ok := fun (n : Nat) => fail ≤ 1 || 5 ≤ fail || decide (n < fail)
  let s := if fail = 1 || 5 ≤ fail then s.spoilBank s.fwActive else s
  let s := if 5 ≤ fail then s.spoilBank (1 - s.fwActive) else s
  let stop := fun (s : State) (n : Nat) => { s with mailbox := { s.mailbox with stepDone := n, stepFailed := n + 1 } }
  match s.bootBank with
  | none => stop s 0
  | some b =>
      let s := { s with fwActive := b }
      if !(ok 2) then stop s 1
      else
        let s := { s with holes := fuseMap, fusedOff := Config.fuseOff }
        if !(ok 3) then stop s 2
        else
          let s := { s with coef := (range 0 14).foldl (fun m k => mset 0 m k (Config.calibration k)) [], rakeLen := 3600 }
          if !(ok 4) then stop s 3
          else { s with mailbox := { s.mailbox with stepDone := 4, stepFailed := 0 } }

/-- Power good starts bring-up. -/
def execPowerGood (fail : Nat) (s : State) : Out :=
  .next (if s.powered then s else { s with powered := true }.bringUp fail)

/-! ### Reset and power (R367, R415, R425) -/

/-- Package reset: everything is as after reset but memory and what is fused or flashed; a firmware image that was accepted is
active, and the version counter is raised to it. -/
def execPackageReset (s : State) : Out :=
  let act := s.fwPending.getD s.fwActive
  let cnt := match s.fwPending with | some b => max s.fwCounter (s.fwBank b).version | none => s.fwCounter
  .next { State.reset with
    agenda := s.agenda, tick := s.tick, nextId := s.nextId, mem := s.mem, uncorr := s.uncorr, images := s.images, irqs := s.irqs
    fw0 := s.fw0, fw1 := s.fw1, fwActive := act, fwCounter := cnt }

/-- Iluarning's power-down request flushes every namespace in use (R367). -/
def execPowerDownRequest (s : State) : Out :=
  .next ((range 0 4).foldl (fun (s : State) k => if (s.part k).exists_ then s.flush k else s) s)

/-- The backstop comes into force, or is lifted, in one partition. -/
def State.capPart (s : State) (part : Nat) (on : Bool) : State :=
  if !((s.part part).exists_) then s
  else s.asInput part (.powerWindow (if on then 1 else 0)) s (s.modPart part fun p => { p with capped := on })

/-- A 1 ms window of measured package power: five above 1,800 W cap the throttle levels, five below 1,700 W lift the cap. -/
def execPowerWindow (mw : Nat) (s : State) : Out :=
  if !(s.tickDue 5 0 s.clock 3300000) then .next s
  else
    let s := s.ticked 5 0
    let o := if 1800000 < mw then s.overWin + 1 else 0
    let u := if mw < 1700000 then s.underWin + 1 else 0
    let on := if 5 ≤ o then true else if 5 ≤ u then false else s.capped
    let t := { s with overWin := o, underWin := u, capped := on }
    .next (if on == s.capped then t else (range 0 4).foldl (fun (s : State) k => s.capPart k on) t)

end Sys2Proof.Machine
end

