-- ==== Sys2Proof/Machine/Mailbox.lean ====
section
/-! DEFINITION. Iluarning's mailbox and its commands but for pairing (R387, R414, R416, R417, R424, R425). -/

namespace Sys2Proof.Machine

/-! ### A command and its end (R416) -/

/-- Byte i of ARG. -/
def argByte (arg : List Byte) (i : Nat) : Nat := (arg.getD i 0).toNat
def argNum (arg : List Byte) (i n : Nat) : Nat := valueLE ((range i n).map fun k => arg.getD k 0)

/-- The step that STS names as failed, after a command with a result: 5 for the partition map, 6 for the manager's start (R414). -/
def Mailbox.failedAfter (m : Mailbox) (cmd code : Nat) : Nat :=
  if cmd = 1 || cmd = 2 then
    (if code = 0 then (if m.stepFailed = cmd + 4 then 0 else m.stepFailed) else if code = 7 then m.stepFailed else cmd + 4)
  else m.stepFailed

/-- A command is taken with the result that it will have. -/
def State.mailNote (s : State) (cmd part code : Nat) (out arg : List Byte) : State :=
  { s with mailbox := { s.mailbox with
      busy := true, cmd := cmd, part := part, result := some code, cmdRes := out, state := 1, arg := arg.take 240
      stepFailed := s.mailbox.failedAfter cmd code } }

/-- A command that names a partition takes one that exists, any other 0xFF; it is ignored while another runs; else its effect is made, and
its result is kept until it finishes (R416, R417). -/
def mailIssue (cmd : Nat) (part : BitVec 8) (arg : List Byte) (named : Bool) (s : State) (f : Nat → Except Nat (State × List Byte)) : Out :=
  if !s.powered || s.mailbox.busy then .next s
  else
    let k := part.toNat
    let ok := if named then decide (k < 4) && (s.part k).exists_ else k == 255
    let run : Except Nat (State × List Byte) :=
      if cmd ≤ 6 && decide (s.mailbox.stepDone < 4) then .error 7 else if !ok then .error 1 else f k
    match run with
    | .error e => .next (s.mailNote cmd k e [] arg)
    | .ok (s, out) => .next (s.mailNote cmd k 0 out arg)

/-- What a byte of the mailbox reads as for the driver (R416); CMD is written only. -/
def State.mailByte (s : State) (off : Nat) : Byte :=
  let m := s.mailbox
  let sts := m.state + m.err % 256 * 2 ^ 8 + m.stepDone % 256 * 2 ^ 16 + m.stepFailed % 256 * 2 ^ 24
  let word := fun (n : Nat) => BitVec.ofNat 8 (n / 256 ^ (off % 4))
  if off < 4 then Config.freeByte (s.tick + off)
  else if off < 8 then word sts
  else if off < 12 then word m.seq.toNat
  else if inRange off 0x10 240 then m.arg.getD (off - 0x10) 0
  else if 0x1000 ≤ off then m.out.getD (off - 0x1000) 0
  else 0

/-- A write to the mailbox other than that of a command of R417: ARG takes it, a CMD with an unknown command ends with error 0x01, and other
offsets ignore it (R416). -/
def State.mailWrite (s : State) (off : Nat) (data : List Byte) : State :=
  let m := s.mailbox
  if !s.powered then s
  else if off = 0 && data.length = 4 then
    let cmd := argByte data 0
    if m.busy || (1 ≤ cmd && decide (cmd ≤ 9)) then s else s.mailNote cmd (argByte data 1) 1 [] m.arg
  else
    let old := (m.arg ++ List.replicate 240 0).take 240
    let arg := (range 0 240).map fun i => if inRange (0x10 + i) off data.length then data.getD (0x10 + i - off) 0 else old.getD i 0
    if (range off data.length).any fun o => inRange o 0x10 240 then { s with mailbox := { m with arg := arg } } else s

/-- The virtual function number under which the model has a write to the physical function's mailbox (log 121). -/
def physFn : Nat := 64

/-- A write to a tenant's counters or to a reserved offset of its window is dropped (R347); one to the mailbox is Iluarning's. -/
def execRegisterWriteOther (vf : Nat) (off : Nat) (data : List Byte) (s : State) : Out :=
  .next (if vf = physFn then s.mailWrite off data else s)

/-- A command finishes: DATA, STS, SEQ and vector 0, in this order. -/
def execMailboxCommandDone (s : State) : Out :=
  match s.mailbox.result with
  | none => .next s
  | some code =>
    let m := s.mailbox
    let out := if code = 0 && m.cmdRes != [] then m.cmdRes else m.out
    .next ({ s with mailbox := { m with busy := false, result := none, out := out, cmdRes := [], state := if code = 0 then 2 else 3
                                        err := code, seq := m.seq + 1 } }.sendIrq 10 0 0 0)

/-! ### The partition map (R282, R387) -/

/-- The quadrants of a mask. -/
def maskQuads (m : Nat) : List Nat := (range 0 4).filter fun q => bitOf m q

/-- The shape of a mask: none where it is no shape of R282. -/
def maskShape (m : Nat) : Option Nat :=
  match m with
  | 1 => some 0 | 2 => some 0 | 4 => some 0 | 8 => some 0
  | 3 => some 1 | 12 => some 1
  | 5 => some 2 | 10 => some 2
  | 15 => some 3
  | _ => none

/-- Whether masks are absent or shapes, share no quadrant, and leave out the quadrant that is fused off. -/
def State.masksOk (s : State) (ms : List Nat) : Bool :=
  let qs := ms.flatMap maskQuads
  ms.all (fun m => m == 0 || (maskShape m).isSome) && qs.eraseDups.length == qs.length
    && (match s.fusedOff with | some q => !(qs.contains q) | none => true)

/-- Whether a partition's mask changes. -/
def State.remapped (s : State) (k m : Nat) : Bool :=
  let p := s.part k
  (if p.exists_ then p.quads else []) != maskQuads m

/-- Whether the partition holds neither a context nor a mapped queue. -/
def State.partIdle (s : State) (k : Nat) : Bool :=
  let p := s.part k
  !((range 0 16).any (s.holdsContext k)) && !((range 0 128).any fun j => (p.slot j).mapped) && !p.lockstep

/-- The system groups of a partition end. -/
def State.endManager (s : State) (k : Nat) : State :=
  let ls := s.launches.filter fun l => l.part == k && l.origin == Origin.manager
  let ids := ls.map fun l => l.id
  let bs := s.blocks.filter fun b => ids.contains b.launch
  let s := s.dropBlocks bs
  { s with patches := s.patches.filter (fun p => !(ids.contains p.launch)), launches := s.launches.filter fun l => !(ids.contains l.id) }

/-- A partition takes its new quadrants: its state is that of a partition after reset, its record at a place the spec leaves open
(log 25); the backstop holds in it while it is in force (R415). -/
def State.mapPart (s : State) (k m : Nat) : State :=
  let s := s.endManager k
  if m = 0 then s.setPart k {}
  else
    let at_ := Config.freeNat (s.tick + k) % 2 ^ 31 * 256
    let s := s.setPart k { exists_ := true, quads := maskQuads m, shp := (maskShape m).getD 0, cfgAt := at_, capped := s.capped }
    ((s.ticksFrom k).resetRecord k).writeHw k

/-- Quadrants in no partition are powered down: their stores, arrays and engines are as after reset. -/
def State.powerDown (s : State) : State :=
  let off := fun (q : Nat) => (s.partOfQuad q).isNone
  { s with
    lstore := s.lstore.filter fun x => !(off (quadOf (x.1 / 2 ^ 19)))
    live := s.live.filter fun x => !(off (quadOf (x.1 / 2 ^ 15)))
    dirty := s.dirty.filter fun x => !(off (quadOf (x.1 / 96)))
    objViews := s.objViews.filter fun x => !(off (quadOf x.o.ep))
    eps := s.eps.filter fun x => !(off (quadOf x.1))
    arrays := s.arrays.filter fun x => !(off x.1)
    ckrel := s.ckrel.filter fun x => !(off x.1)
    ckabs := s.ckabs.filter fun x => !(off x.1)
    ckfix := s.ckfix.filter fun x => !(off x.1) }

def execPartitionMap (part : BitVec 8) (arg : List Byte) (s : State) : Out :=
  mailIssue 1 part arg false s fun _ =>
    let ms := (range 0 4).map (argByte arg)
    let changed := (range 0 4).filter fun k => s.remapped k (ms.getD k 0)
    if !(s.masksOk ms) then .error 2
    else if !(changed.all s.partIdle) then .error 3
    else
      let s := changed.foldl (fun (s : State) k => s.mapPart k 0) s
      let s := changed.foldl (fun (s : State) k => if ms.getD k 0 = 0 then s else s.mapPart k (ms.getD k 0)) s
      .ok ({ s.powerDown with mailbox := { s.mailbox with stepDone := max s.mailbox.stepDone 5 } }, [])

/-! ### The manager (R283, R387, R414) -/

/-- A manager's launch header that a system slot can take: one group to a block, in 32 lane registers. -/
def LHdr.managerOk (h : LHdr) : Bool :=
  h.ok false && h.groups == 1 && h.pw == 1 && h.ph == 1 && decide (h.nstg = 0) && decide (h.rg8 * 8 ≤ 32)

/-- A system group in slot 31 of a position. -/
def State.startSys (s : State) (l : Launch) (e num : Nat) : State :=
  let k := s.nextId
  let n := l.hdr.need 0
  let p : Patch := { id := k, launch := l.id, x := epX e, y := epY e, w := 1, h := 1, stg := 0, num := num }
  let b : Block :=
    { id := k + 1, launch := l.id, patch := k, ep := e, part := l.part, tenant := 0, stg := 0, restartable := l.hdr.rst, alive := 1 }
  let g := { s with nextId := k + 2 }.newGroup l n b num 0 0 31 s.clock
  let s := { s with nextId := k + 3, patches := s.patches ++ [p], blocks := s.blocks ++ [b], groups := s.groups ++ [{ g with sys := true }] }
  (s.clearRange e l.rangeBase l.rangeLen).modLaunch l.id fun l => { l with created := l.created + 1, pids := l.pids ++ [k] }

/-- Starts a header in the system slots of a partition. -/
def State.startManager (s : State) (k at_ : Nat) (h : LHdr) : Option State :=
  let s := s.endManager k
  let p := s.part k
  let es := p.quads.filterMap s.sysEp
  let v : View := { who := hostWho, sc := .host, fl := s.hostFloors }
  let l : Launch := { id := s.nextId, part := k, tenant := 0, origin := .manager, hdr := h, startViews := [v], coStart := s.co.length
                      rangeLen := h.rangeLen }
  match s.baseFor l es with
  | none => none
  | some base =>
    let l := { l with rangeBase := base }
    let d := s.bytes at_ 640 ++ s.bytes h.code (12 * 1048576)
    let s := { s with nextId := s.nextId + 1, launches := s.launches ++ [l] }.modPart k fun p => { p with mgrImage := d }
    let s := s.writeBank15 l
    some (((range 0 es.length).zip es).foldl (fun (s : State) x => s.startSys l x.2 x.1) s)

def execStartManager (part : BitVec 8) (arg : List Byte) (s : State) : Out :=
  mailIssue 2 part arg true s fun k =>
    let at_ := argNum arg 0 8
    let h := parseHeader (s.bytes at_ 640)
    if !(paExists at_) || at_ % 64 != 0 || !(h.managerOk) then .error 2
    else
      match s.startManager k at_ h with
      | none => .error 3
      | some s => .ok ({ s with mailbox := { s.mailbox with stepDone := max s.mailbox.stepDone 6 } }, [])

/-! ### The other commands (R401, R417, R424, R425) -/

def execRakePassLength (part : BitVec 8) (arg : List Byte) (s : State) : Out :=
  mailIssue 6 part arg false s fun _ =>
    let n := argNum arg 0 4
    if 600 ≤ n && n ≤ 86400 then .ok ({ s with rakeLen := n }, []) else .error 2

/-- The telemetry record: `%clock` at sampling, zero in the reserved fields, the progress of each pseudo-channel's rake in 1/65,536 of a
pass, and measured values elsewhere. -/
def State.telemetry (s : State) : List Byte :=
  (range 0 0x2140).map fun i =>
    if inRange i 0x14 8 then BitVec.ofNat 8 (s.clock / 256 ^ (i - 0x14))
    else if inRange i 0x1C 4 || inRange i 0x130 16 then 0
    else if 0x140 ≤ i then BitVec.ofNat 8 (s.rakePart ((i - 0x140) / 2) / 256 ^ (i % 2))
    else Config.telemetryByte s.tick i

def execTelemetry (part : BitVec 8) (arg : List Byte) (s : State) : Out :=
  mailIssue 7 part arg false s fun _ => .ok (s, s.telemetry)

/-- The physical address of a byte of host memory (R257). -/
def hostPa (a : Nat) : Nat := 2 * 2 ^ 54 + a

def execLoadFirmware (part : BitVec 8) (arg : List Byte) (s : State) : Out :=
  mailIssue 8 part arg false s fun _ =>
    let at_ := argNum arg 0 8
    let n := argNum arg 8 4
    let image := s.bytes (hostPa at_) n
    let v := Config.imageVersion image
    let bank : FwBank := { image := image, version := v, valid := true }
    if 2 ^ 54 < at_ + n then .error 2
    else if !(Config.imageSignatureVerifies image) then .error 4
    else if v < s.fwCounter then .error 5
    else if s.fwActive = 0 then .ok ({ s with fw1 := bank, fwPending := some 1 }, [])
    else .ok ({ s with fw0 := bank, fwPending := some 0 }, [])

/-- A byte string cut or filled to a length. -/
def padTo (n : Nat) (bs : List Byte) : List Byte := (bs ++ List.replicate n 0).take n

/-- The result of Identify. -/
def State.identity (s : State) : List Byte :=
  let fw := s.fwBank s.fwActive
  padTo 16 (Config.sha384 Config.identityKey) ++ bytesLE fw.version 4 ++ bytesLE s.fwCounter 4 ++ bytesLE s.fwActive 1
    ++ bytesLE (s.fusedOff.getD 255) 1 ++ bytesLE s.holes.length 1
    ++ padTo 32 (s.holes.flatMap fun h => bytesLE (epX h) 1 ++ bytesLE (epY h) 1)

def execIdentify (part : BitVec 8) (arg : List Byte) (s : State) : Out :=
  mailIssue 9 part arg false s fun _ => .ok (s, s.identity)

end Sys2Proof.Machine
end

