-- ==== Sys2Proof/Machine/Attest.lean ====
section
/-! DEFINITION. Attestation over SPDM on the physical function (R426). What a response carries is modelled; how SPDM lays it out in
bytes is not in the spec (log 27). -/

namespace Sys2Proof.Machine

/-! ### Measurements (R426) -/

/-- The SW fields of a configuration record: its bytes with the HW fields zero (R388, R389). -/
def State.swFields (s : State) (k : Nat) : List Byte :=
  let x := s.num (s.part k).cfgAt 256
  let zero := fun (hi lo : Nat) (x : Nat) => x - bits x hi lo * 2 ^ lo
  bytesLE (zero 479 448 (zero 439 432 (zero 383 203 (zero 193 190 (zero 63 32 (zero 1887 1824 x)))))) 256

/-- The bytes that a measurement index covers. -/
def State.measured (s : State) (ix : Nat) : List Byte :=
  let ks := (range 0 4).filter fun k => (s.part k).exists_
  match ix with
  | 1 => (s.fwBank s.fwActive).image
  | 2 => (s.holes.flatMap fun h => bytesLE (epX h) 1 ++ bytesLE (epY h) 1) ++ bytesLE (s.fusedOff.getD 255) 1
  | 3 => ((range 0 4).flatMap fun k => bytesLE (((s.part k).quads.map fun q => 2 ^ q).sum) 1) ++ ks.flatMap s.swFields
  | 4 => ks.flatMap fun k => (s.part k).mgrImage
  | _ => ((range 0 4).flatMap fun k => bytesLE (if (s.part k).lockstep then 1 + (s.part k).role else 0) 1) ++ Config.peerFirmware

def State.measurements (s : State) : List Byte := (range 1 5).flatMap fun i => Config.sha384 (s.measured i)

/-! ### Requests (R426) -/

/-- A request is answered: the exchange joins the transcript. -/
def State.answer (s : State) (req out : List Byte) (f : Spdm → Spdm) : State :=
  { s with spdm := f { s.spdm with transcript := s.spdm.transcript ++ req ++ out, out := out } }

/-- A request that comes before the negotiation it needs is answered by nothing, and so is one for a slot that holds no chain. -/
def State.needs (s : State) (ok : Bool) (t : State) : Out := .next (if s.powered && ok then t else { s with spdm := { s.spdm with out := [] } })

/-- The version answered: SPDM 1.3. A new connection begins. -/
def execGetVersion (req : List Byte) (s : State) : Out :=
  s.needs true ({ s with spdm := {} }.answer req [0x13] fun x => { x with version := true })

def execGetCapabilities (req : List Byte) (s : State) : Out :=
  s.needs s.spdm.version (s.answer req [] fun x => { x with caps := true })

def execNegotiateAlgorithms (req : List Byte) (s : State) : Out :=
  s.needs s.spdm.caps (s.answer req [] fun x => { x with algs := true })

/-- The digest of the certificate chain of slot 0, the only slot. -/
def execGetDigests (req : List Byte) (s : State) : Out :=
  s.needs s.spdm.algs (s.answer req (Config.sha384 Config.certificateChain) id)

/-- The certificate chain of slot 0; no other slot is populated, and one that is named gets no chain. -/
def execGetCertificate (req : List Byte) (s : State) : Out :=
  s.needs (s.spdm.algs && Config.slotNamed req == 0) (s.answer req Config.certificateChain id)

/-- A signature by the device-identity key over the exchange so far and the request, for slot 0. -/
def execChallenge (req : List Byte) (s : State) : Out :=
  s.needs (s.spdm.algs && Config.slotNamed req == 0) (s.answer req (Config.sign (s.spdm.transcript ++ req)) id)

/-- The five measurements, and a signature over them with the exchange so far. -/
def execGetMeasurements (req : List Byte) (s : State) : Out :=
  let ms := s.measurements
  s.needs s.spdm.algs (s.answer req (ms ++ Config.sign (s.spdm.transcript ++ req ++ ms)) id)

end Sys2Proof.Machine
end

