-- ==== Sys2Proof/Machine/Image.lean ====
section
/-! DEFINITION. The bytes of a context image: header, directory, sections, their coding, and the checks of a restore (R123 to R125,
R384, R386). -/

namespace Sys2Proof.Machine

/-! ### Coded data (R125) -/

/-- A token: its kind, its run length, and the words of a literal run. -/
structure CodeTok where
  kind : Nat
  n : Nat
  ws : List Nat
  deriving DecidableEq, Repr

def CodeTok.bytes (t : CodeTok) : List Byte := BitVec.ofNat 8 (t.kind * 64 + (t.n - 1)) :: t.ws.flatMap fun w => bytesLE w 8

/-- A word joins the last token where that has its kind and room. -/
def joinTok (kind w : Nat) : List CodeTok → List CodeTok
  | [] => [{ kind := kind, n := 1, ws := if kind = 0 then [w] else [] }]
  | [t] =>
    if t.kind = kind && decide (t.n < 64) then [{ t with n := t.n + 1, ws := if kind = 0 then t.ws ++ [w] else [] }]
    else [t, { kind := kind, n := 1, ws := if kind = 0 then [w] else [] }]
  | t :: r => t :: joinTok kind w r

/-- The tokens of a word list: zeros, repeats of the word before, and literals. -/
def tokens : Option Nat → List Nat → List CodeTok → List CodeTok
  | _, [], acc => acc
  | prev, w :: r, acc => tokens (some w) r (joinTok (if w = 0 then 1 else if prev = some w then 2 else 0) w acc)

/-- The 64-bit words of a byte string; the fuel bounds its length. -/
def words64 : Nat → List Byte → List Nat
  | 0, _ => []
  | n + 1, bs => if bs = [] then [] else valueLE (bs.take 8) :: words64 n (bs.drop 8)

def codeUnit (bs : List Byte) : List Byte := (tokens none (words64 bs.length bs) []).flatMap CodeTok.bytes

/-- Decoded words, or none for a format error: a reserved kind, a repeat first, or a literal run cut short. -/
def decodeUnit : Nat → Option Nat → List Byte → Option (List Nat)
  | 0, _, bs => if bs = [] then some [] else none
  | _ + 1, _, [] => some []
  | f + 1, prev, c :: r =>
    let n := c.toNat % 64 + 1
    match c.toNat / 64, prev with
    | 0, _ =>
      if r.length < 8 * n then none
      else
        let ws := words64 n (r.take (8 * n))
        (decodeUnit f ws.getLast? (r.drop (8 * n))).map fun x => ws ++ x
    | 1, _ => (decodeUnit f (some 0) r).map fun x => List.replicate n 0 ++ x
    | 2, some w => (decodeUnit f (some w) r).map fun x => List.replicate n w ++ x
    | _, _ => none

/-! ### Sections (R124, R384) -/

structure Sect where
  kind : Nat
  where_ : Nat
  unit : Nat
  coded : Bool
  data : List Byte
  deriving DecidableEq, Repr

/-- A section: coded where that is shorter (R125, R384). -/
def sectOf (kind where_ unit : Nat) (bs : List Byte) : Sect :=
  let c := codeUnit bs
  if c.length < bs.length then { kind := kind, where_ := where_, unit := unit, coded := true, data := c }
  else { kind := kind, where_ := where_, unit := unit, coded := false, data := bs }

/-- A section whose layout the spec does not give: 64-bit words and a number of them that are free (log 24). -/
def freeSect (kind where_ unit salt : Nat) : Sect :=
  sectOf kind where_ unit ((range 0 (8 * (Config.freeNat salt % 512 + 1))).map fun i => Config.freeByte (salt * 4096 + i))

/-- WHERE of a position relative to the sub-pan. -/
def Partition.whereOf (p : Partition) (e : Nat) : Nat := (epX e - p.ox) * 64 + (epY e - p.oy) * 2

/-- A 4 KiB unit. -/
def unitSect (where_ unit : Nat) (bs : List Byte) : Sect := sectOf 2 where_ unit bs

/-- The dirty units of saved blocks, in the order of the blocks. -/
def Saved.unitSects (sv : Saved) (p : Partition) (range_ : Nat → Nat × Nat) : List Sect :=
  sv.blocks.flatMap fun b =>
    (sv.dirty.filter fun x => x.1 / 96 == b.ep && inRange (x.1 % 96 * 4096) (range_ b.launch).1 (range_ b.launch).2).map fun x =>
      let at_ := lsKey b.ep (x.1 % 96 * 4096)
      unitSect (p.whereOf b.ep) (x.1 % 96) ((range at_ 4096).map fun k => mget 0 sv.store k)

/-- The sections of saved contexts, in the order of R384. -/
def Saved.sects (sv : Saved) (p : Partition) (range_ : Nat → Nat × Nat) (salt : Nat) : List Sect :=
  let place := fun (a : Nat) => (if quadX a = p.ox then 0 else 1) + (if quadY a = p.oy then 0 else 2)
  let bankRows := (range 0 8).flatMap fun b => (range 0 32).map fun r => (b, r)
  [freeSect 6 0 0 salt]
    ++ ((range 1 sv.groups.length).zip sv.groups).map (fun x => freeSect 1 (p.whereOf x.2.g.ep) 0 (salt + x.1))
    ++ sv.unitSects p range_
    ++ sv.shadow.map (fun x => unitSect (p.whereOf x.1) x.2.1 x.2.2)
    ++ sv.arrays.flatMap (fun a => bankRows.map fun x => freeSect 3 (place a.1 * 16 + x.1) x.2 (salt + 4096 + x.1 * 32 + x.2))
    ++ (sv.blocks.filter fun b => sv.sb.any fun e => e.blk == b.id).map (fun b => freeSect 4 0 0 (salt + 8192 + b.id))
    ++ sv.cmds.map fun c => freeSect 5 0 0 (salt + 16384 + c.id)

def upTo64 (n : Nat) : Nat := (n + 63) / 64 * 64

/-- The directory and the section data, each section at a multiple of 64 bytes of the image. -/
def layout : Nat → List Sect → List (List Byte) × List Byte
  | _, [] => ([], [])
  | ofs, x :: r =>
    let len := x.data.length
    let e := x.kind % 256 + (if x.coded then 256 else 0) + x.unit % 2048 * 512 + x.where_ % 4096 * 2 ^ 20 + len % 2 ^ 32 * 2 ^ 32
      + ofs * 2 ^ 64
    let y := layout (upTo64 (ofs + len)) r
    (bytesLE e 16 :: y.1, x.data ++ List.replicate (upTo64 len - len) 0 ++ y.2)

/-- Everything after the header. -/
def imageBody (xs : List Sect) : List Byte :=
  let dir := 64 + 16 * xs.length
  let y := layout (upTo64 dir) xs
  y.1.flatten ++ List.replicate (upTo64 dir - dir) 0 ++ y.2

/-- The header of R123; CLK is `%clock` as the partition counts it (R419, R422). -/
def State.imageHeader (s : State) (part : Nat) (p : Partition) (tenant : Nat) (full : Bool) (n : Nat) (body : List Byte) : List Byte :=
  bytesLE
    (1 + p.shp % 4 * 2 ^ 14 + (if full then 2 ^ 16 else 0) + p.fus % 4 * 2 ^ 17 + tenant % 16 * 2 ^ 19
      + (if p.lockstep then 2 ^ 23 else 0) + (64 + body.length) * 2 ^ 128 + s.partClock part % 2 ^ 64 * 2 ^ 192 + n * 2 ^ 352
      + (crc32 body).toNat * 2 ^ 384) 64

/-! ### The checks of a restore (R386) -/

/-- The 16-byte entries of a directory. -/
def dirEntries (body : List Byte) : Nat → List Nat
  | 0 => []
  | n + 1 => valueLE (body.take 16) :: dirEntries (body.drop 16) n

/-- A section's data, decoded: none for a format error; the second says that its size is as it should be. -/
def sectSize (body : List Byte) (e : Nat) : Option Bool :=
  let data := (body.drop (bits e 127 64 - 64)).take (bits e 63 32)
  let kind := bits e 7 0
  if bits e 127 64 < 64 || data.length < bits e 63 32 then none
  else if bitOf e 8 then (decodeUnit data.length none data).map fun ws => kind != 2 || ws.length == 512
  else some (kind != 2 || data.length == 4096)

/-- A section's data, decoded where they are coded (R125). -/
def sectData (body : List Byte) (e : Nat) : List Byte :=
  let data := (body.drop (bits e 127 64 - 64)).take (bits e 63 32)
  if bitOf e 8 then (match decodeUnit data.length none data with | some ws => ws.flatMap fun w => bytesLE w 8 | none => []) else data

/-- Whether the reserved bits of an entry are zero. -/
def dirOk (e : Nat) : Bool :=
  match bits e 7 0 with
  | 1 => !(bitOf e 20)
  | 2 => !(bitOf e 20)
  | 3 => bits e 31 26 == 0 && !(bitOf e 23)
  | _ => true

/-- The result code of the image checks; 0 where all pass. -/
def Partition.checkImage (p : Partition) (hdr body : List Byte) : Nat :=
  let h := valueLE hdr
  let es := dirEntries body (min (bits h 383 352) (body.length / 16))
  let sizes := es.map (sectSize body)
  if (crc32 body).toNat != bits h 415 384 || body.length + 64 != bits h 191 128 || sizes.contains (some false) then 1
  else if bits h 15 14 != p.shp || (es.any (fun e => bits e 7 0 == 3) && bits h 18 17 != p.fus) then 2
  else if bits h 13 0 != 1 || bits h 511 416 != 0 || bits h 351 256 != 0 || bits h 127 24 != 0 || sizes.contains none
      || !(es.all dirOk) then 3
  else 0

end Sys2Proof.Machine
end

