-- ==== Sys2Proof/Machine/Context.lean ====
section
/-! DEFINITION. `CTXSV` and `CTXLD`: a slot's contexts become an image, and an image a slot's contexts (R123, R252, R384 to R386,
R409, R411). -/

/-- What the sections of an image that this machine did not write hold, where the spec does not give their layout (R384, log 24);
none: the state of another queue than any that could be meant. -/
opaque Sys2Proof.Config.foreignImage : List Sys2Proof.Byte → Option Sys2Proof.Machine.Image

namespace Sys2Proof.Machine

/-! ### What an image of a slot holds (R384, R409) -/

/-- The tenant's lowest mapped slot, whose image carries what belongs to the tenant. -/
def Partition.lowestSlot (p : Partition) (tenant : Nat) : Option Nat :=
  (range 0 128).find? fun k => (p.slot k).mapped && (p.slot k).tenant == tenant

/-- Whether a launch is saved with a slot. -/
def Launch.ofSlot (l : Launch) (part tenant k : Nat) (lowest : Bool) : Bool :=
  l.part == part && !l.completed &&
    match l.origin with
    | .queue j .. => j == k
    | .device _ => lowest && l.tenant == tenant
    | .manager => false

def Saved.join (a b : Saved) : Saved :=
  { a with
    patches := a.patches ++ b.patches, blocks := a.blocks ++ b.blocks, groups := a.groups ++ b.groups, store := a.store ++ b.store
    live := a.live ++ b.live, dirty := a.dirty ++ b.dirty, objViews := a.objViews ++ b.objViews, sb := a.sb ++ b.sb
    cmds := a.cmds ++ b.cmds, faults := a.faults ++ b.faults, chains := a.chains ++ b.chains }

/-- The 4 KiB units of the holes' shadows that a launch's range covers and that a write has reached since the launch began. -/
def State.shadowUnits (s : State) (l : Launch) : List (Nat × Nat × List Byte) :=
  (s.holesOf l.part).flatMap fun e =>
    (range (l.rangeBase / 4096) (l.rangeLen / 4096 + 1)).filterMap fun u =>
      let at_ := s.shadowPa l.part l.tenant e (4096 * u)
      let hit := fun (w : Write) => w.bytes.any fun b => inRange b.pa at_ 4096
      if inRange (4096 * u) l.rangeBase l.rangeLen && (s.co.drop l.coStart).any hit then some (e, u, s.bytes at_ 4096) else none

/-- The work items of a tenant, by position, oldest first; those on the way with the position they go to. -/
def State.tenantItems (s : State) (part tenant : Nat) : List (Nat × List Item) :=
  let p := s.part part
  (p.positions.map fun e =>
    (e, p.part_ e tenant ++ p.over e tenant
      ++ ((s.transit.filter fun x => x.part == part && x.tenant == tenant && x.dst == e).flatMap fun x => x.items))).filter fun x => x.2 != []

/-- The items of a tenant leave its partition. -/
def State.dropItems (s : State) (part tenant : Nat) : State :=
  let mine := fun (x : Nat × List Item) => x.1 % 16 == tenant
  { s with transit := s.transit.filter fun x => !(x.part == part && x.tenant == tenant) }.modPart part fun p =>
    { p with parts := p.parts.filter fun x => !(mine x), ovItems := p.ovItems.filter fun x => !(mine x) }

/-- The arrays that some launches own, and the machine without their contents (R212). -/
def State.takeArrays (s : State) (ids : List Nat) : List (Nat × ArrayU) × State :=
  let own := fun (a : ArrayU) => match a.owner with | some l => ids.contains l | none => false
  let gone : Nat × ArrayU → Nat × ArrayU := fun x => if own x.2 then (x.1, { queue := x.2.queue }) else x
  (s.arrays.filter fun x => own x.2, { s with arrays := s.arrays.map gone })

/-! ### `CTXSV` (R376 to R381, R384, R409) -/

/-- Takes a slot's contexts off the machine: what the image holds but for its header. -/
def State.takeSlot (s : State) (part k : Nat) : Image × State :=
  let s := s.freeEntries part
  let p := s.part part
  let q := p.slot k
  let lowest := p.lowestSlot q.tenant == some k
  let ls := s.launches.filter fun l => l.ofSlot part q.tenant k lowest
  let ids := ls.map fun l => l.id
  let shadow := ls.flatMap s.shadowUnits
  let old := s.parked.filter fun x => x.blocks.any fun b => ids.contains b.launch
  let s := { s with parked := s.parked.filter fun x => !(x.blocks.any fun b => ids.contains b.launch) }
  let (s, sv) := s.takePatches part q.tenant (s.patches.filter fun x => ids.contains x.launch) fun c => ids.contains c.launch
  let rest := s.cmds.filter fun c => ids.contains c.launch
  let more : Saved := { sv with patches := [], blocks := [], groups := [], store := [], live := [], dirty := [], objViews := [], sb := []
                                cmds := rest.map s.keptCmd, faults := [], chains := [] }
  let sv := old.foldl Saved.join (sv.join more)
  let (as, s) := s.takeArrays ids
  let t := s.tenant part q.tenant
  let im : Image :=
    { header := [], slot := q, launches := ls, pend := if lowest then p.pending.filter (fun e => e.tenant == q.tenant) else []
      items := if lowest then s.tenantItems part q.tenant else [], devSeq := if lowest then t.devSeq else 0
      devDone := if lowest then t.devDone else 0, devFinished := if lowest then t.devFinished else []
      saved := { sv with arrays := as, shadow := shadow } }
  let s := { s with cmds := s.cmds.filter (fun c => !(ids.contains c.launch)), launches := s.launches.filter fun l => !(ids.contains l.id) }
  let s := if lowest then
    (s.dropItems part q.tenant).modPart part fun p => { p with pending := p.pending.filter fun e => e.tenant != q.tenant } else s
  (im, s)

/-- The image of a slot at an address, and its bytes; none where a context area or the image's place does not exist. -/
def State.saveSlot (s : State) (part k at_ : Nat) : Option (State × Nat) :=
  let p := s.part part
  let range_ := s.rangeOf
  let (im, t) := s.takeSlot part k
  let xs := im.saved.sects p range_ (s.tick + s.nextId * 2 ^ 20)
  let body := imageBody xs
  let hdr := s.imageHeader part p im.slot.tenant (im.saved.groups.any fun g => !g.rewound) xs.length body
  let n := 64 + body.length
  let areas := im.saved.groups.all fun g => s.areaOk part g.g.ep g.g.slot
  if !areas || !((range at_ n).all paExists) then none
  else some ({ t with images := t.images ++ [{ im with header := hdr }] }.devWrite devWho .dev at_ (hdr ++ body), n)

/-- The groups of a slot whose context area does not exist meet a machine check (R368). -/
def State.areaChecks (s : State) (gs : List Group) : State :=
  gs.foldl (fun (s : State) g => if s.areaOk g.part g.ep g.slot then s else s.machineCheck g (boundaryInfo g 0x63)) s

/-- The resident blocks of a slot's launches. -/
def State.slotBlocks (s : State) (part k : Nat) : List Block :=
  let p := s.part part
  let t := (p.slot k).tenant
  let ls := s.launches.filter fun l => l.ofSlot part t k (p.lowestSlot t == some k)
  s.blocks.filter fun b => ls.any fun l => l.id == b.launch

/-- The trap of a context instruction: the lowest code that applies (R95, R252). -/
def ctxFault (k at_ : Nat) : Option Nat :=
  if 2 ^ 56 ≤ at_ || !(paExists at_) then some 0x21 else if 128 ≤ k then some 0x28 else if at_ % 4096 ≠ 0 then some 0x30 else none

/-- The result of a context instruction. -/
def ctxResult (c : Ctl) (d : BitVec 6) (g : Group) (p : Path) (sec : Bool) (s : State) (v : Nat) : Out :=
  let k := s.nextId
  let g := (g.begin k (flagOf p c) (.uni d.toNat) 1).answerAll k (BitVec.ofNat 64 v)
  .next (advance { s with nextId := k + 1 } g p sec)

/-- `CTXSV`: it waits until everything that it saves has come to rest, and saves in one step. -/
def execCtxsv (c : Ctl) (d n m : BitVec 6) (s : State) : Out :=
  issue (.ctxsv c d n m) c s fun g p sec =>
    let k := g.opnd n
    let at_ := g.opnd m
    if guardOf g p c = 0 then .next (advance s g p sec)
    else
      match ctxFault k at_ with
      | some code => .next (s.trapAt g p sec code (guardOf g p c) (if code = 0x21 then at_ else 0) 0)
      | none =>
        let pt := s.part g.part
        let q := pt.slot k
        if !q.mapped || !q.susp || q.npre || !pt.stopped then ctxResult c d g p sec s 0
        else
          let bs := s.slotBlocks g.part k
          let ls := bs.map fun b => b.launch
          let runs := s.cmds.any fun x => ls.contains x.launch && s.moving x
          if !(s.saveReady bs) || runs then .next (s.beginSave bs)
          else
            match s.saveSlot g.part k at_ with
            | some (s, bytes) => ctxResult c d g p sec s bytes
            | none =>
              let gs := s.groups.filter fun x => bs.any fun b => b.id == x.block
              ctxResult c d g p sec ((s.areaChecks gs).unsave g.part) 0

/-! ### `CTXLD` (R386, R411) -/

/-- What a restore has found so far: where launches' positions go, the blocks' regions, and the machine with them seated. -/
structure Seating where
  moved : List Moved
  /-- the base of the overflow region of a saved block, by its identity -/
  ov : List (Nat × Nat)
  s : State

/-- The blocks of a saved patch. -/
def Saved.patchBlocks (sv : Saved) (p : Patch) : List Block := sv.blocks.filter fun b => b.patch == p.id

/-- Whether a saved patch can stand with its north-west corner at a position. -/
def State.patchFits (s : State) (part : Nat) (sv : Saved) (range_ : Nat → Nat × Nat) (p : Patch) (e : Nat) : Bool :=
  let es := rectEps (epX e) (epY e) p.w p.h
  es.all (fun e => (s.part part).inSub (epX e) (epY e) && !(s.isHole e)) &&
    (sv.patchBlocks p).all fun b =>
      s.canSeat part sv.groups b (epOf (epX e + (epX b.ep - p.x)) (epY e + (epY b.ep - p.y))) (range_ b.launch).1 (range_ b.launch).2

/-- The position of a saved patch: its own relative to the sub-pan, or a free rectangle. -/
def State.patchAt (s : State) (r : Rename) (sv : Saved) (range_ : Nat → Nat × Nat) (p : Patch) : Option Nat :=
  let own := r.disp (epOf p.x p.y)
  if s.patchFits r.part sv range_ p own then some own
  else (s.part r.part).positions.find? (s.patchFits r.part sv range_ p)

/-- Seats the blocks of a patch one by one, each with an overflow region; none where the pool has no room. -/
def Seating.blocks (r : Rename) : List Block → Seating → Option Seating
  | [], x => some x
  | b :: rest, x =>
    let r := { r with moved := x.moved }
    let base := if b.ovUnits = 0 then some 0 else firstFit (x.s.ovUsed r.part) b.ovUnits (x.s.part r.part).ovn 1
    match base with
    | none => none
    | some a =>
      Seating.blocks r rest
        { x with ov := x.ov ++ [(b.id, a)], s := { x.s with blocks := x.s.blocks ++ [r.block { b with ovBase := a }] } }

/-- Finds the place of a patch and takes it. -/
def Seating.patch (r : Rename) (sv : Saved) (range_ : Nat → Nat × Nat) (p : Patch) (x : Seating) : Option Seating :=
  match x.s.patchAt r sv range_ p with
  | none => none
  | some e =>
    let old := rectEps p.x p.y p.w p.h
    let new := rectEps (epX e) (epY e) p.w p.h
    let here := if e = r.disp (epOf p.x p.y) then [] else (old.zip new).map fun y => ({ launch := p.launch, from_ := y.1, to_ := y.2 } : Moved)
    let x := { x with moved := x.moved ++ here }
    let bs := sv.patchBlocks p
    match Seating.blocks r bs x with
    | none => none
    | some x =>
      let gs := sv.groups.filter fun g => bs.any fun b => b.id == g.g.block
      some { x with s := x.s.seatGroups { r with moved := x.moved } (fun _ => 0) gs }

def Seating.patches (r : Rename) (sv : Saved) (range_ : Nat → Nat × Nat) : List Patch → Seating → Option Seating
  | [], x => some x
  | p :: rest, x =>
    match x.patch r sv range_ p with
    | none => none
    | some x => Seating.patches r sv range_ rest x

/-- A restored launch of a slot. -/
def Rename.launchOf (r : Rename) (k : Nat) (l : Launch) : Launch :=
  let l := r.launch l
  match l.origin with
  | .queue _ q n t i v => { l with origin := .queue k q n t i v }
  | _ => l

/-- The state of a slot after a restore (R384, R411): what notifies and the manager have set since stays. -/
def Slot.restored (q im : Slot) (shift : Nat) : Slot :=
  { q with
    head := im.head, cseq := if q.cseq.toNat < im.cseq.toNat then im.cseq else q.cseq, nextSeq := max q.nextSeq im.nextSeq
    doneSeqs := (q.doneSeqs ++ im.doneSeqs).eraseDups, ltag := im.ltag, lsts := im.lsts, waiting := im.waiting
    expired := q.expired || im.expired, cur := im.cur.map fun l => l + shift }

/-- The tenant's entries, sequence and items return. -/
def State.restoreTenant (s : State) (r : Rename) (im : Image) : State :=
  let ent : Pending → Pending := fun e =>
    { e with id := e.id + r.shift, ep := r.disp e.ep, tenant := r.tenant, views := r.views e.views, from_ := e.from_ + r.shift
             launch := e.launch.map fun l => l + r.shift }
  let s := s.modPart r.part fun p => { p with pending := p.pending ++ im.pend.map ent }
  let s := s.modTenant r.part r.tenant fun t =>
    let done := max t.devDone im.devDone
    { t with devSeq := max t.devSeq im.devSeq, devDone := done
             devFinished := (t.devFinished ++ im.devFinished).eraseDups.filter fun n => decide (done < n) }
  let home := fun (e : Nat) => if s.isHole e then (((s.part r.part).positions.find? fun x => !(s.isHole x)).getD e) else e
  im.items.foldl (fun (s : State) x =>
    let e := home (r.disp x.1)
    x.2.foldl (fun (s : State) it => s.modPart r.part fun p => p.pushItem e r.tenant { it with views := r.views it.views }) s) s

/-- The accumulators of saved arrays return to the arrays at their places (R298, R386). -/
def State.restoreArrays (s : State) (r : Rename) (as : List (Nat × ArrayU)) : State :=
  as.foldl (fun (s : State) x =>
    s.modArray (r.arr x.1) fun u =>
      { u with owner := x.2.owner.map (fun l => l + r.shift), st := x.2.st, floors := r.floors x.2.floors }) s

/-- The data of holes' shadows return to positions that are holes (R386). -/
def State.restoreShadows (s : State) (r : Rename) (us : List (Nat × Nat × List Byte)) : State :=
  us.foldl (fun (s : State) x =>
    let e := r.disp x.1
    if s.isHole e then s.devWrite devWho .dev (s.shadowPa r.part r.tenant e (4096 * x.2.1)) x.2.2 else s) s

/-- The identities of what an image holds that views and floors can name. -/
def Saved.ids (sv : Saved) : List Nat :=
  (sv.groups.map fun g => g.g.id) ++ (sv.blocks.map fun b => b.id) ++ (sv.patches.map fun p => p.id) ++ sv.sb.map fun e => e.id

/-- The writes that the floors and views of restored contexts name. -/
def Image.named (im : Image) : List Nat :=
  let vs := (im.saved.groups.flatMap fun g => g.g.readViews ++ g.g.fenceViews) ++ (im.saved.objViews.map fun x => x.v)
    ++ (im.saved.sb.flatMap fun e => e.views) ++ (im.launches.flatMap fun l => l.startViews ++ (l.seqViews.map fun x => x.2.2)
      ++ l.chans.flatMap fun x => x.2.flatMap fun w => w.views)
    ++ (im.pend.flatMap fun e => e.views) ++ im.items.flatMap fun x => x.2.flatMap fun i => i.views
  ((im.saved.groups.map fun g => g.g.floors) ++ (im.saved.cmds.map fun c => c.floors) ++ (im.saved.arrays.map fun a => a.2.floors)
    ++ vs.map fun v => v.fl).flatMap fun f => f.map fun x => x.2

/-- Contexts that return under other names find what they have read and written by physical address, which names a byte under every alias
(R278, log 118). -/
def State.unalias (s : State) (ids : List Nat) : State :=
  { s with co := s.co.map fun w =>
      if ids.contains w.id then { w with bytes := w.bytes.map fun b => if b.all then b else { b with loc := b.pa } } else w }

/-- Restores an image into a slot; none where it has no room (R411). -/
def State.loadSlot (s : State) (part k : Nat) (im : Image) : Option State :=
  let p := s.part part
  let q := p.slot k
  let sv := im.saved
  let twice := im.launches.any fun l => (s.launch? l.id).isSome
  let shift := if twice then s.nextId else 0
  let r : Rename :=
    { part := part, tenant := q.tenant, dx := (p.ox : Int) - sv.ox, dy := (p.oy : Int) - sv.oy, fus := p.fus, moved := [], shift := shift
      same := decide (part = sv.part) && decide (q.tenant = sv.tenant), co := s.co, ids := sv.ids, sbs := sv.sb.map fun e => e.id
      quads := [] }
  let range_ := fun (l : Nat) => match findKey (fun (x : Launch) => x.id) l im.launches with
    | some x => (x.rangeBase, x.rangeLen)
    | none => (0, 0)
  let s := { s with nextId := if twice then 2 * s.nextId else s.nextId }
  let free := sv.arrays.all fun a => (s.array (r.arr a.1)).owner.isNone
  let t := { s with launches := s.launches ++ im.launches.map (r.launchOf k) }
  if !free then none
  else
    match Seating.patches r sv range_ sv.patches { moved := [], ov := [], s := t } with
    | none => none
    | some x =>
      let r := { r with moved := x.moved, quads := sv.blocks.map fun (b : Block) => (b.id, quadOf (Rename.pos { r with moved := x.moved } b.launch b.ep)) }
      let baseOf := fun (b : Block) => match x.ov.find? fun y => y.1 == b.id with | some y => y.2 | none => 0
      let sv := { sv with blocks := sv.blocks.map fun b => { b with ovBase := baseOf b } }
      let s := { s with launches := s.launches ++ im.launches.map (r.launchOf k) }
      let s := if r.same then s else s.unalias im.named
      let s := (s.restoreArrays r sv.arrays).seat r sv
      let s := (s.restoreShadows r sv.shadow).restoreTenant r im
      let s := s.modSlot part k fun q => q.restored im.slot shift
      let s := im.launches.foldl (fun (s : State) l => (s.writeBank15 (r.launchOf k l)).tickFrom 0 (l.id + shift) (s.partClock part) 1024) s
      let ids := sv.groups.map fun g => g.g.id + shift
      some (s.areaChecks (s.groups.filter fun g => ids.contains g.id))

/-- The 4 KiB units that an image's sections of kind 2 hold, by the position and the unit that their entries name (R124, R384). -/
def unitsOf (ox oy : Nat) (body : List Byte) (n : Nat) : List (Nat × Nat × List Byte) :=
  ((dirEntries body n).filter fun e => bits e 7 0 == 2).map fun e =>
    (epOf (ox + bits e 31 26) (oy + bits e 25 21), bits e 19 9, sectData body e)

/-- Saved contexts with the data of an image's sections of kind 2: of the blocks' stores, and of shadows elsewhere. -/
def Saved.withUnits (sv : Saved) (body : List Byte) (n : Nat) : Saved :=
  let us := unitsOf sv.ox sv.oy body n
  let here := fun (u : Nat × Nat × List Byte) => sv.blocks.any fun b => b.ep == u.1
  { sv with
    store := (us.filter here).foldl (fun m u => ((range (lsKey u.1 (4096 * u.2.1)) u.2.2.length).zip u.2.2).foldl
      (fun m x => mset 0 m x.1 x.2) m) []
    dirty := (us.filter here).foldl (fun m u => mset false m (u.1 * 96 + u.2.1) true) []
    shadow := us.filter fun u => !(here u) }

/-- What an image holds: what this machine saved under the same header, or what an image from elsewhere is found to hold. -/
def State.imageAt (s : State) (hdr body : List Byte) : Option Image :=
  match s.images.find? fun im => im.header == hdr with
  | some im => some im
  | none => (Config.foreignImage (hdr ++ body)).map fun im => { im with saved := im.saved.withUnits body (min (bits (valueLE hdr) 383 352) (body.length / 16)) }

/-- `CTXLD`: the checks of R386 and R411, and the restore in one step. -/
def execCtxld (c : Ctl) (d n m : BitVec 6) (s : State) : Out :=
  issue (.ctxld c d n m) c s fun g p sec =>
    let k := g.opnd m
    let at_ := g.opnd n
    if guardOf g p c = 0 then .next (advance s g p sec)
    else
      match ctxFault k at_ with
      | some code => .next (s.trapAt g p sec code (guardOf g p c) (if code = 0x21 then at_ else 0) 0)
      | none =>
        let pt := s.part g.part
        let q := pt.slot k
        let hdr := s.bytes at_ 64
        let h := valueLE hdr
        let size := bits h 191 128
        let there := decide (64 ≤ size) && paExists (at_ + size - 1) && decide ((at_ + size - 1) / 2 ^ 54 = at_ / 2 ^ 54)
        let body := s.bytes (at_ + 64) (size - 64)
        let code := if there then pt.checkImage hdr body else 1
        if code ≠ 0 then ctxResult c d g p sec s code
        else if !q.mapped || !q.susp || !pt.stopped || (bitOf h 23 && !pt.lockstep) then ctxResult c d g p sec s 4
        else
          match s.imageAt hdr body with
          | none => ctxResult c d g p sec s 4
          | some im =>
            if im.slot.qid ≠ q.qid then ctxResult c d g p sec s 4
            else
              match s.loadSlot g.part k im with
              | none => ctxResult c d g p sec s 4
              | some s => ctxResult c d g p sec s 0

end Sys2Proof.Machine
end

