-- ==== Sys2Proof/Machine/Control.lean ====
section
/-! DEFINITION. Clause entry, branches, calls, loops and reconvergence (R57 to R61, R144 to R154, R217). -/

namespace Sys2Proof.Machine

/-! ### Clause entry -/

/-- The header fields fail the check of R59. -/
def headerFormat (h : Header) : Bool :=
  h.len == 0 || h.rsv != 0 || (h.f0v && decide (11 < h.f0n.toNat)) || (h.f1v && decide (11 < h.f1n.toNat))
    || (h.f1v && !h.f0v) || (h.f0v && h.f1v && h.f0n == h.f1n)

/-- The first of n counted words from `pc` that is a header, or that cannot be fetched, with the address and the reason
(R58, R59). -/
def countedWord (s : State) (g : Group) (pc : Word64) : Nat → Option (Word64 × Option (Nat × TRes))
  | 0 => none
  | n + 1 =>
    match s.codeWord g (s.codeBase g) pc with
    | .ok w => if isHeader w then some (pc, none) else countedWord s g (pc + 1) n
    | .error e => some (pc, some e)

/-- The record of a deferred trap at a header (R217, R371). -/
def deferredAt (p : Path) (t : TrapInfo) : TrapInfo :=
  { t with fpc := p.pc, pc := p.pc, hdr := p.pc, amask := p.mask, fmask := p.mask, deferred := true }

/-- The path is inside the clause, at its first word, or where a return from a trap continues it (R144, R372). -/
def Path.enter (p : Path) (h : Header) : Path :=
  { p with
    pc := match p.resume with | some r => r | none => p.pc + 1
    clause := some { at_ := p.pc, h := h }
    resume := none }

/-- A path enters a header: a deferred trap is raised first, then the checks, then the wait (R144). A header reached as a
counted word is header-in-count (R61). That a clause which runs past the segment's end is found before any of its words is fetched
is the model's choice (log 109). -/
def execClause (h : Header) (s : State) : Out :=
  withCur s fun g p sec =>
    if p.clause.isSome then .next (s.trapAt g p sec 0x12 p.mask 0 0)
    else
      match g.deferred with
      | t :: r => .next (s.takeTrap { g with deferred := r } sec (deferredAt p t))
      | [] =>
        if headerFormat h then .next (s.trapAt g p sec 0x10 p.mask 0 0)
        else if 1048576 ≤ p.pc.toNat + h.len.toNat then .next (s.trapAt g p sec 0x11 p.mask 0 0)
        else
          match countedWord s g (p.pc + 1) h.len.toNat with
          | some (w, none) => .next (s.takeTrap g sec { precise p 0x12 p.mask 0 0 with fpc := w, pc := w })
          | some (w, some (va, .miss t)) => .next (s.parkFetch g sec w va t)
          | some (w, some (va, _)) => .next (s.takeTrap g sec (fetchInfo p w va))
          | none => if g.flagsClear h.wait then .next (s.setGroup (g.setPath sec (some (p.enter h)))) else .next s

/-- A reserved opcode traps with cause reserved-opcode (R61). -/
def execReservedOpcode (opc : BitVec 8) (rest : BitVec 88) (s : State) : Out :=
  issue (.reservedOpcode opc rest) {} s fun _ _ _ => .next s

/-! ### Points and splits (R146) -/

/-- What the check of a named point finds: its header, or nothing; or a fetch that stops the branch. -/
inductive PointRes where
  | header (h : Header)
  | bad
  | stop (s : State)
  deriving DecidableEq, Repr

/-- The word opens with RECONV or JOIN (JOIN alone for BRX). -/
def joinWord (joinOnly : Bool) (w : Word96) : Bool :=
  let o := w.extractLsb' 88 8
  o == 0x35#8 || (!joinOnly && o == 0x34#8)

/-- A word that a branch looks at, with the fetch rules of R58. What R146's check does with a word that cannot be fetched is the
model's choice: the group parks, or traps, at the branch, and VA is the word's address (log 108). -/
def lookAt (s : State) (g : Group) (p : Path) (sec : Bool) (x : Word64) (k : Word96 → PointRes) : PointRes :=
  if 1048576 ≤ x.toNat then .bad
  else
    match s.codeWord g (s.codeBase g) x with
    | .ok w => k w
    | .error (va, .miss t) => .stop (s.parkFetch g sec p.pc va t)
    | .error (va, _) => .stop (s.trapAt g p sec 0x21 p.mask va 0)

def pointCheck (s : State) (g : Group) (p : Path) (sec joinOnly : Bool) (x : Word64) : PointRes :=
  lookAt s g p sec x fun w =>
    if !(isHeader w) then .bad
    else lookAt s g p sec (x + 1) fun w' => if joinWord joinOnly w' then .header (headerOf w) else .bad

/-- A split with its checks: an unsuitable point is operand-class, too many records or entries divergence-depth with the
given mask (R146, R20). The group may first be changed by the instruction. -/
def splitAt (s : State) (g g' : Group) (p : Path) (sec joinOnly : Bool) (fm : Lanes) (parts : List Path)
    (x : Option Word64) : Out :=
  let go := fun (pt : Option (Word64 × Header)) =>
    match g'.split sec p parts pt with
    | some h => Host.Outcome.next (s.setGroup h)
    | none => .next (s.trapAt g p sec 0x0A fm 0 0)
  match x with
  | none => go none
  | some x =>
    if g.pointOf p = some x then go none
    else
      match pointCheck s g p sec joinOnly x with
      | .header h => go (some (x, h))
      | .bad => .next (s.trapAt g p sec 5 p.mask 0 0)
      | .stop s => .next s

/-- A group with a path that has moved. -/
def goTo (s : State) (g : Group) (sec : Bool) (p : Path) : Out := .next (s.setGroup (g.setPath sec (some p)))

/-! ### The meanings -/

/-- The point of a branch's displacement: none for zero. -/
def pointAt (pc : Word64) (disp : Word64) : Option Word64 := if disp = 0 then none else some (pc + disp)

def execBra (c : Ctl) (disp : BitVec 32) (rcv : BitVec 24) (s : State) : Out :=
  issue (.bra c disp rcv) c s fun g p sec =>
    let t := p.pc + disp.signExtend 64
    let tk := guardOf g p c
    if tk = p.mask then goTo s g sec (p.goto t)
    else if tk = 0 then goTo s g sec p.next
    else
      splitAt s g g p sec false tk [{ p.goto t with mask := tk }, { p.next with mask := p.mask &&& ~~~tk }]
        (pointAt p.pc (rcv.signExtend 64))

/-- Inserts a target into an increasing list without repeats. -/
def insertTarget (x : Nat) : List Nat → List Nat
  | [] => [x]
  | y :: r => if x < y then x :: y :: r else if x = y then y :: r else y :: insertTarget x r

/-- The target of a lane of BRX: the register's low 32 bits, or the next word where the guard is false (R152). -/
def brxTarget (g : Group) (p : Path) (tk : Lanes) (a : RSrc) (l : Nat) : Nat :=
  if tk.getLsbD l then (rsrcVal g false a l).toNat else (p.pc + 1).toNat

/-- A part of a BRX: the fall-through keeps its clause unless some taken lane also goes there. -/
def brxPart (g : Group) (p : Path) (tk : Lanes) (a : RSrc) (t : Nat) : Path :=
  let m := maskOf fun l => p.mask.getLsbD l && brxTarget g p tk a l == t
  if m &&& tk = 0 then { p.next with mask := m } else { p.goto (BitVec.ofNat 64 t) with mask := m }

def execBrx (c : Ctl) (a : RSrc) (point : BitVec 32) (s : State) : Out :=
  issue (.brx c a point) c s fun g p sec =>
    let tk := guardOf g p c
    let ts := ((lanesOf p.mask).map (brxTarget g p tk a)).foldl (fun l x => insertTarget x l) []
    match ts with
    | [] => goTo s g sec p.next
    | [t] => goTo s g sec (brxPart g p tk a t)
    | _ => splitAt s g g p sec true p.mask (ts.map (brxPart g p tk a)) (pointAt p.pc (point.signExtend 64))

def execCall (c : Ctl) (n : BitVec 6) (disp : BitVec 32) (s : State) : Out :=
  issue (.call c n disp) c s fun g p sec =>
    let ra := p.pc + 1
    let tk := guardOf g p c
    let g' := g.setUni n.toNat ra
    let t := p.goto (p.pc + disp.signExtend 64)
    if tk = 0 then goTo s g sec p.next
    else if tk = p.mask then goTo s g' sec t
    else splitAt s g g' p sec false tk [{ t with mask := tk }, { p.next with mask := p.mask &&& ~~~tk }] (some ra)

def execRet (c : Ctl) (n : BitVec 6) (s : State) : Out :=
  issue (.ret c n) c s fun g p sec =>
    if guardOf g p c = 0 then goTo s g sec p.next else goTo s g sec (p.goto (g.uni n.toNat))

def execReconv (c : Ctl) (s : State) : Out :=
  issue (.reconv c) c s fun g p sec => .next (s.setGroup (g.arrive sec p))

def execJoin (c : Ctl) (s : State) : Out :=
  issue (.join c) c s fun g p sec => .next (s.setGroup (g.arrive sec p))

/-- LOOP tests the decremented value; s63 reads zero and keeps it, so LOOP s63 always branches (R154). -/
def execLoop (c : Ctl) (n : BitVec 6) (disp : BitVec 32) (s : State) : Out :=
  issue (.loop c n disp) c s fun g p sec =>
    if guardOf g p c = 0 then goTo s g sec p.next
    else
      let v := g.uni n.toNat - 1
      let g' := g.setUni n.toNat v
      goTo s g' sec (if v = 0 then p.next else p.goto (p.pc + disp.signExtend 64))

/-- A path that has issued 4,096 instructions in its slot while the stack is not empty is swapped with the top entry (R21). A
group that waits, or that is on its way to a handler, keeps its paths where they are. -/
def execPathSwap (gid : Nat) (second : Bool) (s : State) : Out :=
  match s.group? gid with
  | none => .next s
  | some g =>
    match g.path? second, g.stack with
    | some p, t :: r =>
      if 4096 ≤ p.issued && g.wait = .none && g.trap.isNone then .next (s.setGroup ({ g with stack := p :: r }.setPath second (some { t with issued := 0 })))
      else .next s
    | _, _ => .next s

end Sys2Proof.Machine
end

