-- ==== Sys2Proof/Machine/CrossLane.lean ====
section
/-! DEFINITION. The cross-lane instructions (R172 to R180). The participating set M is the active lanes whose guard is true. -/

namespace Sys2Proof.Machine

/-- The lane that SHFL reads (R173). -/
def shflLane (mode : ShflMode) (seg : BitVec 3) (l n : Nat) : Nat :=
  let w := 2 ^ seg.toNat
  let i := l % w
  let base := l - i
  match mode with
  | .idx => base + n % w
  | .up => if n ≤ i then l - n else l
  | .down => if i + n < w then l + n else l
  | .xor => base + (i ^^^ (n % w))

def execShfl (c : Ctl) (t : Ty) (mode : ShflMode) (d a : BitVec 8) (b : Src) (seg : BitVec 3) (s : State) : Out :=
  fixed (.shfl c t mode d a b seg) c (tyBytes t) (some b) s fun g m =>
    let w := wideTy t
    g.writeDst t (.lane d) m fun l =>
      g.laneW w a.toNat (shflLane mode seg l (uxW w (srcVal s g w false (tyBytes t) b l)))

/-- The votes of M (R174). -/
def voteBits (g : Group) (m : Lanes) (p : BitVec 3) (neg : Bool) : Lanes :=
  m &&& (if neg then ~~~(g.pred p.toNat) else g.pred p.toNat)

def execVote (c : Ctl) (mode : VoteMode) (u : Bool) (d : BitVec 8) (p : BitVec 3) (neg : Bool) (s : State) : Out :=
  fixed (.vote c mode u d p neg) c 0 none s fun g m =>
    let v := voteBits g m p neg
    let pd : PReg := if u then .uni (d.extractLsb' 0 2) else .lane (d.extractLsb' 0 3)
    match mode with
    | .all => g.writePred pd m fun _ => v == m
    | .any => g.writePred pd m fun _ => v != 0
    | .uni => g.writePred pd m fun _ => v == 0 || v == m
    | .ballot =>
      g.writeDst .n32 (if u then .uni (d.extractLsb' 0 6) else .lane d) m fun _ => v.setWidth 64

/-- combine (R175). -/
def combine (op : RedOp) (t : Ty) (x y : Word64) : Word64 :=
  match op with
  | .add => if t = .f32 then fres .f32 .rne 0 (Ext.add false (fval .f32 x) (fval .f32 y)) else aluAdd t false x y
  | .min => if t = .f32 then fminmax .f32 false x y else aluMin t x y
  | .max => if t = .f32 then fminmax .f32 true x y else aluMax t x y
  | .and => x &&& y
  | .or => x ||| y
  | .xor => x ^^^ y

/-- combine of two nodes, either of which may be empty. -/
def combineOpt (op : RedOp) (t : Ty) : Option Word64 → Option Word64 → Option Word64
  | none, y => y
  | x, none => x
  | some x, some y => some (combine op t x y)

/-- One level of the tree: neighbours combine. -/
def treeLevel (op : RedOp) (t : Ty) : List (Option Word64) → List (Option Word64)
  | x :: y :: r => combineOpt op t x y :: treeLevel op t r
  | l => l

def treeUp (op : RedOp) (t : Ty) : Nat → List (Option Word64) → List (Option Word64)
  | 0, l => l
  | n + 1, l => treeUp op t n (treeLevel op t l)

/-- The reduction of R175 over M. -/
def reduceTree (op : RedOp) (t : Ty) (m : Lanes) (f : Nat → Word64) : Word64 :=
  ((treeUp op t 5 (allLanes.map fun l => if m.getLsbD l then some (f l) else none)).headD none).getD 0

def execRedg (c : Ctl) (op : RedOp) (t : Ty) (d : Dst) (a : BitVec 8) (s : State) : Out :=
  fixed (.redg c op t d a) c 0 none s fun g m =>
    let v := reduceTree op t m fun l => g.laneW (wideTy t) a.toNat l
    g.writeDst t d m fun _ => v

/-- The identities of SCANG (R176). -/
def scanIdentity (op : RedOp) (t : Ty) : Word64 :=
  match op with
  | .add => if t = .f32 then 0x80000000 else 0
  | .min => if t = .f32 then 0x7F800000 else wrapW (wideTy t) (hiT t)
  | .max => if t = .f32 then 0xFF800000 else wrapW (wideTy t) (loT t)
  | .and => maskW (wideTy t) (BitVec.allOnes 64)
  | .or => 0
  | .xor => 0

/-- The prefixes of M in increasing lane order: by lane, the inclusive value and the one before it (R176). -/
def scanList (op : RedOp) (t : Ty) (f : Nat → Word64) : List Nat → Option Word64 → List (Nat × Word64 × Word64)
  | [], _ => []
  | l :: r, acc =>
    let v := match acc with | none => f l | some x => combine op t x (f l)
    (l, v, acc.getD (scanIdentity op t)) :: scanList op t f r (some v)

def execScang (c : Ctl) (op : RedOp) (t : Ty) (exc : Bool) (d a : BitVec 8) (s : State) : Out :=
  fixed (.scang c op t exc d a) c 0 none s fun g m =>
    let l := scanList op t (fun l => g.laneW (wideTy t) a.toNat l) (lanesOf m) none
    g.writeDst t (.lane d) m fun k =>
      match l.find? fun x => x.1 == k with
      | some (_, inc, before) => if exc then before else inc
      | none => 0

/-- eq(L): the lanes of M that hold the same bits (R177). -/
def matchMask (g : Group) (w : Bool) (a : BitVec 8) (m : Lanes) (l : Nat) : Lanes :=
  m &&& maskOf fun j => g.laneW w a.toNat j == g.laneW w a.toNat l

def execMatchLanes (c : Ctl) (all : Bool) (t : Ty) (d a : BitVec 8) (s : State) : Out :=
  fixed (.matchLanes c all t d a) c 0 none s fun g m =>
    g.writeDst .n32 (.lane d) m fun l =>
      let e := matchMask g (wideTy t) a m l
      if all then (if e == m then m.setWidth 64 else 0) else e.setWidth 64

/-- A lookup of three predicates (R178). -/
def psetBit (lut : BitVec 8) (x y z : Bool) : Bool :=
  lut.getLsbD ((if x then 1 else 0) + (if y then 2 else 0) + (if z then 4 else 0))

def execPset (c : Ctl) (d a b e : PReg) (lut : BitVec 8) (s : State) : Out :=
  fixed (.pset c d a b e lut) c 0 none s fun g m =>
    g.writePred d m fun l => psetBit lut (g.predVal a l) (g.predVal b l) (g.predVal e l)

/-- The predicate bits of a lane, or the uniform ones, under a mask (R179). -/
def predBits (g : Group) (uni : Bool) (mask : BitVec 8) (l : Nat) : Word64 :=
  (range 0 8).foldl (fun w n =>
    let b := if uni then n < 4 && g.upred n else (g.pred n).getLsbD l
    if b && mask.getLsbD n then w ||| (1#64 <<< n) else w) 0

def execP2s (c : Ctl) (d : Dst) (mask : BitVec 8) (s : State) : Out :=
  fixed (.p2s c d mask) c 0 none s fun g m => g.writeDst .n32 d m fun l => predBits g (Dst.isUni d) mask l

/-- Writes the predicates that a mask selects from the bits of a register (R180). -/
def scatter (g0 : Group) (u : Bool) (a : RSrc) (m : Lanes) : List Nat → Group → Group
  | [], g => g
  | n :: r, g =>
    let d : PReg := if u then .uni (BitVec.ofNat 2 n) else .lane (BitVec.ofNat 3 n)
    scatter g0 u a m r (g.writePred d m fun l => (rsrcVal g0 false a l).getLsbD n)

def execS2p (c : Ctl) (u : Bool) (a : RSrc) (mask : BitVec 8) (s : State) : Out :=
  fixed (.s2p c u a mask) c 0 none s fun g m => scatter g u a m ((range 0 7).filter fun n => mask.getLsbD n) g

end Sys2Proof.Machine
end

