-- ==== Sys2Proof/Machine/Fabric.lean ====
section
/-! DEFINITION. What arrives from the fabric: Neltik frames, copy messages and acknowledgements, and the rate tokens of launch
tables (R361 to R366). -/

namespace Sys2Proof.Machine

/-- The tenant to which a job identifier is bound: by the lowest valid entry that names it (R363). -/
def State.binding (s : State) (part : Nat) (job : Word32) : Option Nat :=
  let p := s.part part
  (range 0 p.fbn).findSome? fun i =>
    let e := s.num (p.fbbase + 8 * i) 8
    if bitOf e 36 && bits e 31 0 == job.toNat then some (bits e 35 32) else none

/-- A message that binds no tenant is counted in PFREJ (R363, R389). -/
def State.rejectUnbound (s : State) (part : Nat) : State :=
  let n := sat32 ((s.part part).pfrej + 1)
  (s.modPart part fun p => { p with pfrej := n }).cfgWrite part 228 (bytesLE n 4)

/-- The sectors of a payload received for a tenant (R393, R394). -/
def State.chargeFabric (s : State) (part tenant n : Nat) : State := s.charge part tenant 11 ((n + 31) / 32)

/-- A dropped frame or message is counted where its job identifier is bound. -/
def State.rejectFrame (s : State) (part : Nat) (job : Word32) : State :=
  match s.binding part job with
  | none => s.rejectUnbound part
  | some t => s.modTenant part t fun x => { x with frameRej := sat32 (x.frameRej + 1) }

/-! ### Neltik frames (R361, R362) -/

/-- Whether a frame's header, LEN and length are well formed. -/
def frameOk (payload : List Byte) : Bool :=
  let h := valueLE (payload.take 16)
  let len := bits h 31 16
  decide (16 ≤ payload.length) && payload.length == 16 + len && bits h 7 0 == 1 && bits h 63 48 == 0 &&
    match bits h 15 8 with
    | 1 => decide (len ≤ 256) && len % 8 == 0
    | 2 => len == 16 && bits h 127 64 == 0 && bits h 47 32 == 0
    | _ => false

/-- A launch-table entry as it stands in memory (R362). -/
def State.tableEntry (s : State) (part tenant ix : Nat) : Nat := s.num ((s.tenant part tenant).ltbase + 64 * ix) 64

/-- The rate tokens of an entry: its bucket starts full at its first frame; a used bucket is kept as its tokens plus one. -/
def Tenant.tokensOf (t : Tenant) (e ix : Nat) : Nat :=
  match mget 0 t.tokens ix with
  | 0 => bits e 415 400
  | n + 1 => n

/-- An accepted launch frame: its arguments, its queue entry, and its TAIL. -/
def State.launchFrame (s : State) (part tenant ix e : Nat) (body : List Byte) : State :=
  let t := s.tenant part tenant
  let c := mget 0 t.frames ix
  let i := c % (bits e 447 440 + 1)
  let buf := bits e 511 448 + 256 * i
  let q := bits e 439 428
  let d := s.qdesc part q
  let tail := s.tailOf part q
  let ent := bits e 319 256 + buf * 2 ^ 128 + (ix * 2 ^ 48 + c % 2 ^ 48) * 2 ^ 192
  let k := s.nextId
  let s := s.tenantWrite part tenant buf .dev (body ++ List.replicate (256 - body.length) 0)
  let s := s.tenantWrite part tenant (bits d 191 128 + 32 * (tail % 2 ^ (bits d 23 20 + 4))) .dev (bytesLE ent 32)
  let fl := s.co.foldl (fun (f : Map Nat) w => if k ≤ w.id && w.who == devWho then floorsTo w.id w.bytes f else f) s.hostFloors
  let s := s.modTenant part tenant fun t =>
    { t with tokens := mset 0 t.tokens ix (t.tokensOf e ix), frames := mset 0 t.frames ix (c + 1), bufBusy := t.bufBusy ++ [(ix, i, c % 2 ^ 48)] }
  s.advanceTail part q ((tail + 1) % 2 ^ 32) fl

/-- Whether the checks of R361 from the table's size on pass. -/
def State.mayLaunch (s : State) (part tenant ix : Nat) (key : Nat) : Bool :=
  let t := s.tenant part tenant
  let e := s.tableEntry part tenant ix
  let q := bits e 439 428
  let d := s.qdesc part q
  let i := mget 0 t.frames ix % (bits e 447 440 + 1)
  let buf := bits e 511 448 + 256 * i
  let tail := s.tailOf part q
  let can := fun va n => match trRange (s.trTenant part tenant .write) va n with | .ok _ => true | .error _ => false
  decide (ix < t.ltn) && bitOf e 0 && bits e 383 320 == key && decide (0 < t.tokensOf e ix)
    && !(t.bufBusy.any fun b => b.1 == ix && b.2.1 == i)
    && bits d 39 38 == 1 && bits d 31 28 == tenant
    && (match s.headOf part q with | some h => decide ((tail + 2 ^ 32 - h) % 2 ^ 32 < 2 ^ (bits d 23 20 + 4)) | none => false)
    && can buf 256 && can (bits d 191 128 + 32 * (tail % 2 ^ (bits d 23 20 + 4))) 32

/-- An arriving frame: checked in the order of R361. -/
def State.frameNow (s : State) (part : Nat) (job : Word32) (payload : List Byte) : State :=
  let h := valueLE (payload.take 16)
  let body := payload.drop 16
  if !(frameOk payload) then s.rejectFrame part job
  else
    match s.binding part job with
    | none => s.rejectUnbound part
    | some t =>
      if bits h 15 8 = 2 then
        (match s.wakeArrives part t (valueLE body) with | some u => u.chargeFabric part t body.length | none => s)
      else
        let s := s.chargeFabric part t body.length
        let ix := bits h 47 32
        if s.mayLaunch part t ix (bits h 127 64) then s.launchFrame part t ix (s.tableEntry part t ix) body
        else s.rejectFrame part job

def execNeltikFrame (part : Nat) (job : Word32) (payload : List Byte) (s : State) : Out :=
  if !((s.part part).exists_) then .next s
  else .next (s.asInput part (.neltikFrame part job payload) (s.rejectFrame part job) (s.frameNow part job payload))

/-- At each 1 ms window every entry's bucket gains RATE tokens, up to BURST; one that no frame has reached is full. -/
def State.refillTokens (s : State) (part tenant : Nat) : State :=
  let t := s.tenant part tenant
  t.tokens.foldl (fun (s : State) x =>
    let e := s.tableEntry part tenant x.1
    s.modTenant part tenant fun t =>
      { t with tokens := mset 0 t.tokens x.1 (min (t.tokensOf e x.1 + bits e 399 384) (bits e 415 400) + 1) }) s

def execRateTokenRefill (part : Nat) (s : State) : Out :=
  if !(s.tickDue 4 part (s.partClock part) 3300000) then .next s
  else .next ((range 0 16).foldl (fun (s : State) t => s.refillTokens part t) (s.ticked 4 part))

/-! ### Copy messages (R364 to R366) -/

/-- The fabric's peers as agents. -/
def fabricWho : Who := { gid := 0, ext := 3 }

/-- A message lands in the next buffer of a receive queue, and its record is written; one that finds no buffer or no record is
not accepted. -/
def State.landMessage (s : State) (part tenant r : Nat) (data : List Byte) : State :=
  let pa := (s.tenant part tenant).rqbase + 64 * r
  let d := s.num pa 64
  let buse := bits d 255 224
  let cwr := bits d 191 160
  let nbuf := bits d 415 400
  let crn := bits d 319 304
  let drop := (s.modTenant part tenant fun x => { x with frameRej := sat32 (x.frameRej + 1) }).chargeFabric part tenant data.length
  if !(bitOf d 384) || bits d 447 416 < data.length then drop
  else if nbuf ≤ (buse + 2 ^ 32 - bits d 287 256) % 2 ^ 32 || crn ≤ (cwr + 2 ^ 32 - bits d 223 192) % 2 ^ 32 then s
  else
    let buf := bits d 511 448 + buse % nbuf * bits d 447 416
    let seq := (cwr + 1) % 2 ^ 32
    let recVa := bits d 383 320 + 32 * (cwr % crn)
    let tr := s.trTenant part tenant .write
    match trRange tr buf data.length, trRange tr recVa 32 with
    | .ok _, .ok rp =>
      let s := s.chargeFabric part tenant data.length
      let k := s.nextId
      let s := s.tenantWrite part tenant buf .fab data
      let s := s.devWrite devWho .fab (pa + 28) (bytesLE ((buse + 1) % 2 ^ 32) 4)
      let fl := s.co.foldl (fun (f : Map Nat) w => if k ≤ w.id then floorsTo w.id w.bytes f else f) ([] : Map Nat)
      let v : View := { who := fabricWho, sc := .fab, fl := fl }
      let rb := bytesLE (seq * 2 ^ 64 + data.length % 2 ^ 32 * 2 ^ 96 + buf * 2 ^ 128) 32
      let s := { s with nextId := s.nextId + 1 }.drainWrite s.nextId devWho .fab (virtBytes part tenant recVa rp rb) [v]
      s.devWrite devWho .fab (pa + 20) (bytesLE seq 4)
    | _, _ => drop

/-- Whether the header of a copy message is well formed. -/
def messageOk (payload : List Byte) : Bool :=
  let h := valueLE (payload.take 16)
  decide (16 ≤ payload.length) && payload.length == 16 + bits h 63 32 && bits h 7 0 == 1 && bits h 127 64 == 0 && bits h 31 20 == 0

def State.messageNow (s : State) (part : Nat) (job : Word32) (payload : List Byte) : State :=
  match s.binding part job with
  | none => s.rejectUnbound part
  | some t =>
    if messageOk payload then s.landMessage part t (bits (valueLE (payload.take 16)) 19 8) (payload.drop 16) else s.rejectFrame part job

def execCopyMessageArrival (part : Nat) (job : Word32) (payload : List Byte) (s : State) : Out :=
  if !((s.part part).exists_) then .next s
  else .next (s.asInput part (.copyMessageArrival part job payload) (s.rejectFrame part job) (s.messageNow part job payload))

/-- The first message that satisfies a predicate leaves a list. -/
def dropFirst (p : NetMsg → Bool) : List NetMsg → List NetMsg
  | [] => []
  | m :: r => if p m then r else m :: dropFirst p r

/-- The transport acknowledges a message: the send queue has room for one more (R364). -/
def execTransportAck (part tenant q : Nat) (s : State) : Out :=
  .next { s with net := dropFirst (fun m => m.part == part && m.tenant == tenant && m.q == q) s.net }

end Sys2Proof.Machine
end

