-- ==== Sys2Proof/Machine/Pair.lean ====
section
/-! DEFINITION. Lockstep pairs: pairing and its end, forwarded inputs, signatures, and the loss of the link (R418 to R423). -/

namespace Sys2Proof.Machine

/-! ### Pairing (R418, R419) -/

/-- What `PAIR` learns of the peer: the count at which both go on, and the counts that are left; none where the records differ. Where
the link has brought nothing the answer is open (log 26). -/
def State.peer (s : State) : Option (Nat × List Nat) :=
  match s.peerCounts with
  | n :: r => some (n, r)
  | [] => if Config.freeNat s.tick % 2 = 0 then none else some (Config.freeNat (s.tick + 1), [])

/-- A partition is paired where it holds no context and the peer's records, which the model does not hold, agree (R418, log 26). -/
def execPair (part : BitVec 8) (arg : List Byte) (s : State) : Out :=
  mailIssue 3 part arg true s fun k =>
    let p := s.part k
    let role := argByte arg 16
    if 1 < role || 3 < argByte arg 17 then .error 2
    else if p.lockstep then .error 3
    else if (range 0 16).any (s.holdsContext k) then .error 6
    else
      match s.peer with
      | none => .error 6
      | some (n, r) =>
        let q := { p with lockstep := true, role := role, pairStopped := false, clockOffset := (n : Int) - s.clock, beatAt := s.clock }
        .ok (({ s.setPart k q with peerDigest := arg.take 16, peerCounts := r }).ticksFrom k, [])

/-! ### The effect of a signature point (R420) -/

/-- A point has passed: a commit is performed on both packages (one that a full overflow region forces is counted, R260), a write
reaches memory, and leaves as a message or an interrupt does, from the primary alone; the secondary discards its copy. -/
def State.passPoint (s : State) (x : SigPoint) : State :=
  let p := s.part x.part
  let primary := !p.lockstep || p.role == 0
  match x.act with
  | .commit blk gid full =>
    match s.block? blk with
    | none => s
    | some b =>
      let s := if full then s.modTenant b.part b.tenant fun t => { t with fcmt := sat32 (t.fcmt + 1) } else s
      match s.group? gid with
      | some g => (s.setGroup g.note).commitBlock blk
      | none => s.commitBlock blk
  | .write pa bs =>
    if !primary then s
    else
    let k := s.nextId
    let v : View := { who := devWho, sc := .host, fl := s.hostFloors }
    { s with nextId := k + 1 }.drainWrite k devWho .host (physBytes pa bs) [v]
  | .irq k a b => if primary then s.sendIrq k x.part a b else s
  | .message c => s.messagePassed c
  | .drain e =>
    match s.sb.find? fun y => y.id == e with
    | some y => if primary then s.drainEntry y .blk [] else { s with sb := dropKey (fun e => e.id) y.id s.sb }
    | none => s
  | .thread k w ws =>
    if !primary then s
    else
      let id := s.nextId
      let s := { s with nextId := id + 1 }.drainWrite id w .part ws []
      match s.cmd? k with
      | some c =>
        let c := { c with floors := floorsTo id ws c.floors }
        (s.setCmd c).handOn c
      | none => s
  | .atom gid op _ => s.atomPassed gid op

def State.passAll (s : State) : List SigPoint → State
  | [] => s
  | x :: r => (s.passPoint x).passAll r

/-! ### Stops (R421) -/

/-- Both partitions stop: every group that waits at a point meets a machine check. -/
def State.stopPair (s : State) (part code : Nat) : State :=
  let gs := (s.sigs.filter fun x => x.part == part && x.gid != 0).map fun x => x.gid
  let s := s.modPart part fun p => { p with pairStopped := true }
  let s := { s with sigs := s.sigs.filter fun x => !(x.part == part && x.gid != 0) }
  gs.eraseDups.foldl (fun (s : State) k =>
    match s.group? k with
    | some g => s.machineCheck g (boundaryInfo g code)
    | none => s) s

/-- A beat of the pair link has come; every message of the peer is one. -/
def State.beat (s : State) (part : Nat) : State := s.modPart part fun p => { p with beatAt := s.clock }

/-- The peer's signature of a point has come: the point is performed, or the pair stops. -/
def execSignatureExchange (id : Nat) (peer : Word32) (s : State) : Out :=
  match s.sigs.find? fun x => x.id == id with
  | none => .next s
  | some x =>
    let s := s.beat x.part
    if (s.part x.part).pairStopped then .next s
    else if x.sig == peer then .next ({ s with sigs := dropKey (fun y => y.id) id s.sigs }.passPoint x)
    else
      let t := s.stopPair x.part 0x64
      .next { t with sigs := dropKey (fun y => y.id) id t.sigs }

/-- No beat of the pair link has come for 33,000 cycles. -/
def execPairLinkLost (part : Nat) (s : State) : Out :=
  let p := s.part part
  .next (if p.lockstep && !p.pairStopped && decide (p.beatAt + 33000 ≤ s.clock) then s.stopPair part 0x65 else s)

/-! ### The end of a stop (R421) -/

/-- The pair is ended: the primary goes on alone with what waited to leave, the secondary stays stopped. -/
def execUnpair (part : BitVec 8) (arg : List Byte) (s : State) : Out :=
  mailIssue 4 part arg true s fun k =>
    let p := s.part k
    if !p.lockstep || !p.pairStopped then .error 3
    else
      let xs := s.sigs.filter fun x => x.part == k
      let s := { s with sigs := s.sigs.filter fun x => x.part != k }
      if p.role = 0 then .ok ((s.setPart k { p with lockstep := false, pairStopped := false }).passAll xs, [])
      else
        .ok ({ s.setPart k { p with lockstep := false, pairStopped := false, stopped := true } with
               pairIn := s.pairIn.filter fun x => x.part != k }, [])

/-- Both partitions are reset as by `PCTL.reset`, and stay paired. -/
def execPairReset (part : BitVec 8) (arg : List Byte) (s : State) : Out :=
  mailIssue 5 part arg true s fun k =>
    let p := s.part k
    if !p.lockstep || !p.pairStopped then .error 3
    else
      let s := { s with sigs := s.sigs.filter (fun x => x.part != k), pairIn := s.pairIn.filter fun x => x.part != k }
      match s.resetPart k with
      | none => .error 3
      | some s => .ok (s.modPart k fun p => { p with pairStopped := false }, [])

/-! ### Inputs (R419) -/

/-- The partition that an input reaches; none where it is no input of a pair. -/
def inputPart : Instr → Option Nat
  | .notify vf _ _ => some (vfPart vf)
  | .sluiceWrite vf _ _ => some (vfPart vf)
  | .neltikFrame part _ _ => some part
  | .copyMessageArrival part _ _ => some part
  | .faultResponse part _ => some part
  | .watchdogExpiry part _ => some part
  | .poolLowInterrupt part => some part
  | _ => none

/-- An input takes effect on this package. -/
def State.applyInput (s : State) (part : Nat) : Instr → State
  | .notify vf off data => s.notifyNow vf off data
  | .sluiceWrite vf off data => s.sluiceNow vf off data
  | .neltikFrame part job bs => s.frameNow part job bs
  | .copyMessageArrival part job bs => s.messageNow part job bs
  | .faultResponse part v => s.answerFault part v
  | .watchdogExpiry part slot => s.wdogFire part slot
  | .poolLowInterrupt part => s.managerIrq part 6 0
  | .powerWindow on => s.modPart part fun p => { p with capped := on == 1 }
  | _ => s

/-- An input that was forwarded takes effect: an event, or a group's consumption of an uncorrectable error, which kills its patch or stops
it (R399, R422). -/
def State.applyMove (s : State) (part : Nat) : Move → State
  | .event i => s.applyInput part i
  | .flaw (.chip gid _ _ _ _) =>
    match s.group? gid with
    | some g => if g.part = part then s.consumeNow { g with wait := .none } else s
    | none => s
  | _ => s

/-- A forwarded input is applied at its cycle: one that this package forwarded; or, where the link brings it, one that the model leaves
open (log 26). -/
def execPairInputApply (id : Nat) (s : State) : Out :=
  match s.pairIn.find? fun x => x.id == id with
  | some x =>
    if s.clock < x.due then .next s
    else .next ({ s with pairIn := dropKey (fun x => x.id) id s.pairIn }.applyMove x.part x.ev)
  | none =>
    match Config.linkInput s.tick with
    | .event i =>
      match inputPart i with
      | some part =>
        let p := s.part part
        .next (if p.lockstep && p.role == 1 && !p.pairStopped then (s.beat part).applyInput part i else s)
      | none =>
        let k := id % 4
        let p := s.part k
        .next (if p.lockstep && p.role == 1 then (s.beat k).applyInput k i else s)
    | .flaw f =>
      let p := s.part (id % 4)
      .next (if p.lockstep && !p.pairStopped then (s.beat (id % 4)).applyMove (id % 4) (.flaw f) else s)
    | _ => .next s

end Sys2Proof.Machine
end

