-- ==== Sys2Proof/Machine/Dispatch.lean ====
section
/-! DEFINITION. The dispatch: one arm per constructor, each one direct call of its meaning. -/

namespace Sys2Proof.Machine

def exec (i : Instr) (s : State) : Host.Outcome State Fault Refusal :=
  match i with
  | .clause h => Sys2Proof.Machine.execClause h s
  | .reservedOpcode opc rest => Sys2Proof.Machine.execReservedOpcode opc rest s
  | .iadd c t sat d a b => Sys2Proof.Machine.execIadd c t sat d a b s
  | .iaddc c t d a b pn => Sys2Proof.Machine.execIaddc c t d a b pn s
  | .isub c t sat d a b => Sys2Proof.Machine.execIsub c t sat d a b s
  | .imul c t d a b => Sys2Proof.Machine.execImul c t d a b s
  | .imulh c t d a b => Sys2Proof.Machine.execImulh c t d a b s
  | .imad c t d a b e => Sys2Proof.Machine.execImad c t d a b e s
  | .imin c t d a b => Sys2Proof.Machine.execImin c t d a b s
  | .imax c t d a b => Sys2Proof.Machine.execImax c t d a b s
  | .iabs c t sat d a => Sys2Proof.Machine.execIabs c t sat d a s
  | .clmul c t hi d a b => Sys2Proof.Machine.execClmul c t hi d a b s
  | .shl c t d a b => Sys2Proof.Machine.execShl c t d a b s
  | .shr c t d a b => Sys2Proof.Machine.execShr c t d a b s
  | .sar c t d a b => Sys2Proof.Machine.execSar c t d a b s
  | .rotl c t d a b => Sys2Proof.Machine.execRotl c t d a b s
  | .blut c t d a b lut => Sys2Proof.Machine.execBlut c t d a b lut s
  | .and c t d a b => Sys2Proof.Machine.execAnd c t d a b s
  | .or c t d a b => Sys2Proof.Machine.execOr c t d a b s
  | .xor c t d a b => Sys2Proof.Machine.execXor c t d a b s
  | .not c t d a => Sys2Proof.Machine.execNot c t d a s
  | .popc c t d a => Sys2Proof.Machine.execPopc c t d a s
  | .clz c t d a => Sys2Proof.Machine.execClz c t d a s
  | .ctz c t d a => Sys2Proof.Machine.execCtz c t d a s
  | .brev c t d a => Sys2Proof.Machine.execBrev c t d a s
  | .bswap c t d a => Sys2Proof.Machine.execBswap c t d a s
  | .bfx c t d a b => Sys2Proof.Machine.execBfx c t d a b s
  | .bfi c t d a b e => Sys2Proof.Machine.execBfi c t d a b e s
  | .iset c t cc d a b => Sys2Proof.Machine.execIset c t cc d a b s
  | .sel c t d a b pn neg => Sys2Proof.Machine.execSel c t d a b pn neg s
  | .mov c t d b => Sys2Proof.Machine.execMov c t d b s
  | .movi c t d b step => Sys2Proof.Machine.execMovi c t d b step s
  | .movh c d a hi => Sys2Proof.Machine.execMovh c d a hi s
  | .lea c t d a b n => Sys2Proof.Machine.execLea c t d a b n s
  | .bysel c d a b sel => Sys2Proof.Machine.execBysel c d a b sel s
  | .bra c disp rcv => Sys2Proof.Machine.execBra c disp rcv s
  | .brx c a point => Sys2Proof.Machine.execBrx c a point s
  | .call c n disp => Sys2Proof.Machine.execCall c n disp s
  | .ret c n => Sys2Proof.Machine.execRet c n s
  | .reconv c => Sys2Proof.Machine.execReconv c s
  | .join c => Sys2Proof.Machine.execJoin c s
  | .loop c n disp => Sys2Proof.Machine.execLoop c n disp s
  | .fadd c rm d a b => Sys2Proof.Machine.execFadd c rm d a b s
  | .fmul c rm d a b => Sys2Proof.Machine.execFmul c rm d a b s
  | .ffma c rm d a b e => Sys2Proof.Machine.execFfma c rm d a b e s
  | .fmin c t d a b => Sys2Proof.Machine.execFmin c t d a b s
  | .fmax c t d a b => Sys2Proof.Machine.execFmax c t d a b s
  | .fset c t cc d a b => Sys2Proof.Machine.execFset c t cc d a b s
  | .fclass c t d a mask => Sys2Proof.Machine.execFclass c t d a mask s
  | .frnd c t rm d a => Sys2Proof.Machine.execFrnd c t rm d a s
  | .twadd c t rm d a b => Sys2Proof.Machine.execTwadd c t rm d a b s
  | .twmul c t rm d a b => Sys2Proof.Machine.execTwmul c t rm d a b s
  | .twfma c t rm d a b e => Sys2Proof.Machine.execTwfma c t rm d a b e s
  | .cvt c satf dt st rm d a => Sys2Proof.Machine.execCvt c satf dt st rm d a s
  | .pack c t rm satf h d a b => Sys2Proof.Machine.execPack c t rm satf h d a b s
  | .unpack c t d a sel => Sys2Proof.Machine.execUnpack c t d a sel s
  | .rcp c t d a => Sys2Proof.Machine.execRcp c t d a s
  | .rsq c t d a => Sys2Proof.Machine.execRsq c t d a s
  | .sqrt c t d a => Sys2Proof.Machine.execSqrt c t d a s
  | .ex2 c t d a => Sys2Proof.Machine.execEx2 c t d a s
  | .lg2 c t d a => Sys2Proof.Machine.execLg2 c t d a s
  | .sin c t d a => Sys2Proof.Machine.execSin c t d a s
  | .cos c t d a => Sys2Proof.Machine.execCos c t d a s
  | .tanh c t d a => Sys2Proof.Machine.execTanh c t d a s
  | .shfl c t mode d a b seg => Sys2Proof.Machine.execShfl c t mode d a b seg s
  | .vote c mode u d p neg => Sys2Proof.Machine.execVote c mode u d p neg s
  | .redg c op t d a => Sys2Proof.Machine.execRedg c op t d a s
  | .scang c op t exc d a => Sys2Proof.Machine.execScang c op t exc d a s
  | .matchLanes c all t d a => Sys2Proof.Machine.execMatchLanes c all t d a s
  | .pset c d a b e lut => Sys2Proof.Machine.execPset c d a b e lut s
  | .p2s c d mask => Sys2Proof.Machine.execP2s c d mask s
  | .s2p c u a mask => Sys2Proof.Machine.execS2p c u a mask s
  | .ld c t sc o d base ix => Sys2Proof.Machine.execLd c t sc o d base ix s
  | .st c t sc o d base ix => Sys2Proof.Machine.execSt c t sc o d base ix s
  | .lds c t w d a ix => Sys2Proof.Machine.execLds c t w d a ix s
  | .sts c t w d a ix => Sys2Proof.Machine.execSts c t w d a ix s
  | .ldc c t d ix bank off => Sys2Proof.Machine.execLdc c t d ix bank off s
  | .pref c tb base ix => Sys2Proof.Machine.execPref c tb base ix s
  | .atom c t sc o d base ix op f v => Sys2Proof.Machine.execAtom c t sc o d base ix op f v s
  | .atoms c t w d a ix op f v => Sys2Proof.Machine.execAtoms c t w d a ix op f v s
  | .red c t sc o base ix op f v => Sys2Proof.Machine.execRed c t sc o base ix op f v s
  | .fence c o sc => Sys2Proof.Machine.execFence c o sc s
  | .afence c sc => Sys2Proof.Machine.execAfence c sc s
  | .commit c => Sys2Proof.Machine.execCommit c s
  | .mark c nl a nu b disp => Sys2Proof.Machine.execMark c nl a nu b disp s
  | .binit c w sc a v => Sys2Proof.Machine.execBinit c w sc a v s
  | .barr c w sc a v => Sys2Proof.Machine.execBarr c w sc a v s
  | .bexp c w sc a v => Sys2Proof.Machine.execBexp c w sc a v s
  | .bwait c w sc d a ph t => Sys2Proof.Machine.execBwait c w sc d a ph t s
  | .btry c w sc d a ph => Sys2Proof.Machine.execBtry c w sc d a ph s
  | .binv c w sc a => Sys2Proof.Machine.execBinv c w sc a s
  | .rinit c w sc a m => Sys2Proof.Machine.execRinit c w sc a m s
  | .rres c w sc d a => Sys2Proof.Machine.execRres c w sc d a s
  | .rpub c w sc a => Sys2Proof.Machine.execRpub c w sc a s
  | .rwait c w sc d a => Sys2Proof.Machine.execRwait c w sc d a s
  | .rrel c w sc a => Sys2Proof.Machine.execRrel c w sc a s
  | .send c rel a ch => Sys2Proof.Machine.execSend c rel a ch s
  | .recv c acq d ch => Sys2Proof.Machine.execRecv c acq d ch s
  | .wpull c poll d q => Sys2Proof.Machine.execWpull c poll d q s
  | .wpush c a => Sys2Proof.Machine.execWpush c a s
  | .launch c w d a => Sys2Proof.Machine.execLaunch c w d a s
  | .yld c => Sys2Proof.Machine.execYld c s
  | .sleep c v => Sys2Proof.Machine.execSleep c v s
  | .exit c => Sys2Proof.Machine.execExit c s
  | .widx c ext d a b f => Sys2Proof.Machine.execWidx c ext d a b f s
  | .scroll c n dx dy => Sys2Proof.Machine.execScroll c n dx dy s
  | .scrollX c n dx dy => Sys2Proof.Machine.execScrollX c n dx dy s
  | .scrq c d => Sys2Proof.Machine.execScrq c d s
  | .scrres c => Sys2Proof.Machine.execScrres c s
  | .cpy c n m => Sys2Proof.Machine.execCpy c n m s
  | .cpym c n m => Sys2Proof.Machine.execCpym c n m s
  | .cpyg c n m => Sys2Proof.Machine.execCpyg c n m s
  | .cpyn c n m => Sys2Proof.Machine.execCpyn c n m s
  | .cpyc c n ch => Sys2Proof.Machine.execCpyc c n ch s
  | .cpycRst c n ch => Sys2Proof.Machine.execCpycRst c n ch s
  | .cpyq c sel d e => Sys2Proof.Machine.execCpyq c sel d e s
  | .wload c t n => Sys2Proof.Machine.execWload c t n s
  | .mma c t bank n row0 => Sys2Proof.Machine.execMma c t bank n row0 s
  | .aload c sc bank n row0 nc full => Sys2Proof.Machine.execAload c sc bank n row0 nc full s
  | .adrain c nochk nrm sc bank n sv row0 nc full => Sys2Proof.Machine.execAdrain c nochk nrm sc bank n sv row0 nc full s
  | .azero c bank => Sys2Proof.Machine.execAzero c bank s
  | .delta c scalar bank n beta => Sys2Proof.Machine.execDelta c scalar bank n beta s
  | .deltaCk c bank n => Sys2Proof.Machine.execDeltaCk c bank n s
  | .tsolve c n m cnt bofs => Sys2Proof.Machine.execTsolve c n m cnt bofs s
  | .dstep c n first cnt => Sys2Proof.Machine.execDstep c n first cnt s
  | .atile c n m => Sys2Proof.Machine.execAtile c n m s
  | .amerge c bank n row0 => Sys2Proof.Machine.execAmerge c bank n row0 s
  | .kvapp c n m p base => Sys2Proof.Machine.execKvapp c n m p base s
  | .kvmap c d n m h => Sys2Proof.Machine.execKvmap c d n m h s
  | .kvmrg c n m tau => Sys2Proof.Machine.execKvmrg c n m tau s
  | .park c n m => Sys2Proof.Machine.execPark c n m s
  | .promo c n m => Sys2Proof.Machine.execPromo c n m s
  | .tierq c d n m => Sys2Proof.Machine.execTierq c d n m s
  | .trap c n => Sys2Proof.Machine.execTrap c n s
  | .rtt c n => Sys2Proof.Machine.execRtt c n s
  | .rds c d x => Sys2Proof.Machine.execRds c d x s
  | .wrs c x b => Sys2Proof.Machine.execWrs c x b s
  | .nop c => Sys2Proof.Machine.execNop c s
  | .bkpt c n => Sys2Proof.Machine.execBkpt c n s
  | .tlbinvVa c n m => Sys2Proof.Machine.execTlbinvVa c n m s
  | .tlbinvTnt c n m => Sys2Proof.Machine.execTlbinvTnt c n m s
  | .tlbinvPart c n m => Sys2Proof.Machine.execTlbinvPart c n m s
  | .qctlMap c d n m => Sys2Proof.Machine.execQctlMap c d n m s
  | .qctlUnmap c d n m => Sys2Proof.Machine.execQctlUnmap c d n m s
  | .qctlPrio c d n m => Sys2Proof.Machine.execQctlPrio c d n m s
  | .qctlSusp c d n m => Sys2Proof.Machine.execQctlSusp c d n m s
  | .qctlResm c d n m => Sys2Proof.Machine.execQctlResm c d n m s
  | .qctlState c d n m => Sys2Proof.Machine.execQctlState c d n m s
  | .pctlCfg c d n m => Sys2Proof.Machine.execPctlCfg c d n m s
  | .pctlIw c d n m => Sys2Proof.Machine.execPctlIw c d n m s
  | .pctlStop c d n m => Sys2Proof.Machine.execPctlStop c d n m s
  | .pctlReset c d n m => Sys2Proof.Machine.execPctlReset c d n m s
  | .pctlGo c d n m => Sys2Proof.Machine.execPctlGo c d n m s
  | .ctxsv c d n m => Sys2Proof.Machine.execCtxsv c d n m s
  | .ctxld c d n m => Sys2Proof.Machine.execCtxld c d n m s
  | .errrdRd c d n m => Sys2Proof.Machine.execErrrdRd c d n m s
  | .errrdRdclr c d n m => Sys2Proof.Machine.execErrrdRdclr c d n m s
  | .wdogSet c n m => Sys2Proof.Machine.execWdogSet c n m s
  | .enrgBal c d n m => Sys2Proof.Machine.execEnrgBal c d n m s
  | .enrgCoef c d n m => Sys2Proof.Machine.execEnrgCoef c d n m s
  | .enrgBurst c d n m => Sys2Proof.Machine.execEnrgBurst c d n m s
  | .enrgShare c d n m => Sys2Proof.Machine.execEnrgShare c d n m s
  | .pathSwap g second => Sys2Proof.Machine.execPathSwap g second s
  | .bwaitTimeout g => Sys2Proof.Machine.execBwaitTimeout g s
  | .launchWaitTimeout g => Sys2Proof.Machine.execLaunchWaitTimeout g s
  | .sleepExpiry g => Sys2Proof.Machine.execSleepExpiry g s
  | .variableLatencyResult g op lanes => Sys2Proof.Machine.execVariableLatencyResult g op lanes s
  | .memoryOperationPerform g op cut => Sys2Proof.Machine.execMemoryOperationPerform g op cut s
  | .storeBufferDrain entry => Sys2Proof.Machine.execStoreBufferDrain entry s
  | .propagationLevelRaise w => Sys2Proof.Machine.execPropagationLevelRaise w s
  | .scrollProgress cmd cut => Sys2Proof.Machine.execScrollProgress cmd cut s
  | .copyRunGrant cmd => Sys2Proof.Machine.execCopyRunGrant cmd s
  | .copyRunLand cmd cut => Sys2Proof.Machine.execCopyRunLand cmd cut s
  | .engineCommandCompletion cmd => Sys2Proof.Machine.execEngineCommandCompletion cmd s
  | .chainEntryComplete cmd => Sys2Proof.Machine.execChainEntryComplete cmd s
  | .arrayCommandExecute arr cut => Sys2Proof.Machine.execArrayCommandExecute arr cut s
  | .cacheCommandExecute cmd cut => Sys2Proof.Machine.execCacheCommandExecute cmd cut s
  | .faultRecordPost part id => Sys2Proof.Machine.execFaultRecordPost part id s
  | .faultInterrupt part => Sys2Proof.Machine.execFaultInterrupt part s
  | .faultResponse part v => Sys2Proof.Machine.execFaultResponse part v s
  | .patchPlacement part => Sys2Proof.Machine.execPatchPlacement part s
  | .evictedGroupReturn g => Sys2Proof.Machine.execEvictedGroupReturn g s
  | .launchEntryStart part src => Sys2Proof.Machine.execLaunchEntryStart part src s
  | .launchCompletion launch => Sys2Proof.Machine.execLaunchCompletion launch s
  | .stageTick launch => Sys2Proof.Machine.execStageTick launch s
  | .balanceTick part => Sys2Proof.Machine.execBalanceTick part s
  | .balanceItemArrival id => Sys2Proof.Machine.execBalanceItemArrival id s
  | .energyWindow part => Sys2Proof.Machine.execEnergyWindow part s
  | .throttleTick part => Sys2Proof.Machine.execThrottleTick part s
  | .watchdogExpiry part slot => Sys2Proof.Machine.execWatchdogExpiry part slot s
  | .notify vf off data => Sys2Proof.Machine.execNotify vf off data s
  | .queuePendingInterrupt part => Sys2Proof.Machine.execQueuePendingInterrupt part s
  | .slotStarvationInterrupt part => Sys2Proof.Machine.execSlotStarvationInterrupt part s
  | .registerWriteOther vf off data => Sys2Proof.Machine.execRegisterWriteOther vf off data s
  | .neltikFrame part job payload => Sys2Proof.Machine.execNeltikFrame part job payload s
  | .copyMessageArrival part job payload => Sys2Proof.Machine.execCopyMessageArrival part job payload s
  | .transportAck part tenant q => Sys2Proof.Machine.execTransportAck part tenant q s
  | .rateTokenRefill part => Sys2Proof.Machine.execRateTokenRefill part s
  | .sluiceWrite vf off data => Sys2Proof.Machine.execSluiceWrite vf off data s
  | .wakePerform id => Sys2Proof.Machine.execWakePerform id s
  | .wakeStageADone part entry => Sys2Proof.Machine.execWakeStageADone part entry s
  | .wakeStageBDone part entry => Sys2Proof.Machine.execWakeStageBDone part entry s
  | .ageingVisit part entry => Sys2Proof.Machine.execAgeingVisit part entry s
  | .tierMoveDone id => Sys2Proof.Machine.execTierMoveDone id s
  | .poolLowInterrupt part => Sys2Proof.Machine.execPoolLowInterrupt part s
  | .flashCommandCompletion id ok => Sys2Proof.Machine.execFlashCommandCompletion id ok s
  | .flashCommandTimeout id => Sys2Proof.Machine.execFlashCommandTimeout id s
  | .rakePatrol addr kind syn racing => Sys2Proof.Machine.execRakePatrol addr kind syn racing s
  | .hostCxlMemAccess addr store len => Sys2Proof.Machine.execHostCxlMemAccess addr store len s
  | .powerGood fail => Sys2Proof.Machine.execPowerGood fail s
  | .packageReset => Sys2Proof.Machine.execPackageReset s
  | .powerDownRequest => Sys2Proof.Machine.execPowerDownRequest s
  | .powerWindow milliwatts => Sys2Proof.Machine.execPowerWindow milliwatts s
  | .partitionMap part arg => Sys2Proof.Machine.execPartitionMap part arg s
  | .startManager part arg => Sys2Proof.Machine.execStartManager part arg s
  | .pair part arg => Sys2Proof.Machine.execPair part arg s
  | .unpair part arg => Sys2Proof.Machine.execUnpair part arg s
  | .pairReset part arg => Sys2Proof.Machine.execPairReset part arg s
  | .rakePassLength part arg => Sys2Proof.Machine.execRakePassLength part arg s
  | .telemetry part arg => Sys2Proof.Machine.execTelemetry part arg s
  | .loadFirmware part arg => Sys2Proof.Machine.execLoadFirmware part arg s
  | .identify part arg => Sys2Proof.Machine.execIdentify part arg s
  | .mailboxCommandDone => Sys2Proof.Machine.execMailboxCommandDone s
  | .pairInputApply id => Sys2Proof.Machine.execPairInputApply id s
  | .signatureExchange id peer => Sys2Proof.Machine.execSignatureExchange id peer s
  | .pairLinkLost part => Sys2Proof.Machine.execPairLinkLost part s
  | .getVersion req => Sys2Proof.Machine.execGetVersion req s
  | .getCapabilities req => Sys2Proof.Machine.execGetCapabilities req s
  | .negotiateAlgorithms req => Sys2Proof.Machine.execNegotiateAlgorithms req s
  | .getDigests req => Sys2Proof.Machine.execGetDigests req s
  | .getCertificate req => Sys2Proof.Machine.execGetCertificate req s
  | .challenge req => Sys2Proof.Machine.execChallenge req s
  | .getMeasurements req => Sys2Proof.Machine.execGetMeasurements req s

end Sys2Proof.Machine
end

