-- ==== Sys2Proof/Machine/Moves.lean ====
section
/-! DEFINITION. The moves of the machine: an issue, the passing of cycles, an event of the opcode table, a failure of stored bits; and how a word is placed
for the next step (logs 1, 2, 17). -/

namespace Sys2Proof.Machine

/-- One move of the machine (log 1); a cycle ends where the clock moves on (R200). -/
def runMove (run : Instr → State → Out) (m : Move) (s : State) : Out :=
  match m with
  | .elapse n => .next (if n = 0 then s else { s.endCycle with clock := s.clock + n })
  | .issue e => issueOn run e s.issueFuel [] s
  | .event i => if isWord i then .next s else run i { s with cur := none }
  | .flaw f => .next (s.flaw f)

/-- The move a step makes, and the state it is made in. -/
def takeMove (s : State) : Move × State :=
  match s.agenda with
  | m :: r => (m, { s with agenda := r, tick := s.tick + 1 })
  | [] => (Config.nextMove s.tick, { s with tick := s.tick + 1 })

/-! ### Placing a word for a step -/

/-- Stores the 96-bit word of the opcode table's numbering, and a header before it where it is an instruction, in the code
segment of a system group, resident on EP 0, whose turn it is (log 17). -/
def placeWord (s : State) (w : Word96) : State :=
  let hd : Header := { len := 1, wait := 0, f0v := true, f0n := 0, f1v := true, f1n := 1, rsv := 0 }
  let isH := isHeader w
  let p : Path :=
    if isH then { pc := 0, mask := BitVec.allOnes 32 }
    else { pc := 1, mask := BitVec.allOnes 32, clause := some { at_ := 0, h := hd } }
  let gid := s.nextId
  let g : Group :=
    { id := gid, launch := gid, block := gid, sys := true, ep := 0, slot := 31, regs := 256, p0 := some p }
  let bs := if isH then bytesLE w.toNat 12 else bytesLE (headerWord hd).toNat 12 ++ bytesLE w.toNat 12
  { s with
    nextId := gid + 1
    groups := g :: s.groups
    launches := { id := gid, part := 0, tenant := 0, origin := .manager, hdr := {}, coStart := s.co.length } :: s.launches
    mem := setBytes s.mem ((range 0 bs.length).zip bs)
    agenda := .issue 0 :: s.agenda }.modEp 0 fun u => { u with pair := some (gid, false, s.clock) }

end Sys2Proof.Machine
end

