-- ==== Sys2Proof/Machine/Step.lean ====
section
/-! DEFINITION. One step of the machine: the next move of the agenda, or an open one, is made (log 1). -/

namespace Sys2Proof.Machine

/-- One step: an element processor issues, the clock advances, or an event of the opcode table comes about. -/
def step (s : State) : Host.Outcome State Fault Refusal := runMove exec (takeMove s).1 (takeMove s).2

/-- The state with the word of the opcode table's numbering where the very next step fetches (log 17). -/
def State.withFetchWord (s : State) (nbits w : Nat) : State := placeWord s (BitVec.ofNat 96 (w % 2 ^ nbits))

end Sys2Proof.Machine
end

