-- ==== Sys2Proof/Safety.lean ====
section
/-! DEFINITION. The terms in which the statements speak of a state: which instruction issues, when its constant operand is there,
and what a well-kept state is. -/

namespace Sys2Proof.Machine

/-- Memory lists rising addresses, and no byte that equals what an unlisted address reads as. -/
def State.memOk (s : State) : Prop := Memory.wf s.mem = true

/-- The local stores of all positions keep the same form. -/
def State.storeOk (s : State) : Prop := mwf (0 : Byte) s.lstore = true

/-- A group's registers and predicates keep the same form. -/
def Group.regsOk (g : Group) : Prop := mwf (0 : Word32) g.v = true ∧ mwf (0 : Word64) g.s = true ∧ mwf (0 : Lanes) g.p = true

/-- An instruction issues: its group and path are the ones that issue, no cause of R62 holds, and its flag has room (R24). -/
structure Issues (s : State) (i : Instr) (c : Ctl) (g : Group) (p : Path) (sec : Bool) : Prop where
  cur : s.cur = some { gid := g.id, second := sec }
  grp : s.group? g.id = some g
  pth : g.path? sec = some p
  legal : causes (ctxOf g p) i = []
  room : g.flagFull (flagOf p c) = false

/-- A constant-bank operand of n bytes has its translation, or no lane needs it (R46, R58). -/
def ConstReady (s : State) (g : Group) (m : Lanes) (n : Nat) (b : Src) : Prop :=
  match b with
  | .cbank k off => m = 0 ∨ s.constFault g k.toNat off.toNat n = none
  | _ => True

end Sys2Proof.Machine
end

