-- ==== Sys2Proof/Certificates/Slice0/Obligations.lean ====
section
/-! DEFINITION. The statements for the provers. First what the rules of spec/ say of values, in plain integers and bits; then the
statements: instruction by instruction in the order of the opcode table, then the events, then the machine as a whole. -/

namespace Sys2Proof.Says

open Sys2Proof.Machine

/-! ### Values in the words of R126 -/

/-- sx or ux of the low w bits (R126). -/
def view (w : Nat) (signed : Bool) (x : Word64) : Int :=
  let n := x.toNat % 2 ^ w
  if signed && decide (2 ^ (w - 1) ≤ n) then (n : Int) - 2 ^ w else (n : Int)

/-- The width of a type, and a source as the type views it. -/
def width (t : Ty) : Nat := if wideTy t then 64 else 32
def val (t : Ty) (x : Word64) : Int := view (width t) (signedTy t) x
def nat (t : Ty) (x : Word64) : Nat := x.toNat % 2 ^ width t

/-- An exact integer modulo 2^W. -/
def modW (t : Ty) (z : Int) : Word64 := BitVec.ofNat 64 (z % 2 ^ width t).toNat

/-- sat(z, type): the nearest value of the type (R75). -/
def satW (t : Ty) (z : Int) : Int :=
  let lo : Int := if signedTy t then -(2 ^ (width t - 1)) else 0
  let hi : Int := if signedTy t then 2 ^ (width t - 1) - 1 else 2 ^ width t - 1
  if z < lo then lo else if hi < z then hi else z

/-- A word from its bits below W. -/
def fromBits (w : Nat) (f : Nat → Bool) : Word64 := BitVec.ofNat 64 ((List.range w).map fun i => if f i then 2 ^ i else 0).sum

/-- pos, and the length cut at the width (R137). -/
def fpos (b : Word64) : Nat := b.toNat % 256
def flen (t : Ty) (b : Word64) : Nat := if width t ≤ fpos b then 0 else min (b.toNat / 256 % 256) (width t - fpos b)

/-! ### Shapes of instructions that write a data register (R126) -/

/-- Two sources, B of any class: every guarded lane, or the uniform register once, receives f of the sources; nothing else
changes but the path, which moves on. -/
def Binary (mk : Ctl → Ty → Dst → RSrc → Src → Instr) (sx : Ty → Bool) (f : Ty → Word64 → Word64 → Word64) : Prop :=
  ∀ (c : Ctl) (t : Ty) (d : Dst) (a : RSrc) (b : Src) (s : State) (g : Group) (p : Path) (sec : Bool),
    Issues s (mk c t d a b) c g p sec → ConstReady s g (guardOf g p c) (opBytes t) b →
      exec (mk c t d a b) s = .next (advance s (g.writeDst t d (guardOf g p c) fun l =>
        f t (rsrcVal g (wideTy t) a l) (srcVal s g (wideTy t) (sx t) (opBytes t) b l)) p sec)

/-- One register source. -/
def Unary (mk : Ctl → Ty → Dst → RSrc → Instr) (f : Ty → Word64 → Word64) : Prop :=
  ∀ (c : Ctl) (t : Ty) (d : Dst) (a : RSrc) (s : State) (g : Group) (p : Path) (sec : Bool),
    Issues s (mk c t d a) c g p sec →
      exec (mk c t d a) s = .next (advance s (g.writeDst t d (guardOf g p c) fun l => f t (rsrcVal g (wideTy t) a l)) p sec)

/-- Three register sources. -/
def Ternary (mk : Ctl → Ty → Dst → RSrc → RSrc → RSrc → Instr) (f : Ty → Word64 → Word64 → Word64 → Word64) : Prop :=
  ∀ (c : Ctl) (t : Ty) (d : Dst) (a b e : RSrc) (s : State) (g : Group) (p : Path) (sec : Bool),
    Issues s (mk c t d a b e) c g p sec →
      exec (mk c t d a b e) s = .next (advance s (g.writeDst t d (guardOf g p c) fun l =>
        f t (rsrcVal g (wideTy t) a l) (rsrcVal g (wideTy t) b l) (rsrcVal g (wideTy t) e l)) p sec)

/-- Immediates of `.s64` are sign-extended (R50). -/
def sx64 (t : Ty) : Bool := t == .s64

/-! ### The functions of R131 to R143 -/

def orSat (sat : Bool) (t : Ty) (z : Int) : Word64 := modW t (if sat then satW t z else z)

/-- n, the shift count: the whole W-bit value (R134). -/
def shlF (t : Ty) (a b : Word64) : Word64 :=
  if width t ≤ nat t b then 0 else BitVec.ofNat 64 (nat t a * 2 ^ nat t b % 2 ^ width t)
def shrF (t : Ty) (a b : Word64) : Word64 := if width t ≤ nat t b then 0 else BitVec.ofNat 64 (nat t a / 2 ^ nat t b)
def sarF (t : Ty) (a b : Word64) : Word64 := modW t (view (width t) true a / 2 ^ min (nat t b) (width t - 1))
def rotlF (t : Ty) (a b : Word64) : Word64 := fromBits (width t) fun i => a.getLsbD ((i + (width t - nat t b % width t)) % width t)
def popcF (t : Ty) (a : Word64) : Word64 := BitVec.ofNat 64 ((List.range (width t)).countP fun i => a.getLsbD i)
def clzF (t : Ty) (a : Word64) : Word64 :=
  BitVec.ofNat 64 ((List.range (width t)).takeWhile fun i => !a.getLsbD (width t - 1 - i)).length
def ctzF (t : Ty) (a : Word64) : Word64 := BitVec.ofNat 64 ((List.range (width t)).takeWhile fun i => !a.getLsbD i).length
def brevF (t : Ty) (a : Word64) : Word64 := fromBits (width t) fun i => a.getLsbD (width t - 1 - i)
/-- Byte j of the result is byte W/8 − 1 − j of a, for the W that the type gives `BSWAP`. -/
def bswapF (t : Ty) (a : Word64) : Word64 := fromBits (8 * tyBytes t) fun i => a.getLsbD (8 * (tyBytes t - 1 - i / 8) + i % 8)

def blutF (lut : BitVec 8) (t : Ty) (a b c : Word64) : Word64 :=
  fromBits (width t) fun i => lut.getLsbD ((a.getLsbD i).toNat + 2 * (b.getLsbD i).toNat + 4 * (c.getLsbD i).toNat)
def notF (t : Ty) (a : Word64) : Word64 := fromBits (width t) fun i => !a.getLsbD i
def bfxF (t : Ty) (a b : Word64) : Word64 :=
  fromBits (width t) fun i =>
    if i < flen t b then a.getLsbD (fpos b + i) else signedTy t && decide (0 < flen t b) && a.getLsbD (fpos b + flen t b - 1)
def bfiF (t : Ty) (a b c : Word64) : Word64 :=
  fromBits (width t) fun i => if fpos b ≤ i ∧ i < fpos b + flen t b then a.getLsbD (i - fpos b) else c.getLsbD i
/-- The polynomial product over GF(2) (R142). -/
def clmulP (t : Ty) (a b : Word64) : Nat :=
  (List.range (width t)).foldl (fun acc i => if a.getLsbD i then acc ^^^ (nat t b * 2 ^ i) else acc) 0
def clmulF (hi : Bool) (t : Ty) (a b : Word64) : Word64 :=
  BitVec.ofNat 64 (if hi then clmulP t a b / 2 ^ width t else clmulP t a b % 2 ^ width t)
def leaF (n : BitVec 6) (t : Ty) (a b : Word64) : Word64 := BitVec.ofNat 64 ((nat t a + nat t b * 2 ^ n.toNat) % 2 ^ width t)
/-- Bit i of `BYSEL`'s result (R143). -/
def byselF (sel : BitVec 20) (a b : Word64) : Word64 :=
  fromBits 32 fun i =>
    let k := sel.toNat / 2 ^ (3 * (i / 8)) % 8
    let src := fun n => if k < 4 then a.getLsbD (8 * k + n) else b.getLsbD (8 * (k - 4) + n)
    !sel.getLsbD (16 + i / 8) && (if sel.getLsbD (12 + i / 8) then src 7 else src (i % 8))

end Sys2Proof.Says

open Sys2Proof Sys2Proof.Machine Sys2Proof.Says

/-! ### Integer arithmetic, shifts, logic and moves (R126 to R143) -/

/-- R131, R132: the instructions of integer arithmetic complete, each with the value the rule gives it; `IADDC` takes and writes its
carry predicate. -/
def Obligations.IntegerArithmeticResults : Prop :=
  (∀ sat, Binary (fun c t d a b => .iadd c t sat d a b) sx64 fun t a b => orSat sat t (val t a + val t b)) ∧
  (∀ sat, Binary (fun c t d a b => .isub c t sat d a b) sx64 fun t a b => orSat sat t (val t a - val t b)) ∧
  (∀ sat, Unary (fun c t d a => .iabs c t sat d a) fun t a => orSat sat t (|val t a|)) ∧
  Binary (fun c t d a b => .imul c t d a b) sx64 (fun t a b => modW t (val t a * val t b)) ∧
  Binary (fun c t d a b => .imulh c t d a b) sx64 (fun t a b => modW t (val t a * val t b / 2 ^ width t)) ∧
  Ternary (fun c t d a b e => .imad c t d a b e) (fun t a b e => modW t (val t a * val t b + val t e)) ∧
  Binary (fun c t d a b => .imin c t d a b) sx64 (fun t a b => if val t a < val t b then a else b) ∧
  Binary (fun c t d a b => .imax c t d a b) sx64 (fun t a b => if val t a > val t b then a else b) ∧
  (∀ (c : Ctl) (t : Ty) (d : Dst) (a : RSrc) (b : Src) (pn : BitVec 3) (s : State) (g : Group) (p : Path) (sec : Bool),
    Issues s (.iaddc c t d a b pn) c g p sec → ConstReady s g (guardOf g p c) (tyBytes t) b →
      exec (.iaddc c t d a b pn) s = .next (advance s
        (let m := guardOf g p c
         let carry : PReg := match d with | .lane _ => .lane pn | .uni _ => .uni (pn.setWidth 2)
         let sum := fun l => nat t (rsrcVal g (wideTy t) a l) + nat t (srcVal s g (wideTy t) true (tyBytes t) b l)
           + (g.predVal carry l).toNat
         (g.writeDst t d m fun l => BitVec.ofNat 64 (sum l % 2 ^ width t)).writePred carry m fun l => decide (2 ^ width t ≤ sum l))
        p sec))

/-- R134: shifts take the whole W-bit count; counts, bit and byte reversal. -/
def Sys2Proof.Says.ShiftAndCountResults : Prop :=
  Binary (fun c t d a b => .shl c t d a b) sx64 shlF ∧ Binary (fun c t d a b => .shr c t d a b) sx64 shrF ∧
  Binary (fun c t d a b => .sar c t d a b) sx64 sarF ∧ Binary (fun c t d a b => .rotl c t d a b) sx64 rotlF ∧
  Unary (fun c t d a => .popc c t d a) popcF ∧ Unary (fun c t d a => .clz c t d a) clzF ∧
  Unary (fun c t d a => .ctz c t d a) ctzF ∧ Unary (fun c t d a => .brev c t d a) brevF ∧
  Unary (fun c t d a => .bswap c t d a) bswapF

/-- R135 to R137, R141 to R143: logic, bit fields, the carry-less product, addresses and byte selection. -/
def Sys2Proof.Says.LogicAndFieldResults : Prop :=
  Binary (fun c t d a b => .and c t d a b) sx64 (fun _ a b => a &&& b) ∧
  Binary (fun c t d a b => .or c t d a b) sx64 (fun _ a b => a ||| b) ∧
  Binary (fun c t d a b => .xor c t d a b) sx64 (fun _ a b => a ^^^ b) ∧
  Unary (fun c t d a => .not c t d a) notF ∧
  (∀ (c : Ctl) (t : Ty) (d : Dst) (a : RSrc) (b : Src) (lut : BitVec 8) (s : State) (g : Group) (p : Path) (sec : Bool),
    Issues s (.blut c t d a b lut) c g p sec → ConstReady s g (guardOf g p c) (tyBytes t) b →
      exec (.blut c t d a b lut) s = .next (advance s (g.writeDst t d (guardOf g p c) fun l =>
        blutF lut t (rsrcVal g (wideTy t) a l) (srcVal s g (wideTy t) true (tyBytes t) b l) (dstVal g (wideTy t) d l)) p sec)) ∧
  Binary (fun c t d a b => .bfx c t d a b) sx64 bfxF ∧
  Ternary (fun c t d a b e => .bfi c t d a b e) bfiF ∧
  (∀ hi, Binary (fun c t d a b => .clmul c t hi d a b) sx64 (clmulF hi)) ∧
  (∀ (c : Ctl) (t : Ty) (d : Dst) (a b : RSrc) (n : BitVec 6) (s : State) (g : Group) (p : Path) (sec : Bool),
    Issues s (.lea c t d a b n) c g p sec →
      exec (.lea c t d a b n) s = .next (advance s (g.writeDst t d (guardOf g p c) fun l =>
        leaF n t (rsrcVal g (wideTy t) a l) (rsrcVal g (wideTy t) b l)) p sec)) ∧
  (∀ (c : Ctl) (d : Dst) (a b : RSrc) (sel : BitVec 20) (s : State) (g : Group) (p : Path) (sec : Bool),
    Issues s (.bysel c d a b sel) c g p sec →
      exec (.bysel c d a b sel) s = .next (advance s (g.writeDst .n32 d (guardOf g p c) fun l =>
        byselF sel (rsrcVal g false a l) (rsrcVal g false b l)) p sec))

/-- R134 to R137, R141 to R143: shifts, counts, reversals, logic, bit fields, the carry-less product, addresses and byte selection. -/
def Obligations.ShiftLogicAndFieldResults : Prop := ShiftAndCountResults ∧ LogicAndFieldResults

/-- R138 to R140: comparison to a predicate, selection by one, and the moves. -/
def Obligations.CompareSelectMoveResults : Prop :=
  (∀ (c : Ctl) (t : Ty) (cc : Cond) (d : PReg) (a : RSrc) (b : Src) (s : State) (g : Group) (p : Path) (sec : Bool),
    Issues s (.iset c t cc d a b) c g p sec → ConstReady s g (guardOf g p c) (tyBytes t) b →
      exec (.iset c t cc d a b) s = .next (advance s (g.writePred d (guardOf g p c) fun l =>
        let x := val t (rsrcVal g (wideTy t) a l)
        let y := val t (srcVal s g (wideTy t) (sx64 t) (tyBytes t) b l)
        match cc with
        | .eq => decide (x = y) | .ne => decide (x ≠ y) | .lt => decide (x < y)
        | .le => decide (x ≤ y) | .gt => decide (x > y) | .ge => decide (x ≥ y)) p sec)) ∧
  (∀ (c : Ctl) (t : Ty) (d : Dst) (a : RSrc) (b : Src) (pn : BitVec 3) (neg : Bool) (s : State) (g : Group) (p : Path)
      (sec : Bool),
    Issues s (.sel c t d a b pn neg) c g p sec → ConstReady s g (guardOf g p c) (tyBytes t) b →
      exec (.sel c t d a b pn neg) s = .next (advance s (g.writeDst t d (guardOf g p c) fun l =>
        let q : PReg := match d with | .lane _ => .lane pn | .uni _ => .uni (pn.setWidth 2)
        if (if neg then !g.predVal q l else g.predVal q l) then rsrcVal g (wideTy t) a l
        else srcVal s g (wideTy t) true (tyBytes t) b l) p sec)) ∧
  (∀ (c : Ctl) (t : Ty) (d : Dst) (b : Src) (s : State) (g : Group) (p : Path) (sec : Bool),
    Issues s (.mov c t d b) c g p sec → ConstReady s g (guardOf g p c) (tyBytes t) b →
      exec (.mov c t d b) s = .next (advance s (g.writeDst t d (guardOf g p c)
        fun l => srcVal s g (wideTy t) false (tyBytes t) b l) p sec)) ∧
  (∀ (c : Ctl) (t : Ty) (d : BitVec 8) (b : Src) (step : BitVec 8) (s : State) (g : Group) (p : Path) (sec : Bool),
    Issues s (.movi c t d b step) c g p sec → ConstReady s g (guardOf g p c) (tyBytes t) b →
      exec (.movi c t d b step) s = .next (advance s (g.writeDst t (.lane d) (guardOf g p c) fun l =>
        modW t ((nat t (srcVal s g (wideTy t) true (tyBytes t) b l) : Int) + l * step.toInt)) p sec)) ∧
  (∀ (c : Ctl) (d : Dst) (a : RSrc) (hi : BitVec 32) (s : State) (g : Group) (p : Path) (sec : Bool),
    Issues s (.movh c d a hi) c g p sec →
      exec (.movh c d a hi) s = .next (advance s (g.writeDst .n64 d (guardOf g p c) fun l =>
        BitVec.ofNat 64 (hi.toNat * 2 ^ 32 + (rsrcVal g true a l).toNat % 2 ^ 32)) p sec))

/-! ### Floating point (R72 to R93, R158 to R171) -/

namespace Sys2Proof.Says

/-- The group after a generator has stepped: once, for an `.sr` instruction that some guarded lane takes part in (R83). -/
def stepped (g : Group) (fma : Bool) (rm : Rnd) (m : Lanes) : Group :=
  if rm = .sr ∧ m ≠ 0 then (if fma then { g with gFma := srNext g.gFma } else { g with gAlu := srNext g.gAlu }) else g

/-- The random word of lane l (R84). -/
def lword (g : Group) (fma : Bool) (l : Nat) : Word32 := (if fma then g.gFma else g.gAlu).rotateLeft (7 * l % 32)

/-- The value of the element of a type in the low bits of a register, and a rounded result. -/
def dec (t : Ty) (x : Nat) : Ext := (tyFmt t).decode (x % 2 ^ (tyFmt t).width)
def rnd (t : Ty) (rm : Rnd) (u : Word32) (x : Ext) : Nat := (tyFmt t).round rm u.toNat x

/-- Two packed results: the low half uses the lane's word, the high half that word rotated by 16 (R159). -/
def packed (t : Ty) (rm : Rnd) (u : Word32) (lo hi : Ext) : Word64 :=
  BitVec.ofNat 64 (rnd t rm u lo + 2 ^ 16 * rnd t rm (u.rotateLeft 16) hi)

/-- The low and high halves of a register, as values of a 16-bit type. -/
def halfLo (t : Ty) (x : Word64) : Ext := dec t (x.toNat % 2 ^ 16)
def halfHi (t : Ty) (x : Word64) : Ext := dec t (x.toNat / 2 ^ 16 % 2 ^ 16)

/-- Two FP32 sources in the FMA pipe: f of the exact values, rounded once. -/
def FloatBinary (mk : Ctl → Rnd → Dst → RSrc → Src → Instr) (f : Bool → Ext → Ext → Ext) : Prop :=
  ∀ (c : Ctl) (rm : Rnd) (d : Dst) (a : RSrc) (b : Src) (s : State) (g : Group) (p : Path) (sec : Bool),
    Issues s (mk c rm d a b) c g p sec → ConstReady s g (guardOf g p c) 4 b →
      exec (mk c rm d a b) s = .next (advance s (
        let g' := stepped g true rm (guardOf g p c)
        g'.writeDst .f32 d (guardOf g p c) fun l => BitVec.ofNat 64 (rnd .f32 rm (lword g' true l)
          (f (rm == .rdn) (dec .f32 (rsrcVal g false a l).toNat) (dec .f32 (srcVal s g false false 4 b l).toNat)))) p sec)

/-- The same on two packed halves of a 16-bit type. -/
def TwinBinary (mk : Ctl → Ty → Rnd → Dst → RSrc → Src → Instr) (f : Bool → Ext → Ext → Ext) : Prop :=
  ∀ (c : Ctl) (t : Ty) (rm : Rnd) (d : Dst) (a : RSrc) (b : Src) (s : State) (g : Group) (p : Path) (sec : Bool),
    Issues s (mk c t rm d a b) c g p sec → ConstReady s g (guardOf g p c) 4 b → (t = .f16 ∨ t = .bf16) →
      exec (mk c t rm d a b) s = .next (advance s (
        let g' := stepped g true rm (guardOf g p c)
        g'.writeDst t d (guardOf g p c) fun l =>
          let x := rsrcVal g false a l
          let y := srcVal s g false false 4 b l
          packed t rm (lword g' true l) (f (rm == .rdn) (halfLo t x) (halfLo t y)) (f (rm == .rdn) (halfHi t x) (halfHi t y))) p sec)

/-- The exact rational value of a number. -/
def ratOf (neg : Bool) (m : Nat) (e : Int) : ℚ := (if neg then -1 else 1) * (m : ℚ) * (2 : ℚ) ^ e

/-- The formats of R71. -/
def IsFmt (f : FFmt) : Prop := f = fmtF32 ∨ f = fmtF16 ∨ f = fmtBF16 ∨ f = fmtE5M2 ∨ f = fmtE4M3

/-- A finite value of a format. -/
def Finite (f : FFmt) (y : ℚ) : Prop := ∃ b n m e, b < 2 ^ f.width ∧ f.decode b = .num n m e ∧ y = ratOf n m e

/-- The largest finite value of a format. -/
def IsMax (f : FFmt) (y : ℚ) : Prop := Finite f y ∧ ∀ z, Finite f z → z ≤ y

/-- Two values of a format with none between them. -/
def Adjacent (f : FFmt) (lo hi : ℚ) : Prop := Finite f lo ∧ Finite f hi ∧ lo < hi ∧ ∀ z, Finite f z → z ≤ lo ∨ hi ≤ z

/-- Half the spacing of a format at its largest finite value (R79). -/
def halfMax (f : FFmt) : ℚ :=
  if f = fmtF32 then 2 ^ 103 else if f = fmtF16 then 16 else if f = fmtBF16 then 2 ^ 119 else if f = fmtE5M2 then 4096 else 16

/-- What a value beyond the largest finite one rounds to: that one, or an infinity (R79). -/
def overflows (f : FFmt) (rm : Rnd) (neg : Bool) (x mx : ℚ) : Bool :=
  if f = fmtE4M3 then false
  else
    match rm with
    | .rne => decide (mx + halfMax f ≤ |x|)
    | .rdn => neg
    | .rup => !neg
    | _ => false

end Sys2Proof.Says

/-- R78, R79, R85: rounding a value within a format's range gives a finite value of the format: the nearest under `.rne`, ties to the
pattern with an even last bit, in the directed modes the neighbour on the mode's side, and under `.sr` the upper neighbour where the
random word is below D. A value beyond the range gives the largest finite value of its sign, or an infinity, as the mode says. An
infinity stays one, but in E4M3, which has none, it gives NaN; NaN gives NaN. -/
def Obligations.RoundingChoosesNeighbour : Prop :=
  (∀ (f : FFmt) (rm : Rnd) (u : Nat) (neg : Bool) (m : Nat) (e : Int) (mx : ℚ), IsFmt f → u < 2 ^ 32 → IsMax f mx →
    let x := ratOf neg m e
    (|x| ≤ mx →
      ∃ n k q, f.decode (f.round rm u (.num neg m e)) = .num n k q ∧
        (let y := ratOf n k q
         n = neg ∧ (∀ z, Finite f z → (x ≤ z → z ≤ y → y ≤ x ∨ z = y) ∧ (y ≤ z → z ≤ x → x ≤ y ∨ z = y)) ∧
         match rm with
         | .rne => ∀ z, Finite f z → |x - y| ≤ |x - z| ∧ (|x - y| = |x - z| → z ≠ y → f.round rm u (.num neg m e) % 2 = 0)
         | .rtz => |y| ≤ |x|
         | .rdn => y ≤ x
         | .rup => x ≤ y
         | .sr => ∀ lo hi, Adjacent f lo hi → lo < x → x < hi → y = if (u : ℤ) < ⌊2 ^ 32 * ((x - lo) / (hi - lo))⌋ then hi else lo)) ∧
    (mx < |x| →
      (overflows f rm neg x mx = true → f.decode (f.round rm u (.num neg m e)) = .inf neg) ∧
      (overflows f rm neg x mx = false → ∃ k q, f.decode (f.round rm u (.num neg m e)) = .num neg k q ∧
        ratOf neg k q = if neg then -mx else mx))) ∧
  (∀ (f : FFmt) (rm : Rnd) (u : Nat), IsFmt f → f.decode (f.round rm u .nan) = .nan ∧
    ∀ neg, f.decode (f.round rm u (.inf neg)) = if f = fmtE4M3 then .nan else .inf neg)

/-- R91, R80: products, sums and comparisons of two numbers are exact, and an exact zero sum has the sign of R80. -/
def Obligations.ExactSumProductCompare : Prop :=
  ∀ (a b rdn : Bool) (m n : Nat) (e k : Int),
    (∃ s j q, Ext.mul (.num a m e) (.num b n k) = .num s j q ∧ ratOf s j q = ratOf a m e * ratOf b n k ∧ s = (a != b)) ∧
    (∃ s j q, Ext.add rdn (.num a m e) (.num b n k) = .num s j q ∧ ratOf s j q = ratOf a m e + ratOf b n k ∧
      (ratOf a m e + ratOf b n k = 0 → s = (if m = 0 ∧ n = 0 ∧ a = b then a else rdn)) ∧
      (ratOf a m e + ratOf b n k ≠ 0 → s = decide (ratOf a m e + ratOf b n k < 0))) ∧
    (Ext.lt (.num a m e) (.num b n k) = decide (ratOf a m e < ratOf b n k)) ∧
    (Ext.le (.num a m e) (.num b n k) = decide (ratOf a m e ≤ ratOf b n k)) ∧
    (Ext.eqv (.num a m e) (.num b n k) = decide (ratOf a m e = ratOf b n k))

/-- R160, R161, R83, R84: FP32 and packed arithmetic complete, each with the exact result rounded once, and the generator of
the FMA pipe steps once under `.sr`. -/
def Obligations.FloatArithmeticResults : Prop :=
  FloatBinary (fun c rm d a b => .fadd c rm d a b) Ext.add ∧ FloatBinary (fun c rm d a b => .fmul c rm d a b) (fun _ => Ext.mul) ∧
  TwinBinary (fun c t rm d a b => .twadd c t rm d a b) Ext.add ∧
  TwinBinary (fun c t rm d a b => .twmul c t rm d a b) (fun _ => Ext.mul) ∧
  (∀ (c : Ctl) (rm : Rnd) (d : Dst) (a b e : RSrc) (s : State) (g : Group) (p : Path) (sec : Bool),
    Issues s (.ffma c rm d a b e) c g p sec →
      exec (.ffma c rm d a b e) s = .next (advance s (
        let g' := stepped g true rm (guardOf g p c)
        g'.writeDst .f32 d (guardOf g p c) fun l => BitVec.ofNat 64 (rnd .f32 rm (lword g' true l)
          (Ext.add (rm == .rdn) (Ext.mul (dec .f32 (rsrcVal g false a l).toNat) (dec .f32 (rsrcVal g false b l).toNat))
            (dec .f32 (rsrcVal g false e l).toNat)))) p sec)) ∧
  (∀ (c : Ctl) (t : Ty) (rm : Rnd) (d : Dst) (a b e : RSrc) (s : State) (g : Group) (p : Path) (sec : Bool),
    Issues s (.twfma c t rm d a b e) c g p sec → (t = .f16 ∨ t = .bf16) →
      exec (.twfma c t rm d a b e) s = .next (advance s (
        let g' := stepped g true rm (guardOf g p c)
        g'.writeDst t d (guardOf g p c) fun l =>
          let x := rsrcVal g false a l
          let y := rsrcVal g false b l
          let z := rsrcVal g false e l
          packed t rm (lword g' true l) (Ext.add (rm == .rdn) (Ext.mul (halfLo t x) (halfLo t y)) (halfLo t z))
            (Ext.add (rm == .rdn) (Ext.mul (halfHi t x) (halfHi t y)) (halfHi t z))) p sec))

namespace Sys2Proof.Says

/-- −0 is below +0 (R163). -/
def belowZ (x y : Ext) : Bool := if x.isZero && y.isZero then x.isNeg && !y.isNeg else Ext.lt x y

/-- The pseudocode of R163; a result that is not NaN is an operand's pattern. -/
def minMax (mx : Bool) (t : Ty) (a b : Word64) : Word64 :=
  let x := dec t a.toNat
  let y := dec t b.toNat
  let pat := fun (z : Word64) => BitVec.ofNat 64 (z.toNat % 2 ^ (tyFmt t).width)
  if x.isNan && y.isNan then BitVec.ofNat 64 (tyFmt t).canonNan
  else if x.isNan then pat b
  else if y.isNan then pat a
  else if mx then (if belowZ x y then pat b else pat a)
  else if belowZ y x then pat b else pat a

/-- The table of R164. -/
def fcond (cc : FCond) (x y : Ext) : Bool :=
  let nan := x.isNan || y.isNan
  match cc with
  | .eq => !nan && Ext.eqv x y
  | .ne => nan || !(Ext.eqv x y)
  | .lt => !nan && Ext.lt x y
  | .le => !nan && Ext.le x y
  | .gt => !nan && Ext.lt y x
  | .ge => !nan && Ext.le y x
  | .num => !nan
  | .nan => nan

/-- The class bit of a pattern, from its fields (R165, R72). -/
def classOf (f : FFmt) (b : Nat) : Nat :=
  let sign := b.testBit (f.ebits + f.fbits)
  let ex := b / 2 ^ f.fbits % 2 ^ f.ebits
  let fr := b % 2 ^ f.fbits
  if ex = 2 ^ f.ebits - 1 then (if fr ≠ 0 then 8 else if sign then 0 else 7)
  else if ex = 0 then (if fr = 0 then (if sign then 3 else 4) else if sign then 2 else 5)
  else if sign then 1 else 6

/-- Rounding a real value to an integer (R78, R85). -/
def intRound (rm : Rnd) (u : Nat) (q : ℚ) : ℤ :=
  let lo := ⌊q⌋
  let r := q - lo
  if r = 0 then lo
  else
    match rm with
    | .rne => if r < 1 / 2 then lo else if 1 / 2 < r then lo + 1 else if lo % 2 = 0 then lo else lo + 1
    | .rtz => if 0 < q then lo else lo + 1
    | .rdn => lo
    | .rup => lo + 1
    | .sr => if (u : ℤ) < ⌊2 ^ 32 * r⌋ then lo + 1 else lo

/-- FRND of a value (R166). -/
def frndF (t : Ty) (rm : Rnd) (a : Word64) : Word64 :=
  match dec t a.toNat with
  | .num n m e => BitVec.ofNat 64 (rnd t .rne 0 (.num n (intRound rm 0 (ratOf n m e)).natAbs 0))
  | x => BitVec.ofNat 64 (rnd t .rne 0 x)

def isInt : Ty → Bool
  | .s8 | .s16 | .s32 | .s64 | .n8 | .n16 | .n32 | .n64 => true
  | _ => false
def intW : Ty → Nat
  | .s8 | .n8 => 8
  | .s16 | .n16 => 16
  | .s64 | .n64 => 64
  | _ => 32

/-- The value of an E8M0 byte (R77). -/
def e8m0 (b : Nat) : Ext := if b = 255 then .nan else .num false 1 ((b : Int) - 127)

/-- The exact value that a conversion reads (R168). -/
def readAs (st : Ty) (a : Word64) : Ext :=
  if isInt st then Ext.ofInt (view (intW st) (signedTy st) a)
  else if st = .e8m0 then e8m0 (a.toNat % 256)
  else dec st a.toNat

/-- Conversion to an integer: rounded, then saturated; NaN gives 0 (R81). -/
def toInt (dt : Ty) (rm : Rnd) (u : Nat) (x : Ext) : ℤ :=
  let lo : ℤ := if signedTy dt then -(2 ^ (intW dt - 1)) else 0
  let hi : ℤ := if signedTy dt then 2 ^ (intW dt - 1) - 1 else 2 ^ intW dt - 1
  match x with
  | .nan => 0
  | .inf n => if n then lo else hi
  | .num n m e => max lo (min hi (intRound rm u (ratOf n m e)))

/-- Conversion to E8M0 (R81). -/
def toE8M0 (rm : Rnd) : Ext → Nat
  | .num false m e =>
    if m = 0 then 255
    else
      let q := ratOf false m e
      let n := Int.log 2 q
      let k : ℤ := match rm with
        | .rup => if q = (2 : ℚ) ^ n then n else n + 1
        | .rne => if 3 / 2 * (2 : ℚ) ^ n ≤ q then n + 1 else n
        | _ => n
      (max 0 (min 254 (k + 127))).toNat
  | _ => 255

/-- Conversion to a float, with `.satf` (R168). -/
def toFloat (t : Ty) (satf : Bool) (rm : Rnd) (u : Word32) (x : Ext) : Nat :=
  let y := rnd t rm u x
  if satf && (x.isInf || (dec t y).isInf) then (if x.isNeg then 2 ^ ((tyFmt t).ebits + (tyFmt t).fbits) else 0) + (tyFmt t).maxMag
  else y

def cvtF (satf : Bool) (dt st : Ty) (rm : Rnd) (u : Word32) (a : Word64) : Word64 :=
  if isInt dt then modW dt (toInt dt rm u.toNat (readAs st a))
  else if dt = .e8m0 then BitVec.ofNat 64 (toE8M0 rm (readAs st a))
  else BitVec.ofNat 64 (toFloat dt satf rm u (readAs st a))

/-- The pseudocode of R169. -/
def packF (t : Ty) (rm : Rnd) (satf h : Bool) (u : Word32) (a b old : Word64) : Word64 :=
  let ra := toFloat t satf rm u (dec .f32 a.toNat)
  let rb := toFloat t satf rm (u.rotateLeft 16) (dec .f32 b.toNat)
  if t = .f16 ∨ t = .bf16 then BitVec.ofNat 64 (rb * 2 ^ 16 + ra)
  else if h then BitVec.ofNat 64 ((rb * 2 ^ 8 + ra) * 2 ^ 16 + old.toNat % 2 ^ 16)
  else BitVec.ofNat 64 (old.toNat / 2 ^ 16 % 2 ^ 16 * 2 ^ 16 + (rb * 2 ^ 8 + ra))

/-- The element that R170 selects. -/
def elemOf (t : Ty) (sel : Nat) (a : Nat) : Ext :=
  match t with
  | .f16 => fmtF16.decode (a / 2 ^ (16 * sel) % 2 ^ 16)
  | .bf16 => fmtBF16.decode (a / 2 ^ (16 * sel) % 2 ^ 16)
  | .e4m3 => fmtE4M3.decode (a / 2 ^ (8 * sel) % 2 ^ 8)
  | .e5m2 => fmtE5M2.decode (a / 2 ^ (8 * sel) % 2 ^ 8)
  | .e8m0 => e8m0 (a / 2 ^ (8 * sel) % 2 ^ 8)
  | .i4 => Ext.ofInt (view 4 true (BitVec.ofNat 64 (a / 2 ^ (4 * sel))))
  | .i3 => Ext.ofInt (view 3 true (BitVec.ofNat 64 (a / 2 ^ sel)))
  | _ => .nan

/-- The eight special functions on FP32, and on 16-bit types through FP32 (R92). -/
def viaSingle (t : Ty) (f : Word32 → Word32) (a : Word64) : Word64 :=
  if t = .f32 then (f (a.setWidth 32)).setWidth 64
  else BitVec.ofNat 64 (rnd t .rne 0 (fmtF32.decode (f (BitVec.ofNat 32 (rnd .f32 .rne 0 (dec t a.toNat)))).toNat))

/-- An FP32 pattern's value is within a bound of a number, and within k ulps of it: spacings of FP32 at the number (R92). -/
def IsNear (w : Word32) (z bound : ℝ) : Prop :=
  ∃ n m e, fmtF32.decode w.toNat = .num n m e ∧ |((ratOf n m e : ℚ) : ℝ) - z| ≤ bound
def WithinUlps (w : Word32) (z : ℝ) (k : ℕ) : Prop := IsNear w z (k * (2 : ℝ) ^ (max (Int.log 2 |z|) (-126) - 23))

/-- The special values of R93: for NaN, +∞, −∞, +0, −0 and +1 in turn; `none` where R92's bound applies instead. -/
def specialValues : List ((Word32 → Word32) × List (Option Word32)) :=
  let nan := some 0x7FC00000#32
  let inf := some 0x7F800000#32
  let ninf := some 0xFF800000#32
  let z := some 0#32
  let nz := some 0x80000000#32
  let one := some 0x3F800000#32
  [(specialFn .rcp, [nan, z, nz, inf, ninf, one]), (specialFn .rsq, [nan, z, nan, inf, ninf, one]),
   (sqrtFn, [nan, inf, nan, z, nz, one]), (specialFn .ex2, [nan, inf, z, one, one, some 0x40000000#32]),
   (specialFn .lg2, [nan, inf, nan, ninf, ninf, z]), (specialFn .sin, [nan, nan, nan, z, nz, none]),
   (specialFn .cos, [nan, nan, nan, one, one, none]), (specialFn .tanh, [nan, one, some 0xBF800000#32, z, nz, none])]

end Sys2Proof.Says

/-- R163 to R166: minimum, maximum, comparison, class and rounding to an integral value. -/
def Obligations.FloatCompareResults : Prop :=
  Binary (fun c t d a b => .fmin c t d a b) (fun _ => false) (minMax false) ∧
  Binary (fun c t d a b => .fmax c t d a b) (fun _ => false) (minMax true) ∧
  (∀ (c : Ctl) (t : Ty) (cc : FCond) (d : PReg) (a : RSrc) (b : Src) (s : State) (g : Group) (p : Path) (sec : Bool),
    Issues s (.fset c t cc d a b) c g p sec → ConstReady s g (guardOf g p c) (opBytes t) b →
      exec (.fset c t cc d a b) s = .next (advance s (g.writePred d (guardOf g p c) fun l =>
        fcond cc (dec t (rsrcVal g false a l).toNat) (dec t (srcVal s g false false (opBytes t) b l).toNat)) p sec)) ∧
  (∀ (c : Ctl) (t : Ty) (d : PReg) (a : RSrc) (mask : BitVec 9) (s : State) (g : Group) (p : Path) (sec : Bool),
    Issues s (.fclass c t d a mask) c g p sec → (t = .f32 ∨ t = .f16 ∨ t = .bf16) →
      exec (.fclass c t d a mask) s = .next (advance s (g.writePred d (guardOf g p c) fun l =>
        mask.getLsbD (classOf (tyFmt t) ((rsrcVal g false a l).toNat % 2 ^ (tyFmt t).width))) p sec)) ∧
  (∀ rm, rm ≠ .sr → Unary (fun c t d a => .frnd c t rm d a) fun t a => frndF t rm a)

/-- R167 to R170, R81: conversion between types, packing and unpacking; the generator of the ALU pipe steps under `.sr`. -/
def Obligations.ConversionResults : Prop :=
  (∀ (c : Ctl) (satf : Bool) (dt st : Ty) (rm : Rnd) (d : Dst) (a : RSrc) (s : State) (g : Group) (p : Path) (sec : Bool),
    Issues s (.cvt c satf dt st rm d a) c g p sec →
      exec (.cvt c satf dt st rm d a) s = .next (advance s (
        let g' := stepped g false rm (guardOf g p c)
        g'.writeDst dt d (guardOf g p c) fun l => cvtF satf dt st rm (lword g' false l) (rsrcVal g (wideTy st) a l)) p sec)) ∧
  (∀ (c : Ctl) (t : Ty) (rm : Rnd) (satf h : Bool) (d : Dst) (a b : RSrc) (s : State) (g : Group) (p : Path) (sec : Bool),
    Issues s (.pack c t rm satf h d a b) c g p sec → (t = .f16 ∨ t = .bf16 ∨ t = .e4m3 ∨ t = .e5m2) →
      exec (.pack c t rm satf h d a b) s = .next (advance s (
        let g' := stepped g false rm (guardOf g p c)
        g'.writeDst t d (guardOf g p c) fun l =>
          packF t rm satf h (lword g' false l) (rsrcVal g false a l) (rsrcVal g false b l)
            (match d with | .lane r => rsrcVal g false (.lane r) l | .uni r => rsrcVal g false (.uni r) l)) p sec)) ∧
  (∀ (c : Ctl) (t : Ty) (d : Dst) (a : RSrc) (sel : BitVec 6) (s : State) (g : Group) (p : Path) (sec : Bool),
    Issues s (.unpack c t d a sel) c g p sec →
      (t = .f16 ∨ t = .bf16 ∨ t = .e4m3 ∨ t = .e5m2 ∨ t = .e8m0 ∨ t = .i4 ∨ t = .i3) →
      exec (.unpack c t d a sel) s = .next (advance s (g.writeDst .f32 d (guardOf g p c) fun l =>
        BitVec.ofNat 64 (rnd .f32 .rne 0 (elemOf t sel.toNat (rsrcVal g (decide (t = .i3)) a l).toNat))) p sec))

/-- R92, R93, R171: the special functions complete, and take the special values of R93; a negative finite input gives NaN in
`RSQ`, `SQRT` and `LG2`. `RCP` and `RSQ` are within one ulp of the exact result, or an infinity where the exact result rounds to one, and
`SQRT` gives the value nearest to the root. -/
def Obligations.SpecialFunctionResults : Prop :=
  Unary (fun c t d a => .rcp c t d a) (fun t => viaSingle t (specialFn .rcp)) ∧
  Unary (fun c t d a => .rsq c t d a) (fun t => viaSingle t (specialFn .rsq)) ∧
  Unary (fun c t d a => .sqrt c t d a) (fun t => viaSingle t sqrtFn) ∧
  Unary (fun c t d a => .ex2 c t d a) (fun t => viaSingle t (specialFn .ex2)) ∧
  Unary (fun c t d a => .lg2 c t d a) (fun t => viaSingle t (specialFn .lg2)) ∧
  Unary (fun c t d a => .sin c t d a) (fun t => viaSingle t (specialFn .sin)) ∧
  Unary (fun c t d a => .cos c t d a) (fun t => viaSingle t (specialFn .cos)) ∧
  Unary (fun c t d a => .tanh c t d a) (fun t => viaSingle t (specialFn .tanh)) ∧
  (∀ r ∈ specialValues, ∀ x ∈ ([0x7FC00000#32, 0x7F800000#32, 0xFF800000#32, 0#32, 0x80000000#32, 0x3F800000#32].zip r.2),
    ∀ v ∈ x.2, r.1 x.1 = v) ∧
  (∀ r ∈ specialValues, ∀ w : Word32, fmtF32.decode w.toNat = .nan → r.1 w = 0x7FC00000#32) ∧
  (∀ (w : Word32) (m : Nat) (e : Int), fmtF32.decode w.toNat = .num true m e → m ≠ 0 →
    specialFn .rsq w = 0x7FC00000#32 ∧ sqrtFn w = 0x7FC00000#32 ∧ specialFn .lg2 w = 0x7FC00000#32) ∧
  (∀ (w : Word32) (neg : Bool) (m : Nat) (e : Int), fmtF32.decode w.toNat = .num neg m e → m ≠ 0 →
    let x : ℝ := (ratOf neg m e : ℚ)
    (WithinUlps (specialFn .rcp w) x⁻¹ 1 ∨
      (fmtF32.decode (specialFn .rcp w).toNat = .inf neg ∧ (2 : ℝ) ^ 128 - 2 ^ 103 ≤ |x⁻¹|)) ∧
    (neg = false → WithinUlps (specialFn .rsq w) (Real.sqrt x)⁻¹ 1) ∧
    (neg = false → ∃ n k q, fmtF32.decode (sqrtFn w).toNat = .num n k q ∧
      ∀ z, Finite fmtF32 z → |Real.sqrt x - (ratOf n k q : ℚ)| ≤ |Real.sqrt x - (z : ℚ)|))

/-! ### Cross-lane instructions (R172 to R180) -/

namespace Sys2Proof.Says

/-- The lane that `SHFL` reads (R173). -/
def shflFrom (mode : ShflMode) (seg l n : Nat) : Nat :=
  let base := l - l % 2 ^ seg
  let i := l % 2 ^ seg
  match mode with
  | .idx => base + n % 2 ^ seg
  | .up => if i ≥ n then l - n else l
  | .down => if i + n < 2 ^ seg then l + n else l
  | .xor => base + (i ^^^ (n % 2 ^ seg))

/-- combine of R175. -/
def comb (op : RedOp) (t : Ty) (x y : Word64) : Word64 :=
  match op with
  | .add =>
    if t = .f32 then BitVec.ofNat 64 (rnd .f32 .rne 0 (Ext.add false (dec .f32 x.toNat) (dec .f32 y.toNat)))
    else modW t (val t x + val t y)
  | .min => if t = .f32 then minMax false .f32 x y else if val t x < val t y then x else y
  | .max => if t = .f32 then minMax true .f32 x y else if val t x > val t y then x else y
  | .and => x &&& y
  | .or => x ||| y
  | .xor => x ^^^ y

/-- node(lv, i) of R175's tree; `none` is empty. -/
def node (op : RedOp) (t : Ty) (m : Lanes) (a : Nat → Word64) : Nat → Nat → Option Word64
  | 0, l => if m.getLsbD l then some (a l) else none
  | lv + 1, i =>
    match node op t m a lv (2 * i), node op t m a lv (2 * i + 1) with
    | x, none => x
    | none, y => y
    | some x, some y => some (comb op t x y)

/-- inc of R176 over the lanes of M below n: `none` is the empty prefix. -/
def prefixOf (op : RedOp) (t : Ty) (m : Lanes) (a : Nat → Word64) (n : Nat) : Option Word64 :=
  ((List.range n).filter fun l => m.getLsbD l).foldl
    (fun acc l => match acc with | none => some (a l) | some x => some (comb op t x (a l))) none

/-- The identities of R176. -/
def identity (op : RedOp) (t : Ty) : Word64 :=
  match op with
  | .add => if t = .f32 then 0x80000000#64 else 0
  | .min => if t = .f32 then 0x7F800000#64 else modW t (if signedTy t then 2 ^ (width t - 1) - 1 else 2 ^ width t - 1)
  | .max => if t = .f32 then 0xFF800000#64 else modW t (if signedTy t then -(2 ^ (width t - 1)) else 0)
  | .and => modW t (-1)
  | .or => 0
  | .xor => 0

end Sys2Proof.Says

/-- R173 to R177: the instructions that exchange, vote on, reduce, scan and match lane values. -/
def Sys2Proof.Says.CrossLanes : Prop :=
  (∀ (c : Ctl) (t : Ty) (mode : ShflMode) (d a : BitVec 8) (b : Src) (seg : BitVec 3) (s : State) (g : Group) (p : Path)
      (sec : Bool),
    Issues s (.shfl c t mode d a b seg) c g p sec → ConstReady s g (guardOf g p c) (tyBytes t) b →
      exec (.shfl c t mode d a b seg) s = .next (advance s (g.writeDst t (.lane d) (guardOf g p c) fun l =>
        g.laneW (wideTy t) a.toNat (shflFrom mode seg.toNat l (nat t (srcVal s g (wideTy t) false (tyBytes t) b l)))) p sec)) ∧
  (∀ (c : Ctl) (mode : VoteMode) (u : Bool) (d : BitVec 8) (pn : BitVec 3) (neg : Bool) (s : State) (g : Group) (p : Path)
      (sec : Bool),
    Issues s (.vote c mode u d pn neg) c g p sec →
      exec (.vote c mode u d pn neg) s = .next (advance s (
        let m := guardOf g p c
        let bits := maskOf fun l => m.getLsbD l && ((g.pred pn.toNat).getLsbD l != neg)
        let q : PReg := if u then .uni (d.setWidth 2) else .lane (d.setWidth 3)
        match mode with
        | .all => g.writePred q m fun _ => bits == m
        | .any => g.writePred q m fun _ => bits != 0
        | .uni => g.writePred q m fun _ => bits == 0 || bits == m
        | .ballot => g.writeDst .n32 (if u then .uni (d.setWidth 6) else .lane d) m fun _ => bits.setWidth 64) p sec)) ∧
  (∀ (c : Ctl) (op : RedOp) (t : Ty) (d : Dst) (a : BitVec 8) (s : State) (g : Group) (p : Path) (sec : Bool),
    Issues s (.redg c op t d a) c g p sec →
      exec (.redg c op t d a) s = .next (advance s (g.writeDst t d (guardOf g p c) fun _ =>
        (node op t (guardOf g p c) (fun l => g.laneW (wideTy t) a.toNat l) 5 0).getD 0) p sec)) ∧
  (∀ (c : Ctl) (op : RedOp) (t : Ty) (exc : Bool) (d a : BitVec 8) (s : State) (g : Group) (p : Path) (sec : Bool),
    Issues s (.scang c op t exc d a) c g p sec →
      exec (.scang c op t exc d a) s = .next (advance s (g.writeDst t (.lane d) (guardOf g p c) fun l =>
        (prefixOf op t (guardOf g p c) (fun k => g.laneW (wideTy t) a.toNat k) (if exc then l else l + 1)).getD
          (identity op t)) p sec)) ∧
  (∀ (c : Ctl) (all : Bool) (t : Ty) (d a : BitVec 8) (s : State) (g : Group) (p : Path) (sec : Bool),
    Issues s (.matchLanes c all t d a) c g p sec →
      exec (.matchLanes c all t d a) s = .next (advance s (
        let m := guardOf g p c
        let eq := fun (l : Nat) => maskOf fun j => m.getLsbD j && (g.laneW (wideTy t) a.toNat j == g.laneW (wideTy t) a.toNat l)
        g.writeDst .n32 (.lane d) m fun l => (if all then (if eq l = m then m else 0) else eq l).setWidth 64) p sec))

/-- R178 to R180: any function of three predicates, and predicates gathered into and scattered from a register. -/
def Sys2Proof.Says.PredicateMoves : Prop :=
  (∀ (c : Ctl) (d a b e : PReg) (lut : BitVec 8) (s : State) (g : Group) (p : Path) (sec : Bool),
    Issues s (.pset c d a b e lut) c g p sec →
      exec (.pset c d a b e lut) s = .next (advance s (g.writePred d (guardOf g p c) fun l =>
        lut.getLsbD ((g.predVal a l).toNat + 2 * (g.predVal b l).toNat + 4 * (g.predVal e l).toNat)) p sec)) ∧
  (∀ (c : Ctl) (d : Dst) (mask : BitVec 8) (s : State) (g : Group) (p : Path) (sec : Bool),
    Issues s (.p2s c d mask) c g p sec →
      exec (.p2s c d mask) s = .next (advance s (g.writeDst .n32 d (guardOf g p c) fun l => fromBits 32 fun n =>
        mask.getLsbD n && (match d with
          | .lane _ => decide (n < 8) && (g.pred n).getLsbD l
          | .uni _ => decide (n < 4) && g.upred n)) p sec)) ∧
  (∀ (c : Ctl) (a : RSrc) (mask : BitVec 8) (s : State) (g : Group) (p : Path) (sec : Bool),
    Issues s (.s2p c false a mask) c g p sec → mwf (0 : Lanes) g.p = true →
      ∃ h, exec (.s2p c false a mask) s = .next (advance s { g with p := h } p sec) ∧
        (∀ n, n < 7 → ∀ l, l < 32 → (mget 0 h n).getLsbD l =
          if mask.getLsbD n && (guardOf g p c).getLsbD l then (rsrcVal g false a l).getLsbD n else (g.pred n).getLsbD l)) ∧
  (∀ (c : Ctl) (a : RSrc) (mask : BitVec 8) (s : State) (g : Group) (p : Path) (sec : Bool),
    Issues s (.s2p c true a mask) c g p sec →
      ∃ q, exec (.s2p c true a mask) s = .next (advance s { g with q := q } p sec) ∧
        (∀ n, n < 4 → q.getLsbD n =
          if mask.getLsbD n ∧ guardOf g p c ≠ 0 then (rsrcVal g false a 0).getLsbD n else g.upred n))

/-- R172 to R180: exchange, votes, scans, reductions and matches between lanes, and moves between predicates and registers. -/
def Obligations.CrossLaneAndPredicateResults : Prop := CrossLanes ∧ PredicateMoves

/-! ### Control flow (R20, R21, R144 to R154) -/

namespace Sys2Proof.Says

/-- A path at its next word: out of its clause after the clause's last word (R144). -/
def onward (p : Path) : Path :=
  { p with
    pc := p.pc + 1
    issued := p.issued + 1
    clause := p.clause.bind fun k => if p.pc = k.at_ + k.h.len.setWidth 64 then none else some k }

/-- A path after a transfer of control: at the target, in no clause. -/
def jump (p : Path) (t : Word64) : Path := { p with pc := t, issued := p.issued + 1, clause := none }

/-- A group with the path of a slot replaced. -/
def onPath (g : Group) (sec : Bool) (p : Path) : Group := if sec then { g with p1 := some p } else { g with p0 := some p }

/-- A group as it stands in the state. -/
def stored (s : State) (g : Group) : State := { s with groups := modifyKey (fun x => x.id) g.id (fun _ => g) s.groups }

/-- The parts of a split: the first in slot `sec`, the next in the other slot where that is free, the rest on the stack in their order; each
part has a program order of its own (R20, R146, R265), and counts its instructions from 0 on (log 96). -/
def parted (g : Group) (sec : Bool) (ps : List Path) (jr : Option Nat) : Group :=
  let qs := ps.mapIdx fun i q => { q with jr := jr, thr := g.nextThr + i, hist := (g.nextThr + i) :: q.hist, issued := 0 }
  let h := { g with nextThr := g.nextThr + ps.length }
  match qs, g.path? (!sec) with
  | a :: b :: r, none => { onPath (onPath h sec a) (!sec) b with stack := r ++ g.stack }
  | a :: r, _ => { onPath h sec a with stack := r ++ g.stack }
  | [], _ => h

/-- The branch is divergent: some active lanes' guards are true and some are not. -/
def Diverges (g : Group) (p : Path) (c : Ctl) : Prop := guardOf g p c ≠ 0 ∧ guardOf g p c ≠ p.mask

/-- A new join record at the point `x`, whose clause's header is `h` (R145, R146). -/
def withRecord (g : Group) (p : Path) (x : Word64) (h : Header) : Group :=
  { g with nextRec := g.nextRec + 1, recs := { id := g.nextRec, pt := x, exp := p.mask, arr := 0, out := p.jr, hd := h } :: g.recs }

/-- The record that a split at a point makes: none without a point, or at the point of the path's own record; else one at the point, whose
clause's header is there with a `RECONV` or `JOIN`, or a `JOIN` alone (R146). -/
def Records (s : State) (g : Group) (p : Path) (sec joinOnly : Bool) (x : Option Word64) (r : Option (Word64 × Header)) : Prop :=
  match x with
  | none => r = none
  | some y => (g.pointOf p = some y ∧ r = none) ∨
      (g.pointOf p ≠ some y ∧ ∃ h, pointCheck s g p sec joinOnly y = .header h ∧ r = some (y, h))

/-- The split of a path into parts, of a group that the instruction has changed to g': with room on the stack, and among the records where
one is made; without it the trap divergence-depth (R20, R146). -/
def Splits (i : Instr) (s : State) (g g' : Group) (p : Path) (sec : Bool) (fm : Lanes) (ps : List Path) (r : Option (Word64 × Header)) :
    Prop :=
  let pushes := ps.length - 1 - (if (g.path? (!sec)).isNone then 1 else 0)
  let room := g.stack.length + pushes ≤ 64 ∧ (r ≠ none → g.recs.length < 64)
  (room → exec i s = .next (stored s (parted (match r with | none => g' | some (y, h) => withRecord g' p y h) sec ps
    (match r with | none => p.jr | some _ => some g.nextRec)))) ∧
  (¬ room → exec i s = .next (s.trapAt g p sec 0x0A fm 0 0))

/-- A point whose two words are no header and no `RECONV` or `JOIN` is operand-class, of every active lane (R146). -/
def BadPoint (i : Instr) (s : State) (g : Group) (p : Path) (sec joinOnly : Bool) (y : Word64) : Prop :=
  g.pointOf p ≠ some y → pointCheck s g p sec joinOnly y = .bad → exec i s = .next (s.trapAt g p sec 0x05 p.mask 0 0)

/-- The target of a lane of `BRX`: its register, or the next word where its guard is false; the lanes of a target, and their part, which
stays in its clause where none of them is guarded (R152). -/
def brxTo (g : Group) (p : Path) (c : Ctl) (a : RSrc) (l : Nat) : Nat :=
  if (guardOf g p c).getLsbD l then (rsrcVal g false a l).toNat else (p.pc + 1).toNat
def brxLanes (g : Group) (p : Path) (c : Ctl) (a : RSrc) (n : Nat) : Lanes :=
  maskOf fun l => p.mask.getLsbD l && brxTo g p c a l == n
def brxPath (g : Group) (p : Path) (c : Ctl) (a : RSrc) (n : Nat) : Path :=
  { (if brxLanes g p c a n &&& guardOf g p c = 0 then onward p else jump p (BitVec.ofNat 64 n)) with mask := brxLanes g p c a n }

/-- The targets of a `BRX`, in increasing order, each once. -/
def BrxTargets (g : Group) (p : Path) (c : Ctl) (a : RSrc) (ts : List Nat) : Prop :=
  ts.Pairwise (· < ·) ∧ ∀ n, n ∈ ts ↔ ∃ l, l < 32 ∧ p.mask.getLsbD l = true ∧ brxTo g p c a l = n

end Sys2Proof.Says

/-- R20, R150, R152 to R154: branches that do not divide their path. `BRA`, `CALL`, `RET` and `LOOP` with a uniform guard, and
`BRX` where every active lane has one target, whatever its guard. -/
def Obligations.UniformControlTransfers : Prop :=
  (∀ (c : Ctl) (disp : BitVec 32) (rcv : BitVec 24) (s : State) (g : Group) (p : Path) (sec : Bool),
    Issues s (.bra c disp rcv) c g p sec → p.mask ≠ 0 → ¬ Diverges g p c →
      exec (.bra c disp rcv) s = .next (stored s (onPath g sec
        (if guardOf g p c = 0 then onward p else jump p (p.pc + disp.signExtend 64))))) ∧
  (∀ (c : Ctl) (n : BitVec 6) (disp : BitVec 32) (s : State) (g : Group) (p : Path) (sec : Bool),
    Issues s (.call c n disp) c g p sec → ¬ Diverges g p c →
      exec (.call c n disp) s = .next (stored s (
        if guardOf g p c = 0 then onPath g sec (onward p)
        else onPath (if n = 63 then g else { g with s := mset 0 g.s n.toNat (p.pc + 1) }) sec
          (jump p (p.pc + disp.signExtend 64))))) ∧
  (∀ (c : Ctl) (n : BitVec 6) (s : State) (g : Group) (p : Path) (sec : Bool), Issues s (.ret c n) c g p sec →
      exec (.ret c n) s = .next (stored s (onPath g sec (if guardOf g p c = 0 then onward p else jump p (g.uni n.toNat))))) ∧
  (∀ (c : Ctl) (n : BitVec 6) (disp : BitVec 32) (s : State) (g : Group) (p : Path) (sec : Bool),
    Issues s (.loop c n disp) c g p sec →
      exec (.loop c n disp) s = .next (stored s (
        if guardOf g p c = 0 then onPath g sec (onward p)
        else
          let v := if n = 63 then BitVec.allOnes 64 else mget 0 g.s n.toNat - 1
          onPath (if n = 63 then g else { g with s := mset 0 g.s n.toNat v }) sec
            (if v = 0 then onward p else jump p (p.pc + disp.signExtend 64))))) ∧
  (∀ (c : Ctl) (a : RSrc) (point : BitVec 32) (n : Nat) (s : State) (g : Group) (p : Path) (sec : Bool),
    Issues s (.brx c a point) c g p sec → BrxTargets g p c a [n] →
      exec (.brx c a point) s = .next (stored s (onPath g sec
        (if guardOf g p c = 0 then onward p else jump p (BitVec.ofNat 64 n)))))

/-- R20, R146, R152, R153: branches that divide their path, with the record that their point makes, or the traps divergence-depth and
operand-class. `BRA` and `CALL` make two parts, the taken one first, and `CALL` keeps the next word, which is its point, in its register; `BRX`
makes one part for each target, in increasing order. -/
def Sys2Proof.Says.DivergentBranchSplits : Prop :=
  (∀ (c : Ctl) (disp : BitVec 32) (rcv : BitVec 24) (r : Option (Word64 × Header)) (s : State) (g : Group) (p : Path) (sec : Bool),
    Issues s (.bra c disp rcv) c g p sec → Diverges g p c →
      (Records s g p sec false (if rcv = 0 then none else some (p.pc + rcv.signExtend 64)) r →
        Splits (.bra c disp rcv) s g g p sec (guardOf g p c)
          [{ jump p (p.pc + disp.signExtend 64) with mask := guardOf g p c }, { onward p with mask := p.mask &&& ~~~(guardOf g p c) }] r) ∧
      (rcv ≠ 0 → BadPoint (.bra c disp rcv) s g p sec false (p.pc + rcv.signExtend 64))) ∧
  (∀ (c : Ctl) (n : BitVec 6) (disp : BitVec 32) (r : Option (Word64 × Header)) (s : State) (g : Group) (p : Path) (sec : Bool),
    Issues s (.call c n disp) c g p sec → Diverges g p c →
      (Records s g p sec false (some (p.pc + 1)) r →
        Splits (.call c n disp) s g (if n = 63 then g else { g with s := mset 0 g.s n.toNat (p.pc + 1) }) p sec (guardOf g p c)
          [{ jump p (p.pc + disp.signExtend 64) with mask := guardOf g p c }, { onward p with mask := p.mask &&& ~~~(guardOf g p c) }] r) ∧
      BadPoint (.call c n disp) s g p sec false (p.pc + 1)) ∧
  (∀ (c : Ctl) (a : RSrc) (point : BitVec 32) (ts : List Nat) (r : Option (Word64 × Header)) (s : State) (g : Group) (p : Path) (sec : Bool),
    Issues s (.brx c a point) c g p sec → BrxTargets g p c a ts → 2 ≤ ts.length →
      (Records s g p sec true (if point = 0 then none else some (p.pc + point.signExtend 64)) r →
        Splits (.brx c a point) s g g p sec p.mask (ts.map (brxPath g p c a)) r) ∧
      (point ≠ 0 → BadPoint (.brx c a point) s g p sec true (p.pc + point.signExtend 64)))

/-- R21, R147: `RECONV` and `JOIN` with no record at this point go on; at its point the path's lanes arrive, and the last
arrival closes the record with the merged path in its slot, while an earlier one leaves its slot to the stack. -/
def Sys2Proof.Says.ReconvergenceMerges : Prop :=
  ∀ (mk : Ctl → Instr), (mk = (fun c => .reconv c) ∨ mk = (fun c => .join c)) →
    ∀ (c : Ctl) (s : State) (g : Group) (p : Path) (sec : Bool), Issues s (mk c) c g p sec →
      (g.pointOf p ≠ some (p.pc - 1) → exec (mk c) s = .next (stored s (onPath g sec (onward p)))) ∧
      (∀ (k : Nat) (j : JoinRec), p.jr = some k → findKey (fun r => r.id) k g.recs = some j → j.pt = p.pc - 1 →
        (j.exp &&& ~~~(j.arr ||| p.mask) = 0 →
          ∃ hist, exec (mk c) s = .next (stored s (onPath
            { g with recs := g.recs.filter fun r => r.id ≠ k, nextThr := g.nextThr + 1 } sec
            { onward p with mask := j.arr ||| p.mask, jr := j.out, thr := g.nextThr, hist := hist })) ∧
            ∀ x, x ∈ hist ↔ x = g.nextThr ∨ x ∈ p.hist ∨ x ∈ j.hist) ∧
        (j.exp &&& ~~~(j.arr ||| p.mask) ≠ 0 → ∃ t h, exec (mk c) s = .next (stored s h) ∧
          h.recs = modifyKey (fun r => r.id) k (fun r => { r with arr := j.arr ||| p.mask, hist := t }) g.recs ∧
          (∀ x, x ∈ t ↔ x ∈ p.hist ∨ x ∈ j.hist) ∧
          h = { g with recs := h.recs, stack := h.stack, p0 := h.p0, p1 := h.p1 } ∧ h.path? (!sec) = g.path? (!sec) ∧
          match g.stack with
          | [] => h.path? sec = none ∧ h.stack = []
          | top :: rest => h.path? sec = some { top with issued := 0 } ∧ h.stack = rest))

/-- R20, R21, R146, R147, R152, R153: branches that divide their path, and the points where its parts meet again. That each part, and a
path that comes from the stack, has issued nothing yet for the count of R21, while the merged path keeps its count, is the model's reading
(log 96). -/
def Obligations.DivergenceAndReconvergence : Prop := DivergentBranchSplits ∧ ReconvergenceMerges

/-- R57 to R59, R61, R144, R217, R372: a path enters a well-formed header whose flags read clear at the next word, or where a return from a
trap continues it, and a waiting one does not move. A malformed header, one whose clause runs past the segment's end, and one with a header
among its counted words take their traps, the end before any counted word is fetched (log 109); a path that meets a header inside a clause
takes header-in-count; a path in no clause whose word is no header, or lies past the end, does not get that far. -/
def Obligations.ClauseEntry : Prop :=
  (∀ (h : Header) (s : State) (g : Group) (p : Path) (sec : Bool),
    s.cur = some { gid := g.id, second := sec } → s.group? g.id = some g → g.path? sec = some p →
      (p.clause = none → g.deferred = [] →
        let good := 0 < h.len.toNat ∧ h.rsv = 0 ∧ (h.f0v = true → h.f0n.toNat ≤ 11) ∧ (h.f1v = true → h.f1n.toNat ≤ 11 ∧ h.f0v = true) ∧
          (h.f0v = true → h.f1v = true → h.f0n ≠ h.f1n)
        let word := fun (k : Nat) => s.codeWord g (s.codeBase g) (p.pc + 1 + BitVec.ofNat 64 k)
        (¬ good → exec (.clause h) s = .next (s.trapAt g p sec 0x10 p.mask 0 0)) ∧
        (good → 2 ^ 20 ≤ p.pc.toNat + h.len.toNat → exec (.clause h) s = .next (s.trapAt g p sec 0x11 p.mask 0 0)) ∧
        (good → p.pc.toNat + h.len.toNat < 2 ^ 20 →
          ((∀ k, k < h.len.toNat → ∃ w, word k = .ok w ∧ w >>> 88 ≠ 0xF0#96) →
            ((∀ k, k < 12 → h.wait.getLsbD k = true → g.flag k = 0) → exec (.clause h) s =
              .next (stored s (onPath g sec
                { p with pc := p.resume.getD (p.pc + 1), clause := some { at_ := p.pc, h := h }, resume := none }))) ∧
            ((∃ k, k < 12 ∧ h.wait.getLsbD k = true ∧ g.flag k ≠ 0) → exec (.clause h) s = .next s)) ∧
          (∀ k w, k < h.len.toNat → (∀ j, j < k → ∃ w, word j = .ok w ∧ w >>> 88 ≠ 0xF0#96) → word k = .ok w → w >>> 88 = 0xF0#96 →
            let at_ := p.pc + 1 + BitVec.ofNat 64 k
            exec (.clause h) s = .next (s.takeTrap g sec
              { code := 0x12, fpc := at_, pc := at_, hdr := p.pc, amask := p.mask, fmask := p.mask })))) ∧
      (∀ k, p.clause = some k → exec (.clause h) s = .next (s.trapAt g p sec 0x12 p.mask 0 0))) ∧
  (∀ (s : State) (g : Group) (p : Path) (sec : Bool) (w : Word96), s.uncorr = [] →
    (2 ^ 20 ≤ p.pc.toNat → s.fetchAt g p sec = .done (s.trapAt g p sec 0x11 p.mask 0 0)) ∧
    (p.pc.toNat < 2 ^ 20 → p.clause = none → s.codeWord g (s.codeBase g) p.pc = .ok w → w >>> 88 ≠ 0xF0#96 →
      s.fetchAt g p sec = .done (s.trapAt g p sec 0x13 p.mask 0 0)))

/-! ### No-operations, special registers, time (R17, R21, R195, R208, R209, R250, R251) -/

namespace Sys2Proof.Says

/-- The place of field f of `%wid`: its lowest bit (R10). -/
def fieldLow (ws : List Nat) (f : Nat) : Nat := (ws.take f).sum

/-- The value that `RDS` gives, by the numbers of R17; lane l. -/
def special (s : State) (g : Group) (l : Nat) (n : Nat) : Option Word64 :=
  let nat := fun (k : Nat) => some (BitVec.ofNat 64 k)
  let arr := match s.partOfEp g.ep with | some k => leadOf (s.part k).fus (quadOf g.ep) | none => quadOf g.ep
  match n with
  | 0x00 => nat l
  | 0x01 => nat (g.ep % 64)
  | 0x02 => nat (g.ep / 64)
  | 0x03 => nat ((if g.ep % 64 < 32 then 0 else 1) + (if g.ep / 64 < 16 then 0 else 2))
  | 0x04 => nat g.tenant
  | 0x05 => nat g.stg
  | 0x08 => some (BitVec.ofInt 64 (s.clock + if (s.part g.part).lockstep then (s.part g.part).clockOffset else 0))
  | 0x09 => some g.wid
  | 0x10 => some (g.srseed.setWidth 64)
  | 0x11 => some (g.fmask.setWidth 64)
  | 0x80 => some ((mget 0x37800000#32 s.ckrel arr).setWidth 64)
  | 0x81 => some ((mget 0x00800000#32 s.ckabs arr).setWidth 64)
  | 0x82 => some ((mget 0#32 s.ckfix arr).setWidth 64)
  | 0x83 => some (s.part g.part).stgbase
  | 0x84 => nat g.part
  | 0x85 => nat (s.part g.part).shp
  | _ =>
    if 0x0A ≤ n ∧ n ≤ 0x0F then
      nat (g.wid.toNat / 2 ^ fieldLow (s.hdrOf g).wf (n - 0x0A) % 2 ^ (s.hdrOf g).wf.getD (n - 0x0A) 0)
    else if 0x40 ≤ n ∧ n ≤ 0x7F then some ((mget 0#32 g.beta (n - 0x40)).setWidth 64)
    else none

/-- Registers 0x08 and 0x09 (the clock and the work identifier), 0x0A to 0x0F and 0x83 are 64 bits wide. -/
def wide64 (n : Nat) : Bool := spWide (BitVec.ofNat 8 n)

end Sys2Proof.Says

/-- R209, R21: `NOP`, `YIELD` and `SLEEP` complete, a sleeping group wakes when its cycles have passed and not before, and a
path that has issued 4,096 instructions changes places with the top of the stack, in a group that neither waits nor is on its
way to its handler. That a group which yields is passed over for 32 cycles after the next (log 64), and that the count takes in what a path
issued while the stack was empty (log 96), are the model's readings. -/
def Obligations.YieldSleepAndSwap : Prop :=
  (∀ (c : Ctl) (s : State) (g : Group) (p : Path) (sec : Bool), Issues s (.nop c) c g p sec →
    exec (.nop c) s = .next (stored s (onPath g sec (onward p)))) ∧
  (∀ (c : Ctl) (s : State) (g : Group) (p : Path) (sec : Bool), Issues s (.yld c) c g p sec →
    exec (.yld c) s = .next (stored s (onPath
      (if guardOf g p c = 0 then g else { g with yieldUntil := s.clock + 33 }) sec (onward p)))) ∧
  (∀ (c : Ctl) (v : USrc) (s : State) (g : Group) (p : Path) (sec : Bool), Issues s (.sleep c v) c g p sec →
    exec (.sleep c v) s = .next (stored s (onPath
      (let n := (match v with | .uni r => g.uni r.toNat | .imm i => i.setWidth 64).toNat % 2 ^ 32
       if guardOf g p c = 0 ∨ n = 0 then g else { g with wait := .sleep (s.clock + n) }) sec (onward p)))) ∧
  (∀ (k u : Nat) (s : State) (g : Group), s.group? k = some g → g.wait = .sleep u →
    exec (.sleepExpiry k) s = .next (if u ≤ s.clock then stored s { g with wait := .none } else s)) ∧
  (∀ (k : Nat) (sec : Bool) (s : State) (g : Group) (p top : Path) (rest : List Path), s.group? k = some g →
    g.path? sec = some p → g.stack = top :: rest → 4096 ≤ p.issued →
    exec (.pathSwap k sec) s = .next (if g.wait = .none ∧ g.trap = none
      then stored s (onPath { g with stack := p :: rest } sec { top with issued := 0 }) else s))

/-- R17, R87, R208, R250, R251: `RDS` gives the special register's value, `WRS` writes it from the lowest guarded lane (the seed
register seeds both generators), and `WIDX` composes work identifiers. -/
def Obligations.SpecialRegistersAndIdentifiers : Prop :=
  (∀ (c : Ctl) (d : Dst) (x : BitVec 8) (s : State) (g : Group) (p : Path) (sec : Bool), Issues s (.rds c d x) c g p sec →
    exec (.rds c d x) s = .next (stored s (onPath
      (g.writeDst (if wide64 x.toNat then .n64 else .n32) d (guardOf g p c) fun l => (special s g l x.toNat).getD 0)
      sec (onward p)))) ∧
  (∀ (c : Ctl) (x : BitVec 8) (b : Src) (l : Nat) (s : State) (g : Group) (p : Path) (sec : Bool),
    Issues s (.wrs c x b) c g p sec → ConstReady s g (guardOf g p c) (if wide64 x.toNat then 8 else 4) b →
      l < 32 → (guardOf g p c).getLsbD l = true → (∀ k, k < l → (guardOf g p c).getLsbD k = false) →
      let v := srcVal s g (wide64 x.toNat) false (if wide64 x.toNat then 8 else 4) b l
      let w : Word32 := v.setWidth 32
      let arr := match s.partOfEp g.ep with | some k => leadOf (s.part k).fus (quadOf g.ep) | none => quadOf g.ep
      (x = 0x10 → exec (.wrs c x b) s = .next (stored s (onPath
        { g with srseed := w, gAlu := if w = 0 then 0x9E3779B9#32 else w,
                 gFma := if w = 0x6C8E9CF5#32 then 0x9E3779B9#32 else w ^^^ 0x6C8E9CF5#32 } sec (onward p)))) ∧
      (0x40 ≤ x.toNat → x.toNat ≤ 0x7F → exec (.wrs c x b) s =
        .next (stored s (onPath { g with beta := mset 0 g.beta (x.toNat - 0x40) w } sec (onward p)))) ∧
      (x = 0x80 → exec (.wrs c x b) s =
        .next (stored { s with ckrel := mset 0x37800000#32 s.ckrel arr w } (onPath g sec (onward p)))) ∧
      (x = 0x81 → exec (.wrs c x b) s =
        .next (stored { s with ckabs := mset 0x00800000#32 s.ckabs arr w } (onPath g sec (onward p)))) ∧
      (x = 0x83 → exec (.wrs c x b) s = .next (stored
        { s with parts := mset {} s.parts g.part { s.part g.part with stgbase := v } } (onPath g sec (onward p))))) ∧
  (∀ (c : Ctl) (x : BitVec 8) (b : Src) (s : State) (g : Group) (p : Path) (sec : Bool), Issues s (.wrs c x b) c g p sec →
    guardOf g p c = 0 → exec (.wrs c x b) s = .next (stored s (onPath g sec (onward p)))) ∧
  (∀ (c : Ctl) (ext : Bool) (d : Dst) (a b : RSrc) (f : BitVec 3) (s : State) (g : Group) (p : Path) (sec : Bool),
    Issues s (.widx c ext d a b f) c g p sec →
      exec (.widx c ext d a b f) s = .next (stored s (onPath (g.writeDst .n64 d (guardOf g p c) fun l =>
        let lo := fieldLow (s.hdrOf g).wf f.toNat
        let w := (s.hdrOf g).wf.getD f.toNat 0
        let x := rsrcVal g true a l
        if ext then fromBits 64 fun i => decide (i < w) && x.getLsbD (lo + i)
        else fromBits 64 fun i =>
          if lo ≤ i ∧ i < lo + w then (rsrcVal g true b l).getLsbD (i - lo) else x.getLsbD i) sec (onward p))))

/-! ### Issue of memory, barrier, ring, channel and launch instructions (R24, R182 to R209, R262) -/

namespace Sys2Proof.Says

/-- The lanes of a mask, lowest first. -/
def laneList (m : Lanes) : List Nat := (List.range 32).filter fun l => m.getLsbD l

/-- No fence, `AFENCE` or `COMMIT` before this path's next instruction is still to be performed (R193, R194). -/
def Unfenced (g : Group) (p : Path) : Prop := ∀ x ∈ g.iq, isFence x = true → x.thr ∉ p.hist

/-- No `BINIT`, `RINIT` or `BINV` of the group is still to be performed. -/
def NoInit (g : Group) : Prop :=
  ∀ x ∈ g.iq, (∀ o v, x.kind ≠ .binit o v) ∧ (∀ o v, x.kind ≠ .rinit o v) ∧ (∀ o, x.kind ≠ .binv o)

/-- The group after n operations have joined its queue, with an outstanding record where one is kept, whose flag rises (R24). -/
def begun (g : Group) (k : Nat) (track : Bool) (flag : Option Nat) (dst : ResDst) (pend : Lanes) (noted : Bool)
    (ops : List MemOp) : Group :=
  { g with
    iq := g.iq ++ ops.mapIdx fun j x => { x with id := k + 1 + j }
    outst := if track then { instr := k, flag := flag, dst := dst, pend := pend } :: g.outst else g.outst
    flags := match flag with | some n => if track then mset 0 g.flags n (mget 0 g.flags n + 1) else g.flags | none => g.flags
    sinceMark := g.sinceMark || noted }

/-- The instruction completes its issue: its operations, which have identities already, join the queue and its path moves on. Nothing of
the machine changes but the group, the numbering, cached translations and what its tenants' energy accounts say: no register and no byte
of memory or of a local store is written. -/
def Queues (i : Instr) (s : State) (g : Group) (p : Path) (sec track : Bool) (flag : Option Nat) (dst : ResDst) (pend : Lanes)
    (noted : Bool) (ops : List MemOp) : Prop :=
  ∃ t, exec i s = .next t ∧
    t = { s with nextId := s.nextId + 33, tlb := t.tlb, parts := t.parts,
                 groups := modifyKey (fun x => x.id) g.id
                   (fun _ => onPath { begun g s.nextId track flag dst pend noted [] with iq := g.iq ++ ops } sec (onward p)) s.groups } ∧
    (mwf ({} : Partition) s.parts = true → ∀ k, t.part k = { s.part k with tenants := (t.part k).tenants })

/-- The lanes of an access: a uniform result is fetched once. -/
def accessLanes (uni : Bool) (m : Lanes) : List Nat := if uni then [0] else laneList m

/-- A device-memory access by lanes: n bytes from each lane's address, each translated for what the access needs, with a free entry
in the EP's fault buffer (R259). It queues one operation a lane; one that is to commit a restartable block first is noted. -/
def DeviceQueues (i : Instr) (c : Ctl) (n : Nat) (base : BitVec 6) (ix : MemIx) (rd wr : Bool) (dst : ResDst) (uni acq rel : Bool)
    (sc : Scope) (commits noted : Bool) (kind : Group → Nat → MKind) : Prop :=
  ∀ (s : State) (g : Group) (p : Path) (sec : Bool), Issues s i c g p sec → guardOf g p c ≠ 0 → Unfenced g p →
    s.faultRoom g.ep = true →
    (∀ l ∈ accessLanes uni (guardOf g p c), devAddr g base ix l % n = 0 ∧ ∀ k, k < n →
      (rd = true → ∃ pa, s.trGroup g .read (devAddr g base ix l + k) = .ok pa) ∧
      (wr = true → ∃ pa, s.trGroup g .write (devAddr g base ix l + k) = .ok pa)) →
    Queues i s g p sec (decide (dst ≠ .none)) (flagOf p c) dst (if uni then 1 else guardOf g p c)
      (noted || (commits && s.restartable g.block))
      ((accessLanes uni (guardOf g p c)).map fun l =>
        let a := devAddr g base ix l
        let pa := fun k => match s.trGroup g (if wr then .write else .read) (a + k) with | .ok pa => pa | _ => 0
        { id := s.nextId + 1 + l, instr := s.nextId, lane := l, thr := p.thr, hist := p.hist, acq := acq, rel := rel, com := commits, sc := sc,
          pas := (List.range n).map pa, locs := (List.range n).map fun k => g.loc (a + k) (pa k), kind := kind g l,
          views := if wr then g.fenceViews else [] })

/-- A local-store access by lanes through a window, inside the launch's range; a store does not touch a live object. -/
def StoreQueues (i : Instr) (c : Ctl) (n : Nat) (w : Win) (a : RSrc) (ix : MemIx) (wr : Bool) (dst : ResDst) (uni : Bool)
    (noted : Bool) (kind : Group → Nat → MKind) : Prop :=
  ∀ (s : State) (g : Group) (p : Path) (sec : Bool) (e : Nat), Issues s i c g p sec → guardOf g p c ≠ 0 → Unfenced g p →
    NoInit g → s.winPos g w = some e →
    (∀ l ∈ accessLanes uni (guardOf g p c), locOff g a ix l % n = 0 ∧ locOff g a ix l + n ≤ (s.rangeOf g.launch).2 ∧
      (wr = true → s.isHole e = false → ∀ k, k < n → s.liveAt e ((s.rangeOf g.launch).1 + locOff g a ix l + k) = false)) →
    Queues i s g p sec (decide (dst ≠ .none)) (flagOf p c) dst (if uni then 1 else guardOf g p c)
      (noted || (wr && decide (w ≠ .own) && s.restartable g.block))
      ((accessLanes uni (guardOf g p c)).map fun l =>
        let off := (s.rangeOf g.launch).1 + locOff g a ix l
        { id := s.nextId + 1 + l, instr := s.nextId, lane := l, thr := p.thr, hist := p.hist, com := wr && decide (w ≠ .own),
          pas := if s.isHole e then (List.range n).map fun k => s.shadowPa g.part g.tenant e (off + k) else [],
          locs := (List.range n).map fun k => 2 ^ 63 + e * 2 ^ 19 + (off + k), kind := kind g l,
          views := if wr then g.fenceViews else [] })

/-- Where a load of a type writes, and what a lane stores. -/
def dstOf (t : Ty) : Dst → ResDst
  | .lane r => .lane r.toNat (wideTy t)
  | .uni r => .uni r.toNat
def uniOf : Dst → Bool
  | .uni _ => true
  | _ => false
def bytesOf (n : Nat) (x : Word64) : List Byte := (List.range n).map fun k => BitVec.ofNat 8 (x.toNat / 256 ^ k)

/-- The low bits of an atomic's value and compare operands (R188). -/
def atomArgs (t : Ty) (g : Group) (l : Nat) : AtomVal → Word64 × Word64
  | .imm v => (BitVec.ofNat 64 ((v.signExtend 64 : Word64).toNat % 2 ^ (8 * tyBytes t)), 0)
  | .reg v k =>
    (BitVec.ofNat 64 ((rsrcVal g (wideTy t) v l).toNat % 2 ^ (8 * tyBytes t)),
      BitVec.ofNat 64 ((rsrcVal g (wideTy t) k l).toNat % 2 ^ (8 * tyBytes t)))

/-- An instruction of the whole group that queues one operation, with a record where it has a result or sets a flag. -/
def QueuesOne (i : Instr) (s : State) (g : Group) (p : Path) (sec : Bool) (flag : Option Nat) (dst : ResDst) (pend : Lanes)
    (noted : Bool) (x : MemOp) : Prop :=
  exec i s = .next { s with
    nextId := s.nextId + 2
    groups := modifyKey (fun x => x.id) g.id (fun _ =>
      onPath (begun g s.nextId (decide (flag ≠ none ∨ dst ≠ .none)) flag dst pend noted
        [{ x with instr := s.nextId, thr := p.thr, hist := p.hist }]) sec (onward p)) s.groups }

/-- The object that an object instruction names is there: 16-byte aligned, inside the launch's range, in no hole, and live
where the instruction needs that (R182, R197). -/
def ObjectAt (s : State) (g : Group) (w : Win) (a : BitVec 6) (live : Bool) (o : Obj) : Prop :=
  s.winPos g w = some o.ep ∧ s.isHole o.ep = false ∧
    o.off = (s.rangeOf g.launch).1 + (g.uni a.toNat).toNat % 2 ^ 32 ∧ (g.uni a.toNat).toNat % 16 = 0 ∧
    (g.uni a.toNat).toNat % 2 ^ 32 + 16 ≤ (s.rangeOf g.launch).2 ∧ (live = true → s.liveAt o.ep o.off = true)

/-- A barrier or ring instruction on an object that is there queues its operation on the object's sixteen locations; one that reaches
beyond the block is to commit a restartable one first, and is noted (R184). -/
def ObjectQueues (i : Instr) (c : Ctl) (w : Win) (sc : Scope) (a : BitVec 6) (live noted acq rel : Bool) (ok : State → Group → Prop)
    (dst : Group → Path → ResDst × Lanes) (kind : Group → Obj → MKind) : Prop :=
  ∀ (s : State) (g : Group) (p : Path) (sec : Bool) (o : Obj), Issues s i c g p sec → guardOf g p c ≠ 0 → Unfenced g p →
    NoInit g → ObjectAt s g w a live o → ok s g →
    let far := decide (w ≠ .own ∨ Scope.rank .blk < Scope.rank sc)
    QueuesOne i s g p sec (flagOf p c) (dst g p).1 (dst g p).2 (noted || (far && s.restartable g.block))
      { id := 0, instr := 0, lane := 0, thr := 0, hist := [], acq := acq, rel := rel, com := far, sc := sc,
        locs := (List.range 16).map fun k => 2 ^ 63 + o.ep * 2 ^ 19 + (o.off + k), kind := kind g o }

/-- The destination of a predicate result, and no result. -/
def toPred (c : Ctl) (d : PReg) (g : Group) (p : Path) : ResDst × Lanes :=
  match d with
  | .lane n => (.lpred n.toNat, guardOf g p c)
  | .uni q => (.upred q.toNat, 1)
def toNone : Group → Path → ResDst × Lanes := fun _ _ => (.none, 1)
def toUni (d : BitVec 6) : Group → Path → ResDst × Lanes := fun _ _ => (.uni d.toNat, 1)

/-- The value of a uniform or immediate operand, within 1 to a limit. -/
def usrcNat (g : Group) : USrc → Nat
  | .uni r => (g.uni r.toNat).toNat
  | .imm v => v.toNat
def upTo (lim : Nat) (v : USrc) : State → Group → Prop := fun _ g => 0 < usrcNat g v ∧ usrcNat g v ≤ lim
def always : State → Group → Prop := fun _ _ => True

/-- The parameters of a ring (R109, R202): reserved bits clear, BASE 32-byte aligned, slots inside the range. -/
def ringOk (m : BitVec 6) (s : State) (g : Group) : Prop :=
  let v := (g.uni m.toNat).toNat
  v / 2 ^ 39 = 0 ∧ v / 2 ^ 19 % 32 = 0 ∧
    v / 2 ^ 19 % 2 ^ 19 + (v % 2 ^ 11 + 1) * ((v / 2 ^ 11 % 2 ^ 8 + 1) * 32) ≤ (s.rangeOf g.launch).2

end Sys2Proof.Says

/-- R182 to R189, R262: loads, stores and atomics of device memory queue one operation for every lane whose guard is true, and
write nothing yet; `PREF` has no visible effect. -/
def Obligations.DeviceAccessesQueue : Prop :=
  (∀ c t sc o d base ix, DeviceQueues (.ld c t sc o d base ix) c (tyBytes t) base ix true false (dstOf t d) (uniOf d)
    (decide (o = .acq ∨ o = .ar)) false sc false false fun _ _ => .load (tyBytes t) (signedTy t)) ∧
  (∀ c t sc o d base ix, DeviceQueues (.st c t sc o d base ix) c (tyBytes t) base ix false true .none false false
    (decide (o = .rel ∨ o = .ar)) sc (decide ((o = .rel ∨ o = .ar) ∧ Scope.rank .blk < Scope.rank sc)) false
    fun g l => .store (bytesOf (tyBytes t) (g.laneW (wideTy t) d.toNat l))) ∧
  (∀ c t sc o d base ix op f v, DeviceQueues (.atom c t sc o d base ix op f v) c (tyBytes t) base
    (match ix with | some r => .idx r | none => .off 0) true true (dstOf t d) (uniOf d) (decide (o = .acq ∨ o = .ar))
    (decide (o = .rel ∨ o = .ar)) sc true true
    fun g l => .atom t op f (atomArgs t g l v).1 (atomArgs t g l v).2 true) ∧
  (∀ c t sc o base ix op f v, DeviceQueues (.red c t sc o base ix op f v) c (tyBytes t) base
    (match ix with | some r => .idx r | none => .off 0) true true .none false false (decide (o = .rel ∨ o = .ar)) sc true true
    fun g l => .atom t op f (atomArgs t g l v).1 (atomArgs t g l v).2 false) ∧
  (∀ (c : Ctl) (tb : Bool) (base : BitVec 6) (ix : MemIx) (s : State) (g : Group) (p : Path) (sec : Bool),
    Issues s (.pref c tb base ix) c g p sec → Unfenced g p →
      ∃ tlb, exec (.pref c tb base ix) s = .next { stored s (onPath g sec (onward p)) with tlb := tlb } ∧
        (tb = false → tlb = s.tlb))

/-- R190 to R192: loads, stores and atomics of a local store through a window, and loads of a constant bank, queue one operation
for every lane; bytes beyond the bank's bound size are not fetched. -/
def Obligations.StoreAccessesQueue : Prop :=
  (∀ c t w d a ix, StoreQueues (.lds c t w d a ix) c (tyBytes t) w a ix false (dstOf t d) (uniOf d) false
    fun _ _ => .lds (tyBytes t) (signedTy t)) ∧
  (∀ c t w d a ix, StoreQueues (.sts c t w d a ix) c (tyBytes t) w a ix true .none false false
    fun g l => .sts (bytesOf (tyBytes t) (g.laneW (wideTy t) d.toNat l))) ∧
  (∀ c t w d a ix op f v, StoreQueues (.atoms c t w d a ix op f v) c (tyBytes t) w a
    (match ix with | some r => .idx r | none => .off 0) true (dstOf t d) (uniOf d) true
    fun g l => .atoms t op f (atomArgs t g l v).1 (atomArgs t g l v).2) ∧
  (∀ (c : Ctl) (t : Ty) (d : Dst) (ix : RSrc) (bank : BitVec 4) (off : BitVec 32) (s : State) (g : Group) (p : Path) (sec : Bool),
    let n := tyBytes t
    let at_ := fun l => off.toNat + (rsrcVal g false ix l).toNat
    let b := (s.hdrOf g).banks.getD bank.toNat (0, 0)
    Issues s (.ldc c t d ix bank off) c g p sec → guardOf g p c ≠ 0 → Unfenced g p → s.faultRoom g.ep = true →
    (∀ l ∈ accessLanes (uniOf d) (guardOf g p c), at_ l % n = 0 ∧ ∀ k, k < n → at_ l + k < b.2 →
      ∃ pa, s.trGroup g .read (b.1 + at_ l + k) = .ok pa) →
    Queues (.ldc c t d ix bank off) s g p sec true (flagOf p c) (dstOf t d) (if uniOf d then 1 else guardOf g p c) false
      ((accessLanes (uniOf d) (guardOf g p c)).map fun l =>
        { id := s.nextId + 1 + l, instr := s.nextId, lane := l, thr := p.thr, hist := p.hist, locs := [], kind := .ldc n (signedTy t),
          pas := (List.range (min n (b.2 - at_ l))).map fun k =>
            match s.trGroup g .read (b.1 + at_ l + k) with | .ok pa => pa | _ => 0 }))

/-- R184, R193, R194: `FENCE`, `AFENCE` and `COMMIT` queue their operation; a `COMMIT` is noted in the since-mark record, and so is one of
the others that is to commit its block first. -/
def Obligations.FencesQueue : Prop :=
  (∀ (c : Ctl) (o : Ord) (sc : Scope) (s : State) (g : Group) (p : Path) (sec : Bool), Issues s (.fence c o sc) c g p sec →
    guardOf g p c ≠ 0 → Unfenced g p →
    let com := decide ((o = .rel ∨ o = .ar) ∧ Scope.rank .blk < Scope.rank sc)
    QueuesOne (.fence c o sc) s g p sec (flagOf p c) .none 1 (com && s.restartable g.block)
      { id := 0, instr := 0, lane := 0, thr := 0, hist := [], com := com, sc := sc, kind := .fence o }) ∧
  (∀ (c : Ctl) (sc : Scope) (s : State) (g : Group) (p : Path) (sec : Bool), Issues s (.afence c sc) c g p sec →
    guardOf g p c ≠ 0 → Unfenced g p →
    let com := decide (Scope.rank .blk < Scope.rank sc)
    QueuesOne (.afence c sc) s g p sec (flagOf p c) .none 1 (com && s.restartable g.block)
      { id := 0, instr := 0, lane := 0, thr := 0, hist := [], com := com, sc := sc, kind := .afence }) ∧
  (∀ (c : Ctl) (s : State) (g : Group) (p : Path) (sec : Bool), Issues s (.commit c) c g p sec →
    guardOf g p c ≠ 0 → Unfenced g p →
    QueuesOne (.commit c) s g p sec (flagOf p c) .none 1 true
      { id := 0, instr := 0, lane := 0, thr := 0, hist := [], sc := .dev, kind := .commit })

/-- R197 to R203: the barrier and ring instructions queue their operation on an object that is there. All but the two that only
look at a barrier are noted in the since-mark record. -/
def Obligations.ObjectInstructionsQueue : Prop :=
  (∀ c w sc a v, ObjectQueues (.binit c w sc a v) c w sc a false true false false (upTo 4095 v) toNone
    fun g o => .binit o (usrcNat g v)) ∧
  (∀ c w sc a v, ObjectQueues (.barr c w sc a v) c w sc a true true false true (upTo 15 v) toNone
    fun g o => .barr o (usrcNat g v)) ∧
  (∀ c w sc a v, ObjectQueues (.bexp c w sc a v) c w sc a true true false false (upTo 0xFFFFFF v) toNone
    fun g o => .bexp o (usrcNat g v)) ∧
  (∀ c w sc d a ph t, ObjectQueues (.bwait c w sc d a ph t) c w sc a true false true false always (toPred c d)
    fun g o => .bwait o ((g.uni ph.toNat).toNat % 16) t.toNat) ∧
  (∀ c w sc d a ph, ObjectQueues (.btry c w sc d a ph) c w sc a true false true false always (toPred c d)
    fun g o => .btry o ((g.uni ph.toNat).toNat % 16)) ∧
  (∀ c w sc a, ObjectQueues (.binv c w sc a) c w sc a true true false false always toNone fun _ o => .binv o) ∧
  (∀ c w sc a m, ObjectQueues (.rinit c w sc a m) c w sc a false true false false (ringOk m) toNone
    fun g o => .rinit o (g.uni m.toNat)) ∧
  (∀ c w sc d a, ObjectQueues (.rres c w sc d a) c w sc a true true false false always (toUni d) fun _ o => .rres o) ∧
  (∀ c w sc a, ObjectQueues (.rpub c w sc a) c w sc a true true false true always toNone fun _ o => .rpub o) ∧
  (∀ c w sc d a, ObjectQueues (.rwait c w sc d a) c w sc a true true true false always (toUni d) fun _ o => .rwait o) ∧
  (∀ c w sc a, ObjectQueues (.rrel c w sc a) c w sc a true true false false always toNone fun _ o => .rrel o)

/-- R184, R204 to R207: `SEND`, `RECV`, `WPULL`, `WPUSH` and `LAUNCH` queue their operation: a `SEND` where the channel has room for it
and what is on its way, a `WPUSH` where an item has room, a `LAUNCH` with the translated bytes of its 640-byte header. `SEND`, `WPUSH` and
`LAUNCH` are to commit a restartable block first. -/
def Obligations.ChannelWorkLaunchQueue : Prop :=
  (∀ (c : Ctl) (rel : Bool) (a ch : BitVec 6) (s : State) (g : Group) (p : Path) (sec : Bool), Issues s (.send c rel a ch) c g p sec →
    guardOf g p c ≠ 0 → Unfenced g p →
    s.chanLen g.launch ch.toNat + s.sendsPending g.launch ch.toNat < (s.hdrOf g).chans.getD ch.toNat 0 →
    QueuesOne (.send c rel a ch) s g p sec (flagOf p c) .none 1 true
      { id := 0, instr := 0, lane := 0, thr := 0, hist := [], rel := rel, com := true, sc := .part, locs := [2 ^ 65 + g.launch * 64 + ch.toNat],
        views := g.fenceViews, kind := .send ch.toNat (g.uni a.toNat) rel }) ∧
  (∀ (c : Ctl) (acq : Bool) (d ch : BitVec 6) (s : State) (g : Group) (p : Path) (sec : Bool), Issues s (.recv c acq d ch) c g p sec →
    guardOf g p c ≠ 0 → Unfenced g p → 0 < (s.hdrOf g).chans.getD ch.toNat 0 →
    QueuesOne (.recv c acq d ch) s g p sec (flagOf p c) (.uni d.toNat) 1 true
      { id := 0, instr := 0, lane := 0, thr := 0, hist := [], acq := acq, sc := .part, locs := [2 ^ 65 + g.launch * 64 + ch.toNat],
        kind := .recv ch.toNat acq }) ∧
  (∀ (c : Ctl) (a : BitVec 6) (s : State) (g : Group) (p : Path) (sec : Bool), Issues s (.wpush c a) c g p sec →
    guardOf g p c ≠ 0 → Unfenced g p → s.pushHeld g = false →
    QueuesOne (.wpush c a) s g p sec (flagOf p c) .none 1 true
      { id := 0, instr := 0, lane := 0, thr := 0, hist := [], com := true, locs := [2 ^ 64 + g.part], views := g.fenceViews,
        kind := .wpush (g.uni a.toNat) }) ∧
  (∀ (c : Ctl) (d : BitVec 6) (s : State) (g : Group) (p : Path) (sec : Bool), Issues s (.wpull c false d 0) c g p sec →
    guardOf g p c ≠ 0 → Unfenced g p →
    QueuesOne (.wpull c false d 0) s g p sec (flagOf p c) (.uni d.toNat) 1 true
      { id := 0, instr := 0, lane := 0, thr := 0, hist := [], locs := [2 ^ 64 + g.part], kind := .wpull false }) ∧
  (∀ (c : Ctl) (d : BitVec 6) (q : BitVec 2) (s : State) (g : Group) (p : Path) (sec : Bool), Issues s (.wpull c true d q) c g p sec →
    guardOf g p c ≠ 0 → Unfenced g p →
    ∃ t h o, exec (.wpull c true d q) s = .next t ∧ t = { s with nextId := s.nextId + 2, groups := modifyKey (fun x => x.id) g.id (fun _ => h) s.groups } ∧
      o = { instr := s.nextId, flag := flagOf p c, dst := .uni d.toNat, pend := 1, qn := some (q.toNat, false) } ∧
      h = onPath { begun g s.nextId true (flagOf p c) (.uni d.toNat) 1 true
        [{ id := 0, instr := s.nextId, lane := 0, thr := p.thr, hist := p.hist, locs := [2 ^ 64 + g.part], kind := .wpull true }]
        with outst := o :: g.outst } sec (onward p)) ∧
  (∀ (c : Ctl) (w : Bool) (d : PReg) (a : BitVec 6) (s : State) (g : Group) (p : Path) (sec : Bool), Issues s (.launch c w d a) c g p sec →
    guardOf g p c ≠ 0 → Unfenced g p → (g.uni a.toNat).toNat % 64 = 0 →
    (g.uni a.toNat).toNat < 2 ^ 56 →
    (∀ k, k < 640 → ∃ pa, s.trGroup g .read ((g.uni a.toNat).toNat + k) = .ok pa) →
    QueuesOne (.launch c w d a) s g p sec (flagOf p c) (toPred c d g p).1 (toPred c d g p).2 true
      (let pa := fun k => match s.trGroup g .read ((g.uni a.toNat).toNat + k) with | .ok pa => pa | _ => 0
       { id := 0, instr := 0, lane := 0, thr := 0, hist := [], rel := true, com := true, sc := .part, pas := (List.range 640).map pa,
         locs := (List.range 640).map fun k => g.loc ((g.uni a.toNat).toNat + k) (pa k), kind := .launch w }))

namespace Sys2Proof.Says

/-- The machine may perform the operation x of group k's queue: it stands there, the group is on its EP, no earlier operation
holds it (R266), and no raised trap waits. -/
def Passes (s : State) (k : Nat) (g : Group) (x : MemOp) : Prop :=
  s.group? k = some g ∧ findKey (fun y => y.id) x.id g.iq = some x ∧ g.evicted = false ∧ g.trap = none ∧
    ∀ y ∈ earlier x g.iq, y.acq = false ∧ x.rel = false ∧ ∀ l ∈ x.locs, l ∉ y.locs

/-- It may be performed as it stands: it has no restartable block to commit first (R184). -/
def MayPerform (s : State) (k : Nat) (g : Group) (x : MemOp) : Prop :=
  Passes s k g x ∧ (x.com = true → s.restartable g.block = false)

/-- The little-endian number of some bytes, and a loaded value extended to 64 bits (R4, R187). -/
def leNat (bs : List Byte) : Nat := bs.foldr (fun b acc => b.toNat + 256 * acc) 0
def extended (n : Nat) (sext : Bool) (v : Nat) : Word64 :=
  BitVec.ofInt 64 (if sext ∧ 2 ^ (8 * n - 1) ≤ v then (v : Int) - 2 ^ (8 * n) else v)

/-- The group once lane l of an instruction has its value, and the operation has left the queue. -/
def answered (g : Group) (x : MemOp) (v : Word64) : Group :=
  { g with
    iq := g.iq.filter fun y => y.id ≠ x.id
    outst := modifyKey (fun o => o.instr) x.instr
      (fun o => { o with ready := o.ready ||| (1#32 <<< x.lane), vals := mset 0 o.vals x.lane v }) g.outst }

/-- The new value of an atomic at the width of its type (R189). -/
def atomSpec (t : Ty) (op : AtomOp) (f : Bool) (old v cmp : Nat) : Nat :=
  let w := 8 * tyBytes t
  let i := fun (x : Nat) => view w (signedTy t) (BitVec.ofNat 64 x)
  match op with
  | .add => if f then rnd .f32 .rne 0 (Ext.add false (dec .f32 old) (dec .f32 v)) else (old + v) % 2 ^ w
  | .min => if f then (minMax false .f32 (BitVec.ofNat 64 old) (BitVec.ofNat 64 v)).toNat else if i v < i old then v else old
  | .max => if f then (minMax true .f32 (BitVec.ofNat 64 old) (BitVec.ofNat 64 v)).toNat else if i old < i v then v else old
  | .and => old &&& v
  | .or => old ||| v
  | .xor => old ^^^ v
  | .exch => v
  | .cas => if old = cmp then v else old

end Sys2Proof.Says

/-- R194, R268, R279: a commit drains every store of its block, in their order, at level `.dev`, each with the commit's view; memory takes
their bytes, the later over the earlier, and no other; the block is restartable no more, and its patch is not relaunched. -/
def Sys2Proof.Says.CommitMakesStores : Prop :=
  ∀ (s : State) (k : Nat) (b : Block), s.block? k = some b → s.memOk → (s.sb.map fun e => e.id).Nodup →
    let es := s.sb.filter fun e => e.blk == k
    let u := s.commitBlock k
    u.sb = s.sb.filter (fun e => e.blk != k) ∧
    (∃ ws : List Write, u.co = s.co ++ ws ∧ ws.length = es.length ∧ ∀ (j : Nat) (w : Write) (e : SbEntry), ws[j]? = some w → es[j]? = some e →
      w.id = e.id ∧ w.who = e.who ∧ w.lvl = .dev ∧ (w.bytes.map fun y => (y.pa, y.loc, y.new)) = e.bytes.map (fun y => (y.pa, y.loc, y.new)) ∧
      ∃ v, w.views = e.views ++ [v] ∧ v.sc = .dev) ∧
    (∀ a, (∀ e ∈ es, ∀ y ∈ e.bytes, y.pa = a → y.all = true) → u.byte a = s.byte a) ∧
    (∀ (older newer : List SbEntry) (e : SbEntry) (xs ys : List WByte) (y : WByte), es = older ++ e :: newer → e.bytes = xs ++ y :: ys → y.all = false →
      (∀ z ∈ ys, z.pa = y.pa → z.all = true) → (∀ f ∈ newer, ∀ z ∈ f.bytes, z.pa = y.pa → z.all = true) → u.byte y.pa = y.new) ∧
    u.restartable k = false ∧ (∀ q, u.patch? b.patch = some q → q.committed = true) ∧ u.groups = s.groups ∧ u.lstore = s.lstore ∧
    u.cmds = s.cmds

/-- R184, R271, R420: an operation with a restartable block to commit, here an atomic without a result, waits until every earlier operation
of its group has been performed (log 106). The block then commits, and the atomic is performed on what the commit leaves; in a lockstep
partition the commit first has its signature point. -/
def Sys2Proof.Says.SideEffectCommitsFirst : Prop :=
  ∀ (k cut : Nat) (t : Ty) (op : AtomOp) (f : Bool) (v cmp : Word64) (x : MemOp) (s : State) (g : Group), Passes s k g x →
    x.kind = .atom t op f v cmp false → x.com = true → s.restartable g.block = true →
    let i := Instr.memoryOperationPerform k x.id cut
    (earlier x g.iq ≠ [] → exec i s = .next s) ∧
    (earlier x g.iq = [] → (s.part g.part).lockstep = true → (∀ y ∈ s.sigs, ∀ a b, y.act ≠ .commit g.block a b) →
      exec i s = .next { s with
        nextId := s.nextId + 1
        sigs := s.sigs ++ [{ id := s.nextId, part := g.part, gid := g.id, sig := s.commitSig g.block, act := .commit g.block g.id false }] }) ∧
    (earlier x g.iq = [] → (s.part g.part).lockstep = false → memTy t = true → x.rel = false → s.uncorr = [] → s.memOk →
      (s.sb.map fun e => e.id).Nodup → (f = true → t = .n32) → v.toNat < 2 ^ (8 * tyBytes t) → cmp.toNat < 2 ^ (8 * tyBytes t) →
      x.pas.Nodup → x.pas.length = tyBytes t → x.locs.length = tyBytes t →
      let c := s.commitBlock g.block
      ∃ u h w, exec i s = .next u ∧
        leNat (x.pas.map u.byte) = atomSpec t op f (leNat ((x.pas.zipWith c.lastWrite x.locs).map fun y => y.2)) v.toNat cmp.toNat ∧
        (∀ a, a ∉ x.pas → u.byte a = c.byte a) ∧ u.sb = c.sb ∧ u.co = c.co ++ [w] ∧ w.id = x.id ∧ u.restartable g.block = false ∧
        u.lstore = s.lstore ∧ u.group? k = some h ∧
        h = { g with iq := g.iq.filter (fun y => y.id ≠ x.id), floors := h.floors, readViews := h.readViews })

/-- R195: `MARK` records the point of a group with one path whose flags read clear: the next word, the recipe, the mask, the
listed registers of all lanes, every predicate, the generators and the seed; the since-mark record is empty then. A divergent
group keeps its point, and a group with a flag set waits. -/
def Sys2Proof.Says.MarkRecordsPoint : Prop :=
  ∀ (c : Ctl) (nl : BitVec 5) (a : BitVec 8) (nu : BitVec 5) (b : BitVec 6) (disp : BitVec 24) (s : State) (g : Group) (p : Path)
    (sec : Bool), Issues s (.mark c nl a nu b disp) c g p sec → guardOf g p c ≠ 0 →
    (g.path? (!sec) = none → g.stack = [] → g.recs = [] → (∀ k, k < 12 → g.flag k = 0) →
      mwf (0 : Word32) g.v = true → mwf (0 : Word64) g.s = true →
      ∃ pt, exec (.mark c nl a nu b disp) s =
          .next (stored s (onPath { g with point := some pt, sinceMark := false } sec (onward p))) ∧
        pt.cont = p.pc + 1 ∧ pt.recipe = p.pc + disp.signExtend 64 ∧ pt.mask = p.mask ∧ pt.p = g.p ∧ pt.q = g.q ∧
        pt.gAlu = g.gAlu ∧ pt.gFma = g.gFma ∧ pt.srseed = g.srseed ∧
        (∀ r l, l < 32 → mget 0 pt.vregs (r * 32 + l) = if a.toNat ≤ r ∧ r < a.toNat + nl.toNat then g.lane r l else 0) ∧
        (∀ r, mget 0 pt.sregs r = if b.toNat ≤ r ∧ r < b.toNat + nu.toNat then mget 0 g.s r else 0)) ∧
    ((g.path? (!sec)).isSome = true ∨ g.stack ≠ [] ∨ g.recs ≠ [] →
      exec (.mark c nl a nu b disp) s = .next (stored s (onPath g sec (onward p)))) ∧
    (g.path? (!sec) = none → g.stack = [] → g.recs = [] → (∃ k, k < 12 ∧ g.flag k ≠ 0) →
      exec (.mark c nl a nu b disp) s = .next s)

/-- R184, R194, R195, R279: what a commit makes of its block's stores, a side effect that commits its restartable block first, and `MARK`,
which records a point. -/
def Obligations.CommitAndMark : Prop := CommitMakesStores ∧ SideEffectCommitsFirst ∧ MarkRecordsPoint

namespace Sys2Proof.Says

/-- A group whose path in slot `sec` has ended, with the stack left as it is. -/
def without (g : Group) (sec : Bool) : Group := if sec then { g with p1 := none } else { g with p0 := none }

/-- A join record once a path's lanes have ended: they are expected no more, and it takes their order over where it expected one. -/
def lessened (p : Path) (j : JoinRec) : JoinRec :=
  { j with exp := j.exp &&& ~~~p.mask, hist := if j.exp &&& p.mask = 0 then j.hist else p.hist ++ j.hist }

/-- `EXIT` of a path that is not its group's last: the slot is refilled from the stack, or left empty. -/
def PathEnds (c : Ctl) (s : State) (g : Group) (p : Path) (sec : Bool) : Prop :=
  (g.recs = [] → ∀ q, g.path? (!sec) = some q → g.stack = [] → exec (.exit c) s = .next (stored s (without g sec))) ∧
  (g.recs = [] → ∀ top rest, g.stack = top :: rest →
    exec (.exit c) s = .next (stored s (onPath { g with stack := rest } sec { top with issued := 0 }))) ∧
  (∀ j, g.recs = [j] → g.stack = [] →
    let r := lessened p j
    (r.exp &&& ~~~j.arr ≠ 0 → exec (.exit c) s = .next (stored s { without g sec with recs := [r] })) ∧
    (r.exp = 0 → j.arr = 0 → ∀ q, g.path? (!sec) = some q → exec (.exit c) s = .next (stored s { without g sec with recs := [] })) ∧
    (r.exp &&& ~~~j.arr = 0 → j.arr ≠ 0 → ∃ h : List Nat, (∀ x, x ∈ h ↔ x = g.nextThr ∨ x ∈ r.hist) ∧
      exec (.exit c) s = .next (stored s (onPath { without g sec with recs := [], nextThr := g.nextThr + 1 }
        (if (g.path? (!sec)).isNone then false else sec)
        { pc := j.pt + 2, mask := j.arr, jr := j.out, thr := g.nextThr, hist := h,
          clause := if j.hd.len.toNat ≤ 1 then none else some { at_ := j.pt, h := j.hd } }))))

/-- `EXIT` of a group's last path: the group is gone with its registers, and its block holds one less; with the last group a restartable
block commits, and a block whose store no command holds any more is gone. -/
def GroupEnds (c : Ctl) (s : State) (g : Group) (b : Block) : Prop :=
  (1 < b.alive → (∀ x ∈ s.blocks, x.alive ≠ 0 ∨ s.cmds.any (holdsStore x) = true) →
    exec (.exit c) s = .next { s with
      groups := s.groups.filter fun x => x.id ≠ g.id
      blocks := modifyKey (fun x => x.id) g.block (fun x => { x with alive := x.alive - 1 }) s.blocks }) ∧
  (b.alive = 1 → (b.restartable = true → (s.part g.part).lockstep = false) → (s.blocks.map fun x => x.id).Nodup →
    ∃ u, exec (.exit c) s = .next u ∧ u.groups = s.groups.filter (fun x => x.id ≠ g.id) ∧ u.lstore = s.lstore ∧
      (b.restartable = false → u.mem = s.mem ∧ u.co = s.co ∧ u.sb = s.sb) ∧
      (b.restartable = true →
        let k := s.commitBlock g.block
        u.mem = k.mem ∧ u.sb = k.sb ∧ u.co.length = k.co.length) ∧
      (s.cmds.any (holdsStore b) = false → u.block? g.block = none) ∧
      (s.cmds.any (holdsStore b) = true → ∃ x, u.block? g.block = some x ∧ x.alive = 0))

end Sys2Proof.Says

/-- R148, R209, R279: `EXIT` waits for the flags, ends the path's lanes, which leave the open join records, of which one that is then complete
closes with its merged path and one that expects nothing is discarded; and it ends a group that has no path left, once nothing of the group
is under way. -/
def Obligations.ExitEndsLanes : Prop :=
  ∀ (c : Ctl) (s : State) (g : Group) (p : Path) (sec : Bool), Issues s (.exit c) c g p sec →
    (guardOf g p c = 0 → exec (.exit c) s = .next (stored s (onPath g sec (onward p)))) ∧
    (guardOf g p c ≠ 0 →
      ((∃ k, k < 12 ∧ g.flag k ≠ 0) → exec (.exit c) s = .next s) ∧
      ((∀ k, k < 12 → g.flag k = 0) → PathEnds c s g p sec ∧
        (g.recs = [] → g.path? (!sec) = none → g.stack = [] →
          (g.busy = true → exec (.exit c) s = .next s) ∧
          (g.busy = false → g.scroll.sts < 3 → ∀ b, s.block? g.block = some b → GroupEnds c s g b))))

/-! ### Performing memory operations (R189, R199, R262 to R271) -/

/-- R270, R278: a load of one byte returns the newest undrained store of its own block to the location if there is one; else a write
of the coherence order to that byte, or its initial contents, and never a write before the agent's floor at the location, which is
the co-latest that its floors name for it; or it returns a write that was made to the same byte through another alias. -/
def Obligations.LoadReturnsAllowedWrite : Prop :=
  ∀ (s : State) (a : Who) (floors : Map Nat) (cut pa loc id : Nat) (b : Byte), s.loadByte a floors cut pa loc = (id, b) →
    (∀ x ∈ floors, keyHits x.1 pa loc = true → s.pos x.2 ≤ s.pos (s.floorAt floors pa loc)) ∧
    ((id = 0 ∧ ∃ bs ∈ s.co.map (fun w => w.bytes) ++ (s.sb.filter fun e => e.blk == a.blk).map (fun e => e.bytes),
        ∃ y ∈ bs, y.pa = pa ∧ y.all = false ∧ y.hits pa loc = false ∧ y.new = b) ∨
      (∀ r, s.sbHit a.blk pa loc = some r → (id, b) = r) ∧
      (s.sbHit a.blk pa loc = none → (id = 0 ∧ b = s.initialByte pa) ∨
        ∃ w ∈ s.co, w.id = id ∧ ∃ y ∈ w.bytes, y.pa = pa ∧ y.new = b) ∧
      (s.sbHit a.blk pa loc = none → (∃ w ∈ s.co, w.id = s.floorAt floors pa loc ∧ w.hits pa loc = true) →
        s.pos (s.floorAt floors pa loc) ≤ s.pos id))

/-- R187, R262, R270, R399, R419: performing a load reads its bytes, raises the group's floors, keeps or acquires the views of what it
read, and gives its lane the value extended to the register's width; nothing else changes. A load of an uncorrectable sector gives no value,
and its group consumes the error. In a lockstep partition a load of host or CXL memory first waits for its data, which come 8,192 cycles
later (log 26), and the secondary takes the bytes that the link brings. -/
def Obligations.LoadPerforms : Prop :=
  ∀ (k cut n : Nat) (sext : Bool) (x : MemOp) (s : State) (g : Group), MayPerform s k g x → x.kind = .load n sext →
    (n = 1 ∨ n = 2 ∨ n = 4 ∨ n = 8) → x.pas.length = n → x.locs.length = n →
    let r := loadBytes s (s.who g) cut x.pas x.locs g.floors
    let away := s.offPackage g.part x.pas
    (away = true → x.due = 0 → exec (.memoryOperationPerform k x.id cut) s = .next (stored s
      { g with iq := modifyKey (fun y => y.id) x.id (fun y => { y with due := s.clock + 8192 }) g.iq })) ∧
    (away = true → s.clock < x.due → exec (.memoryOperationPerform k x.id cut) s = .next s) ∧
    ((away = true → x.due ≠ 0 ∧ x.due ≤ s.clock) →
      (∀ pa ∈ x.pas, s.poisoned pa = true →
        exec (.memoryOperationPerform k x.id cut) s = .next ((s.consumeAt (g.abandon x) 0 x.pas).settle g.id)) ∧
      ((∀ pa ∈ x.pas, s.poisoned pa = false) → r.1.length = n ∧
        exec (.memoryOperationPerform k x.id cut) s = .next (stored s
          { answered g x (extended n sext (leNat (s.linked g.part x.pas r.1))) with
            floors := if x.acq then s.acquire (s.who g) x.sc r.2.1 r.2.2 else r.2.1
            readViews := if x.acq then g.readViews else g.readViews ++ r.2.2 })))

/-- R260, R267: performing a store that is no release enters it in its block's store buffer as the newest entry, where the buffer
has room, beside what the block has in the overflow region where its sector stands there; memory keeps every byte. -/
def Obligations.StoreEntersBuffer : Prop :=
  ∀ (k cut : Nat) (data : List Byte) (x : MemOp) (s : State) (g : Group), MayPerform s k g x → x.kind = .store data → x.rel = false →
    sectorCount (s.sb.filter fun e => e.ep == g.ep && !e.ovf) + ((x.pas.take data.length).take x.locs.length).length ≤ 2048 →
    ovfFits s g.block s.sb = true → (∀ a ∈ x.pas, a < 2 ^ 64) → (∀ e ∈ s.sb, ∀ b ∈ e.bytes, b.pa < 2 ^ 64) →
    ∃ bytes f o, exec (.memoryOperationPerform k x.id cut) s = .next (stored
      { s with sb := s.sb ++ [{ id := x.id, blk := g.block, ep := g.ep, who := s.who g, bytes := bytes,
                                committed := !(s.restartable g.block), ovf := o, views := x.views }] }
      { g with iq := g.iq.filter (fun y => y.id ≠ x.id), floors := f }) ∧
      (o = true → ∃ e ∈ s.sb, e.ovf = true ∧ e.blk = g.block) ∧
      (bytes.map fun b => (b.pa, b.loc, b.new)) = (x.pas.zip (x.locs.zip data)) ∧
      (mwf (0 : Nat) g.floors = true → ∀ l, mget 0 f l = if l ∈ bytes.map (fun b => b.loc) then x.id else mget 0 g.floors l)

/-- R189, R271: performing an atomic of device memory that stays on its package, where its block has no undrained store, takes the old
value from the co-last writes to its locations, writes the new one at once, leaves every other byte of memory alone, and gives its lane
the old value. -/
def Obligations.AtomicPerforms : Prop :=
  ∀ (k cut : Nat) (t : Ty) (op : AtomOp) (f ret : Bool) (v cmp : Word64) (x : MemOp) (s : State) (g : Group), MayPerform s k g x →
    x.kind = .atom t op f v cmp ret → memTy t = true → x.rel = false → s.uncorr = [] → s.offPackage g.part x.pas = false →
    (∀ e ∈ s.sb, e.blk ≠ g.block) → s.memOk →
    (f = true → t = .n32) → v.toNat < 2 ^ (8 * tyBytes t) → cmp.toNat < 2 ^ (8 * tyBytes t) →
    x.pas.Nodup → x.pas.length = tyBytes t → x.locs.length = tyBytes t →
    let old := leNat ((x.pas.zipWith s.lastWrite x.locs).map fun y => y.2)
    ∃ u h, exec (.memoryOperationPerform k x.id cut) s = .next u ∧
      leNat (x.pas.map u.byte) = atomSpec t op f old v.toNat cmp.toNat ∧
      (∀ a, a ∉ x.pas → u.byte a = s.byte a) ∧ u.lstore = s.lstore ∧ u.sb = s.sb ∧ u.group? k = some h ∧
      (if ret then h.outst = (answered g x (extended (tyBytes t) (signedTy t) old)).outst else h.outst = g.outst) ∧
      h = { g with iq := g.iq.filter (fun y => y.id ≠ x.id), outst := h.outst, floors := h.floors, readViews := h.readViews }

/-- R192, R267: performing `LDS` and `STS` on a position that is no hole reads and writes the store's bytes; a store changes no
other byte. -/
def Obligations.LocalAccessPerforms : Prop :=
  (∀ (k cut n : Nat) (sext : Bool) (x : MemOp) (s : State) (g : Group), MayPerform s k g x → x.kind = .lds n sext → x.pas = [] →
    (n = 1 ∨ n = 2 ∨ n = 4 ∨ n = 8) → x.locs.length = n →
    exec (.memoryOperationPerform k x.id cut) s = .next (stored s
      (answered g x (extended n sext (leNat (x.locs.map fun l => mget 0 s.lstore (l - 2 ^ 63))))))) ∧
  (∀ (k cut : Nat) (data : List Byte) (x : MemOp) (s : State) (g : Group), MayPerform s k g x → x.kind = .sts data → x.pas = [] →
    x.locs.Nodup → (∀ l ∈ x.locs, 2 ^ 63 ≤ l) → data.length = x.locs.length → s.storeOk →
    ∃ m d, exec (.memoryOperationPerform k x.id cut) s = .next (stored { s with lstore := m, dirty := d }
        { g with iq := g.iq.filter fun y => y.id ≠ x.id }) ∧
      (x.locs.map fun l => mget 0 m (l - 2 ^ 63)) = data ∧
      ∀ a, a + 2 ^ 63 ∉ x.locs → mget 0 m a = mget 0 s.lstore a)

/-- R268, R269: a committed entry with no older one of its block in its way drains: memory takes its bytes and no other, it stands
last in coherence order, and the buffer loses it. A write's level rises by one scope, up to its home's. -/
def Obligations.DrainAndRaise : Prop :=
  (∀ (k : Nat) (e : SbEntry) (s : State), s.sb.find? (fun x => x.id == k) = some e → e.committed = true →
    (∀ x ∈ s.sb.takeWhile (fun x => x.id != k), x.blk = e.blk → ∀ b ∈ x.bytes, ∀ d ∈ e.bytes, b.loc ≠ d.loc) →
    (s.part e.who.part).lockstep = false → s.memOk → (e.bytes.map fun b => b.pa).Nodup →
    ∃ w u, exec (.storeBufferDrain k) s = .next
        { s with
          sb := s.sb.filter fun x => x.id ≠ e.id
          co := s.co ++ [w]
          mem := u
          uncorr := if s.uncorr = [] then [] else clearMarks e.bytes s.uncorr } ∧
      w.id = e.id ∧ w.who = e.who ∧ w.lvl = .blk ∧ w.views = e.views ∧
      (w.bytes.map fun b => (b.pa, b.loc, b.new)) = e.bytes.map (fun b => (b.pa, b.loc, b.new)) ∧
      (∀ b ∈ e.bytes, b.all = false → mget memDefault u b.pa = b.new) ∧
      ∀ a, (∀ b ∈ e.bytes, b.pa = a → b.all = true) → mget memDefault u a = s.byte a) ∧
  (∀ (k : Nat) (s : State), exec (.propagationLevelRaise k) s = .next
    { s with
      co := s.co.map fun w =>
        if w.id = k ∧ Scope.rank w.lvl < Scope.rank w.home then { w with lvl := scopeUp w.lvl } else w }) ∧
  (∀ sc : Scope, Scope.rank sc < 8 → Scope.rank (scopeUp sc) = Scope.rank sc + 1)

/-- R24, R26: results that are known are written to their lanes, or to a uniform register; the record keeps the lanes still to be
written, and with none left it closes and its flag's count falls. -/
def Obligations.VariableLatencyResults : Prop :=
  (∀ (k op : Nat) (m : Lanes) (r : Nat) (w : Bool) (s : State) (g : Group) (o : Outst), s.group? k = some g → g.trap = none →
    findKey (fun o => o.instr) op g.outst = some o → o.dst = .lane r w → o.qn = none → o.twin = none → o.pend &&& o.ready &&& m ≠ 0 →
    let got := o.pend &&& o.ready &&& m
    let h := writeLanes w r (fun l => mget 0 o.vals l) (laneList got) g
    exec (.variableLatencyResult k op m) s = .next (stored s (
      if o.pend &&& ~~~got = 0 then
        { h with
          outst := g.outst.filter fun x => x.instr ≠ op
          flags := match o.flag with | some n => mset 0 g.flags n (mget 0 g.flags n - 1) | none => g.flags }
      else { h with outst := modifyKey (fun o => o.instr) op (fun o => { o with pend := o.pend &&& ~~~got }) g.outst }))) ∧
  (∀ (k op : Nat) (m : Lanes) (r : Nat) (s : State) (g : Group) (o : Outst), s.group? k = some g → g.trap = none →
    findKey (fun o => o.instr) op g.outst = some o → o.dst = .uni r → o.qn = none → o.twin = none → o.pend = 1 →
    o.ready.getLsbD 0 = true →
    m.getLsbD 0 = true →
    exec (.variableLatencyResult k op m) s = .next (stored s
      { g with
        s := if r = 63 then g.s else mset 0 g.s r (mget 0 o.vals 0)
        outst := g.outst.filter fun x => x.instr ≠ op
        flags := match o.flag with | some n => mset 0 g.flags n (mget 0 g.flags n - 1) | none => g.flags }))

/-! ### Engine commands at their issue (R95 to R105, R211 to R249, R312) -/

namespace Sys2Proof.Says

/-- A command may be taken: some lane's guard is true, no fence but `COMMIT` holds the path, and every earlier operation of the
path has been performed (R193, R194, R275). -/
def Free (g : Group) (p : Path) (c : Ctl) : Prop :=
  guardOf g p c ≠ 0 ∧ ∀ x ∈ g.iq, x.thr ∈ p.hist → x.wseq ≠ 0 ∧ (isFence x = true → x.kind = .commit)

/-- The next number of an engine's sequence in a launch (R213). -/
def nextSeq (s : State) (launch eng inst : Nat) : Nat :=
  (match findKey (fun l => l.id) launch s.launches with | some l => mget 0 l.accepted (eng * 4096 + inst) | none => 0) + 1

/-- A group's new command: numbered in its engine's sequence, with the floors of the group (R213, R275). -/
def command (s : State) (g : Group) (eng inst : Nat) (kind : CmdKind) (compl : Compl) (floors : Map Nat) : Cmd :=
  { id := s.nextId, kind := kind, gid := g.id, who := s.who g, launch := g.launch, block := g.block, part := g.part,
    tenant := g.tenant, ep := g.ep, eng := eng, inst := inst, seq := nextSeq s g.launch eng inst, sysA := g.sys, compl := compl,
    floors := floors }

/-- The state once an operand was read at some addresses, virtual and physical: its pages are cached in the group's quadrant, and the
group has paid for its sectors (R256, R393, R394). -/
def paid (s : State) (g : Group) (at_ : List (Nat × Nat)) : State :=
  let u := (pagesOf (at_.map fun x => x.1)).foldl (fun (u : State) v => u.noteGroup g v) s
  if u.noCoef g.part then u else u.chargeSectors g memIx (sectorsOf (at_.map fun x => x.2))

/-- Reading an operand gave bytes, that are none of an uncorrectable sector, and for which no data of another package are waited (R215,
R399, R419). -/
def Read (s : State) (g : Group) (d : Desc) (bs : List Byte) (f : Map Nat) (at_ : List (Nat × Nat)) : Prop :=
  d = .bytes bs f at_ ∧ s.offPackage g.part (at_.map fun x => x.2) = false ∧ ∀ x ∈ at_, s.poisoned x.2 = false

/-- The list that a `CPYG` into a ring's slot reads as it is accepted; where there is none, or it may not be read, it is empty (R331). -/
def ListRead (s : State) (g : Group) (op x : Nat) (list : List Int) (f : Map Nat) (at_ : List (Nat × Nat)) : Prop :=
  (listAt op x = none ∧ list = [] ∧ f = g.floors ∧ at_ = []) ∨
  ∃ va n, listAt op x = some (va, n) ∧
    ((∃ code v, readVirt s g va n = .fault code v ∧ list = [] ∧ f = g.floors ∧ at_ = []) ∨
      ∃ bs, Read s g (readVirt s g va n) bs f at_ ∧ list.length = n / 4 ∧
        ∀ k, k < n / 4 → list[k]? = some (view 32 true (BitVec.ofNat 64 (leNat ((bs.drop (4 * k)).take 4)))))

/-- The state once a command was accepted: it has joined its engine, and an array's queue where `arr` says so; its number is the last
accepted one; the group has noted it, and its path moves on. Nothing else changes: no register but what `g'` says, no memory, no local
store. -/
def joined (s : State) (g' : Group) (p : Path) (sec arr : Bool) (x : Cmd) : State :=
  { s with
    nextId := s.nextId + 1
    cmds := s.cmds ++ [x]
    launches := modifyKey (fun l => l.id) x.launch
      (fun l => { l with accepted := mset 0 l.accepted (x.eng * 4096 + x.inst) x.seq }) s.launches
    arrays := if arr then
        mset {} s.arrays x.inst { mget {} s.arrays x.inst with queue := (mget {} s.arrays x.inst).queue ++ [x.id] }
      else s.arrays
    groups := modifyKey (fun y => y.id) g'.id (fun _ => onPath { g' with sinceMark := true } sec (onward p)) s.groups }

/-- A command is accepted, and what the operand's bytes at `at_` cost is paid. -/
def Joins (i : Instr) (s : State) (g' : Group) (p : Path) (sec arr : Bool) (at_ : List (Nat × Nat)) (x : Cmd) : Prop :=
  exec i s = .next (paid (joined s g' p sec arr x) g' at_)

/-- The command is refused with a precise fault at its word (R211), once its operand has been read and paid for. -/
def FaultsAfter (i : Instr) (c : Ctl) (s : State) (g : Group) (p : Path) (sec : Bool) (code va : Nat)
    (at_ : List (Nat × Nat)) : Prop :=
  exec i s = .next (paid (s.trapAt g p sec code (guardOf g p c) va 0) g at_)
def Faults (i : Instr) (c : Ctl) (s : State) (g : Group) (p : Path) (sec : Bool) (code va : Nat) : Prop :=
  exec i s = .next (s.trapAt g p sec code (guardOf g p c) va 0)

/-- Bits of a number. -/
def field (x lo n : Nat) : Nat := x / 2 ^ lo % 2 ^ n

/-- A basic rectangle (R98). -/
def rectAt (x : Nat) : Rect :=
  { x := field x 0 6, y := field x 6 5, w := field x 11 6 + 1, h := field x 17 5 + 1, off := field x 24 19, len := field x 43 19,
    fmt := field x 64 4, cbv := x.testBit 91, cbo := field x 76 15,
    rsv := decide (field x 92 36 = 0 ∧ field x 68 8 = 0 ∧ field x 62 2 = 0 ∧ field x 22 2 = 0) }

/-- The 128 bits of a register pair (R95). -/
def pairNat (g : Group) (n : BitVec 6) : Nat := (g.uni n.toNat).toNat + 2 ^ 64 * (g.uni (n.toNat + 1)).toNat

/-- The completion object at offset co of the issuer's launch range, in units of 16 bytes. -/
def objectAt (s : State) (g : Group) (co : Nat) : Obj := { ep := g.ep, off := (s.rangeOf g.launch).1 + co * 16 }

/-- The barrier that a basic rectangle names. -/
def barrierOf (s : State) (g : Group) (r : Rect) : Compl := if r.cbv then .barrier (objectAt s g r.cbo) else .none

end Sys2Proof.Says

/-- R95, R97, R215, R399, R419: an operand descriptor of n bytes, aligned to `al`: in the issuer's local store where bit 63 of the register
is set, else at a device address; the checks stand in the order of R97, alignment first (log 37). An instruction takes a fault at its word,
parks where a page has no translation, consumes an uncorrectable sector, and in a lockstep partition waits for data of host or CXL
memory. -/
def Obligations.DescriptorOperands : Prop :=
  ∀ (s : State) (g : Group) (r n al : Nat),
    let v := (g.uni r).toNat
    let len := (s.rangeOf g.launch).2
    (v % al ≠ 0 → readDesc s g r n al = .fault 0x30 0) ∧
    (v % al = 0 → v.testBit 63 = true →
      (field v 19 44 ≠ 0 → readDesc s g r n al = .fault 0x31 0) ∧
      (field v 19 44 = 0 → len < field v 0 19 + n → readDesc s g r n al = .fault 0x24 (field v 0 19)) ∧
      (field v 19 44 = 0 → field v 0 19 + n ≤ len →
        readDesc s g r n al = .bytes ((List.range n).map fun k =>
          mget 0 s.lstore (g.ep * 2 ^ 19 + ((s.rangeOf g.launch).1 + field v 0 19 + k))) g.floors [])) ∧
    (v % al = 0 → v.testBit 63 = false →
      (2 ^ 56 ≤ v → readDesc s g r n al = .fault 0x21 v) ∧
      (v < 2 ^ 56 → (∀ k, k < n → ∃ pa, s.trGroup g .read (v + k) = .ok pa) →
        ∃ bs f at_, readDesc s g r n al = .bytes bs f at_ ∧ bs.length = n ∧ at_.length = n ∧
          ∀ k x, at_[k]? = some x → x.1 = v + k ∧ s.trGroup g .read (v + k) = .ok x.2) ∧
      (∀ k, v < 2 ^ 56 → k < n → (∀ j, j < k → ∃ pa, s.trGroup g .read (v + j) = .ok pa) →
        (s.trGroup g .read (v + k) = .viol → readDesc s g r n al = .fault 0x21 v) ∧
        (∀ t, s.trGroup g .read (v + k) = .miss t → readDesc s g r n al = .miss (v + k) t))) ∧
    (∀ (i : Instr) (p : Path) (sec : Bool) (m : Lanes) (d : Desc) (k : List Byte → Group → Out),
      (∀ code va, d = .fault code va →
        withDesc i s g p sec m d k = .next (s.trapAt g p sec code m (if code = 0x21 ∨ code = 0x22 ∨ code = 0x24 then va else 0) 0)) ∧
      (∀ va t, d = .miss va t → withDesc i s g p sec m d k = .next (s.parkLanes g sec i m va false t)) ∧
      (∀ bs f at_, d = .bytes bs f at_ →
        (s.offPackage g.part (at_.map fun x => x.2) = true → (g.due = 0 ∨ g.due + 8192 ≤ s.clock) →
          withDesc i s g p sec m d k = .next (stored s { g with due := s.clock + 8192 })) ∧
        (s.offPackage g.part (at_.map fun x => x.2) = true → s.clock < g.due → withDesc i s g p sec m d k = .next s) ∧
        (s.offPackage g.part (at_.map fun x => x.2) = false → (∃ x ∈ at_, s.poisoned x.2 = true) →
          withDesc i s g p sec m d k = .next (s.consumeAt g 1 (at_.map fun x => x.2))) ∧
        (Read s g d bs f at_ → ∀ t, k bs { g with floors := f } = .next t → withDesc i s g p sec m d k = .next (paid t g at_))))

/-- R99, R218 to R221: `SCROLL` in both forms is accepted where the group's slot is free and its descriptor is good, waits while
one runs, and takes context-state while one is halted; `SCRQ` reads the scroll state, and `SCRRES` resumes or abandons. -/
def Sys2Proof.Says.ScrollCommandsAccepted : Prop :=
  (∀ (c : Ctl) (n : BitVec 6) (dx dy : BitVec 7) (compl : Compl) (s : State) (g : Group) (p : Path) (sec : Bool),
    Issues s (.scroll c n dx dy) c g p sec → Free g p c → (g.scroll.sts = 0 ∨ g.scroll.sts = 2) →
      let r := rectAt (pairNat g n)
      let d : ScrollD := { r := r, dx := dx.toInt, dy := dy.toInt, staged := false }
      (scrollCheck s g.part g.launch g.ep d (if r.cbv then 1 else 0) r.cbo r.rsv = .ok compl →
        ∃ st : Bool, (st = true ↔ ¬(dx = 0 ∧ dy = 0) ∧ ∃ e ∈ d.sources, ∃ x ∈ d.sources, scrollDest (s.part g.part) d e = some x) ∧
          Joins (.scroll c n dx dy) s { g with scroll := { sts := 1, sin := st, cmd := some s.nextId } } p sec false []
            { command s g 1 g.ep (.scroll { d with staged := st }) compl g.floors with
              status := if dx = 0 ∧ dy = 0 then 1 else 0 }) ∧
      (∀ code, scrollCheck s g.part g.launch g.ep d (if r.cbv then 1 else 0) r.cbo r.rsv = .error code →
        Faults (.scroll c n dx dy) c s g p sec code 0)) ∧
  (∀ (c : Ctl) (n : BitVec 6) (dx dy : BitVec 7) (compl : Compl) (bs : List Byte) (f : Map Nat) (at_ : List (Nat × Nat)) (s : State) (g : Group)
      (p : Path) (sec : Bool),
    Issues s (.scrollX c n dx dy) c g p sec → Free g p c → (g.scroll.sts = 0 ∨ g.scroll.sts = 2) →
      Read s g (readDesc s g n.toNat 32 32) bs f at_ →
      let x := leNat bs
      let d : ScrollD :=
        { r := rectAt (x % 2 ^ 128), spb := field x 192 64, spl := field x 160 32, ex := x.testBit 131, ey := x.testBit 132,
          ro := x.testBit 130, dx := dx.toInt, dy := dy.toInt, staged := false }
      scrollCheck s g.part g.launch g.ep d (field x 158 2) (field x 143 15) (parseScroll x dx.toInt dy.toInt).2.2.2 = .ok compl →
        ∃ st : Bool, (st = true ↔ ¬(dx = 0 ∧ dy = 0) ∧ ∃ e ∈ d.sources, ∃ y ∈ d.sources, scrollDest (s.part g.part) d e = some y) ∧
          Joins (.scrollX c n dx dy) s
            { g with floors := f, scroll := { sts := 1, sin := st, cmd := some s.nextId } } p sec false at_
            { command s g 1 g.ep (.scroll { d with staged := st }) compl f with
              status := if dx = 0 ∧ dy = 0 then 1 else 0 }) ∧
  (∀ (i : Instr) (c : Ctl) (n : BitVec 6) (dx dy : BitVec 7) (s : State) (g : Group) (p : Path) (sec : Bool),
    (i = .scroll c n dx dy ∨ i = .scrollX c n dx dy) → Issues s i c g p sec → Free g p c →
      (g.scroll.sts = 1 → exec i s = .next s) ∧ (3 ≤ g.scroll.sts → Faults i c s g p sec 0x3B 0)) ∧
  (∀ (c : Ctl) (d : BitVec 6) (s : State) (g : Group) (p : Path) (sec : Bool), Issues s (.scrq c d) c g p sec →
    exec (.scrq c d) s = .next (stored s (onPath
      (if guardOf g p c = 0 ∨ d = 63 then g
       else
        let x := g.scroll
        { g with s := mset 0 g.s d.toNat (BitVec.ofNat 64 (x.sts % 16 * 2 ^ 52 + x.frg % 16 * 2 ^ 48 + x.sin.toNat * 2 ^ 16
          + x.ccol % 256 * 2 ^ 8 + x.crow % 256)) }) sec (onward p)))) ∧
  (∀ (c : Ctl) (s : State) (g : Group) (p : Path) (sec : Bool), Issues s (.scrres c) c g p sec → Free g p c →
    (g.scroll.sts = 3 → exec (.scrres c) s = .next (stored s (onPath
      { g with scroll := { g.scroll with want := true }, sinceMark := true } sec (onward p)))) ∧
    (g.scroll.sts = 4 → exec (.scrres c) s = .next (stored s (onPath
      { g with scroll := { g.scroll with sts := 1, frg := 0 }, sinceMark := true } sec (onward p)))) ∧
    (g.scroll.sts < 3 → Faults (.scrres c) c s g p sec 0x3B 0) ∧
    (g.scroll.sts = 5 → ∃ u, u = s.abandonScroll g ∧ u.group? g.id = some { g with scroll := {} } ∧
      exec (.scrres c) s = .next (u.trapAt { g with scroll := {} } p sec 0x21 (guardOf g p c) 0 0)))

/-- R99, R100, R218, R285: what a good scroll descriptor says. -/
def Sys2Proof.Says.ScrollDescriptorChecks : Prop :=
  ∀ (s : State) (part launch ep : Nat) (d : ScrollD) (ck co : Nat) (rsv : Bool) (compl : Compl),
    (rsv = false → scrollCheck s part launch ep d ck co rsv = .error 0x31) ∧
    (scrollCheck s part launch ep d ck co rsv = .ok compl →
      let p := s.part part
      rsv = true ∧ 0 < d.r.len ∧ d.r.len ≤ 393216 ∧ d.spb % 32 = 0 ∧ d.spl % 32 = 0 ∧ ((d.ex || d.ey) = true → d.spb ≠ 0) ∧
      d.r.off % elemSize d.r.fmt = 0 ∧ d.r.len % elemSize d.r.fmt = 0 ∧ d.r.off + d.r.len ≤ (s.rangeOf launch).2 ∧
      (∀ x y, d.r.x ≤ x → x < d.r.x + d.r.w → d.r.y ≤ y → y < d.r.y + d.r.h →
        p.ox ≤ x ∧ x < p.ox + p.wp ∧ p.oy ≤ y ∧ y < p.oy + p.hp ∧
        (s.holdsBlock launch (epOf x y) = true ∨ s.isHole (epOf x y) = true)) ∧
      (ck ≠ 0 → co * 16 + 16 ≤ (s.rangeOf launch).2 ∧
        let o : Obj := { ep := ep, off := (s.rangeOf launch).1 + co * 16 }
        (ck = 1 → compl = .barrier o) ∧ (ck ≠ 1 → compl = .ring o ∧ s.objLive o = true)))

/-- R99, R100, R218 to R221, R285: when scroll commands are accepted, and what an accepted descriptor says. -/
def Obligations.ScrollAcceptance : Prop := ScrollCommandsAccepted ∧ ScrollDescriptorChecks

/-- R101 to R105, R222, R225: the four copies are accepted while their engine holds fewer than 32, with the descriptor's fields as
the rules place them; a failed check faults at the word. A `CPYG` that completes into a ring's slot reads its list first, to know how far
its bytes reach (R331). -/
def Obligations.CopyCommandsAccepted : Prop :=
  (∀ (mk : Ctl → BitVec 6 → Option (BitVec 6) → Instr) (op : Nat),
    (mk, op) ∈ [(Instr.cpy, 0), (Instr.cpym, 1), (Instr.cpyg, 2), (Instr.cpyn, 3)] →
    ∀ (c : Ctl) (n : BitVec 6) (m : Option (BitVec 6)) (bs : List Byte) (f : Map Nat) (at_ : List (Nat × Nat)) (s : State) (g : Group)
      (p : Path) (sec : Bool),
      Issues s (mk c n m) c g p sec → Free g p c →
      (32 ≤ (s.cmds.filter fun x => x.eng == 0 && x.inst == g.ep).length → exec (mk c n m) s = .next s) ∧
      ((s.cmds.filter fun x => x.eng == 0 && x.inst == g.ep).length < 32 → Read s g (readDesc s g n.toNat 256 64) bs f at_ →
        ∀ list f' more, ListRead s { g with floors := f } op (leNat bs) list f' more →
        let r := copySetup s g.part g.tenant g.launch g.ep op (leNat bs) g.sys list (m.map fun r => (g.uni r.toNat).toNat)
        (∀ d ds fo, r = .ok (d, ds, fo) →
          exec (mk c n m) s = .next (paid (paid (joined s { g with floors := f' } p sec false
            { command s g 0 g.ep (.copy d) .none f' with
              dests := ds, follow := fo, status := if ds = [] then 1 else 0, hnd := g.handler.isSome }) g more) g at_)) ∧
        (∀ code va, r = .error (code, va) →
          exec (mk c n m) s = .next (paid (paid (s.trapAt { g with floors := f' } p sec code (guardOf g p c)
            (if code = 0x21 ∨ code = 0x22 ∨ code = 0x24 then va else 0) 0) g more) g at_)))) ∧
  (∀ (op x : Nat), let d := parseCopy op x
    d.srca = field x 0 64 ∧ d.dsta = field x 64 64 ∧ d.ndim = field x 128 3 ∧ d.ety = field x 131 4 ∧ d.span = x.testBit 135 ∧
    d.dpan = x.testBit 136 ∧ d.slay = field x 137 2 ∧ d.dlay = field x 139 2 ∧ d.psup = x.testBit 141 ∧ d.fmma = x.testBit 142 ∧
    d.ck = field x 143 2 ∧ d.co = field x 150 15 ∧ d.gsel = x.testBit 165 ∧ d.aux.toNat = field x 192 64 ∧
    d.dims.length = d.ndim ∧
    ∀ k q, d.dims[k]? = some q →
      let e := field x (256 + 256 * k) 256
      q.box = field e 0 32 ∧ q.scrd = view 32 true (BitVec.ofNat 64 (field e 32 32)) ∧ q.sext = field e 64 32 ∧
      q.dcrd = view 32 true (BitVec.ofNat 64 (field e 96 32)) ∧ q.dext = field e 128 32 ∧ q.sstr = field e 160 48 ∧
      q.dstr = field e 208 48) ∧
  (∀ (s : State) (part tenant launch ep op x : Nat) (sysA : Bool) (list : List Int) (sm : Option Nat) (d : CopyD) (ds : List CDst)
      (fo : Option (Nat × Rect)),
    copySetup s part tenant launch ep op x sysA list sm = .ok (d, ds, fo) →
      d = { parseCopy op x with co := d.co, sqd := d.sqd } ∧ (op ≠ 3 → d.sqd = 0) ∧ d.rsv = true ∧ d.ety ≠ 13 ∧ d.ety ≠ 14 ∧ 0 < d.ndim ∧
      (op ≠ 1 → ds = [{ ep := if d.dpan then epOf (field d.dsta 19 6) (field d.dsta 25 5) else ep }]) ∧ (d.fmma = false → fo = none))

namespace Sys2Proof.Says

/-- The commands of chain entries that run on an array (R110, R112), and an entry that waits for room in its array's queue (R212). -/
def arrayOp (op : Nat) : Bool := decide (op = 0xC0 ∨ op = 0xC1 ∨ op = 0xC3 ∨ op = 0xC8)
def waitsRoom (s : State) (g : Group) (x : Nat) : Prop :=
  arrayOp (field x 128 8) = true ∧ 64 ≤ (s.array (s.arrayOf g.ep)).queue.length

/-- The command of a chain entry as it is accepted, and the state that it has joined: its engine's sequence, and its array's queue
where its CMD is an array's (R110, R112, R213). The entry has no WPRV. -/
def entryCmd (s : State) (g : Group) (num va x : Nat) : Cmd :=
  { command s g (4 + num) g.ep (.entry (field x 128 8) (field x 138 54) (field x 64 64)) .none g.floors with
    chain := some { chain := num, entry := va, irq := x.testBit 137, wprv := false }, hnd := g.handler.isSome
    cancelled := decide (arrayOp (field x 128 8) = true ∧ g.cancel = true ∧ g.handler = none) }
def entered (s : State) (g : Group) (x : Nat) (c : Cmd) : State :=
  { s with
    nextId := s.nextId + 1
    cmds := s.cmds ++ [c]
    launches := modifyKey (fun l => l.id) c.launch
      (fun l => { l with accepted := mset 0 l.accepted (c.eng * 4096 + c.inst) c.seq }) s.launches
    arrays := if arrayOp (field x 128 8) then
        mset {} s.arrays (s.arrayOf g.ep)
          { mget {} s.arrays (s.arrayOf g.ep) with queue := (mget {} s.arrays (s.arrayOf g.ep)).queue ++ [c.id] }
      else s.arrays }

/-- The number of the entry is new. -/
def NewId (s : State) : Prop := (∀ y ∈ s.cmds, y.id ≠ s.nextId) ∧ ∀ y ∈ s.sigs, ∀ a b, y.act ≠ .thread s.nextId a b

/-- An entry's thread reads a block: its bytes, which are none of an uncorrectable sector and come over no link, and its floors then. -/
def BlockRead (s : State) (c : Cmd) (a n align : Nat) (bs : List Byte) (f : Map Nat) : Prop :=
  ∃ at_, s.block c a n align = .bytes bs { c with floors := f } at_ ∧ s.offPackage c.part (at_.map fun x => x.2) = false ∧
    ∀ y ∈ at_, s.poisoned y.2 = false

/-- An accepted array entry has become its command, in its place of its array's queue; or it has ended in error. -/
def Becomes (s : State) (g : Group) (num va x : Nat) (kind : CmdKind) (compl : Compl) (f : Map Nat) : Prop :=
  let u := s.acceptEntry g num va x
  u.cmd? s.nextId = some { entryCmd s g num va x with kind := kind, compl := compl, floors := f } ∧
    (u.array (s.arrayOf g.ep)).queue = (s.array (s.arrayOf g.ep)).queue ++ [s.nextId]
def EndsWith (s : State) (g : Group) (num va x sts : Nat) (f : Map Nat) : Prop :=
  let u := s.acceptEntry g num va x
  u.cmd? s.nextId = some { entryCmd s g num va x with floors := f, status := 2, sts := sts, err := true } ∧
    (u.array (s.arrayOf g.ep)).queue = (s.array (s.arrayOf g.ep)).queue ++ [s.nextId]

end Sys2Proof.Says

/-- R110, R112, R212: an entry that is accepted. One whose reserved bits are set, or whose CMD is none of the list, has joined its
engine, and its array's queue if its CMD is an array's, and has ended with STS 1. A good `WLOAD`, `MMA`, `ADRAIN` or `ATILE` entry has
become the command that its operand block and its OPND give, with the chain's EP and launch in the issuer's place; a failed check of
its operand ends it with STS 1. -/
def Sys2Proof.Says.EntriesAccepted : Prop :=
  ∀ (s : State) (g : Group) (num va x : Nat), x.testBit 136 = false → NewId s →
  let c := entryCmd s g num va x
  let op := field x 128 8
  let opnd := field x 138 54
  let desc := field x 64 64
  let j := entered s g x c
  ((field x 252 3 ≠ 0 ∨ op ∉ [0xB0, 0xB3, 0xB4, 0xB5, 0xB6, 0xC0, 0xC1, 0xC3, 0xC8]) →
    s.acceptEntry g num va x = entered s g x { c with status := 2, sts := 1, err := true }) ∧
  (field x 252 3 = 0 →
    (∀ t bs f, op = 0xC0 → t ∈ [Ty.bf16, .e4m3, .e5m2, .i4, .i3] → opnd = (tyCode t).toNat → BlockRead j c desc 32 32 bs f →
      let y := leNat bs
      let ten := s.tenant g.part g.tenant
      (field y 128 128 = 0 → field y 92 4 = 0 → field y 65 11 = 0 → field y 0 18 = 0 → (field y 18 10 + 1) % 32 = 0 →
        field y 18 10 + 1 ≤ s.depthAt g.ep → field y 28 12 + 1 ≤ s.widthAt g.ep → field y 40 24 % 32 = 0 →
        field y 40 24 + field y 96 32 ≤ min (ten.wwn * 65536) (2 ^ 24) →
        (y.testBit 91 = true → field y 76 15 * 16 + 16 ≤ (j.rangeOf g.launch).2) →
        Becomes s g num va x (.wload t (field y 40 24) (field y 96 32) (field y 18 10 + 1) (field y 28 12 + 1) (y.testBit 64))
          (if y.testBit 91 then .barrier (objectAt j g (field y 76 15)) else .none) f) ∧
      (field y 128 128 ≠ 0 ∨ field y 92 4 ≠ 0 ∨ field y 65 11 ≠ 0 ∨ field y 0 18 ≠ 0 → EndsWith s g num va x 1 f)) ∧
    (∀ t bs f, op = 0xC1 → t ∈ [Ty.bf16, .e4m3, .e5m2] → field opnd 0 4 = (tyCode t).toNat → field opnd 15 39 = 0 →
      BlockRead j c desc 16 16 bs f →
      let r := rectAt (leNat bs)
      let chk := rowsFault j g.part g.launch r (tyCode t).toNat (s.depthAt g.ep * elemSize (tyCode t).toNat) (field opnd 7 8)
      (chk = none → Becomes s g num va x (.mma t (field opnd 4 3) r (field opnd 7 8)) (barrierOf j g r) f) ∧
      (∀ code, chk = some code → code ≠ 0x21 → EndsWith s g num va x 1 f)) ∧
    (∀ bs f, op = 0xC3 → field opnd 46 8 = 0 → BlockRead j c desc 16 16 bs f →
      (opnd.testBit 45 = true → field opnd 14 11 = 0) → (opnd.testBit 25 = false → field opnd 26 19 = 0) →
      let r := rectAt (leNat bs)
      let w := if opnd.testBit 45 then s.widthAt g.ep else field opnd 14 11 + 1
      let vec := if opnd.testBit 25 then some (field opnd 26 19) else none
      let chk := accFault j g.part g.launch g.ep r w (opnd.testBit 5) (field opnd 6 8)
      (chk = none → (∀ v ∈ vec, v % 2 = 0 ∧ v + 2 * w ≤ (j.rangeOf g.launch).2) →
        Becomes s g num va x (.adrain (opnd.testBit 3) (opnd.testBit 4) (opnd.testBit 5) (field opnd 0 3) r vec (field opnd 6 8) w)
          (barrierOf j g r) f) ∧
      (∀ code, chk = some code → code ≠ 0x21 → EndsWith s g num va x 1 f)) ∧
    (∀ bs f bs' f' kind compl, op = 0xC8 → opnd = 0 → BlockRead j c desc 16 16 bs f → field (leNat bs) 64 64 % 64 = 0 →
      BlockRead j { c with floors := f } (field (leNat bs) 0 64) 64 64 bs' f' →
      let r := atileKind j g.part g.tenant g.launch g.ep (leNat bs') (field (leNat bs) 64 64)
      (r = .ok (kind, compl) → Becomes s g num va x kind compl f') ∧
      (∀ code, r = .error code → code ≠ 0x21 → EndsWith s g num va x 1 f')) ∧
    ((op = 0xC0 ∧ (field opnd 4 50 ≠ 0 ∨ tyOf (BitVec.ofNat 4 opnd) ∉ [Ty.bf16, .e4m3, .e5m2, .i4, .i3])) ∨
        (op = 0xC1 ∧ (field opnd 15 39 ≠ 0 ∨ tyOf (BitVec.ofNat 4 opnd) ∉ [Ty.bf16, .e4m3, .e5m2])) ∨
        (op = 0xC3 ∧ (field opnd 46 8 ≠ 0 ∨ (opnd.testBit 45 = true ∧ field opnd 14 11 ≠ 0))) ∨ (op = 0xC8 ∧ opnd ≠ 0) →
      EndsWith s g num va x 1 g.floors))

/-- R5, R213, R226, R227: `CPYC` takes the next entry of its chain, waits for room where that is an array's, halts at the end of the
chain and moves on at the entry that its operand names; one issue accepts one entry and is issued again until then, and on a halted
chain it has no effect even where its operand is misaligned (logs 43, 110). `CPYC.rst` drops the chain; `CPYQ` reads the sequences. -/
def Sys2Proof.Says.ChainsWalked : Prop :=
  (∀ (c : Ctl) (n : BitVec 6) (ch : BitVec 2) (s : State) (g : Group) (p : Path) (sec : Bool), Issues s (.cpyc c n ch) c g p sec →
    Free g p c →
    let x := s.chain g.launch g.ep ch.toNat
    let want := (g.uni n.toNat).toNat
    x.walk = none →
    (x.halted = true → exec (.cpyc c n ch) s = .next (stored s (onPath g sec (onward p)))) ∧
    (x.halted = false → want % 32 ≠ 0 → Faults (.cpyc c n ch) c s g p sec 0x30 0) ∧
    (∀ bs f at_, x.halted = false → want % 32 = 0 → want < 2 ^ 56 → x.lc = none → Read s g (readVirt s g want 32) bs f at_ →
      (waitsRoom s g (leNat bs) → exec (.cpyc c n ch) s = .next (paid s g at_)) ∧
      (¬ waitsRoom s g (leNat bs) → exec (.cpyc c n ch) s = .next (paid (stored
        ((s.acceptEntry { g with floors := f } ch.toNat want (leNat bs)).setChain { x with lc := some want, walk := none })
        (onPath { g with floors := f, sinceMark := true } sec (onward p))) g at_))) ∧
    (∀ bs f at_ l, x.halted = false → want % 32 = 0 → x.lc = some l → Read s g (readVirt s g l 32) bs f at_ →
      let next := leNat bs % 2 ^ 64
      (next = 0 → exec (.cpyc c n ch) s = .next (paid (stored (s.setChain { x with halted := true })
        (onPath { g with floors := f, sinceMark := true } sec (onward p))) g at_)) ∧
      (∀ bs' f' at', next ≠ 0 → next < 2 ^ 56 → next % 32 = 0 → Read s { g with floors := f } (readVirt s { g with floors := f } next 32) bs' f' at' →
        ¬ waitsRoom s g (leNat bs') →
        let h : Group := { g with floors := f', sinceMark := true }
        exec (.cpyc c n ch) s = .next (paid (paid (stored
          ((s.acceptEntry { g with floors := f' } ch.toNat next (leNat bs')).setChain
            { x with lc := some next, walk := if next = want then none else some g.id })
          (if next = want then onPath h sec (onward p) else h)) g at') g at_)))) ∧
  (∀ (c : Ctl) (n : BitVec 6) (ch : BitVec 2) (s : State) (g : Group) (p : Path) (sec : Bool), Issues s (.cpycRst c n ch) c g p sec →
    Free g p c → (s.chain g.launch g.ep ch.toNat).walk = none →
    exec (.cpycRst c n ch) s = .next (stored
      (s.setChain { s.chain g.launch g.ep ch.toNat with lc := none, halted := false, walk := none })
      (onPath { g with sinceMark := true } sec (onward p)))) ∧
  (∀ (c : Ctl) (sel : BitVec 2) (d : BitVec 6) (e : BitVec 3) (l : Launch) (s : State) (g : Group) (p : Path) (sec : Bool),
    Issues s (.cpyq c sel d e) c g p sec → guardOf g p c ≠ 0 → d ≠ 63 → s.launch? g.launch = some l →
    let inst := if e = 2 then s.arrayOf g.ep else if e = 3 then quadOf g.ep else g.ep
    let comp := mget 0 l.done (e.toNat * 4096 + inst)
    let acc := mget 0 l.accepted (e.toNat * 4096 + inst)
    let v := if sel = 0 then comp else if sel = 1 then acc
      else if 4 ≤ e.toNat ∧ (s.chain g.launch g.ep (e.toNat - 4)).halted = true then 2 else if comp < acc then 1 else 0
    ∃ f, exec (.cpyq c sel d e) s = .next (stored s (onPath
        { g with s := mset 0 g.s d.toNat (BitVec.ofNat 64 v), floors := f } sec (onward p))) ∧ (sel ≠ 0 → f = g.floors))

/-- R5, R110 to R112, R212, R213, R226, R227: the chain instructions, and the commands that accepted entries make. -/
def Obligations.ChainInstructions : Prop := ChainsWalked ∧ EntriesAccepted

/-- R228 to R242: the array commands are accepted while their array's queue holds fewer than 64, with the operands that they name;
a failed check faults at the word. `DSTEP` queues its read of the local store. -/
def Obligations.ArrayCommandsAccepted : Prop :=
  ∀ (c : Ctl) (s : State) (g : Group) (p : Path) (sec : Bool),
  let arr := s.arrayOf g.ep
  let room := (mget {} s.arrays arr).queue.length < 64
  let gone := decide (g.cancel = true ∧ g.handler = none)
  let cmd := fun (kind : CmdKind) (compl : Compl) (f : Map Nat) =>
    { command s g 2 arr kind compl f with cancelled := gone, hnd := g.handler.isSome }
  let takes := fun (i : Instr) (kind : CmdKind) (compl : Compl) (f : Map Nat) (at_ : List (Nat × Nat)) =>
    Joins i s { g with floors := f } p sec true at_ (cmd kind compl f)
  (∀ (bank : BitVec 3), Issues s (.azero c bank) c g p sec → Free g p c →
    (room → takes (.azero c bank) (.azero bank.toNat) .none g.floors []) ∧ (¬ room → exec (.azero c bank) s = .next s)) ∧
  (∀ (t : Ty) (bank : BitVec 3) (n : BitVec 6) (row0 : BitVec 8), Issues s (.mma c t bank n row0) c g p sec → Free g p c → room →
    let r := rectAt (pairNat g n)
    let chk := rowsFault s g.part g.launch r (tyCode t).toNat (s.depthAt g.ep * elemSize (tyCode t).toNat) row0.toNat
    (chk = none → takes (.mma c t bank n row0) (.mma t bank.toNat r row0.toNat) (barrierOf s g r) g.floors []) ∧
    (∀ code, chk = some code → Faults (.mma c t bank n row0) c s g p sec code 0)) ∧
  (∀ (sc : Bool) (bank : BitVec 3) (n : BitVec 6) (row0 : BitVec 8) (nc : BitVec 11) (full : Bool),
    Issues s (.aload c sc bank n row0 nc full) c g p sec → Free g p c → room →
    let r := rectAt (pairNat g n)
    let w := if full then s.widthAt g.ep else nc.toNat + 1
    let chk := accFault s g.part g.launch g.ep r w sc row0.toNat
    (chk = none → takes (.aload c sc bank n row0 nc full) (.aload sc bank.toNat r row0.toNat w) (barrierOf s g r) g.floors []) ∧
    (∀ code, chk = some code → Faults (.aload c sc bank n row0 nc full) c s g p sec code 0)) ∧
  (∀ (nochk nrm sc : Bool) (bank : BitVec 3) (n : BitVec 6) (sv : Option (BitVec 6)) (row0 : BitVec 8) (nc : BitVec 11) (full : Bool),
    let i := Instr.adrain c nochk nrm sc bank n sv row0 nc full
    Issues s i c g p sec → Free g p c → room →
    let r := rectAt (pairNat g n)
    let w := if full then s.widthAt g.ep else nc.toNat + 1
    let vec := sv.map fun x => (g.uni x.toNat).toNat
    (accFault s g.part g.launch g.ep r w sc row0.toNat = none →
      (∀ v ∈ vec, v < 2 ^ 19 ∧ v % 2 = 0 ∧ v + 2 * w ≤ (s.rangeOf g.launch).2) →
        takes i (.adrain nochk nrm sc bank.toNat r vec row0.toNat w) (barrierOf s g r) g.floors []) ∧
    (∀ code, accFault s g.part g.launch g.ep r w sc row0.toNat = some code → Faults i c s g p sec code 0)) ∧
  (∀ (t : Ty) (n : BitVec 6) (bs : List Byte) (f : Map Nat) (at_ : List (Nat × Nat)), Issues s (.wload c t n) c g p sec → Free g p c → room →
    Read s g (readDesc s g n.toNat 32 32) bs f at_ →
    let x := leNat bs
    let ten := s.tenant g.part g.tenant
    (field x 128 128 = 0 → field x 92 4 = 0 → field x 65 11 = 0 → field x 0 18 = 0 →
      (field x 18 10 + 1) % 32 = 0 → field x 18 10 + 1 ≤ s.depthAt g.ep → field x 28 12 + 1 ≤ s.widthAt g.ep → field x 40 24 % 32 = 0 →
      field x 40 24 + field x 96 32 ≤ min (ten.wwn * 65536) (2 ^ 24) →
      (x.testBit 91 = true → field x 76 15 * 16 + 16 ≤ (s.rangeOf g.launch).2) →
        takes (.wload c t n)
          (.wload t (field x 40 24) (field x 96 32) (field x 18 10 + 1) (field x 28 12 + 1) (x.testBit 64))
          (if x.testBit 91 then .barrier (objectAt s g (field x 76 15)) else .none) f at_) ∧
    (field x 128 128 ≠ 0 ∨ field x 92 4 ≠ 0 ∨ field x 65 11 ≠ 0 ∨ field x 0 18 ≠ 0 →
      FaultsAfter (.wload c t n) c s { g with floors := f } p sec 0x31 0 at_)) ∧
  (∀ (i : Instr) (ck : Bool) (scalar : Option Word32) (bank : BitVec 3) (n : BitVec 6) (bs : List Byte) (f : Map Nat) (at_ : List (Nat × Nat)),
    ((∃ b, ck = false ∧ ((i = .delta c true bank n b ∧ scalar = some b) ∨ (i = .delta c false bank n b ∧ scalar = none))) ∨
      (ck = true ∧ i = .deltaCk c bank n ∧ scalar = none)) →
    Issues s i c g p sec → Free g p c → room → Read s g (readDesc s g n.toNat 64 64) bs f at_ →
    let x := leNat bs
    let kr := rectAt (field x 128 128)
    let vr := rectAt (field x 256 128)
    let tr := rectAt (field x 384 128)
    let nt := field x 25 9 + 1
    deltaFault s { g with floors := f } ck scalar.isSome bank.toNat x kr vr tr = none →
      takes i (.delta ck bank.toNat
          (match scalar with
            | some b => List.replicate nt b
            | none => if ck then [] else (List.range nt).map fun k => mget 0 g.beta (field x 56 6 + k))
          kr vr tr (BitVec.ofNat 32 (field x 96 32)) (if x.testBit 55 then some (field x 52 3) else none)
          (field x 42 10 + 1) (field x 34 8 + 1) nt)
        (if x.testBit 91 then .barrier (objectAt s g (field x 76 15)) else .none) f at_) ∧
  (∀ (n m : BitVec 6) (cnt : BitVec 7) (bofs : BitVec 6), Issues s (.tsolve c n m cnt bofs) c g p sec → Free g p c → room →
    let kr := rectAt (pairNat g n)
    let tr := rectAt (pairNat g m)
    (tsolveFault s g.part g.launch kr tr cnt.toNat = none →
      takes (.tsolve c n m cnt bofs)
        (.tsolve kr tr ((List.range cnt.toNat).map fun k => mget 0 g.beta (bofs.toNat + k)) cnt.toNat
          (kr.w * kr.h * kr.len / (2 * cnt.toNat))) (barrierOf s g tr) g.floors []) ∧
    (∀ code, tsolveFault s g.part g.launch kr tr cnt.toNat = some code → Faults (.tsolve c n m cnt bofs) c s g p sec code 0)) ∧
  (∀ (n m : BitVec 6) (bs : List Byte) (f : Map Nat) (at_ : List (Nat × Nat)) (kind : CmdKind) (compl : Compl), Issues s (.atile c n m) c g p sec →
    Free g p c → room → (g.uni m.toNat).toNat % 64 = 0 → Read s g (readDesc s g n.toNat 64 64) bs f at_ →
    atileKind s g.part g.tenant g.launch g.ep (leNat bs) (g.uni m.toNat).toNat = .ok (kind, compl) →
      takes (.atile c n m) kind compl f at_ ∧ ∃ before,
        let x := leNat bs
        kind = .atile (rectAt (field x 128 128)) (rectAt (field x 256 128)) (objectAt s g (field x 417 15)) (x.testBit 433)
          (BitVec.ofNat 32 (field x 64 32)) (field x 48 16) (field x 45 3) (field x 37 8 + 1) (field x 17 20) (field x 0 17)
          (g.uni m.toNat).toNat before ∧ compl = .ring (objectAt s g (field x 417 15))) ∧
  (∀ (bank : BitVec 3) (n : BitVec 6) (row0 : BitVec 8), Issues s (.amerge c bank n row0) c g p sec → Free g p c → room →
    let r := rectAt (pairNat g n)
    (rowsFault s g.part g.launch r 8 520 row0.toNat = none →
      takes (.amerge c bank n row0) (.amerge bank.toNat r row0.toNat) (barrierOf s g r) g.floors []) ∧
    (∀ code, rowsFault s g.part g.launch r 8 520 row0.toNat = some code → Faults (.amerge c bank n row0) c s g p sec code 0)) ∧
  (∀ (n first : BitVec 6) (cnt : BitVec 7), Issues s (.dstep c n first cnt) c g p sec → guardOf g p c ≠ 0 → Unfenced g p →
    NoInit g →
    let v := (g.uni n.toNat).toNat
    v < 2 ^ 19 → v % 4 = 0 → v + 4 * cnt.toNat ≤ (s.rangeOf g.launch).2 →
      QueuesOne (.dstep c n first cnt) s g p sec (flagOf p c) (.beta first.toNat cnt.toNat)
        ((fromBits 32 fun l => decide (l < cnt.toNat)).setWidth 32) false
        { id := 0, instr := 0, lane := 0, thr := 0, hist := [], kind := .dstep,
          locs := (List.range (4 * cnt.toNat)).map fun k => 2 ^ 63 + g.ep * 2 ^ 19 + ((s.rangeOf g.launch).1 + v + k) })

/-- R245 to R249, R312: the commands of the key-value cache are accepted while the quadrant's engine holds fewer than 64; `KVMAP`
gives the address of a slot's key, and `TIERQ` the highest tag of a token page's pages with PST. -/
def Obligations.CacheInstructions : Prop :=
  ∀ (c : Ctl) (s : State) (g : Group) (p : Path) (sec : Bool),
  let q := (if g.ep % 64 < 32 then 0 else 1) + (if g.ep / 64 < 16 then 0 else 2)
  let room := (s.cmds.filter fun x => x.eng == 3 && x.inst == q).length < 64
  let u := fun (r : BitVec 6) => (g.uni r.toNat).toNat
  let takes := fun (i : Instr) (kind : CmdKind) (compl : Compl) =>
    Joins i s g p sec false [] { command s g 3 q kind compl g.floors with hnd := g.handler.isSome }
  (∀ (n m k : BitVec 6) (base : BitVec 32), Issues s (.kvapp c n m k base) c g p sec → Free g p c →
    (room → u n % 64 = 0 → u m < 2 ^ 19 → u m % 16 = 0 → u k < 2 ^ 24 →
      takes (.kvapp c n m k base) (.kvapp (u n) (u m) (u k) base) .none) ∧
    (¬ room → exec (.kvapp c n m k base) s = .next s) ∧
    (room → u n % 64 ≠ 0 → u m < 2 ^ 19 → u m % 16 = 0 → Faults (.kvapp c n m k base) c s g p sec 0x30 0)) ∧
  (∀ (n m : BitVec 6) (tau : BitVec 32), Issues s (.kvmrg c n m tau) c g p sec → Free g p c → room → u n % 64 = 0 →
    takes (.kvmrg c n m tau) (.kvmrg (u n) (field (u m) 0 24) (field (u m) 24 24) tau) .none) ∧
  (∀ (n m : BitVec 6), Issues s (.park c n m) c g p sec → Free g p c → room → u n % 64 = 0 →
    takes (.park c n m) (.park (u n) (g.uni m.toNat)) .none) ∧
  (∀ (n m : BitVec 6), Issues s (.promo c n m) c g p sec → Free g p c → room → u n % 64 = 0 → u m < 2 ^ 53 →
    ((u m).testBit 52 = true → field (u m) 37 15 * 16 + 16 ≤ (s.rangeOf g.launch).2) →
    takes (.promo c n m) (.promo (u n) (field (u m) 0 17) (field (u m) 17 20))
      (if (u m).testBit 52 then .barrier (objectAt s g (field (u m) 37 15)) else .none)) ∧
  (∀ (i : Instr) (d n m : BitVec 6) (bs : List Byte) (f fl : Map Nat) (at_ more : List (Nat × Nat)) (v : Nat), Issues s i c g p sec → guardOf g p c ≠ 0 → Unfenced g p →
    (∀ x ∈ g.iq, x.thr ∈ p.hist → x.acq = false ∧ x.locs = []) → u n % 64 = 0 → u n < 2 ^ 56 → Read s g (readVirt s g (u n) 320) bs f at_ →
    let e := parseEntry bs
    e.fault = none →
    ((∃ (h : BitVec 16) (a : Nat), i = .kvmap c d n m h ∧ h.toNat < e.nkvh ∧ e.page (u m / 128 * e.nkvh + h.toNat) = some a ∧
        v = a + u m % 128 * 256 ∧ fl = f ∧ more = []) ∨
      (i = .tierq c d n m ∧ (∀ h, h < e.nkvh → (e.page (u m * e.nkvh + h)).isSome = true) ∧
        ∃ tb, Read s { g with floors := f } (readVirt s { g with floors := f } (e.taga + u m * e.nkvh / 4)
            ((u m * e.nkvh + e.nkvh - 1) / 4 - u m * e.nkvh / 4 + 1)) tb fl more ∧
          v = e.pst * 4 + ((List.range e.nkvh).map fun h =>
            let x := u m * e.nkvh + h
            ((tb[x / 4 - u m * e.nkvh / 4]?).getD 0).toNat / 4 ^ (x % 4) % 4).foldl max 0)) →
    ∃ h o, exec i s = .next (paid (paid { s with
        nextId := s.nextId + 1
        groups := modifyKey (fun x => x.id) g.id (fun _ => onPath h sec (onward p)) s.groups } g more) g at_) ∧
      o = { instr := s.nextId, flag := flagOf p c, dst := .uni d.toNat, pend := 1, ready := 1, vals := mset 0 [] 0 (BitVec.ofNat 64 v) } ∧
      h = { begun g s.nextId true (flagOf p c) (.uni d.toNat) 1 false [] with outst := o :: g.outst, floors := fl }) ∧
  (∀ (bs : List Byte), let e := parseEntry bs
    let x := leNat bs
    e.len = field x 0 25 ∧ e.nkvh = field x 30 8 + 1 ∧ e.pst = field x 38 2 ∧ e.taga = field x 64 64 ∧ e.wkey.toNat = field x 128 64 ∧
    e.ag1 = field x 192 32 ∧ e.ag2 = field x 224 32 ∧ e.pkt.toNat = field x 256 64 ∧ e.witm.toNat = field x 320 64 ∧
    e.mula = field x 384 64)

/-! ### Fences, objects, channels, work items and launches as they are performed (R106 to R109, R193, R194, R199 to R207, R271 to R274) -/

namespace Sys2Proof.Says

/-- The answer of an instruction to all its lanes, once: the record's one lane has the value and the operation has left. -/
def ended (g : Group) (x : MemOp) (v : Word64) : Group :=
  { g.answerAll x.instr v with iq := g.iq.filter fun y => y.id ≠ x.id }

/-- The group once an operation without a result has been performed: the operation has left the queue, and the record that carries its
flag, if it has one, is closed, and the flag falls. -/
def Closes (g : Group) (x : MemOp) (h : Group) : Prop :=
  let q := g.iq.filter fun y => y.id ≠ x.id
  (findKey (fun o => o.instr) x.instr g.outst = none ∧ h = { g with iq := q }) ∨
  ∃ o, findKey (fun o => o.instr) x.instr g.outst = some o ∧ o.pend = 1 ∧ o.twin = none ∧ h = { g with
    iq := q
    outst := g.outst.filter fun y => y.instr ≠ x.instr
    flags := match o.flag with | some n => mset 0 g.flags n (mget 0 g.flags n - 1) | none => g.flags }

/-- The operation waits in its place, and the group with it. -/
def stands (g : Group) (x : MemOp) (seq : Nat) (w : Wait) : Group :=
  { g with iq := modifyKey (fun y => y.id) x.id (fun y => { y with wseq := seq }) g.iq, wait := w }

/-- No request of a kind waits before x. -/
def First (s : State) (p : Group → MemOp → Prop) (x : MemOp) : Prop :=
  ∀ h ∈ s.groups, ∀ y ∈ h.iq, p h y → y.wseq ≠ 0 → x.wseq ≠ 0 ∧ x.wseq ≤ y.wseq

/-- A partition changed. -/
def partSet (s : State) (k : Nat) (f : Partition → Partition) : State := { s with parts := mset {} s.parts k (f (s.part k)) }

/-- The partitions, and a partition's tenants and items, are in their canonical form. -/
def PartsOk (s : State) (part : Nat) : Prop :=
  mwf ({} : Partition) s.parts = true ∧ mwf ({} : Tenant) (s.part part).tenants = true ∧
    mwf ([] : List Item) (s.part part).parts = true ∧ mwf ([] : List Item) (s.part part).ovItems = true

/-- The views of a group's release now: those of its earlier fences, and its own. -/
def viewOf (s : State) (g : Group) (sc : Scope) : View := { who := s.who g, sc := sc, fl := g.floors }

/-- The next index of a ring with n slots. -/
def lap (n i : Nat) : Nat := (i + 1) % (2 * n)

end Sys2Proof.Says

/-- R106, R199, R201, R207: what an arrival, an expectation and landed sectors do to a barrier's fields; a test of a phase answers
whether it is over; a wait with a limit ends with false when its cycles have passed, and `LAUNCH.w` after its own. -/
def Sys2Proof.Says.BarrierFieldsAndTimeouts : Prop :=
  (∀ (v n : Nat), v < 2 ^ 128 → n < 2 ^ 12 →
    let w := barArrive n v
    (n ≤ barPend v → barPend w = barPend v - n ∧ bitOf w 4 = bitOf v 4 ∧ barEcnt w = barEcnt v) ∧
    (barPend v < n → barPend w = 0 ∧ bitOf w 4 = true ∧ barEcnt w = min (barEcnt v + (n - barPend v)) 0xFFFF) ∧
    barPh w = barPh v ∧ barExpa w = barExpa v ∧ barExps w = barExps v ∧ barSect w = barSect v ∧ barWtrs w = barWtrs v) ∧
  (∀ (v n : Nat), v < 2 ^ 128 → n < 2 ^ 24 →
    barExps (barExpect n v) = min (barExps v + n) 0xFFFFFF ∧ barSect (barLand n v) = min (barSect v + n) 0xFFFFFF ∧
    barPend (barExpect n v) = barPend v ∧ barSect (barExpect n v) = barSect v ∧ barPh (barExpect n v) = barPh v ∧
    barPend (barLand n v) = barPend v ∧ barExps (barLand n v) = barExps v ∧ barPh (barLand n v) = barPh v) ∧
  (∀ (v : Nat), v < 2 ^ 128 →
    (barDone v = true ↔ barPend v = 0 ∧ barSect v = barExps v) ∧
    barPh (barNext v) = (barPh v + 1) % 16 ∧ barPend (barNext v) = barExpa v ∧ barSect (barNext v) = 0 ∧ barExps (barNext v) = 0 ∧
    barExpa (barNext v) = barExpa v ∧ barWtrs (barNext v) = barWtrs v ∧ barEcnt (barNext v) = barEcnt v) ∧
  (∀ (k ph cut : Nat) (o : Obj) (x : MemOp) (s : State) (g : Group), MayPerform s k g x → x.kind = .btry o ph →
    ∃ f, exec (.memoryOperationPerform k x.id cut) s = .next (stored s
      { ended g x (if barPh (s.objVal o) = ph then 0 else 1) with floors := f }) ∧ (barPh (s.objVal o) = ph → f = g.floors)) ∧
  (∀ (k op ph since lim : Nat) (o : Obj) (x : MemOp) (s : State) (g : Group), s.group? k = some g → g.wait = .bwait op o ph since lim →
    findKey (fun y => y.id) op g.iq = some x →
    (lim ≠ 0 ∧ since + lim ≤ s.clock → exec (.bwaitTimeout k) s = .next (stored
      (s.modObj o fun b => setBits b 95 80 (barWtrs b - 1)) { ended g x 0 with wait := .none })) ∧
    (lim = 0 ∨ s.clock < since + lim → exec (.bwaitTimeout k) s = .next s)) ∧
  (∀ (k : Nat) (x : MemOp) (s : State) (g : Group), s.group? k = some g → x ∈ g.iq → x.kind = .launch true → x.until_ ≠ 0 →
    (∀ y ∈ g.iq, y.kind = .launch true → y.until_ ≠ 0 → y = x) →
    exec (.launchWaitTimeout k) s = .next (if x.until_ ≤ s.clock then stored s (ended g x 0) else s))

/-- R193, R194, R272, R274, R278: a release fence waits until every earlier operation of its group has been performed, and its writes and
commands at its scope; what it covers goes with the group's later writes. An acquire fence waits for the earlier values (log 105) and joins
what they read. `AFENCE` raises the group's writes and enters them under every other alias. `COMMIT` commits a restartable block, or waits
until its block's earlier stores are at `.dev`. -/
def Sys2Proof.Says.FencesPerform : Prop :=
  ∀ (k cut : Nat) (x : MemOp) (s : State) (g : Group), MayPerform s k g x →
  let i := Instr.memoryOperationPerform k x.id cut
  (∀ o, x.kind = .fence o →
    let rel := o = .rel ∨ o = .ar
    let acq := o = .acq ∨ o = .ar
    (rel → (earlier x g.iq ≠ [] ∨ s.mayRelease x.sc g.floors = false ∨ s.performedAt g x.sc = false) → exec i s = .next s) ∧
    (acq → (∃ y ∈ earlier x g.iq, isValue y = true) → exec i s = .next s) ∧
    (∀ h, (rel → earlier x g.iq = [] ∧ s.mayRelease x.sc g.floors = true ∧ s.performedAt g x.sc = true) →
      (acq → ∀ y ∈ earlier x g.iq, isValue y = false) → Closes g x h →
      ∃ co fv fl, exec i s = .next (stored { s with co := co } { h with fenceViews := fv, floors := fl }) ∧
        (rel → fv = g.fenceViews.filter (fun v => Scope.rank x.sc < Scope.rank v.sc) ++ [viewOf s g x.sc]) ∧ (¬ rel → fv = g.fenceViews) ∧
        (o = .acq → fl = s.acquire (s.who g) x.sc g.floors g.readViews) ∧ (¬ acq → fl = g.floors) ∧
        (co.map fun w => (w.id, w.bytes)) = s.co.map (fun w => (w.id, w.bytes)) ∧ (¬(rel ∧ x.sc = .host) → co = s.co))) ∧
  (x.kind = .afence →
    ((earlier x g.iq ≠ [] ∨ ∃ e ∈ s.sb, e.who.gid = g.id ∧ e.committed = true) → exec i s = .next s) ∧
    (earlier x g.iq = [] → (∀ e ∈ s.sb, e.who.gid = g.id → e.committed = false) → ∃ u, exec i s = .next u ∧ u.mem = s.mem ∧ u.lstore = s.lstore ∧
      ∀ w ∈ s.co, w.who.gid = g.id → w.who.ext = 0 →
        (∃ w' ∈ u.co, w'.id = w.id ∧ w'.bytes = w.bytes ∧ scopeLe (scopeMin x.sc w.home) w'.lvl = true) ∧
        (w.copyOf = none → (∃ b ∈ w.bytes, physLoc b.loc = false) → ∃ c ∈ u.co, c.copyOf = some w.id ∧
          ((∀ v ∈ s.co, v.copyOf ≠ some w.id) →
            c.bytes.map (fun b => (b.pa, b.new, b.all)) = w.bytes.map (fun b => (b.pa, b.new, true)))))) ∧
  (x.kind = .commit →
    (s.restartable g.block = false → s.storesDone g.block x.id = false → exec i s = .next s) ∧
    (s.restartable g.block = true → earlier x g.iq ≠ [] → exec i s = .next s) ∧
    (∀ h, Closes g x h →
      (s.restartable g.block = false → s.storesDone g.block x.id = true → exec i s = .next (stored s h)) ∧
      (s.restartable g.block = true → earlier x g.iq = [] → (s.part g.part).lockstep = false →
        exec i s = .next ((stored s h).commitBlock g.block))))

/-- R106 to R109, R199 to R203, R266, R272, R273: `BINIT` and `RINIT` write a live object anew, and `BINV` ends one, unless a wait on it
must still return false; no arrival, landing or expectation of the same cycle reaches it after that. An arrival and an expectation update
the barrier, the first with the view of its release. A complete() that is due moves a finished phase on. A request on a ring is served in its
order, or waits; a publication and a release advance their index, and a misuse sets ERR. -/
def Sys2Proof.Says.ObjectsPerform : Prop :=
  (∀ (k cut : Nat) (o : Obj) (x : MemOp) (s : State) (g : Group), MayPerform s k g x → s.storeOk →
    let i := Instr.memoryOperationPerform k x.id cut
    let v := s.objVal o
    let fresh := fun (val : Nat) => ∃ u, exec i s = .next u ∧ u.objVal o = val ∧ u.objLive o = true ∧ o ∉ u.objDue ∧ u.mem = s.mem ∧
      ∀ j y f, j < 6 → u.mayUpdate o j y f = false
    (∀ n, x.kind = .binit o n → (s.noneFails o = false → exec i s = .next s) ∧
      (s.noneFails o = true → n < 4096 → fresh (n * 2 ^ 8 + n * 2 ^ 20))) ∧
    (∀ m : Word64, x.kind = .rinit o m → (s.noneFails o = false → exec i s = .next s) ∧
      (s.noneFails o = true → fresh (field m.toNat 38 1 * 2 ^ 3 + field m.toNat 19 19 * 2 ^ 37 + field m.toNat 11 8 * 2 ^ 56 +
        field m.toNat 0 11 * 2 ^ 64))) ∧
    (x.kind = .binv o → (s.noneFails o = false → exec i s = .next s) ∧
      (s.noneFails o = true → mwf false s.live = true → ∃ u, exec i s = .next u ∧ u.objLive o = false ∧ o ∉ u.objDue ∧ u.mem = s.mem)) ∧
    (∀ n, x.kind = .barr o n →
      (s.mayRelease x.sc g.floors = false ∨ s.mayUpdate o 2 x.id (barArrive n) = false → exec i s = .next s) ∧
      (∀ h, s.mayRelease x.sc g.floors = true → s.mayUpdate o 2 x.id (barArrive n) = true → s.objLive o = true → Closes g x h →
        ∃ u, exec i s = .next u ∧ u.objVal o = barArrive n v ∧ o ∈ u.objDue ∧ u.mem = s.mem ∧ u.group? k = some h ∧
          u.objViews = s.objViews ++ [{ o := o, tag := barPh v, v := viewOf s g x.sc }])) ∧
    (∀ e, x.kind = .bexp o e →
      (s.mayUpdate o 4 x.id (barExpect e) = false → exec i s = .next s) ∧
      (∀ h, s.mayUpdate o 4 x.id (barExpect e) = true → (o ∉ s.objDue ∨ s.expected o = true) → Closes g x h →
        ∃ u, exec i s = .next u ∧ u.objVal o = barExpect e v ∧ o ∈ u.objDue ∧ u.mem = s.mem ∧ u.group? k = some h ∧
          ∀ j y f, j < 4 → u.mayUpdate o j y f = false)) ∧
    (x.kind = .rres o → x.wseq = 0 →
      (ringEng v = true → ∃ u, exec i s = .next u ∧ u.objVal o = ringErr v ∧ u.group? k = some (ended g x (BitVec.allOnes 64))) ∧
      (ringEng v = false → ringFree v = true → First s (fun _ y => y.kind = .rres o) x → ∃ u, exec i s = .next u ∧
        u.objVal o = setBits v 87 76 (lap (ringCnt v) (ringWr v)) ∧
        u.group? k = some (ended g x (BitVec.ofNat 64 (ringBase v + ringWr v % ringCnt v * ringSz v)))) ∧
      (ringEng v = false → ringFree v = false ∨ ¬ First s (fun _ y => y.kind = .rres o) x →
        exec i s = .next (stored { s with nextId := s.nextId + 1 } (stands g x s.nextId g.wait)))) ∧
    (x.kind = .rwait o → x.wseq = 0 →
      (ringFull v = true → First s (fun _ y => y.kind = .rwait o) x → ∃ u, exec i s = .next u ∧
        u.objVal o = setBits v 111 100 (lap (ringCnt v) (ringRd v)) ∧
        u.group? k = some { ended g x (BitVec.ofNat 64 (ringBase v + ringRd v % ringCnt v * ringSz v)) with
          floors := s.acquire (s.who g) x.sc g.floors ((s.objViews.filter fun y => y.o == o && y.tag == ringRd v).map fun y => y.v) }) ∧
      (ringFull v = false ∨ ¬ First s (fun _ y => y.kind = .rwait o) x →
        exec i s = .next (stored { s with nextId := s.nextId + 1 } (stands g x s.nextId g.wait)))) ∧
    (x.kind = .rpub o →
      (s.mayRelease x.sc g.floors = false → exec i s = .next s) ∧
      (s.mayRelease x.sc g.floors = true → ringEng v = true ∨ ringPb v = ringWr v → ∃ u, exec i s = .next u ∧ u.objVal o = ringErr v) ∧
      (s.mayRelease x.sc g.floors = true → ringEng v = false → ringPb v ≠ ringWr v → ∃ u, exec i s = .next u ∧
        ringPb (u.objVal o) = lap (ringCnt v) (ringPb v) ∧ { o := o, tag := ringPb v, v := viewOf s g x.sc } ∈ u.objViews ∧ u.mem = s.mem)) ∧
    (x.kind = .rrel o →
      (ringRl v = ringRd v → ∃ u, exec i s = .next u ∧ u.objVal o = ringErr v) ∧
      (ringRl v ≠ ringRd v → ∃ u, exec i s = .next u ∧ ringRl (u.objVal o) = lap (ringCnt v) (ringRl v) ∧ u.mem = s.mem))) ∧
  (∀ (o : Obj) (s : State), s.storeOk → o ∈ s.objDue → s.objLive o = true → barDone (s.objVal o) = true →
    let u := s.completeDue o
    o ∉ u.objDue ∧ barPh (u.objVal o) = (barPh (s.objVal o) + 1) % 16 ∧ barPend (u.objVal o) = barExpa (s.objVal o) ∧
      barSect (u.objVal o) = 0 ∧ barExps (u.objVal o) = 0)

/-- R205 to R207, R271, R273, R359, R405: a `SEND` puts its word at the end of the channel, with its views; a `RECV` takes the first, in the
order of the requests, or waits. A `WPUSH` puts its item at the newest end, and waits without room; a `WPULL` takes the oldest, waits, or,
as a poll, reports that there is none. A `LAUNCH` takes an entry of the pending-launch store; without one it gives false, and `LAUNCH.w`
waits 65,536 cycles. -/
def Sys2Proof.Says.ChannelsAndWorkPerform : Prop :=
  ∀ (k cut : Nat) (x : MemOp) (s : State) (g : Group), MayPerform s k g x →
  let i := Instr.memoryOperationPerform k x.id cut
  let p := s.part g.part
  let key := g.ep * 16 + g.tenant
  let here : List Item := mget [] p.parts key
  let beyond : List Item := mget [] p.ovItems key
  (∀ c v rel l, x.kind = .send c v rel → s.launch? g.launch = some l →
    (rel = true → s.mayRelease .part g.floors = false → exec i s = .next s) ∧
    (∀ h, (rel = true → s.mayRelease .part g.floors = true) → Closes g x h → ∃ u l', exec i s = .next u ∧ u.launch? g.launch = some l' ∧
      l'.chans = mset [] l.chans c (mget [] l.chans c ++
        [{ v := v, views := x.views ++ if x.rel then [viewOf s g x.sc] else [] }]) ∧ u.group? k = some h ∧ u.mem = s.mem)) ∧
  (∀ c acq l, x.kind = .recv c acq → s.launch? g.launch = some l →
    (∀ w r, mget [] l.chans c = w :: r → First s (fun h y => h.launch = g.launch ∧ ∃ a, y.kind = .recv c a) x →
      ∃ u l' f rv wt, exec i s = .next u ∧ u.launch? g.launch = some l' ∧ l'.chans = mset [] l.chans c r ∧
        u.group? k = some { ended g x w.v with floors := f, readViews := rv, wait := wt } ∧ (x.wseq = 0 → wt = g.wait) ∧
        (acq = true → f = s.acquire (s.who g) .part g.floors w.views ∧ rv = g.readViews) ∧
        (acq = false → f = g.floors ∧ rv = g.readViews ++ w.views)) ∧
    (mget [] l.chans c = [] → x.wseq = 0 → g.wait = .none → ∃ u, exec i s = .next u ∧
      u.group? k = some (stands g x s.nextId (.recv x.id)) ∧ u.mem = s.mem)) ∧
  (∀ v, x.kind = .wpush v →
    (g.sys = true → 64 ≤ p.sysq.length → exec i s = .next s) ∧
    (g.sys = false → s.itemRoom g.part g.ep g.tenant = false → exec i s = .next s) ∧
    (∀ h, Closes g x h →
      (g.sys = true → p.sysq.length < 64 → exec i s = .next (partSet (stored s h) g.part fun p => { p with sysq := p.sysq ++ [v] })) ∧
      (g.sys = false → s.itemRoom g.part g.ep g.tenant = true →
        let it : Item := { v := v, views := x.views }
        let chip := here.length < 256 ∧ beyond = []
        exec i s = .next (partSet (stored s h) g.part fun p => { p with
          parts := mset [] p.parts key (if chip then here ++ [it] else here)
          ovItems := mset [] p.ovItems key (if chip then beyond else beyond ++ [it]) })))) ∧
  (∀ poll, x.kind = .wpull poll →
    let mine := fun (h : Group) (y : MemOp) => h.part = g.part ∧ h.sys = g.sys ∧ (g.sys = false → h.ep = g.ep ∧ h.tenant = g.tenant) ∧
      ∃ b, y.kind = .wpull b
    let shown := fun (f : Outst → Outst) => { g with outst := modifyKey (fun o => o.instr) x.instr f g.outst }
    (∀ it rest, PartsOk s g.part → g.sys = false → here ++ beyond = it :: rest → First s mine x → ∃ u h, exec i s = .next u ∧ u.group? k = some h ∧
      h.outst = (ended (shown (fun o => { o with qn := o.qn.map fun q => (q.1, true) })) x it.v).outst ∧
      h.iq = (g.iq.filter fun y => y.id ≠ x.id) ∧ h.readViews = g.readViews ++ it.views ∧
      mget [] (u.part g.part).parts key ++ mget [] (u.part g.part).ovItems key = rest) ∧
    (∀ v rest, PartsOk s g.part → g.sys = true → p.sysq = v :: rest → First s mine x → ∃ u h, exec i s = .next u ∧ u.group? k = some h ∧
      h.iq = (g.iq.filter fun y => y.id ≠ x.id) ∧ (u.part g.part).sysq = rest) ∧
    (poll = false → x.wseq = 0 → g.wait = .none → (if g.sys then p.sysq = [] else here = [] ∧ beyond = []) →
      exec i s = .next (stored { s with nextId := s.nextId + 1 } (stands g x s.nextId (.wpull x.id)))) ∧
    (poll = true → (if g.sys then p.sysq = [] else here = [] ∧ beyond = []) →
      exec i s = .next (stored s (ended (shown fun o => { o with dst := .none }) x 0)))) ∧
  (∀ wt, x.kind = .launch wt → s.offPackage g.part x.pas = false → (∀ a ∈ x.pas, s.poisoned a = false) →
    let free := ((s.freeEntries g.part).part g.part).pending.length < 256
    (s.mayRelease .part g.floors = false → exec i s = .next s) ∧
    (s.mayRelease .part g.floors = true → free → ∃ u f e, exec i s = .next u ∧ u.group? k = some { ended g x 1 with floors := f } ∧
      (u.part g.part).pending = ((s.freeEntries g.part).part g.part).pending ++ [e] ∧ e.tenant = g.tenant ∧ e.ep = g.ep ∧
      e.seq = (s.tenant g.part g.tenant).devSeq + 1 ∧ (u.tenant g.part g.tenant).devSeq = e.seq ∧ e.from_ = g.launch ∧ e.age = s.clock ∧
      u.mem = s.mem) ∧
    (s.mayRelease .part g.floors = true → ¬ free → wt = false → exec i s = .next (stored s (ended g x 0))) ∧
    (s.mayRelease .part g.floors = true → ¬ free → wt = true → x.until_ = 0 → exec i s = .next (stored s { g with
      iq := modifyKey (fun y => y.id) x.id (fun y => { y with until_ := s.clock + 65536 }) g.iq })))

/-- R106 to R109, R193, R194, R199 to R207, R271 to R274, R278: fences, objects, channels, work items and launches as they are performed. -/
def Obligations.SynchronisationPerforms : Prop := BarrierFieldsAndTimeouts ∧ FencesPerform ∧ ObjectsPerform ∧ ChannelsAndWorkPerform

/-! ### Traps and the return from them (R61, R62, R217, R368 to R373) -/

namespace Sys2Proof.Says

/-- The group and path that issue. -/
def Current (s : State) (g : Group) (p : Path) (sec : Bool) : Prop :=
  s.cur = some { gid := g.id, second := sec } ∧ s.group? g.id = some g ∧ g.path? sec = some p

/-- The header of the clause that a path is in, or its own word. -/
def clauseAt (p : Path) : Word64 := match p.clause with | some k => k.at_ | none => p.pc

/-- What raises a trap, and the record it raises: `TRAP`, `BKPT`, a word with a cause of R62 (the lowest code, in all active
lanes), and the entry of a header while a deferred record waits. -/
inductive Raises (s : State) (g : Group) (p : Path) : Instr → TrapInfo → Prop where
  | trap (c : Ctl) (n : BitVec 4) (h : causes (ctxOf g p) (.trap c n) = []) (r : g.flagFull (flagOf p c) = false)
      (m : guardOf g p c ≠ 0) :
      Raises s g p (.trap c n)
        { code := 0x40 + n.toNat, fpc := p.pc, pc := p.pc + 1, hdr := p.pc + 1, amask := p.mask, fmask := guardOf g p c }
  | bkpt (c : Ctl) (n : BitVec 8) (h : causes (ctxOf g p) (.bkpt c n) = []) (r : g.flagFull (flagOf p c) = false)
      (m : guardOf g p c ≠ 0) :
      Raises s g p (.bkpt c n)
        { code := 0x50, fpc := p.pc, pc := p.pc, hdr := clauseAt p, amask := p.mask, fmask := guardOf g p c,
          arg := n.setWidth 64 }
  | reserved (o : BitVec 8) (rest : BitVec 88) :
      Raises s g p (.reservedOpcode o rest)
        { code := 0x01, fpc := p.pc, pc := p.pc, hdr := clauseAt p, amask := p.mask, fmask := p.mask }
  | illegal (c : Ctl) (d : Dst) (x : BitVec 8) (k : Nat) (h : k ∈ causes (ctxOf g p) (.rds c d x))
      (low : ∀ y ∈ causes (ctxOf g p) (.rds c d x), k ≤ y) :
      Raises s g p (.rds c d x)
        { code := k, fpc := p.pc, pc := p.pc, hdr := clauseAt p, amask := p.mask, fmask := p.mask }
  | privileged (c : Ctl) (n m : BitVec 6) (k : Nat) (h : k ∈ causes (ctxOf g p) (.tlbinvPart c n m))
      (low : ∀ y ∈ causes (ctxOf g p) (.tlbinvPart c n m), k ≤ y) :
      Raises s g p (.tlbinvPart c n m)
        { code := k, fpc := p.pc, pc := p.pc, hdr := clauseAt p, amask := p.mask, fmask := p.mask }

/-- The bytes of a trap record (R371), as a number: code, deferred, engine, tenant, header, sequence, FMASK, AMASK, PC, FPC, %wid,
address, argument and s62. -/
def recordNat (g : Group) (i : TrapInfo) : Nat :=
  i.code % 256 + i.deferred.toNat * 2 ^ 15 + i.eng % 8 * 2 ^ 16 + g.tenant % 16 * 2 ^ 28 + i.hdr.toNat % 2 ^ 32 * 2 ^ 32 +
    i.seqn.toNat * 2 ^ 64 + i.fmask.toNat * 2 ^ 128 + i.amask.toNat * 2 ^ 160 + i.pc.toNat % 2 ^ 32 * 2 ^ 192 +
    i.fpc.toNat % 2 ^ 32 * 2 ^ 224 + g.wid.toNat * 2 ^ 256 + i.va.toNat * 2 ^ 320 + i.arg.toNat * 2 ^ 384 + (g.uni 62).toNat * 2 ^ 448

/-- The address of a group's trap record: 64 bytes for each slot of each position in row-major order, from TBASE (R369). -/
def recordAddr (s : State) (g : Group) : Nat :=
  let p := s.part g.part
  ((s.tenant g.part g.tenant).tbase + 64 * (((g.ep / 64 - p.oy) * p.wp + (g.ep % 64 - p.ox)) * 32 + g.slot)) % 2 ^ 64

end Sys2Proof.Says

/-- R61, R62, R217, R250, R368 to R371, R373: what takes a trap waits until the group's flags read clear; then the record is in memory, s62
holds its address, one path with the trapped lanes stands at the handler's entry and the divergence state is saved. In a
handler, without one, or without a place for what the entry saves, the group stops with a machine check: a system group has no handler
(log 16), and a trap area that is not mapped for writing is taken as R368 takes a missing context area (log 16). A deferred record is raised
when a path of its group next enters a header. -/
def Obligations.TrapEntry : Prop :=
  (∀ (i : Instr) (t : TrapInfo) (s : State) (g : Group) (p : Path) (sec : Bool), Current s g p sec → Raises s g p i t →
    (g.handler = none → g.sys = false → (s.tenant g.part g.tenant).hseg ≠ 0 →
      ((∃ k, k < 12 ∧ g.flag k ≠ 0) →
        exec i s = .next (stored s { g with fmask := t.fmask, trap := some { info := t, second := sec } })) ∧
      ((∀ k, k < 12 → g.flag k = 0) →
        s.areaOk g.part g.ep g.slot = false ∨
          (∀ pas, trRange (s.translate g.ep g.part g.tenant .write false) (recordAddr s g) 64 ≠ .ok pas) →
        let h : Group := { g with fmask := t.fmask, trap := some { info := t, second := sec } }
        exec i s = .next ((stored s h).machineCheck h { t with code := 0x63 })) ∧
      (∀ pas, (∀ k, k < 12 → g.flag k = 0) → s.areaOk g.part g.ep g.slot = true →
        trRange (s.translate g.ep g.part g.tenant .write false) (recordAddr s g) 64 = .ok pas → pas.length = 64 → pas.Nodup → s.memOk →
        ∃ u h, exec i s = .next u ∧ u.group? g.id = some h ∧
          leNat (pas.map u.byte) = recordNat g t ∧ (∀ a, a ∉ pas → u.byte a = s.byte a) ∧
          h = { g with
            fmask := t.fmask, trap := none, p0 := h.p0, p1 := none, stack := [], recs := [], handler := h.handler, floors := h.floors,
            s := mset 0 g.s 62 (BitVec.ofNat 64 (recordAddr s g)) } ∧
          h.p0 = some { pc := BitVec.ofNat 64 (s.tenant g.part g.tenant).hent, mask := p.mask, thr := p.thr, hist := p.hist } ∧
          h.handler = some { inSecond := sec, other := g.path? (!sec), stack := g.stack, recs := g.recs, mask := p.mask, jr := p.jr,
                             hdr := t.hdr })) ∧
    (g.handler ≠ none ∨ g.sys = true ∨ (s.tenant g.part g.tenant).hseg = 0 →
      ∃ u, exec i s = .next u ∧ u = s.machineCheck g { t with code := if g.handler = none then 0x61 else 0x62 } ∧
        ∃ h, u.group? g.id = some h ∧ h.wait = .stopped)) ∧
  (∀ (h : Header) (t : TrapInfo) (r : List TrapInfo) (s : State) (g : Group) (p : Path) (sec : Bool), Current s g p sec →
    p.clause = none → g.deferred = t :: r → g.handler = none → g.sys = false → (s.tenant g.part g.tenant).hseg ≠ 0 →
    (∃ k, k < 12 ∧ g.flag k ≠ 0) →
    exec (.clause h) s = .next (stored s { g with
      deferred := r
      fmask := p.mask
      trap := some { second := sec, info := { t with
        fpc := p.pc, pc := p.pc, hdr := p.pc, amask := p.mask, fmask := p.mask, deferred := true } } }))

/-- R370, R372: `RTT` outside a handler takes context-state; in one it restores what the entry saved, takes AMASK, PC and s62 from
the record, as a load at the `RTT` reads it (R270), and goes on at PC: at a header, or inside the clause that trapped. -/
def Obligations.ReturnFromTrap : Prop :=
  ∀ (c : Ctl) (n : BitVec 6) (s : State) (g : Group) (p : Path) (sec : Bool), Issues s (.rtt c n) c g p sec → guardOf g p c ≠ 0 →
    (g.handler = none → Faults (.rtt c n) c s g p sec 0x3B 0) ∧
    (∀ d pas, g.handler = some d → trRange (s.trGroup g .read) (g.uni n.toNat).toNat 64 = .ok pas → g.iq = [] →
      (∀ a ∈ pas, s.poisoned a = false) →
      let rd := loadBytes s (s.who g) (s.openCut (g.uni n.toNat).toNat) pas
        (List.ofFn fun k : Fin pas.length => g.loc ((g.uni n.toNat).toNat + k) (pas[k])) g.floors
      let x := leNat rd.1
      let am : Lanes := BitVec.ofNat 32 (field x 160 32)
      let pc : Word64 := BitVec.ofNat 64 (field x 192 32)
      let base := (s.hdrOf g).code
      (am = 0 ∨ am &&& ~~~d.mask ≠ 0 → pas.length = 64 → Faults (.rtt c n) c s g p sec 0x3B 0) ∧
      (∀ h, am ≠ 0 → am &&& ~~~d.mask = 0 → pas.length = 64 → d.recs = [] →
        ((∃ w, s.codeWord g base pc = .ok w ∧ w >>> 88 = 0xF0#96 ∧ h = pc) ∨
          (∃ w v, s.codeWord g base pc = .ok w ∧ w >>> 88 ≠ 0xF0#96 ∧ s.codeWord g base d.hdr = .ok v ∧ h = d.hdr ∧
            d.hdr.toNat < pc.toNat ∧ pc.toNat ≤ d.hdr.toNat + (headerOf v).len.toNat)) →
        ∃ h', exec (.rtt c n) s = .next (stored s h') ∧
          h' = { g with
            handler := none, cancel := false, stack := d.stack, recs := [], floors := rd.2.1, p0 := h'.p0, p1 := h'.p1
            s := mset 0 g.s 62 (BitVec.ofNat 64 (field x 448 64)) } ∧
          h'.path? (!d.inSecond) = d.other ∧
          h'.path? d.inSecond =
            some { pc := h, mask := am, jr := d.jr, thr := p.thr, hist := p.hist, resume := if pc = h then none else some pc }))

/-! ### Privileged instructions (R252, R256, R348 to R353, R393 to R411) -/

namespace Sys2Proof.Says

/-- The instruction has made an effect on the machine, and its path moves on. -/
def Makes (i : Instr) (s' : State) (g : Group) (p : Path) (sec : Bool) (s : State) : Prop :=
  exec i s = .next (stored s' (onPath g sec (onward p)))

/-- It has also given a uniform register's value to a record that a flag follows. -/
def Gives (i : Instr) (c : Ctl) (d : BitVec 6) (v : Word64) (s' : State) (g : Group) (p : Path) (sec : Bool) (s : State) : Prop :=
  exec i s = .next (stored { s' with nextId := s'.nextId + 1 } (onPath
    { begun g s'.nextId true (flagOf p c) (.uni d.toNat) 1 false [] with
      outst := { instr := s'.nextId, flag := flagOf p c, dst := .uni d.toNat, pend := 1, ready := 1, vals := mset 0 [] 0 v } :: g.outst }
    sec (onward p)))

/-- A partition with one slot, or one tenant, changed. -/
def slotSet (s : State) (k j : Nat) (f : Slot → Slot) : State :=
  { s with parts := mset {} s.parts k { s.part k with slots := mset {} (s.part k).slots j (f ((s.part k).slot j)) } }
def tenantSet (s : State) (k t : Nat) (f : Tenant → Tenant) : State :=
  { s with parts := mset {} s.parts k { s.part k with tenants := mset {} (s.part k).tenants t (f ((s.part k).tenant t)) } }

/-- The state word of a slot (R351). -/
def slotState (q : Slot) : Nat :=
  if q.mapped then q.qid + 2 ^ 12 + q.susp.toNat * 2 ^ 13 + q.expired.toNat * 2 ^ 14 + q.waiting.toNat * 2 ^ 15 else 0

/-- The words of an error bank (R402). -/
def bankWord (b : ErrBank) (w : Nat) : Word64 :=
  match w with
  | 0 => BitVec.ofNat 64 (b.held.val.toNat + 2 * b.held.uc.toNat + 4 * b.ovf.toNat + 8 * b.lat.toNat + b.held.src % 16 * 2 ^ 4 +
      b.held.tv.toNat * 2 ^ 19 + b.held.tnt % 16 * 2 ^ 20 + b.ucnt % 2 ^ 16 * 2 ^ 32 + b.ccnt % 2 ^ 16 * 2 ^ 48)
  | 1 => b.held.syn
  | 2 => b.held.clk
  | _ => b.held.loc

end Sys2Proof.Says

/-- R252, R256, R351, R353, R407, R408, R410: translation buffers, queues and partitions. Every operand within its limits has its
effect at once; an operand beyond them takes object-operand, and so does a slot that is not mapped, or a map whose descriptor or tenant
record fails its check, which is the model's reading (log 58). -/
def Obligations.SupervisorInstructions : Prop :=
  ∀ (c : Ctl) (d n m : BitVec 6) (s : State) (g : Group) (p : Path) (sec : Bool), guardOf g p c ≠ 0 →
  let a := (g.uni n.toNat).toNat
  let b := (g.uni m.toNat).toNat
  let k := g.part
  let q := (s.part k).slot b
  let bad := fun (i : Instr) => Faults i c s g p sec 0x28 0
  (Issues s (.tlbinvVa c n m) c g p sec →
    (b < 16 → Makes (.tlbinvVa c n m)
      { s with tlb := s.tlb.filter fun x => !decide (x.part = k ∧ x.tenant = b ∧ x.va ≤ a ∧ a < x.va + x.size) } g p sec s) ∧
    (16 ≤ b → bad (.tlbinvVa c n m))) ∧
  (Issues s (.tlbinvTnt c n m) c g p sec →
    (b < 16 → Makes (.tlbinvTnt c n m) { s with tlb := s.tlb.filter fun x => !decide (x.part = k ∧ x.tenant = b) } g p sec s) ∧
    (16 ≤ b → bad (.tlbinvTnt c n m))) ∧
  (Issues s (.tlbinvPart c n m) c g p sec →
    Makes (.tlbinvPart c n m) { s with tlb := s.tlb.filter fun x => !decide (x.part = k) } g p sec s) ∧
  (Issues s (.qctlMap c d n m) c g p sec →
    (∀ u, s.mapQueue k a b = some u → Makes (.qctlMap c d n m) u g p sec s ∧
      let x := s.qdesc k ((a - (s.part k).qtbase) / 64)
      let r := (u.part k).slot b
      q.mapped = false ∧ r.mapped = true ∧ r.qid = field x 0 12 ∧ r.lgn = field x 20 4 ∧ r.tenant = field x 28 4 ∧
        r.prio = field x 32 5 ∧ r.npre = x.testBit 37 ∧ r.org = field x 38 2 ∧ r.tail.toNat = field x 96 32 ∧
        r.rbase = field x 128 64 ∧ r.stsa = field x 192 64) ∧
    (s.mapQueue k a b = none → bad (.qctlMap c d n m)) ∧ (128 ≤ b ∨ a % 64 ≠ 0 ∨ q.mapped = true → bad (.qctlMap c d n m))) ∧
  (Issues s (.qctlUnmap c d n m) c g p sec →
    (b < 128 → q.mapped = true → s.slotBusy k b = false →
      Makes (.qctlUnmap c d n m) (s.unmapQueue k b) g p sec s ∧
        (mwf ({} : Partition) s.parts = true → mwf ({} : Slot) (s.part k).slots = true → ((s.unmapQueue k b).part k).slot b = {})) ∧
    (128 ≤ b ∨ q.mapped = false ∨ s.slotBusy k b = true → bad (.qctlUnmap c d n m))) ∧
  (Issues s (.qctlPrio c d n m) c g p sec →
    (b < 128 → q.mapped = true → Makes (.qctlPrio c d n m) (slotSet s k b fun q => { q with prio := a % 32 }) g p sec s) ∧
    (128 ≤ b ∨ q.mapped = false → bad (.qctlPrio c d n m))) ∧
  (Issues s (.qctlSusp c d n m) c g p sec →
    (b < 128 → q.mapped = true → Makes (.qctlSusp c d n m) (slotSet s k b fun q => { q with susp := true }) g p sec s) ∧
    (128 ≤ b ∨ q.mapped = false → bad (.qctlSusp c d n m))) ∧
  (Issues s (.qctlResm c d n m) c g p sec →
    (b < 128 → q.mapped = true → Makes (.qctlResm c d n m)
      ((slotSet s k b fun q => { q with susp := false, wdogAt := s.clock }).stayAll k) g p sec s) ∧
    (128 ≤ b ∨ q.mapped = false → bad (.qctlResm c d n m))) ∧
  (Issues s (.qctlState c d n m) c g p sec →
    (b < 128 → Gives (.qctlState c d n m) c d (BitVec.ofNat 64 (slotState q)) s g p sec s) ∧ (128 ≤ b → bad (.qctlState c d n m))) ∧
  (Issues s (.pctlCfg c d n m) c g p sec → Gives (.pctlCfg c d n m) c d (BitVec.ofNat 64 (s.part k).cfgAt) s g p sec s) ∧
  (Issues s (.pctlIw c d n m) c g p sec →
    (a < 16 → 1 ≤ b → b ≤ 255 → Makes (.pctlIw c d n m) (tenantSet s k a fun t => { t with iw := b }) g p sec s) ∧
    (16 ≤ a ∨ b = 0 ∨ 255 < b → bad (.pctlIw c d n m))) ∧
  (Issues s (.pctlStop c d n m) c g p sec →
    Makes (.pctlStop c d n m) (partSet s k fun x => { x with stopped := true }) g p sec s) ∧
  (Issues s (.pctlGo c d n m) c g p sec →
    Makes (.pctlGo c d n m) ((partSet s k fun x => { x with stopped := false }).stayAll k) g p sec s) ∧
  (Issues s (.pctlReset c d n m) c g p sec →
    ((s.part k).stopped = false → Faults (.pctlReset c d n m) c s g p sec 0x3B 0) ∧
    ((s.part k).stopped = true → s.resetPart k = none → bad (.pctlReset c d n m)) ∧
    (∀ u, (s.part k).stopped = true → s.resetPart k = some u → Makes (.pctlReset c d n m) u g p sec s))

/-- R393 to R395, R402, R403, R408, R384, R386, R409, R411: error banks, watchdogs, energy accounts and context images. The model's
readings: a bank of a quadrant outside the partition, and the watchdog of a slot that is not mapped, take object-operand (logs 93, 58);
word 0 of a bank returns LAT as it was before the read (log 60); `WDOG` starts a period (log 61); and the faults of a context instruction
come in the order 0x21, 0x28, 0x30 (log 65). -/
def Obligations.BanksAccountsContexts : Prop :=
  ∀ (c : Ctl) (d n m : BitVec 6) (s : State) (g : Group) (p : Path) (sec : Bool), guardOf g p c ≠ 0 →
  let a := (g.uni n.toNat).toNat
  let b := (g.uni m.toNat).toNat
  let k := g.part
  let bank := mget ({} : ErrBank) s.errs a
  let bad := fun (i : Instr) => Faults i c s g p sec 0x28 0
  let own := (s.part k).quads.contains (if a < 4 then a else (a - 4) / 2)
  (Issues s (.errrdRd c d n m) c g p sec →
    (a < 12 → b < 4 → own = true → Gives (.errrdRd c d n m) c d (bankWord bank b)
      { s with errs := mset {} s.errs a (if b = 0 then { bank with lat := true } else bank) } g p sec s) ∧
    (12 ≤ a ∨ 4 ≤ b ∨ own = false → bad (.errrdRd c d n m))) ∧
  (Issues s (.errrdRdclr c d n m) c g p sec →
    (a < 12 → b < 4 → own = true → Gives (.errrdRdclr c d n m) c d (bankWord bank b)
      { s with errs := mset {} s.errs a { held := match bank.pend with | some r => r | none => {} } } g p sec s) ∧
    (12 ≤ a ∨ 4 ≤ b ∨ own = false → bad (.errrdRdclr c d n m))) ∧
  (Issues s (.wdogSet c n m) c g p sec →
    (a < 128 → ((s.part k).slot a).mapped = true → (b = 0 ∨ 10 ≤ b ∧ b ≤ 10000000) →
      Makes (.wdogSet c n m) (slotSet s k a fun q => { q with wdogUs := b, wdogAt := s.clock }) g p sec s) ∧
    (128 ≤ a ∨ ((s.part k).slot a).mapped = false ∨ (b ≠ 0 ∧ b < 10) ∨ 10000000 < b → bad (.wdogSet c n m))) ∧
  (Issues s (.enrgBal c d n m) c g p sec →
    (a < 16 → Gives (.enrgBal c d n m) c d (BitVec.ofInt 64 (((s.part k).tenant a).balance / 1000000)) s g p sec s) ∧
    (16 ≤ a → bad (.enrgBal c d n m))) ∧
  (Issues s (.enrgCoef c d n m) c g p sec →
    (a ≤ 13 → b < 2 ^ 32 → Makes (.enrgCoef c d n m)
      (partSet s k fun x => { x with coef := mset none x.coef a (some (BitVec.ofNat 32 b)) }) g p sec s) ∧
    (13 < a ∨ 2 ^ 32 ≤ b → bad (.enrgCoef c d n m))) ∧
  (Issues s (.enrgBurst c d n m) c g p sec →
    (1 ≤ b → b ≤ 4 → ∃ u, Makes (.enrgBurst c d n m) u g p sec s ∧ (mwf ({} : Partition) s.parts = true → (u.part k).brst = b)) ∧
    (b = 0 ∨ 4 < b → bad (.enrgBurst c d n m))) ∧
  (Issues s (.enrgShare c d n m) c g p sec →
    let others := ((List.range 4).map fun j => if j ≠ k ∧ (s.part j).exists_ = true then (s.part j).share else 0).sum
    (others + b ≤ 1800000 →
      ∃ u, Makes (.enrgShare c d n m) u g p sec s ∧ (mwf ({} : Partition) s.parts = true → (u.part k).share = b)) ∧
    (1800000 < others + b → bad (.enrgShare c d n m))) ∧
  (Issues s (.ctxsv c d n m) c g p sec →
    let q := (s.part k).slot a
    (2 ^ 56 ≤ b → Faults (.ctxsv c d n m) c s g p sec 0x21 b) ∧
    (paExists b = true → b < 2 ^ 56 → 128 ≤ a → bad (.ctxsv c d n m)) ∧
    (paExists b = true → b < 2 ^ 56 → a < 128 → b % 4096 ≠ 0 → Faults (.ctxsv c d n m) c s g p sec 0x30 0) ∧
    (paExists b = true → b < 2 ^ 56 → a < 128 → b % 4096 = 0 →
      (q.mapped = false ∨ q.susp = false ∨ q.npre = true ∨ (s.part k).stopped = false → Gives (.ctxsv c d n m) c d 0 s g p sec s) ∧
      (∀ u bytes, q.mapped = true → q.susp = true → q.npre = false → (s.part k).stopped = true → s.saveReady (s.slotBlocks k a) = true →
        s.moves = [] → s.saveSlot k a b = some (u, bytes) → Gives (.ctxsv c d n m) c d (BitVec.ofNat 64 bytes) u g p sec s))) ∧
  (Issues s (.ctxld c d n m) c g p sec →
    let q := (s.part k).slot b
    let hdr := (List.range 64).map fun j => s.devByte (a + j)
    let size := field (leNat hdr) 128 64
    let body := (List.range (size - 64)).map fun j => s.devByte (a + 64 + j)
    paExists a = true → a < 2 ^ 56 → b < 128 → a % 4096 = 0 → 64 ≤ size → paExists (a + size - 1) = true →
      (a + size - 1) / 2 ^ 54 = a / 2 ^ 54 →
      ((s.part k).checkImage hdr body ≠ 0 →
        Gives (.ctxld c d n m) c d (BitVec.ofNat 64 ((s.part k).checkImage hdr body)) s g p sec s) ∧
      ((s.part k).checkImage hdr body = 0 → q.mapped = false ∨ q.susp = false ∨ (s.part k).stopped = false →
        Gives (.ctxld c d n m) c d 4 s g p sec s) ∧
      (∀ im u, (s.part k).checkImage hdr body = 0 → q.mapped = true → q.susp = true → (s.part k).stopped = true →
        (leNat hdr).testBit 23 = false → s.images.find? (fun x => x.header == hdr) = some im → im.slot.qid = q.qid →
        s.loadSlot k b im = some u → Gives (.ctxld c d n m) c d 0 u g p sec s))

/-! ### Engines as they run (R90, R103, R104, R110, R213, R214, R219, R223, R234, R300, R305, R333) -/

namespace Sys2Proof.Says

/-- The offset in an unstaged scroll's data of byte b of element e of source i, and of local-store byte b at a position. -/
def stageAt (z i e b : Nat) : Nat := i * 2 ^ 19 + e * z + b
def storeAt (ep off : Nat) : Nat := ep * 2 ^ 19 + off

/-- An element of a stretch: from its first on, so many. -/
def Between (w : Nat × Nat) (e : Nat) : Prop := w.1 ≤ e ∧ e < w.1 + w.2

/-- A command with its one destination replaced. -/
def withDst (s : State) (c : Cmd) (x : CDst) : State :=
  { s with cmds := modifyKey (fun y => y.id) c.id (fun _ => { c with dests := [x] }) s.cmds }

/-- Whether a destination of a copy to the pan waits at a position for a permit. -/
def AsksAt (c : Cmd) (y : CDst) (e : Nat) : Prop :=
  ∃ d, c.kind = .copy d ∧ d.dpan = true ∧ (d.ck = 2 → y.slot ≠ none) ∧ y.ep = e ∧ y.queued ≠ 0

end Sys2Proof.Says

/-- R219, R251, R285, R289, R290: a running scroll reads all its elements, in stretches that come in any order, before it writes the first; a
staged one keeps them in the partition's staging region, each at its place there, where they stay (log 34). It then writes position by position; an element that leaves the sub-pan goes,
in address order, to its place in the spill record, whose tail is zero. Nothing else of any store or of memory changes, and the last
position ends the scroll. One that does not run stands. -/
def Obligations.ScrollProgress : Prop :=
  ∀ (k cut : Nat) (d : ScrollD) (c : Cmd) (s : State), s.cmd? k = some c → c.kind = .scroll d → d.r.len ≤ 2 ^ 19 →
    let z := elemSize d.r.fmt
    let per := d.r.len / z
    let off := fun e => (s.rangeOf c.launch).1 + d.r.off + e * z
    let w := (takeLeft cut c.left).1
    let rest := (takeLeft cut c.left).2
    let at_ := fun x e b => (s.part c.part).stgbase.toNat + (s.part c.part).posIx x * 393216 + off e + b
    (s.scrollRuns c = false → exec (.scrollProgress k cut) s = .next s) ∧
    (s.scrollRuns c = true → c.phase = 0 → exec (.scrollProgress k cut) s = .next { s with
      cmds := modifyKey (fun y => y.id) c.id (fun _ => { c with phase := 1, left := allOf (d.sources.length * per) }) s.cmds }) ∧
    (s.scrollRuns c = true → c.phase = 1 → d.staged = false → mwf (0 : Byte) c.staged = true →
      (∀ e, Between w e → ∃ x, d.sources[e / per]? = some x ∧ s.holdsBlock c.launch x = true ∧ s.isHole x = false) →
      ∃ u c', exec (.scrollProgress k cut) s = .next u ∧ u.cmd? k = some c' ∧ c'.pos = c.pos ∧
        c'.phase = (if rest = [] then 3 else 1) ∧ c'.left = (if rest = [] then allOf per else rest) ∧
        (∀ e x b, Between w e → d.sources[e / per]? = some x → b < z →
          mget 0 c'.staged (stageAt z (e / per) (e % per) b) = mget 0 s.lstore (storeAt x (off (e % per) + b))) ∧
        (∀ q, (∀ e b, Between w e → b < z → q ≠ stageAt z (e / per) (e % per) b) → mget 0 c'.staged q = mget 0 c.staged q) ∧
        u = { s with cmds := u.cmds, groups := u.groups }) ∧
    (s.scrollRuns c = true → c.phase = 1 → d.staged = true → (s.part c.part).stgbase ≠ 0 → s.memOk →
      (∀ e, Between w e → ∃ x, d.sources[e / per]? = some x ∧ s.holdsBlock c.launch x = true ∧ s.isHole x = false ∧
        ∀ b, b < z → paExists (at_ x (e % per) b) = true) →
      (∀ e f x y a b, Between w e → Between w f → e ≠ f → d.sources[e / per]? = some x → d.sources[f / per]? = some y → a < z → b < z →
        at_ x (e % per) a ≠ at_ y (f % per) b) →
      ∃ u c', exec (.scrollProgress k cut) s = .next u ∧ u.cmd? k = some c' ∧ c'.pos = c.pos ∧
        c'.phase = (if rest = [] then 3 else 1) ∧ c'.left = (if rest = [] then allOf per else rest) ∧ u.lstore = s.lstore ∧
        (∀ e x b, Between w e → d.sources[e / per]? = some x → b < z →
          u.byte (at_ x (e % per) b) = mget 0 s.lstore (storeAt x (off (e % per) + b))) ∧
        ∀ q, (∀ e x b, Between w e → d.sources[e / per]? = some x → b < z → q ≠ at_ x (e % per) b) → u.byte q = s.byte q) ∧
    (s.scrollRuns c = true → c.phase = 3 → ∀ src, d.sources[c.pos]? = some src →
      let got := fun e b => if d.staged then s.byte (at_ src e b) else mget 0 c.staged (stageAt z c.pos e b)
      (∀ x, scrollDest (s.part c.part) d src = some x → s.holdsBlock c.launch x = true → s.isHole x = false → s.storeOk →
        (∀ e b, Between w e → b < z → s.liveAt x (off e + b) = false) →
        ∃ u c', exec (.scrollProgress k cut) s = .next u ∧ u.cmd? k = some c' ∧ u.mem = s.mem ∧
          c'.pos = (if rest = [] then c.pos + 1 else c.pos) ∧ c'.left = (if rest = [] then allOf per else rest) ∧
          c'.status = (if rest = [] ∧ c.pos + 1 = d.sources.length then 1 else 0) ∧
          (∀ e b, Between w e → b < z → mget 0 u.lstore (storeAt x (off e + b)) = got e b) ∧
          ∀ q, (∀ e b, Between w e → b < z → q ≠ storeAt x (off e + b)) → mget 0 u.lstore q = mget 0 s.lstore q) ∧
      (∀ e m r pas, scrollDest (s.part c.part) d src = none → c.left = (e, m) :: r →
        let spills := (d.sources.take c.pos).countP fun x => (scrollDest (s.part c.part) d x).isNone
        let len := (d.r.len + 31) / 32 * 32
        let n := if e + 1 = per then len - e * z else z
        let more := if m ≤ 1 then r else (e + 1, m - 1) :: r
        (spills + 1) * len ≤ d.spl → s.touch c .write false (d.spb + spills * len + e * z) n = .ok pas → pas.Nodup → s.memOk →
        s.offPackage c.part pas = false →
        ∃ u c', exec (.scrollProgress k cut) s = .next u ∧ u.cmd? k = some c' ∧ u.lstore = s.lstore ∧
          c'.pos = (if more = [] then c.pos + 1 else c.pos) ∧ c'.left = (if more = [] then allOf per else more) ∧
          c'.spilled = (if e + 1 = per then c.spilled + 1 else c.spilled) ∧
          c'.status = (if more = [] ∧ c.pos + 1 = d.sources.length then 1 else 0) ∧
          pas.map u.byte = ((List.range z).map fun b => got e b) ++ List.replicate (n - z) 0 ∧
          ∀ a, a ∉ pas → u.byte a = s.byte a))

/-- R333, R381: the next run of a copy to memory is granted at once; one to a position asks, and is granted when none that asked before
waits there and fewer than eight runs hold a permit. No run is granted once a save has begun of the block that it completes into, reads,
or was issued by. -/
def Sys2Proof.Says.RunsAreGranted : Prop :=
  ∀ (k : Nat) (d : CopyD) (c : Cmd) (x : CDst) (s : State), s.cmd? k = some c → c.kind = .copy d → c.status = 0 → s.waits c = false →
    c.dests = [x] → d.op ≠ 3 → d.ck ≠ 2 → x.done = false → x.granted = false → x.due = none → s.waitsPrev c = false →
    let mine := fun (b : Block) => b.launch = c.launch ∧ (b.ep = x.ep ∨ b.id = c.block ∨ (d.span = true ∧ b.ep = panPos d.srca))
    let permits := (s.cmds.map fun y => match y.kind with
          | .copy e => if e.dpan then y.dests.countP fun z => z.ep == x.ep && z.granted else 0
          | _ => 0).sum
    ((∃ b ∈ s.blocks, b.saving = true ∧ mine b) → exec (.copyRunGrant k) s = .next s) ∧
    ((∀ b ∈ s.blocks, mine b → b.saving = false) → (∀ q ∈ s.parked, ∀ b ∈ q.blocks, ¬ mine b) →
      (d.dpan = false → exec (.copyRunGrant k) s = .next (withDst s c { x with granted := true, queued := 0 })) ∧
      (d.dpan = true → x.queued = 0 →
        exec (.copyRunGrant k) s = .next (withDst { s with nextId := s.nextId + 1 } c { x with queued := s.nextId })) ∧
      (d.dpan = true → x.queued ≠ 0 → (∀ y ∈ s.cmds, ∀ z ∈ y.dests, AsksAt y z x.ep → x.queued ≤ z.queued) →
        (permits < 8 → exec (.copyRunGrant k) s = .next (withDst s c { x with granted := true, queued := 0 })) ∧
        (8 ≤ permits → exec (.copyRunGrant k) s = .next s)))

/-- The bytes that an element of a copy reads, at a moment that `cut` chooses: those of memory that its thread may see, or those of a store;
a `CPYM` takes a byte that it has read before as it read it (R223, R334). -/
def ElemBytes (s : State) (c : Cmd) (d : CopyD) (cut : Nat) (src : Spot) (bytes : List Byte) : Prop :=
  let once := fun (a : Nat) (b : Byte) => if d.op = 1 then (c.keptByte src a).getD b else b
  match src with
  | .mem va pas => pas.length = d.z ∧ s.offPackage c.part pas = false ∧
      let bs := (loadBytes s c.who cut pas ((List.range d.z).map fun i => c.loc (va + i) (pas.getD i 0)) c.floors).1
      bytes = (List.range d.z).map fun i => once (va + i) (bs.getD i 0)
  | .pan e off => s.isHole e = false ∧ s.holdsBlock c.launch e = true ∧
      bytes = (List.range d.z).map fun i => once (off + i) (mget 0 s.lstore (storeAt e (off + i)))
  | .net _ => False

/-- An element's destination, a store or memory, holds bytes in `u`, and every other byte of both is as in `s`. -/
def Landed (s u : State) (d : CopyD) (dst : Spot) (bytes : List Byte) : Prop :=
  match dst with
  | .mem _ pas => pas.map u.byte = bytes ∧ (∀ a, a ∉ pas → u.byte a = s.byte a) ∧ u.lstore = s.lstore
  | .pan p off => ((List.range d.z).map fun i => mget 0 u.lstore (storeAt p (off + i))) = bytes ∧
      (∀ q, (∀ i, i < d.z → q ≠ storeAt p (off + i)) → mget 0 u.lstore q = mget 0 s.lstore q) ∧ u.mem = s.mem
  | .net _ => False

/-- An element may be written: to memory of the package, or to a store that still holds a block, away from live objects. -/
def MayLand (s : State) (c : Cmd) (d : CopyD) : Spot → Prop
  | .mem _ pas => pas.length = d.z ∧ pas.Nodup ∧ s.memOk ∧ s.offPackage c.part pas = false
  | .pan p off => s.isHole p = false ∧ s.holdsBlock c.launch p = true ∧ s.storeOk ∧
      ∀ o, off / 32 * 32 ≤ o → o < (off + d.z - 1) / 32 * 32 + 32 → s.liveAt p o = false
  | .net _ => False

/-- A place is a store whose position holds no block of the launch any more, and is no hole (R285). -/
def Lost (s : State) (c : Cmd) : Spot → Prop
  | .pan p _ => s.holdsBlock c.launch p = false ∧ s.isHole p = false
  | _ => False

/-- R104, R214, R216, R223, R275, R429: a run with a permit begins by finding its elements, and moves them one by one, each after those
before it that it meets: it reads an element, and writes it in a later step. A fault holds the copy before any of them has moved; whatever
else bars the element behind them stops it there (log 83), and so does a position that has lost its block. For a copy without a completion
object: the destination takes an element's bytes, and every other byte stays; with the run's last element its permit returns, and the copy
ends when no element is left. -/
def Sys2Proof.Says.RunsLand : Prop :=
  ∀ (k cut : Nat) (d : CopyD) (c : Cmd) (x : CDst) (s : State), s.cmd? k = some c → c.kind = .copy d →
    c.status = 0 → s.waits c = false → c.dests = [x] → c.err = false → c.follow = none → d.op ≠ 3 → d.ck = 0 → s.uncorr = [] →
    c.stopAt = none → x.done = false → x.granted = true → x.due = none → x.slot = none → x.dropped = [] →
    (x.left = [] →
      let r := s.plan d x cut (d.count - x.pos) x.pos none c.ntok [] c
      s.offPackage c.part r.lists = false →
      (r.bar = none → r.els ≠ [] → ∃ u c', exec (.copyRunLand k cut) s = .next u ∧ u.cmd? k = some c' ∧ u.mem = s.mem ∧
        u.lstore = s.lstore ∧ c' = { r.c with dests := [{ x with left := r.els, before := x.landed.length, pos := r.next }] }) ∧
      (∀ va wr t, r.bar = some (.miss va wr t) → exec (.copyRunLand k cut) s = .next (s.holdFault { c with lim := r.next } va wr t)) ∧
      (r.bar = some .access → r.els = [] → ∃ u c', exec (.copyRunLand k cut) s = .next u ∧ u.cmd? k = some c' ∧ c'.status = 2 ∧
        c'.err = true ∧ c'.sts = 2 ∧ u.mem = s.mem ∧ u.lstore = s.lstore)) ∧
    (∀ (e : Elem), pickElem d.z cut x.left = some e →
      (∀ bytes, e.got = none → ElemBytes s c d (cut / x.left.length) e.src bytes → ¬ Lost s c e.dst →
        ∃ u c', exec (.copyRunLand k cut) s = .next u ∧ u.cmd? k = some c' ∧ u.mem = s.mem ∧ u.lstore = s.lstore ∧ u.co = s.co ∧
          c'.dests = [{ x with left := x.left.map fun f => if f.n = e.n then { f with got := some bytes } else f }] ∧ c'.status = 0) ∧
      (∀ bytes, e.got = some bytes → bytes.length = d.z → MayLand s c d e.dst →
        let rest := x.left.filter fun f => f.n ≠ e.n
        let ends := decide (rest = [] ∧ d.count ≤ x.pos)
        ∃ u c' l, exec (.copyRunLand k cut) s = .next u ∧ u.cmd? k = some c' ∧ Landed s u d e.dst bytes ∧
          c'.dests = [{ x with left := rest, granted := decide (rest ≠ []), landed := l, done := ends }] ∧
          c'.status = (if ends then 1 else 0)) ∧
      (Lost s c e.dst ∨ (e.got = none ∧ Lost s c e.src) →
        ∃ u c', exec (.copyRunLand k cut) s = .next u ∧ u.cmd? k = some c' ∧ u.mem = s.mem ∧ u.lstore = s.lstore ∧ c'.err = true ∧
          c'.sts = 1 ∧ c'.stopAt = some e.n ∧ ∀ y ∈ c'.dests, ∀ f ∈ y.left, f.n < e.n))

/-- R104, R223, R333: a copy's runs get their permits, and land. -/
def Obligations.CopyRuns : Prop := RunsAreGranted ∧ RunsLand

/-- R110, R111, R213, R214, R217: a command completes only when its effects are made, and an entry with WPRV after the entry before it; its
number then completes and it leaves, after an arrival of one at the barrier it names, and its deferred traps reach its group. A completed
chain entry writes DONE, STS and SEQN in its record, and leaves; that an error without a status of its own is STS 1, and that its interrupt
goes to the tenant's vector of the chain, are the model's readings (log 43). -/
def Obligations.EngineCompletions : Prop :=
  (∀ (k : Nat) (c : Cmd) (s : State), s.cmd? k = some c → c.status = 0 → exec (.engineCommandCompletion k) s = .next s) ∧
  (∀ (k : Nat) (c : Cmd) (l : Launch) (s : State), s.cmd? k = some c → c.status ≠ 0 → s.waits c = false → c.chain = none →
    (∀ d, c.kind ≠ .copy d) → (∀ g ∈ s.groups, g.scroll.cmd ≠ some k) → s.launch? c.launch = some l → l.finished = [] →
    let key := c.eng * 4096 + c.inst
    mget 0 l.done key + 1 = c.seq →
    let told := modifyKey (fun g => g.id) c.gid (fun g => { g with deferred := g.deferred ++ c.traps }) s.groups
    (c.compl = .none → ∃ u l', exec (.engineCommandCompletion k) s = .next u ∧ u.cmds = s.cmds.filter (fun x => x.id ≠ k) ∧
      u.launch? c.launch = some l' ∧ mget 0 l'.done key = c.seq ∧ u.mem = s.mem ∧ u.lstore = s.lstore ∧ u.groups = told) ∧
    (∀ o, c.compl = .barrier o → c.err = false → c.clb = false → s.objLive o = true → s.storeOk →
      s.mayRelease .part c.floors = true → s.mayUpdate o 2 0 (barArrive 1) = true →
      ∃ u l', exec (.engineCommandCompletion k) s = .next u ∧ u.cmds = s.cmds.filter (fun x => x.id ≠ k) ∧
        u.launch? c.launch = some l' ∧ mget 0 l'.done key = c.seq ∧ u.objVal o = barArrive 1 (s.objVal o) ∧ u.mem = s.mem ∧
        u.groups = told)) ∧
  (∀ (k : Nat) (c : Cmd) (s : State), s.cmd? k = some c → s.waitsPrev c = true → exec (.engineCommandCompletion k) s = .next s) ∧
  (∀ (k : Nat) (c : Cmd) (r : ChainRef) (pas : List Nat) (s : State), s.cmd? k = some c → c.chain = some r → r.done = true →
    r.wrote = false → s.waits c = false → (s.part c.part).lockstep = false → s.touch c .write false r.entry 32 = .ok pas → pas.Nodup → s.memOk → c.sts < 128 →
    (∀ x ∈ s.cmds, x.id ≠ k → x.chain = none) →
    ∃ u, exec (.chainEntryComplete k) s = .next u ∧ u.cmds = s.cmds.filter (fun x => x.id ≠ k) ∧
      leNat (pas.map u.byte) = leNat (pas.map s.byte) % 2 ^ 192 + 2 ^ 192 *
        (2 ^ 63 + (if c.sts ≠ 0 then c.sts else if c.clb = true then 3 else if c.err = true then 1 else 0) * 2 ^ 56 + c.seq % 2 ^ 56) ∧
      (∀ a, a ∉ pas → u.byte a = s.byte a) ∧
      u.irqs = s.irqs ++ if r.irq then [{ kind := 11, part := c.part, a := c.tenant, b := r.chain }] else [])

namespace Sys2Proof.Says

/-- The array takes the next step of this command: it is first for the array's owner, has neither ended nor a held fault, and waits for
no other and for no signature. -/
def RunsNext (s : State) (arr : Nat) (c : Cmd) : Prop :=
  s.nextArr arr = some c ∧ s.arrayOf c.ep = arr ∧ (mget {} s.arrays arr).owner = some c.launch ∧ c.status = 0 ∧ s.waits c = false ∧
    s.uncorr = [] ∧ c.kind.isArr = true ∧ s.waitsPrev c = false

/-- The floors it goes on with: its own and those that its predecessor on the array left (R276). -/
def arrFloors (s : State) (arr : Nat) (c : Cmd) : Map Nat := s.joinFloors c.floors (mget {} s.arrays arr).floors

/-- A command as it stands in a state. -/
def cmdIn (s : State) (k : Nat) : Option Cmd := findKey (fun c => c.id) k s.cmds

/-- The accumulators of an array, and the values of a bank: an element, m and l. -/
def accs (s : State) (arr : Nat) : AccSt := (mget {} s.arrays arr).st
def accAt (st : AccSt) (b row j : Nat) : Word32 := mget 0 st.acc (b * 2 ^ 20 + row * 2 ^ 12 + j)
def valAt (st : AccSt) (b row j : Nat) : Ext := f32 (accAt st b row j)
def maxAt (st : AccSt) (b row : Nat) : Word32 := mget 0xFF800000#32 st.m (b * 256 + row)
def sumAt (st : AccSt) (b row : Nat) : Word32 := mget 0 st.l (b * 256 + row)

/-- The values of an array in their canonical form. -/
def Formed (st : AccSt) : Prop :=
  mwf (0 : Word32) st.acc = true ∧ mwf (0xFF800000#32) st.m = true ∧ mwf (0 : Word32) st.l = true ∧ mwf (0 : Word32) st.c = true ∧
    mwf (0 : Word32) st.beta = true ∧ mwf (0 : Word32) st.d = true ∧ mwf (0 : Word32) st.betaD = true

/-- A value rounded to FP32. -/
def r32 (x : Ext) : Ext := f32 (toF32 x)

/-- The exact sum of n values. -/
def total (f : Nat → Ext) : Nat → Ext
  | 0 => Ext.zero
  | n + 1 => (List.range n).foldl (fun t k => Ext.add false t (f (k + 1))) (f 0)

/-- n values onto a running one in R90's order: chunks of sixteen, each summed exactly and rounded once, then added with one rounding. -/
def sum16 (f : Nat → Ext) (n : Nat) (acc : Ext) : Ext :=
  (List.range ((n + 15) / 16)).foldl
    (fun acc i => r32 (Ext.add false acc (r32 (total (fun k => f (16 * i + k)) (min 16 (n - 16 * i)))))) acc

/-- Fused multiply-adds one after another. -/
def sumFma (a b : Nat → Ext) (n : Nat) (acc : Ext) : Ext := (List.range n).foldl (fun acc k => r32 (Ext.fma false (a k) (b k) acc)) acc

/-- Word j of some bytes, and byte k of a word. -/
def wordAt (bs : List Byte) (j : Nat) : Word32 := BitVec.ofNat 32 (leNat ((bs.drop (4 * j)).take 4))
def byteOf (w : Word32) (k : Nat) : Byte := w.extractLsb' (8 * k) 8

/-- Where element i of a rectangle lies: position by position in rows, in address order in each (R98, R231). -/
def placeOf (s : State) (c : Cmd) (r : Rect) (i : Nat) : Nat × Nat :=
  let z := elemSize r.fmt
  let p := i / (r.len / z)
  ((r.y + p / r.w) * 64 + (r.x + p % r.w), (s.rangeOf c.launch).1 + r.off + i % (r.len / z) * z)
def placeKey (s : State) (c : Cmd) (r : Rect) (i : Nat) : Nat := storeAt (placeOf s c r i).1 (placeOf s c r i).2

/-- An element of a rectangle at a position that holds a block of the launch; a stretch of them; the bytes of one. -/
def Standing (s : State) (c : Cmd) (r : Rect) (i : Nat) : Prop :=
  i < r.w * r.h * (r.len / elemSize r.fmt) ∧ s.holdsBlock c.launch (placeOf s c r i).1 = true ∧ s.isHole (placeOf s c r i).1 = false
def Present (s : State) (c : Cmd) (r : Rect) (w : Nat × Nat) : Prop := ∀ i, Between w i → Standing s c r i
def elemAt (s : State) (c : Cmd) (r : Rect) (i : Nat) : List Byte :=
  (List.range (elemSize r.fmt)).map fun b => mget 0 s.lstore (placeKey s c r i + b)

/-- The rectangles that a command reads before it computes, and the one and the element in it that an element of them all is. -/
def operands : CmdKind → List Rect
  | .mma _ _ r _ => [r]
  | .aload _ _ r _ _ => [r]
  | .delta ck _ _ kr vr tr _ _ _ _ _ => if ck then [kr, vr, tr] else [kr, vr]
  | .atile q _ _ _ _ _ _ _ _ _ _ _ => [q]
  | .amerge _ r _ => [r]
  | _ => []
def elemOfAll : List Rect → Nat → Option (Rect × Nat)
  | [], _ => none
  | r :: rs, i =>
    let n := r.w * r.h * (r.len / elemSize r.fmt)
    if i < n then some (r, i) else elemOfAll rs (i - n)

/-- No two elements of a stretch overlap. -/
def Apart (s : State) (c : Cmd) (r : Rect) (w : Nat × Nat) : Prop :=
  let z := elemSize r.fmt
  ∀ i j, Between w i → Between w j → i ≠ j → placeKey s c r i + z ≤ placeKey s c r j ∨ placeKey s c r j + z ≤ placeKey s c r i

/-- A step of a command has written the elements of a stretch and nothing else; the command has ended where none is left. -/
def Stretch (s u : State) (arr : Nat) (c : Cmd) (r : Rect) (w : Nat × Nat) (left : List (Nat × Nat)) (v : Nat → Nat → Byte) : Prop :=
  let z := elemSize r.fmt
  u.mem = s.mem ∧ accs u arr = accs s arr ∧
  (∃ c', cmdIn u c.id = some c' ∧ c'.status = (if left = [] then 1 else 0) ∧ (left ≠ [] → c'.left = left)) ∧
  (∀ i k, Between w i → k < z → mget 0 u.lstore (placeKey s c r i + k) = v i k) ∧
  ∀ q, (∀ i k, Between w i → k < z → q ≠ placeKey s c r i + k) → mget 0 u.lstore q = mget 0 s.lstore q

/-- A command has made its effects, and neither memory nor a local store has changed. -/
def Made (s u : State) (c : Cmd) (fl : Map Nat) : Prop :=
  cmdIn u c.id = some { c with floors := fl, status := 1, got := [], outb := [], staged := [] } ∧ u.mem = s.mem ∧ u.lstore = s.lstore

/-- A command has ended with a deferred trap of its own: its group's other commands on the array are cancelled, and so are those that the
group issues from now on (R217, R305). -/
def Trapped (s u : State) (arr : Nat) (c : Cmd) (code arg : Nat) : Prop :=
  (∃ c' x, cmdIn u c.id = some c' ∧ c'.status = 2 ∧ c'.sts = 1 ∧ c'.err = true ∧ c'.traps = c.traps ++ [x] ∧ x.code = code ∧
    x.arg = BitVec.ofNat 64 arg ∧ x.seqn = BitVec.ofNat 64 c.seq ∧ x.deferred = true) ∧
  (∀ x ∈ s.cmds, x.id ≠ c.id →
    (if x.gid = c.gid ∧ x.id ∈ (mget {} s.arrays arr).queue then { x with cancelled := true } else x) ∈ u.cmds) ∧
  (∀ g, s.group? c.gid = some g → u.group? c.gid = some { g with cancel := true }) ∧ u.mem = s.mem ∧ u.lstore = s.lstore

end Sys2Proof.Says

/-- R212, R229 to R231, R234, R275, R276, R300, R305: an array performs the first command of its owner, step by step. A cancelled one ends
with no effect. A command begins with the elements it reads, reads them in stretches that come in any order, computes, and writes in the
same way; `ADRAIN` and `TSOLVE` read as they write. `AZERO` clears one bank; `WLOAD` fills the standby half; `MMA` adds each row's products
in chunks of sixteen, and changes no other element. -/
def Sys2Proof.Says.ArrayCommandsExecute : Prop :=
  ∀ (arr cut : Nat) (c : Cmd) (s : State), RunsNext s arr c →
  let fl := arrFloors s arr c
  let w := (takeLeft cut c.left).1
  let rest := (takeLeft cut c.left).2
  (c.cancelled = true → exec (.arrayCommandExecute arr cut) s = .next { s with
    cmds := modifyKey (fun x => x.id) c.id (fun _ => { c with floors := fl, status := 2, sts := 4, err := true }) s.cmds
    arrays := mset {} s.arrays arr { mget {} s.arrays arr with floors := fl } }) ∧
  (c.cancelled = false → c.phase = 0 → (∀ q o ring cont sc kvh b n np pg e a, c.kind ≠ .atile q o ring cont sc kvh b n np pg e a) →
    let n := match c.kind with | .adrain _ _ _ _ _ _ _ _ => 0 | .tsolve _ _ _ _ _ => 0 | _ => c.inputs
    exec (.arrayCommandExecute arr cut) s = .next { s with
      cmds := modifyKey (fun x => x.id) c.id
        (fun _ => { c with floors := fl, phase := if n = 0 then 2 else 1, left := allOf n }) s.cmds }) ∧
  (c.cancelled = false → c.phase = 1 → (∀ i, Between w i → ∃ r k, elemOfAll (operands c.kind) i = some (r, k) ∧ Standing s c r k) →
    exec (.arrayCommandExecute arr cut) s = .next { s with
      cmds := modifyKey (fun x => x.id) c.id (fun _ => { c with
        floors := fl, left := rest, phase := if rest = [] then 2 else 1
        got := gotAt w.1 ((List.range w.2).flatMap fun j =>
          match elemOfAll (operands c.kind) (w.1 + j) with
          | some (r, k) => elemAt s c r k
          | none => []) c.got }) s.cmds }) ∧
  (∀ t wbo wlen k n tr, c.cancelled = false → c.phase = 1 → c.kind = .wload t wbo wlen k n tr →
    let at_ := (s.tenant c.part c.tenant).wwb * 65536 + wbo
    exec (.arrayCommandExecute arr cut) s = .next { s with
      cmds := modifyKey (fun x => x.id) c.id (fun _ => { c with
        floors := fl, left := rest, phase := if rest = [] then 2 else 1
        got := gotAt w.1 ((List.range w.2).map fun j => s.byte (wbufPa arr (at_ + (w.1 + j)))) c.got }) s.cmds }) ∧
  (∀ b, c.cancelled = false → c.phase = 2 → c.kind = .azero b → b < 8 → ∃ u, exec (.arrayCommandExecute arr cut) s = .next u ∧
    Made s u c fl ∧
    (∀ i row j, row < 256 → j < 4096 → accAt (accs u arr) i row j = if i = b then 0 else accAt (accs s arr) i row j) ∧
    (∀ i row, row < 256 →
      maxAt (accs u arr) i row = (if i = b then 0xFF800000#32 else maxAt (accs s arr) i row) ∧
      sumAt (accs u arr) i row = if i = b then 0 else sumAt (accs s arr) i row) ∧
    (accs u arr).unchecked.getLsbD b = false ∧ (accs u arr).active = (accs s arr).active) ∧
  (∀ t wbo wlen k n tr, c.cancelled = false → c.phase = 2 → c.kind = .wload t wbo wlen k n tr →
    let tile := tileOf t k n tr (c.got.flatMap fun x => x.2)
    ∃ u c', exec (.arrayCommandExecute arr cut) s = .next u ∧
    cmdIn u c.id = some c' ∧ c'.status = 1 ∧ c'.err = (c.err || !tile.valid) ∧ u.mem = s.mem ∧ u.lstore = s.lstore ∧
    accs u arr = { accs s arr with standby := tile, standbyFresh := true } ∧ (tile.valid = true → tile.fmt = some t)) ∧
  (∀ t b r row0, c.cancelled = false → c.phase = 2 → c.kind = .mma t b r row0 → (accs s arr).standbyFresh = false →
    (accs s arr).active.valid = true → mwf (0 : Word32) (accs s arr).acc = true →
    let kd := s.depthAt c.ep
    let n := s.widthAt c.ep
    let rows := c.elemRows 0 r.fmt kd
    ∃ u, exec (.arrayCommandExecute arr cut) s = .next u ∧ Made s u c fl ∧
      (∀ i a j, rows[i]? = some a → j < n →
        accAt (accs u arr) b (row0 + i) j =
          toF32 (sum16 (fun k => Ext.mul (a.getD k Ext.zero) (mget Ext.zero (accs s arr).active.w (k * 4096 + j))) kd
            (valAt (accs s arr) b (row0 + i) j))) ∧
      (∀ q, (∀ i j, i < rows.length → j < n → q ≠ b * 2 ^ 20 + (row0 + i) * 2 ^ 12 + j) →
        mget 0 (accs u arr).acc q = mget 0 (accs s arr).acc q)) ∧
  (∀ r v, c.cancelled = false → c.phase = 3 → c.kind.writes = some r → Present s c r w → s.storeOk → Apart s c r w →
    (∀ i k, Between w i → k < elemSize r.fmt → c.outb[i * elemSize r.fmt + k]? = some (v i k)) →
    ∃ u, exec (.arrayCommandExecute arr cut) s = .next u ∧ Stretch s u arr c r w rest v)

/-! ### `ALOAD` and `ADRAIN` as they are performed (R233 to R235, R303, R304) -/

namespace Sys2Proof.Says

/-- The test of a row or a column (R235): with both the sum and its checksum finite, whether they differ by more than the tolerance; else
whether they are not the same infinity, nor both NaN. -/
def differs (rel abs sum chk bound : Ext) : Bool :=
  if sum.isFinite && chk.isFinite then
    rel.isNan || abs.isNan || (!bound.isInf && !(Ext.le (Ext.sub false sum chk).abs (Ext.add false (rel.mul bound) abs)))
  else !((sum.isNan && chk.isNan) || (sum.isInf && chk.isInf && sum.isNeg == chk.isNeg))

/-- The rows and the columns of a bank that mismatch (R235, R304). -/
def badRows (s : State) (arr n b : Nat) : List Nat :=
  (List.range 256).filter fun r =>
    differs (f32 (mget 0x37800000#32 s.ckrel arr)) (f32 (mget 0x00800000#32 s.ckabs arr)) (total (valAt (accs s arr) b r) n)
      (f32 (mget 0 (accs s arr).c (b * 256 + r))) (f32 (mget 0 (accs s arr).beta (b * 256 + r)))
def badColumns (s : State) (arr n b : Nat) : List Nat :=
  (List.range n).filter fun j =>
    differs (f32 (mget 0x37800000#32 s.ckrel arr)) (f32 (mget 0x00800000#32 s.ckabs arr)) (total (fun r => valAt (accs s arr) b r j) 256)
      (f32 (mget 0 (accs s arr).d (b * 4096 + j))) (f32 (mget 0 (accs s arr).betaD (b * 4096 + j)))

/-- A value as it is drained: scaled, then divided by l, with one rounding each; as it stands without either (R234). -/
def drained (w : Word32) (scale : Option Ext) (nrm : Bool) (l : Word32) : Word32 :=
  let x := match scale with | none => f32 w | some k => r32 (Ext.mul (f32 w) k)
  if nrm then (if (f32 l).isZero then 0 else toF32 (Ext.div x (f32 l))) else if scale.isSome then toF32 x else w

/-- Word j of a drained row: a column, or m, or l. -/
def drainedAt (st : AccSt) (b row nc : Nat) (scale : Option (Nat → Ext)) (nrm : Bool) (j : Nat) : Word32 :=
  if j < nc then drained (accAt st b row j) (scale.map fun f => f j) nrm (sumAt st b row)
  else if j = nc then maxAt st b row else sumAt st b row

/-- Words of a row, with m and l where `sc` says so. -/
def rowWords (nc : Nat) (sc : Bool) : Nat := nc + if sc then 2 else 0

/-- The drain itself begins, from a bank as `st` says: without a scale vector all its bytes are known. -/
def Drains (s u : State) (arr : Nat) (c : Cmd) (fl : Map Nat) (b : Nat) (r : Rect) (sv : Option Nat) (row0 nc : Nat) (nrm sc : Bool)
    (st : AccSt) : Prop :=
  let m := rowWords nc sc
  let n := r.w * r.h * (r.len / (4 * m))
  accs u arr = st ∧ u.mem = s.mem ∧ u.lstore = s.lstore ∧
  cmdIn u c.id = some (match sv with
    | none => { c with
        floors := fl, phase := 3, left := allOf (n * m)
        outb := (List.range n).flatMap fun i => (List.range m).flatMap fun j =>
          (List.range 4).map (byteOf (drainedAt st b (row0 + i) nc none nrm j)) }
    | some _ => { c with floors := fl, phase := 4, left := allOf (r.w * r.h * (r.len / 4)), rest := allOf nc })

/-- A place in a list of ranges. -/
def Unread (rest : List (Nat × Nat)) (i : Nat) : Prop := ∃ x ∈ rest, Between x i

/-- The scale vector of `ADRAIN`, in the store of the EP that issued it. -/
def scalesAt (c : Cmd) (o nc : Nat) : Rect := { x := c.ep % 64, y := c.ep / 64, w := 1, h := 1, off := o, len := 2 * nc, fmt := 1 }

/-- What a command that reads as it writes reads. -/
def MixedReads (c : Cmd) (r : Rect) : Prop :=
  (∃ k1 k2 k3 b q o row0 nc, c.kind = .adrain k1 k2 k3 b q (some o) row0 nc ∧ r = scalesAt c o nc) ∨
    ∃ q betas n dk, c.kind = .tsolve r q betas n dk

end Sys2Proof.Says

/-- R233 to R235, R275, R303, R304: `ALOAD` writes the named rows and columns and makes the checksums and bounds of the bank from its
contents. `ADRAIN` checks a checked bank first: it drains where nothing mismatches, corrects the element where one row and one column do,
and else drains nothing and traps. With a scale vector it reads the scales and writes the values in any order, each value after its
scale. -/
def Sys2Proof.Says.LoadsAndDrains : Prop :=
  ∀ (arr cut : Nat) (c : Cmd) (s : State), RunsNext s arr c → c.cancelled = false →
  let fl := arrFloors s arr c
  let st := accs s arr
  let n := s.widthAt c.ep
  (∀ sc b r row0 nc, c.phase = 2 → c.kind = .aload sc b r row0 nc → Formed st → b < 8 → nc ≤ 4096 →
    let rows := c.rows 0 (4 * rowWords nc sc)
    row0 + rows.length ≤ 256 →
    ∃ u, exec (.arrayCommandExecute arr cut) s = .next u ∧ Made s u c fl ∧
      let t := accs u arr
      let loaded := fun i row => decide (i = b ∧ row0 ≤ row ∧ row < row0 + rows.length)
      let word := fun row j => wordAt (rows.getD (row - row0) []) j
      (∀ i row j, row < 256 → j < 4096 → accAt t i row j = if loaded i row && decide (j < nc) then word row j else accAt st i row j) ∧
      (∀ i row, row < 256 →
        maxAt t i row = (if sc && loaded i row then word row nc else maxAt st i row) ∧
        sumAt t i row = if sc && loaded i row then word row (nc + 1) else sumAt st i row) ∧
      (∀ row, row < 256 →
        mget 0 t.c (b * 256 + row) = toF32 (total (valAt t b row) n) ∧
        mget 0 t.beta (b * 256 + row) = toF32Up (total (fun j => (valAt t b row j).abs) n)) ∧
      (∀ j, j < n →
        mget 0 t.d (b * 4096 + j) = toF32 (total (fun row => valAt t b row j) 256) ∧
        mget 0 t.betaD (b * 4096 + j) = toF32Up (total (fun row => (valAt t b row j).abs) 256)) ∧
      (∀ i, i < 8 → t.unchecked.getLsbD i = (st.unchecked.getLsbD i && decide (i ≠ b))) ∧ t.active = st.active) ∧
  (∀ nochk nrm sc b r sv row0 nc, c.phase = 2 → c.kind = .adrain nochk nrm sc b r sv row0 nc → r.fmt = 8 → 0 < nc →
    0 < r.w * r.h * (r.len / (4 * rowWords nc sc)) →
    let rs := badRows s arr n b
    let cs := badColumns s arr n b
    let others := fun x k j => valAt st b (if k < x then k else k + 1) j
    let d := fun j => f32 (mget 0 st.d (b * 4096 + j))
    let finite := fun x j => (d j).isFinite = true ∧ ∀ k, k < 255 → (others x k j).isFinite = true
    (nochk = true ∨ st.unchecked.getLsbD b = true ∨ (rs = [] ∧ cs = []) →
      ∃ u, exec (.arrayCommandExecute arr cut) s = .next u ∧ Drains s u arr c fl b r sv row0 nc nrm sc st) ∧
    (∀ x j, nochk = false → st.unchecked.getLsbD b = false → rs = [x] → cs = [j] → finite x j → mwf (0 : Word32) s.ckfix = true →
      ∃ u, exec (.arrayCommandExecute arr cut) s = .next u ∧
        Drains s u arr c fl b r sv row0 nc nrm sc { st with
          acc := mset 0 st.acc (b * 2 ^ 20 + x * 2 ^ 12 + j) (toF32 (Ext.sub false (d j) (total (fun k => others x k j) 255))) } ∧
        (mget 0 u.ckfix arr).toNat = min ((mget 0 s.ckfix arr).toNat + 1) (2 ^ 32 - 1)) ∧
    (nochk = false → st.unchecked.getLsbD b = false → ¬(rs = [] ∧ cs = []) → (∀ x j, rs = [x] → cs = [j] → ¬ finite x j) →
      ∃ u, exec (.arrayCommandExecute arr cut) s = .next u ∧ Trapped s u arr c 0x38 b ∧ accs u arr = st)) ∧
  (∀ r, c.phase = 4 → MixedReads c r → c.rest ≠ [] → cut % 2 = 0 →
    let w := (takeLeft (cut / 2) c.rest).1
    Present s c r w → exec (.arrayCommandExecute arr cut) s = .next { s with
      cmds := modifyKey (fun x => x.id) c.id (fun _ => { c with
        floors := fl, rest := (takeLeft (cut / 2) c.rest).2
        got := gotAt w.1 ((List.range w.2).flatMap fun j => elemAt s c r (w.1 + j)) c.got }) s.cmds }) ∧
  (∀ nochk nrm sc b r o row0 nc, c.phase = 4 → c.kind = .adrain nochk nrm sc b r (some o) row0 nc → c.rest = [] ∨ cut % 2 = 1 →
    let w := (takeLeft (cut / 2) c.left).1
    let m := rowWords nc sc
    ((∃ i, Between w i ∧ i % m < nc ∧ Unread c.rest (i % m)) → exec (.arrayCommandExecute arr cut) s = .next s) ∧
    ((∀ i, Between w i → i % m < nc → ¬ Unread c.rest (i % m)) → r.fmt = 8 → 0 < nc → r.len % (4 * m) = 0 → Present s c r w → s.storeOk →
      Apart s c r w → ∃ u, exec (.arrayCommandExecute arr cut) s = .next u ∧
        Stretch s u arr c r w (takeLeft (cut / 2) c.left).2 fun i k =>
          byteOf (drainedAt st b (row0 + i / m) nc (some fun j => fmtBF16.decode (leNat (c.read2 j))) nrm (i % m)) k))

/-! ### The correcting mode as it is performed (R236 to R240, R306 to R311) -/

namespace Sys2Proof.Says

/-- x of R239 after its first n rows, row by row from the a of that rule. -/
def solved (a : Nat → Nat → Ext) : Nat → Nat → Nat → Ext
  | 0, t, t' => if t = t' then Ext.one else Ext.zero
  | n + 1, t, t' =>
    if t = n ∧ t' < n then (sumFma (fun k => a n (t' + k)) (fun k => solved a n (t' + k) t') (n - t') Ext.zero).neg
    else solved a n t t'

/-- Element (t, t') of T for n keys of dk elements and their step sizes (R239). -/
def tOf (k : Nat → Nat → Ext) (b : Nat → Ext) (n dk t t' : Nat) : Word32 :=
  let a := fun t t' => r32 (Ext.mul (b t) (sum16 (fun i => Ext.mul (k t i) (k t' i)) dk Ext.zero))
  if t' ≤ t then toF32 (Ext.mul (solved a n t t') (b t')) else 0

/-- A correcting command has put new values into its state, and what the state was into its shadow bank; the latch is lost, and both
banks are unchecked. It has ended, with the trap where a new value is beyond the limit; or it goes on with the next token. -/
def Corrected (s u : State) (arr : Nat) (c : Cmd) (fl : Map Nat) (b : Nat) (shb : Option Nat) (dk dv : Nat) (dlim : Word32)
    (new : Nat → Nat → Word32) (arg : Nat) (last : Bool) : Prop :=
  let old := accs s arr
  let st := accs u arr
  (∀ i row j, row < 256 → j < 4096 → accAt st i row j =
    if row < dk ∧ j < dv then (if i = b then new row j else if shb = some i then accAt old b row j else accAt old i row j)
    else accAt old i row j) ∧
  st.m = old.m ∧ st.l = old.l ∧ st.active = {} ∧ st.standby = {} ∧ st.standbyFresh = false ∧
  (∀ i, i < 8 → st.unchecked.getLsbD i = (old.unchecked.getLsbD i || decide (i = b ∨ shb = some i))) ∧
  ((∃ i j, i < dk ∧ j < dv ∧ dlim.toNat < (new i j).toNat % 2 ^ 31) → Trapped s u arr c 0x39 arg) ∧
  ((∀ i j, i < dk → j < dv → (new i j).toNat % 2 ^ 31 ≤ dlim.toNat) →
    if last then Made s u c fl
    else cmdIn u c.id = some { c with floors := fl, pos := c.pos + 1 } ∧ u.mem = s.mem ∧ u.lstore = s.lstore)

end Sys2Proof.Says

/-- R236 to R240, R275, R305 to R309, R311: `DELTA` takes one token in a step, from the state that the token before it left; `DELTA.ck` one
chunk; a β of +0 leaves the state bit for bit. `TSOLVE` loses the latch, reads its keys and writes T in any order, each element after the
keys that it depends on. -/
def Sys2Proof.Says.CorrectingCommandsExecute : Prop :=
  ∀ (arr cut : Nat) (c : Cmd) (s : State), RunsNext s arr c → c.cancelled = false →
  let fl := arrFloors s arr c
  let old := accs s arr
  (∀ ck b betas kr vr tr dlim shb dv dk nt, c.phase = 2 → c.kind = .delta ck b betas kr vr tr dlim shb dv dk nt →
    mwf (0 : Word32) old.acc = true → b < 8 → (∀ h, shb = some h → h < 8 ∧ h ≠ b) → dk ≤ 256 → dv ≤ 4096 →
    let ks := fun t i => ((c.elemRows 0 10 dk).getD t []).getD i Ext.zero
    let vs := fun t j => ((c.elemRows 1 vr.fmt dv).getD t []).getD j Ext.zero
    let ts := fun t i => ((c.elemRows 2 8 nt).getD t []).getD i Ext.zero
    let e := fun j => r32 (Ext.mul (f32 (betas.getD c.pos 0))
      (r32 (Ext.sub false (vs c.pos j) (sum16 (fun i => Ext.mul (valAt old b i j) (ks c.pos i)) dk Ext.zero))))
    let d := fun t j => r32 (Ext.sub false (sumFma (ts t) (fun x => vs x j) (t + 1) Ext.zero)
      (sum16 (fun i => Ext.mul (sumFma (ts t) (fun x => ks x i) (t + 1) Ext.zero) (valAt old b i j)) dk Ext.zero))
    (ck = false → c.pos < (c.elemRows 0 10 dk).length → ∃ u, exec (.arrayCommandExecute arr cut) s = .next u ∧
      Corrected s u arr c fl b shb dk dv dlim
        (fun i j => if betas.getD c.pos 0 = 0 then accAt old b i j else toF32 (Ext.fma false (ks c.pos i) (e j) (valAt old b i j)))
        c.pos (decide (c.pos + 1 = nt))) ∧
    (ck = true → ∃ u, exec (.arrayCommandExecute arr cut) s = .next u ∧
      Corrected s u arr c fl b shb dk dv dlim
        (fun i j => toF32 (sumFma (fun t => ks t i) (fun t => d t j) nt (valAt old b i j))) (nt - 1) true)) ∧
  (∀ kr tr betas n dk, c.phase = 2 → c.kind = .tsolve kr tr betas n dk → ∃ u, exec (.arrayCommandExecute arr cut) s = .next u ∧
    u.mem = s.mem ∧ u.lstore = s.lstore ∧ accs u arr = { old with active := {}, standby := {}, standbyFresh := false } ∧
    cmdIn u c.id = some { c with
      floors := fl, phase := 4, left := allOf (tr.w * tr.h * (tr.len / elemSize tr.fmt)), rest := allOf (kr.w * kr.h * (kr.len / elemSize kr.fmt)) }) ∧
  (∀ kr tr betas n dk, c.phase = 4 → c.kind = .tsolve kr tr betas n dk → c.rest = [] ∨ cut % 2 = 1 →
    let w := (takeLeft (cut / 2) c.left).1
    ((∃ i k, Between w i ∧ k < (i / n + 1) * dk ∧ Unread c.rest k) → exec (.arrayCommandExecute arr cut) s = .next s) ∧
    ((∀ i, Between w i → ∀ x ∈ c.rest, (i / n + 1) * dk ≤ x.1) → kr.fmt = 10 → tr.fmt = 8 → 0 < dk → kr.len % (2 * dk) = 0 →
      kr.w * kr.h * kr.len = 2 * dk * n → tr.w * tr.h * (tr.len / 4) = n * n → betas.length = n → Present s c tr w → s.storeOk →
      Apart s c tr w → ∃ u, exec (.arrayCommandExecute arr cut) s = .next u ∧
        Stretch s u arr c tr w (takeLeft (cut / 2) c.left).2 fun i k =>
          byteOf (tOf (fun t x => fmtBF16.decode (leNat (c.read2 (t * dk + x)))) (fun t => f32 (betas.getD t 0)) n dk (i / n) (i % n)) k))

/-! ### Attention as it is performed (R241 to R244, R312, R313) -/

namespace Sys2Proof.Says

/-- The factor 2^((x − mn) · log2 e) of R242 and R244, at a maximum mn. -/
def factor (x mn : Ext) : Ext :=
  if mn = .inf false then (if x = .inf false then Ext.one else Ext.zero)
  else f32 (specialFn .ex2 (toF32 (r32 (Ext.mul (r32 (Ext.sub false x mn)) (f32 0x3FB8AA3B#32)))))

def larger (a b : Ext) : Ext := if Ext.lt a b then b else a

/-- Value k of a state row: o, then m, then l. -/
def stateAt (st : AccSt) (b row k : Nat) : Word32 := if k < 128 then accAt st b row k else if k = 128 then maxAt st b row else sumAt st b row

/-- A bank's state rows have changed as `new` says, and nothing else of its values. -/
def RowsNow (s u : State) (arr b : Nat) (new : Nat → Option (Nat → Word32)) : Prop :=
  ∀ i row, row < 256 →
    (∀ j, j < 4096 → accAt (accs u arr) i row j =
      match new row with
      | some f => if i = b ∧ j < 128 then f j else accAt (accs s arr) i row j
      | none => accAt (accs s arr) i row j) ∧
    (maxAt (accs u arr) i row = match new row with | some f => if i = b then f 128 else maxAt (accs s arr) i row | none => maxAt (accs s arr) i row) ∧
    sumAt (accs u arr) i row = match new row with | some f => if i = b then f 129 else sumAt (accs s arr) i row | none => sumAt (accs s arr) i row

/-- Both halves of the latch are lost, and a bank is unchecked (R234, R300). -/
def Spoilt (s u : State) (arr b : Nat) : Prop :=
  (accs u arr).active = {} ∧ (accs u arr).standby = {} ∧ (accs u arr).standbyFresh = false ∧
    ∀ i, i < 8 → (accs u arr).unchecked.getLsbD i = ((accs s arr).unchecked.getLsbD i || decide (i = b))

/-- Two state rows merged (R244). -/
def merged (x y : Nat → Word32) (k : Nat) : Word32 :=
  let none_ := fun (z : Nat → Word32) => z 128 = 0xFF800000#32 ∧ (z 129).toNat % 2 ^ 31 = 0
  let mn := larger (f32 (x 128)) (f32 (y 128))
  if (f32 (x 128)).isNan || (f32 (y 128)).isNan then 0x7FC00000#32
  else if none_ y then x k
  else if none_ x then y k
  else if k = 128 then toF32 mn
  else toF32 (Ext.fma false (f32 (y k)) (factor (f32 (y 128)) mn) (r32 (Ext.mul (f32 (x k)) (factor (f32 (x 128)) mn))))

/-- A thread of a system group where no write is under way, and no sector is uncorrectable: it reads what memory holds. -/
def Plain (s : State) (c : Cmd) : Prop :=
  c.sysA = true ∧ s.co = [] ∧ s.sb = [] ∧ s.uncorr = [] ∧ (s.part c.part).lockstep = false ∧ s.memOk
def Exists (a n : Nat) : Prop := ∀ i, i < n → paExists (a + i) = true
def memAt (s : State) (a n : Nat) : List Byte := (List.range n).map fun i => s.byte (a + i)

/-- The tag of a page in memory (R115). -/
def tagIn (s : State) (e : Entry) (g : Nat) : Nat := (s.byte (e.taga + g / 4)).toNat / 4 ^ (g % 4) % 4

/-- A command has ended with a deferred trap, and nothing else has changed (R217). -/
def Deferred (s u : State) (c : Cmd) (code arg : Nat) : Prop :=
  (∃ c' x, cmdIn u c.id = some c' ∧ c'.status = 2 ∧ c'.sts = 1 ∧ c'.err = true ∧ c'.traps = c.traps ++ [x] ∧ x.code = code ∧
    x.arg = BitVec.ofNat 64 arg ∧ x.deferred = true) ∧ u.mem = s.mem ∧ u.lstore = s.lstore

end Sys2Proof.Says

/-- R234, R241 to R244, R275, R300, R312, R313: `AMERGE` merges each row into the bank's. `ATILE` begins after the cache commands accepted
before it on its entry, and starts its rows; it skips a page that its tag says is not in pond 0, pins one that is, gathers that page's live
slots, and lets each 256 of them act on every query row; it writes the rows at its end. -/
def Sys2Proof.Says.AttentionCommandsExecute : Prop :=
  ∀ (arr cut : Nat) (c : Cmd) (s : State), RunsNext s arr c → c.cancelled = false →
  let fl := arrFloors s arr c
  let old := accs s arr
  (∀ b r row0, c.phase = 2 → c.kind = .amerge b r row0 → Formed old → b < 8 → row0 + (c.rows 0 520).length ≤ 256 →
    ∃ u, exec (.arrayCommandExecute arr cut) s = .next u ∧ Made s u c fl ∧ Spoilt s u arr b ∧
      RowsNow s u arr b fun row =>
        if row0 ≤ row ∧ row < row0 + (c.rows 0 520).length then
          some (merged (stateAt old b row) (wordAt ((c.rows 0 520).getD (row - row0) [])))
        else none) ∧
  (∀ q o ring cont scale kvh b rows npg pg0 entry after, c.kind = .atile q o ring cont scale kvh b rows npg pg0 entry after → Formed old →
    b < 8 → rows ≤ 256 →
    (c.phase = 0 → (∃ x ∈ s.cmds, x.id ∈ after) → exec (.arrayCommandExecute arr cut) s = .next s) ∧
    (c.phase = 0 → (∀ x ∈ s.cmds, x.id ∉ after) → s.appending c entry = false → Plain s c → Exists entry 320 →
      let e := parseEntry (memAt s entry 320)
      (∀ k, e.fault = some k → ∃ u, exec (.arrayCommandExecute arr cut) s = .next u ∧ Deferred s u c k 0 ∧ accs u arr = old) ∧
      (e.fault = none → kvh < e.nkvh → (e.page ((pg0 + npg - 1) * e.nkvh + kvh)).isSome = true →
        ∃ u c', exec (.arrayCommandExecute arr cut) s = .next u ∧ cmdIn u c.id = some c' ∧ c'.status = 0 ∧ c'.phase = 1 ∧
          c'.left = allOf c.inputs ∧ c'.pos = 1 ∧ c'.lim = e.len ∧ kept c'.staged 0 320 = memAt s entry 320 ∧ u.mem = s.mem ∧
          u.lstore = s.lstore ∧ Spoilt s u arr b ∧
          RowsNow s u arr b fun row =>
            if cont = false ∧ row < rows then some fun k => if k = 128 then 0xFF800000#32 else 0 else none)) ∧
    (c.phase = 2 → c.ntok < 256 → 0 < c.pos → c.pos ≤ npg → Plain s c →
      let e := parseEntry (kept c.staged 0 320)
      let tp := pg0 + c.pos - 1
      let g := tp * e.nkvh + kvh
      ∀ base, e.page g = some base → Exists (e.taga + g / 4) 1 →
      (c.pin = false → tagIn s e g = 0 → ∃ u f, exec (.arrayCommandExecute arr cut) s = .next u ∧
        cmdIn u c.id = some { c with floors := f, pin := true, rest := [(c.pos, 1)] } ∧ u.mem = s.mem ∧ u.lstore = s.lstore ∧
        accs u arr = old) ∧
      (c.pin = false → tagIn s e g ≠ 0 → s.ringRoom ring = false → exec (.arrayCommandExecute arr cut) s = .next s) ∧
      (c.pin = false → tagIn s e g ≠ 0 → s.ringRoom ring = true → ∃ u f, exec (.arrayCommandExecute arr cut) s = .next u ∧
        cmdIn u c.id = some { c with floors := f, pos := c.pos + 1, skipped := c.skipped + 1 } ∧ u.mem = s.mem ∧ accs u arr = old) ∧
      (c.pin = true → mwf (0 : Byte) c.staged = true → Exists (e.mula + tp * 128) 128 → Exists base 65536 →
        let live := (List.range 128).filter fun i => s.byte (e.mula + tp * 128 + i) ≠ 0 ∧ tp * 128 + i < c.lim
        ∃ u c', exec (.arrayCommandExecute arr cut) s = .next u ∧ cmdIn u c.id = some c' ∧ c'.pos = c.pos + 1 ∧ c'.pin = false ∧
          c'.ntok = c.ntok + live.length ∧ u.mem = s.mem ∧ u.lstore = s.lstore ∧ accs u arr = old ∧
          ∀ k i, live[k]? = some i →
            let at_ := 4096 + (c.ntok + k) * 1024
            kept c'.staged at_ 256 = memAt s (base + i * 256) 256 ∧
            kept c'.staged (at_ + 256) 256 = memAt s (base + 32768 + i * 256) 256 ∧
            mget 0 c'.staged (at_ + 512) = s.byte (e.mula + tp * 128 + i))) ∧
    (c.phase = 2 → 256 ≤ c.ntok ∨ (npg < c.pos ∧ c.ntok ≠ 0) → rows ≤ (c.elemRows 0 q.fmt 128).length →
      let n := min c.ntok 256
      let score := fun r t => r32 (Ext.fma false
        (sum16 (fun d => Ext.mul (((c.elemRows 0 q.fmt 128).getD r []).getD d Ext.zero) ((tokAt c.staged t).key.getD d Ext.zero)) 128 Ext.zero)
        (f32 scale) (tokAt c.staged t).lnm)
      let top := fun r => (List.range n).foldl (fun m t => larger m (score r t)) (f32 (maxAt old b r))
      let p := fun r t => bf16 (toBF16 (factor (score r t) (top r)))
      let nan := fun r => ∃ t, t < n ∧ (score r t).isNan = true
      ((∃ r, r < rows ∧ nan r) → c.nanSeen = false → s.ringRoom ring = false → exec (.arrayCommandExecute arr cut) s = .next s) ∧
      (((∃ r, r < rows ∧ nan r) → c.nanSeen = true) → ∃ u c', ∃ new : Nat → Nat → Word32, exec (.arrayCommandExecute arr cut) s = .next u ∧
        cmdIn u c.id = some c' ∧ c'.status = 0 ∧ c'.ntok = c.ntok - n ∧ c'.pos = c.pos ∧ c'.staged = dropToks n c.staged ∧
        u.mem = s.mem ∧ u.lstore = s.lstore ∧ RowsNow s u arr b (fun row => if row < rows then some (new row) else none) ∧
        ∀ r k, r < rows → k < 130 →
          (nan r ∨ (f32 (maxAt old b r)).isNan = true → new r k = 0x7FC00000#32) ∧
          (¬ nan r → (f32 (maxAt old b r)).isNan = false → top r = .inf true → new r k = stateAt old b r k) ∧
          (¬ nan r → (f32 (maxAt old b r)).isNan = false → top r ≠ .inf true →
            new r k = if k = 128 then toF32 (top r) else
              toF32 (sum16 (fun t => if k < 128 then Ext.mul (p r t) ((tokAt c.staged t).val.getD k Ext.zero) else p r t) n
                (r32 (Ext.mul (f32 (stateAt old b r k)) (factor (f32 (maxAt old b r)) (top r)))))))) ∧
    (c.phase = 2 → npg < c.pos → c.ntok = 0 → o.fmt = 8 → 0 < rows →
      let empty := fun r => maxAt old b r = 0xFF800000#32
      let new := fun r k => if empty r ∧ k ≠ 128 then 0 else stateAt old b r k
      ((∃ r, r < rows ∧ empty r) → s.ringRoom ring = false → exec (.arrayCommandExecute arr cut) s = .next s) ∧
      (((∃ r, r < rows ∧ empty r) → s.ringRoom ring = true) → ∃ u c', exec (.arrayCommandExecute arr cut) s = .next u ∧
        cmdIn u c.id = some c' ∧ c'.status = 0 ∧ c'.phase = 3 ∧ c'.left = allOf (rows * 130) ∧
        c'.outb = ((List.range rows).flatMap fun r => (List.range 130).flatMap fun k => (List.range 4).map (byteOf (new r k))) ∧
        u.mem = s.mem ∧ RowsNow s u arr b fun row => if row < rows then some (new row) else none)))

/-! ### Cache commands as they are performed (R245 to R249, R315 to R318) -/

namespace Sys2Proof.Says

/-- The owner of the entry takes the next step of a command: it is its turn there, and it waits for nothing. -/
def CacheRuns (s : State) (c : Cmd) : Prop :=
  s.cmd? c.id = some c ∧ c.status = 0 ∧ s.waits c = false ∧ s.moving c = false ∧ s.otherMoving c = false ∧ s.cacheTurn c = true

/-- A step of a cache command that has changed neither memory nor a local store leaves the command as `p` says. -/
def KeepsAll (k cut : Nat) (s : State) (p : Cmd → Prop) : Prop :=
  ∃ u c', exec (.cacheCommandExecute k cut) s = .next u ∧ cmdIn u k = some c' ∧ p c' ∧ u.mem = s.mem ∧ u.lstore = s.lstore

/-- Bytes of memory have been written, and no others. -/
def Puts (s u : State) (pas : List Nat) (bs : List Byte) : Prop :=
  (∀ i a, pas[i]? = some a → u.byte a = bs.getD i 0) ∧ (∀ a, a ∉ pas → u.byte a = s.byte a) ∧ u.lstore = s.lstore

/-- One of the pieces of work a command has left is done: it has ended where none is left. -/
def OneDone (u : State) (k : Nat) (left : List (Nat × Nat)) : Prop :=
  ∃ c', cmdIn u k = some c' ∧ c'.status = (if left = [] then 1 else 0) ∧ (left ≠ [] → c'.left = left)

/-- The fault of an append, if any, in the order in which the model finds them (log 48). -/
def appendFault (s : State) (c : Cmd) (e : Entry) (src : Nat) : Option (Nat × Nat) :=
  let gs := (List.range e.nkvh).map fun h => e.len / 128 * e.nkvh + h
  match e.fault with
  | some k => some (k, 0)
  | none =>
    if e.pst ≠ 0 then some (0x3B, e.len)
    else if 2 ^ 24 ≤ e.len then some (0x3A, e.len)
    else if (s.rangeOf c.launch).2 < src + 512 * e.nkvh then some (0x24, e.len)
    else if gs.any fun g => (e.page g).isNone then some (0x35, e.len)
    else if gs.any fun g => tagIn s e g ≠ 0 then some (0x3B, e.len)
    else none

/-- Element k of a token as the source gives it, as far as it has been read; and as it is stored, the key rotated where there is a base
(R246). -/
def tokenElem (s : State) (c : Cmd) (base : Word32) (pos i : Nat) : List Byte :=
  if 128 ≤ i % 256 ∨ (f32 base).isZero = true then c.read2 i
  else
    let f := rotFactor s base (i % 256 / 2)
    let x := fmtBF16.decode (leNat (c.read2 (i / 2 * 2)))
    let y := fmtBF16.decode (leNat (c.read2 (i / 2 * 2 + 1)))
    let co := rotaryFn true pos f
    let si := rotaryFn false pos f
    let v := toBF16 (if i % 2 = 0 then Ext.fma false x co (Ext.mul y si).neg else Ext.fma false x si (Ext.mul y co))
    [v.extractLsb' 0 8, v.extractLsb' 8 8]

/-- Where a piece of an append goes, and its bytes: an element of the token, the multiplicity, or LEN. -/
def appendPiece (s : State) (c : Cmd) (hdr : List Byte) (entry : Nat) (base : Word32) (pos i : Nat) : Nat × List Byte :=
  let e := parseEntry hdr
  if i < 256 * e.nkvh then
    ((match e.page (e.len / 128 * e.nkvh + i / 256) with | some a => a + e.len % 128 * 256 | none => 0)
      + (if i % 256 < 128 then 0 else 32768) + i % 128 * 2, tokenElem s c base pos i)
  else if i = 256 * e.nkvh then (e.mula + e.len, [1])
  else (entry, (List.range 4).map fun k => BitVec.ofNat 8 ((leNat (hdr.take 4) / 2 ^ 25 * 2 ^ 25 + (e.len + 1)) / 256 ^ k))

/-- The elements of the source that a piece of an append depends on have been read. -/
def AppendReady (c : Cmd) (base : Word32) (nkvh i : Nat) : Prop :=
  256 * nkvh ≤ i ∨
    (if 128 ≤ i % 256 ∨ (f32 base).isZero = true then ¬ Unread c.rest i
     else ¬ Unread c.rest (i / 2 * 2) ∧ ¬ Unread c.rest (i / 2 * 2 + 1))

/-- Two slots' keys are close in a head, and the weighted mean of two elements (R248). -/
def close (tau : Word32) (x y : List Byte) : Bool :=
  let k := fun (z : List Byte) i => fmtBF16.decode (leNat ((z.drop (2 * i)).take 2))
  let dot := fun a b => sum16 (fun i => Ext.mul (k a i) (k b i)) 128 Ext.zero
  let root := fun a => f32 (sqrtFn (toF32 (dot a a)))
  Ext.lt (r32 (Ext.mul (r32 (Ext.mul (f32 tau) (root x))) (root y))) (dot x y)
def meanOf (m n : Nat) (x y : List Byte) : List Byte :=
  let k := fun (z : List Byte) i => fmtBF16.decode (leNat ((z.drop (2 * i)).take 2))
  (List.range 256).flatMap fun i =>
    let v := toBF16 (Ext.div (Ext.add false (Ext.mul (Ext.ofInt m) (k x i)) (Ext.mul (Ext.ofInt n) (k y i))) (Ext.ofInt (m + n : Nat)))
    [v.extractLsb' 0 8, v.extractLsb' 8 8]

end Sys2Proof.Says

/-- R245 to R249, R275, R313, R315 to R318: a cache command waits for its turn on its entry. `KVAPP` checks, then reads its source and
writes the token, the multiplicity and LEN in any order, each element after what it depends on. `KVMRG` merges the slots of a page, each
page whole, and passes one that is not in pond 0. `PARK` of an entry in use writes the wake key, `%clock` and PST = 1, in any order, and
puts the entry on the park list. `PROMO` starts a move of each page with tag 1 or 2, and ends once every page has tag 0. -/
def Sys2Proof.Says.CacheCommandsExecute : Prop :=
  (∀ (k cut : Nat) (c x : Cmd) (s : State), s.cmd? k = some c → x ∈ s.cmds → sameEntry c x = true → x.ahead c = true → x.blocks = true →
    exec (.cacheCommandExecute k cut) s = .next s) ∧
  (∀ (cut entry src pos : Nat) (base : Word32) (c : Cmd) (s : State), CacheRuns s c → c.kind = .kvapp entry src pos base →
    let hdr := kept c.staged 0 320
    (c.pos = 0 → Plain s c → Exists entry 320 →
      let e := parseEntry (memAt s entry 320)
      (∀ h, h < e.nkvh → Exists (e.taga + (e.len / 128 * e.nkvh + h) / 4) 1) →
      (∀ code arg, appendFault s c e src = some (code, arg) → ∃ u, exec (.cacheCommandExecute c.id cut) s = .next u ∧ Deferred s u c code arg) ∧
      (appendFault s c e src = none → KeepsAll c.id cut s fun c' => c'.status = 0 ∧ c'.pos = 1 ∧ c'.rest = allOf (256 * e.nkvh) ∧
        c'.left = allOf (256 * e.nkvh + 2) ∧ kept c'.staged 0 320 = memAt s entry 320)) ∧
    (0 < c.pos → c.rest ≠ [] → cut % 2 = 0 →
      let w := (takeLeft (cut / 2) c.rest).1
      KeepsAll c.id cut s fun c' => c'.status = 0 ∧ c'.pos = c.pos ∧ c'.left = c.left ∧ c'.rest = (takeLeft (cut / 2) c.rest).2 ∧
        c'.got = gotAt w.1 ((List.range (2 * w.2)).map fun j =>
          mget 0 s.lstore (storeAt c.ep ((s.rangeOf c.launch).1 + src + 2 * w.1 + j))) c.got) ∧
    (∀ i pas, 0 < c.pos → c.rest = [] ∨ cut % 2 = 1 → (takeLeft (cut / 2) c.left).1 = (i, 1) →
      let p := appendPiece s c hdr entry base pos i
      AppendReady c base (parseEntry hdr).nkvh i → s.touch c .write false p.1 p.2.length = .ok pas → pas.Nodup → s.memOk →
      (s.part c.part).lockstep = false → ∃ u, exec (.cacheCommandExecute c.id cut) s = .next u ∧ Puts s u pas p.2 ∧
        OneDone u c.id (takeLeft (cut / 2) c.left).2)) ∧
  (∀ (cut entry first cnt : Nat) (tau : Word32) (c : Cmd) (s : State), CacheRuns s c → c.kind = .kvmrg entry first cnt tau → Plain s c →
    let e := parseEntry (kept c.staged 0 320)
    let tp := first / 128 + c.pos - 1
    let tags := (List.range e.nkvh).map fun h => tagIn s e (tp * e.nkvh + h)
    let onward := fun (c' : Cmd) => if c.pos = c.lim then c'.status = 1 else c'.status = 0 ∧ c'.pos = c.pos + 1
    (c.pos = 0 → Exists entry 320 → ∀ code, (parseEntry (memAt s entry 320)).fault = some code →
      ∃ u, exec (.cacheCommandExecute c.id cut) s = .next u ∧ Deferred s u c code 0) ∧
    (0 < c.pos → (∀ h, h < e.nkvh → Exists (e.taga + (tp * e.nkvh + h) / 4) 1) → (∃ t ∈ tags, t ≠ 0) → KeepsAll c.id cut s onward) ∧
    (0 < c.pos → (∀ h, h < e.nkvh → Exists (e.taga + (tp * e.nkvh + h) / 4) 1) → (∀ t ∈ tags, t = 0) → Exists entry 4 →
      Exists (e.mula + tp * 128) 128 → (∀ h, h < e.nkvh → ∃ a, e.page (tp * e.nkvh + h) = some a ∧ Exists a 65536) →
      let n := min 128 (leNat (memAt s entry 4) % 2 ^ 25 - tp * 128)
      let live := (List.range n).filter fun i => s.byte (e.mula + tp * 128 + i) ≠ 0
      let slots := live.map fun i => ({
        ix := i, mult := (s.byte (e.mula + tp * 128 + i)).toNat
        kv := (List.range e.nkvh).map fun h =>
          let a := (e.page (tp * e.nkvh + h)).getD 0 + i * 256
          memAt s a 256 ++ memAt s (a + 32768) 256 } : MSlot)
      let ps := pageWrites e tp n (mergePage (f32 tau) (first - tp * 128) (first + cnt - tp * 128) slots)
      (ps.flatMap fun p => (List.range p.2.length).map fun k => p.1 + k).Nodup →
      ∃ u c', exec (.cacheCommandExecute c.id cut) s = .next u ∧ cmdIn u c.id = some c' ∧ onward c' ∧
        Puts s u (ps.flatMap fun p => (List.range p.2.length).map fun k => p.1 + k) (ps.flatMap fun p => p.2))) ∧
  (∀ (tau : Word32) (lo hi : Nat) (a b : MSlot), lo ≤ a.ix → a.ix < hi → lo ≤ b.ix → b.ix < hi → (∀ x ∈ a.kv ++ b.kv, x.length = 512) →
    mergePage (f32 tau) lo hi [a, b] =
      if (∀ x ∈ a.kv.zip b.kv, close tau x.1 x.2 = true) ∧ a.mult + b.mult ≤ 255 then
        [{ a with mult := a.mult + b.mult, kv := a.kv.zipWith (meanOf a.mult b.mult) b.kv }]
      else [a, b]) ∧
  (∀ (cut entry : Nat) (key : Word64) (c : Cmd) (s : State), CacheRuns s c → c.kind = .park entry key →
    (c.pos = 0 → Plain s c → Exists entry 320 →
      let e := parseEntry (memAt s entry 320)
      (∀ code, e.fault = some code → ∃ u, exec (.cacheCommandExecute c.id cut) s = .next u ∧ Deferred s u c code 0) ∧
      (e.fault = none → e.pst ≠ 0 → ∃ u, exec (.cacheCommandExecute c.id cut) s = .next u ∧ Deferred s u c 0x3B 0) ∧
      (e.fault = none → e.pst = 0 → s.parkLoad c.part < (s.part c.part).pln →
        KeepsAll c.id cut s fun c' => c'.status = 0 ∧ c'.pos = 1 ∧ c'.left = allOf 3 ∧ c'.lim = s.partClock c.part % 2 ^ 64 ∧
          mget 0 c'.staged 4 = s.byte (entry + 4))) ∧
    (∀ i pas, 0 < c.pos → (takeLeft cut c.left).1 = (i, 1) →
      let p : Nat × List Byte :=
        if i = 0 then (entry + 16, (List.range 8).map fun k => BitVec.ofNat 8 (key.toNat / 256 ^ k))
        else if i = 1 then (entry + 32, (List.range 8).map fun k => BitVec.ofNat 8 (c.lim / 256 ^ k))
        else (entry + 4, [BitVec.ofNat 8 ((mget 0 c.staged 4).toNat % 64 + 64)])
      s.touch c .write false p.1 p.2.length = .ok pas → pas.Nodup → s.memOk → (s.part c.part).lockstep = false →
      ∃ u, exec (.cacheCommandExecute c.id cut) s = .next u ∧ Puts s u pas p.2 ∧ OneDone u c.id (takeLeft cut c.left).2 ∧
        ((takeLeft cut c.left).2 = [] → { tenant := c.tenant, entry := entry } ∈ (u.part c.part).parked))) ∧
  (∀ (cut entry pg0 cnt : Nat) (c : Cmd) (s : State), CacheRuns s c → c.kind = .promo entry pg0 cnt → Plain s c →
    let e := parseEntry (kept c.staged 0 320)
    let g := pg0 * e.nkvh + c.pos - 1
    (c.pos = 0 → Exists entry 320 → (parseEntry (memAt s entry 320)).fault = none →
      (cnt ≠ 0 → ((parseEntry (memAt s entry 320)).page ((pg0 + cnt) * (parseEntry (memAt s entry 320)).nkvh - 1)).isSome = true) →
      KeepsAll c.id cut s fun c' => c'.status = 0 ∧ c'.pos = 1 ∧ c'.lim = cnt * (parseEntry (memAt s entry 320)).nkvh ∧
        kept c'.staged 0 320 = memAt s entry 320) ∧
    (∀ va, 0 < c.pos → c.pos ≤ c.lim → e.page g = some va → Exists (e.taga + g / 4) 1 →
      (tagIn s e g = 0 ∨ tagIn s e g = 3 → KeepsAll c.id cut s fun c' => c'.status = 0 ∧ c'.pos = c.pos + 1) ∧
      (∀ at_ leaf, tagIn s e g = 1 ∨ tagIn s e g = 2 → s.leaf c.part c.tenant va = some (at_, leaf) →
        ∃ u c' m, exec (.cacheCommandExecute c.id cut) s = .next u ∧ cmdIn u c.id = some c' ∧ c'.status = 0 ∧ c'.pos = c.pos + 1 ∧
          u.moves = s.moves ++ [m] ∧ m.cmd = c.id ∧ m.entry = entry ∧ m.page = g ∧ m.va = va ∧ m.from_ = tagIn s e g ∧ m.to_ = 0 ∧
          m.stage = 0 ∧ m.fromPa = field leaf 12 44 * 4096 ∧
          Puts s u [e.taga + g / 4]
            [BitVec.ofNat 8 ((s.byte (e.taga + g / 4)).toNat + (3 - tagIn s e g) * 4 ^ (g % 4))])) ∧
    (c.lim < c.pos → (∀ i, i < c.lim → Exists (e.taga + (pg0 * e.nkvh + i) / 4) 1) →
      KeepsAll c.id cut s fun c' =>
        c'.status = if ∀ i, i < c.lim → tagIn s e (pg0 * e.nkvh + i) = 0 then 1 else 0))

/-- R90, R212, R229 to R249, R275, R276, R300, R303 to R318: the commands of the arrays and of the key-value cache as they are performed.
Their phases rest on log 38, the physical addresses of a system group's on log 9, the order of `KVAPP`'s checks on log 48, nothing written
at PLBASE on log 52, a row whose m is NaN on log 87, and the merge of a page that is seen whole on log 117. -/
def Obligations.ArrayAndCacheCommandsExecute : Prop :=
  ArrayCommandsExecute ∧ LoadsAndDrains ∧ CorrectingCommandsExecute ∧ AttentionCommandsExecute ∧ CacheCommandsExecute

/-! ### Faults and the driver (R374, R375, R405) -/

namespace Sys2Proof.Says

/-- The 256 bits of a fault record (R374). -/
def faultNat (f : FaultEntry) : Nat :=
  f.tier.toNat * 2 ^ 64 + f.tenant % 16 * 2 ^ 72 + f.w.toNat * 2 ^ 76 + f.src % 8 * 2 ^ 77 + f.slot % 32 * 2 ^ 80 +
    f.ep / 64 % 32 * 2 ^ 85 + f.ep % 64 * 2 ^ 90 + f.tag.toNat * 2 ^ 160 + f.va.toNat * 2 ^ 192

/-- A manager interrupt has gone out with its item at the end of a system queue that had room (R405). -/
def Told (s u : State) (part kind arg : Nat) : Prop :=
  u.irqs = s.irqs ++ [{ kind := kind, part := part, a := 0, b := arg }] ∧
    ((s.part part).sysq.length < 64 → (u.part part).sysq = (s.part part).sysq ++ [BitVec.ofNat 64 (kind * 2 ^ 56 + arg)])

/-- A state without one outstanding fault. -/
def withoutFault (s : State) (k : Nat) : State := { s with faults := s.faults.filter fun f => f.id ≠ k }

end Sys2Proof.Says

/-- R374, R375, R405: a fault's record joins the fault ring while it has room, the interrupt comes at most once in 10 µs, and the driver's
answer lets what waited go on, or gives it access-violation; a group that a machine check has stopped stays so, and an answer with no
such TAG is ignored. -/
def Obligations.FaultsAndAnswers : Prop :=
  (∀ (part k : Nat) (f : FaultEntry) (s : State), s.fault? k = some f → f.part = part → f.posted = false → s.memOk →
    let p := s.part part
    let rd := s.num (p.cfgAt + 60) 4
    let at_ := p.fqbase + 32 * (p.fqwr.toNat % 4096)
    ((p.fqwr.toNat + 2 ^ 32 - rd) % 2 ^ 32 = 4096 → exec (.faultRecordPost part k) s = .next s) ∧
    ((p.fqwr.toNat + 2 ^ 32 - rd) % 2 ^ 32 ≠ 4096 → (∀ i j, i < 32 → j < 4 → at_ + i ≠ p.cfgAt + 56 + j) →
      ∃ u, exec (.faultRecordPost part k) s = .next u ∧
        leNat ((List.range 32).map fun i => u.byte (at_ + i)) = faultNat f ∧
        leNat ((List.range 4).map fun i => u.byte (p.cfgAt + 56 + i)) = (p.fqwr + 1).toNat ∧
        (∀ a, ¬(at_ ≤ a ∧ a < at_ + 32) → ¬(p.cfgAt + 56 ≤ a ∧ a < p.cfgAt + 60) → u.byte a = s.byte a) ∧
        u.part part = { p with fqwr := p.fqwr + 1, faultIrqDue := true } ∧
        u.faults = modifyKey (fun f => f.id) k (fun f => { f with posted := true }) s.faults)) ∧
  (∀ (part : Nat) (s : State), let p := s.part part
    (p.faultIrqDue = false → exec (.faultInterrupt part) s = .next s) ∧
    (∀ t, p.lastFaultIrq = some t → s.clock < t + 33000 → exec (.faultInterrupt part) s = .next s) ∧
    (p.faultIrqDue = true → (∀ t, p.lastFaultIrq = some t → t + 33000 ≤ s.clock) →
      ∃ u, exec (.faultInterrupt part) s = .next u ∧ Told s u part 5 0 ∧ (u.part part).faultIrqDue = false ∧
        (u.part part).lastFaultIrq = some s.clock)) ∧
  (∀ (part : Nat) (v : Word64) (s : State), (s.part part).lockstep = false →
    ((∀ f ∈ s.faults, f.part = part → f.posted = true → f.tag ≠ v.setWidth 32) → exec (.faultResponse part v) s = .next s) ∧
    (∀ f gid sec pc va g, s.faults.find? (fun f => f.part == part && f.posted && f.tag == v.setWidth 32) = some f →
      f.target = .fetch gid sec pc va → s.group? gid = some g →
      (g.wait = .stopped → exec (.faultResponse part v) s = .next (withoutFault s f.id)) ∧
      ((∃ b, g.wait = .fetchFault f.id b) →
      (v.getLsbD 32 = false → exec (.faultResponse part v) s = .next (stored (withoutFault s f.id) { g with wait := .none })) ∧
      (∀ p, v.getLsbD 32 = true → g.path? sec = some p → exec (.faultResponse part v) s =
        .next ((withoutFault s f.id).takeTrap { g with wait := .none } sec
          { precise p 0x21 p.mask va 0 with fpc := pc, pc := pc })))) ∧
    (∀ f k c b r row0 t, s.faults.find? (fun f => f.part == part && f.posted && f.tag == v.setWidth 32) = some f →
      f.target = .cmd k → s.cmd? k = some c → c.kind = .mma t b r row0 → c.chain = none →
      exec (.faultResponse part v) s = .next { withoutFault s f.id with
        cmds := modifyKey (fun x => x.id) c.id (fun _ =>
          if v.getLsbD 32 then { c with held := none, status := 2, sts := 2, err := true } else { c with held := none }) s.cmds
        arrays := if v.getLsbD 32 then
            mset {} s.arrays (s.arrayOf c.ep) { mget {} s.arrays (s.arrayOf c.ep) with floors := c.floors }
          else s.arrays }))

/-! ### The dispatcher (R8 to R11, R14, R348 to R359, R376, R399) -/

namespace Sys2Proof.Says

/-- A periodic event of a kind has still to happen for the cycles counted (R356, R395, R396). -/
def Due (s : State) (kind id clk per : Nat) : Prop := mget 0 s.tickAt (kind * 2 ^ 64 + id) < clk / per

/-- It has happened once more. -/
def once (s : State) (kind id : Nat) : State :=
  { s with tickAt := mset 0 s.tickAt (kind * 2 ^ 64 + id) (mget 0 s.tickAt (kind * 2 ^ 64 + id) + 1) }

/-- A path within a clause stands at the clause's header again, and goes on from its word once it has entered (R25, R59). -/
def entersAgain (p : Path) : Path :=
  match p.clause with
  | some c => { p with pc := c.at_, clause := none, again := false, resume := if p.pc = c.at_ + 1 then none else some p.pc }
  | none => { p with again := false }

/-- A patch placed on a rectangle of positions: its record, one block for each position, row by row, and in each the block's
groups, with every lane at the entry point, zero registers, and the stage's registers. -/
def Placed (s u : State) (l : Launch) (n : Need) (num rel x y : Nat) : Prop :=
  ∃ bs gs, u.patches = s.patches ++ [{ id := s.nextId, launch := l.id, x := x, y := y, w := n.w, h := n.h, stg := n.stg, num := num,
                                        relaunches := rel }] ∧
    u.blocks = s.blocks ++ bs ∧ u.groups = s.groups ++ gs ∧
    (bs.map fun b => b.ep) = ((List.range n.h).flatMap fun j => (List.range n.w).map fun i => (y + j) * 64 + (x + i)) ∧
    (∀ b ∈ bs, b.launch = l.id ∧ b.patch = s.nextId ∧ b.alive = n.groups ∧ b.restartable = l.hdr.rst ∧ b.tenant = l.tenant) ∧
    (∀ g ∈ gs, g.launch = l.id ∧ g.tenant = l.tenant ∧ g.sys = false ∧ g.regs = n.regs ∧ g.prio = l.hdr.prio ∧ g.v = [] ∧ g.s = [] ∧ g.p = [] ∧
      g.p0 = some { pc := BitVec.ofNat 64 n.entry, mask := 0xFFFFFFFF#32 } ∧ g.p1 = none ∧ g.srseed = l.hdr.seed ∧
      ∃ (b : Block) (k i : Nat), b ∈ bs ∧ bs[i]? = some b ∧ g.block = b.id ∧ g.ep = b.ep ∧ k < n.groups ∧
        g.wid = BitVec.ofNat 64 (k + i * 2 ^ wfBase l.hdr.wf 1 + num * 2 ^ wfBase l.hdr.wf 2)) ∧
    (x + n.w ≤ 64 →
      (∀ i j, i < n.w → j < n.h → n.groups ≤ (s.freeSlots ((y + j) * 64 + (x + i))).length) → gs.length = n.w * n.h * n.groups) ∧
    u.mem = s.mem ∧ u.lstore = s.lstore

end Sys2Proof.Says

/-- R8 to R11, R25, R355, R356, R368, R376: the dispatcher makes nothing while its partition is stopped; else the first candidate by
priority and age gets its next patch, or room is made for it (one whose patch has a place and comes with its launch's own tick stops
nobody: log 92; what makes room, and when, log 56 says); a placed patch holds its blocks and groups; an evicted group returns to a position with a slot and registers free, enters its
clause's header again, and meets a machine check with code 0x63 where its context area does not exist. -/
def Obligations.PatchesPlacedAndReturned : Prop :=
  (∀ (part : Nat) (s : State), (s.part part).stopped = true → exec (.patchPlacement part) s = .next s) ∧
  (∀ (part : Nat) (c : Cand) (s : State), (s.part part).stopped = false → (s.part part).pairStopped = false →
    let t := s.startAll part
    let cs := (t.launches.filterMap (t.candOf part)).filter fun c => !(c.tick && (t.placeNext c).isSome)
    (cs = [] → exec (.patchPlacement part) s = .next (t.stayAll part)) ∧
    (c ∈ cs → (∀ d ∈ cs, d = c ∨ d.prio < c.prio ∨ (d.prio = c.prio ∧ c.age < d.age)) →
      (∀ u, c.tick = false → t.placeNext c = some u → exec (.patchPlacement part) s = .next ((u.stayAll part).freeEntries part)) ∧
      (t.placeNext c = none → exec (.patchPlacement part) s = .next (t.makeRoom c)))) ∧
  (∀ (l : Launch) (n : Need) (num rel x y base : Nat) (ov : List Nat) (s : State),
    Placed s (s.placePatch l n num rel x y base ov) l n num rel x y) ∧
  (∀ (k : Nat) (g : Group) (s : State), s.group? k = some g →
    (g.evicted = false ∨ s.freeRegs g.ep < g.regs ∨ s.freeSlots g.ep = [] → exec (.evictedGroupReturn k) s = .next s) ∧
    (g.evicted = true → g.regs ≤ s.freeRegs g.ep → g.slot ∈ s.freeSlots g.ep →
      (s.areaOk g.part g.ep g.slot = true → g.wait = .none → g.faults = [] →
        ∃ u h, exec (.evictedGroupReturn k) s = .next u ∧ u.group? k = some h ∧ h.evicted = false ∧ h.slot = g.slot ∧ h.ep = g.ep ∧
          h.v = g.v ∧ h.s = g.s ∧ h.p = g.p ∧ h.q = g.q ∧ h.p0 = g.p0.map entersAgain ∧ h.p1 = g.p1.map entersAgain ∧
          u.lstore = s.lstore ∧ u.blocks = s.blocks) ∧
      (s.areaOk g.part g.ep g.slot = false →
        exec (.evictedGroupReturn k) s = .next (s.machineCheck { g with evicted := false } (boundaryInfo g 0x63)))))

/-- R213, R349, R350, R354, R356 to R359: an entry whose header is good starts its launch and takes its number, a malformed one completes
at once with LSTS 1, also where it is malformed by a reserved bit (log 35); a launch completes when its blocks, stores and commands are
gone, and then advances its sequence, while LSTS and LTAG stay as a good launch found them (log 55); a status record that can be written
holds the slot's values; a stage is given one more patch at a tick where its demand allows. -/
def Obligations.LaunchesStartAndComplete : Prop :=
  (∀ (part k : Nat) (s : State), let q := (s.part part).slot k
    q.mapped = false ∨ q.susp = true ∨ q.head = q.tail → exec (.launchEntryStart part (.slot k)) s = .next s) ∧
  (∀ (part k : Nat) (ent hb : List Byte) (s : State), let p := s.part part
    let q := p.slot k
    q.mapped = true → q.susp = false → p.stopped = false → p.pairStopped = false → q.head ≠ q.tail → q.cur = none →
    s.tenantBytes part q.tenant (q.rbase + 32 * (q.head.toNat % 2 ^ (q.lgn + 4))) 32 = some ent →
    let x := leNat ent
    let h := parseHeader hb
    (field x 72 56 = 0 → x.testBit 65 = false → field x 128 64 = 0 → field x 0 6 = 0 →
      s.tenantBytes part q.tenant (field x 0 64) 640 = some hb → h.ok false = true → (∀ d ∈ h.deps, d.kind = 0) →
      0 < (p.tenant q.tenant).balance → (h.banks.getD 15 (0, 0)).2 ≤ 8 → (∀ y ∈ s.launches, y.id ≠ s.nextId) →
      ∃ u l, exec (.launchEntryStart part (.slot k)) s = .next u ∧ u.launches = s.launches ++ [l] ∧ l.id = s.nextId ∧ l.part = part ∧
        l.tenant = q.tenant ∧ l.hdr = h ∧ l.created = 0 ∧
        l.origin = .queue k q.qid q.nextSeq (BitVec.ofNat 64 (field x 192 64)) (x.testBit 66) (field x 67 5) ∧
        ((u.part part).slot k).head = q.head + 1 ∧ ((u.part part).slot k).nextSeq = q.nextSeq + 1 ∧
        ((u.part part).slot k).cur = some s.nextId ∧ u.mem = s.mem ∧ u.groups = s.groups) ∧
    ((field x 72 56 ≠ 0 ∨ x.testBit 65 = true) → x.testBit 64 = false → q.org ≠ 1 → p.lockstep = false → q.doneSeqs = [] →
      q.cseq.toNat + 1 = q.nextSeq → q.nextSeq < 2 ^ 64 →
      ∃ u, exec (.launchEntryStart part (.slot k)) s = .next u ∧ u.launches = s.launches ∧
        ((u.part part).slot k).head = q.head + 1 ∧ ((u.part part).slot k).cseq.toNat = q.nextSeq ∧ ((u.part part).slot k).lsts = 1 ∧
        ((u.part part).slot k).ltag = BitVec.ofNat 64 (field x 192 64) ∧
        { kind := 9, part := part, a := q.tenant, b := 31 } ∈ u.irqs)) ∧
  (∀ (k : Nat) (l : Launch) (s : State), s.launch? k = some l →
    (l.completed = true ∨ (∃ b ∈ s.blocks, b.launch = k) ∨ (∃ c ∈ s.cmds, c.launch = k) → exec (.launchCompletion k) s = .next s) ∧
    (l.completed = false → l.again = [] → l.hdr.nstg = 0 → l.hdr.npat ≤ l.created → (∀ b ∈ s.blocks, b.launch ≠ k) → s.parked = [] →
      (∀ c ∈ s.cmds, c.launch ≠ k) → (∀ e ∈ s.sb, e.who.pch ∉ l.pids) →
      (∀ w ∈ s.co, w.who.pch ∈ l.pids → w.who.gid ≠ 0 → Scope.rank w.home ≤ Scope.rank w.lvl) → (s.launches.map fun x => x.id).Nodup →
      l.killed = 0 →
      (∀ seq, l.origin = .device seq → (s.tenant l.part l.tenant).devFinished = [] → (s.tenant l.part l.tenant).devDone + 1 = seq →
        ∃ u, exec (.launchCompletion k) s = .next u ∧ (∀ x ∈ u.launches, x.id = k → x.completed = true) ∧
          (u.tenant l.part l.tenant).devDone = seq ∧ u.mem = s.mem ∧ u.groups = s.groups ∧ u.irqs = s.irqs) ∧
      (∀ j qid seq tag vec, l.origin = .queue j qid seq tag false vec → let q := (s.part l.part).slot j
        q.mapped = true → q.qid = qid → q.org ≠ 1 → (s.part l.part).lockstep = false → q.doneSeqs = [] → q.cseq.toNat + 1 = seq →
        seq < 2 ^ 64 →
        ∃ u, exec (.launchCompletion k) s = .next u ∧ (∀ x ∈ u.launches, x.id = k → x.completed = true) ∧
          (u.part l.part).slot j = { q with cseq := BitVec.ofNat 64 seq, wdogAt := s.clock } ∧ u.groups = s.groups ∧
          u.irqs = s.irqs))) ∧
  (∀ (part tenant va : Nat) (q : Slot) (v : View) (pas : List Nat) (s : State), (s.part part).lockstep = false → s.memOk →
    trRange (s.trTenant part tenant .write) va 32 = .ok pas → pas.Nodup →
    let u := s.hostWrite part tenant va q.record v
    leNat (pas.map u.byte) = q.cseq.toNat + q.head.toNat * 2 ^ 64 + q.lsts % 256 * 2 ^ 128 + q.ltag.toNat * 2 ^ 192 ∧
    ∀ a, a ∉ pas → u.byte a = s.byte a) ∧
  (∀ (k : Nat) (l : Launch) (t : Stage) (s : State), s.launch? k = some l →
    (l.hdr.nstg = 0 ∨ ¬ Due s 0 k (s.partClock l.part) 1024 → exec (.stageTick k) s = .next s) ∧
    (l.hdr.nstg = 1 → l.hdr.stages[0]? = some t → l.completed = false → l.killed = 0 → Due s 0 k (s.partClock l.part) 1024 →
      s.candsBefore l = [] → s.mayCreate l = true → t.minB ≤ s.resident l 0 → l.sends = [] → l.recvs = [] → mget 0 l.perStage 0 < l.hdr.npat →
      (∀ u, s.resident l 0 + l.hdr.pw * l.hdr.ph ≤ t.maxB → (once s 0 k).createPatch l 0 = some u →
        exec (.stageTick k) s = .next (u.freeEntries l.part)) ∧
      (t.maxB < s.resident l 0 + l.hdr.pw * l.hdr.ph → exec (.stageTick k) s = .next ((once s 0 k).freeEntries l.part))))

/-! ### Periodic events (R357, R360, R362, R395, R396, R415) -/

namespace Sys2Proof.Says

/-- Every item of a tenant that a partition holds: on its positions, in its work-queue area, and on its way. -/
def itemsOf (s : State) (part t : Nat) : List Item :=
  ((s.part part).parts.flatMap fun x => if x.1 % 16 = t then x.2 else []) ++
  ((s.part part).ovItems.flatMap fun x => if x.1 % 16 = t then x.2 else []) ++
  s.transit.flatMap fun x => if x.part = part ∧ x.tenant = t then x.items else []

/-- The bits of an entry of a tenant's launch table (R362). -/
def tableNat (s : State) (part t ix : Nat) : Nat := s.num ((s.tenant part t).ltbase + 64 * ix) 64

end Sys2Proof.Says

/-- R360: balancing loses and duplicates no work item; a position reports its depth, plus 128 where no group of the tenant is resident, up
to 255, and owes half of a difference above the threshold, at most 32; items that arrive join the newest end in their order. -/
def Sys2Proof.Says.WorkItemsBalance : Prop :=
  (∀ (part : Nat) (s : State), (s.part part).exists_ = true → PartsOk s part →
    (¬ Due s 1 part (s.partClock part) 1024 → exec (.balanceTick part) s = .next s) ∧
    (Due s 1 part (s.partClock part) 1024 → ∃ u, exec (.balanceTick part) s = .next u ∧ u.mem = s.mem ∧ u.groups = s.groups ∧
      u.tickAt = (once s 1 part).tickAt ∧ ∀ t, t < 16 → (itemsOf u part t).Perm (itemsOf s part t))) ∧
  (∀ (t e : Nat) (p : Partition) (rep : Nat → Nat) (s : State),
    let d := (mget [] p.parts (e * 16 + t)).length + (mget [] p.ovItems (e * 16 + t)).length
    ((∃ g ∈ s.groups, g.ep = e ∧ g.sys = false ∧ g.tenant = t ∧ g.evicted = false) → s.reportAt p t e = min d 255) ∧
    ((∀ g ∈ s.groups, ¬(g.ep = e ∧ g.sys = false ∧ g.tenant = t ∧ g.evicted = false)) → s.reportAt p t e = min (d + 128) 255) ∧
    ∀ f n, (f, n) ∈ s.owes p rep e ↔
      (∃ dir, dir < 4 ∧ s.nearest p dir 64 (e % 64) (e / 64) = some f) ∧ rep f + p.bthr < rep e ∧ n = min ((rep e - rep f) / 2) 32) ∧
  (∀ (k : Nat) (x : Transit) (s : State), findKey (fun x => x.id) k s.transit = some x → PartsOk s x.part →
    ∃ u, exec (.balanceItemArrival k) s = .next u ∧ u.transit = s.transit.filter (fun y => y.id ≠ k) ∧
      let key := x.dst * 16 + x.tenant
      mget [] (u.part x.part).parts key ++ mget [] (u.part x.part).ovItems key =
        mget [] (s.part x.part).parts key ++ mget [] (s.part x.part).ovItems key ++ x.items)

/-- R357, R395, R396, R362, R415: at their boundaries every active tenant is refilled and capped, throttle levels move, launch-table
buckets gain tokens, package power is judged, and an overdue watchdog suspends its slot and tells the manager; before that nothing
happens. -/
def Sys2Proof.Says.PeriodicEvents : Prop :=
  (∀ (part : Nat) (s : State), PartsOk s part → let p := s.part part
    (¬ Due s 2 part (s.partClock part) 3300000 → exec (.energyWindow part) s = .next s) ∧
    (Due s 2 part (s.partClock part) 3300000 → ∃ u, exec (.energyWindow part) s = .next u ∧
      (∀ t, t < 16 → (p.tenant t).active = true →
        let q := s.num (p.tcbase + 128 * t + 80) 2
        let r : Int := ((p.share * q / 1024 * 1000000 : Nat) : Int)
        u.tenant part t = { p.tenant t with qta := q, balance := min ((p.tenant t).balance + r) (p.brst * r) }) ∧
      (∀ t, t < 16 → (p.tenant t).active = false → u.tenant part t = p.tenant t) ∧
      ∀ a, (∀ t, t < 16 → ¬(p.tcbase + 128 * t + 40 ≤ a ∧ a < p.tcbase + 128 * t + 64)) → u.byte a = s.byte a)) ∧
  (∀ (part : Nat) (s : State), PartsOk s part → let p := s.part part
    (¬ Due s 3 part (s.partClock part) 32768 → exec (.throttleTick part) s = .next s) ∧
    (Due s 3 part (s.partClock part) 32768 → ∃ u, exec (.throttleTick part) s = .next u ∧ u.mem = s.mem ∧ ∀ t, t < 16 →
      let x := p.tenant t
      let n := if x.balance ≤ 0 then max (x.level - 1) 1 else min (x.level + 2) 16
      u.tenant part t = if x.active then
          { x with level := n, thrt := if min n (if p.capped then 8 else 16) < 16 then min (x.thrt + 1) 0xFFFFFFFF else x.thrt }
        else x)) ∧
  (∀ (part : Nat) (s : State), PartsOk s part → (∀ t, t < 16 → mwf (0 : Nat) (s.tenant part t).tokens = true) →
    (¬ Due s 4 part (s.partClock part) 3300000 → exec (.rateTokenRefill part) s = .next s) ∧
    (Due s 4 part (s.partClock part) 3300000 → ∃ u, exec (.rateTokenRefill part) s = .next u ∧ u.mem = s.mem ∧
      ∀ t ix n, t < 16 → mget 0 (s.tenant part t).tokens ix = n + 1 →
        mget 0 (u.tenant part t).tokens ix =
          min (n + field (tableNat s part t ix) 384 16) (field (tableNat s part t ix) 400 16) + 1)) ∧
  (∀ (part k : Nat) (s : State), (s.part part).lockstep = false → k < 128 → let q := (s.part part).slot k
    let late := q.mapped = true ∧ q.wdogUs ≠ 0 ∧ q.susp = false ∧ q.wdogAt + q.wdogUs * 3300 ≤ s.clock ∧
      ∃ l ∈ s.launches, l.part = part ∧ l.completed = false ∧ ∃ a b c d e, l.origin = .queue k a b c d e
    (¬ late → exec (.watchdogExpiry part k) s = .next s) ∧
    (late → ∃ u, exec (.watchdogExpiry part k) s = .next u ∧ (u.part part).slot k = { q with susp := true, expired := true } ∧
      Told s u part 3 k ∧ u.groups = s.groups ∧ u.launches = s.launches)) ∧
  (∀ (mw : Nat) (s : State),
    (¬ Due s 5 0 s.clock 3300000 → exec (.powerWindow mw) s = .next s) ∧
    (Due s 5 0 s.clock 3300000 →
      let o := if 1800000 < mw then s.overWin + 1 else 0
      let b := if mw < 1700000 then s.underWin + 1 else 0
      let on := if 5 ≤ o then true else if 5 ≤ b then false else s.capped
      ∃ u, exec (.powerWindow mw) s = .next u ∧ u.overWin = o ∧ u.underWin = b ∧ u.capped = on ∧ u.mem = s.mem ∧
        ∀ k, k < 4 → (s.part k).exists_ = true → (s.part k).lockstep = false →
          u.part k = { s.part k with capped := if on = s.capped then (s.part k).capped else on }))

/-- R357, R360, R362, R395, R396, R415: work items are balanced, and the periodic events do their work at their boundaries. -/
def Obligations.BalanceAndPeriodicEvents : Prop := WorkItemsBalance ∧ PeriodicEvents

/-! ### The host port and the fabric (R280, R319, R347, R352, R361 to R366, R399, R405) -/

namespace Sys2Proof.Says

/-- A notify meets none of the grounds of R352 for its rejection. -/
def GoodNotify (s : State) (part tenant off : Nat) (data : List Byte) : Prop :=
  let d := s.qdesc part (off / 8)
  data.length = 8 ∧ off % 8 = 0 ∧ leNat data < 2 ^ 32 ∧ field d 28 4 = tenant ∧ field d 38 2 = 0 ∧
    ∃ h, s.headOf part (off / 8) = some h ∧ (leNat data + 2 ^ 32 - h) % 2 ^ 32 ≤ 2 ^ (field d 20 4 + 4)

/-- The bytes from an address on hold a number, and those outside some ranges are as before. -/
def Holds (u : State) (at_ n v : Nat) : Prop := leNat ((List.range n).map fun i => u.byte (at_ + i)) = v
def KeepsBut (s u : State) (rs : List (Nat × Nat)) : Prop := ∀ a, (∀ r ∈ rs, ¬(r.1 ≤ a ∧ a < r.1 + r.2)) → u.byte a = s.byte a

/-- A wake record of 16 bytes becomes a command of the owner's engine (R319). -/
def Wakes (s u : State) (part tenant r : Nat) : Prop :=
  ∃ c, u = { s with nextId := s.nextId + 1, cmds := s.cmds ++ [c] } ∧ c.id = s.nextId ∧ c.part = part ∧ c.tenant = tenant ∧ c.eng = 3 ∧
    c.inst = (s.part part).owner (field r 6 58 * 64) ∧
    c.kind = .wake (field r 6 58 * 64) (BitVec.ofNat 64 (field r 64 64)) (decide (field r 0 6 ≠ 0)) 0

/-- The owner's queue has room. -/
def WakeRoom (s : State) (part r : Nat) : Prop :=
  (s.cmds.filter fun c => c.eng == 3 && c.inst == (s.part part).owner (field r 6 58 * 64)).length < 64

end Sys2Proof.Says

/-- R352, R355, R405, R347, R280: a good notify moves the TAIL of its queue, in the slot or in the descriptor with its pending bit, and is
the age of the entries it covers; any other only counts. The two queue interrupts keep their distance. Other offsets of a tenant's window
drop writes; the host reads and writes HBM. -/
def Sys2Proof.Says.HostPortEvents : Prop :=
  (∀ (vf off : Nat) (data : List Byte) (s : State), vf < 64 → (s.part (vf / 16)).exists_ = true → off < 0x8000 →
    (s.part (vf / 16)).lockstep = false →
    let part := vf / 16
    let q := off / 8
    let v := leNat data
    (¬ GoodNotify s part (vf % 16) off data → exec (.notify vf off data) s =
      .next (tenantSet s part (vf % 16) fun t => { t with notifyRej := min (t.notifyRej + 1) 0xFFFFFFFF })) ∧
    (∀ k, GoodNotify s part (vf % 16) off data → (s.part part).slotOfQ q = some k → ∃ u, exec (.notify vf off data) s = .next u ∧
      (let x := (s.part part).slot k
       let n := (v + 2 ^ 32 - x.tail.toNat) % 2 ^ 32
       (u.part part).slot k = { x with tail := BitVec.ofNat 32 v } ∧
        (mwf (0 : Nat) (s.part part).qages = true → n ≤ 2 ^ 16 → ∀ i, i < n →
          mget 0 (u.part part).qages (q * 2 ^ 32 + (x.tail.toNat + i) % 2 ^ 32) = s.clock)) ∧
      u.mem = s.mem ∧ u.groups = s.groups ∧ u.launches = s.launches) ∧
    (GoodNotify s part (vf % 16) off data → (s.part part).slotOfQ q = none → s.memOk →
      let d := (s.part part).qtbase + 64 * q + 12
      let b := (s.part part).pbase + q / 8
      ¬(d ≤ b ∧ b < d + 4) → ∃ u, exec (.notify vf off data) s = .next u ∧ Holds u d 4 v ∧
        u.byte b = s.byte b ||| (1#8 <<< (q % 8)) ∧ KeepsBut s u [(d, 4), (b, 1)] ∧
        (u.part part).bitmap = (s.part part).bitmap ++ if (s.byte b).getLsbD (q % 8) then [] else [q])) ∧
  (∀ (vf off : Nat) (data : List Byte) (s : State), 64 ≤ vf ∨ (s.part (vf / 16)).exists_ = false ∨ 0x8000 ≤ off →
    exec (.notify vf off data) s = .next s) ∧
  (∀ (part : Nat) (s : State), let p := s.part part
    (p.bitmap = [] ∨ (∃ t, p.lastPendingIrq = some t ∧ s.clock < t + 33000) → exec (.queuePendingInterrupt part) s = .next s) ∧
    (p.bitmap ≠ [] → (∀ t, p.lastPendingIrq = some t → t + 33000 ≤ s.clock) → ∃ u, exec (.queuePendingInterrupt part) s = .next u ∧
      Told s u part 1 0 ∧ (u.part part).bitmap = [] ∧ (u.part part).lastPendingIrq = some s.clock)) ∧
  (∀ (part : Nat) (s : State), let p := s.part part
    ((∃ k, k < 128 ∧ ((p.slot k).mapped = false ∨ (p.slot k).npre = false)) ∨ (∀ i, i < 512 → s.devByte (p.pbase + i) = 0) ∨
        (∃ t, p.lastStarveIrq = some t ∧ s.clock < t + 330000) →
      exec (.slotStarvationInterrupt part) s = .next s) ∧
    (p.configured = true → (∀ k, k < 128 → (p.slot k).mapped = true ∧ (p.slot k).npre = true) →
      (∃ i, i < 512 ∧ s.devByte (p.pbase + i) ≠ 0) → (∀ t, p.lastStarveIrq = some t → t + 330000 ≤ s.clock) →
      ∃ u, exec (.slotStarvationInterrupt part) s = .next u ∧ Told s u part 2 0 ∧ (u.part part).lastStarveIrq = some s.clock)) ∧
  (∀ (vf off : Nat) (data : List Byte) (s : State), vf < 64 → exec (.registerWriteOther vf off data) s = .next s) ∧
  (∀ (addr len : Nat) (bs : List Byte) (s : State), s.memOk →
    (addr + bs.length ≤ 2 ^ 39 → ∃ u, exec (.hostCxlMemAccess addr (some bs) len) s = .next u ∧
      ((List.range bs.length).map fun i => u.byte (addr + i)) = bs ∧ KeepsBut s u [(addr, bs.length)]) ∧
    (2 ^ 39 < addr + bs.length → exec (.hostCxlMemAccess addr (some bs) len) s = .next s) ∧
    (s.uncorr = [] → exec (.hostCxlMemAccess addr none len) s = .next s))

/-- R319, R361 to R366: wake frames and sluice writes reach the owner's queue; a launch frame writes its arguments and its queue entry,
takes a token and moves the TAIL; a copy message lands in the next buffer with its record; malformed ones are counted; an
acknowledgement frees a place of its send queue. A payload is charged by its sectors, without the header (log 101), and launch tables and
receive descriptors stand at physical addresses (log 69). -/
def Sys2Proof.Says.FabricEvents : Prop :=
  (∀ (vf : Nat) (data : List Byte) (s : State), vf < 64 → (s.part (vf / 16)).exists_ = true → (s.part (vf / 16)).lockstep = false →
    (data.length ≠ 16 → exec (.sluiceWrite vf 0x8000 data) s =
      .next (tenantSet s (vf / 16) (vf % 16) fun t => { t with wakeRej := min (t.wakeRej + 1) 0xFFFFFFFF })) ∧
    (data.length = 16 → WakeRoom s (vf / 16) (leNat data) →
      ∃ u, exec (.sluiceWrite vf 0x8000 data) s = .next u ∧ Wakes s u (vf / 16) (vf % 16) (leNat data))) ∧
  (∀ (part : Nat) (job : Word32) (pl : List Byte) (s : State), (s.part part).exists_ = true → (s.part part).lockstep = false →
    let h := leNat (pl.take 16)
    let body := pl.drop 16
    (∀ t, frameOk pl = false → s.binding part job = some t → exec (.neltikFrame part job pl) s =
      .next (tenantSet s part t fun x => { x with frameRej := min (x.frameRej + 1) 0xFFFFFFFF })) ∧
    (∀ t, frameOk pl = true → s.binding part job = some t → field h 8 8 = 2 → WakeRoom s part (leNat body) →
      ∃ u, exec (.neltikFrame part job pl) s = .next (u.charge part t 11 ((body.length + 31) / 32)) ∧ Wakes s u part t (leNat body)) ∧
    (∀ t k pas ent, frameOk pl = true → s.binding part job = some t → field h 8 8 = 1 → s.memOk →
      let ix := field h 32 16
      let e := tableNat s part t ix
      let c := mget 0 (s.tenant part t).frames ix
      let i := c % (field e 440 8 + 1)
      let buf := field e 448 64 + 256 * i
      let q := field e 428 12
      let d := s.qdesc part q
      let tail := ((s.part part).slot k).tail.toNat
      let args := body ++ List.replicate (256 - body.length) 0
      let at_ := field d 128 64 + 32 * (tail % 2 ^ (field d 20 4 + 4))
      s.mayLaunch part t ix (field h 64 64) = true → (s.part part).slotOfQ q = some k →
      trRange (s.trTenant part t .write) buf 256 = .ok pas → pas.Nodup →
      trRange ((s.tenantWrite part t buf .dev args).trTenant part t .write) at_ 32 = .ok ent → ent.Nodup → (∀ a ∈ pas, a ∉ ent) →
      ∃ u, exec (.neltikFrame part job pl) s = .next u ∧ pas.map u.byte = args ∧
        leNat (ent.map u.byte) = (field e 256 64 + buf * 2 ^ 128 + (ix * 2 ^ 48 + c % 2 ^ 48) * 2 ^ 192) % 2 ^ 256 ∧
        (∀ a, a ∉ pas → a ∉ ent → u.byte a = s.byte a) ∧ ((u.part part).slot k).tail = BitVec.ofNat 32 (tail + 1) ∧
        (u.tenant part t).tokensOf e ix + 1 = (s.tenant part t).tokensOf e ix ∧ mget 0 (u.tenant part t).frames ix = c + 1 ∧
        (u.tenant part t).bufBusy = (s.tenant part t).bufBusy ++ [(ix, i, c % 2 ^ 48)])) ∧
  (∀ (part : Nat) (job : Word32) (pl : List Byte) (t : Nat) (s : State), (s.part part).exists_ = true → (s.part part).lockstep = false →
    s.binding part job = some t →
    (messageOk pl = false → exec (.copyMessageArrival part job pl) s =
      .next (tenantSet s part t fun x => { x with frameRej := min (x.frameRej + 1) 0xFFFFFFFF })) ∧
    (∀ pas rp, messageOk pl = true → s.memOk →
      let data := pl.drop 16
      let pa := (s.tenant part t).rqbase + 64 * field (leNat (pl.take 16)) 8 12
      let d := s.num pa 64
      let buse := field d 224 32
      let cwr := field d 160 32
      let buf := field d 448 64 + buse % field d 400 16 * field d 416 32
      let at_ := field d 320 64 + 32 * (cwr % field d 304 16)
      d.testBit 384 = true → data.length ≤ field d 416 32 → (buse + 2 ^ 32 - field d 256 32) % 2 ^ 32 < field d 400 16 →
      (cwr + 2 ^ 32 - field d 192 32) % 2 ^ 32 < field d 304 16 →
      trRange (s.trTenant part t .write) buf data.length = .ok pas → trRange (s.trTenant part t .write) at_ 32 = .ok rp →
      pas.Nodup → rp.Nodup → (∀ a ∈ pas, a ∉ rp) → (∀ a, a ∈ pas ∨ a ∈ rp → ¬(pa + 20 ≤ a ∧ a < pa + 32)) →
      ∃ u, exec (.copyMessageArrival part job pl) s = .next u ∧ pas.map u.byte = data ∧
        leNat (rp.map u.byte) = (cwr + 1) % 2 ^ 32 * 2 ^ 64 + data.length % 2 ^ 32 * 2 ^ 96 + buf * 2 ^ 128 ∧
        Holds u (pa + 28) 4 ((buse + 1) % 2 ^ 32) ∧ Holds u (pa + 20) 4 ((cwr + 1) % 2 ^ 32) ∧
        (∀ a, a ∉ pas → a ∉ rp → ¬(pa + 20 ≤ a ∧ a < pa + 24) → ¬(pa + 28 ≤ a ∧ a < pa + 32) → u.byte a = s.byte a))) ∧
  (∀ (part t q : Nat) (s : State),
    ((∀ m ∈ s.net, ¬(m.part = part ∧ m.tenant = t ∧ m.q = q)) → exec (.transportAck part t q) s = .next s) ∧
    (∀ l m r, s.net = l ++ m :: r → (∀ x ∈ l, ¬(x.part = part ∧ x.tenant = t ∧ x.q = q)) → m.part = part → m.tenant = t → m.q = q →
      exec (.transportAck part t q) s = .next { s with net := l ++ r }))

/-- R280, R319, R347, R352, R361 to R366, R399, R405: what arrives by the host port and by the fabric. -/
def Obligations.HostPortAndFabricEvents : Prop := HostPortEvents ∧ FabricEvents

/-! ### Tiering, wakes and ageing (R115 to R118, R317 to R321, R367, R405, R430) -/

namespace Sys2Proof.Says

/-- The bytes of the tiering engine's region that hold the free and the bad bit of a page's old backing (R367). -/
def freeBits (s : State) (m : PageMove) (b : Nat) : Prop :=
  let p := s.part m.part
  (m.from_ = 1 ∧ p.p1base ≤ m.fromPa ∧ m.fromPa < p.p1base + p.p1n * 65536 ∧ b = p.tmbase + (m.fromPa - p.p1base) / 65536 / 8) ∨
  (2 ≤ m.from_ ∧ (b = p.tmbase + (p.p1n + slotOf m.fromPa) / 8 ∨ b = p.tmbase + (p.p1n + p.p2n0 + p.p2n1 + slotOf m.fromPa) / 8))

/-- A move of a page to pond 0, of a system group's command, that can go on: its leaf is found at `at_` with value e, its tag can be
read and written, and leaf, tag and free bits lie apart (the command's addresses are physical). -/
def Movable (s : State) (m : PageMove) (c : Cmd) (at_ e : Nat) : Prop :=
  s.cmd? m.cmd = some c ∧ c.sysA = true ∧ s.moveHeld m = false ∧ m.to_ = 0 ∧ (∀ k, s.touch c k false m.tagVa 1 = .ok [m.tagVa]) ∧
    s.co = [] ∧ s.sb = [] ∧ s.uncorr = [] ∧ s.memOk ∧ s.offPackage m.part [m.tagVa] = false ∧ c.part = m.part ∧
    s.leaf m.part m.tenant m.va = some (at_, e) ∧ ¬(at_ ≤ m.tagVa ∧ m.tagVa < at_ + 128) ∧
    ∀ b, freeBits s m b → b ≠ m.tagVa ∧ ¬(at_ ≤ b ∧ b < at_ + 128)

/-- A stretch of a page's data stands in its new frame, and the rest of them are still to come. -/
def StretchCopied (s u : State) (m : PageMove) (w : Nat × Nat) (rest : List (Nat × Nat)) : Prop :=
  (∀ i, i < w.2 → u.byte (m.toPa + w.1 + i) =
    s.byte ((if m.from_ = 2 then flashPa m.part (slotOf m.fromPa) else m.fromPa) + w.1 + i)) ∧
  KeepsBut s u [(m.toPa + w.1, w.2)] ∧ u.moves = modifyKey (fun (x : PageMove) => x.id) m.id (fun x => { x with left := rest }) s.moves

/-- The page has moved: all sixteen copies of its leaf name the frame and are valid, its tag is 0, and the move is over (R317). -/
def MovedUp (s u : State) (m : PageMove) (at_ e : Nat) : Prop :=
  (∀ k, k < 16 → ∃ y, Holds u (at_ + 8 * k) 8 y ∧ field y 12 44 = m.toPa / 4096 % 2 ^ 44 ∧ y.testBit 0 = true ∧
    ∀ j, j < 64 → j ≠ 0 → (j < 12 ∨ 56 ≤ j) → y.testBit j = e.testBit j) ∧
  (∀ j, j < 4 → (u.byte m.tagVa).toNat / 4 ^ j % 4 = if j = m.page % 4 then 0 else (s.byte m.tagVa).toNat / 4 ^ j % 4) ∧
  (∀ a, ¬(at_ ≤ a ∧ a < at_ + 128) → a ≠ m.tagVa → ¬freeBits s m a → u.byte a = s.byte a) ∧ u.moves = s.moves.filter fun x => x.id ≠ m.id

/-- A partition's queue pair q for the flash, after the bits of the tiering engine's region: 1,024 entries of 64 bytes for commands, then
1,024 of 16 bytes for completions; where the next command, and the next completion on a pair, are written; and whether the pair whose
turn it is has all its entries in use (R367, log 20). -/
def pairBase (p : Partition) (q : Nat) : Nat :=
  p.tmbase + ((p.p1n + 2 * (p.p2n0 + p.p2n1) + 7) / 8 + 4095) / 4096 * 4096 + q * 81920
def commandSlot (p : Partition) : Nat × Nat := (pairBase p p.qpNext + mget 0 p.qpSq p.qpNext % 1024 * 64, 64)
def completionSlot (p : Partition) (q : Nat) : Nat × Nat := (pairBase p q + 65536 + mget 0 p.qpCq q % 1024 * 16, 16)
def pairFull (s : State) (part : Nat) : Prop :=
  let q := (s.part part).qpNext
  1024 ≤ s.moves.countP (fun m => m.part == part && m.flash && m.stage == 1 && m.qp == q) +
    s.flushes.countP (fun f => f.part == part && f.qp == some q)

/-- No Flush of a partition waits for a queue pair. -/
def NoFlushWaits (s : State) (part : Nat) : Prop := ∀ f ∈ s.flushes, f.part = part → f.qp ≠ none

/-- A flash read has failed: the frame is free again, the tag stays, and the manager hears of it (R367, R430, log 53). -/
def ReadFailed (s u : State) (m : PageMove) (rs : List (Nat × Nat)) : Prop :=
  (u.part m.part).p0free = (s.part m.part).p0free ++ [m.toPa] ∧ u.moves = s.moves.filter (fun x => x.id ≠ m.id) ∧
    { kind := 7, part := m.part, a := m.entry, b := m.page } ∈ u.irqs ∧ ((s.part m.part).sysq.length < 64 → KeepsBut s u rs)

/-- A wake can read its entry, and write its PST: the bytes of the entry, and where PST is written. -/
def EntryOpen (s : State) (c : Cmd) (entry : Nat) (pas : List Nat) (pst : Nat) : Prop :=
  s.touch c .read false entry 320 = .ok pas ∧ s.touch c .write false (entry + 4) 1 = .ok [pst] ∧ s.co = [] ∧ s.sb = [] ∧ s.uncorr = [] ∧
    s.memOk ∧ s.moves = [] ∧ s.cmds = [c] ∧ s.waits c = false ∧ s.offPackage c.part (pst :: pas) = false

/-- PST has a new value, and no other byte of memory has changed. -/
def PstWritten (s u : State) (pas : List Nat) (pst v : Nat) : Prop :=
  (u.byte pst).toNat = (s.byte (pas.getD 4 0)).toNat % 64 + v * 64 ∧ KeepsBut s u [(pst, 1)]

end Sys2Proof.Says

/-- R318 to R321: a wake whose entry is not on the park list is counted as rejected; one that suits its parked entry sets PST 2; the end
of stage A sets PST 3 and pushes the work item; the end of stage B sets PST 0 and takes the entry off the list, which is no memory of the
tenant's (log 52); an ageing visit of a parked entry begins. -/
def Sys2Proof.Says.WakesAndVisits : Prop :=
  (∀ (k entry : Nat) (key : Word64) (rsv : Bool) (c : Cmd) (s : State), s.cmds = [c] → c.id = k → c.kind = .wake entry key rsv 0 →
    s.waits c = false → s.moves = [] →
    ({ tenant := c.tenant, entry := entry } ∉ (s.part c.part).parked →
      exec (.wakePerform k) s = .next (tenantSet { s with cmds := [] } c.part c.tenant fun t =>
        { t with wakeRej := min (t.wakeRej + 1) 0xFFFFFFFF })) ∧
    (∀ pas pst, { tenant := c.tenant, entry := entry } ∈ (s.part c.part).parked → rsv = false → EntryOpen s c entry pas pst →
      let e := parseEntry (pas.map s.byte)
      e.fault = none → e.pst = 1 → e.wkey = key →
      ∃ u c', exec (.wakePerform k) s = .next u ∧ u.cmds = [c'] ∧ c'.id = k ∧ c'.kind = .wake entry key rsv 1 ∧ c'.pos = 1 ∧
        PstWritten s u pas pst 2)) ∧
  (∀ (part entry ep : Nat) (key : Word64) (rsv : Bool) (c : Cmd) (pas : List Nat) (pst : Nat) (s : State), c.part = part →
    c.kind = .wake entry key rsv 1 → c.lim < c.pos → EntryOpen s c entry pas pst →
    (s.part part).positions.find? (fun x => !(s.isHole x)) = some ep → s.itemRoom part ep c.tenant = true →
    mwf ([] : List Item) (s.part part).parts = true → mwf ([] : List Item) (s.part part).ovItems = true →
    ∃ u c' it, exec (.wakeStageADone part entry) s = .next u ∧ u.cmds = [c'] ∧ c'.kind = .wake entry key rsv 2 ∧ c'.pos = 1 ∧
      PstWritten s u pas pst 3 ∧ it.v = (parseEntry (kept c.staged 0 320)).item entry ∧
      (let key := ep * 16 + c.tenant
       mget [] (u.part part).parts key ++ mget [] (u.part part).ovItems key =
        mget [] (s.part part).parts key ++ mget [] (s.part part).ovItems key ++ [it])) ∧
  (∀ (part entry : Nat) (key : Word64) (rsv : Bool) (c : Cmd) (pas : List Nat) (pst : Nat) (s : State), c.part = part →
    (s.part part).exists_ = true → c.kind = .wake entry key rsv 2 → c.lim < c.pos → EntryOpen s c entry pas pst →
    ∃ u, exec (.wakeStageBDone part entry) s = .next u ∧ u.cmds = [] ∧ PstWritten s u pas pst 0 ∧
      (u.part part).parked = (s.part part).parked.filter fun x => ¬(x.tenant = c.tenant ∧ x.entry = entry)) ∧
  (∀ (part entry : Nat) (s : State),
    ((∀ x ∈ (s.part part).parked, x.entry ≠ entry) → exec (.ageingVisit part entry) s = .next s) ∧
    (∀ x, s.cmds = [] → (s.part part).parked = [x] → x.entry = entry → ∃ c, exec (.ageingVisit part entry) s =
        .next { s with nextId := s.nextId + 1, cmds := [c] } ∧
      c.id = s.nextId ∧ c.kind = .age entry ∧ c.part = part ∧ c.tenant = x.tenant ∧ c.pos = 0))

/-- R317, R367, R405, R430: a promotion takes a frame of pond 0, or reports the shortage, which raises pool-low at most once in 100 µs; a
flash read goes on the next queue pair in turn, into the next entry of its ring, and waits while that is full. When the page's data are
there, by a copy or a flash read, they go to the frame in stretches that come in any order; then leaves and tag move together. A flash
read that fails, or ends after one second, gives its frame back and is reported. A Flush ends, and one that fails is reported to
Iluarning. Where the bits and the queue pairs lie at TMBASE is the model's reading (log 20). -/
def Sys2Proof.Says.PageMovesAndFlash : Prop :=
  (∀ (k : Nat) (m : PageMove) (s : State), findKey (fun (m : PageMove) => m.id) k s.moves = some m → s.moveHeld m = false →
    m.stage = 0 →
    let p := s.part m.part
    let starts := fun (flash : Bool) (q f : Nat) => modifyKey (fun (m : PageMove) => m.id) k
      (fun m => { m with toPa := f, stage := 1, flash := flash, issuedAt := s.clock, qp := q }) s.moves
    (∀ f r, p.p0free = f :: r →
      (m.from_ ≠ 2 → exec (.tierMoveDone k) s =
        .next { partSet s m.part (fun p => { p with p0free := r }) with moves := starts false 0 f }) ∧
      (m.from_ = 2 → pairFull s m.part → exec (.tierMoveDone k) s = .next s) ∧
      (m.from_ = 2 → ¬ pairFull s m.part → p.exists_ = true → ∃ u, exec (.tierMoveDone k) s = .next u ∧ KeepsBut s u [commandSlot p] ∧
        u.moves = starts true p.qpNext f ∧
        u.part m.part = { p with
          p0free := r, qpNext := (p.qpNext + 1) % p.qpairs, qpSq := mset 0 p.qpSq p.qpNext (mget 0 p.qpSq p.qpNext + 1) })) ∧
    (p.p0free = [] → exec (.tierMoveDone k) s = .next (partSet s m.part fun p => { p with poolLow := true }))) ∧
  (∀ (k at_ e : Nat) (m : PageMove) (c : Cmd) (s : State), findKey (fun (m : PageMove) => m.id) k s.moves = some m →
    Movable s m c at_ e →
    (m.stage = 2 ∨ (m.stage = 1 ∧ m.flash = false) →
      (m.left ≠ [] → ∃ u cut, exec (.tierMoveDone k) s = .next u ∧ StretchCopied s u m (takeLeft cut m.left).1 (takeLeft cut m.left).2) ∧
      (m.left = [] → ∃ u, exec (.tierMoveDone k) s = .next u ∧ MovedUp s u m at_ e)) ∧
    (m.stage = 1 → m.flash = true → exec (.tierMoveDone k) s = .next s ∧
      (NoFlushWaits s m.part → ∃ v, exec (.flashCommandCompletion k true) s = exec (.tierMoveDone k) v ∧
        KeepsBut s v [completionSlot (s.part m.part) m.qp] ∧ v.cmds = s.cmds ∧
        v.moves = modifyKey (fun (x : PageMove) => x.id) k (fun x => { x with stage := 2 }) s.moves))) ∧
  (∀ (k : Nat) (m : PageMove) (s : State), findKey (fun (m : PageMove) => m.id) k s.moves = some m → s.moveHeld m = false →
    m.stage = 1 → m.flash = true → m.to_ = 0 → NoFlushWaits s m.part →
    (∃ u, exec (.flashCommandCompletion k false) s = .next u ∧ ReadFailed s u m [completionSlot (s.part m.part) m.qp]) ∧
    (s.clock < m.issuedAt + 3300000000 → exec (.flashCommandTimeout k) s = .next s) ∧
    (m.issuedAt + 3300000000 ≤ s.clock → ∃ u, exec (.flashCommandTimeout k) s = .next u ∧ ReadFailed s u m [])) ∧
  (∀ (k : Nat) (f : Flush) (s : State), findKey (fun (m : PageMove) => m.id) k s.moves = none →
    findKey (fun (f : Flush) => f.id) k s.flushes = some f → NoFlushWaits s f.part →
    let rest := s.flushes.filter fun x => x.id ≠ k
    (∀ q ok, f.qp = some q → ∃ u, exec (.flashCommandCompletion k ok) s = .next u ∧ u.flushes = rest ∧
      u.flushErrs = (if ok then s.flushErrs else s.flushErrs ++ [(f.part, f.drive)]) ∧ KeepsBut s u [completionSlot (s.part f.part) q]) ∧
    (f.qp ≠ none → s.clock < f.issuedAt + 3300000000 → exec (.flashCommandTimeout k) s = .next s) ∧
    (f.qp ≠ none → f.issuedAt + 3300000000 ≤ s.clock → exec (.flashCommandTimeout k) s =
      .next { s with flushes := rest, flushErrs := s.flushErrs ++ [(f.part, f.drive)] })) ∧
  (∀ (part : Nat) (s : State), (s.part part).lockstep = false → let p := s.part part
    (p.poolLow = false ∨ (∃ t, p.lastPoolIrq = some t ∧ s.clock < t + 330000) → exec (.poolLowInterrupt part) s = .next s) ∧
    (p.poolLow = true → (∀ t, p.lastPoolIrq = some t → t + 330000 ≤ s.clock) → ∃ u, exec (.poolLowInterrupt part) s = .next u ∧
      Told s u part 6 0 ∧ (u.part part).poolLow = false ∧ (u.part part).lastPoolIrq = some s.clock))

/-- R115 to R118, R317 to R321, R367, R405, R430: wakes, ageing visits, page moves and the flash. -/
def Obligations.WakesAndPageMoves : Prop := WakesAndVisits ∧ PageMovesAndFlash

/-! ### The package (R367, R387, R401 to R403, R414 to R417, R424, R425) -/

namespace Sys2Proof.Says

/-- A record of an error of a sector, found by the patrol: CLK is the clock that the manager of its quadrant reads (R402). -/
def patrolRec (s : State) (pa : Nat) (syn : Word64) (uc : Bool) : ErrRec :=
  let clk := match s.partOfQuad (pa / 2 ^ 37) with | some k => s.partClock k | none => s.clock
  { loc := BitVec.ofNat 64 (pa / 32 * 32), clk := BitVec.ofNat 64 clk, syn := syn, src := 3, uc := uc, val := true }

/-- The rake of an address: of its stack, and of the pseudo-channel that it lies in; and whether it may read one more sector: of the 2^22 of
its pass, or of the next once the pass length, in seconds, is over (R401, log 120). -/
def rakeAt (pa : Nat) : Nat := pa / 2 ^ 36 * 512 + Config.rakeChannel (pa / 32) % 512
def RakeDue (s : State) (k : Nat) : Prop := mget 0 s.rakeCnt k < 2 ^ 22 ∨ mget 0 s.rakeAt k + s.rakeLen * 3300000000 ≤ s.clock

/-- The rake has read one sector more. -/
def rakeRead (s : State) (k : Nat) : State :=
  let n := mget 0 s.rakeCnt k
  { s with
    rakeCnt := mset 0 s.rakeCnt k (if n < 2 ^ 22 then n + 1 else 1)
    rakeAt := if 0 < n ∧ n < 2 ^ 22 then s.rakeAt else mset 0 s.rakeAt k s.clock }

/-- The mailbox when a command has begun, with its result kept until it finishes (R416). The partition map is bring-up's step 5 and the
manager's start its step 6: such a command that fails says so, and one that then succeeds takes it back (R414, log 72). -/
def mailWith (s : State) (cmd : Nat) (part : BitVec 8) (arg : List Byte) (code : Nat) (out : List Byte) : Mailbox :=
  { s.mailbox with
    busy := true, cmd := cmd, part := part.toNat, result := some code, cmdRes := out, state := 1, arg := arg.take 240
    stepFailed :=
      if (cmd = 1 ∨ cmd = 2) ∧ code ≠ 7 then
        (if code ≠ 0 then cmd + 4 else if s.mailbox.stepFailed = cmd + 4 then 0 else s.mailbox.stepFailed)
      else s.mailbox.stepFailed }

/-- A command that is refused changes the mailbox alone. -/
def Refuses (i : Instr) (s : State) (cmd : Nat) (part : BitVec 8) (arg : List Byte) (code : Nat) : Prop :=
  exec i s = .next { s with mailbox := mailWith s cmd part arg code [] }

/-- The commands of the mailbox and their numbers (R417). -/
def mailCommands : List ((BitVec 8 → List Byte → Instr) × Nat) :=
  [(.partitionMap, 1), (.startManager, 2), (.pair, 3), (.unpair, 4), (.pairReset, 5), (.rakePassLength, 6), (.telemetry, 7),
   (.loadFirmware, 8), (.identify, 9)]

/-- Whether a command names a partition, and whether it is one that the command can take. -/
def names (cmd : Nat) : Bool := 2 ≤ cmd && cmd ≤ 5
def Takes (s : State) (cmd : Nat) (part : BitVec 8) : Prop :=
  if names cmd then part.toNat < 4 ∧ (s.part part.toNat).exists_ = true else part.toNat = 255

/-- The mailbox takes commands, and bring-up has come as far as this one needs. -/
def Open (s : State) (cmd : Nat) : Prop := s.powered = true ∧ s.mailbox.busy = false ∧ (cmd ≤ 6 → 4 ≤ s.mailbox.stepDone)

def argOf (arg : List Byte) (i : Nat) : Nat := (arg.getD i 0).toNat
def argsOf (arg : List Byte) (i n : Nat) : Nat := leNat ((List.range n).map fun k => arg.getD (i + k) 0)

/-- The quadrants of a mask; the masks of a partition map that R387 and R282 allow; the partitions that it changes; and those that
hold neither a context nor a mapped queue. -/
def quadsOf (m : Nat) : List Nat := (List.range 4).filter fun q => m.testBit q
def GoodMap (s : State) (m : Nat → Nat) : Prop :=
  (∀ k, k < 4 → m k ∈ [0, 1, 2, 4, 8, 3, 12, 5, 10, 15]) ∧ (∀ j k, j < k → k < 4 → m j &&& m k = 0) ∧
    ∀ q, s.fusedOff = some q → ∀ k, k < 4 → q ∉ quadsOf (m k)
def Changes (s : State) (k m : Nat) : Prop := (if (s.part k).exists_ then (s.part k).quads else []) ≠ quadsOf m
def Idle (s : State) (k : Nat) : Prop :=
  (∀ t, t < 16 → s.holdsContext k t = false) ∧ (∀ j, j < 128 → ((s.part k).slot j).mapped = false) ∧ (s.part k).lockstep = false

end Sys2Proof.Says

/-- R401, R402, R403, R414, R416, R425, R367: a patrol of a rake reads a sector of its pass, marks one that it cannot correct, counts and
records it in the stack's bank (the stack and the quadrant of an address are the model's reading: log 94) and tells the manager; a corrected
error is counted and recorded; power good brings the package up, step by step, from the other firmware bank where the active one does not
verify; package reset keeps memory and its marks (log 25) and activates the firmware image that was accepted; a power-down request
flushes every namespace in use; a command of the mailbox finishes with DATA, STS, SEQ and vector 0. -/
def Obligations.PackageEvents : Prop :=
  (∀ (addr : Nat) (kind : ErrKind) (syn : Word64) (race : Bool) (s : State), 2 ^ 39 ≤ addr ∨ ¬ RakeDue s (rakeAt addr) →
    exec (.rakePatrol addr kind syn race) s = .next s) ∧
  (∀ (addr : Nat) (syn : Word64) (race : Bool) (s : State), addr < 2 ^ 39 → RakeDue s (rakeAt addr) →
    let k := 4 + addr / 2 ^ 36
    let b := mget ({} : ErrBank) s.errs k
    (s.poisoned addr = false → exec (.rakePatrol addr .none syn race) s = .next (rakeRead s (rakeAt addr))) ∧
    (b.held.val = false → b.lat = false →
      (∀ part kind, s.partOfQuad (addr / 2 ^ 37) = some part → kind = .uncorrectable ∨ s.poisoned addr = true →
        ∃ u, exec (.rakePatrol addr kind syn race) s = .next u ∧
          u.poisoned addr = true ∧ mget ({} : ErrBank) u.errs k = { b with ucnt := min (b.ucnt + 1) 0xFFFF, held := patrolRec s addr syn true } ∧
          Told s u part 8 k) ∧
      (s.poisoned addr = false → exec (.rakePatrol addr .corrected syn race) s = .next { rakeRead s (rakeAt addr) with
        errs := mset {} s.errs k { b with ccnt := min (b.ccnt + 1) 0xFFFF, held := patrolRec s addr syn false } }))) ∧
  (∀ (fail : Nat) (s : State),
    (s.powered = true → exec (.powerGood fail) s = .next s) ∧
    (s.powered = false → s.fwActive ≤ 1 →
      let act := if s.fwActive = 0 then s.fw0 else s.fw1
      let other := if s.fwActive = 0 then s.fw1 else s.fw0
      let up := fun (bank : Nat) => ∃ u, exec (.powerGood fail) s = .next u ∧ u.powered = true ∧ u.fwActive = bank ∧
        u.mailbox = { s.mailbox with stepDone := 4, stepFailed := 0 } ∧ u.fusedOff = Config.fuseOff ∧ u.rakeLen = 3600 ∧
        (∀ k, k < 14 → mget 0 u.coef k = Config.calibration k) ∧ u.mem = s.mem
      (fail = 0 → act.valid = true → up s.fwActive) ∧
      (fail ≤ 1 → (fail = 1 ∨ act.valid = false) → other.valid = true → up (1 - s.fwActive)) ∧
      (2 ≤ fail → fail ≤ 4 → act.valid = true → ∃ u, exec (.powerGood fail) s = .next u ∧ u.powered = true ∧
        u.mailbox = { s.mailbox with stepDone := fail - 1, stepFailed := fail } ∧ u.mem = s.mem) ∧
      (5 ≤ fail ∨ ((fail = 1 ∨ act.valid = false) ∧ other.valid = false) → ∃ u, exec (.powerGood fail) s = .next u ∧ u.powered = true ∧
        u.mailbox = { s.mailbox with stepDone := 0, stepFailed := 1 } ∧ u.mem = s.mem ∧ u.groups = s.groups ∧ u.holes = s.holes))) ∧
  (∀ (s : State), ∃ u, exec .packageReset s = .next u ∧ u.mem = s.mem ∧ u.uncorr = s.uncorr ∧ u.groups = [] ∧ u.blocks = [] ∧
    u.launches = [] ∧ u.cmds = [] ∧ u.parts = [] ∧ u.errs = [] ∧ u.mailbox = {} ∧ u.spdm = {} ∧ u.powered = false ∧ u.fwPending = none ∧
    u.fw0 = s.fw0 ∧ u.fw1 = s.fw1 ∧
    match s.fwPending with
    | none => u.fwActive = s.fwActive ∧ u.fwCounter = s.fwCounter
    | some b => u.fwActive = b ∧ u.fwCounter = max s.fwCounter (if b = 0 then s.fw0 else s.fw1).version) ∧
  (∀ (s : State), ∃ (u : State) (fs : List (Nat × Nat)), exec .powerDownRequest s = .next u ∧
    (u.flushes.map fun f => (f.part, f.drive)) = (s.flushes.map fun f => (f.part, f.drive)) ++ fs ∧ u.groups = s.groups ∧ u.lstore = s.lstore ∧
    ∀ k drive, (k, drive) ∈ fs ↔ k < 4 ∧ (s.part k).exists_ = true ∧
      ((drive = 0 ∧ (s.part k).p2n0 ≠ 0 ∧ (s.part k).p2ns0 ≠ 0) ∨ (drive = 1 ∧ (s.part k).p2n1 ≠ 0 ∧ (s.part k).p2ns1 ≠ 0))) ∧
  (∀ (s : State),
    (s.mailbox.result = none → exec .mailboxCommandDone s = .next s) ∧
    (∀ code, s.mailbox.result = some code → exec .mailboxCommandDone s = .next { s with
      mailbox := { s.mailbox with
        busy := false, result := none, cmdRes := [], state := if code = 0 then 2 else 3, err := code, seq := s.mailbox.seq + 1
        out := if code = 0 ∧ s.mailbox.cmdRes ≠ [] then s.mailbox.cmdRes else s.mailbox.out }
      irqs := s.irqs ++ [{ kind := 10, part := 0, a := 0, b := 0 }] }))

/-- R387, R414, R416, R417, R424, R425: a command is ignored without power or while another runs, and refused before bring-up step 4 or with
a partition it cannot take; the partition map, the manager's start, the pass length of the rakes, telemetry, a firmware image and the
identification each have their effect and their result, or their error. A command acts when it is written, and is refused with 0x01 for a
partition that it cannot take, 0x02 and 0x03 for a manager's header and its room (log 72). ARG takes a write of its own, and an unknown
command ends with error 0x01 (the function number of such a write is the model's: log 121). -/
def Obligations.MailboxCommands : Prop :=
  (∀ x ∈ mailCommands, ∀ (part : BitVec 8) (arg : List Byte) (s : State),
    (s.powered = false ∨ s.mailbox.busy = true → exec (x.1 part arg) s = .next s) ∧
    (s.powered = true → s.mailbox.busy = false →
      (x.2 ≤ 6 → s.mailbox.stepDone < 4 → Refuses (x.1 part arg) s x.2 part arg 7) ∧
      (Open s x.2 → ¬ Takes s x.2 part → Refuses (x.1 part arg) s x.2 part arg 1))) ∧
  (∀ (part : BitVec 8) (arg : List Byte) (s : State), Open s 1 → Takes s 1 part → mwf ({} : Partition) s.parts = true →
    (¬ GoodMap s (argOf arg) → Refuses (.partitionMap part arg) s 1 part arg 2) ∧
    (GoodMap s (argOf arg) → (∃ k, k < 4 ∧ Changes s k (argOf arg k) ∧ ¬ Idle s k) → Refuses (.partitionMap part arg) s 1 part arg 3) ∧
    (GoodMap s (argOf arg) → (∀ k, k < 4 → Changes s k (argOf arg k) → Idle s k) →
      ∃ u, exec (.partitionMap part arg) s = .next u ∧ u.mailbox = { mailWith s 1 part arg 0 [] with stepDone := max s.mailbox.stepDone 5 } ∧
        ∀ k, k < 4 →
          (Changes s k (argOf arg k) → (u.part k).exists_ = decide (argOf arg k ≠ 0) ∧ (u.part k).quads = quadsOf (argOf arg k)) ∧
          (¬ Changes s k (argOf arg k) → (u.part k).exists_ = (s.part k).exists_ ∧ (u.part k).quads = (s.part k).quads))) ∧
  (∀ (part : BitVec 8) (arg : List Byte) (s : State), Open s 2 → Takes s 2 part →
    let at_ := argsOf arg 0 8
    let h := parseHeader ((List.range 640).map fun i => s.devByte (at_ + i))
    (paExists at_ = false ∨ at_ % 64 ≠ 0 ∨ h.managerOk = false → Refuses (.startManager part arg) s 2 part arg 2) ∧
    (paExists at_ = true → at_ % 64 = 0 → h.managerOk = true →
      (s.startManager part.toNat at_ h = none → Refuses (.startManager part arg) s 2 part arg 3) ∧
      (∀ v, s.startManager part.toNat at_ h = some v → ∃ u, exec (.startManager part arg) s = .next u ∧ u.groups = v.groups ∧
        u.mailbox = { mailWith s 2 part arg 0 [] with stepDone := max s.mailbox.stepDone 6 } ∧
        (u.part part.toNat).mgrImage = ((List.range 640).map fun i => s.devByte (at_ + i)) ++
          ((List.range (12 * 2 ^ 20)).map fun i => s.devByte (h.code + i)) ∧
        ∀ q ∈ (s.part part.toNat).quads, ∀ e, s.sysEp q = some e → ∃ g ∈ u.groups, g.sys = true ∧ g.ep = e ∧ g.slot = 31 ∧
          g.part = part.toNat ∧ g.p0 = some { pc := BitVec.ofNat 64 (h.need 0).entry, mask := 0xFFFFFFFF#32 } ∧ g.p1 = none))) ∧
  (∀ (part : BitVec 8) (arg : List Byte) (s : State), Open s 6 → Takes s 6 part →
    let n := argsOf arg 0 4
    (600 ≤ n → n ≤ 86400 → exec (.rakePassLength part arg) s = .next { s with rakeLen := n, mailbox := mailWith s 6 part arg 0 [] }) ∧
    (n < 600 ∨ 86400 < n → Refuses (.rakePassLength part arg) s 6 part arg 2)) ∧
  (∀ (part : BitVec 8) (arg : List Byte) (s : State), Open s 7 → Takes s 7 part →
    ∃ out, exec (.telemetry part arg) s = .next { s with mailbox := mailWith s 7 part arg 0 out } ∧ out.length = 0x2140 ∧
      leNat ((out.drop 0x14).take 8) = s.clock % 2 ^ 64 ∧ (∀ i, 0x1C ≤ i → i < 0x20 → out.getD i 1 = 0) ∧
      (∀ i, 0x130 ≤ i → i < 0x140 → out.getD i 1 = 0) ∧
      ∀ k, k < 4096 → leNat ((out.drop (0x140 + 2 * k)).take 2) = min (mget 0 s.rakeCnt k * 65536 / 2 ^ 22) 65535) ∧
  (∀ (part : BitVec 8) (arg : List Byte) (s : State), Open s 8 → Takes s 8 part →
    let at_ := argsOf arg 0 8
    let n := argsOf arg 8 4
    let image := (List.range n).map fun i => s.devByte (2 ^ 55 + at_ + i)
    (2 ^ 54 < at_ + n → Refuses (.loadFirmware part arg) s 8 part arg 2) ∧
    (at_ + n ≤ 2 ^ 54 →
      (Config.imageSignatureVerifies image = false → Refuses (.loadFirmware part arg) s 8 part arg 4) ∧
      (Config.imageSignatureVerifies image = true →
        (Config.imageVersion image < s.fwCounter → Refuses (.loadFirmware part arg) s 8 part arg 5) ∧
        (s.fwCounter ≤ Config.imageVersion image →
          let b : FwBank := { image := image, version := Config.imageVersion image, valid := true }
          exec (.loadFirmware part arg) s = .next { s with
            fw0 := if s.fwActive = 0 then s.fw0 else b, fw1 := if s.fwActive = 0 then b else s.fw1
            fwPending := some (if s.fwActive = 0 then 1 else 0), mailbox := mailWith s 8 part arg 0 [] })))) ∧
  (∀ (off : Nat) (data : List Byte) (s : State),
    let m := s.mailbox
    (s.powered = false → exec (.registerWriteOther 64 off data) s = .next s) ∧
    (s.powered = true → off = 0 → data.length = 4 →
      (m.busy = true ∨ (1 ≤ argOf data 0 ∧ argOf data 0 ≤ 9) → exec (.registerWriteOther 64 off data) s = .next s) ∧
      (m.busy = false → argOf data 0 = 0 ∨ 9 < argOf data 0 → Refuses (.registerWriteOther 64 off data) s (argOf data 0) (data.getD 1 0) m.arg 1)) ∧
    (s.powered = true → 0x10 ≤ off → off + data.length ≤ 0x100 → data ≠ [] → ∃ arg, exec (.registerWriteOther 64 off data) s =
        .next { s with mailbox := { m with arg := arg } } ∧ arg.length = 240 ∧
      ∀ i, i < 240 → arg.getD i 0 =
        if off ≤ 0x10 + i ∧ 0x10 + i < off + data.length then data.getD (0x10 + i - off) 0 else m.arg.getD i 0)) ∧
  (∀ (part : BitVec 8) (arg : List Byte) (s : State), Open s 9 → Takes s 9 part →
    ∃ out, exec (.identify part arg) s = .next { s with mailbox := mailWith s 9 part arg 0 out } ∧
      leNat ((out.drop 16).take 4) = (if s.fwActive = 0 then s.fw0 else s.fw1).version % 2 ^ 32 ∧
      leNat ((out.drop 20).take 4) = s.fwCounter % 2 ^ 32 ∧ (out.getD 24 0).toNat = s.fwActive % 256 ∧
      (out.getD 25 0).toNat = (s.fusedOff.getD 255) % 256 ∧ (out.getD 26 0).toNat = s.holes.length % 256 ∧
      ∀ i e, i < 16 → s.holes[i]? = some e → (out.getD (27 + 2 * i) 0).toNat = e % 64 ∧ (out.getD (28 + 2 * i) 0).toNat = e / 64 % 256)

/-! ### Lockstep pairs and attestation (R407, R418 to R421, R426) -/

namespace Sys2Proof.Says

/-- Every group of a partition that waits at a point has met a machine check, its points are gone, and the partition stands. -/
def PairStops (s u : State) (part : Nat) : Prop :=
  (u.part part).pairStopped = true ∧ (∀ y ∈ u.sigs, ¬(y.part = part ∧ y.gid ≠ 0)) ∧
    ∀ y ∈ s.sigs, y.part = part → y.gid ≠ 0 → ∀ g, s.group? y.gid = some g → ∃ h, u.group? y.gid = some h ∧ h.wait = .stopped

/-- An exchange joins the transcript (R426). -/
def spdmWith (s : State) (req out : List Byte) : Spdm := { s.spdm with transcript := s.spdm.transcript ++ req ++ out, out := out }

end Sys2Proof.Says

/-- R407, R418 to R422: pairing, at the count of a peer whose records agree (the model's list of such counts, and the open answer where it
is empty: log 26), and its refusals; unpairing leaves the primary to go on alone and the secondary stopped, and `PAIR_RESET` of a partition
whose record is refused ends with error 0x03 (log 74); a forwarded input waits for its cycle, a watchdog's expiry, a low pool, and the
consumption of an uncorrectable error by a block that must not run again, which stops its group; every message of the peer is a beat of the
link; equal signatures let a point pass, whose write or interrupt the primary alone makes, and unequal ones, or a link without a beat for
33,000 cycles, stop the pair. -/
def Sys2Proof.Says.PairingEvents : Prop :=
  (∀ (part : BitVec 8) (arg : List Byte) (s : State), Open s 3 → Takes s 3 part →
    let k := part.toNat
    let p := s.part k
    let q := fun (off : Int) =>
      { p with lockstep := true, role := argOf arg 16, pairStopped := false, clockOffset := off, beatAt := s.clock }
    (1 < argOf arg 16 ∨ 3 < argOf arg 17 → Refuses (.pair part arg) s 3 part arg 2) ∧
    (argOf arg 16 ≤ 1 → argOf arg 17 ≤ 3 →
      (p.lockstep = true → Refuses (.pair part arg) s 3 part arg 3) ∧
      (p.lockstep = false →
        ((∃ t, t < 16 ∧ s.holdsContext k t = true) → Refuses (.pair part arg) s 3 part arg 6) ∧
        ((∀ t, t < 16 → s.holdsContext k t = false) →
          (∀ n r, s.peerCounts = n :: r → ∃ u, exec (.pair part arg) s = .next u ∧ u.mailbox = mailWith s 3 part arg 0 [] ∧
            u.peerDigest = arg.take 16 ∧ u.peerCounts = r ∧ u.part k = q ((n : Int) - s.clock) ∧ u.mem = s.mem ∧ u.groups = s.groups) ∧
          (s.peerCounts = [] → Refuses (.pair part arg) s 3 part arg 6 ∨
            ∃ u off, exec (.pair part arg) s = .next u ∧ u.mailbox = mailWith s 3 part arg 0 [] ∧ u.peerDigest = arg.take 16 ∧
              u.part k = q off ∧ u.mem = s.mem ∧ u.groups = s.groups))))) ∧
  (∀ (part : BitVec 8) (arg : List Byte) (s : State), Open s 4 → Takes s 4 part →
    let k := part.toNat
    let p := s.part k
    (p.lockstep = false ∨ p.pairStopped = false → Refuses (.unpair part arg) s 4 part arg 3) ∧
    (p.lockstep = true → p.pairStopped = true → (∀ x ∈ s.sigs, x.part ≠ k) →
      ∃ u, exec (.unpair part arg) s = .next u ∧ u.mailbox = mailWith s 4 part arg 0 [] ∧ u.mem = s.mem ∧ u.groups = s.groups ∧
        u.part k = { p with lockstep := false, pairStopped := false, stopped := if p.role = 0 then p.stopped else true })) ∧
  (∀ (part : BitVec 8) (arg : List Byte) (s : State), Open s 5 → Takes s 5 part →
    let k := part.toNat
    let p := s.part k
    let t := { s with sigs := s.sigs.filter (fun x => x.part ≠ k), pairIn := s.pairIn.filter (fun x => x.part ≠ k) }
    (p.lockstep = false ∨ p.pairStopped = false → Refuses (.pairReset part arg) s 5 part arg 3) ∧
    (p.lockstep = true → p.pairStopped = true →
      (t.resetPart k = none → Refuses (.pairReset part arg) s 5 part arg 3) ∧
      (∀ v, t.resetPart k = some v → ∃ u, exec (.pairReset part arg) s = .next u ∧ u.mem = v.mem ∧ u.groups = v.groups ∧
        ((v.part k).exists_ = true → u.part k = { v.part k with pairStopped := false })))) ∧
  (∀ (k : Nat) (x : PairInput) (s : State), s.pairIn.find? (fun x => x.id = k) = some x →
    (s.clock < x.due → exec (.pairInputApply k) s = .next s) ∧
    (x.due ≤ s.clock →
      (∀ j, x.ev = .event (.watchdogExpiry x.part j) → ∃ u, exec (.pairInputApply k) s = .next u ∧ Told s u x.part 3 j ∧
        (u.part x.part).slot j = { (s.part x.part).slot j with susp := true, expired := true } ∧
        u.pairIn = s.pairIn.filter (fun y => y.id ≠ k) ∧ u.groups = s.groups) ∧
      (x.ev = .event (.poolLowInterrupt x.part) → ∃ u, exec (.pairInputApply k) s = .next u ∧ Told s u x.part 6 0 ∧
        u.pairIn = s.pairIn.filter fun y => y.id ≠ k) ∧
      (∀ gid st off uc src g, x.ev = .flaw (.chip gid st off uc src) → s.group? gid = some g → g.part = x.part → g.sys = false →
        s.restartable g.block = false → (s.block? g.block).isSome = true →
        ∃ u h, exec (.pairInputApply k) s = .next u ∧ u.group? gid = some h ∧ h.wait = .stopped ∧
          u.pairIn = s.pairIn.filter fun y => y.id ≠ k))) ∧
  (∀ (k : Nat) (s : State), s.pairIn.find? (fun x => x.id = k) = none → (∀ j, (s.part j).lockstep = false) →
    exec (.pairInputApply k) s = .next s) ∧
  (∀ (k : Nat) (peer : Word32) (s : State), mwf ({} : Partition) s.parts = true →
    (s.sigs.find? (fun x => x.id = k) = none → exec (.signatureExchange k peer) s = .next s) ∧
    (∀ x, s.sigs.find? (fun x => x.id = k) = some x →
      let p := s.part x.part
      let t := partSet s x.part fun q => { q with beatAt := s.clock }
      (p.pairStopped = true → exec (.signatureExchange k peer) s = .next t) ∧
      (p.pairStopped = false →
        (∀ n a b, x.sig = peer → x.act = .irq n a b → exec (.signatureExchange k peer) s = .next { t with
          sigs := s.sigs.filter (fun y => y.id ≠ k)
          irqs := s.irqs ++ if p.lockstep = false ∨ p.role = 0 then [{ kind := n, part := x.part, a := a, b := b }] else [] }) ∧
        (∀ pa bs, x.sig = peer → x.act = .write pa bs →
          (p.lockstep = true → p.role ≠ 0 → exec (.signatureExchange k peer) s =
            .next { t with sigs := s.sigs.filter (fun y => y.id ≠ k) }) ∧
          (p.lockstep = false ∨ p.role = 0 → s.memOk → ∃ u, exec (.signatureExchange k peer) s = .next u ∧
            u.sigs = s.sigs.filter (fun y => y.id ≠ k) ∧ (∀ i, i < bs.length → u.byte (pa + i) = bs.getD i 0) ∧
            ∀ a, ¬(pa ≤ a ∧ a < pa + bs.length) → u.byte a = s.byte a)) ∧
        (x.sig ≠ peer → ∃ u, exec (.signatureExchange k peer) s = .next u ∧ PairStops s u x.part ∧ (∀ y ∈ u.sigs, y.id ≠ k) ∧
          u.cmds = s.cmds)))) ∧
  (∀ (part : Nat) (s : State),
    ((s.part part).lockstep = false ∨ (s.part part).pairStopped = true ∨ s.clock < (s.part part).beatAt + 33000 →
      exec (.pairLinkLost part) s = .next s) ∧
    ((s.part part).lockstep = true → (s.part part).pairStopped = false → (s.part part).beatAt + 33000 ≤ s.clock →
      ∃ u, exec (.pairLinkLost part) s = .next u ∧ PairStops s u part))

/-- R426: the seven requests in their order, each answered from the identity key, its certificate chain and the five measurements, whose
first is of the active firmware image and whose fourth of the managers' images as they were started; a request before the negotiation it
needs, or for a slot that holds no chain, is answered by nothing (the model's choice, as are the byte that names version 1.3 and how a
request names its slot: log 27). -/
def Sys2Proof.Says.AttestationRequests : Prop :=
  ∀ (req : List Byte) (s : State),
    (s.powered = true → exec (.getVersion req) s =
      .next { s with spdm := { version := true, caps := false, algs := false, transcript := req ++ [0x13], out := [0x13] } }) ∧
    (s.powered = true → s.spdm.version = true → exec (.getCapabilities req) s = .next { s with spdm := { spdmWith s req [] with caps := true } }) ∧
    (s.powered = true → s.spdm.caps = true → exec (.negotiateAlgorithms req) s = .next { s with spdm := { spdmWith s req [] with algs := true } }) ∧
    (s.powered = true → s.spdm.algs = true →
      exec (.getDigests req) s = .next { s with spdm := spdmWith s req (Config.sha384 Config.certificateChain) } ∧
      (Config.slotNamed req = 0 →
        exec (.getCertificate req) s = .next { s with spdm := spdmWith s req Config.certificateChain } ∧
        exec (.challenge req) s = .next { s with spdm := spdmWith s req (Config.sign (s.spdm.transcript ++ req)) }) ∧
      (Config.slotNamed req ≠ 0 → ∀ i ∈ [Instr.getCertificate req, .challenge req],
        exec i s = .next { s with spdm := { s.spdm with out := [] } }) ∧
      ∃ ms, ms = (List.range 5).flatMap (fun i => Config.sha384 (s.measured (i + 1))) ∧
        s.measured 1 = (if s.fwActive = 0 then s.fw0 else s.fw1).image ∧
        s.measured 4 = (List.range 4).flatMap (fun k => if (s.part k).exists_ then (s.part k).mgrImage else []) ∧
        exec (.getMeasurements req) s = .next { s with spdm := spdmWith s req (ms ++ Config.sign (s.spdm.transcript ++ req ++ ms)) }) ∧
    (∀ i ∈ [Instr.getCapabilities req, .negotiateAlgorithms req, .getDigests req, .getCertificate req, .challenge req, .getMeasurements req],
      s.powered = false ∨ (s.spdm.version = false ∧ s.spdm.caps = false ∧ s.spdm.algs = false) →
      exec i s = .next { s with spdm := { s.spdm with out := [] } })

/-- R407, R418 to R421, R426: lockstep pairs, and attestation. -/
def Obligations.PairingAndAttestation : Prop := PairingEvents ∧ AttestationRequests

/-! ### The machine as a whole -/

/-- R387, R402, R414, R416: after reset nothing runs and no partition is mapped; the mailbox is idle, no bring-up step has been made, and no
error is recorded; memory and the local stores list nothing, in their canonical form (what an unlisted byte reads as is the model's
choice: log 3). -/
def Obligations.ResetState : Prop :=
  let s := State.reset
  s.groups = [] ∧ s.blocks = [] ∧ s.launches = [] ∧ s.cmds = [] ∧ s.sb = [] ∧ s.powered = false ∧ s.capped = false ∧ s.irqs = [] ∧
    s.mailbox.busy = false ∧ s.mailbox.state = 0 ∧ s.mailbox.stepDone = 0 ∧ s.mailbox.stepFailed = 0 ∧ s.mailbox.seq = 0 ∧
    (∀ k, (s.part k).exists_ = false) ∧ (∀ k, mget ({} : ErrBank) s.errs k = {}) ∧ (∀ a, s.poisoned a = false) ∧
    s.memOk ∧ s.storeOk ∧ ∀ a, s.byte a = memDefault

/-- Every step keeps the canonical form of memory, from every state, so that equal memories are equal data. -/
def Obligations.StepsKeepMemory : Prop := ∀ (s t : State), s.memOk → step s = .next t → t.memOk

/-- R4, R41 to R62: every well-formed instruction word is read back from its encoding, with every operand at every value. -/
def Obligations.DecodeInvertsEncode : Prop := ∀ (i : Instr), isWord i = true → Instr.wf i = true → decode (encode i) = .ok i

namespace Sys2Proof.Says

/-- The common fields where none is written: no guard, no stall, no hint, no flag. -/
def plain : Ctl := { gn := false, gp := 7, stall := 0, yld := false, pair := false, fsel := false, fset := false, reua := false, reub := false }

end Sys2Proof.Says

/-- Words that the spec writes out (R44, R143, R153, R163, R173, R196, R220, R371) decode to the statements it gives for them. -/
def Obligations.WrittenWordsDecode : Prop :=
  decode 0x0110_A040_4091_0000_0000_0000 =
    .ok (.iadd { plain with gn := true, gp := 2 } .s32 false (.lane 4) (.lane 4) (.uni 9)) ∧
  decode 0x25B8_7030_2015_0000_0004_0000 = .ok (.lea plain .n64 (.uni 3) (.uni 2) (.uni 1) 4) ∧
  decode 0x4240_70A0_2030_0000_0004_0000 = .ok (.ffma plain .rne (.lane 10) (.lane 2) (.lane 3) (.lane 4)) ∧
  decode 0x6033_7090_8002_0500_0010_0000 = .ok (.shfl plain .n32 .xor 9 8 (.imm 16) 5) ∧
  decode 0x3000_1000_0050_0000_0003_0000 = .ok (.bra { plain with gp := 1 } 3 5) ∧
  decode 0x8665_7001_000A_0000_0001_0100 =
    .ok (.atom { plain with fset := true } .n32 .dev .rel (.lane 0) 16 none .add false (.imm 1)) ∧
  decode 0xB000_7000_A006_0000_007D_0000 = .ok (.scroll plain 10 (-3) 0) ∧
  decode 0xE100_7003_E004_0000_0000_0000 = .ok (.rtt plain 62)

/-- A step runs what it fetches. An issue of a position takes the group and path that the arbitration picks, reads the 12 bytes at 12
times the word index from the code segment's base, and executes the instruction they decode to, in the picked state (the pages it uses
cached); the sectors that the word and its operand are fetched from are charged, what follows an issued word (its energy, stall, hints) is
`afterIssue`, and a header has nothing of it; where the instruction is
held, the choice is made again without its path. An event of the table is executed for itself, and the clock advances by itself, which
ends the cycle. A failure of stored bits, when it comes, changes what it strikes and nothing is executed (log 115). With an empty agenda the move is an open value (log 1). -/
def Obligations.StepRunsDecodedWord : Prop :=
  (∀ (s t : State) (e : Nat) (r : List Move) (g : Group) (p : Path) (sec : Bool) (w : Word96) (i : Instr),
    s.agenda = .issue e :: r → State.pick { s with agenda := r, tick := s.tick + 1 } e [] = (t, some (g, sec)) → g.path? sec = some p →
    p.pc.toNat < 1048576 → t.uncorr = [] → t.codeWord g (t.codeBase g) p.pc = .ok w → decode w = .ok i →
    (p.clause = none → ∃ h, i = .clause h) →
    step s =
      match exec i { t.noteWord g p i with cur := some { gid := g.id, second := sec } } with
      | .next u =>
        if u.isHeld g.id sec p = true then
          issueOn exec e (2 * s.groups.length) [(g.id, sec)] (u.modEp e fun _ => { mget {} s.eps e with pair := none })
        else
          let v := u.chargeFetch g (t.fetchPas g p ++ t.operandPas g p i)
          .next (match i with | .clause _ => v | _ => afterIssue g p sec (mget {} s.eps e).pair.isSome i v)
      | .fault f => .fault f
      | .refused x => .refused x) ∧
  (∀ (s t : State) (e : Nat) (r : List Move), s.agenda = .issue e :: r → State.pick { s with agenda := r, tick := s.tick + 1 } e [] = (t, none) →
    step s = .next t) ∧
  (∀ (s : State) (i : Instr) (r : List Move), s.agenda = .event i :: r → isWord i = false →
    step s = exec i { s with agenda := r, tick := s.tick + 1, cur := none }) ∧
  (∀ (s : State) (n : Nat) (r : List Move), s.agenda = .elapse n :: r →
    let t := { s with agenda := r, tick := s.tick + 1 }
    step s = .next (if n = 0 then t else { t.endCycle with clock := s.clock + n })) ∧
  (∀ (s : State) (f : Flaw) (r : List Move), s.agenda = .flaw f :: r →
    step s = .next ({ s with agenda := r, tick := s.tick + 1 }.flaw f)) ∧
  (∀ (s : State), s.agenda = [] → step s = step { s with agenda := [Config.nextMove s.tick] })

/-- R15, R47, R126: what a write leaves to be read. A lane register takes the low half in the guarded lanes, and the next one the high
half of a 64-bit value; a uniform register takes one value, extended by its type; the writes of `s63` and of `p7` are discarded, which
read as zero and all-true; no write touches a register of another kind. -/
def Obligations.RegisterReadsAfterWrites : Prop :=
  ∀ (g : Group), g.regsOk →
    (∀ (t : Ty) (r : BitVec 8) (m : Lanes) (f : Nat → Word64), let h := g.writeDst t (.lane r) m f
      (∀ k l, l < 32 → h.lane k l =
        if m.getLsbD l = true ∧ k = r.toNat then (f l).extractLsb' 0 32
        else if m.getLsbD l = true ∧ wideTy t = true ∧ k = r.toNat + 1 then (f l).extractLsb' 32 32
        else g.lane k l) ∧
      h = { g with v := h.v }) ∧
    (∀ (t : Ty) (r : BitVec 6) (m : Lanes) (f : Nat → Word64), let h := g.writeDst t (.uni r) m f
      (∀ k, h.uni k =
        if k = r.toNat ∧ k ≠ 63 ∧ m ≠ 0 then
          (if wideTy t then f 0 else if signedTy t then ((f 0).extractLsb' 0 32).signExtend 64 else ((f 0).extractLsb' 0 32).setWidth 64)
        else g.uni k) ∧
      h.uni 63 = 0 ∧ h = { g with s := h.s }) ∧
    (∀ (n : BitVec 3) (m : Lanes) (f : Nat → Bool), let h := g.writePred (.lane n) m f
      (∀ k l, l < 32 → (h.pred k).getLsbD l = if k = n.toNat ∧ k ≠ 7 ∧ m.getLsbD l = true then f l else (g.pred k).getLsbD l) ∧
      h.pred 7 = 0xFFFFFFFF#32 ∧ h = { g with p := h.p }) ∧
    (∀ (n : BitVec 2) (m : Lanes) (f : Nat → Bool), let h := g.writePred (.uni n) m f
      (∀ k, k < 4 → h.upred k = if k = n.toNat ∧ m ≠ 0 then f 0 else g.upred k) ∧ h = { g with q := h.q })

/-- R92: `EX2`, `LG2` and `TANH` are within two ulps of the exact result, `LG2` within 2^−22 where x lies from 0.5 to 2; `SIN` and `COS`
are within 2^−21 up to 2^15 × π and within 2^−14 beyond; `EX2` of an integer whose result is representable is exact, and one from 128 on
overflows to +∞. -/
def Obligations.TranscendentalBounds : Prop :=
  ∀ (w : Word32) (neg : Bool) (m : Nat) (e : Int), fmtF32.decode w.toNat = .num neg m e →
    let x : ℝ := (ratOf neg m e : ℚ)
    (x < 128 → WithinUlps (specialFn .ex2 w) ((2 : ℝ) ^ x) 2) ∧
    (128 ≤ x → specialFn .ex2 w = 0x7F800000#32) ∧
    (∀ k : ℤ, x = k → -149 ≤ k → k ≤ 127 → IsNear (specialFn .ex2 w) ((2 : ℝ) ^ k) 0) ∧
    (0 < x → (x < 1 / 2 ∨ 2 < x) → WithinUlps (specialFn .lg2 w) (Real.logb 2 x) 2) ∧
    (1 / 2 ≤ x → x ≤ 2 → IsNear (specialFn .lg2 w) (Real.logb 2 x) (1 / 2 ^ 22)) ∧
    (|x| ≤ 2 ^ 15 * Real.pi → IsNear (specialFn .sin w) (Real.sin x) (1 / 2 ^ 21) ∧ IsNear (specialFn .cos w) (Real.cos x) (1 / 2 ^ 21)) ∧
    (2 ^ 15 * Real.pi < |x| → IsNear (specialFn .sin w) (Real.sin x) (1 / 2 ^ 14) ∧ IsNear (specialFn .cos w) (Real.cos x) (1 / 2 ^ 14)) ∧
    WithinUlps (specialFn .tanh w) (Real.tanh x) 2
end

