-- ==== Sys2Proof/Laws/Issue.lean ====
section
/-! SUPPORT. What the shared forms of issuing do where an instruction issues: each answers what its continuation answers. -/

namespace Sys2Proof.Machine

/-- Where a group and path are current, a meaning runs on them. -/
theorem withCur_of {s : State} {g : Group} {p : Path} {sec : Bool} {k : Group → Path → Bool → Out}
    (hc : s.cur = some { gid := g.id, second := sec }) (hg : s.group? g.id = some g) (hp : g.path? sec = some p) :
    withCur s k = k g p sec := by
  simp only [withCur, hc, hg, hp]

/-- An instruction that issues runs its meaning. -/
theorem issue_of {s : State} {i : Instr} {c : Ctl} {g : Group} {p : Path} {sec : Bool} (h : Issues s i c g p sec)
    (k : Group → Path → Bool → Out) : issue i c s k = k g p sec := by
  rw [issue, withCur_of h.cur h.grp h.pth]
  simp only [h.legal, h.room, Bool.false_eq_true, if_false]

/-- An instruction with a cause of R62 traps with the lowest code. -/
theorem issue_illegal {s : State} {i : Instr} {c : Ctl} {g : Group} {p : Path} {sec : Bool} {x : Nat} {r : List Nat}
    (hc : s.cur = some { gid := g.id, second := sec }) (hg : s.group? g.id = some g) (hp : g.path? sec = some p)
    (hx : causes (ctxOf g p) i = x :: r) (k : Group → Path → Bool → Out) :
    issue i c s k = .next (s.trapAt g p sec ((lowest (x :: r)).getD 0) p.mask 0 0) := by
  rw [issue, withCur_of hc hg hp]
  simp only [hx]

/-- An instruction whose flag has no room does not issue (R24). -/
theorem issue_full {s : State} {i : Instr} {c : Ctl} {g : Group} {p : Path} {sec : Bool}
    (hc : s.cur = some { gid := g.id, second := sec }) (hg : s.group? g.id = some g) (hp : g.path? sec = some p)
    (hl : causes (ctxOf g p) i = []) (hf : g.flagFull (flagOf p c) = true) (k : Group → Path → Bool → Out) :
    issue i c s k = .next s := by
  rw [issue, withCur_of hc hg hp]
  simp only [hl, hf, if_true]

/-- A constant operand that is there lets the instruction go on. -/
theorem fetchConst_of {i : Instr} {s : State} {g : Group} {p : Path} {sec : Bool} {m : Lanes} {n : Nat} {b : Src}
    (h : ConstReady s g m n b) (k : Out) : fetchConst i s g p sec m n b k = k := by
  cases b with
  | cbank bank off =>
    simp only [fetchConst]
    rcases h with h | h
    · simp [h]
    · rw [h]; simp
  | _ => rfl

/-- A fixed-latency instruction without a constant operand. -/
theorem fixed_none {s : State} {i : Instr} {c : Ctl} {g : Group} {p : Path} {sec : Bool} {n : Nat}
    (h : Issues s i c g p sec) (res : Group → Lanes → Group) :
    fixed i c n none s res = .next (advance s (res g (guardOf g p c)) p sec) := by
  rw [fixed, issue_of h]

/-- A fixed-latency instruction with one. -/
theorem fixed_some {s : State} {i : Instr} {c : Ctl} {g : Group} {p : Path} {sec : Bool} {n : Nat} {b : Src}
    (h : Issues s i c g p sec) (hb : ConstReady s g (guardOf g p c) n b) (res : Group → Lanes → Group) :
    fixed i c n (some b) s res = .next (advance s (res g (guardOf g p c)) p sec) := by
  rw [fixed, issue_of h]
  exact fetchConst_of hb _

end Sys2Proof.Machine
end

