-- ==== Sys2Proof/Laws/Sparse.lean ====
section
/-! SUPPORT. The laws of sparse maps and of keyed lists: reads after writes, and the canonical form that every write keeps. -/

namespace Sys2Proof.Machine

variable {β : Type} [DecidableEq β] {d : β}

/-- A map whose keys start at `lo` reads as the default below it. -/
theorem mget_below {m : Map β} : ∀ {lo k : Nat}, mwfFrom d lo m = true → k < lo → mget d m k = d := by
  induction m with
  | nil => intros; rfl
  | cons x r ih =>
    intro lo k h hk
    obtain ⟨k', v⟩ := x
    simp only [mwfFrom, Bool.and_eq_true, decide_eq_true_eq] at h
    have : ¬ k' = k := by omega
    simp only [mget, this, if_false]
    exact ih h.2 (by omega)

/-- A lower bound on the keys may be lowered. -/
theorem mwfFrom_mono {m : Map β} {lo lo' : Nat} (h : mwfFrom d lo m = true) (hl : lo' ≤ lo) : mwfFrom d lo' m = true := by
  cases m with
  | nil => rfl
  | cons x r =>
    simp only [mwfFrom, Bool.and_eq_true, decide_eq_true_eq] at h ⊢
    exact ⟨⟨by omega, h.1.2⟩, h.2⟩

/-- Writing keeps the canonical form. -/
theorem mwfFrom_mset {m : Map β} : ∀ {lo k : Nat} {v : β}, mwfFrom d lo m = true → lo ≤ k →
    mwfFrom d lo (mset d m k v) = true := by
  induction m with
  | nil =>
    intro lo k v _ hk
    by_cases hv : v = d <;> simp [mset, mwfFrom, hv, hk]
  | cons x r ih =>
    intro lo k v h hk
    obtain ⟨k', v'⟩ := x
    simp only [mwfFrom, Bool.and_eq_true, decide_eq_true_eq] at h
    obtain ⟨⟨h1, h2⟩, h3⟩ := h
    unfold mset
    split
    · split
      · simp [mwfFrom, h1, h2, h3]
      · rename_i hlt hv
        simp only [mwfFrom, Bool.and_eq_true, decide_eq_true_eq]
        exact ⟨⟨hk, hv⟩, ⟨by omega, h2⟩, h3⟩
    · split
      · split
        · exact mwfFrom_mono h3 (by omega)
        · rename_i hlt he hv
          simp only [mwfFrom, Bool.and_eq_true, decide_eq_true_eq]
          exact ⟨⟨hk, hv⟩, he ▸ h3⟩
      · rename_i hlt hne
        simp only [mwfFrom, Bool.and_eq_true, decide_eq_true_eq]
        exact ⟨⟨h1, h2⟩, ih h3 (by omega)⟩

theorem mwf_mset {m : Map β} {k : Nat} {v : β} (h : mwf d m = true) : mwf d (mset d m k v) = true :=
  mwfFrom_mset h (Nat.zero_le _)

/-- A key that is written reads as what was written. -/
theorem mget_mset_same {m : Map β} : ∀ {lo k : Nat} {v : β}, mwfFrom d lo m = true → mget d (mset d m k v) k = v := by
  induction m with
  | nil =>
    intro lo k v _
    by_cases hv : v = d <;> simp [mset, mget, hv]
  | cons x r ih =>
    intro lo k v h
    obtain ⟨k', v'⟩ := x
    simp only [mwfFrom, Bool.and_eq_true, decide_eq_true_eq] at h
    obtain ⟨⟨h1, h2⟩, h3⟩ := h
    unfold mset
    split
    · rename_i hlt
      split
      · rename_i hv
        have : ¬ k' = k := by omega
        simp only [mget, this, if_false]
        rw [hv]
        exact mget_below h3 (by omega)
      · simp [mget]
    · split
      · rename_i hlt he
        split
        · rename_i hv
          rw [hv]
          exact mget_below h3 (by omega)
        · simp [mget]
      · rename_i hlt hne
        have : ¬ k' = k := fun e => hne e.symm
        simp only [mget, this, if_false]
        exact ih h3

/-- Every other key reads as before. -/
theorem mget_mset_other {m : Map β} {k j : Nat} {v : β} (h : j ≠ k) : mget d (mset d m k v) j = mget d m j := by
  induction m with
  | nil =>
    by_cases hv : v = d <;> simp [mset, mget, hv, Ne.symm h]
  | cons x r ih =>
    obtain ⟨k', v'⟩ := x
    unfold mset
    split
    · split
      · rfl
      · simp [mget, Ne.symm h]
    · split
      · rename_i hlt he
        split <;> simp [mget, ← he, Ne.symm h]
      · simp only [mget, ih]

/-- A read after a write, at any key. -/
theorem mget_mset {m : Map β} {k j : Nat} {v : β} (h : mwf d m = true) :
    mget d (mset d m k v) j = if j = k then v else mget d m j := by
  split
  · rename_i e; subst e; exact mget_mset_same h
  · rename_i e; exact mget_mset_other e

/-- Two maps in canonical form that read alike everywhere are the same map. -/
theorem mwfFrom_ext {m : Map β} : ∀ {n : Map β} {lo : Nat}, mwfFrom d lo m = true → mwfFrom d lo n = true →
    (∀ k, mget d m k = mget d n k) → m = n := by
  induction m with
  | nil =>
    intro n lo _ hn he
    cases n with
    | nil => rfl
    | cons y r =>
      simp only [mwfFrom, Bool.and_eq_true, decide_eq_true_eq] at hn
      exact absurd (he y.1).symm (by simp [mget, hn.1.2])
  | cons x r ih =>
    intro n lo hm hn he
    cases n with
    | nil =>
      simp only [mwfFrom, Bool.and_eq_true, decide_eq_true_eq] at hm
      exact absurd (he x.1) (by simp [mget, hm.1.2])
    | cons y q =>
      obtain ⟨kx, vx⟩ := x
      obtain ⟨ky, vy⟩ := y
      simp only [mwfFrom, Bool.and_eq_true, decide_eq_true_eq] at hm hn
      obtain ⟨⟨_, hx⟩, hr⟩ := hm
      obtain ⟨⟨_, hy⟩, hq⟩ := hn
      have hk : kx = ky := by
        rcases Nat.lt_trichotomy kx ky with hlt | rfl | hlt
        · have := he kx
          have hne : ¬ ky = kx := by omega
          simp only [mget, if_true, hne, if_false] at this
          rw [mget_below hq (by omega)] at this
          exact absurd this hx
        · rfl
        · have := he ky
          have hne : ¬ kx = ky := by omega
          simp only [mget, if_true, hne, if_false] at this
          rw [mget_below hr (by omega)] at this
          exact absurd this.symm hy
      subst hk
      have hv : vx = vy := by simpa [mget] using he kx
      subst hv
      rw [ih hr hq]
      intro k
      by_cases hkk : kx = k
      · subst hkk
        rw [mget_below hr (by omega), mget_below hq (by omega)]
      · simpa [mget, hkk] using he k

theorem mwf_ext {m n : Map β} (hm : mwf d m = true) (hn : mwf d n = true) (h : ∀ k, mget d m k = mget d n k) : m = n :=
  mwfFrom_ext hm hn h

/-- Removing entries keeps the canonical form. -/
theorem mwfFrom_filter {m : Map β} (p : Nat × β → Bool) : ∀ {lo : Nat}, mwfFrom d lo m = true →
    mwfFrom d lo (m.filter p) = true := by
  induction m with
  | nil => intros; rfl
  | cons x r ih =>
    intro lo h
    simp only [mwfFrom, Bool.and_eq_true, decide_eq_true_eq] at h
    obtain ⟨⟨h1, h2⟩, h3⟩ := h
    rw [List.filter_cons]
    split
    · simp only [mwfFrom, Bool.and_eq_true, decide_eq_true_eq]
      exact ⟨⟨h1, h2⟩, ih h3⟩
    · exact mwfFrom_mono (ih h3) (by omega)

theorem mwf_filter {m : Map β} {p : Nat × β → Bool} (h : mwf d m = true) : mwf d (m.filter p) = true := mwfFrom_filter p h

/-! ### Keyed lists -/

variable {α : Type} {key : α → Nat} {k : Nat}

/-- The record with a key has that key. -/
theorem findKey_key {l : List α} {x : α} (h : findKey key k l = some x) : key x = k := by
  induction l with
  | nil => simp [findKey] at h
  | cons y r ih =>
    unfold findKey at h
    split at h
    · cases h; assumption
    · exact ih h

/-- A record that is replaced by one with the same key is found under it. -/
theorem findKey_modifyKey {l : List α} {x : α} {f : α → α} (h : findKey key k l = some x) (hf : key (f x) = k) :
    findKey key k (modifyKey key k f l) = some (f x) := by
  induction l with
  | nil => simp [findKey] at h
  | cons y r ih =>
    unfold findKey at h
    unfold modifyKey
    split at h
    · rename_i hy
      cases h
      simp [findKey, hf, hy]
    · rename_i hy
      simp only [hy, if_false, findKey]
      exact ih h

/-- The other records are found as before, where the replacement keeps the key. -/
theorem findKey_modifyKey_other {l : List α} {f : α → α} {j : Nat} (h : j ≠ k) (hf : ∀ x, key x = k → key (f x) = k) :
    findKey key j (modifyKey key k f l) = findKey key j l := by
  induction l with
  | nil => rfl
  | cons y r ih =>
    unfold modifyKey
    split
    · rename_i hy
      simp [findKey, hf y hy, hy, Ne.symm h]
    · simp [findKey, ih]

/-- Replacing where there is nothing to replace changes nothing. -/
theorem modifyKey_none {l : List α} {f : α → α} (h : findKey key k l = none) : modifyKey key k f l = l := by
  induction l with
  | nil => rfl
  | cons y r ih =>
    unfold findKey at h
    unfold modifyKey
    split at h
    · cases h
    · rename_i hy
      simp [hy, ih h]

end Sys2Proof.Machine
end

