-- ==== Sys2Proof/Laws/State.lean ====
section
/-! SUPPORT. Each update of the state leaves every other field as it was: one lemma for each field and update, so that no proof
unfolds a record update. -/

namespace Sys2Proof.Machine

/-! ### `State.setGroup` -/

@[simp] theorem State.setGroup_agenda (s : State) (g : Group) : (s.setGroup g).agenda = s.agenda := rfl
@[simp] theorem State.setGroup_tick (s : State) (g : Group) : (s.setGroup g).tick = s.tick := rfl
@[simp] theorem State.setGroup_tickAt (s : State) (g : Group) : (s.setGroup g).tickAt = s.tickAt := rfl
@[simp] theorem State.setGroup_cur (s : State) (g : Group) : (s.setGroup g).cur = s.cur := rfl
@[simp] theorem State.setGroup_clock (s : State) (g : Group) : (s.setGroup g).clock = s.clock := rfl
@[simp] theorem State.setGroup_nextId (s : State) (g : Group) : (s.setGroup g).nextId = s.nextId := rfl
@[simp] theorem State.setGroup_blocks (s : State) (g : Group) : (s.setGroup g).blocks = s.blocks := rfl
@[simp] theorem State.setGroup_patches (s : State) (g : Group) : (s.setGroup g).patches = s.patches := rfl
@[simp] theorem State.setGroup_launches (s : State) (g : Group) : (s.setGroup g).launches = s.launches := rfl
@[simp] theorem State.setGroup_parts (s : State) (g : Group) : (s.setGroup g).parts = s.parts := rfl
@[simp] theorem State.setGroup_eps (s : State) (g : Group) : (s.setGroup g).eps = s.eps := rfl
@[simp] theorem State.setGroup_chains (s : State) (g : Group) : (s.setGroup g).chains = s.chains := rfl
@[simp] theorem State.setGroup_mem (s : State) (g : Group) : (s.setGroup g).mem = s.mem := rfl
@[simp] theorem State.setGroup_co (s : State) (g : Group) : (s.setGroup g).co = s.co := rfl
@[simp] theorem State.setGroup_sb (s : State) (g : Group) : (s.setGroup g).sb = s.sb := rfl
@[simp] theorem State.setGroup_lstore (s : State) (g : Group) : (s.setGroup g).lstore = s.lstore := rfl
@[simp] theorem State.setGroup_live (s : State) (g : Group) : (s.setGroup g).live = s.live := rfl
@[simp] theorem State.setGroup_dirty (s : State) (g : Group) : (s.setGroup g).dirty = s.dirty := rfl
@[simp] theorem State.setGroup_objViews (s : State) (g : Group) : (s.setGroup g).objViews = s.objViews := rfl
@[simp] theorem State.setGroup_objDue (s : State) (g : Group) : (s.setGroup g).objDue = s.objDue := rfl
@[simp] theorem State.setGroup_objLate (s : State) (g : Group) : (s.setGroup g).objLate = s.objLate := rfl
@[simp] theorem State.setGroup_tlb (s : State) (g : Group) : (s.setGroup g).tlb = s.tlb := rfl
@[simp] theorem State.setGroup_faults (s : State) (g : Group) : (s.setGroup g).faults = s.faults := rfl
@[simp] theorem State.setGroup_cmds (s : State) (g : Group) : (s.setGroup g).cmds = s.cmds := rfl
@[simp] theorem State.setGroup_arrays (s : State) (g : Group) : (s.setGroup g).arrays = s.arrays := rfl
@[simp] theorem State.setGroup_ckrel (s : State) (g : Group) : (s.setGroup g).ckrel = s.ckrel := rfl
@[simp] theorem State.setGroup_ckabs (s : State) (g : Group) : (s.setGroup g).ckabs = s.ckabs := rfl
@[simp] theorem State.setGroup_ckfix (s : State) (g : Group) : (s.setGroup g).ckfix = s.ckfix := rfl
@[simp] theorem State.setGroup_transit (s : State) (g : Group) : (s.setGroup g).transit = s.transit := rfl
@[simp] theorem State.setGroup_moves (s : State) (g : Group) : (s.setGroup g).moves = s.moves := rfl
@[simp] theorem State.setGroup_flushes (s : State) (g : Group) : (s.setGroup g).flushes = s.flushes := rfl
@[simp] theorem State.setGroup_flushErrs (s : State) (g : Group) : (s.setGroup g).flushErrs = s.flushErrs := rfl
@[simp] theorem State.setGroup_cacheFloors (s : State) (g : Group) : (s.setGroup g).cacheFloors = s.cacheFloors := rfl
@[simp] theorem State.setGroup_images (s : State) (g : Group) : (s.setGroup g).images = s.images := rfl
@[simp] theorem State.setGroup_parked (s : State) (g : Group) : (s.setGroup g).parked = s.parked := rfl
@[simp] theorem State.setGroup_errs (s : State) (g : Group) : (s.setGroup g).errs = s.errs := rfl
@[simp] theorem State.setGroup_uncorr (s : State) (g : Group) : (s.setGroup g).uncorr = s.uncorr := rfl
@[simp] theorem State.setGroup_coef (s : State) (g : Group) : (s.setGroup g).coef = s.coef := rfl
@[simp] theorem State.setGroup_rakeLen (s : State) (g : Group) : (s.setGroup g).rakeLen = s.rakeLen := rfl
@[simp] theorem State.setGroup_rakeCnt (s : State) (g : Group) : (s.setGroup g).rakeCnt = s.rakeCnt := rfl
@[simp] theorem State.setGroup_rakeAt (s : State) (g : Group) : (s.setGroup g).rakeAt = s.rakeAt := rfl
@[simp] theorem State.setGroup_holes (s : State) (g : Group) : (s.setGroup g).holes = s.holes := rfl
@[simp] theorem State.setGroup_fusedOff (s : State) (g : Group) : (s.setGroup g).fusedOff = s.fusedOff := rfl
@[simp] theorem State.setGroup_mailbox (s : State) (g : Group) : (s.setGroup g).mailbox = s.mailbox := rfl
@[simp] theorem State.setGroup_fw0 (s : State) (g : Group) : (s.setGroup g).fw0 = s.fw0 := rfl
@[simp] theorem State.setGroup_fw1 (s : State) (g : Group) : (s.setGroup g).fw1 = s.fw1 := rfl
@[simp] theorem State.setGroup_fwActive (s : State) (g : Group) : (s.setGroup g).fwActive = s.fwActive := rfl
@[simp] theorem State.setGroup_fwCounter (s : State) (g : Group) : (s.setGroup g).fwCounter = s.fwCounter := rfl
@[simp] theorem State.setGroup_fwPending (s : State) (g : Group) : (s.setGroup g).fwPending = s.fwPending := rfl
@[simp] theorem State.setGroup_capped (s : State) (g : Group) : (s.setGroup g).capped = s.capped := rfl
@[simp] theorem State.setGroup_overWin (s : State) (g : Group) : (s.setGroup g).overWin = s.overWin := rfl
@[simp] theorem State.setGroup_underWin (s : State) (g : Group) : (s.setGroup g).underWin = s.underWin := rfl
@[simp] theorem State.setGroup_pairIn (s : State) (g : Group) : (s.setGroup g).pairIn = s.pairIn := rfl
@[simp] theorem State.setGroup_peerCounts (s : State) (g : Group) : (s.setGroup g).peerCounts = s.peerCounts := rfl
@[simp] theorem State.setGroup_sigs (s : State) (g : Group) : (s.setGroup g).sigs = s.sigs := rfl
@[simp] theorem State.setGroup_irqs (s : State) (g : Group) : (s.setGroup g).irqs = s.irqs := rfl
@[simp] theorem State.setGroup_net (s : State) (g : Group) : (s.setGroup g).net = s.net := rfl
@[simp] theorem State.setGroup_spdm (s : State) (g : Group) : (s.setGroup g).spdm = s.spdm := rfl
@[simp] theorem State.setGroup_powered (s : State) (g : Group) : (s.setGroup g).powered = s.powered := rfl
@[simp] theorem State.setGroup_peerDigest (s : State) (g : Group) : (s.setGroup g).peerDigest = s.peerDigest := rfl

/-! ### `State.modBlock` -/

@[simp] theorem State.modBlock_agenda (s : State) (k : Nat) (f : Block → Block) : (s.modBlock k f).agenda = s.agenda := rfl
@[simp] theorem State.modBlock_tick (s : State) (k : Nat) (f : Block → Block) : (s.modBlock k f).tick = s.tick := rfl
@[simp] theorem State.modBlock_tickAt (s : State) (k : Nat) (f : Block → Block) : (s.modBlock k f).tickAt = s.tickAt := rfl
@[simp] theorem State.modBlock_cur (s : State) (k : Nat) (f : Block → Block) : (s.modBlock k f).cur = s.cur := rfl
@[simp] theorem State.modBlock_clock (s : State) (k : Nat) (f : Block → Block) : (s.modBlock k f).clock = s.clock := rfl
@[simp] theorem State.modBlock_nextId (s : State) (k : Nat) (f : Block → Block) : (s.modBlock k f).nextId = s.nextId := rfl
@[simp] theorem State.modBlock_groups (s : State) (k : Nat) (f : Block → Block) : (s.modBlock k f).groups = s.groups := rfl
@[simp] theorem State.modBlock_patches (s : State) (k : Nat) (f : Block → Block) : (s.modBlock k f).patches = s.patches := rfl
@[simp] theorem State.modBlock_launches (s : State) (k : Nat) (f : Block → Block) : (s.modBlock k f).launches = s.launches := rfl
@[simp] theorem State.modBlock_parts (s : State) (k : Nat) (f : Block → Block) : (s.modBlock k f).parts = s.parts := rfl
@[simp] theorem State.modBlock_eps (s : State) (k : Nat) (f : Block → Block) : (s.modBlock k f).eps = s.eps := rfl
@[simp] theorem State.modBlock_chains (s : State) (k : Nat) (f : Block → Block) : (s.modBlock k f).chains = s.chains := rfl
@[simp] theorem State.modBlock_mem (s : State) (k : Nat) (f : Block → Block) : (s.modBlock k f).mem = s.mem := rfl
@[simp] theorem State.modBlock_co (s : State) (k : Nat) (f : Block → Block) : (s.modBlock k f).co = s.co := rfl
@[simp] theorem State.modBlock_sb (s : State) (k : Nat) (f : Block → Block) : (s.modBlock k f).sb = s.sb := rfl
@[simp] theorem State.modBlock_lstore (s : State) (k : Nat) (f : Block → Block) : (s.modBlock k f).lstore = s.lstore := rfl
@[simp] theorem State.modBlock_live (s : State) (k : Nat) (f : Block → Block) : (s.modBlock k f).live = s.live := rfl
@[simp] theorem State.modBlock_dirty (s : State) (k : Nat) (f : Block → Block) : (s.modBlock k f).dirty = s.dirty := rfl
@[simp] theorem State.modBlock_objViews (s : State) (k : Nat) (f : Block → Block) : (s.modBlock k f).objViews = s.objViews := rfl
@[simp] theorem State.modBlock_objDue (s : State) (k : Nat) (f : Block → Block) : (s.modBlock k f).objDue = s.objDue := rfl
@[simp] theorem State.modBlock_objLate (s : State) (k : Nat) (f : Block → Block) : (s.modBlock k f).objLate = s.objLate := rfl
@[simp] theorem State.modBlock_tlb (s : State) (k : Nat) (f : Block → Block) : (s.modBlock k f).tlb = s.tlb := rfl
@[simp] theorem State.modBlock_faults (s : State) (k : Nat) (f : Block → Block) : (s.modBlock k f).faults = s.faults := rfl
@[simp] theorem State.modBlock_cmds (s : State) (k : Nat) (f : Block → Block) : (s.modBlock k f).cmds = s.cmds := rfl
@[simp] theorem State.modBlock_arrays (s : State) (k : Nat) (f : Block → Block) : (s.modBlock k f).arrays = s.arrays := rfl
@[simp] theorem State.modBlock_ckrel (s : State) (k : Nat) (f : Block → Block) : (s.modBlock k f).ckrel = s.ckrel := rfl
@[simp] theorem State.modBlock_ckabs (s : State) (k : Nat) (f : Block → Block) : (s.modBlock k f).ckabs = s.ckabs := rfl
@[simp] theorem State.modBlock_ckfix (s : State) (k : Nat) (f : Block → Block) : (s.modBlock k f).ckfix = s.ckfix := rfl
@[simp] theorem State.modBlock_transit (s : State) (k : Nat) (f : Block → Block) : (s.modBlock k f).transit = s.transit := rfl
@[simp] theorem State.modBlock_moves (s : State) (k : Nat) (f : Block → Block) : (s.modBlock k f).moves = s.moves := rfl
@[simp] theorem State.modBlock_flushes (s : State) (k : Nat) (f : Block → Block) : (s.modBlock k f).flushes = s.flushes := rfl
@[simp] theorem State.modBlock_flushErrs (s : State) (k : Nat) (f : Block → Block) : (s.modBlock k f).flushErrs = s.flushErrs := rfl
@[simp] theorem State.modBlock_cacheFloors (s : State) (k : Nat) (f : Block → Block) : (s.modBlock k f).cacheFloors = s.cacheFloors := rfl
@[simp] theorem State.modBlock_images (s : State) (k : Nat) (f : Block → Block) : (s.modBlock k f).images = s.images := rfl
@[simp] theorem State.modBlock_parked (s : State) (k : Nat) (f : Block → Block) : (s.modBlock k f).parked = s.parked := rfl
@[simp] theorem State.modBlock_errs (s : State) (k : Nat) (f : Block → Block) : (s.modBlock k f).errs = s.errs := rfl
@[simp] theorem State.modBlock_uncorr (s : State) (k : Nat) (f : Block → Block) : (s.modBlock k f).uncorr = s.uncorr := rfl
@[simp] theorem State.modBlock_coef (s : State) (k : Nat) (f : Block → Block) : (s.modBlock k f).coef = s.coef := rfl
@[simp] theorem State.modBlock_rakeLen (s : State) (k : Nat) (f : Block → Block) : (s.modBlock k f).rakeLen = s.rakeLen := rfl
@[simp] theorem State.modBlock_rakeCnt (s : State) (k : Nat) (f : Block → Block) : (s.modBlock k f).rakeCnt = s.rakeCnt := rfl
@[simp] theorem State.modBlock_rakeAt (s : State) (k : Nat) (f : Block → Block) : (s.modBlock k f).rakeAt = s.rakeAt := rfl
@[simp] theorem State.modBlock_holes (s : State) (k : Nat) (f : Block → Block) : (s.modBlock k f).holes = s.holes := rfl
@[simp] theorem State.modBlock_fusedOff (s : State) (k : Nat) (f : Block → Block) : (s.modBlock k f).fusedOff = s.fusedOff := rfl
@[simp] theorem State.modBlock_mailbox (s : State) (k : Nat) (f : Block → Block) : (s.modBlock k f).mailbox = s.mailbox := rfl
@[simp] theorem State.modBlock_fw0 (s : State) (k : Nat) (f : Block → Block) : (s.modBlock k f).fw0 = s.fw0 := rfl
@[simp] theorem State.modBlock_fw1 (s : State) (k : Nat) (f : Block → Block) : (s.modBlock k f).fw1 = s.fw1 := rfl
@[simp] theorem State.modBlock_fwActive (s : State) (k : Nat) (f : Block → Block) : (s.modBlock k f).fwActive = s.fwActive := rfl
@[simp] theorem State.modBlock_fwCounter (s : State) (k : Nat) (f : Block → Block) : (s.modBlock k f).fwCounter = s.fwCounter := rfl
@[simp] theorem State.modBlock_fwPending (s : State) (k : Nat) (f : Block → Block) : (s.modBlock k f).fwPending = s.fwPending := rfl
@[simp] theorem State.modBlock_capped (s : State) (k : Nat) (f : Block → Block) : (s.modBlock k f).capped = s.capped := rfl
@[simp] theorem State.modBlock_overWin (s : State) (k : Nat) (f : Block → Block) : (s.modBlock k f).overWin = s.overWin := rfl
@[simp] theorem State.modBlock_underWin (s : State) (k : Nat) (f : Block → Block) : (s.modBlock k f).underWin = s.underWin := rfl
@[simp] theorem State.modBlock_pairIn (s : State) (k : Nat) (f : Block → Block) : (s.modBlock k f).pairIn = s.pairIn := rfl
@[simp] theorem State.modBlock_peerCounts (s : State) (k : Nat) (f : Block → Block) : (s.modBlock k f).peerCounts = s.peerCounts := rfl
@[simp] theorem State.modBlock_sigs (s : State) (k : Nat) (f : Block → Block) : (s.modBlock k f).sigs = s.sigs := rfl
@[simp] theorem State.modBlock_irqs (s : State) (k : Nat) (f : Block → Block) : (s.modBlock k f).irqs = s.irqs := rfl
@[simp] theorem State.modBlock_net (s : State) (k : Nat) (f : Block → Block) : (s.modBlock k f).net = s.net := rfl
@[simp] theorem State.modBlock_spdm (s : State) (k : Nat) (f : Block → Block) : (s.modBlock k f).spdm = s.spdm := rfl
@[simp] theorem State.modBlock_powered (s : State) (k : Nat) (f : Block → Block) : (s.modBlock k f).powered = s.powered := rfl
@[simp] theorem State.modBlock_peerDigest (s : State) (k : Nat) (f : Block → Block) : (s.modBlock k f).peerDigest = s.peerDigest := rfl

/-! ### `State.modLaunch` -/

@[simp] theorem State.modLaunch_agenda (s : State) (k : Nat) (f : Launch → Launch) : (s.modLaunch k f).agenda = s.agenda := rfl
@[simp] theorem State.modLaunch_tick (s : State) (k : Nat) (f : Launch → Launch) : (s.modLaunch k f).tick = s.tick := rfl
@[simp] theorem State.modLaunch_tickAt (s : State) (k : Nat) (f : Launch → Launch) : (s.modLaunch k f).tickAt = s.tickAt := rfl
@[simp] theorem State.modLaunch_cur (s : State) (k : Nat) (f : Launch → Launch) : (s.modLaunch k f).cur = s.cur := rfl
@[simp] theorem State.modLaunch_clock (s : State) (k : Nat) (f : Launch → Launch) : (s.modLaunch k f).clock = s.clock := rfl
@[simp] theorem State.modLaunch_nextId (s : State) (k : Nat) (f : Launch → Launch) : (s.modLaunch k f).nextId = s.nextId := rfl
@[simp] theorem State.modLaunch_groups (s : State) (k : Nat) (f : Launch → Launch) : (s.modLaunch k f).groups = s.groups := rfl
@[simp] theorem State.modLaunch_blocks (s : State) (k : Nat) (f : Launch → Launch) : (s.modLaunch k f).blocks = s.blocks := rfl
@[simp] theorem State.modLaunch_patches (s : State) (k : Nat) (f : Launch → Launch) : (s.modLaunch k f).patches = s.patches := rfl
@[simp] theorem State.modLaunch_parts (s : State) (k : Nat) (f : Launch → Launch) : (s.modLaunch k f).parts = s.parts := rfl
@[simp] theorem State.modLaunch_eps (s : State) (k : Nat) (f : Launch → Launch) : (s.modLaunch k f).eps = s.eps := rfl
@[simp] theorem State.modLaunch_chains (s : State) (k : Nat) (f : Launch → Launch) : (s.modLaunch k f).chains = s.chains := rfl
@[simp] theorem State.modLaunch_mem (s : State) (k : Nat) (f : Launch → Launch) : (s.modLaunch k f).mem = s.mem := rfl
@[simp] theorem State.modLaunch_co (s : State) (k : Nat) (f : Launch → Launch) : (s.modLaunch k f).co = s.co := rfl
@[simp] theorem State.modLaunch_sb (s : State) (k : Nat) (f : Launch → Launch) : (s.modLaunch k f).sb = s.sb := rfl
@[simp] theorem State.modLaunch_lstore (s : State) (k : Nat) (f : Launch → Launch) : (s.modLaunch k f).lstore = s.lstore := rfl
@[simp] theorem State.modLaunch_live (s : State) (k : Nat) (f : Launch → Launch) : (s.modLaunch k f).live = s.live := rfl
@[simp] theorem State.modLaunch_dirty (s : State) (k : Nat) (f : Launch → Launch) : (s.modLaunch k f).dirty = s.dirty := rfl
@[simp] theorem State.modLaunch_objViews (s : State) (k : Nat) (f : Launch → Launch) : (s.modLaunch k f).objViews = s.objViews := rfl
@[simp] theorem State.modLaunch_objDue (s : State) (k : Nat) (f : Launch → Launch) : (s.modLaunch k f).objDue = s.objDue := rfl
@[simp] theorem State.modLaunch_objLate (s : State) (k : Nat) (f : Launch → Launch) : (s.modLaunch k f).objLate = s.objLate := rfl
@[simp] theorem State.modLaunch_tlb (s : State) (k : Nat) (f : Launch → Launch) : (s.modLaunch k f).tlb = s.tlb := rfl
@[simp] theorem State.modLaunch_faults (s : State) (k : Nat) (f : Launch → Launch) : (s.modLaunch k f).faults = s.faults := rfl
@[simp] theorem State.modLaunch_cmds (s : State) (k : Nat) (f : Launch → Launch) : (s.modLaunch k f).cmds = s.cmds := rfl
@[simp] theorem State.modLaunch_arrays (s : State) (k : Nat) (f : Launch → Launch) : (s.modLaunch k f).arrays = s.arrays := rfl
@[simp] theorem State.modLaunch_ckrel (s : State) (k : Nat) (f : Launch → Launch) : (s.modLaunch k f).ckrel = s.ckrel := rfl
@[simp] theorem State.modLaunch_ckabs (s : State) (k : Nat) (f : Launch → Launch) : (s.modLaunch k f).ckabs = s.ckabs := rfl
@[simp] theorem State.modLaunch_ckfix (s : State) (k : Nat) (f : Launch → Launch) : (s.modLaunch k f).ckfix = s.ckfix := rfl
@[simp] theorem State.modLaunch_transit (s : State) (k : Nat) (f : Launch → Launch) : (s.modLaunch k f).transit = s.transit := rfl
@[simp] theorem State.modLaunch_moves (s : State) (k : Nat) (f : Launch → Launch) : (s.modLaunch k f).moves = s.moves := rfl
@[simp] theorem State.modLaunch_flushes (s : State) (k : Nat) (f : Launch → Launch) : (s.modLaunch k f).flushes = s.flushes := rfl
@[simp] theorem State.modLaunch_flushErrs (s : State) (k : Nat) (f : Launch → Launch) : (s.modLaunch k f).flushErrs = s.flushErrs := rfl
@[simp] theorem State.modLaunch_cacheFloors (s : State) (k : Nat) (f : Launch → Launch) : (s.modLaunch k f).cacheFloors = s.cacheFloors := rfl
@[simp] theorem State.modLaunch_images (s : State) (k : Nat) (f : Launch → Launch) : (s.modLaunch k f).images = s.images := rfl
@[simp] theorem State.modLaunch_parked (s : State) (k : Nat) (f : Launch → Launch) : (s.modLaunch k f).parked = s.parked := rfl
@[simp] theorem State.modLaunch_errs (s : State) (k : Nat) (f : Launch → Launch) : (s.modLaunch k f).errs = s.errs := rfl
@[simp] theorem State.modLaunch_uncorr (s : State) (k : Nat) (f : Launch → Launch) : (s.modLaunch k f).uncorr = s.uncorr := rfl
@[simp] theorem State.modLaunch_coef (s : State) (k : Nat) (f : Launch → Launch) : (s.modLaunch k f).coef = s.coef := rfl
@[simp] theorem State.modLaunch_rakeLen (s : State) (k : Nat) (f : Launch → Launch) : (s.modLaunch k f).rakeLen = s.rakeLen := rfl
@[simp] theorem State.modLaunch_rakeCnt (s : State) (k : Nat) (f : Launch → Launch) : (s.modLaunch k f).rakeCnt = s.rakeCnt := rfl
@[simp] theorem State.modLaunch_rakeAt (s : State) (k : Nat) (f : Launch → Launch) : (s.modLaunch k f).rakeAt = s.rakeAt := rfl
@[simp] theorem State.modLaunch_holes (s : State) (k : Nat) (f : Launch → Launch) : (s.modLaunch k f).holes = s.holes := rfl
@[simp] theorem State.modLaunch_fusedOff (s : State) (k : Nat) (f : Launch → Launch) : (s.modLaunch k f).fusedOff = s.fusedOff := rfl
@[simp] theorem State.modLaunch_mailbox (s : State) (k : Nat) (f : Launch → Launch) : (s.modLaunch k f).mailbox = s.mailbox := rfl
@[simp] theorem State.modLaunch_fw0 (s : State) (k : Nat) (f : Launch → Launch) : (s.modLaunch k f).fw0 = s.fw0 := rfl
@[simp] theorem State.modLaunch_fw1 (s : State) (k : Nat) (f : Launch → Launch) : (s.modLaunch k f).fw1 = s.fw1 := rfl
@[simp] theorem State.modLaunch_fwActive (s : State) (k : Nat) (f : Launch → Launch) : (s.modLaunch k f).fwActive = s.fwActive := rfl
@[simp] theorem State.modLaunch_fwCounter (s : State) (k : Nat) (f : Launch → Launch) : (s.modLaunch k f).fwCounter = s.fwCounter := rfl
@[simp] theorem State.modLaunch_fwPending (s : State) (k : Nat) (f : Launch → Launch) : (s.modLaunch k f).fwPending = s.fwPending := rfl
@[simp] theorem State.modLaunch_capped (s : State) (k : Nat) (f : Launch → Launch) : (s.modLaunch k f).capped = s.capped := rfl
@[simp] theorem State.modLaunch_overWin (s : State) (k : Nat) (f : Launch → Launch) : (s.modLaunch k f).overWin = s.overWin := rfl
@[simp] theorem State.modLaunch_underWin (s : State) (k : Nat) (f : Launch → Launch) : (s.modLaunch k f).underWin = s.underWin := rfl
@[simp] theorem State.modLaunch_pairIn (s : State) (k : Nat) (f : Launch → Launch) : (s.modLaunch k f).pairIn = s.pairIn := rfl
@[simp] theorem State.modLaunch_peerCounts (s : State) (k : Nat) (f : Launch → Launch) : (s.modLaunch k f).peerCounts = s.peerCounts := rfl
@[simp] theorem State.modLaunch_sigs (s : State) (k : Nat) (f : Launch → Launch) : (s.modLaunch k f).sigs = s.sigs := rfl
@[simp] theorem State.modLaunch_irqs (s : State) (k : Nat) (f : Launch → Launch) : (s.modLaunch k f).irqs = s.irqs := rfl
@[simp] theorem State.modLaunch_net (s : State) (k : Nat) (f : Launch → Launch) : (s.modLaunch k f).net = s.net := rfl
@[simp] theorem State.modLaunch_spdm (s : State) (k : Nat) (f : Launch → Launch) : (s.modLaunch k f).spdm = s.spdm := rfl
@[simp] theorem State.modLaunch_powered (s : State) (k : Nat) (f : Launch → Launch) : (s.modLaunch k f).powered = s.powered := rfl
@[simp] theorem State.modLaunch_peerDigest (s : State) (k : Nat) (f : Launch → Launch) : (s.modLaunch k f).peerDigest = s.peerDigest := rfl

/-! ### `State.setCmd` -/

@[simp] theorem State.setCmd_agenda (s : State) (c : Cmd) : (s.setCmd c).agenda = s.agenda := rfl
@[simp] theorem State.setCmd_tick (s : State) (c : Cmd) : (s.setCmd c).tick = s.tick := rfl
@[simp] theorem State.setCmd_tickAt (s : State) (c : Cmd) : (s.setCmd c).tickAt = s.tickAt := rfl
@[simp] theorem State.setCmd_cur (s : State) (c : Cmd) : (s.setCmd c).cur = s.cur := rfl
@[simp] theorem State.setCmd_clock (s : State) (c : Cmd) : (s.setCmd c).clock = s.clock := rfl
@[simp] theorem State.setCmd_nextId (s : State) (c : Cmd) : (s.setCmd c).nextId = s.nextId := rfl
@[simp] theorem State.setCmd_groups (s : State) (c : Cmd) : (s.setCmd c).groups = s.groups := rfl
@[simp] theorem State.setCmd_blocks (s : State) (c : Cmd) : (s.setCmd c).blocks = s.blocks := rfl
@[simp] theorem State.setCmd_patches (s : State) (c : Cmd) : (s.setCmd c).patches = s.patches := rfl
@[simp] theorem State.setCmd_launches (s : State) (c : Cmd) : (s.setCmd c).launches = s.launches := rfl
@[simp] theorem State.setCmd_parts (s : State) (c : Cmd) : (s.setCmd c).parts = s.parts := rfl
@[simp] theorem State.setCmd_eps (s : State) (c : Cmd) : (s.setCmd c).eps = s.eps := rfl
@[simp] theorem State.setCmd_chains (s : State) (c : Cmd) : (s.setCmd c).chains = s.chains := rfl
@[simp] theorem State.setCmd_mem (s : State) (c : Cmd) : (s.setCmd c).mem = s.mem := rfl
@[simp] theorem State.setCmd_co (s : State) (c : Cmd) : (s.setCmd c).co = s.co := rfl
@[simp] theorem State.setCmd_sb (s : State) (c : Cmd) : (s.setCmd c).sb = s.sb := rfl
@[simp] theorem State.setCmd_lstore (s : State) (c : Cmd) : (s.setCmd c).lstore = s.lstore := rfl
@[simp] theorem State.setCmd_live (s : State) (c : Cmd) : (s.setCmd c).live = s.live := rfl
@[simp] theorem State.setCmd_dirty (s : State) (c : Cmd) : (s.setCmd c).dirty = s.dirty := rfl
@[simp] theorem State.setCmd_objViews (s : State) (c : Cmd) : (s.setCmd c).objViews = s.objViews := rfl
@[simp] theorem State.setCmd_objDue (s : State) (c : Cmd) : (s.setCmd c).objDue = s.objDue := rfl
@[simp] theorem State.setCmd_objLate (s : State) (c : Cmd) : (s.setCmd c).objLate = s.objLate := rfl
@[simp] theorem State.setCmd_tlb (s : State) (c : Cmd) : (s.setCmd c).tlb = s.tlb := rfl
@[simp] theorem State.setCmd_faults (s : State) (c : Cmd) : (s.setCmd c).faults = s.faults := rfl
@[simp] theorem State.setCmd_arrays (s : State) (c : Cmd) : (s.setCmd c).arrays = s.arrays := rfl
@[simp] theorem State.setCmd_ckrel (s : State) (c : Cmd) : (s.setCmd c).ckrel = s.ckrel := rfl
@[simp] theorem State.setCmd_ckabs (s : State) (c : Cmd) : (s.setCmd c).ckabs = s.ckabs := rfl
@[simp] theorem State.setCmd_ckfix (s : State) (c : Cmd) : (s.setCmd c).ckfix = s.ckfix := rfl
@[simp] theorem State.setCmd_transit (s : State) (c : Cmd) : (s.setCmd c).transit = s.transit := rfl
@[simp] theorem State.setCmd_moves (s : State) (c : Cmd) : (s.setCmd c).moves = s.moves := rfl
@[simp] theorem State.setCmd_flushes (s : State) (c : Cmd) : (s.setCmd c).flushes = s.flushes := rfl
@[simp] theorem State.setCmd_flushErrs (s : State) (c : Cmd) : (s.setCmd c).flushErrs = s.flushErrs := rfl
@[simp] theorem State.setCmd_cacheFloors (s : State) (c : Cmd) : (s.setCmd c).cacheFloors = s.cacheFloors := rfl
@[simp] theorem State.setCmd_images (s : State) (c : Cmd) : (s.setCmd c).images = s.images := rfl
@[simp] theorem State.setCmd_parked (s : State) (c : Cmd) : (s.setCmd c).parked = s.parked := rfl
@[simp] theorem State.setCmd_errs (s : State) (c : Cmd) : (s.setCmd c).errs = s.errs := rfl
@[simp] theorem State.setCmd_uncorr (s : State) (c : Cmd) : (s.setCmd c).uncorr = s.uncorr := rfl
@[simp] theorem State.setCmd_coef (s : State) (c : Cmd) : (s.setCmd c).coef = s.coef := rfl
@[simp] theorem State.setCmd_rakeLen (s : State) (c : Cmd) : (s.setCmd c).rakeLen = s.rakeLen := rfl
@[simp] theorem State.setCmd_rakeCnt (s : State) (c : Cmd) : (s.setCmd c).rakeCnt = s.rakeCnt := rfl
@[simp] theorem State.setCmd_rakeAt (s : State) (c : Cmd) : (s.setCmd c).rakeAt = s.rakeAt := rfl
@[simp] theorem State.setCmd_holes (s : State) (c : Cmd) : (s.setCmd c).holes = s.holes := rfl
@[simp] theorem State.setCmd_fusedOff (s : State) (c : Cmd) : (s.setCmd c).fusedOff = s.fusedOff := rfl
@[simp] theorem State.setCmd_mailbox (s : State) (c : Cmd) : (s.setCmd c).mailbox = s.mailbox := rfl
@[simp] theorem State.setCmd_fw0 (s : State) (c : Cmd) : (s.setCmd c).fw0 = s.fw0 := rfl
@[simp] theorem State.setCmd_fw1 (s : State) (c : Cmd) : (s.setCmd c).fw1 = s.fw1 := rfl
@[simp] theorem State.setCmd_fwActive (s : State) (c : Cmd) : (s.setCmd c).fwActive = s.fwActive := rfl
@[simp] theorem State.setCmd_fwCounter (s : State) (c : Cmd) : (s.setCmd c).fwCounter = s.fwCounter := rfl
@[simp] theorem State.setCmd_fwPending (s : State) (c : Cmd) : (s.setCmd c).fwPending = s.fwPending := rfl
@[simp] theorem State.setCmd_capped (s : State) (c : Cmd) : (s.setCmd c).capped = s.capped := rfl
@[simp] theorem State.setCmd_overWin (s : State) (c : Cmd) : (s.setCmd c).overWin = s.overWin := rfl
@[simp] theorem State.setCmd_underWin (s : State) (c : Cmd) : (s.setCmd c).underWin = s.underWin := rfl
@[simp] theorem State.setCmd_pairIn (s : State) (c : Cmd) : (s.setCmd c).pairIn = s.pairIn := rfl
@[simp] theorem State.setCmd_peerCounts (s : State) (c : Cmd) : (s.setCmd c).peerCounts = s.peerCounts := rfl
@[simp] theorem State.setCmd_sigs (s : State) (c : Cmd) : (s.setCmd c).sigs = s.sigs := rfl
@[simp] theorem State.setCmd_irqs (s : State) (c : Cmd) : (s.setCmd c).irqs = s.irqs := rfl
@[simp] theorem State.setCmd_net (s : State) (c : Cmd) : (s.setCmd c).net = s.net := rfl
@[simp] theorem State.setCmd_spdm (s : State) (c : Cmd) : (s.setCmd c).spdm = s.spdm := rfl
@[simp] theorem State.setCmd_powered (s : State) (c : Cmd) : (s.setCmd c).powered = s.powered := rfl
@[simp] theorem State.setCmd_peerDigest (s : State) (c : Cmd) : (s.setCmd c).peerDigest = s.peerDigest := rfl

/-! ### `State.setPart` -/

@[simp] theorem State.setPart_agenda (s : State) (k : Nat) (p : Partition) : (s.setPart k p).agenda = s.agenda := rfl
@[simp] theorem State.setPart_tick (s : State) (k : Nat) (p : Partition) : (s.setPart k p).tick = s.tick := rfl
@[simp] theorem State.setPart_tickAt (s : State) (k : Nat) (p : Partition) : (s.setPart k p).tickAt = s.tickAt := rfl
@[simp] theorem State.setPart_cur (s : State) (k : Nat) (p : Partition) : (s.setPart k p).cur = s.cur := rfl
@[simp] theorem State.setPart_clock (s : State) (k : Nat) (p : Partition) : (s.setPart k p).clock = s.clock := rfl
@[simp] theorem State.setPart_nextId (s : State) (k : Nat) (p : Partition) : (s.setPart k p).nextId = s.nextId := rfl
@[simp] theorem State.setPart_groups (s : State) (k : Nat) (p : Partition) : (s.setPart k p).groups = s.groups := rfl
@[simp] theorem State.setPart_blocks (s : State) (k : Nat) (p : Partition) : (s.setPart k p).blocks = s.blocks := rfl
@[simp] theorem State.setPart_patches (s : State) (k : Nat) (p : Partition) : (s.setPart k p).patches = s.patches := rfl
@[simp] theorem State.setPart_launches (s : State) (k : Nat) (p : Partition) : (s.setPart k p).launches = s.launches := rfl
@[simp] theorem State.setPart_eps (s : State) (k : Nat) (p : Partition) : (s.setPart k p).eps = s.eps := rfl
@[simp] theorem State.setPart_chains (s : State) (k : Nat) (p : Partition) : (s.setPart k p).chains = s.chains := rfl
@[simp] theorem State.setPart_mem (s : State) (k : Nat) (p : Partition) : (s.setPart k p).mem = s.mem := rfl
@[simp] theorem State.setPart_co (s : State) (k : Nat) (p : Partition) : (s.setPart k p).co = s.co := rfl
@[simp] theorem State.setPart_sb (s : State) (k : Nat) (p : Partition) : (s.setPart k p).sb = s.sb := rfl
@[simp] theorem State.setPart_lstore (s : State) (k : Nat) (p : Partition) : (s.setPart k p).lstore = s.lstore := rfl
@[simp] theorem State.setPart_live (s : State) (k : Nat) (p : Partition) : (s.setPart k p).live = s.live := rfl
@[simp] theorem State.setPart_dirty (s : State) (k : Nat) (p : Partition) : (s.setPart k p).dirty = s.dirty := rfl
@[simp] theorem State.setPart_objViews (s : State) (k : Nat) (p : Partition) : (s.setPart k p).objViews = s.objViews := rfl
@[simp] theorem State.setPart_objDue (s : State) (k : Nat) (p : Partition) : (s.setPart k p).objDue = s.objDue := rfl
@[simp] theorem State.setPart_objLate (s : State) (k : Nat) (p : Partition) : (s.setPart k p).objLate = s.objLate := rfl
@[simp] theorem State.setPart_tlb (s : State) (k : Nat) (p : Partition) : (s.setPart k p).tlb = s.tlb := rfl
@[simp] theorem State.setPart_faults (s : State) (k : Nat) (p : Partition) : (s.setPart k p).faults = s.faults := rfl
@[simp] theorem State.setPart_cmds (s : State) (k : Nat) (p : Partition) : (s.setPart k p).cmds = s.cmds := rfl
@[simp] theorem State.setPart_arrays (s : State) (k : Nat) (p : Partition) : (s.setPart k p).arrays = s.arrays := rfl
@[simp] theorem State.setPart_ckrel (s : State) (k : Nat) (p : Partition) : (s.setPart k p).ckrel = s.ckrel := rfl
@[simp] theorem State.setPart_ckabs (s : State) (k : Nat) (p : Partition) : (s.setPart k p).ckabs = s.ckabs := rfl
@[simp] theorem State.setPart_ckfix (s : State) (k : Nat) (p : Partition) : (s.setPart k p).ckfix = s.ckfix := rfl
@[simp] theorem State.setPart_transit (s : State) (k : Nat) (p : Partition) : (s.setPart k p).transit = s.transit := rfl
@[simp] theorem State.setPart_moves (s : State) (k : Nat) (p : Partition) : (s.setPart k p).moves = s.moves := rfl
@[simp] theorem State.setPart_flushes (s : State) (k : Nat) (p : Partition) : (s.setPart k p).flushes = s.flushes := rfl
@[simp] theorem State.setPart_flushErrs (s : State) (k : Nat) (p : Partition) : (s.setPart k p).flushErrs = s.flushErrs := rfl
@[simp] theorem State.setPart_cacheFloors (s : State) (k : Nat) (p : Partition) : (s.setPart k p).cacheFloors = s.cacheFloors := rfl
@[simp] theorem State.setPart_images (s : State) (k : Nat) (p : Partition) : (s.setPart k p).images = s.images := rfl
@[simp] theorem State.setPart_parked (s : State) (k : Nat) (p : Partition) : (s.setPart k p).parked = s.parked := rfl
@[simp] theorem State.setPart_errs (s : State) (k : Nat) (p : Partition) : (s.setPart k p).errs = s.errs := rfl
@[simp] theorem State.setPart_uncorr (s : State) (k : Nat) (p : Partition) : (s.setPart k p).uncorr = s.uncorr := rfl
@[simp] theorem State.setPart_coef (s : State) (k : Nat) (p : Partition) : (s.setPart k p).coef = s.coef := rfl
@[simp] theorem State.setPart_rakeLen (s : State) (k : Nat) (p : Partition) : (s.setPart k p).rakeLen = s.rakeLen := rfl
@[simp] theorem State.setPart_rakeCnt (s : State) (k : Nat) (p : Partition) : (s.setPart k p).rakeCnt = s.rakeCnt := rfl
@[simp] theorem State.setPart_rakeAt (s : State) (k : Nat) (p : Partition) : (s.setPart k p).rakeAt = s.rakeAt := rfl
@[simp] theorem State.setPart_holes (s : State) (k : Nat) (p : Partition) : (s.setPart k p).holes = s.holes := rfl
@[simp] theorem State.setPart_fusedOff (s : State) (k : Nat) (p : Partition) : (s.setPart k p).fusedOff = s.fusedOff := rfl
@[simp] theorem State.setPart_mailbox (s : State) (k : Nat) (p : Partition) : (s.setPart k p).mailbox = s.mailbox := rfl
@[simp] theorem State.setPart_fw0 (s : State) (k : Nat) (p : Partition) : (s.setPart k p).fw0 = s.fw0 := rfl
@[simp] theorem State.setPart_fw1 (s : State) (k : Nat) (p : Partition) : (s.setPart k p).fw1 = s.fw1 := rfl
@[simp] theorem State.setPart_fwActive (s : State) (k : Nat) (p : Partition) : (s.setPart k p).fwActive = s.fwActive := rfl
@[simp] theorem State.setPart_fwCounter (s : State) (k : Nat) (p : Partition) : (s.setPart k p).fwCounter = s.fwCounter := rfl
@[simp] theorem State.setPart_fwPending (s : State) (k : Nat) (p : Partition) : (s.setPart k p).fwPending = s.fwPending := rfl
@[simp] theorem State.setPart_capped (s : State) (k : Nat) (p : Partition) : (s.setPart k p).capped = s.capped := rfl
@[simp] theorem State.setPart_overWin (s : State) (k : Nat) (p : Partition) : (s.setPart k p).overWin = s.overWin := rfl
@[simp] theorem State.setPart_underWin (s : State) (k : Nat) (p : Partition) : (s.setPart k p).underWin = s.underWin := rfl
@[simp] theorem State.setPart_pairIn (s : State) (k : Nat) (p : Partition) : (s.setPart k p).pairIn = s.pairIn := rfl
@[simp] theorem State.setPart_peerCounts (s : State) (k : Nat) (p : Partition) : (s.setPart k p).peerCounts = s.peerCounts := rfl
@[simp] theorem State.setPart_sigs (s : State) (k : Nat) (p : Partition) : (s.setPart k p).sigs = s.sigs := rfl
@[simp] theorem State.setPart_irqs (s : State) (k : Nat) (p : Partition) : (s.setPart k p).irqs = s.irqs := rfl
@[simp] theorem State.setPart_net (s : State) (k : Nat) (p : Partition) : (s.setPart k p).net = s.net := rfl
@[simp] theorem State.setPart_spdm (s : State) (k : Nat) (p : Partition) : (s.setPart k p).spdm = s.spdm := rfl
@[simp] theorem State.setPart_powered (s : State) (k : Nat) (p : Partition) : (s.setPart k p).powered = s.powered := rfl
@[simp] theorem State.setPart_peerDigest (s : State) (k : Nat) (p : Partition) : (s.setPart k p).peerDigest = s.peerDigest := rfl

/-! ### `State.modPart` -/

@[simp] theorem State.modPart_agenda (s : State) (k : Nat) (f : Partition → Partition) : (s.modPart k f).agenda = s.agenda := rfl
@[simp] theorem State.modPart_tick (s : State) (k : Nat) (f : Partition → Partition) : (s.modPart k f).tick = s.tick := rfl
@[simp] theorem State.modPart_tickAt (s : State) (k : Nat) (f : Partition → Partition) : (s.modPart k f).tickAt = s.tickAt := rfl
@[simp] theorem State.modPart_cur (s : State) (k : Nat) (f : Partition → Partition) : (s.modPart k f).cur = s.cur := rfl
@[simp] theorem State.modPart_clock (s : State) (k : Nat) (f : Partition → Partition) : (s.modPart k f).clock = s.clock := rfl
@[simp] theorem State.modPart_nextId (s : State) (k : Nat) (f : Partition → Partition) : (s.modPart k f).nextId = s.nextId := rfl
@[simp] theorem State.modPart_groups (s : State) (k : Nat) (f : Partition → Partition) : (s.modPart k f).groups = s.groups := rfl
@[simp] theorem State.modPart_blocks (s : State) (k : Nat) (f : Partition → Partition) : (s.modPart k f).blocks = s.blocks := rfl
@[simp] theorem State.modPart_patches (s : State) (k : Nat) (f : Partition → Partition) : (s.modPart k f).patches = s.patches := rfl
@[simp] theorem State.modPart_launches (s : State) (k : Nat) (f : Partition → Partition) : (s.modPart k f).launches = s.launches := rfl
@[simp] theorem State.modPart_eps (s : State) (k : Nat) (f : Partition → Partition) : (s.modPart k f).eps = s.eps := rfl
@[simp] theorem State.modPart_chains (s : State) (k : Nat) (f : Partition → Partition) : (s.modPart k f).chains = s.chains := rfl
@[simp] theorem State.modPart_mem (s : State) (k : Nat) (f : Partition → Partition) : (s.modPart k f).mem = s.mem := rfl
@[simp] theorem State.modPart_co (s : State) (k : Nat) (f : Partition → Partition) : (s.modPart k f).co = s.co := rfl
@[simp] theorem State.modPart_sb (s : State) (k : Nat) (f : Partition → Partition) : (s.modPart k f).sb = s.sb := rfl
@[simp] theorem State.modPart_lstore (s : State) (k : Nat) (f : Partition → Partition) : (s.modPart k f).lstore = s.lstore := rfl
@[simp] theorem State.modPart_live (s : State) (k : Nat) (f : Partition → Partition) : (s.modPart k f).live = s.live := rfl
@[simp] theorem State.modPart_dirty (s : State) (k : Nat) (f : Partition → Partition) : (s.modPart k f).dirty = s.dirty := rfl
@[simp] theorem State.modPart_objViews (s : State) (k : Nat) (f : Partition → Partition) : (s.modPart k f).objViews = s.objViews := rfl
@[simp] theorem State.modPart_objDue (s : State) (k : Nat) (f : Partition → Partition) : (s.modPart k f).objDue = s.objDue := rfl
@[simp] theorem State.modPart_objLate (s : State) (k : Nat) (f : Partition → Partition) : (s.modPart k f).objLate = s.objLate := rfl
@[simp] theorem State.modPart_tlb (s : State) (k : Nat) (f : Partition → Partition) : (s.modPart k f).tlb = s.tlb := rfl
@[simp] theorem State.modPart_faults (s : State) (k : Nat) (f : Partition → Partition) : (s.modPart k f).faults = s.faults := rfl
@[simp] theorem State.modPart_cmds (s : State) (k : Nat) (f : Partition → Partition) : (s.modPart k f).cmds = s.cmds := rfl
@[simp] theorem State.modPart_arrays (s : State) (k : Nat) (f : Partition → Partition) : (s.modPart k f).arrays = s.arrays := rfl
@[simp] theorem State.modPart_ckrel (s : State) (k : Nat) (f : Partition → Partition) : (s.modPart k f).ckrel = s.ckrel := rfl
@[simp] theorem State.modPart_ckabs (s : State) (k : Nat) (f : Partition → Partition) : (s.modPart k f).ckabs = s.ckabs := rfl
@[simp] theorem State.modPart_ckfix (s : State) (k : Nat) (f : Partition → Partition) : (s.modPart k f).ckfix = s.ckfix := rfl
@[simp] theorem State.modPart_transit (s : State) (k : Nat) (f : Partition → Partition) : (s.modPart k f).transit = s.transit := rfl
@[simp] theorem State.modPart_moves (s : State) (k : Nat) (f : Partition → Partition) : (s.modPart k f).moves = s.moves := rfl
@[simp] theorem State.modPart_flushes (s : State) (k : Nat) (f : Partition → Partition) : (s.modPart k f).flushes = s.flushes := rfl
@[simp] theorem State.modPart_flushErrs (s : State) (k : Nat) (f : Partition → Partition) : (s.modPart k f).flushErrs = s.flushErrs := rfl
@[simp] theorem State.modPart_cacheFloors (s : State) (k : Nat) (f : Partition → Partition) : (s.modPart k f).cacheFloors = s.cacheFloors := rfl
@[simp] theorem State.modPart_images (s : State) (k : Nat) (f : Partition → Partition) : (s.modPart k f).images = s.images := rfl
@[simp] theorem State.modPart_parked (s : State) (k : Nat) (f : Partition → Partition) : (s.modPart k f).parked = s.parked := rfl
@[simp] theorem State.modPart_errs (s : State) (k : Nat) (f : Partition → Partition) : (s.modPart k f).errs = s.errs := rfl
@[simp] theorem State.modPart_uncorr (s : State) (k : Nat) (f : Partition → Partition) : (s.modPart k f).uncorr = s.uncorr := rfl
@[simp] theorem State.modPart_coef (s : State) (k : Nat) (f : Partition → Partition) : (s.modPart k f).coef = s.coef := rfl
@[simp] theorem State.modPart_rakeLen (s : State) (k : Nat) (f : Partition → Partition) : (s.modPart k f).rakeLen = s.rakeLen := rfl
@[simp] theorem State.modPart_rakeCnt (s : State) (k : Nat) (f : Partition → Partition) : (s.modPart k f).rakeCnt = s.rakeCnt := rfl
@[simp] theorem State.modPart_rakeAt (s : State) (k : Nat) (f : Partition → Partition) : (s.modPart k f).rakeAt = s.rakeAt := rfl
@[simp] theorem State.modPart_holes (s : State) (k : Nat) (f : Partition → Partition) : (s.modPart k f).holes = s.holes := rfl
@[simp] theorem State.modPart_fusedOff (s : State) (k : Nat) (f : Partition → Partition) : (s.modPart k f).fusedOff = s.fusedOff := rfl
@[simp] theorem State.modPart_mailbox (s : State) (k : Nat) (f : Partition → Partition) : (s.modPart k f).mailbox = s.mailbox := rfl
@[simp] theorem State.modPart_fw0 (s : State) (k : Nat) (f : Partition → Partition) : (s.modPart k f).fw0 = s.fw0 := rfl
@[simp] theorem State.modPart_fw1 (s : State) (k : Nat) (f : Partition → Partition) : (s.modPart k f).fw1 = s.fw1 := rfl
@[simp] theorem State.modPart_fwActive (s : State) (k : Nat) (f : Partition → Partition) : (s.modPart k f).fwActive = s.fwActive := rfl
@[simp] theorem State.modPart_fwCounter (s : State) (k : Nat) (f : Partition → Partition) : (s.modPart k f).fwCounter = s.fwCounter := rfl
@[simp] theorem State.modPart_fwPending (s : State) (k : Nat) (f : Partition → Partition) : (s.modPart k f).fwPending = s.fwPending := rfl
@[simp] theorem State.modPart_capped (s : State) (k : Nat) (f : Partition → Partition) : (s.modPart k f).capped = s.capped := rfl
@[simp] theorem State.modPart_overWin (s : State) (k : Nat) (f : Partition → Partition) : (s.modPart k f).overWin = s.overWin := rfl
@[simp] theorem State.modPart_underWin (s : State) (k : Nat) (f : Partition → Partition) : (s.modPart k f).underWin = s.underWin := rfl
@[simp] theorem State.modPart_pairIn (s : State) (k : Nat) (f : Partition → Partition) : (s.modPart k f).pairIn = s.pairIn := rfl
@[simp] theorem State.modPart_peerCounts (s : State) (k : Nat) (f : Partition → Partition) : (s.modPart k f).peerCounts = s.peerCounts := rfl
@[simp] theorem State.modPart_sigs (s : State) (k : Nat) (f : Partition → Partition) : (s.modPart k f).sigs = s.sigs := rfl
@[simp] theorem State.modPart_irqs (s : State) (k : Nat) (f : Partition → Partition) : (s.modPart k f).irqs = s.irqs := rfl
@[simp] theorem State.modPart_net (s : State) (k : Nat) (f : Partition → Partition) : (s.modPart k f).net = s.net := rfl
@[simp] theorem State.modPart_spdm (s : State) (k : Nat) (f : Partition → Partition) : (s.modPart k f).spdm = s.spdm := rfl
@[simp] theorem State.modPart_powered (s : State) (k : Nat) (f : Partition → Partition) : (s.modPart k f).powered = s.powered := rfl
@[simp] theorem State.modPart_peerDigest (s : State) (k : Nat) (f : Partition → Partition) : (s.modPart k f).peerDigest = s.peerDigest := rfl

/-! ### `State.modTenant` -/

@[simp] theorem State.modTenant_agenda (s : State) (p t : Nat) (f : Tenant → Tenant) : (s.modTenant p t f).agenda = s.agenda := rfl
@[simp] theorem State.modTenant_tick (s : State) (p t : Nat) (f : Tenant → Tenant) : (s.modTenant p t f).tick = s.tick := rfl
@[simp] theorem State.modTenant_tickAt (s : State) (p t : Nat) (f : Tenant → Tenant) : (s.modTenant p t f).tickAt = s.tickAt := rfl
@[simp] theorem State.modTenant_cur (s : State) (p t : Nat) (f : Tenant → Tenant) : (s.modTenant p t f).cur = s.cur := rfl
@[simp] theorem State.modTenant_clock (s : State) (p t : Nat) (f : Tenant → Tenant) : (s.modTenant p t f).clock = s.clock := rfl
@[simp] theorem State.modTenant_nextId (s : State) (p t : Nat) (f : Tenant → Tenant) : (s.modTenant p t f).nextId = s.nextId := rfl
@[simp] theorem State.modTenant_groups (s : State) (p t : Nat) (f : Tenant → Tenant) : (s.modTenant p t f).groups = s.groups := rfl
@[simp] theorem State.modTenant_blocks (s : State) (p t : Nat) (f : Tenant → Tenant) : (s.modTenant p t f).blocks = s.blocks := rfl
@[simp] theorem State.modTenant_patches (s : State) (p t : Nat) (f : Tenant → Tenant) : (s.modTenant p t f).patches = s.patches := rfl
@[simp] theorem State.modTenant_launches (s : State) (p t : Nat) (f : Tenant → Tenant) : (s.modTenant p t f).launches = s.launches := rfl
@[simp] theorem State.modTenant_eps (s : State) (p t : Nat) (f : Tenant → Tenant) : (s.modTenant p t f).eps = s.eps := rfl
@[simp] theorem State.modTenant_chains (s : State) (p t : Nat) (f : Tenant → Tenant) : (s.modTenant p t f).chains = s.chains := rfl
@[simp] theorem State.modTenant_mem (s : State) (p t : Nat) (f : Tenant → Tenant) : (s.modTenant p t f).mem = s.mem := rfl
@[simp] theorem State.modTenant_co (s : State) (p t : Nat) (f : Tenant → Tenant) : (s.modTenant p t f).co = s.co := rfl
@[simp] theorem State.modTenant_sb (s : State) (p t : Nat) (f : Tenant → Tenant) : (s.modTenant p t f).sb = s.sb := rfl
@[simp] theorem State.modTenant_lstore (s : State) (p t : Nat) (f : Tenant → Tenant) : (s.modTenant p t f).lstore = s.lstore := rfl
@[simp] theorem State.modTenant_live (s : State) (p t : Nat) (f : Tenant → Tenant) : (s.modTenant p t f).live = s.live := rfl
@[simp] theorem State.modTenant_dirty (s : State) (p t : Nat) (f : Tenant → Tenant) : (s.modTenant p t f).dirty = s.dirty := rfl
@[simp] theorem State.modTenant_objViews (s : State) (p t : Nat) (f : Tenant → Tenant) : (s.modTenant p t f).objViews = s.objViews := rfl
@[simp] theorem State.modTenant_objDue (s : State) (p t : Nat) (f : Tenant → Tenant) : (s.modTenant p t f).objDue = s.objDue := rfl
@[simp] theorem State.modTenant_objLate (s : State) (p t : Nat) (f : Tenant → Tenant) : (s.modTenant p t f).objLate = s.objLate := rfl
@[simp] theorem State.modTenant_tlb (s : State) (p t : Nat) (f : Tenant → Tenant) : (s.modTenant p t f).tlb = s.tlb := rfl
@[simp] theorem State.modTenant_faults (s : State) (p t : Nat) (f : Tenant → Tenant) : (s.modTenant p t f).faults = s.faults := rfl
@[simp] theorem State.modTenant_cmds (s : State) (p t : Nat) (f : Tenant → Tenant) : (s.modTenant p t f).cmds = s.cmds := rfl
@[simp] theorem State.modTenant_arrays (s : State) (p t : Nat) (f : Tenant → Tenant) : (s.modTenant p t f).arrays = s.arrays := rfl
@[simp] theorem State.modTenant_ckrel (s : State) (p t : Nat) (f : Tenant → Tenant) : (s.modTenant p t f).ckrel = s.ckrel := rfl
@[simp] theorem State.modTenant_ckabs (s : State) (p t : Nat) (f : Tenant → Tenant) : (s.modTenant p t f).ckabs = s.ckabs := rfl
@[simp] theorem State.modTenant_ckfix (s : State) (p t : Nat) (f : Tenant → Tenant) : (s.modTenant p t f).ckfix = s.ckfix := rfl
@[simp] theorem State.modTenant_transit (s : State) (p t : Nat) (f : Tenant → Tenant) : (s.modTenant p t f).transit = s.transit := rfl
@[simp] theorem State.modTenant_moves (s : State) (p t : Nat) (f : Tenant → Tenant) : (s.modTenant p t f).moves = s.moves := rfl
@[simp] theorem State.modTenant_flushes (s : State) (p t : Nat) (f : Tenant → Tenant) : (s.modTenant p t f).flushes = s.flushes := rfl
@[simp] theorem State.modTenant_flushErrs (s : State) (p t : Nat) (f : Tenant → Tenant) : (s.modTenant p t f).flushErrs = s.flushErrs := rfl
@[simp] theorem State.modTenant_cacheFloors (s : State) (p t : Nat) (f : Tenant → Tenant) : (s.modTenant p t f).cacheFloors = s.cacheFloors := rfl
@[simp] theorem State.modTenant_images (s : State) (p t : Nat) (f : Tenant → Tenant) : (s.modTenant p t f).images = s.images := rfl
@[simp] theorem State.modTenant_parked (s : State) (p t : Nat) (f : Tenant → Tenant) : (s.modTenant p t f).parked = s.parked := rfl
@[simp] theorem State.modTenant_errs (s : State) (p t : Nat) (f : Tenant → Tenant) : (s.modTenant p t f).errs = s.errs := rfl
@[simp] theorem State.modTenant_uncorr (s : State) (p t : Nat) (f : Tenant → Tenant) : (s.modTenant p t f).uncorr = s.uncorr := rfl
@[simp] theorem State.modTenant_coef (s : State) (p t : Nat) (f : Tenant → Tenant) : (s.modTenant p t f).coef = s.coef := rfl
@[simp] theorem State.modTenant_rakeLen (s : State) (p t : Nat) (f : Tenant → Tenant) : (s.modTenant p t f).rakeLen = s.rakeLen := rfl
@[simp] theorem State.modTenant_rakeCnt (s : State) (p t : Nat) (f : Tenant → Tenant) : (s.modTenant p t f).rakeCnt = s.rakeCnt := rfl
@[simp] theorem State.modTenant_rakeAt (s : State) (p t : Nat) (f : Tenant → Tenant) : (s.modTenant p t f).rakeAt = s.rakeAt := rfl
@[simp] theorem State.modTenant_holes (s : State) (p t : Nat) (f : Tenant → Tenant) : (s.modTenant p t f).holes = s.holes := rfl
@[simp] theorem State.modTenant_fusedOff (s : State) (p t : Nat) (f : Tenant → Tenant) : (s.modTenant p t f).fusedOff = s.fusedOff := rfl
@[simp] theorem State.modTenant_mailbox (s : State) (p t : Nat) (f : Tenant → Tenant) : (s.modTenant p t f).mailbox = s.mailbox := rfl
@[simp] theorem State.modTenant_fw0 (s : State) (p t : Nat) (f : Tenant → Tenant) : (s.modTenant p t f).fw0 = s.fw0 := rfl
@[simp] theorem State.modTenant_fw1 (s : State) (p t : Nat) (f : Tenant → Tenant) : (s.modTenant p t f).fw1 = s.fw1 := rfl
@[simp] theorem State.modTenant_fwActive (s : State) (p t : Nat) (f : Tenant → Tenant) : (s.modTenant p t f).fwActive = s.fwActive := rfl
@[simp] theorem State.modTenant_fwCounter (s : State) (p t : Nat) (f : Tenant → Tenant) : (s.modTenant p t f).fwCounter = s.fwCounter := rfl
@[simp] theorem State.modTenant_fwPending (s : State) (p t : Nat) (f : Tenant → Tenant) : (s.modTenant p t f).fwPending = s.fwPending := rfl
@[simp] theorem State.modTenant_capped (s : State) (p t : Nat) (f : Tenant → Tenant) : (s.modTenant p t f).capped = s.capped := rfl
@[simp] theorem State.modTenant_overWin (s : State) (p t : Nat) (f : Tenant → Tenant) : (s.modTenant p t f).overWin = s.overWin := rfl
@[simp] theorem State.modTenant_underWin (s : State) (p t : Nat) (f : Tenant → Tenant) : (s.modTenant p t f).underWin = s.underWin := rfl
@[simp] theorem State.modTenant_pairIn (s : State) (p t : Nat) (f : Tenant → Tenant) : (s.modTenant p t f).pairIn = s.pairIn := rfl
@[simp] theorem State.modTenant_peerCounts (s : State) (p t : Nat) (f : Tenant → Tenant) : (s.modTenant p t f).peerCounts = s.peerCounts := rfl
@[simp] theorem State.modTenant_sigs (s : State) (p t : Nat) (f : Tenant → Tenant) : (s.modTenant p t f).sigs = s.sigs := rfl
@[simp] theorem State.modTenant_irqs (s : State) (p t : Nat) (f : Tenant → Tenant) : (s.modTenant p t f).irqs = s.irqs := rfl
@[simp] theorem State.modTenant_net (s : State) (p t : Nat) (f : Tenant → Tenant) : (s.modTenant p t f).net = s.net := rfl
@[simp] theorem State.modTenant_spdm (s : State) (p t : Nat) (f : Tenant → Tenant) : (s.modTenant p t f).spdm = s.spdm := rfl
@[simp] theorem State.modTenant_powered (s : State) (p t : Nat) (f : Tenant → Tenant) : (s.modTenant p t f).powered = s.powered := rfl
@[simp] theorem State.modTenant_peerDigest (s : State) (p t : Nat) (f : Tenant → Tenant) : (s.modTenant p t f).peerDigest = s.peerDigest := rfl

/-! ### `State.modSlot` -/

@[simp] theorem State.modSlot_agenda (s : State) (p k : Nat) (f : Slot → Slot) : (s.modSlot p k f).agenda = s.agenda := rfl
@[simp] theorem State.modSlot_tick (s : State) (p k : Nat) (f : Slot → Slot) : (s.modSlot p k f).tick = s.tick := rfl
@[simp] theorem State.modSlot_tickAt (s : State) (p k : Nat) (f : Slot → Slot) : (s.modSlot p k f).tickAt = s.tickAt := rfl
@[simp] theorem State.modSlot_cur (s : State) (p k : Nat) (f : Slot → Slot) : (s.modSlot p k f).cur = s.cur := rfl
@[simp] theorem State.modSlot_clock (s : State) (p k : Nat) (f : Slot → Slot) : (s.modSlot p k f).clock = s.clock := rfl
@[simp] theorem State.modSlot_nextId (s : State) (p k : Nat) (f : Slot → Slot) : (s.modSlot p k f).nextId = s.nextId := rfl
@[simp] theorem State.modSlot_groups (s : State) (p k : Nat) (f : Slot → Slot) : (s.modSlot p k f).groups = s.groups := rfl
@[simp] theorem State.modSlot_blocks (s : State) (p k : Nat) (f : Slot → Slot) : (s.modSlot p k f).blocks = s.blocks := rfl
@[simp] theorem State.modSlot_patches (s : State) (p k : Nat) (f : Slot → Slot) : (s.modSlot p k f).patches = s.patches := rfl
@[simp] theorem State.modSlot_launches (s : State) (p k : Nat) (f : Slot → Slot) : (s.modSlot p k f).launches = s.launches := rfl
@[simp] theorem State.modSlot_eps (s : State) (p k : Nat) (f : Slot → Slot) : (s.modSlot p k f).eps = s.eps := rfl
@[simp] theorem State.modSlot_chains (s : State) (p k : Nat) (f : Slot → Slot) : (s.modSlot p k f).chains = s.chains := rfl
@[simp] theorem State.modSlot_mem (s : State) (p k : Nat) (f : Slot → Slot) : (s.modSlot p k f).mem = s.mem := rfl
@[simp] theorem State.modSlot_co (s : State) (p k : Nat) (f : Slot → Slot) : (s.modSlot p k f).co = s.co := rfl
@[simp] theorem State.modSlot_sb (s : State) (p k : Nat) (f : Slot → Slot) : (s.modSlot p k f).sb = s.sb := rfl
@[simp] theorem State.modSlot_lstore (s : State) (p k : Nat) (f : Slot → Slot) : (s.modSlot p k f).lstore = s.lstore := rfl
@[simp] theorem State.modSlot_live (s : State) (p k : Nat) (f : Slot → Slot) : (s.modSlot p k f).live = s.live := rfl
@[simp] theorem State.modSlot_dirty (s : State) (p k : Nat) (f : Slot → Slot) : (s.modSlot p k f).dirty = s.dirty := rfl
@[simp] theorem State.modSlot_objViews (s : State) (p k : Nat) (f : Slot → Slot) : (s.modSlot p k f).objViews = s.objViews := rfl
@[simp] theorem State.modSlot_objDue (s : State) (p k : Nat) (f : Slot → Slot) : (s.modSlot p k f).objDue = s.objDue := rfl
@[simp] theorem State.modSlot_objLate (s : State) (p k : Nat) (f : Slot → Slot) : (s.modSlot p k f).objLate = s.objLate := rfl
@[simp] theorem State.modSlot_tlb (s : State) (p k : Nat) (f : Slot → Slot) : (s.modSlot p k f).tlb = s.tlb := rfl
@[simp] theorem State.modSlot_faults (s : State) (p k : Nat) (f : Slot → Slot) : (s.modSlot p k f).faults = s.faults := rfl
@[simp] theorem State.modSlot_cmds (s : State) (p k : Nat) (f : Slot → Slot) : (s.modSlot p k f).cmds = s.cmds := rfl
@[simp] theorem State.modSlot_arrays (s : State) (p k : Nat) (f : Slot → Slot) : (s.modSlot p k f).arrays = s.arrays := rfl
@[simp] theorem State.modSlot_ckrel (s : State) (p k : Nat) (f : Slot → Slot) : (s.modSlot p k f).ckrel = s.ckrel := rfl
@[simp] theorem State.modSlot_ckabs (s : State) (p k : Nat) (f : Slot → Slot) : (s.modSlot p k f).ckabs = s.ckabs := rfl
@[simp] theorem State.modSlot_ckfix (s : State) (p k : Nat) (f : Slot → Slot) : (s.modSlot p k f).ckfix = s.ckfix := rfl
@[simp] theorem State.modSlot_transit (s : State) (p k : Nat) (f : Slot → Slot) : (s.modSlot p k f).transit = s.transit := rfl
@[simp] theorem State.modSlot_moves (s : State) (p k : Nat) (f : Slot → Slot) : (s.modSlot p k f).moves = s.moves := rfl
@[simp] theorem State.modSlot_flushes (s : State) (p k : Nat) (f : Slot → Slot) : (s.modSlot p k f).flushes = s.flushes := rfl
@[simp] theorem State.modSlot_flushErrs (s : State) (p k : Nat) (f : Slot → Slot) : (s.modSlot p k f).flushErrs = s.flushErrs := rfl
@[simp] theorem State.modSlot_cacheFloors (s : State) (p k : Nat) (f : Slot → Slot) : (s.modSlot p k f).cacheFloors = s.cacheFloors := rfl
@[simp] theorem State.modSlot_images (s : State) (p k : Nat) (f : Slot → Slot) : (s.modSlot p k f).images = s.images := rfl
@[simp] theorem State.modSlot_parked (s : State) (p k : Nat) (f : Slot → Slot) : (s.modSlot p k f).parked = s.parked := rfl
@[simp] theorem State.modSlot_errs (s : State) (p k : Nat) (f : Slot → Slot) : (s.modSlot p k f).errs = s.errs := rfl
@[simp] theorem State.modSlot_uncorr (s : State) (p k : Nat) (f : Slot → Slot) : (s.modSlot p k f).uncorr = s.uncorr := rfl
@[simp] theorem State.modSlot_coef (s : State) (p k : Nat) (f : Slot → Slot) : (s.modSlot p k f).coef = s.coef := rfl
@[simp] theorem State.modSlot_rakeLen (s : State) (p k : Nat) (f : Slot → Slot) : (s.modSlot p k f).rakeLen = s.rakeLen := rfl
@[simp] theorem State.modSlot_rakeCnt (s : State) (p k : Nat) (f : Slot → Slot) : (s.modSlot p k f).rakeCnt = s.rakeCnt := rfl
@[simp] theorem State.modSlot_rakeAt (s : State) (p k : Nat) (f : Slot → Slot) : (s.modSlot p k f).rakeAt = s.rakeAt := rfl
@[simp] theorem State.modSlot_holes (s : State) (p k : Nat) (f : Slot → Slot) : (s.modSlot p k f).holes = s.holes := rfl
@[simp] theorem State.modSlot_fusedOff (s : State) (p k : Nat) (f : Slot → Slot) : (s.modSlot p k f).fusedOff = s.fusedOff := rfl
@[simp] theorem State.modSlot_mailbox (s : State) (p k : Nat) (f : Slot → Slot) : (s.modSlot p k f).mailbox = s.mailbox := rfl
@[simp] theorem State.modSlot_fw0 (s : State) (p k : Nat) (f : Slot → Slot) : (s.modSlot p k f).fw0 = s.fw0 := rfl
@[simp] theorem State.modSlot_fw1 (s : State) (p k : Nat) (f : Slot → Slot) : (s.modSlot p k f).fw1 = s.fw1 := rfl
@[simp] theorem State.modSlot_fwActive (s : State) (p k : Nat) (f : Slot → Slot) : (s.modSlot p k f).fwActive = s.fwActive := rfl
@[simp] theorem State.modSlot_fwCounter (s : State) (p k : Nat) (f : Slot → Slot) : (s.modSlot p k f).fwCounter = s.fwCounter := rfl
@[simp] theorem State.modSlot_fwPending (s : State) (p k : Nat) (f : Slot → Slot) : (s.modSlot p k f).fwPending = s.fwPending := rfl
@[simp] theorem State.modSlot_capped (s : State) (p k : Nat) (f : Slot → Slot) : (s.modSlot p k f).capped = s.capped := rfl
@[simp] theorem State.modSlot_overWin (s : State) (p k : Nat) (f : Slot → Slot) : (s.modSlot p k f).overWin = s.overWin := rfl
@[simp] theorem State.modSlot_underWin (s : State) (p k : Nat) (f : Slot → Slot) : (s.modSlot p k f).underWin = s.underWin := rfl
@[simp] theorem State.modSlot_pairIn (s : State) (p k : Nat) (f : Slot → Slot) : (s.modSlot p k f).pairIn = s.pairIn := rfl
@[simp] theorem State.modSlot_peerCounts (s : State) (p k : Nat) (f : Slot → Slot) : (s.modSlot p k f).peerCounts = s.peerCounts := rfl
@[simp] theorem State.modSlot_sigs (s : State) (p k : Nat) (f : Slot → Slot) : (s.modSlot p k f).sigs = s.sigs := rfl
@[simp] theorem State.modSlot_irqs (s : State) (p k : Nat) (f : Slot → Slot) : (s.modSlot p k f).irqs = s.irqs := rfl
@[simp] theorem State.modSlot_net (s : State) (p k : Nat) (f : Slot → Slot) : (s.modSlot p k f).net = s.net := rfl
@[simp] theorem State.modSlot_spdm (s : State) (p k : Nat) (f : Slot → Slot) : (s.modSlot p k f).spdm = s.spdm := rfl
@[simp] theorem State.modSlot_powered (s : State) (p k : Nat) (f : Slot → Slot) : (s.modSlot p k f).powered = s.powered := rfl
@[simp] theorem State.modSlot_peerDigest (s : State) (p k : Nat) (f : Slot → Slot) : (s.modSlot p k f).peerDigest = s.peerDigest := rfl

/-! ### `State.modEp` -/

@[simp] theorem State.modEp_agenda (s : State) (e : Nat) (f : EpSt → EpSt) : (s.modEp e f).agenda = s.agenda := rfl
@[simp] theorem State.modEp_tick (s : State) (e : Nat) (f : EpSt → EpSt) : (s.modEp e f).tick = s.tick := rfl
@[simp] theorem State.modEp_tickAt (s : State) (e : Nat) (f : EpSt → EpSt) : (s.modEp e f).tickAt = s.tickAt := rfl
@[simp] theorem State.modEp_cur (s : State) (e : Nat) (f : EpSt → EpSt) : (s.modEp e f).cur = s.cur := rfl
@[simp] theorem State.modEp_clock (s : State) (e : Nat) (f : EpSt → EpSt) : (s.modEp e f).clock = s.clock := rfl
@[simp] theorem State.modEp_nextId (s : State) (e : Nat) (f : EpSt → EpSt) : (s.modEp e f).nextId = s.nextId := rfl
@[simp] theorem State.modEp_groups (s : State) (e : Nat) (f : EpSt → EpSt) : (s.modEp e f).groups = s.groups := rfl
@[simp] theorem State.modEp_blocks (s : State) (e : Nat) (f : EpSt → EpSt) : (s.modEp e f).blocks = s.blocks := rfl
@[simp] theorem State.modEp_patches (s : State) (e : Nat) (f : EpSt → EpSt) : (s.modEp e f).patches = s.patches := rfl
@[simp] theorem State.modEp_launches (s : State) (e : Nat) (f : EpSt → EpSt) : (s.modEp e f).launches = s.launches := rfl
@[simp] theorem State.modEp_parts (s : State) (e : Nat) (f : EpSt → EpSt) : (s.modEp e f).parts = s.parts := rfl
@[simp] theorem State.modEp_chains (s : State) (e : Nat) (f : EpSt → EpSt) : (s.modEp e f).chains = s.chains := rfl
@[simp] theorem State.modEp_mem (s : State) (e : Nat) (f : EpSt → EpSt) : (s.modEp e f).mem = s.mem := rfl
@[simp] theorem State.modEp_co (s : State) (e : Nat) (f : EpSt → EpSt) : (s.modEp e f).co = s.co := rfl
@[simp] theorem State.modEp_sb (s : State) (e : Nat) (f : EpSt → EpSt) : (s.modEp e f).sb = s.sb := rfl
@[simp] theorem State.modEp_lstore (s : State) (e : Nat) (f : EpSt → EpSt) : (s.modEp e f).lstore = s.lstore := rfl
@[simp] theorem State.modEp_live (s : State) (e : Nat) (f : EpSt → EpSt) : (s.modEp e f).live = s.live := rfl
@[simp] theorem State.modEp_dirty (s : State) (e : Nat) (f : EpSt → EpSt) : (s.modEp e f).dirty = s.dirty := rfl
@[simp] theorem State.modEp_objViews (s : State) (e : Nat) (f : EpSt → EpSt) : (s.modEp e f).objViews = s.objViews := rfl
@[simp] theorem State.modEp_objDue (s : State) (e : Nat) (f : EpSt → EpSt) : (s.modEp e f).objDue = s.objDue := rfl
@[simp] theorem State.modEp_objLate (s : State) (e : Nat) (f : EpSt → EpSt) : (s.modEp e f).objLate = s.objLate := rfl
@[simp] theorem State.modEp_tlb (s : State) (e : Nat) (f : EpSt → EpSt) : (s.modEp e f).tlb = s.tlb := rfl
@[simp] theorem State.modEp_faults (s : State) (e : Nat) (f : EpSt → EpSt) : (s.modEp e f).faults = s.faults := rfl
@[simp] theorem State.modEp_cmds (s : State) (e : Nat) (f : EpSt → EpSt) : (s.modEp e f).cmds = s.cmds := rfl
@[simp] theorem State.modEp_arrays (s : State) (e : Nat) (f : EpSt → EpSt) : (s.modEp e f).arrays = s.arrays := rfl
@[simp] theorem State.modEp_ckrel (s : State) (e : Nat) (f : EpSt → EpSt) : (s.modEp e f).ckrel = s.ckrel := rfl
@[simp] theorem State.modEp_ckabs (s : State) (e : Nat) (f : EpSt → EpSt) : (s.modEp e f).ckabs = s.ckabs := rfl
@[simp] theorem State.modEp_ckfix (s : State) (e : Nat) (f : EpSt → EpSt) : (s.modEp e f).ckfix = s.ckfix := rfl
@[simp] theorem State.modEp_transit (s : State) (e : Nat) (f : EpSt → EpSt) : (s.modEp e f).transit = s.transit := rfl
@[simp] theorem State.modEp_moves (s : State) (e : Nat) (f : EpSt → EpSt) : (s.modEp e f).moves = s.moves := rfl
@[simp] theorem State.modEp_flushes (s : State) (e : Nat) (f : EpSt → EpSt) : (s.modEp e f).flushes = s.flushes := rfl
@[simp] theorem State.modEp_flushErrs (s : State) (e : Nat) (f : EpSt → EpSt) : (s.modEp e f).flushErrs = s.flushErrs := rfl
@[simp] theorem State.modEp_cacheFloors (s : State) (e : Nat) (f : EpSt → EpSt) : (s.modEp e f).cacheFloors = s.cacheFloors := rfl
@[simp] theorem State.modEp_images (s : State) (e : Nat) (f : EpSt → EpSt) : (s.modEp e f).images = s.images := rfl
@[simp] theorem State.modEp_parked (s : State) (e : Nat) (f : EpSt → EpSt) : (s.modEp e f).parked = s.parked := rfl
@[simp] theorem State.modEp_errs (s : State) (e : Nat) (f : EpSt → EpSt) : (s.modEp e f).errs = s.errs := rfl
@[simp] theorem State.modEp_uncorr (s : State) (e : Nat) (f : EpSt → EpSt) : (s.modEp e f).uncorr = s.uncorr := rfl
@[simp] theorem State.modEp_coef (s : State) (e : Nat) (f : EpSt → EpSt) : (s.modEp e f).coef = s.coef := rfl
@[simp] theorem State.modEp_rakeLen (s : State) (e : Nat) (f : EpSt → EpSt) : (s.modEp e f).rakeLen = s.rakeLen := rfl
@[simp] theorem State.modEp_rakeCnt (s : State) (e : Nat) (f : EpSt → EpSt) : (s.modEp e f).rakeCnt = s.rakeCnt := rfl
@[simp] theorem State.modEp_rakeAt (s : State) (e : Nat) (f : EpSt → EpSt) : (s.modEp e f).rakeAt = s.rakeAt := rfl
@[simp] theorem State.modEp_holes (s : State) (e : Nat) (f : EpSt → EpSt) : (s.modEp e f).holes = s.holes := rfl
@[simp] theorem State.modEp_fusedOff (s : State) (e : Nat) (f : EpSt → EpSt) : (s.modEp e f).fusedOff = s.fusedOff := rfl
@[simp] theorem State.modEp_mailbox (s : State) (e : Nat) (f : EpSt → EpSt) : (s.modEp e f).mailbox = s.mailbox := rfl
@[simp] theorem State.modEp_fw0 (s : State) (e : Nat) (f : EpSt → EpSt) : (s.modEp e f).fw0 = s.fw0 := rfl
@[simp] theorem State.modEp_fw1 (s : State) (e : Nat) (f : EpSt → EpSt) : (s.modEp e f).fw1 = s.fw1 := rfl
@[simp] theorem State.modEp_fwActive (s : State) (e : Nat) (f : EpSt → EpSt) : (s.modEp e f).fwActive = s.fwActive := rfl
@[simp] theorem State.modEp_fwCounter (s : State) (e : Nat) (f : EpSt → EpSt) : (s.modEp e f).fwCounter = s.fwCounter := rfl
@[simp] theorem State.modEp_fwPending (s : State) (e : Nat) (f : EpSt → EpSt) : (s.modEp e f).fwPending = s.fwPending := rfl
@[simp] theorem State.modEp_capped (s : State) (e : Nat) (f : EpSt → EpSt) : (s.modEp e f).capped = s.capped := rfl
@[simp] theorem State.modEp_overWin (s : State) (e : Nat) (f : EpSt → EpSt) : (s.modEp e f).overWin = s.overWin := rfl
@[simp] theorem State.modEp_underWin (s : State) (e : Nat) (f : EpSt → EpSt) : (s.modEp e f).underWin = s.underWin := rfl
@[simp] theorem State.modEp_pairIn (s : State) (e : Nat) (f : EpSt → EpSt) : (s.modEp e f).pairIn = s.pairIn := rfl
@[simp] theorem State.modEp_peerCounts (s : State) (e : Nat) (f : EpSt → EpSt) : (s.modEp e f).peerCounts = s.peerCounts := rfl
@[simp] theorem State.modEp_sigs (s : State) (e : Nat) (f : EpSt → EpSt) : (s.modEp e f).sigs = s.sigs := rfl
@[simp] theorem State.modEp_irqs (s : State) (e : Nat) (f : EpSt → EpSt) : (s.modEp e f).irqs = s.irqs := rfl
@[simp] theorem State.modEp_net (s : State) (e : Nat) (f : EpSt → EpSt) : (s.modEp e f).net = s.net := rfl
@[simp] theorem State.modEp_spdm (s : State) (e : Nat) (f : EpSt → EpSt) : (s.modEp e f).spdm = s.spdm := rfl
@[simp] theorem State.modEp_powered (s : State) (e : Nat) (f : EpSt → EpSt) : (s.modEp e f).powered = s.powered := rfl
@[simp] theorem State.modEp_peerDigest (s : State) (e : Nat) (f : EpSt → EpSt) : (s.modEp e f).peerDigest = s.peerDigest := rfl

/-! ### `State.modArray` -/

@[simp] theorem State.modArray_agenda (s : State) (k : Nat) (f : ArrayU → ArrayU) : (s.modArray k f).agenda = s.agenda := rfl
@[simp] theorem State.modArray_tick (s : State) (k : Nat) (f : ArrayU → ArrayU) : (s.modArray k f).tick = s.tick := rfl
@[simp] theorem State.modArray_tickAt (s : State) (k : Nat) (f : ArrayU → ArrayU) : (s.modArray k f).tickAt = s.tickAt := rfl
@[simp] theorem State.modArray_cur (s : State) (k : Nat) (f : ArrayU → ArrayU) : (s.modArray k f).cur = s.cur := rfl
@[simp] theorem State.modArray_clock (s : State) (k : Nat) (f : ArrayU → ArrayU) : (s.modArray k f).clock = s.clock := rfl
@[simp] theorem State.modArray_nextId (s : State) (k : Nat) (f : ArrayU → ArrayU) : (s.modArray k f).nextId = s.nextId := rfl
@[simp] theorem State.modArray_groups (s : State) (k : Nat) (f : ArrayU → ArrayU) : (s.modArray k f).groups = s.groups := rfl
@[simp] theorem State.modArray_blocks (s : State) (k : Nat) (f : ArrayU → ArrayU) : (s.modArray k f).blocks = s.blocks := rfl
@[simp] theorem State.modArray_patches (s : State) (k : Nat) (f : ArrayU → ArrayU) : (s.modArray k f).patches = s.patches := rfl
@[simp] theorem State.modArray_launches (s : State) (k : Nat) (f : ArrayU → ArrayU) : (s.modArray k f).launches = s.launches := rfl
@[simp] theorem State.modArray_parts (s : State) (k : Nat) (f : ArrayU → ArrayU) : (s.modArray k f).parts = s.parts := rfl
@[simp] theorem State.modArray_eps (s : State) (k : Nat) (f : ArrayU → ArrayU) : (s.modArray k f).eps = s.eps := rfl
@[simp] theorem State.modArray_chains (s : State) (k : Nat) (f : ArrayU → ArrayU) : (s.modArray k f).chains = s.chains := rfl
@[simp] theorem State.modArray_mem (s : State) (k : Nat) (f : ArrayU → ArrayU) : (s.modArray k f).mem = s.mem := rfl
@[simp] theorem State.modArray_co (s : State) (k : Nat) (f : ArrayU → ArrayU) : (s.modArray k f).co = s.co := rfl
@[simp] theorem State.modArray_sb (s : State) (k : Nat) (f : ArrayU → ArrayU) : (s.modArray k f).sb = s.sb := rfl
@[simp] theorem State.modArray_lstore (s : State) (k : Nat) (f : ArrayU → ArrayU) : (s.modArray k f).lstore = s.lstore := rfl
@[simp] theorem State.modArray_live (s : State) (k : Nat) (f : ArrayU → ArrayU) : (s.modArray k f).live = s.live := rfl
@[simp] theorem State.modArray_dirty (s : State) (k : Nat) (f : ArrayU → ArrayU) : (s.modArray k f).dirty = s.dirty := rfl
@[simp] theorem State.modArray_objViews (s : State) (k : Nat) (f : ArrayU → ArrayU) : (s.modArray k f).objViews = s.objViews := rfl
@[simp] theorem State.modArray_objDue (s : State) (k : Nat) (f : ArrayU → ArrayU) : (s.modArray k f).objDue = s.objDue := rfl
@[simp] theorem State.modArray_objLate (s : State) (k : Nat) (f : ArrayU → ArrayU) : (s.modArray k f).objLate = s.objLate := rfl
@[simp] theorem State.modArray_tlb (s : State) (k : Nat) (f : ArrayU → ArrayU) : (s.modArray k f).tlb = s.tlb := rfl
@[simp] theorem State.modArray_faults (s : State) (k : Nat) (f : ArrayU → ArrayU) : (s.modArray k f).faults = s.faults := rfl
@[simp] theorem State.modArray_cmds (s : State) (k : Nat) (f : ArrayU → ArrayU) : (s.modArray k f).cmds = s.cmds := rfl
@[simp] theorem State.modArray_ckrel (s : State) (k : Nat) (f : ArrayU → ArrayU) : (s.modArray k f).ckrel = s.ckrel := rfl
@[simp] theorem State.modArray_ckabs (s : State) (k : Nat) (f : ArrayU → ArrayU) : (s.modArray k f).ckabs = s.ckabs := rfl
@[simp] theorem State.modArray_ckfix (s : State) (k : Nat) (f : ArrayU → ArrayU) : (s.modArray k f).ckfix = s.ckfix := rfl
@[simp] theorem State.modArray_transit (s : State) (k : Nat) (f : ArrayU → ArrayU) : (s.modArray k f).transit = s.transit := rfl
@[simp] theorem State.modArray_moves (s : State) (k : Nat) (f : ArrayU → ArrayU) : (s.modArray k f).moves = s.moves := rfl
@[simp] theorem State.modArray_flushes (s : State) (k : Nat) (f : ArrayU → ArrayU) : (s.modArray k f).flushes = s.flushes := rfl
@[simp] theorem State.modArray_flushErrs (s : State) (k : Nat) (f : ArrayU → ArrayU) : (s.modArray k f).flushErrs = s.flushErrs := rfl
@[simp] theorem State.modArray_cacheFloors (s : State) (k : Nat) (f : ArrayU → ArrayU) : (s.modArray k f).cacheFloors = s.cacheFloors := rfl
@[simp] theorem State.modArray_images (s : State) (k : Nat) (f : ArrayU → ArrayU) : (s.modArray k f).images = s.images := rfl
@[simp] theorem State.modArray_parked (s : State) (k : Nat) (f : ArrayU → ArrayU) : (s.modArray k f).parked = s.parked := rfl
@[simp] theorem State.modArray_errs (s : State) (k : Nat) (f : ArrayU → ArrayU) : (s.modArray k f).errs = s.errs := rfl
@[simp] theorem State.modArray_uncorr (s : State) (k : Nat) (f : ArrayU → ArrayU) : (s.modArray k f).uncorr = s.uncorr := rfl
@[simp] theorem State.modArray_coef (s : State) (k : Nat) (f : ArrayU → ArrayU) : (s.modArray k f).coef = s.coef := rfl
@[simp] theorem State.modArray_rakeLen (s : State) (k : Nat) (f : ArrayU → ArrayU) : (s.modArray k f).rakeLen = s.rakeLen := rfl
@[simp] theorem State.modArray_rakeCnt (s : State) (k : Nat) (f : ArrayU → ArrayU) : (s.modArray k f).rakeCnt = s.rakeCnt := rfl
@[simp] theorem State.modArray_rakeAt (s : State) (k : Nat) (f : ArrayU → ArrayU) : (s.modArray k f).rakeAt = s.rakeAt := rfl
@[simp] theorem State.modArray_holes (s : State) (k : Nat) (f : ArrayU → ArrayU) : (s.modArray k f).holes = s.holes := rfl
@[simp] theorem State.modArray_fusedOff (s : State) (k : Nat) (f : ArrayU → ArrayU) : (s.modArray k f).fusedOff = s.fusedOff := rfl
@[simp] theorem State.modArray_mailbox (s : State) (k : Nat) (f : ArrayU → ArrayU) : (s.modArray k f).mailbox = s.mailbox := rfl
@[simp] theorem State.modArray_fw0 (s : State) (k : Nat) (f : ArrayU → ArrayU) : (s.modArray k f).fw0 = s.fw0 := rfl
@[simp] theorem State.modArray_fw1 (s : State) (k : Nat) (f : ArrayU → ArrayU) : (s.modArray k f).fw1 = s.fw1 := rfl
@[simp] theorem State.modArray_fwActive (s : State) (k : Nat) (f : ArrayU → ArrayU) : (s.modArray k f).fwActive = s.fwActive := rfl
@[simp] theorem State.modArray_fwCounter (s : State) (k : Nat) (f : ArrayU → ArrayU) : (s.modArray k f).fwCounter = s.fwCounter := rfl
@[simp] theorem State.modArray_fwPending (s : State) (k : Nat) (f : ArrayU → ArrayU) : (s.modArray k f).fwPending = s.fwPending := rfl
@[simp] theorem State.modArray_capped (s : State) (k : Nat) (f : ArrayU → ArrayU) : (s.modArray k f).capped = s.capped := rfl
@[simp] theorem State.modArray_overWin (s : State) (k : Nat) (f : ArrayU → ArrayU) : (s.modArray k f).overWin = s.overWin := rfl
@[simp] theorem State.modArray_underWin (s : State) (k : Nat) (f : ArrayU → ArrayU) : (s.modArray k f).underWin = s.underWin := rfl
@[simp] theorem State.modArray_pairIn (s : State) (k : Nat) (f : ArrayU → ArrayU) : (s.modArray k f).pairIn = s.pairIn := rfl
@[simp] theorem State.modArray_peerCounts (s : State) (k : Nat) (f : ArrayU → ArrayU) : (s.modArray k f).peerCounts = s.peerCounts := rfl
@[simp] theorem State.modArray_sigs (s : State) (k : Nat) (f : ArrayU → ArrayU) : (s.modArray k f).sigs = s.sigs := rfl
@[simp] theorem State.modArray_irqs (s : State) (k : Nat) (f : ArrayU → ArrayU) : (s.modArray k f).irqs = s.irqs := rfl
@[simp] theorem State.modArray_net (s : State) (k : Nat) (f : ArrayU → ArrayU) : (s.modArray k f).net = s.net := rfl
@[simp] theorem State.modArray_spdm (s : State) (k : Nat) (f : ArrayU → ArrayU) : (s.modArray k f).spdm = s.spdm := rfl
@[simp] theorem State.modArray_powered (s : State) (k : Nat) (f : ArrayU → ArrayU) : (s.modArray k f).powered = s.powered := rfl
@[simp] theorem State.modArray_peerDigest (s : State) (k : Nat) (f : ArrayU → ArrayU) : (s.modArray k f).peerDigest = s.peerDigest := rfl

/-! ### `State.setLsByte` -/

@[simp] theorem State.setLsByte_agenda (s : State) (e off : Nat) (b : Byte) : (s.setLsByte e off b).agenda = s.agenda := rfl
@[simp] theorem State.setLsByte_tick (s : State) (e off : Nat) (b : Byte) : (s.setLsByte e off b).tick = s.tick := rfl
@[simp] theorem State.setLsByte_tickAt (s : State) (e off : Nat) (b : Byte) : (s.setLsByte e off b).tickAt = s.tickAt := rfl
@[simp] theorem State.setLsByte_cur (s : State) (e off : Nat) (b : Byte) : (s.setLsByte e off b).cur = s.cur := rfl
@[simp] theorem State.setLsByte_clock (s : State) (e off : Nat) (b : Byte) : (s.setLsByte e off b).clock = s.clock := rfl
@[simp] theorem State.setLsByte_nextId (s : State) (e off : Nat) (b : Byte) : (s.setLsByte e off b).nextId = s.nextId := rfl
@[simp] theorem State.setLsByte_groups (s : State) (e off : Nat) (b : Byte) : (s.setLsByte e off b).groups = s.groups := rfl
@[simp] theorem State.setLsByte_blocks (s : State) (e off : Nat) (b : Byte) : (s.setLsByte e off b).blocks = s.blocks := rfl
@[simp] theorem State.setLsByte_patches (s : State) (e off : Nat) (b : Byte) : (s.setLsByte e off b).patches = s.patches := rfl
@[simp] theorem State.setLsByte_launches (s : State) (e off : Nat) (b : Byte) : (s.setLsByte e off b).launches = s.launches := rfl
@[simp] theorem State.setLsByte_parts (s : State) (e off : Nat) (b : Byte) : (s.setLsByte e off b).parts = s.parts := rfl
@[simp] theorem State.setLsByte_eps (s : State) (e off : Nat) (b : Byte) : (s.setLsByte e off b).eps = s.eps := rfl
@[simp] theorem State.setLsByte_chains (s : State) (e off : Nat) (b : Byte) : (s.setLsByte e off b).chains = s.chains := rfl
@[simp] theorem State.setLsByte_mem (s : State) (e off : Nat) (b : Byte) : (s.setLsByte e off b).mem = s.mem := rfl
@[simp] theorem State.setLsByte_co (s : State) (e off : Nat) (b : Byte) : (s.setLsByte e off b).co = s.co := rfl
@[simp] theorem State.setLsByte_sb (s : State) (e off : Nat) (b : Byte) : (s.setLsByte e off b).sb = s.sb := rfl
@[simp] theorem State.setLsByte_live (s : State) (e off : Nat) (b : Byte) : (s.setLsByte e off b).live = s.live := rfl
@[simp] theorem State.setLsByte_objViews (s : State) (e off : Nat) (b : Byte) : (s.setLsByte e off b).objViews = s.objViews := rfl
@[simp] theorem State.setLsByte_objDue (s : State) (e off : Nat) (b : Byte) : (s.setLsByte e off b).objDue = s.objDue := rfl
@[simp] theorem State.setLsByte_objLate (s : State) (e off : Nat) (b : Byte) : (s.setLsByte e off b).objLate = s.objLate := rfl
@[simp] theorem State.setLsByte_tlb (s : State) (e off : Nat) (b : Byte) : (s.setLsByte e off b).tlb = s.tlb := rfl
@[simp] theorem State.setLsByte_faults (s : State) (e off : Nat) (b : Byte) : (s.setLsByte e off b).faults = s.faults := rfl
@[simp] theorem State.setLsByte_cmds (s : State) (e off : Nat) (b : Byte) : (s.setLsByte e off b).cmds = s.cmds := rfl
@[simp] theorem State.setLsByte_arrays (s : State) (e off : Nat) (b : Byte) : (s.setLsByte e off b).arrays = s.arrays := rfl
@[simp] theorem State.setLsByte_ckrel (s : State) (e off : Nat) (b : Byte) : (s.setLsByte e off b).ckrel = s.ckrel := rfl
@[simp] theorem State.setLsByte_ckabs (s : State) (e off : Nat) (b : Byte) : (s.setLsByte e off b).ckabs = s.ckabs := rfl
@[simp] theorem State.setLsByte_ckfix (s : State) (e off : Nat) (b : Byte) : (s.setLsByte e off b).ckfix = s.ckfix := rfl
@[simp] theorem State.setLsByte_transit (s : State) (e off : Nat) (b : Byte) : (s.setLsByte e off b).transit = s.transit := rfl
@[simp] theorem State.setLsByte_moves (s : State) (e off : Nat) (b : Byte) : (s.setLsByte e off b).moves = s.moves := rfl
@[simp] theorem State.setLsByte_flushes (s : State) (e off : Nat) (b : Byte) : (s.setLsByte e off b).flushes = s.flushes := rfl
@[simp] theorem State.setLsByte_flushErrs (s : State) (e off : Nat) (b : Byte) : (s.setLsByte e off b).flushErrs = s.flushErrs := rfl
@[simp] theorem State.setLsByte_cacheFloors (s : State) (e off : Nat) (b : Byte) : (s.setLsByte e off b).cacheFloors = s.cacheFloors := rfl
@[simp] theorem State.setLsByte_images (s : State) (e off : Nat) (b : Byte) : (s.setLsByte e off b).images = s.images := rfl
@[simp] theorem State.setLsByte_parked (s : State) (e off : Nat) (b : Byte) : (s.setLsByte e off b).parked = s.parked := rfl
@[simp] theorem State.setLsByte_errs (s : State) (e off : Nat) (b : Byte) : (s.setLsByte e off b).errs = s.errs := rfl
@[simp] theorem State.setLsByte_uncorr (s : State) (e off : Nat) (b : Byte) : (s.setLsByte e off b).uncorr = s.uncorr := rfl
@[simp] theorem State.setLsByte_coef (s : State) (e off : Nat) (b : Byte) : (s.setLsByte e off b).coef = s.coef := rfl
@[simp] theorem State.setLsByte_rakeLen (s : State) (e off : Nat) (b : Byte) : (s.setLsByte e off b).rakeLen = s.rakeLen := rfl
@[simp] theorem State.setLsByte_rakeCnt (s : State) (e off : Nat) (b : Byte) : (s.setLsByte e off b).rakeCnt = s.rakeCnt := rfl
@[simp] theorem State.setLsByte_rakeAt (s : State) (e off : Nat) (b : Byte) : (s.setLsByte e off b).rakeAt = s.rakeAt := rfl
@[simp] theorem State.setLsByte_holes (s : State) (e off : Nat) (b : Byte) : (s.setLsByte e off b).holes = s.holes := rfl
@[simp] theorem State.setLsByte_fusedOff (s : State) (e off : Nat) (b : Byte) : (s.setLsByte e off b).fusedOff = s.fusedOff := rfl
@[simp] theorem State.setLsByte_mailbox (s : State) (e off : Nat) (b : Byte) : (s.setLsByte e off b).mailbox = s.mailbox := rfl
@[simp] theorem State.setLsByte_fw0 (s : State) (e off : Nat) (b : Byte) : (s.setLsByte e off b).fw0 = s.fw0 := rfl
@[simp] theorem State.setLsByte_fw1 (s : State) (e off : Nat) (b : Byte) : (s.setLsByte e off b).fw1 = s.fw1 := rfl
@[simp] theorem State.setLsByte_fwActive (s : State) (e off : Nat) (b : Byte) : (s.setLsByte e off b).fwActive = s.fwActive := rfl
@[simp] theorem State.setLsByte_fwCounter (s : State) (e off : Nat) (b : Byte) : (s.setLsByte e off b).fwCounter = s.fwCounter := rfl
@[simp] theorem State.setLsByte_fwPending (s : State) (e off : Nat) (b : Byte) : (s.setLsByte e off b).fwPending = s.fwPending := rfl
@[simp] theorem State.setLsByte_capped (s : State) (e off : Nat) (b : Byte) : (s.setLsByte e off b).capped = s.capped := rfl
@[simp] theorem State.setLsByte_overWin (s : State) (e off : Nat) (b : Byte) : (s.setLsByte e off b).overWin = s.overWin := rfl
@[simp] theorem State.setLsByte_underWin (s : State) (e off : Nat) (b : Byte) : (s.setLsByte e off b).underWin = s.underWin := rfl
@[simp] theorem State.setLsByte_pairIn (s : State) (e off : Nat) (b : Byte) : (s.setLsByte e off b).pairIn = s.pairIn := rfl
@[simp] theorem State.setLsByte_peerCounts (s : State) (e off : Nat) (b : Byte) : (s.setLsByte e off b).peerCounts = s.peerCounts := rfl
@[simp] theorem State.setLsByte_sigs (s : State) (e off : Nat) (b : Byte) : (s.setLsByte e off b).sigs = s.sigs := rfl
@[simp] theorem State.setLsByte_irqs (s : State) (e off : Nat) (b : Byte) : (s.setLsByte e off b).irqs = s.irqs := rfl
@[simp] theorem State.setLsByte_net (s : State) (e off : Nat) (b : Byte) : (s.setLsByte e off b).net = s.net := rfl
@[simp] theorem State.setLsByte_spdm (s : State) (e off : Nat) (b : Byte) : (s.setLsByte e off b).spdm = s.spdm := rfl
@[simp] theorem State.setLsByte_powered (s : State) (e off : Nat) (b : Byte) : (s.setLsByte e off b).powered = s.powered := rfl
@[simp] theorem State.setLsByte_peerDigest (s : State) (e off : Nat) (b : Byte) : (s.setLsByte e off b).peerDigest = s.peerDigest := rfl

/-! ### `State.setLive` -/

@[simp] theorem State.setLive_agenda (s : State) (e off : Nat) (b : Bool) : (s.setLive e off b).agenda = s.agenda := rfl
@[simp] theorem State.setLive_tick (s : State) (e off : Nat) (b : Bool) : (s.setLive e off b).tick = s.tick := rfl
@[simp] theorem State.setLive_tickAt (s : State) (e off : Nat) (b : Bool) : (s.setLive e off b).tickAt = s.tickAt := rfl
@[simp] theorem State.setLive_cur (s : State) (e off : Nat) (b : Bool) : (s.setLive e off b).cur = s.cur := rfl
@[simp] theorem State.setLive_clock (s : State) (e off : Nat) (b : Bool) : (s.setLive e off b).clock = s.clock := rfl
@[simp] theorem State.setLive_nextId (s : State) (e off : Nat) (b : Bool) : (s.setLive e off b).nextId = s.nextId := rfl
@[simp] theorem State.setLive_groups (s : State) (e off : Nat) (b : Bool) : (s.setLive e off b).groups = s.groups := rfl
@[simp] theorem State.setLive_blocks (s : State) (e off : Nat) (b : Bool) : (s.setLive e off b).blocks = s.blocks := rfl
@[simp] theorem State.setLive_patches (s : State) (e off : Nat) (b : Bool) : (s.setLive e off b).patches = s.patches := rfl
@[simp] theorem State.setLive_launches (s : State) (e off : Nat) (b : Bool) : (s.setLive e off b).launches = s.launches := rfl
@[simp] theorem State.setLive_parts (s : State) (e off : Nat) (b : Bool) : (s.setLive e off b).parts = s.parts := rfl
@[simp] theorem State.setLive_eps (s : State) (e off : Nat) (b : Bool) : (s.setLive e off b).eps = s.eps := rfl
@[simp] theorem State.setLive_chains (s : State) (e off : Nat) (b : Bool) : (s.setLive e off b).chains = s.chains := rfl
@[simp] theorem State.setLive_mem (s : State) (e off : Nat) (b : Bool) : (s.setLive e off b).mem = s.mem := rfl
@[simp] theorem State.setLive_co (s : State) (e off : Nat) (b : Bool) : (s.setLive e off b).co = s.co := rfl
@[simp] theorem State.setLive_sb (s : State) (e off : Nat) (b : Bool) : (s.setLive e off b).sb = s.sb := rfl
@[simp] theorem State.setLive_lstore (s : State) (e off : Nat) (b : Bool) : (s.setLive e off b).lstore = s.lstore := rfl
@[simp] theorem State.setLive_dirty (s : State) (e off : Nat) (b : Bool) : (s.setLive e off b).dirty = s.dirty := rfl
@[simp] theorem State.setLive_objViews (s : State) (e off : Nat) (b : Bool) : (s.setLive e off b).objViews = s.objViews := rfl
@[simp] theorem State.setLive_objDue (s : State) (e off : Nat) (b : Bool) : (s.setLive e off b).objDue = s.objDue := rfl
@[simp] theorem State.setLive_objLate (s : State) (e off : Nat) (b : Bool) : (s.setLive e off b).objLate = s.objLate := rfl
@[simp] theorem State.setLive_tlb (s : State) (e off : Nat) (b : Bool) : (s.setLive e off b).tlb = s.tlb := rfl
@[simp] theorem State.setLive_faults (s : State) (e off : Nat) (b : Bool) : (s.setLive e off b).faults = s.faults := rfl
@[simp] theorem State.setLive_cmds (s : State) (e off : Nat) (b : Bool) : (s.setLive e off b).cmds = s.cmds := rfl
@[simp] theorem State.setLive_arrays (s : State) (e off : Nat) (b : Bool) : (s.setLive e off b).arrays = s.arrays := rfl
@[simp] theorem State.setLive_ckrel (s : State) (e off : Nat) (b : Bool) : (s.setLive e off b).ckrel = s.ckrel := rfl
@[simp] theorem State.setLive_ckabs (s : State) (e off : Nat) (b : Bool) : (s.setLive e off b).ckabs = s.ckabs := rfl
@[simp] theorem State.setLive_ckfix (s : State) (e off : Nat) (b : Bool) : (s.setLive e off b).ckfix = s.ckfix := rfl
@[simp] theorem State.setLive_transit (s : State) (e off : Nat) (b : Bool) : (s.setLive e off b).transit = s.transit := rfl
@[simp] theorem State.setLive_moves (s : State) (e off : Nat) (b : Bool) : (s.setLive e off b).moves = s.moves := rfl
@[simp] theorem State.setLive_flushes (s : State) (e off : Nat) (b : Bool) : (s.setLive e off b).flushes = s.flushes := rfl
@[simp] theorem State.setLive_flushErrs (s : State) (e off : Nat) (b : Bool) : (s.setLive e off b).flushErrs = s.flushErrs := rfl
@[simp] theorem State.setLive_cacheFloors (s : State) (e off : Nat) (b : Bool) : (s.setLive e off b).cacheFloors = s.cacheFloors := rfl
@[simp] theorem State.setLive_images (s : State) (e off : Nat) (b : Bool) : (s.setLive e off b).images = s.images := rfl
@[simp] theorem State.setLive_parked (s : State) (e off : Nat) (b : Bool) : (s.setLive e off b).parked = s.parked := rfl
@[simp] theorem State.setLive_errs (s : State) (e off : Nat) (b : Bool) : (s.setLive e off b).errs = s.errs := rfl
@[simp] theorem State.setLive_uncorr (s : State) (e off : Nat) (b : Bool) : (s.setLive e off b).uncorr = s.uncorr := rfl
@[simp] theorem State.setLive_coef (s : State) (e off : Nat) (b : Bool) : (s.setLive e off b).coef = s.coef := rfl
@[simp] theorem State.setLive_rakeLen (s : State) (e off : Nat) (b : Bool) : (s.setLive e off b).rakeLen = s.rakeLen := rfl
@[simp] theorem State.setLive_rakeCnt (s : State) (e off : Nat) (b : Bool) : (s.setLive e off b).rakeCnt = s.rakeCnt := rfl
@[simp] theorem State.setLive_rakeAt (s : State) (e off : Nat) (b : Bool) : (s.setLive e off b).rakeAt = s.rakeAt := rfl
@[simp] theorem State.setLive_holes (s : State) (e off : Nat) (b : Bool) : (s.setLive e off b).holes = s.holes := rfl
@[simp] theorem State.setLive_fusedOff (s : State) (e off : Nat) (b : Bool) : (s.setLive e off b).fusedOff = s.fusedOff := rfl
@[simp] theorem State.setLive_mailbox (s : State) (e off : Nat) (b : Bool) : (s.setLive e off b).mailbox = s.mailbox := rfl
@[simp] theorem State.setLive_fw0 (s : State) (e off : Nat) (b : Bool) : (s.setLive e off b).fw0 = s.fw0 := rfl
@[simp] theorem State.setLive_fw1 (s : State) (e off : Nat) (b : Bool) : (s.setLive e off b).fw1 = s.fw1 := rfl
@[simp] theorem State.setLive_fwActive (s : State) (e off : Nat) (b : Bool) : (s.setLive e off b).fwActive = s.fwActive := rfl
@[simp] theorem State.setLive_fwCounter (s : State) (e off : Nat) (b : Bool) : (s.setLive e off b).fwCounter = s.fwCounter := rfl
@[simp] theorem State.setLive_fwPending (s : State) (e off : Nat) (b : Bool) : (s.setLive e off b).fwPending = s.fwPending := rfl
@[simp] theorem State.setLive_capped (s : State) (e off : Nat) (b : Bool) : (s.setLive e off b).capped = s.capped := rfl
@[simp] theorem State.setLive_overWin (s : State) (e off : Nat) (b : Bool) : (s.setLive e off b).overWin = s.overWin := rfl
@[simp] theorem State.setLive_underWin (s : State) (e off : Nat) (b : Bool) : (s.setLive e off b).underWin = s.underWin := rfl
@[simp] theorem State.setLive_pairIn (s : State) (e off : Nat) (b : Bool) : (s.setLive e off b).pairIn = s.pairIn := rfl
@[simp] theorem State.setLive_peerCounts (s : State) (e off : Nat) (b : Bool) : (s.setLive e off b).peerCounts = s.peerCounts := rfl
@[simp] theorem State.setLive_sigs (s : State) (e off : Nat) (b : Bool) : (s.setLive e off b).sigs = s.sigs := rfl
@[simp] theorem State.setLive_irqs (s : State) (e off : Nat) (b : Bool) : (s.setLive e off b).irqs = s.irqs := rfl
@[simp] theorem State.setLive_net (s : State) (e off : Nat) (b : Bool) : (s.setLive e off b).net = s.net := rfl
@[simp] theorem State.setLive_spdm (s : State) (e off : Nat) (b : Bool) : (s.setLive e off b).spdm = s.spdm := rfl
@[simp] theorem State.setLive_powered (s : State) (e off : Nat) (b : Bool) : (s.setLive e off b).powered = s.powered := rfl
@[simp] theorem State.setLive_peerDigest (s : State) (e off : Nat) (b : Bool) : (s.setLive e off b).peerDigest = s.peerDigest := rfl

/-! ### `State.sendIrq` -/

@[simp] theorem State.sendIrq_agenda (s : State) (k p a b : Nat) : (s.sendIrq k p a b).agenda = s.agenda := rfl
@[simp] theorem State.sendIrq_tick (s : State) (k p a b : Nat) : (s.sendIrq k p a b).tick = s.tick := rfl
@[simp] theorem State.sendIrq_tickAt (s : State) (k p a b : Nat) : (s.sendIrq k p a b).tickAt = s.tickAt := rfl
@[simp] theorem State.sendIrq_cur (s : State) (k p a b : Nat) : (s.sendIrq k p a b).cur = s.cur := rfl
@[simp] theorem State.sendIrq_clock (s : State) (k p a b : Nat) : (s.sendIrq k p a b).clock = s.clock := rfl
@[simp] theorem State.sendIrq_nextId (s : State) (k p a b : Nat) : (s.sendIrq k p a b).nextId = s.nextId := rfl
@[simp] theorem State.sendIrq_groups (s : State) (k p a b : Nat) : (s.sendIrq k p a b).groups = s.groups := rfl
@[simp] theorem State.sendIrq_blocks (s : State) (k p a b : Nat) : (s.sendIrq k p a b).blocks = s.blocks := rfl
@[simp] theorem State.sendIrq_patches (s : State) (k p a b : Nat) : (s.sendIrq k p a b).patches = s.patches := rfl
@[simp] theorem State.sendIrq_launches (s : State) (k p a b : Nat) : (s.sendIrq k p a b).launches = s.launches := rfl
@[simp] theorem State.sendIrq_parts (s : State) (k p a b : Nat) : (s.sendIrq k p a b).parts = s.parts := rfl
@[simp] theorem State.sendIrq_eps (s : State) (k p a b : Nat) : (s.sendIrq k p a b).eps = s.eps := rfl
@[simp] theorem State.sendIrq_chains (s : State) (k p a b : Nat) : (s.sendIrq k p a b).chains = s.chains := rfl
@[simp] theorem State.sendIrq_mem (s : State) (k p a b : Nat) : (s.sendIrq k p a b).mem = s.mem := rfl
@[simp] theorem State.sendIrq_co (s : State) (k p a b : Nat) : (s.sendIrq k p a b).co = s.co := rfl
@[simp] theorem State.sendIrq_sb (s : State) (k p a b : Nat) : (s.sendIrq k p a b).sb = s.sb := rfl
@[simp] theorem State.sendIrq_lstore (s : State) (k p a b : Nat) : (s.sendIrq k p a b).lstore = s.lstore := rfl
@[simp] theorem State.sendIrq_live (s : State) (k p a b : Nat) : (s.sendIrq k p a b).live = s.live := rfl
@[simp] theorem State.sendIrq_dirty (s : State) (k p a b : Nat) : (s.sendIrq k p a b).dirty = s.dirty := rfl
@[simp] theorem State.sendIrq_objViews (s : State) (k p a b : Nat) : (s.sendIrq k p a b).objViews = s.objViews := rfl
@[simp] theorem State.sendIrq_objDue (s : State) (k p a b : Nat) : (s.sendIrq k p a b).objDue = s.objDue := rfl
@[simp] theorem State.sendIrq_objLate (s : State) (k p a b : Nat) : (s.sendIrq k p a b).objLate = s.objLate := rfl
@[simp] theorem State.sendIrq_tlb (s : State) (k p a b : Nat) : (s.sendIrq k p a b).tlb = s.tlb := rfl
@[simp] theorem State.sendIrq_faults (s : State) (k p a b : Nat) : (s.sendIrq k p a b).faults = s.faults := rfl
@[simp] theorem State.sendIrq_cmds (s : State) (k p a b : Nat) : (s.sendIrq k p a b).cmds = s.cmds := rfl
@[simp] theorem State.sendIrq_arrays (s : State) (k p a b : Nat) : (s.sendIrq k p a b).arrays = s.arrays := rfl
@[simp] theorem State.sendIrq_ckrel (s : State) (k p a b : Nat) : (s.sendIrq k p a b).ckrel = s.ckrel := rfl
@[simp] theorem State.sendIrq_ckabs (s : State) (k p a b : Nat) : (s.sendIrq k p a b).ckabs = s.ckabs := rfl
@[simp] theorem State.sendIrq_ckfix (s : State) (k p a b : Nat) : (s.sendIrq k p a b).ckfix = s.ckfix := rfl
@[simp] theorem State.sendIrq_transit (s : State) (k p a b : Nat) : (s.sendIrq k p a b).transit = s.transit := rfl
@[simp] theorem State.sendIrq_moves (s : State) (k p a b : Nat) : (s.sendIrq k p a b).moves = s.moves := rfl
@[simp] theorem State.sendIrq_flushes (s : State) (k p a b : Nat) : (s.sendIrq k p a b).flushes = s.flushes := rfl
@[simp] theorem State.sendIrq_flushErrs (s : State) (k p a b : Nat) : (s.sendIrq k p a b).flushErrs = s.flushErrs := rfl
@[simp] theorem State.sendIrq_cacheFloors (s : State) (k p a b : Nat) : (s.sendIrq k p a b).cacheFloors = s.cacheFloors := rfl
@[simp] theorem State.sendIrq_images (s : State) (k p a b : Nat) : (s.sendIrq k p a b).images = s.images := rfl
@[simp] theorem State.sendIrq_parked (s : State) (k p a b : Nat) : (s.sendIrq k p a b).parked = s.parked := rfl
@[simp] theorem State.sendIrq_errs (s : State) (k p a b : Nat) : (s.sendIrq k p a b).errs = s.errs := rfl
@[simp] theorem State.sendIrq_uncorr (s : State) (k p a b : Nat) : (s.sendIrq k p a b).uncorr = s.uncorr := rfl
@[simp] theorem State.sendIrq_coef (s : State) (k p a b : Nat) : (s.sendIrq k p a b).coef = s.coef := rfl
@[simp] theorem State.sendIrq_rakeLen (s : State) (k p a b : Nat) : (s.sendIrq k p a b).rakeLen = s.rakeLen := rfl
@[simp] theorem State.sendIrq_rakeCnt (s : State) (k p a b : Nat) : (s.sendIrq k p a b).rakeCnt = s.rakeCnt := rfl
@[simp] theorem State.sendIrq_rakeAt (s : State) (k p a b : Nat) : (s.sendIrq k p a b).rakeAt = s.rakeAt := rfl
@[simp] theorem State.sendIrq_holes (s : State) (k p a b : Nat) : (s.sendIrq k p a b).holes = s.holes := rfl
@[simp] theorem State.sendIrq_fusedOff (s : State) (k p a b : Nat) : (s.sendIrq k p a b).fusedOff = s.fusedOff := rfl
@[simp] theorem State.sendIrq_mailbox (s : State) (k p a b : Nat) : (s.sendIrq k p a b).mailbox = s.mailbox := rfl
@[simp] theorem State.sendIrq_fw0 (s : State) (k p a b : Nat) : (s.sendIrq k p a b).fw0 = s.fw0 := rfl
@[simp] theorem State.sendIrq_fw1 (s : State) (k p a b : Nat) : (s.sendIrq k p a b).fw1 = s.fw1 := rfl
@[simp] theorem State.sendIrq_fwActive (s : State) (k p a b : Nat) : (s.sendIrq k p a b).fwActive = s.fwActive := rfl
@[simp] theorem State.sendIrq_fwCounter (s : State) (k p a b : Nat) : (s.sendIrq k p a b).fwCounter = s.fwCounter := rfl
@[simp] theorem State.sendIrq_fwPending (s : State) (k p a b : Nat) : (s.sendIrq k p a b).fwPending = s.fwPending := rfl
@[simp] theorem State.sendIrq_capped (s : State) (k p a b : Nat) : (s.sendIrq k p a b).capped = s.capped := rfl
@[simp] theorem State.sendIrq_overWin (s : State) (k p a b : Nat) : (s.sendIrq k p a b).overWin = s.overWin := rfl
@[simp] theorem State.sendIrq_underWin (s : State) (k p a b : Nat) : (s.sendIrq k p a b).underWin = s.underWin := rfl
@[simp] theorem State.sendIrq_pairIn (s : State) (k p a b : Nat) : (s.sendIrq k p a b).pairIn = s.pairIn := rfl
@[simp] theorem State.sendIrq_peerCounts (s : State) (k p a b : Nat) : (s.sendIrq k p a b).peerCounts = s.peerCounts := rfl
@[simp] theorem State.sendIrq_sigs (s : State) (k p a b : Nat) : (s.sendIrq k p a b).sigs = s.sigs := rfl
@[simp] theorem State.sendIrq_net (s : State) (k p a b : Nat) : (s.sendIrq k p a b).net = s.net := rfl
@[simp] theorem State.sendIrq_spdm (s : State) (k p a b : Nat) : (s.sendIrq k p a b).spdm = s.spdm := rfl
@[simp] theorem State.sendIrq_powered (s : State) (k p a b : Nat) : (s.sendIrq k p a b).powered = s.powered := rfl
@[simp] theorem State.sendIrq_peerDigest (s : State) (k p a b : Nat) : (s.sendIrq k p a b).peerDigest = s.peerDigest := rfl

/-! ### `State.drainWrite` -/

@[simp] theorem State.drainWrite_agenda (s : State) (id : Nat) (w : Who) (l : Scope) (bs : List WByte) (vs : List View) : (s.drainWrite id w l bs vs).agenda = s.agenda := rfl
@[simp] theorem State.drainWrite_tick (s : State) (id : Nat) (w : Who) (l : Scope) (bs : List WByte) (vs : List View) : (s.drainWrite id w l bs vs).tick = s.tick := rfl
@[simp] theorem State.drainWrite_tickAt (s : State) (id : Nat) (w : Who) (l : Scope) (bs : List WByte) (vs : List View) : (s.drainWrite id w l bs vs).tickAt = s.tickAt := rfl
@[simp] theorem State.drainWrite_cur (s : State) (id : Nat) (w : Who) (l : Scope) (bs : List WByte) (vs : List View) : (s.drainWrite id w l bs vs).cur = s.cur := rfl
@[simp] theorem State.drainWrite_clock (s : State) (id : Nat) (w : Who) (l : Scope) (bs : List WByte) (vs : List View) : (s.drainWrite id w l bs vs).clock = s.clock := rfl
@[simp] theorem State.drainWrite_nextId (s : State) (id : Nat) (w : Who) (l : Scope) (bs : List WByte) (vs : List View) : (s.drainWrite id w l bs vs).nextId = s.nextId := rfl
@[simp] theorem State.drainWrite_groups (s : State) (id : Nat) (w : Who) (l : Scope) (bs : List WByte) (vs : List View) : (s.drainWrite id w l bs vs).groups = s.groups := rfl
@[simp] theorem State.drainWrite_blocks (s : State) (id : Nat) (w : Who) (l : Scope) (bs : List WByte) (vs : List View) : (s.drainWrite id w l bs vs).blocks = s.blocks := rfl
@[simp] theorem State.drainWrite_patches (s : State) (id : Nat) (w : Who) (l : Scope) (bs : List WByte) (vs : List View) : (s.drainWrite id w l bs vs).patches = s.patches := rfl
@[simp] theorem State.drainWrite_launches (s : State) (id : Nat) (w : Who) (l : Scope) (bs : List WByte) (vs : List View) : (s.drainWrite id w l bs vs).launches = s.launches := rfl
@[simp] theorem State.drainWrite_parts (s : State) (id : Nat) (w : Who) (l : Scope) (bs : List WByte) (vs : List View) : (s.drainWrite id w l bs vs).parts = s.parts := rfl
@[simp] theorem State.drainWrite_eps (s : State) (id : Nat) (w : Who) (l : Scope) (bs : List WByte) (vs : List View) : (s.drainWrite id w l bs vs).eps = s.eps := rfl
@[simp] theorem State.drainWrite_chains (s : State) (id : Nat) (w : Who) (l : Scope) (bs : List WByte) (vs : List View) : (s.drainWrite id w l bs vs).chains = s.chains := rfl
@[simp] theorem State.drainWrite_sb (s : State) (id : Nat) (w : Who) (l : Scope) (bs : List WByte) (vs : List View) : (s.drainWrite id w l bs vs).sb = s.sb := rfl
@[simp] theorem State.drainWrite_lstore (s : State) (id : Nat) (w : Who) (l : Scope) (bs : List WByte) (vs : List View) : (s.drainWrite id w l bs vs).lstore = s.lstore := rfl
@[simp] theorem State.drainWrite_live (s : State) (id : Nat) (w : Who) (l : Scope) (bs : List WByte) (vs : List View) : (s.drainWrite id w l bs vs).live = s.live := rfl
@[simp] theorem State.drainWrite_dirty (s : State) (id : Nat) (w : Who) (l : Scope) (bs : List WByte) (vs : List View) : (s.drainWrite id w l bs vs).dirty = s.dirty := rfl
@[simp] theorem State.drainWrite_objViews (s : State) (id : Nat) (w : Who) (l : Scope) (bs : List WByte) (vs : List View) : (s.drainWrite id w l bs vs).objViews = s.objViews := rfl
@[simp] theorem State.drainWrite_objDue (s : State) (id : Nat) (w : Who) (l : Scope) (bs : List WByte) (vs : List View) : (s.drainWrite id w l bs vs).objDue = s.objDue := rfl
@[simp] theorem State.drainWrite_objLate (s : State) (id : Nat) (w : Who) (l : Scope) (bs : List WByte) (vs : List View) : (s.drainWrite id w l bs vs).objLate = s.objLate := rfl
@[simp] theorem State.drainWrite_tlb (s : State) (id : Nat) (w : Who) (l : Scope) (bs : List WByte) (vs : List View) : (s.drainWrite id w l bs vs).tlb = s.tlb := rfl
@[simp] theorem State.drainWrite_faults (s : State) (id : Nat) (w : Who) (l : Scope) (bs : List WByte) (vs : List View) : (s.drainWrite id w l bs vs).faults = s.faults := rfl
@[simp] theorem State.drainWrite_cmds (s : State) (id : Nat) (w : Who) (l : Scope) (bs : List WByte) (vs : List View) : (s.drainWrite id w l bs vs).cmds = s.cmds := rfl
@[simp] theorem State.drainWrite_arrays (s : State) (id : Nat) (w : Who) (l : Scope) (bs : List WByte) (vs : List View) : (s.drainWrite id w l bs vs).arrays = s.arrays := rfl
@[simp] theorem State.drainWrite_ckrel (s : State) (id : Nat) (w : Who) (l : Scope) (bs : List WByte) (vs : List View) : (s.drainWrite id w l bs vs).ckrel = s.ckrel := rfl
@[simp] theorem State.drainWrite_ckabs (s : State) (id : Nat) (w : Who) (l : Scope) (bs : List WByte) (vs : List View) : (s.drainWrite id w l bs vs).ckabs = s.ckabs := rfl
@[simp] theorem State.drainWrite_ckfix (s : State) (id : Nat) (w : Who) (l : Scope) (bs : List WByte) (vs : List View) : (s.drainWrite id w l bs vs).ckfix = s.ckfix := rfl
@[simp] theorem State.drainWrite_transit (s : State) (id : Nat) (w : Who) (l : Scope) (bs : List WByte) (vs : List View) : (s.drainWrite id w l bs vs).transit = s.transit := rfl
@[simp] theorem State.drainWrite_moves (s : State) (id : Nat) (w : Who) (l : Scope) (bs : List WByte) (vs : List View) : (s.drainWrite id w l bs vs).moves = s.moves := rfl
@[simp] theorem State.drainWrite_flushes (s : State) (id : Nat) (w : Who) (l : Scope) (bs : List WByte) (vs : List View) : (s.drainWrite id w l bs vs).flushes = s.flushes := rfl
@[simp] theorem State.drainWrite_flushErrs (s : State) (id : Nat) (w : Who) (l : Scope) (bs : List WByte) (vs : List View) : (s.drainWrite id w l bs vs).flushErrs = s.flushErrs := rfl
@[simp] theorem State.drainWrite_cacheFloors (s : State) (id : Nat) (w : Who) (l : Scope) (bs : List WByte) (vs : List View) : (s.drainWrite id w l bs vs).cacheFloors = s.cacheFloors := rfl
@[simp] theorem State.drainWrite_images (s : State) (id : Nat) (w : Who) (l : Scope) (bs : List WByte) (vs : List View) : (s.drainWrite id w l bs vs).images = s.images := rfl
@[simp] theorem State.drainWrite_parked (s : State) (id : Nat) (w : Who) (l : Scope) (bs : List WByte) (vs : List View) : (s.drainWrite id w l bs vs).parked = s.parked := rfl
@[simp] theorem State.drainWrite_errs (s : State) (id : Nat) (w : Who) (l : Scope) (bs : List WByte) (vs : List View) : (s.drainWrite id w l bs vs).errs = s.errs := rfl
@[simp] theorem State.drainWrite_coef (s : State) (id : Nat) (w : Who) (l : Scope) (bs : List WByte) (vs : List View) : (s.drainWrite id w l bs vs).coef = s.coef := rfl
@[simp] theorem State.drainWrite_rakeLen (s : State) (id : Nat) (w : Who) (l : Scope) (bs : List WByte) (vs : List View) : (s.drainWrite id w l bs vs).rakeLen = s.rakeLen := rfl
@[simp] theorem State.drainWrite_rakeCnt (s : State) (id : Nat) (w : Who) (l : Scope) (bs : List WByte) (vs : List View) : (s.drainWrite id w l bs vs).rakeCnt = s.rakeCnt := rfl
@[simp] theorem State.drainWrite_rakeAt (s : State) (id : Nat) (w : Who) (l : Scope) (bs : List WByte) (vs : List View) : (s.drainWrite id w l bs vs).rakeAt = s.rakeAt := rfl
@[simp] theorem State.drainWrite_holes (s : State) (id : Nat) (w : Who) (l : Scope) (bs : List WByte) (vs : List View) : (s.drainWrite id w l bs vs).holes = s.holes := rfl
@[simp] theorem State.drainWrite_fusedOff (s : State) (id : Nat) (w : Who) (l : Scope) (bs : List WByte) (vs : List View) : (s.drainWrite id w l bs vs).fusedOff = s.fusedOff := rfl
@[simp] theorem State.drainWrite_mailbox (s : State) (id : Nat) (w : Who) (l : Scope) (bs : List WByte) (vs : List View) : (s.drainWrite id w l bs vs).mailbox = s.mailbox := rfl
@[simp] theorem State.drainWrite_fw0 (s : State) (id : Nat) (w : Who) (l : Scope) (bs : List WByte) (vs : List View) : (s.drainWrite id w l bs vs).fw0 = s.fw0 := rfl
@[simp] theorem State.drainWrite_fw1 (s : State) (id : Nat) (w : Who) (l : Scope) (bs : List WByte) (vs : List View) : (s.drainWrite id w l bs vs).fw1 = s.fw1 := rfl
@[simp] theorem State.drainWrite_fwActive (s : State) (id : Nat) (w : Who) (l : Scope) (bs : List WByte) (vs : List View) : (s.drainWrite id w l bs vs).fwActive = s.fwActive := rfl
@[simp] theorem State.drainWrite_fwCounter (s : State) (id : Nat) (w : Who) (l : Scope) (bs : List WByte) (vs : List View) : (s.drainWrite id w l bs vs).fwCounter = s.fwCounter := rfl
@[simp] theorem State.drainWrite_fwPending (s : State) (id : Nat) (w : Who) (l : Scope) (bs : List WByte) (vs : List View) : (s.drainWrite id w l bs vs).fwPending = s.fwPending := rfl
@[simp] theorem State.drainWrite_capped (s : State) (id : Nat) (w : Who) (l : Scope) (bs : List WByte) (vs : List View) : (s.drainWrite id w l bs vs).capped = s.capped := rfl
@[simp] theorem State.drainWrite_overWin (s : State) (id : Nat) (w : Who) (l : Scope) (bs : List WByte) (vs : List View) : (s.drainWrite id w l bs vs).overWin = s.overWin := rfl
@[simp] theorem State.drainWrite_underWin (s : State) (id : Nat) (w : Who) (l : Scope) (bs : List WByte) (vs : List View) : (s.drainWrite id w l bs vs).underWin = s.underWin := rfl
@[simp] theorem State.drainWrite_pairIn (s : State) (id : Nat) (w : Who) (l : Scope) (bs : List WByte) (vs : List View) : (s.drainWrite id w l bs vs).pairIn = s.pairIn := rfl
@[simp] theorem State.drainWrite_peerCounts (s : State) (id : Nat) (w : Who) (l : Scope) (bs : List WByte) (vs : List View) : (s.drainWrite id w l bs vs).peerCounts = s.peerCounts := rfl
@[simp] theorem State.drainWrite_sigs (s : State) (id : Nat) (w : Who) (l : Scope) (bs : List WByte) (vs : List View) : (s.drainWrite id w l bs vs).sigs = s.sigs := rfl
@[simp] theorem State.drainWrite_irqs (s : State) (id : Nat) (w : Who) (l : Scope) (bs : List WByte) (vs : List View) : (s.drainWrite id w l bs vs).irqs = s.irqs := rfl
@[simp] theorem State.drainWrite_net (s : State) (id : Nat) (w : Who) (l : Scope) (bs : List WByte) (vs : List View) : (s.drainWrite id w l bs vs).net = s.net := rfl
@[simp] theorem State.drainWrite_spdm (s : State) (id : Nat) (w : Who) (l : Scope) (bs : List WByte) (vs : List View) : (s.drainWrite id w l bs vs).spdm = s.spdm := rfl
@[simp] theorem State.drainWrite_powered (s : State) (id : Nat) (w : Who) (l : Scope) (bs : List WByte) (vs : List View) : (s.drainWrite id w l bs vs).powered = s.powered := rfl
@[simp] theorem State.drainWrite_peerDigest (s : State) (id : Nat) (w : Who) (l : Scope) (bs : List WByte) (vs : List View) : (s.drainWrite id w l bs vs).peerDigest = s.peerDigest := rfl

/-! ### `Group.setLane` -/

@[simp] theorem Group.setLane_id (g : Group) (r l : Nat) (w : Word32) : (g.setLane r l w).id = g.id := rfl
@[simp] theorem Group.setLane_launch (g : Group) (r l : Nat) (w : Word32) : (g.setLane r l w).launch = g.launch := rfl
@[simp] theorem Group.setLane_block (g : Group) (r l : Nat) (w : Word32) : (g.setLane r l w).block = g.block := rfl
@[simp] theorem Group.setLane_sys (g : Group) (r l : Nat) (w : Word32) : (g.setLane r l w).sys = g.sys := rfl
@[simp] theorem Group.setLane_ep (g : Group) (r l : Nat) (w : Word32) : (g.setLane r l w).ep = g.ep := rfl
@[simp] theorem Group.setLane_slot (g : Group) (r l : Nat) (w : Word32) : (g.setLane r l w).slot = g.slot := rfl
@[simp] theorem Group.setLane_part (g : Group) (r l : Nat) (w : Word32) : (g.setLane r l w).part = g.part := rfl
@[simp] theorem Group.setLane_tenant (g : Group) (r l : Nat) (w : Word32) : (g.setLane r l w).tenant = g.tenant := rfl
@[simp] theorem Group.setLane_prio (g : Group) (r l : Nat) (w : Word32) : (g.setLane r l w).prio = g.prio := rfl
@[simp] theorem Group.setLane_age (g : Group) (r l : Nat) (w : Word32) : (g.setLane r l w).age = g.age := rfl
@[simp] theorem Group.setLane_wid (g : Group) (r l : Nat) (w : Word32) : (g.setLane r l w).wid = g.wid := rfl
@[simp] theorem Group.setLane_stg (g : Group) (r l : Nat) (w : Word32) : (g.setLane r l w).stg = g.stg := rfl
@[simp] theorem Group.setLane_regs (g : Group) (r l : Nat) (w : Word32) : (g.setLane r l w).regs = g.regs := rfl
@[simp] theorem Group.setLane_s (g : Group) (r l : Nat) (w : Word32) : (g.setLane r l w).s = g.s := rfl
@[simp] theorem Group.setLane_p (g : Group) (r l : Nat) (w : Word32) : (g.setLane r l w).p = g.p := rfl
@[simp] theorem Group.setLane_q (g : Group) (r l : Nat) (w : Word32) : (g.setLane r l w).q = g.q := rfl
@[simp] theorem Group.setLane_flags (g : Group) (r l : Nat) (w : Word32) : (g.setLane r l w).flags = g.flags := rfl
@[simp] theorem Group.setLane_p0 (g : Group) (r l : Nat) (w : Word32) : (g.setLane r l w).p0 = g.p0 := rfl
@[simp] theorem Group.setLane_p1 (g : Group) (r l : Nat) (w : Word32) : (g.setLane r l w).p1 = g.p1 := rfl
@[simp] theorem Group.setLane_lastSecond (g : Group) (r l : Nat) (w : Word32) : (g.setLane r l w).lastSecond = g.lastSecond := rfl
@[simp] theorem Group.setLane_stack (g : Group) (r l : Nat) (w : Word32) : (g.setLane r l w).stack = g.stack := rfl
@[simp] theorem Group.setLane_recs (g : Group) (r l : Nat) (w : Word32) : (g.setLane r l w).recs = g.recs := rfl
@[simp] theorem Group.setLane_nextRec (g : Group) (r l : Nat) (w : Word32) : (g.setLane r l w).nextRec = g.nextRec := rfl
@[simp] theorem Group.setLane_nextThr (g : Group) (r l : Nat) (w : Word32) : (g.setLane r l w).nextThr = g.nextThr := rfl
@[simp] theorem Group.setLane_srseed (g : Group) (r l : Nat) (w : Word32) : (g.setLane r l w).srseed = g.srseed := rfl
@[simp] theorem Group.setLane_gAlu (g : Group) (r l : Nat) (w : Word32) : (g.setLane r l w).gAlu = g.gAlu := rfl
@[simp] theorem Group.setLane_gFma (g : Group) (r l : Nat) (w : Word32) : (g.setLane r l w).gFma = g.gFma := rfl
@[simp] theorem Group.setLane_fmask (g : Group) (r l : Nat) (w : Word32) : (g.setLane r l w).fmask = g.fmask := rfl
@[simp] theorem Group.setLane_beta (g : Group) (r l : Nat) (w : Word32) : (g.setLane r l w).beta = g.beta := rfl
@[simp] theorem Group.setLane_wait (g : Group) (r l : Nat) (w : Word32) : (g.setLane r l w).wait = g.wait := rfl
@[simp] theorem Group.setLane_trap (g : Group) (r l : Nat) (w : Word32) : (g.setLane r l w).trap = g.trap := rfl
@[simp] theorem Group.setLane_handler (g : Group) (r l : Nat) (w : Word32) : (g.setLane r l w).handler = g.handler := rfl
@[simp] theorem Group.setLane_point (g : Group) (r l : Nat) (w : Word32) : (g.setLane r l w).point = g.point := rfl
@[simp] theorem Group.setLane_sinceMark (g : Group) (r l : Nat) (w : Word32) : (g.setLane r l w).sinceMark = g.sinceMark := rfl
@[simp] theorem Group.setLane_iq (g : Group) (r l : Nat) (w : Word32) : (g.setLane r l w).iq = g.iq := rfl
@[simp] theorem Group.setLane_outst (g : Group) (r l : Nat) (w : Word32) : (g.setLane r l w).outst = g.outst := rfl
@[simp] theorem Group.setLane_nextOp (g : Group) (r l : Nat) (w : Word32) : (g.setLane r l w).nextOp = g.nextOp := rfl
@[simp] theorem Group.setLane_floors (g : Group) (r l : Nat) (w : Word32) : (g.setLane r l w).floors = g.floors := rfl
@[simp] theorem Group.setLane_readViews (g : Group) (r l : Nat) (w : Word32) : (g.setLane r l w).readViews = g.readViews := rfl
@[simp] theorem Group.setLane_fenceViews (g : Group) (r l : Nat) (w : Word32) : (g.setLane r l w).fenceViews = g.fenceViews := rfl
@[simp] theorem Group.setLane_scroll (g : Group) (r l : Nat) (w : Word32) : (g.setLane r l w).scroll = g.scroll := rfl
@[simp] theorem Group.setLane_deferred (g : Group) (r l : Nat) (w : Word32) : (g.setLane r l w).deferred = g.deferred := rfl
@[simp] theorem Group.setLane_cancel (g : Group) (r l : Nat) (w : Word32) : (g.setLane r l w).cancel = g.cancel := rfl
@[simp] theorem Group.setLane_yieldUntil (g : Group) (r l : Nat) (w : Word32) : (g.setLane r l w).yieldUntil = g.yieldUntil := rfl
@[simp] theorem Group.setLane_hintUntil (g : Group) (r l : Nat) (w : Word32) : (g.setLane r l w).hintUntil = g.hintUntil := rfl
@[simp] theorem Group.setLane_evicted (g : Group) (r l : Nat) (w : Word32) : (g.setLane r l w).evicted = g.evicted := rfl
@[simp] theorem Group.setLane_leaving (g : Group) (r l : Nat) (w : Word32) : (g.setLane r l w).leaving = g.leaving := rfl
@[simp] theorem Group.setLane_due (g : Group) (r l : Nat) (w : Word32) : (g.setLane r l w).due = g.due := rfl
@[simp] theorem Group.setLane_faults (g : Group) (r l : Nat) (w : Word32) : (g.setLane r l w).faults = g.faults := rfl

/-! ### `Group.setUni` -/

@[simp] theorem Group.setUni_id (g : Group) (r : Nat) (w : Word64) : (g.setUni r w).id = g.id := by
  unfold Group.setUni; split <;> rfl
@[simp] theorem Group.setUni_launch (g : Group) (r : Nat) (w : Word64) : (g.setUni r w).launch = g.launch := by
  unfold Group.setUni; split <;> rfl
@[simp] theorem Group.setUni_block (g : Group) (r : Nat) (w : Word64) : (g.setUni r w).block = g.block := by
  unfold Group.setUni; split <;> rfl
@[simp] theorem Group.setUni_sys (g : Group) (r : Nat) (w : Word64) : (g.setUni r w).sys = g.sys := by
  unfold Group.setUni; split <;> rfl
@[simp] theorem Group.setUni_ep (g : Group) (r : Nat) (w : Word64) : (g.setUni r w).ep = g.ep := by
  unfold Group.setUni; split <;> rfl
@[simp] theorem Group.setUni_slot (g : Group) (r : Nat) (w : Word64) : (g.setUni r w).slot = g.slot := by
  unfold Group.setUni; split <;> rfl
@[simp] theorem Group.setUni_part (g : Group) (r : Nat) (w : Word64) : (g.setUni r w).part = g.part := by
  unfold Group.setUni; split <;> rfl
@[simp] theorem Group.setUni_tenant (g : Group) (r : Nat) (w : Word64) : (g.setUni r w).tenant = g.tenant := by
  unfold Group.setUni; split <;> rfl
@[simp] theorem Group.setUni_prio (g : Group) (r : Nat) (w : Word64) : (g.setUni r w).prio = g.prio := by
  unfold Group.setUni; split <;> rfl
@[simp] theorem Group.setUni_age (g : Group) (r : Nat) (w : Word64) : (g.setUni r w).age = g.age := by
  unfold Group.setUni; split <;> rfl
@[simp] theorem Group.setUni_wid (g : Group) (r : Nat) (w : Word64) : (g.setUni r w).wid = g.wid := by
  unfold Group.setUni; split <;> rfl
@[simp] theorem Group.setUni_stg (g : Group) (r : Nat) (w : Word64) : (g.setUni r w).stg = g.stg := by
  unfold Group.setUni; split <;> rfl
@[simp] theorem Group.setUni_regs (g : Group) (r : Nat) (w : Word64) : (g.setUni r w).regs = g.regs := by
  unfold Group.setUni; split <;> rfl
@[simp] theorem Group.setUni_v (g : Group) (r : Nat) (w : Word64) : (g.setUni r w).v = g.v := by
  unfold Group.setUni; split <;> rfl
@[simp] theorem Group.setUni_p (g : Group) (r : Nat) (w : Word64) : (g.setUni r w).p = g.p := by
  unfold Group.setUni; split <;> rfl
@[simp] theorem Group.setUni_q (g : Group) (r : Nat) (w : Word64) : (g.setUni r w).q = g.q := by
  unfold Group.setUni; split <;> rfl
@[simp] theorem Group.setUni_flags (g : Group) (r : Nat) (w : Word64) : (g.setUni r w).flags = g.flags := by
  unfold Group.setUni; split <;> rfl
@[simp] theorem Group.setUni_p0 (g : Group) (r : Nat) (w : Word64) : (g.setUni r w).p0 = g.p0 := by
  unfold Group.setUni; split <;> rfl
@[simp] theorem Group.setUni_p1 (g : Group) (r : Nat) (w : Word64) : (g.setUni r w).p1 = g.p1 := by
  unfold Group.setUni; split <;> rfl
@[simp] theorem Group.setUni_lastSecond (g : Group) (r : Nat) (w : Word64) : (g.setUni r w).lastSecond = g.lastSecond := by
  unfold Group.setUni; split <;> rfl
@[simp] theorem Group.setUni_stack (g : Group) (r : Nat) (w : Word64) : (g.setUni r w).stack = g.stack := by
  unfold Group.setUni; split <;> rfl
@[simp] theorem Group.setUni_recs (g : Group) (r : Nat) (w : Word64) : (g.setUni r w).recs = g.recs := by
  unfold Group.setUni; split <;> rfl
@[simp] theorem Group.setUni_nextRec (g : Group) (r : Nat) (w : Word64) : (g.setUni r w).nextRec = g.nextRec := by
  unfold Group.setUni; split <;> rfl
@[simp] theorem Group.setUni_nextThr (g : Group) (r : Nat) (w : Word64) : (g.setUni r w).nextThr = g.nextThr := by
  unfold Group.setUni; split <;> rfl
@[simp] theorem Group.setUni_srseed (g : Group) (r : Nat) (w : Word64) : (g.setUni r w).srseed = g.srseed := by
  unfold Group.setUni; split <;> rfl
@[simp] theorem Group.setUni_gAlu (g : Group) (r : Nat) (w : Word64) : (g.setUni r w).gAlu = g.gAlu := by
  unfold Group.setUni; split <;> rfl
@[simp] theorem Group.setUni_gFma (g : Group) (r : Nat) (w : Word64) : (g.setUni r w).gFma = g.gFma := by
  unfold Group.setUni; split <;> rfl
@[simp] theorem Group.setUni_fmask (g : Group) (r : Nat) (w : Word64) : (g.setUni r w).fmask = g.fmask := by
  unfold Group.setUni; split <;> rfl
@[simp] theorem Group.setUni_beta (g : Group) (r : Nat) (w : Word64) : (g.setUni r w).beta = g.beta := by
  unfold Group.setUni; split <;> rfl
@[simp] theorem Group.setUni_wait (g : Group) (r : Nat) (w : Word64) : (g.setUni r w).wait = g.wait := by
  unfold Group.setUni; split <;> rfl
@[simp] theorem Group.setUni_trap (g : Group) (r : Nat) (w : Word64) : (g.setUni r w).trap = g.trap := by
  unfold Group.setUni; split <;> rfl
@[simp] theorem Group.setUni_handler (g : Group) (r : Nat) (w : Word64) : (g.setUni r w).handler = g.handler := by
  unfold Group.setUni; split <;> rfl
@[simp] theorem Group.setUni_point (g : Group) (r : Nat) (w : Word64) : (g.setUni r w).point = g.point := by
  unfold Group.setUni; split <;> rfl
@[simp] theorem Group.setUni_sinceMark (g : Group) (r : Nat) (w : Word64) : (g.setUni r w).sinceMark = g.sinceMark := by
  unfold Group.setUni; split <;> rfl
@[simp] theorem Group.setUni_iq (g : Group) (r : Nat) (w : Word64) : (g.setUni r w).iq = g.iq := by
  unfold Group.setUni; split <;> rfl
@[simp] theorem Group.setUni_outst (g : Group) (r : Nat) (w : Word64) : (g.setUni r w).outst = g.outst := by
  unfold Group.setUni; split <;> rfl
@[simp] theorem Group.setUni_nextOp (g : Group) (r : Nat) (w : Word64) : (g.setUni r w).nextOp = g.nextOp := by
  unfold Group.setUni; split <;> rfl
@[simp] theorem Group.setUni_floors (g : Group) (r : Nat) (w : Word64) : (g.setUni r w).floors = g.floors := by
  unfold Group.setUni; split <;> rfl
@[simp] theorem Group.setUni_readViews (g : Group) (r : Nat) (w : Word64) : (g.setUni r w).readViews = g.readViews := by
  unfold Group.setUni; split <;> rfl
@[simp] theorem Group.setUni_fenceViews (g : Group) (r : Nat) (w : Word64) : (g.setUni r w).fenceViews = g.fenceViews := by
  unfold Group.setUni; split <;> rfl
@[simp] theorem Group.setUni_scroll (g : Group) (r : Nat) (w : Word64) : (g.setUni r w).scroll = g.scroll := by
  unfold Group.setUni; split <;> rfl
@[simp] theorem Group.setUni_deferred (g : Group) (r : Nat) (w : Word64) : (g.setUni r w).deferred = g.deferred := by
  unfold Group.setUni; split <;> rfl
@[simp] theorem Group.setUni_cancel (g : Group) (r : Nat) (w : Word64) : (g.setUni r w).cancel = g.cancel := by
  unfold Group.setUni; split <;> rfl
@[simp] theorem Group.setUni_yieldUntil (g : Group) (r : Nat) (w : Word64) : (g.setUni r w).yieldUntil = g.yieldUntil := by
  unfold Group.setUni; split <;> rfl
@[simp] theorem Group.setUni_hintUntil (g : Group) (r : Nat) (w : Word64) : (g.setUni r w).hintUntil = g.hintUntil := by
  unfold Group.setUni; split <;> rfl
@[simp] theorem Group.setUni_evicted (g : Group) (r : Nat) (w : Word64) : (g.setUni r w).evicted = g.evicted := by
  unfold Group.setUni; split <;> rfl
@[simp] theorem Group.setUni_leaving (g : Group) (r : Nat) (w : Word64) : (g.setUni r w).leaving = g.leaving := by
  unfold Group.setUni; split <;> rfl
@[simp] theorem Group.setUni_due (g : Group) (r : Nat) (w : Word64) : (g.setUni r w).due = g.due := by
  unfold Group.setUni; split <;> rfl
@[simp] theorem Group.setUni_faults (g : Group) (r : Nat) (w : Word64) : (g.setUni r w).faults = g.faults := by
  unfold Group.setUni; split <;> rfl

/-! ### `Group.setPred` -/

@[simp] theorem Group.setPred_id (g : Group) (n : Nat) (m v : Lanes) : (g.setPred n m v).id = g.id := by
  unfold Group.setPred; split <;> rfl
@[simp] theorem Group.setPred_launch (g : Group) (n : Nat) (m v : Lanes) : (g.setPred n m v).launch = g.launch := by
  unfold Group.setPred; split <;> rfl
@[simp] theorem Group.setPred_block (g : Group) (n : Nat) (m v : Lanes) : (g.setPred n m v).block = g.block := by
  unfold Group.setPred; split <;> rfl
@[simp] theorem Group.setPred_sys (g : Group) (n : Nat) (m v : Lanes) : (g.setPred n m v).sys = g.sys := by
  unfold Group.setPred; split <;> rfl
@[simp] theorem Group.setPred_ep (g : Group) (n : Nat) (m v : Lanes) : (g.setPred n m v).ep = g.ep := by
  unfold Group.setPred; split <;> rfl
@[simp] theorem Group.setPred_slot (g : Group) (n : Nat) (m v : Lanes) : (g.setPred n m v).slot = g.slot := by
  unfold Group.setPred; split <;> rfl
@[simp] theorem Group.setPred_part (g : Group) (n : Nat) (m v : Lanes) : (g.setPred n m v).part = g.part := by
  unfold Group.setPred; split <;> rfl
@[simp] theorem Group.setPred_tenant (g : Group) (n : Nat) (m v : Lanes) : (g.setPred n m v).tenant = g.tenant := by
  unfold Group.setPred; split <;> rfl
@[simp] theorem Group.setPred_prio (g : Group) (n : Nat) (m v : Lanes) : (g.setPred n m v).prio = g.prio := by
  unfold Group.setPred; split <;> rfl
@[simp] theorem Group.setPred_age (g : Group) (n : Nat) (m v : Lanes) : (g.setPred n m v).age = g.age := by
  unfold Group.setPred; split <;> rfl
@[simp] theorem Group.setPred_wid (g : Group) (n : Nat) (m v : Lanes) : (g.setPred n m v).wid = g.wid := by
  unfold Group.setPred; split <;> rfl
@[simp] theorem Group.setPred_stg (g : Group) (n : Nat) (m v : Lanes) : (g.setPred n m v).stg = g.stg := by
  unfold Group.setPred; split <;> rfl
@[simp] theorem Group.setPred_regs (g : Group) (n : Nat) (m v : Lanes) : (g.setPred n m v).regs = g.regs := by
  unfold Group.setPred; split <;> rfl
@[simp] theorem Group.setPred_v (g : Group) (n : Nat) (m v : Lanes) : (g.setPred n m v).v = g.v := by
  unfold Group.setPred; split <;> rfl
@[simp] theorem Group.setPred_s (g : Group) (n : Nat) (m v : Lanes) : (g.setPred n m v).s = g.s := by
  unfold Group.setPred; split <;> rfl
@[simp] theorem Group.setPred_q (g : Group) (n : Nat) (m v : Lanes) : (g.setPred n m v).q = g.q := by
  unfold Group.setPred; split <;> rfl
@[simp] theorem Group.setPred_flags (g : Group) (n : Nat) (m v : Lanes) : (g.setPred n m v).flags = g.flags := by
  unfold Group.setPred; split <;> rfl
@[simp] theorem Group.setPred_p0 (g : Group) (n : Nat) (m v : Lanes) : (g.setPred n m v).p0 = g.p0 := by
  unfold Group.setPred; split <;> rfl
@[simp] theorem Group.setPred_p1 (g : Group) (n : Nat) (m v : Lanes) : (g.setPred n m v).p1 = g.p1 := by
  unfold Group.setPred; split <;> rfl
@[simp] theorem Group.setPred_lastSecond (g : Group) (n : Nat) (m v : Lanes) : (g.setPred n m v).lastSecond = g.lastSecond := by
  unfold Group.setPred; split <;> rfl
@[simp] theorem Group.setPred_stack (g : Group) (n : Nat) (m v : Lanes) : (g.setPred n m v).stack = g.stack := by
  unfold Group.setPred; split <;> rfl
@[simp] theorem Group.setPred_recs (g : Group) (n : Nat) (m v : Lanes) : (g.setPred n m v).recs = g.recs := by
  unfold Group.setPred; split <;> rfl
@[simp] theorem Group.setPred_nextRec (g : Group) (n : Nat) (m v : Lanes) : (g.setPred n m v).nextRec = g.nextRec := by
  unfold Group.setPred; split <;> rfl
@[simp] theorem Group.setPred_nextThr (g : Group) (n : Nat) (m v : Lanes) : (g.setPred n m v).nextThr = g.nextThr := by
  unfold Group.setPred; split <;> rfl
@[simp] theorem Group.setPred_srseed (g : Group) (n : Nat) (m v : Lanes) : (g.setPred n m v).srseed = g.srseed := by
  unfold Group.setPred; split <;> rfl
@[simp] theorem Group.setPred_gAlu (g : Group) (n : Nat) (m v : Lanes) : (g.setPred n m v).gAlu = g.gAlu := by
  unfold Group.setPred; split <;> rfl
@[simp] theorem Group.setPred_gFma (g : Group) (n : Nat) (m v : Lanes) : (g.setPred n m v).gFma = g.gFma := by
  unfold Group.setPred; split <;> rfl
@[simp] theorem Group.setPred_fmask (g : Group) (n : Nat) (m v : Lanes) : (g.setPred n m v).fmask = g.fmask := by
  unfold Group.setPred; split <;> rfl
@[simp] theorem Group.setPred_beta (g : Group) (n : Nat) (m v : Lanes) : (g.setPred n m v).beta = g.beta := by
  unfold Group.setPred; split <;> rfl
@[simp] theorem Group.setPred_wait (g : Group) (n : Nat) (m v : Lanes) : (g.setPred n m v).wait = g.wait := by
  unfold Group.setPred; split <;> rfl
@[simp] theorem Group.setPred_trap (g : Group) (n : Nat) (m v : Lanes) : (g.setPred n m v).trap = g.trap := by
  unfold Group.setPred; split <;> rfl
@[simp] theorem Group.setPred_handler (g : Group) (n : Nat) (m v : Lanes) : (g.setPred n m v).handler = g.handler := by
  unfold Group.setPred; split <;> rfl
@[simp] theorem Group.setPred_point (g : Group) (n : Nat) (m v : Lanes) : (g.setPred n m v).point = g.point := by
  unfold Group.setPred; split <;> rfl
@[simp] theorem Group.setPred_sinceMark (g : Group) (n : Nat) (m v : Lanes) : (g.setPred n m v).sinceMark = g.sinceMark := by
  unfold Group.setPred; split <;> rfl
@[simp] theorem Group.setPred_iq (g : Group) (n : Nat) (m v : Lanes) : (g.setPred n m v).iq = g.iq := by
  unfold Group.setPred; split <;> rfl
@[simp] theorem Group.setPred_outst (g : Group) (n : Nat) (m v : Lanes) : (g.setPred n m v).outst = g.outst := by
  unfold Group.setPred; split <;> rfl
@[simp] theorem Group.setPred_nextOp (g : Group) (n : Nat) (m v : Lanes) : (g.setPred n m v).nextOp = g.nextOp := by
  unfold Group.setPred; split <;> rfl
@[simp] theorem Group.setPred_floors (g : Group) (n : Nat) (m v : Lanes) : (g.setPred n m v).floors = g.floors := by
  unfold Group.setPred; split <;> rfl
@[simp] theorem Group.setPred_readViews (g : Group) (n : Nat) (m v : Lanes) : (g.setPred n m v).readViews = g.readViews := by
  unfold Group.setPred; split <;> rfl
@[simp] theorem Group.setPred_fenceViews (g : Group) (n : Nat) (m v : Lanes) : (g.setPred n m v).fenceViews = g.fenceViews := by
  unfold Group.setPred; split <;> rfl
@[simp] theorem Group.setPred_scroll (g : Group) (n : Nat) (m v : Lanes) : (g.setPred n m v).scroll = g.scroll := by
  unfold Group.setPred; split <;> rfl
@[simp] theorem Group.setPred_deferred (g : Group) (n : Nat) (m v : Lanes) : (g.setPred n m v).deferred = g.deferred := by
  unfold Group.setPred; split <;> rfl
@[simp] theorem Group.setPred_cancel (g : Group) (n : Nat) (m v : Lanes) : (g.setPred n m v).cancel = g.cancel := by
  unfold Group.setPred; split <;> rfl
@[simp] theorem Group.setPred_yieldUntil (g : Group) (n : Nat) (m v : Lanes) : (g.setPred n m v).yieldUntil = g.yieldUntil := by
  unfold Group.setPred; split <;> rfl
@[simp] theorem Group.setPred_hintUntil (g : Group) (n : Nat) (m v : Lanes) : (g.setPred n m v).hintUntil = g.hintUntil := by
  unfold Group.setPred; split <;> rfl
@[simp] theorem Group.setPred_evicted (g : Group) (n : Nat) (m v : Lanes) : (g.setPred n m v).evicted = g.evicted := by
  unfold Group.setPred; split <;> rfl
@[simp] theorem Group.setPred_leaving (g : Group) (n : Nat) (m v : Lanes) : (g.setPred n m v).leaving = g.leaving := by
  unfold Group.setPred; split <;> rfl
@[simp] theorem Group.setPred_due (g : Group) (n : Nat) (m v : Lanes) : (g.setPred n m v).due = g.due := by
  unfold Group.setPred; split <;> rfl
@[simp] theorem Group.setPred_faults (g : Group) (n : Nat) (m v : Lanes) : (g.setPred n m v).faults = g.faults := by
  unfold Group.setPred; split <;> rfl

/-! ### `Group.setUpred` -/

@[simp] theorem Group.setUpred_id (g : Group) (n : Nat) (b : Bool) : (g.setUpred n b).id = g.id := rfl
@[simp] theorem Group.setUpred_launch (g : Group) (n : Nat) (b : Bool) : (g.setUpred n b).launch = g.launch := rfl
@[simp] theorem Group.setUpred_block (g : Group) (n : Nat) (b : Bool) : (g.setUpred n b).block = g.block := rfl
@[simp] theorem Group.setUpred_sys (g : Group) (n : Nat) (b : Bool) : (g.setUpred n b).sys = g.sys := rfl
@[simp] theorem Group.setUpred_ep (g : Group) (n : Nat) (b : Bool) : (g.setUpred n b).ep = g.ep := rfl
@[simp] theorem Group.setUpred_slot (g : Group) (n : Nat) (b : Bool) : (g.setUpred n b).slot = g.slot := rfl
@[simp] theorem Group.setUpred_part (g : Group) (n : Nat) (b : Bool) : (g.setUpred n b).part = g.part := rfl
@[simp] theorem Group.setUpred_tenant (g : Group) (n : Nat) (b : Bool) : (g.setUpred n b).tenant = g.tenant := rfl
@[simp] theorem Group.setUpred_prio (g : Group) (n : Nat) (b : Bool) : (g.setUpred n b).prio = g.prio := rfl
@[simp] theorem Group.setUpred_age (g : Group) (n : Nat) (b : Bool) : (g.setUpred n b).age = g.age := rfl
@[simp] theorem Group.setUpred_wid (g : Group) (n : Nat) (b : Bool) : (g.setUpred n b).wid = g.wid := rfl
@[simp] theorem Group.setUpred_stg (g : Group) (n : Nat) (b : Bool) : (g.setUpred n b).stg = g.stg := rfl
@[simp] theorem Group.setUpred_regs (g : Group) (n : Nat) (b : Bool) : (g.setUpred n b).regs = g.regs := rfl
@[simp] theorem Group.setUpred_v (g : Group) (n : Nat) (b : Bool) : (g.setUpred n b).v = g.v := rfl
@[simp] theorem Group.setUpred_s (g : Group) (n : Nat) (b : Bool) : (g.setUpred n b).s = g.s := rfl
@[simp] theorem Group.setUpred_p (g : Group) (n : Nat) (b : Bool) : (g.setUpred n b).p = g.p := rfl
@[simp] theorem Group.setUpred_flags (g : Group) (n : Nat) (b : Bool) : (g.setUpred n b).flags = g.flags := rfl
@[simp] theorem Group.setUpred_p0 (g : Group) (n : Nat) (b : Bool) : (g.setUpred n b).p0 = g.p0 := rfl
@[simp] theorem Group.setUpred_p1 (g : Group) (n : Nat) (b : Bool) : (g.setUpred n b).p1 = g.p1 := rfl
@[simp] theorem Group.setUpred_lastSecond (g : Group) (n : Nat) (b : Bool) : (g.setUpred n b).lastSecond = g.lastSecond := rfl
@[simp] theorem Group.setUpred_stack (g : Group) (n : Nat) (b : Bool) : (g.setUpred n b).stack = g.stack := rfl
@[simp] theorem Group.setUpred_recs (g : Group) (n : Nat) (b : Bool) : (g.setUpred n b).recs = g.recs := rfl
@[simp] theorem Group.setUpred_nextRec (g : Group) (n : Nat) (b : Bool) : (g.setUpred n b).nextRec = g.nextRec := rfl
@[simp] theorem Group.setUpred_nextThr (g : Group) (n : Nat) (b : Bool) : (g.setUpred n b).nextThr = g.nextThr := rfl
@[simp] theorem Group.setUpred_srseed (g : Group) (n : Nat) (b : Bool) : (g.setUpred n b).srseed = g.srseed := rfl
@[simp] theorem Group.setUpred_gAlu (g : Group) (n : Nat) (b : Bool) : (g.setUpred n b).gAlu = g.gAlu := rfl
@[simp] theorem Group.setUpred_gFma (g : Group) (n : Nat) (b : Bool) : (g.setUpred n b).gFma = g.gFma := rfl
@[simp] theorem Group.setUpred_fmask (g : Group) (n : Nat) (b : Bool) : (g.setUpred n b).fmask = g.fmask := rfl
@[simp] theorem Group.setUpred_beta (g : Group) (n : Nat) (b : Bool) : (g.setUpred n b).beta = g.beta := rfl
@[simp] theorem Group.setUpred_wait (g : Group) (n : Nat) (b : Bool) : (g.setUpred n b).wait = g.wait := rfl
@[simp] theorem Group.setUpred_trap (g : Group) (n : Nat) (b : Bool) : (g.setUpred n b).trap = g.trap := rfl
@[simp] theorem Group.setUpred_handler (g : Group) (n : Nat) (b : Bool) : (g.setUpred n b).handler = g.handler := rfl
@[simp] theorem Group.setUpred_point (g : Group) (n : Nat) (b : Bool) : (g.setUpred n b).point = g.point := rfl
@[simp] theorem Group.setUpred_sinceMark (g : Group) (n : Nat) (b : Bool) : (g.setUpred n b).sinceMark = g.sinceMark := rfl
@[simp] theorem Group.setUpred_iq (g : Group) (n : Nat) (b : Bool) : (g.setUpred n b).iq = g.iq := rfl
@[simp] theorem Group.setUpred_outst (g : Group) (n : Nat) (b : Bool) : (g.setUpred n b).outst = g.outst := rfl
@[simp] theorem Group.setUpred_nextOp (g : Group) (n : Nat) (b : Bool) : (g.setUpred n b).nextOp = g.nextOp := rfl
@[simp] theorem Group.setUpred_floors (g : Group) (n : Nat) (b : Bool) : (g.setUpred n b).floors = g.floors := rfl
@[simp] theorem Group.setUpred_readViews (g : Group) (n : Nat) (b : Bool) : (g.setUpred n b).readViews = g.readViews := rfl
@[simp] theorem Group.setUpred_fenceViews (g : Group) (n : Nat) (b : Bool) : (g.setUpred n b).fenceViews = g.fenceViews := rfl
@[simp] theorem Group.setUpred_scroll (g : Group) (n : Nat) (b : Bool) : (g.setUpred n b).scroll = g.scroll := rfl
@[simp] theorem Group.setUpred_deferred (g : Group) (n : Nat) (b : Bool) : (g.setUpred n b).deferred = g.deferred := rfl
@[simp] theorem Group.setUpred_cancel (g : Group) (n : Nat) (b : Bool) : (g.setUpred n b).cancel = g.cancel := rfl
@[simp] theorem Group.setUpred_yieldUntil (g : Group) (n : Nat) (b : Bool) : (g.setUpred n b).yieldUntil = g.yieldUntil := rfl
@[simp] theorem Group.setUpred_hintUntil (g : Group) (n : Nat) (b : Bool) : (g.setUpred n b).hintUntil = g.hintUntil := rfl
@[simp] theorem Group.setUpred_evicted (g : Group) (n : Nat) (b : Bool) : (g.setUpred n b).evicted = g.evicted := rfl
@[simp] theorem Group.setUpred_leaving (g : Group) (n : Nat) (b : Bool) : (g.setUpred n b).leaving = g.leaving := rfl
@[simp] theorem Group.setUpred_due (g : Group) (n : Nat) (b : Bool) : (g.setUpred n b).due = g.due := rfl
@[simp] theorem Group.setUpred_faults (g : Group) (n : Nat) (b : Bool) : (g.setUpred n b).faults = g.faults := rfl

/-! ### `Group.setPath` -/

@[simp] theorem Group.setPath_id (g : Group) (sec : Bool) (p : Option Path) : (g.setPath sec p).id = g.id := by
  unfold Group.setPath; split <;> rfl
@[simp] theorem Group.setPath_launch (g : Group) (sec : Bool) (p : Option Path) : (g.setPath sec p).launch = g.launch := by
  unfold Group.setPath; split <;> rfl
@[simp] theorem Group.setPath_block (g : Group) (sec : Bool) (p : Option Path) : (g.setPath sec p).block = g.block := by
  unfold Group.setPath; split <;> rfl
@[simp] theorem Group.setPath_sys (g : Group) (sec : Bool) (p : Option Path) : (g.setPath sec p).sys = g.sys := by
  unfold Group.setPath; split <;> rfl
@[simp] theorem Group.setPath_ep (g : Group) (sec : Bool) (p : Option Path) : (g.setPath sec p).ep = g.ep := by
  unfold Group.setPath; split <;> rfl
@[simp] theorem Group.setPath_slot (g : Group) (sec : Bool) (p : Option Path) : (g.setPath sec p).slot = g.slot := by
  unfold Group.setPath; split <;> rfl
@[simp] theorem Group.setPath_part (g : Group) (sec : Bool) (p : Option Path) : (g.setPath sec p).part = g.part := by
  unfold Group.setPath; split <;> rfl
@[simp] theorem Group.setPath_tenant (g : Group) (sec : Bool) (p : Option Path) : (g.setPath sec p).tenant = g.tenant := by
  unfold Group.setPath; split <;> rfl
@[simp] theorem Group.setPath_prio (g : Group) (sec : Bool) (p : Option Path) : (g.setPath sec p).prio = g.prio := by
  unfold Group.setPath; split <;> rfl
@[simp] theorem Group.setPath_age (g : Group) (sec : Bool) (p : Option Path) : (g.setPath sec p).age = g.age := by
  unfold Group.setPath; split <;> rfl
@[simp] theorem Group.setPath_wid (g : Group) (sec : Bool) (p : Option Path) : (g.setPath sec p).wid = g.wid := by
  unfold Group.setPath; split <;> rfl
@[simp] theorem Group.setPath_stg (g : Group) (sec : Bool) (p : Option Path) : (g.setPath sec p).stg = g.stg := by
  unfold Group.setPath; split <;> rfl
@[simp] theorem Group.setPath_regs (g : Group) (sec : Bool) (p : Option Path) : (g.setPath sec p).regs = g.regs := by
  unfold Group.setPath; split <;> rfl
@[simp] theorem Group.setPath_v (g : Group) (sec : Bool) (p : Option Path) : (g.setPath sec p).v = g.v := by
  unfold Group.setPath; split <;> rfl
@[simp] theorem Group.setPath_s (g : Group) (sec : Bool) (p : Option Path) : (g.setPath sec p).s = g.s := by
  unfold Group.setPath; split <;> rfl
@[simp] theorem Group.setPath_p (g : Group) (sec : Bool) (p : Option Path) : (g.setPath sec p).p = g.p := by
  unfold Group.setPath; split <;> rfl
@[simp] theorem Group.setPath_q (g : Group) (sec : Bool) (p : Option Path) : (g.setPath sec p).q = g.q := by
  unfold Group.setPath; split <;> rfl
@[simp] theorem Group.setPath_flags (g : Group) (sec : Bool) (p : Option Path) : (g.setPath sec p).flags = g.flags := by
  unfold Group.setPath; split <;> rfl
@[simp] theorem Group.setPath_lastSecond (g : Group) (sec : Bool) (p : Option Path) : (g.setPath sec p).lastSecond = g.lastSecond := by
  unfold Group.setPath; split <;> rfl
@[simp] theorem Group.setPath_stack (g : Group) (sec : Bool) (p : Option Path) : (g.setPath sec p).stack = g.stack := by
  unfold Group.setPath; split <;> rfl
@[simp] theorem Group.setPath_recs (g : Group) (sec : Bool) (p : Option Path) : (g.setPath sec p).recs = g.recs := by
  unfold Group.setPath; split <;> rfl
@[simp] theorem Group.setPath_nextRec (g : Group) (sec : Bool) (p : Option Path) : (g.setPath sec p).nextRec = g.nextRec := by
  unfold Group.setPath; split <;> rfl
@[simp] theorem Group.setPath_nextThr (g : Group) (sec : Bool) (p : Option Path) : (g.setPath sec p).nextThr = g.nextThr := by
  unfold Group.setPath; split <;> rfl
@[simp] theorem Group.setPath_srseed (g : Group) (sec : Bool) (p : Option Path) : (g.setPath sec p).srseed = g.srseed := by
  unfold Group.setPath; split <;> rfl
@[simp] theorem Group.setPath_gAlu (g : Group) (sec : Bool) (p : Option Path) : (g.setPath sec p).gAlu = g.gAlu := by
  unfold Group.setPath; split <;> rfl
@[simp] theorem Group.setPath_gFma (g : Group) (sec : Bool) (p : Option Path) : (g.setPath sec p).gFma = g.gFma := by
  unfold Group.setPath; split <;> rfl
@[simp] theorem Group.setPath_fmask (g : Group) (sec : Bool) (p : Option Path) : (g.setPath sec p).fmask = g.fmask := by
  unfold Group.setPath; split <;> rfl
@[simp] theorem Group.setPath_beta (g : Group) (sec : Bool) (p : Option Path) : (g.setPath sec p).beta = g.beta := by
  unfold Group.setPath; split <;> rfl
@[simp] theorem Group.setPath_wait (g : Group) (sec : Bool) (p : Option Path) : (g.setPath sec p).wait = g.wait := by
  unfold Group.setPath; split <;> rfl
@[simp] theorem Group.setPath_trap (g : Group) (sec : Bool) (p : Option Path) : (g.setPath sec p).trap = g.trap := by
  unfold Group.setPath; split <;> rfl
@[simp] theorem Group.setPath_handler (g : Group) (sec : Bool) (p : Option Path) : (g.setPath sec p).handler = g.handler := by
  unfold Group.setPath; split <;> rfl
@[simp] theorem Group.setPath_point (g : Group) (sec : Bool) (p : Option Path) : (g.setPath sec p).point = g.point := by
  unfold Group.setPath; split <;> rfl
@[simp] theorem Group.setPath_sinceMark (g : Group) (sec : Bool) (p : Option Path) : (g.setPath sec p).sinceMark = g.sinceMark := by
  unfold Group.setPath; split <;> rfl
@[simp] theorem Group.setPath_iq (g : Group) (sec : Bool) (p : Option Path) : (g.setPath sec p).iq = g.iq := by
  unfold Group.setPath; split <;> rfl
@[simp] theorem Group.setPath_outst (g : Group) (sec : Bool) (p : Option Path) : (g.setPath sec p).outst = g.outst := by
  unfold Group.setPath; split <;> rfl
@[simp] theorem Group.setPath_nextOp (g : Group) (sec : Bool) (p : Option Path) : (g.setPath sec p).nextOp = g.nextOp := by
  unfold Group.setPath; split <;> rfl
@[simp] theorem Group.setPath_floors (g : Group) (sec : Bool) (p : Option Path) : (g.setPath sec p).floors = g.floors := by
  unfold Group.setPath; split <;> rfl
@[simp] theorem Group.setPath_readViews (g : Group) (sec : Bool) (p : Option Path) : (g.setPath sec p).readViews = g.readViews := by
  unfold Group.setPath; split <;> rfl
@[simp] theorem Group.setPath_fenceViews (g : Group) (sec : Bool) (p : Option Path) : (g.setPath sec p).fenceViews = g.fenceViews := by
  unfold Group.setPath; split <;> rfl
@[simp] theorem Group.setPath_scroll (g : Group) (sec : Bool) (p : Option Path) : (g.setPath sec p).scroll = g.scroll := by
  unfold Group.setPath; split <;> rfl
@[simp] theorem Group.setPath_deferred (g : Group) (sec : Bool) (p : Option Path) : (g.setPath sec p).deferred = g.deferred := by
  unfold Group.setPath; split <;> rfl
@[simp] theorem Group.setPath_cancel (g : Group) (sec : Bool) (p : Option Path) : (g.setPath sec p).cancel = g.cancel := by
  unfold Group.setPath; split <;> rfl
@[simp] theorem Group.setPath_yieldUntil (g : Group) (sec : Bool) (p : Option Path) : (g.setPath sec p).yieldUntil = g.yieldUntil := by
  unfold Group.setPath; split <;> rfl
@[simp] theorem Group.setPath_hintUntil (g : Group) (sec : Bool) (p : Option Path) : (g.setPath sec p).hintUntil = g.hintUntil := by
  unfold Group.setPath; split <;> rfl
@[simp] theorem Group.setPath_evicted (g : Group) (sec : Bool) (p : Option Path) : (g.setPath sec p).evicted = g.evicted := by
  unfold Group.setPath; split <;> rfl
@[simp] theorem Group.setPath_leaving (g : Group) (sec : Bool) (p : Option Path) : (g.setPath sec p).leaving = g.leaving := by
  unfold Group.setPath; split <;> rfl
@[simp] theorem Group.setPath_due (g : Group) (sec : Bool) (p : Option Path) : (g.setPath sec p).due = g.due := by
  unfold Group.setPath; split <;> rfl
@[simp] theorem Group.setPath_faults (g : Group) (sec : Bool) (p : Option Path) : (g.setPath sec p).faults = g.faults := by
  unfold Group.setPath; split <;> rfl

/-! ### `Group.raiseFlag` -/

@[simp] theorem Group.raiseFlag_id (g : Group) (k : Option Nat) : (g.raiseFlag k).id = g.id := by
  cases k <;> rfl
@[simp] theorem Group.raiseFlag_launch (g : Group) (k : Option Nat) : (g.raiseFlag k).launch = g.launch := by
  cases k <;> rfl
@[simp] theorem Group.raiseFlag_block (g : Group) (k : Option Nat) : (g.raiseFlag k).block = g.block := by
  cases k <;> rfl
@[simp] theorem Group.raiseFlag_sys (g : Group) (k : Option Nat) : (g.raiseFlag k).sys = g.sys := by
  cases k <;> rfl
@[simp] theorem Group.raiseFlag_ep (g : Group) (k : Option Nat) : (g.raiseFlag k).ep = g.ep := by
  cases k <;> rfl
@[simp] theorem Group.raiseFlag_slot (g : Group) (k : Option Nat) : (g.raiseFlag k).slot = g.slot := by
  cases k <;> rfl
@[simp] theorem Group.raiseFlag_part (g : Group) (k : Option Nat) : (g.raiseFlag k).part = g.part := by
  cases k <;> rfl
@[simp] theorem Group.raiseFlag_tenant (g : Group) (k : Option Nat) : (g.raiseFlag k).tenant = g.tenant := by
  cases k <;> rfl
@[simp] theorem Group.raiseFlag_prio (g : Group) (k : Option Nat) : (g.raiseFlag k).prio = g.prio := by
  cases k <;> rfl
@[simp] theorem Group.raiseFlag_age (g : Group) (k : Option Nat) : (g.raiseFlag k).age = g.age := by
  cases k <;> rfl
@[simp] theorem Group.raiseFlag_wid (g : Group) (k : Option Nat) : (g.raiseFlag k).wid = g.wid := by
  cases k <;> rfl
@[simp] theorem Group.raiseFlag_stg (g : Group) (k : Option Nat) : (g.raiseFlag k).stg = g.stg := by
  cases k <;> rfl
@[simp] theorem Group.raiseFlag_regs (g : Group) (k : Option Nat) : (g.raiseFlag k).regs = g.regs := by
  cases k <;> rfl
@[simp] theorem Group.raiseFlag_v (g : Group) (k : Option Nat) : (g.raiseFlag k).v = g.v := by
  cases k <;> rfl
@[simp] theorem Group.raiseFlag_s (g : Group) (k : Option Nat) : (g.raiseFlag k).s = g.s := by
  cases k <;> rfl
@[simp] theorem Group.raiseFlag_p (g : Group) (k : Option Nat) : (g.raiseFlag k).p = g.p := by
  cases k <;> rfl
@[simp] theorem Group.raiseFlag_q (g : Group) (k : Option Nat) : (g.raiseFlag k).q = g.q := by
  cases k <;> rfl
@[simp] theorem Group.raiseFlag_p0 (g : Group) (k : Option Nat) : (g.raiseFlag k).p0 = g.p0 := by
  cases k <;> rfl
@[simp] theorem Group.raiseFlag_p1 (g : Group) (k : Option Nat) : (g.raiseFlag k).p1 = g.p1 := by
  cases k <;> rfl
@[simp] theorem Group.raiseFlag_lastSecond (g : Group) (k : Option Nat) : (g.raiseFlag k).lastSecond = g.lastSecond := by
  cases k <;> rfl
@[simp] theorem Group.raiseFlag_stack (g : Group) (k : Option Nat) : (g.raiseFlag k).stack = g.stack := by
  cases k <;> rfl
@[simp] theorem Group.raiseFlag_recs (g : Group) (k : Option Nat) : (g.raiseFlag k).recs = g.recs := by
  cases k <;> rfl
@[simp] theorem Group.raiseFlag_nextRec (g : Group) (k : Option Nat) : (g.raiseFlag k).nextRec = g.nextRec := by
  cases k <;> rfl
@[simp] theorem Group.raiseFlag_nextThr (g : Group) (k : Option Nat) : (g.raiseFlag k).nextThr = g.nextThr := by
  cases k <;> rfl
@[simp] theorem Group.raiseFlag_srseed (g : Group) (k : Option Nat) : (g.raiseFlag k).srseed = g.srseed := by
  cases k <;> rfl
@[simp] theorem Group.raiseFlag_gAlu (g : Group) (k : Option Nat) : (g.raiseFlag k).gAlu = g.gAlu := by
  cases k <;> rfl
@[simp] theorem Group.raiseFlag_gFma (g : Group) (k : Option Nat) : (g.raiseFlag k).gFma = g.gFma := by
  cases k <;> rfl
@[simp] theorem Group.raiseFlag_fmask (g : Group) (k : Option Nat) : (g.raiseFlag k).fmask = g.fmask := by
  cases k <;> rfl
@[simp] theorem Group.raiseFlag_beta (g : Group) (k : Option Nat) : (g.raiseFlag k).beta = g.beta := by
  cases k <;> rfl
@[simp] theorem Group.raiseFlag_wait (g : Group) (k : Option Nat) : (g.raiseFlag k).wait = g.wait := by
  cases k <;> rfl
@[simp] theorem Group.raiseFlag_trap (g : Group) (k : Option Nat) : (g.raiseFlag k).trap = g.trap := by
  cases k <;> rfl
@[simp] theorem Group.raiseFlag_handler (g : Group) (k : Option Nat) : (g.raiseFlag k).handler = g.handler := by
  cases k <;> rfl
@[simp] theorem Group.raiseFlag_point (g : Group) (k : Option Nat) : (g.raiseFlag k).point = g.point := by
  cases k <;> rfl
@[simp] theorem Group.raiseFlag_sinceMark (g : Group) (k : Option Nat) : (g.raiseFlag k).sinceMark = g.sinceMark := by
  cases k <;> rfl
@[simp] theorem Group.raiseFlag_iq (g : Group) (k : Option Nat) : (g.raiseFlag k).iq = g.iq := by
  cases k <;> rfl
@[simp] theorem Group.raiseFlag_outst (g : Group) (k : Option Nat) : (g.raiseFlag k).outst = g.outst := by
  cases k <;> rfl
@[simp] theorem Group.raiseFlag_nextOp (g : Group) (k : Option Nat) : (g.raiseFlag k).nextOp = g.nextOp := by
  cases k <;> rfl
@[simp] theorem Group.raiseFlag_floors (g : Group) (k : Option Nat) : (g.raiseFlag k).floors = g.floors := by
  cases k <;> rfl
@[simp] theorem Group.raiseFlag_readViews (g : Group) (k : Option Nat) : (g.raiseFlag k).readViews = g.readViews := by
  cases k <;> rfl
@[simp] theorem Group.raiseFlag_fenceViews (g : Group) (k : Option Nat) : (g.raiseFlag k).fenceViews = g.fenceViews := by
  cases k <;> rfl
@[simp] theorem Group.raiseFlag_scroll (g : Group) (k : Option Nat) : (g.raiseFlag k).scroll = g.scroll := by
  cases k <;> rfl
@[simp] theorem Group.raiseFlag_deferred (g : Group) (k : Option Nat) : (g.raiseFlag k).deferred = g.deferred := by
  cases k <;> rfl
@[simp] theorem Group.raiseFlag_cancel (g : Group) (k : Option Nat) : (g.raiseFlag k).cancel = g.cancel := by
  cases k <;> rfl
@[simp] theorem Group.raiseFlag_yieldUntil (g : Group) (k : Option Nat) : (g.raiseFlag k).yieldUntil = g.yieldUntil := by
  cases k <;> rfl
@[simp] theorem Group.raiseFlag_hintUntil (g : Group) (k : Option Nat) : (g.raiseFlag k).hintUntil = g.hintUntil := by
  cases k <;> rfl
@[simp] theorem Group.raiseFlag_evicted (g : Group) (k : Option Nat) : (g.raiseFlag k).evicted = g.evicted := by
  cases k <;> rfl
@[simp] theorem Group.raiseFlag_leaving (g : Group) (k : Option Nat) : (g.raiseFlag k).leaving = g.leaving := by
  cases k <;> rfl
@[simp] theorem Group.raiseFlag_due (g : Group) (k : Option Nat) : (g.raiseFlag k).due = g.due := by
  cases k <;> rfl
@[simp] theorem Group.raiseFlag_faults (g : Group) (k : Option Nat) : (g.raiseFlag k).faults = g.faults := by
  cases k <;> rfl

/-! ### `Group.lowerFlag` -/

@[simp] theorem Group.lowerFlag_id (g : Group) (k : Option Nat) : (g.lowerFlag k).id = g.id := by
  cases k <;> rfl
@[simp] theorem Group.lowerFlag_launch (g : Group) (k : Option Nat) : (g.lowerFlag k).launch = g.launch := by
  cases k <;> rfl
@[simp] theorem Group.lowerFlag_block (g : Group) (k : Option Nat) : (g.lowerFlag k).block = g.block := by
  cases k <;> rfl
@[simp] theorem Group.lowerFlag_sys (g : Group) (k : Option Nat) : (g.lowerFlag k).sys = g.sys := by
  cases k <;> rfl
@[simp] theorem Group.lowerFlag_ep (g : Group) (k : Option Nat) : (g.lowerFlag k).ep = g.ep := by
  cases k <;> rfl
@[simp] theorem Group.lowerFlag_slot (g : Group) (k : Option Nat) : (g.lowerFlag k).slot = g.slot := by
  cases k <;> rfl
@[simp] theorem Group.lowerFlag_part (g : Group) (k : Option Nat) : (g.lowerFlag k).part = g.part := by
  cases k <;> rfl
@[simp] theorem Group.lowerFlag_tenant (g : Group) (k : Option Nat) : (g.lowerFlag k).tenant = g.tenant := by
  cases k <;> rfl
@[simp] theorem Group.lowerFlag_prio (g : Group) (k : Option Nat) : (g.lowerFlag k).prio = g.prio := by
  cases k <;> rfl
@[simp] theorem Group.lowerFlag_age (g : Group) (k : Option Nat) : (g.lowerFlag k).age = g.age := by
  cases k <;> rfl
@[simp] theorem Group.lowerFlag_wid (g : Group) (k : Option Nat) : (g.lowerFlag k).wid = g.wid := by
  cases k <;> rfl
@[simp] theorem Group.lowerFlag_stg (g : Group) (k : Option Nat) : (g.lowerFlag k).stg = g.stg := by
  cases k <;> rfl
@[simp] theorem Group.lowerFlag_regs (g : Group) (k : Option Nat) : (g.lowerFlag k).regs = g.regs := by
  cases k <;> rfl
@[simp] theorem Group.lowerFlag_v (g : Group) (k : Option Nat) : (g.lowerFlag k).v = g.v := by
  cases k <;> rfl
@[simp] theorem Group.lowerFlag_s (g : Group) (k : Option Nat) : (g.lowerFlag k).s = g.s := by
  cases k <;> rfl
@[simp] theorem Group.lowerFlag_p (g : Group) (k : Option Nat) : (g.lowerFlag k).p = g.p := by
  cases k <;> rfl
@[simp] theorem Group.lowerFlag_q (g : Group) (k : Option Nat) : (g.lowerFlag k).q = g.q := by
  cases k <;> rfl
@[simp] theorem Group.lowerFlag_p0 (g : Group) (k : Option Nat) : (g.lowerFlag k).p0 = g.p0 := by
  cases k <;> rfl
@[simp] theorem Group.lowerFlag_p1 (g : Group) (k : Option Nat) : (g.lowerFlag k).p1 = g.p1 := by
  cases k <;> rfl
@[simp] theorem Group.lowerFlag_lastSecond (g : Group) (k : Option Nat) : (g.lowerFlag k).lastSecond = g.lastSecond := by
  cases k <;> rfl
@[simp] theorem Group.lowerFlag_stack (g : Group) (k : Option Nat) : (g.lowerFlag k).stack = g.stack := by
  cases k <;> rfl
@[simp] theorem Group.lowerFlag_recs (g : Group) (k : Option Nat) : (g.lowerFlag k).recs = g.recs := by
  cases k <;> rfl
@[simp] theorem Group.lowerFlag_nextRec (g : Group) (k : Option Nat) : (g.lowerFlag k).nextRec = g.nextRec := by
  cases k <;> rfl
@[simp] theorem Group.lowerFlag_nextThr (g : Group) (k : Option Nat) : (g.lowerFlag k).nextThr = g.nextThr := by
  cases k <;> rfl
@[simp] theorem Group.lowerFlag_srseed (g : Group) (k : Option Nat) : (g.lowerFlag k).srseed = g.srseed := by
  cases k <;> rfl
@[simp] theorem Group.lowerFlag_gAlu (g : Group) (k : Option Nat) : (g.lowerFlag k).gAlu = g.gAlu := by
  cases k <;> rfl
@[simp] theorem Group.lowerFlag_gFma (g : Group) (k : Option Nat) : (g.lowerFlag k).gFma = g.gFma := by
  cases k <;> rfl
@[simp] theorem Group.lowerFlag_fmask (g : Group) (k : Option Nat) : (g.lowerFlag k).fmask = g.fmask := by
  cases k <;> rfl
@[simp] theorem Group.lowerFlag_beta (g : Group) (k : Option Nat) : (g.lowerFlag k).beta = g.beta := by
  cases k <;> rfl
@[simp] theorem Group.lowerFlag_wait (g : Group) (k : Option Nat) : (g.lowerFlag k).wait = g.wait := by
  cases k <;> rfl
@[simp] theorem Group.lowerFlag_trap (g : Group) (k : Option Nat) : (g.lowerFlag k).trap = g.trap := by
  cases k <;> rfl
@[simp] theorem Group.lowerFlag_handler (g : Group) (k : Option Nat) : (g.lowerFlag k).handler = g.handler := by
  cases k <;> rfl
@[simp] theorem Group.lowerFlag_point (g : Group) (k : Option Nat) : (g.lowerFlag k).point = g.point := by
  cases k <;> rfl
@[simp] theorem Group.lowerFlag_sinceMark (g : Group) (k : Option Nat) : (g.lowerFlag k).sinceMark = g.sinceMark := by
  cases k <;> rfl
@[simp] theorem Group.lowerFlag_iq (g : Group) (k : Option Nat) : (g.lowerFlag k).iq = g.iq := by
  cases k <;> rfl
@[simp] theorem Group.lowerFlag_outst (g : Group) (k : Option Nat) : (g.lowerFlag k).outst = g.outst := by
  cases k <;> rfl
@[simp] theorem Group.lowerFlag_nextOp (g : Group) (k : Option Nat) : (g.lowerFlag k).nextOp = g.nextOp := by
  cases k <;> rfl
@[simp] theorem Group.lowerFlag_floors (g : Group) (k : Option Nat) : (g.lowerFlag k).floors = g.floors := by
  cases k <;> rfl
@[simp] theorem Group.lowerFlag_readViews (g : Group) (k : Option Nat) : (g.lowerFlag k).readViews = g.readViews := by
  cases k <;> rfl
@[simp] theorem Group.lowerFlag_fenceViews (g : Group) (k : Option Nat) : (g.lowerFlag k).fenceViews = g.fenceViews := by
  cases k <;> rfl
@[simp] theorem Group.lowerFlag_scroll (g : Group) (k : Option Nat) : (g.lowerFlag k).scroll = g.scroll := by
  cases k <;> rfl
@[simp] theorem Group.lowerFlag_deferred (g : Group) (k : Option Nat) : (g.lowerFlag k).deferred = g.deferred := by
  cases k <;> rfl
@[simp] theorem Group.lowerFlag_cancel (g : Group) (k : Option Nat) : (g.lowerFlag k).cancel = g.cancel := by
  cases k <;> rfl
@[simp] theorem Group.lowerFlag_yieldUntil (g : Group) (k : Option Nat) : (g.lowerFlag k).yieldUntil = g.yieldUntil := by
  cases k <;> rfl
@[simp] theorem Group.lowerFlag_hintUntil (g : Group) (k : Option Nat) : (g.lowerFlag k).hintUntil = g.hintUntil := by
  cases k <;> rfl
@[simp] theorem Group.lowerFlag_evicted (g : Group) (k : Option Nat) : (g.lowerFlag k).evicted = g.evicted := by
  cases k <;> rfl
@[simp] theorem Group.lowerFlag_leaving (g : Group) (k : Option Nat) : (g.lowerFlag k).leaving = g.leaving := by
  cases k <;> rfl
@[simp] theorem Group.lowerFlag_due (g : Group) (k : Option Nat) : (g.lowerFlag k).due = g.due := by
  cases k <;> rfl
@[simp] theorem Group.lowerFlag_faults (g : Group) (k : Option Nat) : (g.lowerFlag k).faults = g.faults := by
  cases k <;> rfl

/-! ### `Group.note` -/

@[simp] theorem Group.note_id (g : Group)  : (g.note ).id = g.id := rfl
@[simp] theorem Group.note_launch (g : Group)  : (g.note ).launch = g.launch := rfl
@[simp] theorem Group.note_block (g : Group)  : (g.note ).block = g.block := rfl
@[simp] theorem Group.note_sys (g : Group)  : (g.note ).sys = g.sys := rfl
@[simp] theorem Group.note_ep (g : Group)  : (g.note ).ep = g.ep := rfl
@[simp] theorem Group.note_slot (g : Group)  : (g.note ).slot = g.slot := rfl
@[simp] theorem Group.note_part (g : Group)  : (g.note ).part = g.part := rfl
@[simp] theorem Group.note_tenant (g : Group)  : (g.note ).tenant = g.tenant := rfl
@[simp] theorem Group.note_prio (g : Group)  : (g.note ).prio = g.prio := rfl
@[simp] theorem Group.note_age (g : Group)  : (g.note ).age = g.age := rfl
@[simp] theorem Group.note_wid (g : Group)  : (g.note ).wid = g.wid := rfl
@[simp] theorem Group.note_stg (g : Group)  : (g.note ).stg = g.stg := rfl
@[simp] theorem Group.note_regs (g : Group)  : (g.note ).regs = g.regs := rfl
@[simp] theorem Group.note_v (g : Group)  : (g.note ).v = g.v := rfl
@[simp] theorem Group.note_s (g : Group)  : (g.note ).s = g.s := rfl
@[simp] theorem Group.note_p (g : Group)  : (g.note ).p = g.p := rfl
@[simp] theorem Group.note_q (g : Group)  : (g.note ).q = g.q := rfl
@[simp] theorem Group.note_flags (g : Group)  : (g.note ).flags = g.flags := rfl
@[simp] theorem Group.note_p0 (g : Group)  : (g.note ).p0 = g.p0 := rfl
@[simp] theorem Group.note_p1 (g : Group)  : (g.note ).p1 = g.p1 := rfl
@[simp] theorem Group.note_lastSecond (g : Group)  : (g.note ).lastSecond = g.lastSecond := rfl
@[simp] theorem Group.note_stack (g : Group)  : (g.note ).stack = g.stack := rfl
@[simp] theorem Group.note_recs (g : Group)  : (g.note ).recs = g.recs := rfl
@[simp] theorem Group.note_nextRec (g : Group)  : (g.note ).nextRec = g.nextRec := rfl
@[simp] theorem Group.note_nextThr (g : Group)  : (g.note ).nextThr = g.nextThr := rfl
@[simp] theorem Group.note_srseed (g : Group)  : (g.note ).srseed = g.srseed := rfl
@[simp] theorem Group.note_gAlu (g : Group)  : (g.note ).gAlu = g.gAlu := rfl
@[simp] theorem Group.note_gFma (g : Group)  : (g.note ).gFma = g.gFma := rfl
@[simp] theorem Group.note_fmask (g : Group)  : (g.note ).fmask = g.fmask := rfl
@[simp] theorem Group.note_beta (g : Group)  : (g.note ).beta = g.beta := rfl
@[simp] theorem Group.note_wait (g : Group)  : (g.note ).wait = g.wait := rfl
@[simp] theorem Group.note_trap (g : Group)  : (g.note ).trap = g.trap := rfl
@[simp] theorem Group.note_handler (g : Group)  : (g.note ).handler = g.handler := rfl
@[simp] theorem Group.note_point (g : Group)  : (g.note ).point = g.point := rfl
@[simp] theorem Group.note_iq (g : Group)  : (g.note ).iq = g.iq := rfl
@[simp] theorem Group.note_outst (g : Group)  : (g.note ).outst = g.outst := rfl
@[simp] theorem Group.note_nextOp (g : Group)  : (g.note ).nextOp = g.nextOp := rfl
@[simp] theorem Group.note_floors (g : Group)  : (g.note ).floors = g.floors := rfl
@[simp] theorem Group.note_readViews (g : Group)  : (g.note ).readViews = g.readViews := rfl
@[simp] theorem Group.note_fenceViews (g : Group)  : (g.note ).fenceViews = g.fenceViews := rfl
@[simp] theorem Group.note_scroll (g : Group)  : (g.note ).scroll = g.scroll := rfl
@[simp] theorem Group.note_deferred (g : Group)  : (g.note ).deferred = g.deferred := rfl
@[simp] theorem Group.note_cancel (g : Group)  : (g.note ).cancel = g.cancel := rfl
@[simp] theorem Group.note_yieldUntil (g : Group)  : (g.note ).yieldUntil = g.yieldUntil := rfl
@[simp] theorem Group.note_hintUntil (g : Group)  : (g.note ).hintUntil = g.hintUntil := rfl
@[simp] theorem Group.note_evicted (g : Group)  : (g.note ).evicted = g.evicted := rfl
@[simp] theorem Group.note_leaving (g : Group)  : (g.note ).leaving = g.leaving := rfl
@[simp] theorem Group.note_due (g : Group)  : (g.note ).due = g.due := rfl
@[simp] theorem Group.note_faults (g : Group)  : (g.note ).faults = g.faults := rfl

end Sys2Proof.Machine
end

