-- ==== Sys2Proof/Laws/Memory.lean ====
section
/-! SUPPORT. The laws of memory and of the local stores: every operation keeps the canonical form, a byte that is written
reads as written, and every other byte reads as before. -/

namespace Sys2Proof.Machine

/-! ### Lists of bytes -/

theorem setBytes_wf {l : List (Nat × Byte)} : ∀ {m : List Host.Cell}, Memory.wf m = true → Memory.wf (setBytes m l) = true := by
  induction l with
  | nil => intro m h; exact h
  | cons x r ih => intro m h; exact ih (mwf_mset h)

/-- A byte that is not in the list of writes reads as before. -/
theorem setBytes_other {l : List (Nat × Byte)} {a : Nat} : ∀ {m : List Host.Cell}, (∀ b, (a, b) ∉ l) →
    mget memDefault (setBytes m l) a = mget memDefault m a := by
  induction l with
  | nil => intro m _; rfl
  | cons x r ih =>
    intro m h
    obtain ⟨k, v⟩ := x
    have hk : a ≠ k := fun e => h v (by simp [e])
    simp only [setBytes]
    rw [ih fun b hb => h b (List.mem_cons_of_mem _ hb)]
    exact mget_mset_other hk

/-- A byte written last in the list reads as written. -/
theorem setBytes_last {l r : List (Nat × Byte)} {a : Nat} {b : Byte} {m : List Host.Cell} (hm : Memory.wf m = true)
    (h : ∀ c, (a, c) ∉ r) : mget memDefault (setBytes m (l ++ (a, b) :: r)) a = b := by
  induction l generalizing m with
  | nil =>
    simp only [List.nil_append, setBytes]
    rw [setBytes_other h]
    exact mget_mset_same hm
  | cons x t ih => exact ih (mwf_mset hm)

/-! ### Drained writes -/

theorem State.drainWrite_mem (s : State) (id : Nat) (w : Who) (l : Scope) (bs : List WByte) (vs : List View) (k : Option Nat) :
    (s.drainWrite id w l bs vs k).mem = setBytes s.mem ((bs.filter fun b => !b.all).map fun b => (b.pa, b.new)) := rfl

theorem State.drainWrite_memOk {s : State} {id : Nat} {w : Who} {l : Scope} {bs : List WByte} {vs : List View} {k : Option Nat}
    (h : s.memOk) : (s.drainWrite id w l bs vs k).memOk := setBytes_wf h

/-- A write leaves every byte that it does not name. -/
theorem State.drainWrite_byte {s : State} {id : Nat} {w : Who} {l : Scope} {bs : List WByte} {vs : List View} {k : Option Nat} {a : Nat}
    (h : ∀ b ∈ bs, b.pa ≠ a) : (s.drainWrite id w l bs vs k).byte a = s.byte a := by
  unfold State.byte
  rw [State.drainWrite_mem]
  apply setBytes_other
  intro b hb
  obtain ⟨x, hx, he⟩ := List.mem_map.mp hb
  exact h x (List.mem_filter.mp hx).1 (congrArg Prod.fst he)

theorem State.devWrite_memOk {s : State} {w : Who} {l : Scope} {pa : Nat} {bs : List Byte} (h : s.memOk) :
    (s.devWrite w l pa bs).memOk := by
  unfold State.devWrite
  split
  · exact h
  · exact setBytes_wf h

theorem physBytes_pa {bs : List Byte} : ∀ {pa : Nat} {b : WByte}, b ∈ physBytes pa bs → pa ≤ b.pa ∧ b.pa < pa + bs.length := by
  induction bs with
  | nil => intro pa b h; simp [physBytes] at h
  | cons x r ih =>
    intro pa b h
    simp only [physBytes, List.mem_cons] at h
    rcases h with rfl | h
    · simp
    · have := ih h
      simp only [List.length_cons]
      omega

/-- A write of consecutive bytes by the device leaves every byte outside them. -/
theorem State.devWrite_byte {s : State} {w : Who} {l : Scope} {pa a : Nat} {bs : List Byte}
    (h : a < pa ∨ pa + bs.length ≤ a) : (s.devWrite w l pa bs).byte a = s.byte a := by
  unfold State.devWrite
  split
  · rfl
  · refine (State.drainWrite_byte fun b hb => ?_).trans rfl
    have := physBytes_pa hb
    omega

theorem State.drainEntry_memOk {s : State} {e : SbEntry} {l : Scope} {vs : List View} (h : s.memOk) :
    (s.drainEntry e l vs).memOk := setBytes_wf h

theorem State.drainAll_memOk {l : Scope} {vs : List View} {es : List SbEntry} : ∀ {s : State}, s.memOk →
    (s.drainAll l vs es).memOk := by
  induction es with
  | nil => intro s h; exact h
  | cons e r ih => intro s h; exact ih (State.drainEntry_memOk h)

theorem State.commitBlock_memOk {s : State} {b : Nat} (h : s.memOk) : (s.commitBlock b).memOk :=
  State.drainAll_memOk (es := s.sb.filter fun e => e.blk == b) h

/-! ### Local stores -/

theorem State.setLsByte_storeOk {s : State} {e off : Nat} {b : Byte} (h : s.storeOk) : (s.setLsByte e off b).storeOk :=
  mwf_mset h

theorem State.setLsBytes_storeOk {e : Nat} {bs : List Byte} : ∀ {s : State} {off : Nat}, s.storeOk →
    (s.setLsBytes e off bs).storeOk := by
  induction bs with
  | nil => intro s off h; exact h
  | cons b r ih => intro s off h; exact ih (State.setLsByte_storeOk h)

/-- A byte of a local store reads as written. -/
theorem State.lsByte_setLsByte {s : State} {e off : Nat} {b : Byte} (h : s.storeOk) :
    (s.setLsByte e off b).lsByte e off = b := mget_mset_same h

/-- Every other byte reads as before. -/
theorem State.lsByte_setLsByte_other {s : State} {e e' off off' : Nat} {b : Byte} (h : lsKey e' off' ≠ lsKey e off) :
    (s.setLsByte e off b).lsByte e' off' = s.lsByte e' off' := mget_mset_other h

/-- The registers and the path of a group that is stored are read back. -/
theorem State.group?_setGroup {s : State} {g h : Group} (hg : s.group? g.id = some h) : (s.setGroup g).group? g.id = some g :=
  findKey_modifyKey (f := fun _ => g) hg rfl

theorem State.group?_setGroup_other {s : State} {g : Group} {k : Nat} (hk : k ≠ g.id) :
    (s.setGroup g).group? k = s.group? k := findKey_modifyKey_other hk fun _ _ => rfl

/-- Where nothing has been written since the memory was loaded, a load returns the byte that stands there, whatever its choice. -/
theorem State.loadByte_quiet {s : State} {a : Who} {f : Map Nat} {cut pa loc : Nat} (hc : s.co = []) (hb : s.sb = []) :
    s.loadByte a f cut pa loc = (0, s.byte pa) := by
  simp [State.loadByte, State.aliasByte, State.sbHit, State.initialByte, hc, hb, lastHit]

theorem loadBytes_quiet {s : State} {a : Who} {cut : Nat} (hc : s.co = []) (hb : s.sb = []) : ∀ {pas locs : List Nat} {f : Map Nat},
    pas.length ≤ locs.length → (loadBytes s a cut pas locs f).1 = pas.map s.byte
  | [], [], _, _ | [], _ :: _, _, _ => rfl
  | _ :: _, [], _, h => absurd h (by simp)
  | pa :: ps, l :: ls, f, h => by
    simp only [loadBytes, State.loadByte_quiet hc hb, loadBytes_quiet hc hb (pas := ps) (locs := ls) (Nat.le_of_succ_le_succ h), List.map_cons]

end Sys2Proof.Machine
end

