-- ==== Sys2Proof/Laws/PerInstr.lean ====
section
/-! SUPPORT. One lemma for each instruction: its word has the major opcode of the opcode map (R60), and a step of the machine has no
word. -/

namespace Sys2Proof.Laws

open Sys2Proof.Machine

/-- The top byte of a word of fields is its opcode (R41). -/
theorem toWord_opc (r : Raw) : (Raw.toWord r).extractLsb' 88 8 = r.opc := by
  apply BitVec.eq_of_getLsbD_eq
  intro i hi
  simp only [Raw.toWord, BitVec.getLsbD_extractLsb', BitVec.getLsbD_append]
  simp [hi]
  repeat rw [if_neg (by omega)]
  rw [← BitVec.getLsbD_eq_getElem]
  congr 1
  omega

theorem headerWord_opc (h : Header) : (headerWord h).extractLsb' 88 8 = 0xF0#8 := by
  apply BitVec.eq_of_getLsbD_eq
  intro i hi
  simp only [headerWord, BitVec.getLsbD_extractLsb', BitVec.getLsbD_append]
  simp [hi]
  repeat rw [if_neg (by omega)]
  rw [← BitVec.getLsbD_eq_getElem]
  congr 1
  omega

/-- The major opcode of an instruction word (R60); none for a step of the machine. -/
def opcodeOf : Instr → Option (BitVec 8)
  | .clause _ => some 0xF0
  | .reservedOpcode opc _ => some opc
  | .iadd _ _ _ _ _ _ => some 0x01
  | .iaddc _ _ _ _ _ _ => some 0x02
  | .isub _ _ _ _ _ _ => some 0x03
  | .imul _ _ _ _ _ => some 0x04
  | .imulh _ _ _ _ _ => some 0x05
  | .imad _ _ _ _ _ _ => some 0x06
  | .imin _ _ _ _ _ => some 0x07
  | .imax _ _ _ _ _ => some 0x08
  | .iabs _ _ _ _ _ => some 0x09
  | .clmul _ _ _ _ _ _ => some 0x0A
  | .shl _ _ _ _ _ => some 0x10
  | .shr _ _ _ _ _ => some 0x11
  | .sar _ _ _ _ _ => some 0x12
  | .rotl _ _ _ _ _ => some 0x13
  | .blut _ _ _ _ _ _ => some 0x14
  | .and _ _ _ _ _ => some 0x15
  | .or _ _ _ _ _ => some 0x16
  | .xor _ _ _ _ _ => some 0x17
  | .not _ _ _ _ => some 0x18
  | .popc _ _ _ _ => some 0x19
  | .clz _ _ _ _ => some 0x1A
  | .ctz _ _ _ _ => some 0x1B
  | .brev _ _ _ _ => some 0x1C
  | .bswap _ _ _ _ => some 0x1D
  | .bfx _ _ _ _ _ => some 0x1E
  | .bfi _ _ _ _ _ _ => some 0x1F
  | .iset _ _ _ _ _ _ => some 0x20
  | .sel _ _ _ _ _ _ _ => some 0x21
  | .mov _ _ _ _ => some 0x22
  | .movi _ _ _ _ _ => some 0x23
  | .movh _ _ _ _ => some 0x24
  | .lea _ _ _ _ _ _ => some 0x25
  | .bysel _ _ _ _ _ => some 0x26
  | .bra _ _ _ => some 0x30
  | .brx _ _ _ => some 0x31
  | .call _ _ _ => some 0x32
  | .ret _ _ => some 0x33
  | .reconv _ => some 0x34
  | .join _ => some 0x35
  | .loop _ _ _ => some 0x36
  | .fadd _ _ _ _ _ => some 0x40
  | .fmul _ _ _ _ _ => some 0x41
  | .ffma _ _ _ _ _ _ => some 0x42
  | .fmin _ _ _ _ _ => some 0x43
  | .fmax _ _ _ _ _ => some 0x44
  | .fset _ _ _ _ _ _ => some 0x45
  | .fclass _ _ _ _ _ => some 0x46
  | .frnd _ _ _ _ _ => some 0x47
  | .twadd _ _ _ _ _ _ => some 0x48
  | .twmul _ _ _ _ _ _ => some 0x49
  | .twfma _ _ _ _ _ _ _ => some 0x4A
  | .cvt _ _ _ _ _ _ _ => some 0x50
  | .pack _ _ _ _ _ _ _ _ => some 0x51
  | .unpack _ _ _ _ _ => some 0x52
  | .rcp _ _ _ _ => some 0x53
  | .rsq _ _ _ _ => some 0x54
  | .sqrt _ _ _ _ => some 0x55
  | .ex2 _ _ _ _ => some 0x56
  | .lg2 _ _ _ _ => some 0x57
  | .sin _ _ _ _ => some 0x58
  | .cos _ _ _ _ => some 0x59
  | .tanh _ _ _ _ => some 0x5A
  | .shfl _ _ _ _ _ _ _ => some 0x60
  | .vote _ _ _ _ _ _ => some 0x61
  | .redg _ _ _ _ _ => some 0x62
  | .scang _ _ _ _ _ _ => some 0x63
  | .matchLanes _ _ _ _ _ => some 0x64
  | .pset _ _ _ _ _ _ => some 0x65
  | .p2s _ _ _ => some 0x66
  | .s2p _ _ _ _ => some 0x67
  | .ld _ _ _ _ _ _ _ => some 0x80
  | .st _ _ _ _ _ _ _ => some 0x81
  | .lds _ _ _ _ _ _ => some 0x82
  | .sts _ _ _ _ _ _ => some 0x83
  | .ldc _ _ _ _ _ _ => some 0x84
  | .pref _ _ _ _ => some 0x85
  | .atom _ _ _ _ _ _ _ _ _ _ => some 0x86
  | .atoms _ _ _ _ _ _ _ _ _ => some 0x87
  | .red _ _ _ _ _ _ _ _ _ => some 0x88
  | .fence _ _ _ => some 0x89
  | .afence _ _ => some 0x8A
  | .commit _ => some 0x8B
  | .mark _ _ _ _ _ _ => some 0x8C
  | .binit _ _ _ _ _ => some 0x90
  | .barr _ _ _ _ _ => some 0x91
  | .bexp _ _ _ _ _ => some 0x92
  | .bwait _ _ _ _ _ _ _ => some 0x93
  | .btry _ _ _ _ _ _ => some 0x94
  | .binv _ _ _ _ => some 0x95
  | .rinit _ _ _ _ _ => some 0x96
  | .rres _ _ _ _ _ => some 0x97
  | .rpub _ _ _ _ => some 0x98
  | .rwait _ _ _ _ _ => some 0x99
  | .rrel _ _ _ _ => some 0x9A
  | .send _ _ _ _ => some 0xA0
  | .recv _ _ _ _ => some 0xA1
  | .wpull _ _ _ _ => some 0xA2
  | .wpush _ _ => some 0xA3
  | .launch _ _ _ _ => some 0xA4
  | .yld _ => some 0xA5
  | .sleep _ _ => some 0xA6
  | .exit _ => some 0xA7
  | .widx _ _ _ _ _ _ => some 0xA8
  | .scroll _ _ _ _ => some 0xB0
  | .scrollX _ _ _ _ => some 0xB0
  | .scrq _ _ => some 0xB1
  | .scrres _ => some 0xB2
  | .cpy _ _ _ => some 0xB3
  | .cpym _ _ _ => some 0xB4
  | .cpyg _ _ _ => some 0xB5
  | .cpyn _ _ _ => some 0xB6
  | .cpyc _ _ _ => some 0xB7
  | .cpycRst _ _ _ => some 0xB7
  | .cpyq _ _ _ _ => some 0xB8
  | .wload _ _ _ => some 0xC0
  | .mma _ _ _ _ _ => some 0xC1
  | .aload _ _ _ _ _ _ _ => some 0xC2
  | .adrain _ _ _ _ _ _ _ _ _ _ => some 0xC3
  | .azero _ _ => some 0xC4
  | .delta _ _ _ _ _ => some 0xC5
  | .deltaCk _ _ _ => some 0xC5
  | .tsolve _ _ _ _ _ => some 0xC6
  | .dstep _ _ _ _ => some 0xC7
  | .atile _ _ _ => some 0xC8
  | .amerge _ _ _ _ => some 0xC9
  | .kvapp _ _ _ _ _ => some 0xD0
  | .kvmap _ _ _ _ _ => some 0xD1
  | .kvmrg _ _ _ _ => some 0xD2
  | .park _ _ _ => some 0xD3
  | .promo _ _ _ => some 0xD4
  | .tierq _ _ _ _ => some 0xD5
  | .trap _ _ => some 0xE0
  | .rtt _ _ => some 0xE1
  | .rds _ _ _ => some 0xE2
  | .wrs _ _ _ => some 0xE3
  | .nop _ => some 0xE4
  | .bkpt _ _ => some 0xE5
  | .tlbinvVa _ _ _ => some 0xE8
  | .tlbinvTnt _ _ _ => some 0xE8
  | .tlbinvPart _ _ _ => some 0xE8
  | .qctlMap _ _ _ _ => some 0xE9
  | .qctlUnmap _ _ _ _ => some 0xE9
  | .qctlPrio _ _ _ _ => some 0xE9
  | .qctlSusp _ _ _ _ => some 0xE9
  | .qctlResm _ _ _ _ => some 0xE9
  | .qctlState _ _ _ _ => some 0xE9
  | .pctlCfg _ _ _ _ => some 0xEA
  | .pctlIw _ _ _ _ => some 0xEA
  | .pctlStop _ _ _ _ => some 0xEA
  | .pctlReset _ _ _ _ => some 0xEA
  | .pctlGo _ _ _ _ => some 0xEA
  | .ctxsv _ _ _ _ => some 0xEB
  | .ctxld _ _ _ _ => some 0xEC
  | .errrdRd _ _ _ _ => some 0xED
  | .errrdRdclr _ _ _ _ => some 0xED
  | .wdogSet _ _ _ => some 0xEE
  | .enrgBal _ _ _ _ => some 0xEF
  | .enrgCoef _ _ _ _ => some 0xEF
  | .enrgBurst _ _ _ _ => some 0xEF
  | .enrgShare _ _ _ _ => some 0xEF
  | .pathSwap _ _ => none
  | .bwaitTimeout _ => none
  | .launchWaitTimeout _ => none
  | .sleepExpiry _ => none
  | .variableLatencyResult _ _ _ => none
  | .memoryOperationPerform _ _ _ => none
  | .storeBufferDrain _ => none
  | .propagationLevelRaise _ => none
  | .scrollProgress _ _ => none
  | .copyRunGrant _ => none
  | .copyRunLand _ _ => none
  | .engineCommandCompletion _ => none
  | .chainEntryComplete _ => none
  | .arrayCommandExecute _ _ => none
  | .cacheCommandExecute _ _ => none
  | .faultRecordPost _ _ => none
  | .faultInterrupt _ => none
  | .faultResponse _ _ => none
  | .patchPlacement _ => none
  | .evictedGroupReturn _ => none
  | .launchEntryStart _ _ => none
  | .launchCompletion _ => none
  | .stageTick _ => none
  | .balanceTick _ => none
  | .balanceItemArrival _ => none
  | .energyWindow _ => none
  | .throttleTick _ => none
  | .watchdogExpiry _ _ => none
  | .notify _ _ _ => none
  | .queuePendingInterrupt _ => none
  | .slotStarvationInterrupt _ => none
  | .registerWriteOther _ _ _ => none
  | .neltikFrame _ _ _ => none
  | .copyMessageArrival _ _ _ => none
  | .transportAck _ _ _ => none
  | .rateTokenRefill _ => none
  | .sluiceWrite _ _ _ => none
  | .wakePerform _ => none
  | .wakeStageADone _ _ => none
  | .wakeStageBDone _ _ => none
  | .ageingVisit _ _ => none
  | .tierMoveDone _ => none
  | .poolLowInterrupt _ => none
  | .flashCommandCompletion _ _ => none
  | .flashCommandTimeout _ => none
  | .rakePatrol _ _ _ _ => none
  | .hostCxlMemAccess _ _ _ => none
  | .powerGood _ => none
  | .packageReset => none
  | .powerDownRequest => none
  | .powerWindow _ => none
  | .partitionMap _ _ => none
  | .startManager _ _ => none
  | .pair _ _ => none
  | .unpair _ _ => none
  | .pairReset _ _ => none
  | .rakePassLength _ _ => none
  | .telemetry _ _ => none
  | .loadFirmware _ _ => none
  | .identify _ _ => none
  | .mailboxCommandDone => none
  | .pairInputApply _ => none
  | .signatureExchange _ _ => none
  | .pairLinkLost _ => none
  | .getVersion _ => none
  | .getCapabilities _ => none
  | .negotiateAlgorithms _ => none
  | .getDigests _ => none
  | .getCertificate _ => none
  | .challenge _ => none
  | .getMeasurements _ => none

/-- A word carries its opcode; a step of the machine is no word. -/
def Encodes.Statement (i : Instr) : Prop :=
  match opcodeOf i with
  | some o => isWord i = true ∧ (encode i).extractLsb' 88 8 = o
  | none => isWord i = false ∧ encode i = 0

theorem Encodes.clause (h : Header) : Encodes.Statement (.clause h) := ⟨rfl, headerWord_opc h⟩
theorem Encodes.reservedOpcode (opc : BitVec 8) (rest : BitVec 88) : Encodes.Statement (.reservedOpcode opc rest) := ⟨rfl, by
    show (Raw.toWord (Raw.ofWord (opc ++ rest))).extractLsb' 88 8 = opc
    rw [toWord_opc]
    exact BitVec.extractLsb'_append_eq_left⟩
theorem Encodes.iadd (c : Ctl) (t : Ty) (sat : Bool) (d : Dst) (a : RSrc) (b : Src) :
    Encodes.Statement (.iadd c t sat d a b) := ⟨rfl, toWord_opc _⟩
theorem Encodes.iaddc (c : Ctl) (t : Ty) (d : Dst) (a : RSrc) (b : Src) (pn : BitVec 3) :
    Encodes.Statement (.iaddc c t d a b pn) := ⟨rfl, toWord_opc _⟩
theorem Encodes.isub (c : Ctl) (t : Ty) (sat : Bool) (d : Dst) (a : RSrc) (b : Src) :
    Encodes.Statement (.isub c t sat d a b) := ⟨rfl, toWord_opc _⟩
theorem Encodes.imul (c : Ctl) (t : Ty) (d : Dst) (a : RSrc) (b : Src) :
    Encodes.Statement (.imul c t d a b) := ⟨rfl, toWord_opc _⟩
theorem Encodes.imulh (c : Ctl) (t : Ty) (d : Dst) (a : RSrc) (b : Src) :
    Encodes.Statement (.imulh c t d a b) := ⟨rfl, toWord_opc _⟩
theorem Encodes.imad (c : Ctl) (t : Ty) (d : Dst) (a : RSrc) (b : RSrc) (e : RSrc) :
    Encodes.Statement (.imad c t d a b e) := ⟨rfl, toWord_opc _⟩
theorem Encodes.imin (c : Ctl) (t : Ty) (d : Dst) (a : RSrc) (b : Src) :
    Encodes.Statement (.imin c t d a b) := ⟨rfl, toWord_opc _⟩
theorem Encodes.imax (c : Ctl) (t : Ty) (d : Dst) (a : RSrc) (b : Src) :
    Encodes.Statement (.imax c t d a b) := ⟨rfl, toWord_opc _⟩
theorem Encodes.iabs (c : Ctl) (t : Ty) (sat : Bool) (d : Dst) (a : RSrc) :
    Encodes.Statement (.iabs c t sat d a) := ⟨rfl, toWord_opc _⟩
theorem Encodes.clmul (c : Ctl) (t : Ty) (hi : Bool) (d : Dst) (a : RSrc) (b : Src) :
    Encodes.Statement (.clmul c t hi d a b) := ⟨rfl, toWord_opc _⟩
theorem Encodes.shl (c : Ctl) (t : Ty) (d : Dst) (a : RSrc) (b : Src) : Encodes.Statement (.shl c t d a b) := ⟨rfl, toWord_opc _⟩
theorem Encodes.shr (c : Ctl) (t : Ty) (d : Dst) (a : RSrc) (b : Src) : Encodes.Statement (.shr c t d a b) := ⟨rfl, toWord_opc _⟩
theorem Encodes.sar (c : Ctl) (t : Ty) (d : Dst) (a : RSrc) (b : Src) : Encodes.Statement (.sar c t d a b) := ⟨rfl, toWord_opc _⟩
theorem Encodes.rotl (c : Ctl) (t : Ty) (d : Dst) (a : RSrc) (b : Src) :
    Encodes.Statement (.rotl c t d a b) := ⟨rfl, toWord_opc _⟩
theorem Encodes.blut (c : Ctl) (t : Ty) (d : Dst) (a : RSrc) (b : Src) (lut : BitVec 8) :
    Encodes.Statement (.blut c t d a b lut) := ⟨rfl, toWord_opc _⟩
theorem Encodes.and (c : Ctl) (t : Ty) (d : Dst) (a : RSrc) (b : Src) : Encodes.Statement (.and c t d a b) := ⟨rfl, toWord_opc _⟩
theorem Encodes.or (c : Ctl) (t : Ty) (d : Dst) (a : RSrc) (b : Src) : Encodes.Statement (.or c t d a b) := ⟨rfl, toWord_opc _⟩
theorem Encodes.xor (c : Ctl) (t : Ty) (d : Dst) (a : RSrc) (b : Src) : Encodes.Statement (.xor c t d a b) := ⟨rfl, toWord_opc _⟩
theorem Encodes.not (c : Ctl) (t : Ty) (d : Dst) (a : RSrc) : Encodes.Statement (.not c t d a) := ⟨rfl, toWord_opc _⟩
theorem Encodes.popc (c : Ctl) (t : Ty) (d : Dst) (a : RSrc) : Encodes.Statement (.popc c t d a) := ⟨rfl, toWord_opc _⟩
theorem Encodes.clz (c : Ctl) (t : Ty) (d : Dst) (a : RSrc) : Encodes.Statement (.clz c t d a) := ⟨rfl, toWord_opc _⟩
theorem Encodes.ctz (c : Ctl) (t : Ty) (d : Dst) (a : RSrc) : Encodes.Statement (.ctz c t d a) := ⟨rfl, toWord_opc _⟩
theorem Encodes.brev (c : Ctl) (t : Ty) (d : Dst) (a : RSrc) : Encodes.Statement (.brev c t d a) := ⟨rfl, toWord_opc _⟩
theorem Encodes.bswap (c : Ctl) (t : Ty) (d : Dst) (a : RSrc) : Encodes.Statement (.bswap c t d a) := ⟨rfl, toWord_opc _⟩
theorem Encodes.bfx (c : Ctl) (t : Ty) (d : Dst) (a : RSrc) (b : Src) : Encodes.Statement (.bfx c t d a b) := ⟨rfl, toWord_opc _⟩
theorem Encodes.bfi (c : Ctl) (t : Ty) (d : Dst) (a : RSrc) (b : RSrc) (e : RSrc) :
    Encodes.Statement (.bfi c t d a b e) := ⟨rfl, toWord_opc _⟩
theorem Encodes.iset (c : Ctl) (t : Ty) (cc : Cond) (d : PReg) (a : RSrc) (b : Src) :
    Encodes.Statement (.iset c t cc d a b) := ⟨rfl, toWord_opc _⟩
theorem Encodes.sel (c : Ctl) (t : Ty) (d : Dst) (a : RSrc) (b : Src) (pn : BitVec 3) (neg : Bool) :
    Encodes.Statement (.sel c t d a b pn neg) := ⟨rfl, toWord_opc _⟩
theorem Encodes.mov (c : Ctl) (t : Ty) (d : Dst) (b : Src) : Encodes.Statement (.mov c t d b) := ⟨rfl, toWord_opc _⟩
theorem Encodes.movi (c : Ctl) (t : Ty) (d : BitVec 8) (b : Src) (step : BitVec 8) :
    Encodes.Statement (.movi c t d b step) := ⟨rfl, toWord_opc _⟩
theorem Encodes.movh (c : Ctl) (d : Dst) (a : RSrc) (hi : BitVec 32) : Encodes.Statement (.movh c d a hi) := ⟨rfl, toWord_opc _⟩
theorem Encodes.lea (c : Ctl) (t : Ty) (d : Dst) (a : RSrc) (b : RSrc) (n : BitVec 6) :
    Encodes.Statement (.lea c t d a b n) := ⟨rfl, toWord_opc _⟩
theorem Encodes.bysel (c : Ctl) (d : Dst) (a : RSrc) (b : RSrc) (sel : BitVec 20) :
    Encodes.Statement (.bysel c d a b sel) := ⟨rfl, toWord_opc _⟩
theorem Encodes.bra (c : Ctl) (disp : BitVec 32) (rcv : BitVec 24) : Encodes.Statement (.bra c disp rcv) := ⟨rfl, toWord_opc _⟩
theorem Encodes.brx (c : Ctl) (a : RSrc) (point : BitVec 32) : Encodes.Statement (.brx c a point) := ⟨rfl, toWord_opc _⟩
theorem Encodes.call (c : Ctl) (n : BitVec 6) (disp : BitVec 32) : Encodes.Statement (.call c n disp) := ⟨rfl, toWord_opc _⟩
theorem Encodes.ret (c : Ctl) (n : BitVec 6) : Encodes.Statement (.ret c n) := ⟨rfl, toWord_opc _⟩
theorem Encodes.reconv (c : Ctl) : Encodes.Statement (.reconv c) := ⟨rfl, toWord_opc _⟩
theorem Encodes.join (c : Ctl) : Encodes.Statement (.join c) := ⟨rfl, toWord_opc _⟩
theorem Encodes.loop (c : Ctl) (n : BitVec 6) (disp : BitVec 32) : Encodes.Statement (.loop c n disp) := ⟨rfl, toWord_opc _⟩
theorem Encodes.fadd (c : Ctl) (rm : Rnd) (d : Dst) (a : RSrc) (b : Src) :
    Encodes.Statement (.fadd c rm d a b) := ⟨rfl, toWord_opc _⟩
theorem Encodes.fmul (c : Ctl) (rm : Rnd) (d : Dst) (a : RSrc) (b : Src) :
    Encodes.Statement (.fmul c rm d a b) := ⟨rfl, toWord_opc _⟩
theorem Encodes.ffma (c : Ctl) (rm : Rnd) (d : Dst) (a : RSrc) (b : RSrc) (e : RSrc) :
    Encodes.Statement (.ffma c rm d a b e) := ⟨rfl, toWord_opc _⟩
theorem Encodes.fmin (c : Ctl) (t : Ty) (d : Dst) (a : RSrc) (b : Src) :
    Encodes.Statement (.fmin c t d a b) := ⟨rfl, toWord_opc _⟩
theorem Encodes.fmax (c : Ctl) (t : Ty) (d : Dst) (a : RSrc) (b : Src) :
    Encodes.Statement (.fmax c t d a b) := ⟨rfl, toWord_opc _⟩
theorem Encodes.fset (c : Ctl) (t : Ty) (cc : FCond) (d : PReg) (a : RSrc) (b : Src) :
    Encodes.Statement (.fset c t cc d a b) := ⟨rfl, toWord_opc _⟩
theorem Encodes.fclass (c : Ctl) (t : Ty) (d : PReg) (a : RSrc) (mask : BitVec 9) :
    Encodes.Statement (.fclass c t d a mask) := ⟨rfl, toWord_opc _⟩
theorem Encodes.frnd (c : Ctl) (t : Ty) (rm : Rnd) (d : Dst) (a : RSrc) :
    Encodes.Statement (.frnd c t rm d a) := ⟨rfl, toWord_opc _⟩
theorem Encodes.twadd (c : Ctl) (t : Ty) (rm : Rnd) (d : Dst) (a : RSrc) (b : Src) :
    Encodes.Statement (.twadd c t rm d a b) := ⟨rfl, toWord_opc _⟩
theorem Encodes.twmul (c : Ctl) (t : Ty) (rm : Rnd) (d : Dst) (a : RSrc) (b : Src) :
    Encodes.Statement (.twmul c t rm d a b) := ⟨rfl, toWord_opc _⟩
theorem Encodes.twfma (c : Ctl) (t : Ty) (rm : Rnd) (d : Dst) (a : RSrc) (b : RSrc) (e : RSrc) :
    Encodes.Statement (.twfma c t rm d a b e) := ⟨rfl, toWord_opc _⟩
theorem Encodes.cvt (c : Ctl) (satf : Bool) (dt : Ty) (st : Ty) (rm : Rnd) (d : Dst) (a : RSrc) :
    Encodes.Statement (.cvt c satf dt st rm d a) := ⟨rfl, toWord_opc _⟩
theorem Encodes.pack (c : Ctl) (t : Ty) (rm : Rnd) (satf : Bool) (h : Bool) (d : Dst) (a : RSrc) (b : RSrc) :
    Encodes.Statement (.pack c t rm satf h d a b) := ⟨rfl, toWord_opc _⟩
theorem Encodes.unpack (c : Ctl) (t : Ty) (d : Dst) (a : RSrc) (sel : BitVec 6) :
    Encodes.Statement (.unpack c t d a sel) := ⟨rfl, toWord_opc _⟩
theorem Encodes.rcp (c : Ctl) (t : Ty) (d : Dst) (a : RSrc) : Encodes.Statement (.rcp c t d a) := ⟨rfl, toWord_opc _⟩
theorem Encodes.rsq (c : Ctl) (t : Ty) (d : Dst) (a : RSrc) : Encodes.Statement (.rsq c t d a) := ⟨rfl, toWord_opc _⟩
theorem Encodes.sqrt (c : Ctl) (t : Ty) (d : Dst) (a : RSrc) : Encodes.Statement (.sqrt c t d a) := ⟨rfl, toWord_opc _⟩
theorem Encodes.ex2 (c : Ctl) (t : Ty) (d : Dst) (a : RSrc) : Encodes.Statement (.ex2 c t d a) := ⟨rfl, toWord_opc _⟩
theorem Encodes.lg2 (c : Ctl) (t : Ty) (d : Dst) (a : RSrc) : Encodes.Statement (.lg2 c t d a) := ⟨rfl, toWord_opc _⟩
theorem Encodes.sin (c : Ctl) (t : Ty) (d : Dst) (a : RSrc) : Encodes.Statement (.sin c t d a) := ⟨rfl, toWord_opc _⟩
theorem Encodes.cos (c : Ctl) (t : Ty) (d : Dst) (a : RSrc) : Encodes.Statement (.cos c t d a) := ⟨rfl, toWord_opc _⟩
theorem Encodes.tanh (c : Ctl) (t : Ty) (d : Dst) (a : RSrc) : Encodes.Statement (.tanh c t d a) := ⟨rfl, toWord_opc _⟩
theorem Encodes.shfl (c : Ctl) (t : Ty) (mode : ShflMode) (d : BitVec 8) (a : BitVec 8) (b : Src) (seg : BitVec 3) :
    Encodes.Statement (.shfl c t mode d a b seg) := ⟨rfl, toWord_opc _⟩
theorem Encodes.vote (c : Ctl) (mode : VoteMode) (u : Bool) (d : BitVec 8) (p : BitVec 3) (neg : Bool) :
    Encodes.Statement (.vote c mode u d p neg) := ⟨rfl, toWord_opc _⟩
theorem Encodes.redg (c : Ctl) (op : RedOp) (t : Ty) (d : Dst) (a : BitVec 8) :
    Encodes.Statement (.redg c op t d a) := ⟨rfl, toWord_opc _⟩
theorem Encodes.scang (c : Ctl) (op : RedOp) (t : Ty) (exc : Bool) (d : BitVec 8) (a : BitVec 8) :
    Encodes.Statement (.scang c op t exc d a) := ⟨rfl, toWord_opc _⟩
theorem Encodes.matchLanes (c : Ctl) (all : Bool) (t : Ty) (d : BitVec 8) (a : BitVec 8) :
    Encodes.Statement (.matchLanes c all t d a) := ⟨rfl, toWord_opc _⟩
theorem Encodes.pset (c : Ctl) (d : PReg) (a b e : PReg) (lut : BitVec 8) :
    Encodes.Statement (.pset c d a b e lut) := ⟨rfl, toWord_opc _⟩
theorem Encodes.p2s (c : Ctl) (d : Dst) (mask : BitVec 8) : Encodes.Statement (.p2s c d mask) := ⟨rfl, toWord_opc _⟩
theorem Encodes.s2p (c : Ctl) (u : Bool) (a : RSrc) (mask : BitVec 8) : Encodes.Statement (.s2p c u a mask) := ⟨rfl, toWord_opc _⟩
theorem Encodes.ld (c : Ctl) (t : Ty) (sc : Scope) (o : Ord) (d : Dst) (base : BitVec 6) (ix : MemIx) :
    Encodes.Statement (.ld c t sc o d base ix) := ⟨rfl, toWord_opc _⟩
theorem Encodes.st (c : Ctl) (t : Ty) (sc : Scope) (o : Ord) (d : BitVec 8) (base : BitVec 6) (ix : MemIx) :
    Encodes.Statement (.st c t sc o d base ix) := ⟨rfl, toWord_opc _⟩
theorem Encodes.lds (c : Ctl) (t : Ty) (w : Win) (d : Dst) (a : RSrc) (ix : MemIx) :
    Encodes.Statement (.lds c t w d a ix) := ⟨rfl, toWord_opc _⟩
theorem Encodes.sts (c : Ctl) (t : Ty) (w : Win) (d : BitVec 8) (a : RSrc) (ix : MemIx) :
    Encodes.Statement (.sts c t w d a ix) := ⟨rfl, toWord_opc _⟩
theorem Encodes.ldc (c : Ctl) (t : Ty) (d : Dst) (ix : RSrc) (bank : BitVec 4) (off : BitVec 32) :
    Encodes.Statement (.ldc c t d ix bank off) := ⟨rfl, toWord_opc _⟩
theorem Encodes.pref (c : Ctl) (tb : Bool) (base : BitVec 6) (ix : MemIx) :
    Encodes.Statement (.pref c tb base ix) := ⟨rfl, toWord_opc _⟩
theorem Encodes.atom (c : Ctl) (t : Ty) (sc : Scope) (o : Ord) (d : Dst) (base : BitVec 6) (ix : Option (BitVec 8)) (op : AtomOp) (f : Bool) (v : AtomVal) :
    Encodes.Statement (.atom c t sc o d base ix op f v) := ⟨rfl, toWord_opc _⟩
theorem Encodes.atoms (c : Ctl) (t : Ty) (w : Win) (d : Dst) (a : RSrc) (ix : Option (BitVec 8)) (op : AtomOp) (f : Bool) (v : AtomVal) :
    Encodes.Statement (.atoms c t w d a ix op f v) := ⟨rfl, toWord_opc _⟩
theorem Encodes.red (c : Ctl) (t : Ty) (sc : Scope) (o : Ord) (base : BitVec 6) (ix : Option (BitVec 8)) (op : AtomOp) (f : Bool) (v : AtomVal) :
    Encodes.Statement (.red c t sc o base ix op f v) := ⟨rfl, toWord_opc _⟩
theorem Encodes.fence (c : Ctl) (o : Ord) (sc : Scope) : Encodes.Statement (.fence c o sc) := ⟨rfl, toWord_opc _⟩
theorem Encodes.afence (c : Ctl) (sc : Scope) : Encodes.Statement (.afence c sc) := ⟨rfl, toWord_opc _⟩
theorem Encodes.commit (c : Ctl) : Encodes.Statement (.commit c) := ⟨rfl, toWord_opc _⟩
theorem Encodes.mark (c : Ctl) (nl : BitVec 5) (a : BitVec 8) (nu : BitVec 5) (b : BitVec 6) (disp : BitVec 24) :
    Encodes.Statement (.mark c nl a nu b disp) := ⟨rfl, toWord_opc _⟩
theorem Encodes.binit (c : Ctl) (w : Win) (sc : Scope) (a : BitVec 6) (v : USrc) :
    Encodes.Statement (.binit c w sc a v) := ⟨rfl, toWord_opc _⟩
theorem Encodes.barr (c : Ctl) (w : Win) (sc : Scope) (a : BitVec 6) (v : USrc) :
    Encodes.Statement (.barr c w sc a v) := ⟨rfl, toWord_opc _⟩
theorem Encodes.bexp (c : Ctl) (w : Win) (sc : Scope) (a : BitVec 6) (v : USrc) :
    Encodes.Statement (.bexp c w sc a v) := ⟨rfl, toWord_opc _⟩
theorem Encodes.bwait (c : Ctl) (w : Win) (sc : Scope) (d : PReg) (a : BitVec 6) (ph : BitVec 6) (t : BitVec 32) :
    Encodes.Statement (.bwait c w sc d a ph t) := ⟨rfl, toWord_opc _⟩
theorem Encodes.btry (c : Ctl) (w : Win) (sc : Scope) (d : PReg) (a : BitVec 6) (ph : BitVec 6) :
    Encodes.Statement (.btry c w sc d a ph) := ⟨rfl, toWord_opc _⟩
theorem Encodes.binv (c : Ctl) (w : Win) (sc : Scope) (a : BitVec 6) : Encodes.Statement (.binv c w sc a) := ⟨rfl, toWord_opc _⟩
theorem Encodes.rinit (c : Ctl) (w : Win) (sc : Scope) (a : BitVec 6) (m : BitVec 6) :
    Encodes.Statement (.rinit c w sc a m) := ⟨rfl, toWord_opc _⟩
theorem Encodes.rres (c : Ctl) (w : Win) (sc : Scope) (d : BitVec 6) (a : BitVec 6) :
    Encodes.Statement (.rres c w sc d a) := ⟨rfl, toWord_opc _⟩
theorem Encodes.rpub (c : Ctl) (w : Win) (sc : Scope) (a : BitVec 6) : Encodes.Statement (.rpub c w sc a) := ⟨rfl, toWord_opc _⟩
theorem Encodes.rwait (c : Ctl) (w : Win) (sc : Scope) (d : BitVec 6) (a : BitVec 6) :
    Encodes.Statement (.rwait c w sc d a) := ⟨rfl, toWord_opc _⟩
theorem Encodes.rrel (c : Ctl) (w : Win) (sc : Scope) (a : BitVec 6) : Encodes.Statement (.rrel c w sc a) := ⟨rfl, toWord_opc _⟩
theorem Encodes.send (c : Ctl) (rel : Bool) (a : BitVec 6) (ch : BitVec 6) :
    Encodes.Statement (.send c rel a ch) := ⟨rfl, toWord_opc _⟩
theorem Encodes.recv (c : Ctl) (acq : Bool) (d : BitVec 6) (ch : BitVec 6) :
    Encodes.Statement (.recv c acq d ch) := ⟨rfl, toWord_opc _⟩
theorem Encodes.wpull (c : Ctl) (poll : Bool) (d : BitVec 6) (q : BitVec 2) :
    Encodes.Statement (.wpull c poll d q) := ⟨rfl, toWord_opc _⟩
theorem Encodes.wpush (c : Ctl) (a : BitVec 6) : Encodes.Statement (.wpush c a) := ⟨rfl, toWord_opc _⟩
theorem Encodes.launch (c : Ctl) (w : Bool) (d : PReg) (a : BitVec 6) : Encodes.Statement (.launch c w d a) := ⟨rfl, toWord_opc _⟩
theorem Encodes.yld (c : Ctl) : Encodes.Statement (.yld c) := ⟨rfl, toWord_opc _⟩
theorem Encodes.sleep (c : Ctl) (v : USrc) : Encodes.Statement (.sleep c v) := ⟨rfl, toWord_opc _⟩
theorem Encodes.exit (c : Ctl) : Encodes.Statement (.exit c) := ⟨rfl, toWord_opc _⟩
theorem Encodes.widx (c : Ctl) (ext : Bool) (d : Dst) (a : RSrc) (b : RSrc) (f : BitVec 3) :
    Encodes.Statement (.widx c ext d a b f) := ⟨rfl, toWord_opc _⟩
theorem Encodes.scroll (c : Ctl) (n : BitVec 6) (dx dy : BitVec 7) : Encodes.Statement (.scroll c n dx dy) := ⟨rfl, toWord_opc _⟩
theorem Encodes.scrollX (c : Ctl) (n : BitVec 6) (dx dy : BitVec 7) :
    Encodes.Statement (.scrollX c n dx dy) := ⟨rfl, toWord_opc _⟩
theorem Encodes.scrq (c : Ctl) (d : BitVec 6) : Encodes.Statement (.scrq c d) := ⟨rfl, toWord_opc _⟩
theorem Encodes.scrres (c : Ctl) : Encodes.Statement (.scrres c) := ⟨rfl, toWord_opc _⟩
theorem Encodes.cpy (c : Ctl) (n : BitVec 6) (m : Option (BitVec 6)) : Encodes.Statement (.cpy c n m) := ⟨rfl, toWord_opc _⟩
theorem Encodes.cpym (c : Ctl) (n : BitVec 6) (m : Option (BitVec 6)) : Encodes.Statement (.cpym c n m) := ⟨rfl, toWord_opc _⟩
theorem Encodes.cpyg (c : Ctl) (n : BitVec 6) (m : Option (BitVec 6)) : Encodes.Statement (.cpyg c n m) := ⟨rfl, toWord_opc _⟩
theorem Encodes.cpyn (c : Ctl) (n : BitVec 6) (m : Option (BitVec 6)) : Encodes.Statement (.cpyn c n m) := ⟨rfl, toWord_opc _⟩
theorem Encodes.cpyc (c : Ctl) (n : BitVec 6) (ch : BitVec 2) : Encodes.Statement (.cpyc c n ch) := ⟨rfl, toWord_opc _⟩
theorem Encodes.cpycRst (c : Ctl) (n : BitVec 6) (ch : BitVec 2) : Encodes.Statement (.cpycRst c n ch) := ⟨rfl, toWord_opc _⟩
theorem Encodes.cpyq (c : Ctl) (sel : BitVec 2) (d : BitVec 6) (e : BitVec 3) :
    Encodes.Statement (.cpyq c sel d e) := ⟨rfl, toWord_opc _⟩
theorem Encodes.wload (c : Ctl) (t : Ty) (n : BitVec 6) : Encodes.Statement (.wload c t n) := ⟨rfl, toWord_opc _⟩
theorem Encodes.mma (c : Ctl) (t : Ty) (bank : BitVec 3) (n : BitVec 6) (row0 : BitVec 8) :
    Encodes.Statement (.mma c t bank n row0) := ⟨rfl, toWord_opc _⟩
theorem Encodes.aload (c : Ctl) (sc : Bool) (bank : BitVec 3) (n : BitVec 6) (row0 : BitVec 8) (nc : BitVec 11) (full : Bool) :
    Encodes.Statement (.aload c sc bank n row0 nc full) := ⟨rfl, toWord_opc _⟩
theorem Encodes.adrain (c : Ctl) (nochk nrm sc : Bool) (bank : BitVec 3) (n : BitVec 6) (sv : Option (BitVec 6)) (row0 : BitVec 8) (nc : BitVec 11) (full : Bool) :
    Encodes.Statement (.adrain c nochk nrm sc bank n sv row0 nc full) := ⟨rfl, toWord_opc _⟩
theorem Encodes.azero (c : Ctl) (bank : BitVec 3) : Encodes.Statement (.azero c bank) := ⟨rfl, toWord_opc _⟩
theorem Encodes.delta (c : Ctl) (scalar : Bool) (bank : BitVec 3) (n : BitVec 6) (beta : BitVec 32) :
    Encodes.Statement (.delta c scalar bank n beta) := ⟨rfl, toWord_opc _⟩
theorem Encodes.deltaCk (c : Ctl) (bank : BitVec 3) (n : BitVec 6) : Encodes.Statement (.deltaCk c bank n) := ⟨rfl, toWord_opc _⟩
theorem Encodes.tsolve (c : Ctl) (n m : BitVec 6) (cnt : BitVec 7) (bofs : BitVec 6) :
    Encodes.Statement (.tsolve c n m cnt bofs) := ⟨rfl, toWord_opc _⟩
theorem Encodes.dstep (c : Ctl) (n : BitVec 6) (first : BitVec 6) (cnt : BitVec 7) :
    Encodes.Statement (.dstep c n first cnt) := ⟨rfl, toWord_opc _⟩
theorem Encodes.atile (c : Ctl) (n m : BitVec 6) : Encodes.Statement (.atile c n m) := ⟨rfl, toWord_opc _⟩
theorem Encodes.amerge (c : Ctl) (bank : BitVec 3) (n : BitVec 6) (row0 : BitVec 8) :
    Encodes.Statement (.amerge c bank n row0) := ⟨rfl, toWord_opc _⟩
theorem Encodes.kvapp (c : Ctl) (n m p : BitVec 6) (base : BitVec 32) :
    Encodes.Statement (.kvapp c n m p base) := ⟨rfl, toWord_opc _⟩
theorem Encodes.kvmap (c : Ctl) (d n m : BitVec 6) (h : BitVec 16) : Encodes.Statement (.kvmap c d n m h) := ⟨rfl, toWord_opc _⟩
theorem Encodes.kvmrg (c : Ctl) (n m : BitVec 6) (tau : BitVec 32) : Encodes.Statement (.kvmrg c n m tau) := ⟨rfl, toWord_opc _⟩
theorem Encodes.park (c : Ctl) (n m : BitVec 6) : Encodes.Statement (.park c n m) := ⟨rfl, toWord_opc _⟩
theorem Encodes.promo (c : Ctl) (n m : BitVec 6) : Encodes.Statement (.promo c n m) := ⟨rfl, toWord_opc _⟩
theorem Encodes.tierq (c : Ctl) (d n m : BitVec 6) : Encodes.Statement (.tierq c d n m) := ⟨rfl, toWord_opc _⟩
theorem Encodes.trap (c : Ctl) (n : BitVec 4) : Encodes.Statement (.trap c n) := ⟨rfl, toWord_opc _⟩
theorem Encodes.rtt (c : Ctl) (n : BitVec 6) : Encodes.Statement (.rtt c n) := ⟨rfl, toWord_opc _⟩
theorem Encodes.rds (c : Ctl) (d : Dst) (x : BitVec 8) : Encodes.Statement (.rds c d x) := ⟨rfl, toWord_opc _⟩
theorem Encodes.wrs (c : Ctl) (x : BitVec 8) (b : Src) : Encodes.Statement (.wrs c x b) := ⟨rfl, toWord_opc _⟩
theorem Encodes.nop (c : Ctl) : Encodes.Statement (.nop c) := ⟨rfl, toWord_opc _⟩
theorem Encodes.bkpt (c : Ctl) (n : BitVec 8) : Encodes.Statement (.bkpt c n) := ⟨rfl, toWord_opc _⟩
theorem Encodes.tlbinvVa (c : Ctl) (n m : BitVec 6) : Encodes.Statement (.tlbinvVa c n m) := ⟨rfl, toWord_opc _⟩
theorem Encodes.tlbinvTnt (c : Ctl) (n m : BitVec 6) : Encodes.Statement (.tlbinvTnt c n m) := ⟨rfl, toWord_opc _⟩
theorem Encodes.tlbinvPart (c : Ctl) (n m : BitVec 6) : Encodes.Statement (.tlbinvPart c n m) := ⟨rfl, toWord_opc _⟩
theorem Encodes.qctlMap (c : Ctl) (d n m : BitVec 6) : Encodes.Statement (.qctlMap c d n m) := ⟨rfl, toWord_opc _⟩
theorem Encodes.qctlUnmap (c : Ctl) (d n m : BitVec 6) : Encodes.Statement (.qctlUnmap c d n m) := ⟨rfl, toWord_opc _⟩
theorem Encodes.qctlPrio (c : Ctl) (d n m : BitVec 6) : Encodes.Statement (.qctlPrio c d n m) := ⟨rfl, toWord_opc _⟩
theorem Encodes.qctlSusp (c : Ctl) (d n m : BitVec 6) : Encodes.Statement (.qctlSusp c d n m) := ⟨rfl, toWord_opc _⟩
theorem Encodes.qctlResm (c : Ctl) (d n m : BitVec 6) : Encodes.Statement (.qctlResm c d n m) := ⟨rfl, toWord_opc _⟩
theorem Encodes.qctlState (c : Ctl) (d n m : BitVec 6) : Encodes.Statement (.qctlState c d n m) := ⟨rfl, toWord_opc _⟩
theorem Encodes.pctlCfg (c : Ctl) (d n m : BitVec 6) : Encodes.Statement (.pctlCfg c d n m) := ⟨rfl, toWord_opc _⟩
theorem Encodes.pctlIw (c : Ctl) (d n m : BitVec 6) : Encodes.Statement (.pctlIw c d n m) := ⟨rfl, toWord_opc _⟩
theorem Encodes.pctlStop (c : Ctl) (d n m : BitVec 6) : Encodes.Statement (.pctlStop c d n m) := ⟨rfl, toWord_opc _⟩
theorem Encodes.pctlReset (c : Ctl) (d n m : BitVec 6) : Encodes.Statement (.pctlReset c d n m) := ⟨rfl, toWord_opc _⟩
theorem Encodes.pctlGo (c : Ctl) (d n m : BitVec 6) : Encodes.Statement (.pctlGo c d n m) := ⟨rfl, toWord_opc _⟩
theorem Encodes.ctxsv (c : Ctl) (d n m : BitVec 6) : Encodes.Statement (.ctxsv c d n m) := ⟨rfl, toWord_opc _⟩
theorem Encodes.ctxld (c : Ctl) (d n m : BitVec 6) : Encodes.Statement (.ctxld c d n m) := ⟨rfl, toWord_opc _⟩
theorem Encodes.errrdRd (c : Ctl) (d n m : BitVec 6) : Encodes.Statement (.errrdRd c d n m) := ⟨rfl, toWord_opc _⟩
theorem Encodes.errrdRdclr (c : Ctl) (d n m : BitVec 6) : Encodes.Statement (.errrdRdclr c d n m) := ⟨rfl, toWord_opc _⟩
theorem Encodes.wdogSet (c : Ctl) (n m : BitVec 6) : Encodes.Statement (.wdogSet c n m) := ⟨rfl, toWord_opc _⟩
theorem Encodes.enrgBal (c : Ctl) (d n m : BitVec 6) : Encodes.Statement (.enrgBal c d n m) := ⟨rfl, toWord_opc _⟩
theorem Encodes.enrgCoef (c : Ctl) (d n m : BitVec 6) : Encodes.Statement (.enrgCoef c d n m) := ⟨rfl, toWord_opc _⟩
theorem Encodes.enrgBurst (c : Ctl) (d n m : BitVec 6) : Encodes.Statement (.enrgBurst c d n m) := ⟨rfl, toWord_opc _⟩
theorem Encodes.enrgShare (c : Ctl) (d n m : BitVec 6) : Encodes.Statement (.enrgShare c d n m) := ⟨rfl, toWord_opc _⟩
theorem Encodes.pathSwap (g : Nat) (second : Bool) : Encodes.Statement (.pathSwap g second) := ⟨rfl, rfl⟩
theorem Encodes.bwaitTimeout (g : Nat) : Encodes.Statement (.bwaitTimeout g) := ⟨rfl, rfl⟩
theorem Encodes.launchWaitTimeout (g : Nat) : Encodes.Statement (.launchWaitTimeout g) := ⟨rfl, rfl⟩
theorem Encodes.sleepExpiry (g : Nat) : Encodes.Statement (.sleepExpiry g) := ⟨rfl, rfl⟩
theorem Encodes.variableLatencyResult (g : Nat) (op : Nat) (lanes : Lanes) :
    Encodes.Statement (.variableLatencyResult g op lanes) := ⟨rfl, rfl⟩
theorem Encodes.memoryOperationPerform (g : Nat) (op : Nat) (cut : Nat) :
    Encodes.Statement (.memoryOperationPerform g op cut) := ⟨rfl, rfl⟩
theorem Encodes.storeBufferDrain (entry : Nat) : Encodes.Statement (.storeBufferDrain entry) := ⟨rfl, rfl⟩
theorem Encodes.propagationLevelRaise (w : Nat) : Encodes.Statement (.propagationLevelRaise w) := ⟨rfl, rfl⟩
theorem Encodes.scrollProgress (cmd : Nat) (cut : Nat) : Encodes.Statement (.scrollProgress cmd cut) := ⟨rfl, rfl⟩
theorem Encodes.copyRunGrant (cmd : Nat) : Encodes.Statement (.copyRunGrant cmd) := ⟨rfl, rfl⟩
theorem Encodes.copyRunLand (cmd : Nat) (cut : Nat) : Encodes.Statement (.copyRunLand cmd cut) := ⟨rfl, rfl⟩
theorem Encodes.engineCommandCompletion (cmd : Nat) : Encodes.Statement (.engineCommandCompletion cmd) := ⟨rfl, rfl⟩
theorem Encodes.chainEntryComplete (cmd : Nat) : Encodes.Statement (.chainEntryComplete cmd) := ⟨rfl, rfl⟩
theorem Encodes.arrayCommandExecute (arr : Nat) (cut : Nat) : Encodes.Statement (.arrayCommandExecute arr cut) := ⟨rfl, rfl⟩
theorem Encodes.cacheCommandExecute (cmd : Nat) (cut : Nat) : Encodes.Statement (.cacheCommandExecute cmd cut) := ⟨rfl, rfl⟩
theorem Encodes.faultRecordPost (part : Nat) (id : Nat) : Encodes.Statement (.faultRecordPost part id) := ⟨rfl, rfl⟩
theorem Encodes.faultInterrupt (part : Nat) : Encodes.Statement (.faultInterrupt part) := ⟨rfl, rfl⟩
theorem Encodes.faultResponse (part : Nat) (v : Word64) : Encodes.Statement (.faultResponse part v) := ⟨rfl, rfl⟩
theorem Encodes.patchPlacement (part : Nat) : Encodes.Statement (.patchPlacement part) := ⟨rfl, rfl⟩
theorem Encodes.evictedGroupReturn (g : Nat) : Encodes.Statement (.evictedGroupReturn g) := ⟨rfl, rfl⟩
theorem Encodes.launchEntryStart (part : Nat) (src : LaunchFrom) : Encodes.Statement (.launchEntryStart part src) := ⟨rfl, rfl⟩
theorem Encodes.launchCompletion (launch : Nat) : Encodes.Statement (.launchCompletion launch) := ⟨rfl, rfl⟩
theorem Encodes.stageTick (launch : Nat) : Encodes.Statement (.stageTick launch) := ⟨rfl, rfl⟩
theorem Encodes.balanceTick (part : Nat) : Encodes.Statement (.balanceTick part) := ⟨rfl, rfl⟩
theorem Encodes.balanceItemArrival (id : Nat) : Encodes.Statement (.balanceItemArrival id) := ⟨rfl, rfl⟩
theorem Encodes.energyWindow (part : Nat) : Encodes.Statement (.energyWindow part) := ⟨rfl, rfl⟩
theorem Encodes.throttleTick (part : Nat) : Encodes.Statement (.throttleTick part) := ⟨rfl, rfl⟩
theorem Encodes.watchdogExpiry (part : Nat) (slot : Nat) : Encodes.Statement (.watchdogExpiry part slot) := ⟨rfl, rfl⟩
theorem Encodes.notify (vf : Nat) (off : Nat) (data : List Byte) : Encodes.Statement (.notify vf off data) := ⟨rfl, rfl⟩
theorem Encodes.queuePendingInterrupt (part : Nat) : Encodes.Statement (.queuePendingInterrupt part) := ⟨rfl, rfl⟩
theorem Encodes.slotStarvationInterrupt (part : Nat) : Encodes.Statement (.slotStarvationInterrupt part) := ⟨rfl, rfl⟩
theorem Encodes.registerWriteOther (vf : Nat) (off : Nat) (data : List Byte) :
    Encodes.Statement (.registerWriteOther vf off data) := ⟨rfl, rfl⟩
theorem Encodes.neltikFrame (part : Nat) (job : Word32) (payload : List Byte) :
    Encodes.Statement (.neltikFrame part job payload) := ⟨rfl, rfl⟩
theorem Encodes.copyMessageArrival (part : Nat) (job : Word32) (payload : List Byte) :
    Encodes.Statement (.copyMessageArrival part job payload) := ⟨rfl, rfl⟩
theorem Encodes.transportAck (part tenant q : Nat) : Encodes.Statement (.transportAck part tenant q) := ⟨rfl, rfl⟩
theorem Encodes.rateTokenRefill (part : Nat) : Encodes.Statement (.rateTokenRefill part) := ⟨rfl, rfl⟩
theorem Encodes.sluiceWrite (vf : Nat) (off : Nat) (data : List Byte) : Encodes.Statement (.sluiceWrite vf off data) := ⟨rfl, rfl⟩
theorem Encodes.wakePerform (id : Nat) : Encodes.Statement (.wakePerform id) := ⟨rfl, rfl⟩
theorem Encodes.wakeStageADone (part : Nat) (entry : Nat) : Encodes.Statement (.wakeStageADone part entry) := ⟨rfl, rfl⟩
theorem Encodes.wakeStageBDone (part : Nat) (entry : Nat) : Encodes.Statement (.wakeStageBDone part entry) := ⟨rfl, rfl⟩
theorem Encodes.ageingVisit (part : Nat) (entry : Nat) : Encodes.Statement (.ageingVisit part entry) := ⟨rfl, rfl⟩
theorem Encodes.tierMoveDone (id : Nat) : Encodes.Statement (.tierMoveDone id) := ⟨rfl, rfl⟩
theorem Encodes.poolLowInterrupt (part : Nat) : Encodes.Statement (.poolLowInterrupt part) := ⟨rfl, rfl⟩
theorem Encodes.flashCommandCompletion (id : Nat) (ok : Bool) : Encodes.Statement (.flashCommandCompletion id ok) := ⟨rfl, rfl⟩
theorem Encodes.flashCommandTimeout (id : Nat) : Encodes.Statement (.flashCommandTimeout id) := ⟨rfl, rfl⟩
theorem Encodes.rakePatrol (addr : Nat) (kind : ErrKind) (syn : Word64) (racing : Bool) :
    Encodes.Statement (.rakePatrol addr kind syn racing) := ⟨rfl, rfl⟩
theorem Encodes.hostCxlMemAccess (addr : Nat) (store : Option (List Byte)) (len : Nat) :
    Encodes.Statement (.hostCxlMemAccess addr store len) := ⟨rfl, rfl⟩
theorem Encodes.powerGood (fail : Nat) : Encodes.Statement (.powerGood fail) := ⟨rfl, rfl⟩
theorem Encodes.packageReset : Encodes.Statement (.packageReset) := ⟨rfl, rfl⟩
theorem Encodes.powerDownRequest : Encodes.Statement (.powerDownRequest) := ⟨rfl, rfl⟩
theorem Encodes.powerWindow (milliwatts : Nat) : Encodes.Statement (.powerWindow milliwatts) := ⟨rfl, rfl⟩
theorem Encodes.partitionMap (part : BitVec 8) (arg : List Byte) : Encodes.Statement (.partitionMap part arg) := ⟨rfl, rfl⟩
theorem Encodes.startManager (part : BitVec 8) (arg : List Byte) : Encodes.Statement (.startManager part arg) := ⟨rfl, rfl⟩
theorem Encodes.pair (part : BitVec 8) (arg : List Byte) : Encodes.Statement (.pair part arg) := ⟨rfl, rfl⟩
theorem Encodes.unpair (part : BitVec 8) (arg : List Byte) : Encodes.Statement (.unpair part arg) := ⟨rfl, rfl⟩
theorem Encodes.pairReset (part : BitVec 8) (arg : List Byte) : Encodes.Statement (.pairReset part arg) := ⟨rfl, rfl⟩
theorem Encodes.rakePassLength (part : BitVec 8) (arg : List Byte) : Encodes.Statement (.rakePassLength part arg) := ⟨rfl, rfl⟩
theorem Encodes.telemetry (part : BitVec 8) (arg : List Byte) : Encodes.Statement (.telemetry part arg) := ⟨rfl, rfl⟩
theorem Encodes.loadFirmware (part : BitVec 8) (arg : List Byte) : Encodes.Statement (.loadFirmware part arg) := ⟨rfl, rfl⟩
theorem Encodes.identify (part : BitVec 8) (arg : List Byte) : Encodes.Statement (.identify part arg) := ⟨rfl, rfl⟩
theorem Encodes.mailboxCommandDone : Encodes.Statement (.mailboxCommandDone) := ⟨rfl, rfl⟩
theorem Encodes.pairInputApply (id : Nat) : Encodes.Statement (.pairInputApply id) := ⟨rfl, rfl⟩
theorem Encodes.signatureExchange (id : Nat) (peer : Word32) : Encodes.Statement (.signatureExchange id peer) := ⟨rfl, rfl⟩
theorem Encodes.pairLinkLost (part : Nat) : Encodes.Statement (.pairLinkLost part) := ⟨rfl, rfl⟩
theorem Encodes.getVersion (req : List Byte) : Encodes.Statement (.getVersion req) := ⟨rfl, rfl⟩
theorem Encodes.getCapabilities (req : List Byte) : Encodes.Statement (.getCapabilities req) := ⟨rfl, rfl⟩
theorem Encodes.negotiateAlgorithms (req : List Byte) : Encodes.Statement (.negotiateAlgorithms req) := ⟨rfl, rfl⟩
theorem Encodes.getDigests (req : List Byte) : Encodes.Statement (.getDigests req) := ⟨rfl, rfl⟩
theorem Encodes.getCertificate (req : List Byte) : Encodes.Statement (.getCertificate req) := ⟨rfl, rfl⟩
theorem Encodes.challenge (req : List Byte) : Encodes.Statement (.challenge req) := ⟨rfl, rfl⟩
theorem Encodes.getMeasurements (req : List Byte) : Encodes.Statement (.getMeasurements req) := ⟨rfl, rfl⟩

end Sys2Proof.Laws
end

