-- ==== Sys2Proof/Tests/Slice0.lean ====
section
/-! SUPPORT. Tests: words written out from the encoding tables of spec/03 and spec/06 to spec/09, an ill-formed instruction for each
check, worked examples of the spec, and for each statement with hypotheses a state that meets them. -/

namespace Sys2Proof.Tests

-- One proof at a time: proofs that wait for the kernel each hold a thread, and many threads need much memory.
set_option Elab.async false

open Sys2Proof.Machine Sys2Proof.Says

/-! ### Words (R41 to R46, R57 and each instruction's own fields) -/

/-- The common fields with the first flag set. -/
def fp : Ctl := { plain with fset := true }

theorem test_words_integer :
    decode 0x0111_7040_5060_0000_0000_0000 = .ok (.iadd plain .s32 true (.lane 4) (.lane 5) (.lane 6)) ∧
    decode 0x0230_7040_5002_03FF_FFFE_0000 = .ok (.iaddc plain .n32 (.lane 4) (.lane 5) (.imm 0xFFFFFFFE) 3) ∧
    decode 0x03B8_7040_5065_0000_0000_0000 = .ok (.isub plain .n64 false (.uni 4) (.uni 5) (.uni 6)) ∧
    decode 0x0430_7010_2002_1234_5678_0000 = .ok (.imul plain .n32 (.lane 1) (.lane 2) (.imm 0x12345678)) ∧
    decode 0x0518_7020_4060_0000_0000_0000 = .ok (.imulh plain .s64 (.lane 2) (.lane 4) (.lane 6)) ∧
    decode 0x0630_7010_2030_0000_0109_0000 = .ok (.imad plain .n32 (.lane 1) (.lane 2) (.lane 3) (.uni 9)) ∧
    decode 0x0710_7010_2053_0000_0040_0000 = .ok (.imin plain .s32 (.lane 1) (.lane 2) (.cbank 5 0x40)) ∧
    decode 0x08B0_7010_2035_0000_0000_0000 = .ok (.imax plain .n32 (.uni 1) (.uni 2) (.uni 3)) ∧
    decode 0x0919_7020_4000_0000_0000_0000 = .ok (.iabs plain .s64 true (.lane 2) (.lane 4)) ∧
    decode 0x0A39_7020_4060_0000_0000_0000 = .ok (.clmul plain .n64 true (.lane 2) (.lane 4) (.lane 6)) := by
  refine ⟨?_, ?_, ?_, ?_, ?_, ?_, ?_, ?_, ?_, ?_⟩ <;> rfl

theorem test_words_shift_logic_1 :
    decode 0x1030_7010_2002_0000_0007_0000 = .ok (.shl plain .n32 (.lane 1) (.lane 2) (.imm 7)) ∧
    decode 0x1130_7010_2002_0000_0007_0000 = .ok (.shr plain .n32 (.lane 1) (.lane 2) (.imm 7)) ∧
    decode 0x1210_7010_2002_0000_0007_0000 = .ok (.sar plain .s32 (.lane 1) (.lane 2) (.imm 7)) ∧
    decode 0x1330_7010_2002_0000_0007_0000 = .ok (.rotl plain .n32 (.lane 1) (.lane 2) (.imm 7)) ∧
    decode 0x1430_7010_2030_D800_0000_0000 = .ok (.blut plain .n32 (.lane 1) (.lane 2) (.lane 3) 0xD8) ∧
    decode 0x1530_7010_2031_0000_0000_0000 = .ok (.and plain .n32 (.lane 1) (.lane 2) (.uni 3)) ∧
    decode 0x1630_7010_2031_0000_0000_0000 = .ok (.or plain .n32 (.lane 1) (.lane 2) (.uni 3)) ∧
    decode 0x1730_7010_2031_0000_0000_0000 = .ok (.xor plain .n32 (.lane 1) (.lane 2) (.uni 3)) ∧
    decode 0x1838_7020_4000_0000_0000_0000 = .ok (.not plain .n64 (.lane 2) (.lane 4)) ∧
    decode 0x1938_7020_4000_0000_0000_0000 = .ok (.popc plain .n64 (.lane 2) (.lane 4)) ∧
    decode 0x1A38_7020_4000_0000_0000_0000 = .ok (.clz plain .n64 (.lane 2) (.lane 4)) ∧
    decode 0x1B38_7020_4000_0000_0000_0000 = .ok (.ctz plain .n64 (.lane 2) (.lane 4)) := by
  refine ⟨?_, ?_, ?_, ?_, ?_, ?_, ?_, ?_, ?_, ?_, ?_, ?_⟩ <;> rfl

theorem test_words_shift_logic_2 :
    decode 0x1C38_7020_4000_0000_0000_0000 = .ok (.brev plain .n64 (.lane 2) (.lane 4)) ∧
    decode 0x1D28_7010_2000_0000_0000_0000 = .ok (.bswap plain .n16 (.lane 1) (.lane 2)) ∧
    decode 0x1E10_7010_2002_0000_0804_0000 = .ok (.bfx plain .s32 (.lane 1) (.lane 2) (.imm 0x804)) ∧
    decode 0x1F30_7010_2030_0000_0004_0000 = .ok (.bfi plain .n32 (.lane 1) (.lane 2) (.lane 3) (.lane 4)) := by
  refine ⟨?_, ?_, ?_, ?_⟩ <;> rfl

theorem test_words_compare_move :
    decode 0x2012_7030_2002_0000_0007_0000 = .ok (.iset plain .s32 .lt (.lane 3) (.lane 2) (.imm 7)) ∧
    decode 0x2130_7010_2030_0C00_0000_0000 = .ok (.sel plain .n32 (.lane 1) (.lane 2) (.lane 3) 4 true) ∧
    decode 0x22B0_7070_0002_89AB_CDEF_0000 = .ok (.mov plain .n32 (.uni 7) (.imm 0x89ABCDEF)) ∧
    decode 0x2330_7060_0021_0400_0000_0000 = .ok (.movi plain .n32 6 (.uni 2) 4) ∧
    decode 0x24B8_7070_7006_0123_4567_0000 = .ok (.movh plain (.uni 7) (.uni 7) 0x01234567) ∧
    decode 0x2530_7010_2030_0000_001F_0000 = .ok (.lea plain .n32 (.lane 1) (.lane 2) (.lane 3) 31) ∧
    decode 0x2630_7010_2030_0003_0977_0000 = .ok (.bysel plain (.lane 1) (.lane 2) (.lane 3) 0x30977) := by
  refine ⟨?_, ?_, ?_, ?_, ?_, ?_, ?_⟩ <;> rfl

theorem test_words_control :
    decode 0x3000_9010_2030_FFFF_FFFC_0000 = .ok (.bra { plain with gn := true, gp := 1 } (-4) 0x010203) ∧
    decode 0x3100_7000_4004_0000_0020_0000 = .ok (.brx plain (.uni 4) 0x20) ∧
    decode 0x3200_7090_0000_0000_0064_0000 = .ok (.call plain 9 100) ∧
    decode 0x3300_7000_9004_0000_0000_0000 = .ok (.ret plain 9) ∧
    decode 0x3400_7000_0000_0000_0000_0000 = .ok (.reconv plain) ∧
    decode 0x3500_7000_0000_0000_0000_0000 = .ok (.join plain) ∧
    decode 0x3600_7090_0000_FFFF_FFF9_0000 = .ok (.loop plain 9 (-7)) ∧
    decode 0xF058_01D8_0000_0000_0000_0000 = .ok (.clause { len := 5, wait := 0x801, f0v := true, f0n := 11, f1v := false, f1n := 0, rsv := 0 }) ∧
    decode 0x2700_0000_0000_0000_0000_0005 = .ok (.reservedOpcode 0x27 5) := by
  refine ⟨?_, ?_, ?_, ?_, ?_, ?_, ?_, ?_, ?_⟩ <;> rfl

theorem test_words_float_1 :
    decode 0x4041_7010_2002_3F80_0000_0000 = .ok (.fadd plain .rtz (.lane 1) (.lane 2) (.imm 0x3F800000)) ∧
    decode 0x4144_7010_2030_0000_0000_0000 = .ok (.fmul plain .sr (.lane 1) (.lane 2) (.lane 3)) ∧
    decode 0x4348_7010_2030_0000_0000_0000 = .ok (.fmin plain .f16 (.lane 1) (.lane 2) (.lane 3)) ∧
    decode 0x4450_7010_2030_0000_0000_0000 = .ok (.fmax plain .bf16 (.lane 1) (.lane 2) (.lane 3)) ∧
    decode 0x4547_7020_3040_0000_0000_0000 = .ok (.fset plain .f32 .nan (.lane 2) (.lane 3) (.lane 4)) ∧
    decode 0x4640_7020_5000_0000_01E7_0000 = .ok (.fclass plain .f32 (.lane 2) (.lane 5) 0x1E7) ∧
    decode 0x4742_7020_5000_0000_0000_0000 = .ok (.frnd plain .f32 .rdn (.lane 2) (.lane 5)) ∧
    decode 0x4848_7020_5060_0000_0000_0000 = .ok (.twadd plain .f16 .rne (.lane 2) (.lane 5) (.lane 6)) ∧
    decode 0x4953_7020_5060_0000_0000_0000 = .ok (.twmul plain .bf16 .rup (.lane 2) (.lane 5) (.lane 6)) ∧
    decode 0x4A50_7020_5060_0000_0007_0000 = .ok (.twfma plain .bf16 .rne (.lane 2) (.lane 5) (.lane 6) (.lane 7)) ∧
    decode 0x5058_7020_5000_1800_0000_0000 = .ok (.cvt plain true .e4m3 .f32 .rne (.lane 2) (.lane 5)) ∧
    decode 0x5158_7020_5060_0000_0003_0000 = .ok (.pack plain .e4m3 .rne true true (.lane 2) (.lane 5) (.lane 6)) := by
  refine ⟨?_, ?_, ?_, ?_, ?_, ?_, ?_, ?_, ?_, ?_, ?_, ?_⟩ <;> rfl

theorem test_words_float_2 :
    decode 0x5268_7020_5000_0000_0007_0000 = .ok (.unpack plain .i4 (.lane 2) (.lane 5) 7) ∧
    decode 0x5340_7020_5000_0000_0000_0000 = .ok (.rcp plain .f32 (.lane 2) (.lane 5)) ∧
    decode 0x5440_7020_5000_0000_0000_0000 = .ok (.rsq plain .f32 (.lane 2) (.lane 5)) ∧
    decode 0x5540_7020_5000_0000_0000_0000 = .ok (.sqrt plain .f32 (.lane 2) (.lane 5)) ∧
    decode 0x5640_7020_5000_0000_0000_0000 = .ok (.ex2 plain .f32 (.lane 2) (.lane 5)) ∧
    decode 0x5740_7020_5000_0000_0000_0000 = .ok (.lg2 plain .f32 (.lane 2) (.lane 5)) ∧
    decode 0x5840_7020_5000_0000_0000_0000 = .ok (.sin plain .f32 (.lane 2) (.lane 5)) ∧
    decode 0x5940_7020_5000_0000_0000_0000 = .ok (.cos plain .f32 (.lane 2) (.lane 5)) ∧
    decode 0x5A40_7020_5000_0000_0000_0000 = .ok (.tanh plain .f32 (.lane 2) (.lane 5)) := by
  refine ⟨?_, ?_, ?_, ?_, ?_, ?_, ?_, ?_, ?_⟩ <;> rfl

theorem test_words_cross_lane :
    decode 0x6183_7090_3000_0000_0001_0000 = .ok (.vote plain .ballot true 9 3 true) ∧
    decode 0x6292_7030_7000_0000_0000_0000 = .ok (.redg plain .max .s32 (.uni 3) 7) ∧
    decode 0x6330_7030_7000_0000_0001_0000 = .ok (.scang plain .add .n32 true 3 7) ∧
    decode 0x6431_7030_7000_0000_0000_0000 = .ok (.matchLanes plain true .n32 3 7) ∧
    decode 0x6500_7030_1020_0000_0722_0000 = .ok (.pset plain (.lane 3) (.lane 1) (.lane 2) (.lane 7) 0x22) ∧
    decode 0x6680_7030_0000_0000_000F_0000 = .ok (.p2s plain (.uni 3) 0xF) ∧
    decode 0x6700_7000_3000_0000_007F_0000 = .ok (.s2p plain false (.lane 3) 0x7F) := by
  refine ⟨?_, ?_, ?_, ?_, ?_, ?_, ?_⟩ <;> rfl

theorem test_words_memory :
    decode 0x8015_7021_0006_FFFF_FFF0_0100 = .ok (.ld fp .s16 .dev .acq (.lane 2) 16 (.off 0xFFFFFFF0)) ∧
    decode 0x8170_7021_0050_0000_0000_0000 = .ok (.st plain .n64 .grp .none 2 16 (.idx 5)) ∧
    decode 0x8263_7060_6006_0000_0040_0100 = .ok (.lds fp .n32 .east (.lane 6) (.uni 6) (.off 0x40)) ∧
    decode 0x8348_7060_7080_0000_0000_0000 = .ok (.sts plain .n8 .northWest 6 (.lane 7) (.idx 8)) ∧
    decode 0x8460_7063_F057_0000_0080_0100 = .ok (.ldc fp .n32 (.lane 6) (.uni 63) 5 0x80) ∧
    decode 0x8501_7001_0002_0000_0000_0000 = .ok (.pref plain true 16 (.off 0)) ∧
    decode 0x8760_7010_2006_1700_0803_0100 = .ok (.atoms fp .n32 .own (.lane 1) (.uni 2) none .cas false (.reg (.lane 3) (.lane 4))) ∧
    decode 0x8865_7001_0050_0200_0009_0000 = .ok (.red plain .n32 .dev .none 16 (some 5) .max false (.imm 9)) ∧
    decode 0x8928_7000_0000_0000_0000_0000 = .ok (.fence plain .rel .fab) ∧
    decode 0x8A01_7000_0000_0000_0000_0000 = .ok (.afence plain .blk) ∧
    decode 0x8B00_7000_0000_0000_0000_0000 = .ok (.commit plain) ∧
    decode 0x8C00_7030_80A1_02FF_FFFE_0000 = .ok (.mark plain 3 8 2 10 0xFFFFFE) := by
  refine ⟨?_, ?_, ?_, ?_, ?_, ?_, ?_, ?_, ?_, ?_, ?_, ?_⟩ <;> rfl

theorem test_words_objects :
    decode 0x9001_7000_4006_0000_0FFF_0000 = .ok (.binit plain .own .blk 4 (.imm 4095)) ∧
    decode 0x910A_7000_4055_0000_0000_0000 = .ok (.barr plain .north .pch 4 (.uni 5)) ∧
    decode 0x9201_7000_4006_0000_1000_0000 = .ok (.bexp plain .own .blk 4 (.imm 0x1000)) ∧
    decode 0x9301_7020_4065_0000_03E8_0100 = .ok (.bwait fp .own .blk (.lane 2) 4 6 1000) ∧
    decode 0x9481_7020_4065_0000_0000_0100 = .ok (.btry fp .own .blk (.uni 2) 4 6) ∧
    decode 0x9501_7000_4004_0000_0000_0000 = .ok (.binv plain .own .blk 4) ∧
    decode 0x9601_7000_4055_0000_0000_0000 = .ok (.rinit plain .own .blk 4 5) ∧
    decode 0x9701_7070_4004_0000_0000_0100 = .ok (.rres fp .own .blk 7 4) ∧
    decode 0x9801_7000_4004_0000_0000_0000 = .ok (.rpub plain .own .blk 4) ∧
    decode 0x9901_7070_4004_0000_0000_0100 = .ok (.rwait fp .own .blk 7 4) ∧
    decode 0x9A01_7000_4004_0000_0000_0000 = .ok (.rrel plain .own .blk 4) := by
  refine ⟨?_, ?_, ?_, ?_, ?_, ?_, ?_, ?_, ?_, ?_, ?_⟩ <;> rfl

theorem test_words_work :
    decode 0xA002_7000_4004_0000_0021_0000 = .ok (.send plain true 4 33) ∧
    decode 0xA101_7040_0000_0000_0021_0100 = .ok (.recv fp true 4 33) ∧
    decode 0xA201_7040_0000_0000_0002_0100 = .ok (.wpull fp true 4 2) ∧
    decode 0xA300_7000_4004_0000_0000_0000 = .ok (.wpush plain 4) ∧
    decode 0xA401_7020_8004_0000_0000_0100 = .ok (.launch fp true (.lane 2) 8) ∧
    decode 0xA500_7000_0000_0000_0000_0000 = .ok (.yld plain) ∧
    decode 0xA600_7000_0002_0000_01F4_0000 = .ok (.sleep plain (.imm 500)) ∧
    decode 0xA700_7000_0000_0000_0000_0000 = .ok (.exit plain) ∧
    decode 0xA880_7030_4055_0000_0002_0000 = .ok (.widx plain false (.uni 3) (.uni 4) (.uni 5) 2) := by
  refine ⟨?_, ?_, ?_, ?_, ?_, ?_, ?_, ?_, ?_⟩ <;> rfl

theorem test_words_engines_1 :
    decode 0xB001_7000_A006_0000_7F05_0000 = .ok (.scrollX plain 10 5 (-1)) ∧
    decode 0xB100_7030_0000_0000_0000_0000 = .ok (.scrq plain 3) ∧
    decode 0xB200_7000_0000_0000_0000_0000 = .ok (.scrres plain) ∧
    decode 0xB300_7000_4065_0000_0000_0000 = .ok (.cpy plain 4 (some 6)) ∧
    decode 0xB400_7000_4006_0000_0000_0000 = .ok (.cpym plain 4 none) ∧
    decode 0xB500_7000_4006_0000_0000_0000 = .ok (.cpyg plain 4 none) ∧
    decode 0xB600_7000_4006_0000_0000_0000 = .ok (.cpyn plain 4 none) ∧
    decode 0xB701_7000_4006_0000_0003_0000 = .ok (.cpycRst plain 4 3) ∧
    decode 0xB801_7090_0000_0000_0004_0000 = .ok (.cpyq plain 1 9 4) ∧
    decode 0xC070_7000_4006_0000_0000_0000 = .ok (.wload plain .i3 4) ∧
    decode 0xC150_7050_4006_0000_00C8_0000 = .ok (.mma plain .bf16 5 4 200) ∧
    decode 0xC201_7020_4006_0000_6410_0000 = .ok (.aload plain true 2 4 16 100 false) := by
  refine ⟨?_, ?_, ?_, ?_, ?_, ?_, ?_, ?_, ?_, ?_, ?_, ?_⟩ <;> rfl

theorem test_words_engines_2 :
    decode 0xC303_7020_4065_0008_0010_0000 = .ok (.adrain plain true true false 2 4 (some 6) 16 0 true) ∧
    decode 0xC400_7070_0000_0000_0000_0000 = .ok (.azero plain 7) ∧
    decode 0xC502_7030_4006_3F00_0000_0000 = .ok (.delta plain true 3 4 0x3F000000) ∧
    decode 0xC501_7030_4006_0000_0000_0000 = .ok (.deltaCk plain 3 4) ∧
    decode 0xC600_7000_4065_0000_1020_0000 = .ok (.tsolve plain 4 6 32 32) ∧
    decode 0xC700_7000_4006_0000_0FC1_0100 = .ok (.dstep fp 4 1 63) ∧
    decode 0xC900_7040_6006_0000_0009_0000 = .ok (.amerge plain 4 6 9) ∧
    decode 0xD000_7080_4065_0000_004D_0000 = .ok (.kvapp plain 4 6 8 77) ∧
    decode 0xD100_7020_4065_0000_0003_0100 = .ok (.kvmap fp 2 4 6 3) ∧
    decode 0xD200_7000_4065_3F80_0000_0000 = .ok (.kvmrg plain 4 6 0x3F800000) ∧
    decode 0xD300_7000_4065_0000_0000_0000 = .ok (.park plain 4 6) ∧
    decode 0xD400_7000_4065_0000_0000_0000 = .ok (.promo plain 4 6) := by
  refine ⟨?_, ?_, ?_, ?_, ?_, ?_, ?_, ?_, ?_, ?_, ?_, ?_⟩ <;> rfl

theorem test_words_engines_3 :
    decode 0xD500_7020_4065_0000_0000_0100 = .ok (.tierq fp 2 4 6) := by rfl

theorem test_words_system_1 :
    decode 0xE000_7000_0002_0000_000F_0000 = .ok (.trap plain 15) ∧
    decode 0xE200_7030_0008_0000_0000_0000 = .ok (.rds plain (.lane 3) 0) ∧
    decode 0xE300_7400_0051_0000_0000_0000 = .ok (.wrs plain 0x40 (.uni 5)) ∧
    decode 0xE400_7000_0000_0000_0000_0000 = .ok (.nop plain) ∧
    decode 0xE500_7000_0002_0000_005A_0000 = .ok (.bkpt plain 0x5A) ∧
    decode 0xE800_7000_4065_0000_0000_0000 = .ok (.tlbinvVa plain 4 6) ∧
    decode 0xE801_7000_4065_0000_0000_0000 = .ok (.tlbinvTnt plain 4 6) ∧
    decode 0xE802_7000_4065_0000_0000_0000 = .ok (.tlbinvPart plain 4 6) ∧
    decode 0xE900_7020_4065_0000_0000_0000 = .ok (.qctlMap plain 2 4 6) ∧
    decode 0xE901_7020_4065_0000_0000_0000 = .ok (.qctlUnmap plain 2 4 6) ∧
    decode 0xE902_7020_4065_0000_0000_0000 = .ok (.qctlPrio plain 2 4 6) ∧
    decode 0xE903_7020_4065_0000_0000_0000 = .ok (.qctlSusp plain 2 4 6) := by
  refine ⟨?_, ?_, ?_, ?_, ?_, ?_, ?_, ?_, ?_, ?_, ?_, ?_⟩ <;> rfl

theorem test_words_system_2 :
    decode 0xE904_7020_4065_0000_0000_0000 = .ok (.qctlResm plain 2 4 6) ∧
    decode 0xE905_7020_4065_0000_0000_0100 = .ok (.qctlState fp 2 4 6) ∧
    decode 0xEA00_7020_4065_0000_0000_0100 = .ok (.pctlCfg fp 2 4 6) ∧
    decode 0xEA01_7020_4065_0000_0000_0000 = .ok (.pctlIw plain 2 4 6) ∧
    decode 0xEA02_7020_4065_0000_0000_0000 = .ok (.pctlStop plain 2 4 6) ∧
    decode 0xEA04_7020_4065_0000_0000_0000 = .ok (.pctlGo plain 2 4 6) ∧
    decode 0xEC00_7020_4065_0000_0000_0100 = .ok (.ctxld fp 2 4 6) ∧
    decode 0xED00_7020_4065_0000_0000_0100 = .ok (.errrdRd fp 2 4 6) ∧
    decode 0xED01_7020_4065_0000_0000_0100 = .ok (.errrdRdclr fp 2 4 6) ∧
    decode 0xEE00_7000_4065_0000_0000_0000 = .ok (.wdogSet plain 4 6) ∧
    decode 0xEF00_7020_4065_0000_0000_0100 = .ok (.enrgBal fp 2 4 6) ∧
    decode 0xEF01_7020_4065_0000_0000_0000 = .ok (.enrgCoef plain 2 4 6) := by
  refine ⟨?_, ?_, ?_, ?_, ?_, ?_, ?_, ?_, ?_, ?_, ?_, ?_⟩ <;> rfl

theorem test_words_system_3 :
    decode 0xEF02_7020_4065_0000_0000_0000 = .ok (.enrgBurst plain 2 4 6) ∧
    decode 0xEF03_7020_4065_0000_0000_0000 = .ok (.enrgShare plain 2 4 6) := by
  refine ⟨?_, ?_⟩ <;> rfl

/-- Words of the spec's programs: `ATILE`, `CPYC`, `PCTL.reset` and `CTXSV`. -/
theorem test_words_programs :
    decode 0xC800_7001_4165_0000_0000_0000 = .ok (.atile plain 20 22) ∧
    decode 0xB700_7000_4006_0000_0001_0000 = .ok (.cpyc plain 4 1) ∧
    decode 0xEA03_73F3_F3F5_0000_0000_0100 = .ok (.pctlReset fp 63 63 63) ∧
    decode 0xEB00_7150_B185_0000_0000_0100 = .ok (.ctxsv fp 21 11 24) := by
  refine ⟨?_, ?_, ?_, ?_⟩ <;> rfl

/-- Bytes are read lowest first, and twelve are taken (R4). -/
theorem test_bytes : decodeBytes [0x00, 0x00, 0x04, 0x00, 0x00, 0x00, 0x30, 0x20, 0xA0, 0x70, 0x40, 0x42, 0x77] =
    .ok (.ffma plain .rne (.lane 10) (.lane 2) (.lane 3) (.lane 4), [0x77]) := by rfl

/-- Eleven bytes are no instruction. -/
theorem test_truncated : decodeBytes (List.replicate 11 0) = .error .truncated := by rfl

/-- A bit that the instruction leaves unused is a reserved field (R41), and a header with its reserved bits set is read as it stands. -/
theorem test_unused_bit : decode (0x4240_70A0_2030_0000_0004_0000 ||| (1#96 <<< 20)) = .ok
    (.ffma plain .rne (.lane 10) (.lane 2) (.lane 3) (.lane 20)) ∧
    decode (0x4240_70A0_2030_0000_0004_0000 ||| (1#96 <<< 30)) = .error (.illegal 2) := by
  refine ⟨?_, ?_⟩ <;> rfl

/-! ### Ill-formed instructions, one for each check -/

/-- a major opcode that the map assigns. -/
theorem test_ill_reserved_opcode : Instr.wf (.reservedOpcode 0x01 0) = false := by rfl
/-- an immediate beyond 24 signed bits. -/
theorem test_ill_fits_signed : Instr.wf (.iaddc plain .n32 (.lane 4) (.lane 5) (.imm 0x00800000) 3) = false := by rfl
/-- an immediate beyond 24 signed bits. -/
theorem test_ill_fits_blut : Instr.wf (.blut plain .n32 (.lane 1) (.lane 2) (.imm 0x01000000) 0) = false := by rfl
/-- an immediate beyond 24 signed bits. -/
theorem test_ill_fits_sel : Instr.wf (.sel plain .n32 (.lane 1) (.lane 2) (.imm 0x01000000) 0 false) = false := by rfl
/-- an immediate beyond 24 signed bits. -/
theorem test_ill_fits_movi : Instr.wf (.movi plain .n32 6 (.imm 0x01000000) 4) = false := by rfl
/-- an immediate beyond 24 bits. -/
theorem test_ill_fits_unsigned : Instr.wf (.shfl plain .n32 .idx 1 2 (.imm 0xFFFFFFFF) 0) = false := by rfl
/-- R52: the guard `?!p7`. -/
theorem test_ill_guard : Instr.wf (.nop { plain with gn := true, gp := 7 }) = false := by rfl
/-- R54: a flag selected that is not set. -/
theorem test_ill_flag_select : Instr.wf (.nop { plain with fsel := true }) = false := by rfl
/-- R54: a variable-latency register without a flag. -/
theorem test_ill_flag_needed : Instr.wf (.ld plain .n32 .grp .none (.lane 2) 16 (.off 0)) = false := by rfl
/-- R127: a type outside the list. -/
theorem test_ill_type : Instr.wf (.iadd plain .f32 false (.lane 1) (.lane 2) (.lane 3)) = false := by rfl
/-- R47: an odd pair. -/
theorem test_ill_pair_destination : Instr.wf (.iadd plain .n64 false (.lane 1) (.lane 2) (.lane 4)) = false := by rfl
/-- R47: an odd pair. -/
theorem test_ill_pair_source : Instr.wf (.iadd plain .n64 false (.lane 2) (.lane 3) (.lane 4)) = false := by rfl
/-- R46: an offset that is no multiple of the size. -/
theorem test_ill_cbank_offset : Instr.wf (.imin plain .s32 (.lane 1) (.lane 2) (.cbank 5 0x42)) = false := by rfl
/-- R46: an offset of 65,536. -/
theorem test_ill_cbank_range : Instr.wf (.imin plain .s32 (.lane 1) (.lane 2) (.cbank 5 0x10000)) = false := by rfl
/-- R48: a lane source of a uniform destination. -/
theorem test_ill_class_mix : Instr.wf (.iadd plain .n32 false (.uni 1) (.lane 2) (.uni 3)) = false := by rfl
/-- R132: a uniform predicate above 3. -/
theorem test_ill_uniform_predicate : Instr.wf (.iaddc plain .n32 (.uni 1) (.uni 2) (.uni 3) 4) = false := by rfl
/-- R140: a lane source of `MOVI`. -/
theorem test_ill_movi_lane : Instr.wf (.movi plain .n32 6 (.lane 2) 4) = false := by rfl
/-- R141: a shift of the width. -/
theorem test_ill_lea_shift : Instr.wf (.lea plain .n32 (.lane 1) (.lane 2) (.lane 3) 32) = false := by rfl
/-- R153: a point without a guard. -/
theorem test_ill_bra_point : Instr.wf (.bra plain 4 1) = false := by rfl
/-- R147: a guarded `RECONV`. -/
theorem test_ill_reconv_guard : Instr.wf (.reconv { plain with gp := 1 }) = false := by rfl
/-- R158: bits above a 16-bit immediate. -/
theorem test_ill_half_immediate : Instr.wf (.fmin plain .f16 (.lane 1) (.lane 2) (.imm 0x10000)) = false := by rfl
/-- R166: stochastic rounding. -/
theorem test_ill_frnd_sr : Instr.wf (.frnd plain .f32 .sr (.lane 1) (.lane 2)) = false := by rfl
/-- R167: a type without conversion. -/
theorem test_ill_cvt_type : Instr.wf (.cvt plain false .i4 .f32 .rne (.lane 1) (.lane 2)) = false := by rfl
/-- R167: `.satf` to an integer. -/
theorem test_ill_cvt_saturation : Instr.wf (.cvt plain true .s32 .f32 .rne (.lane 1) (.lane 2)) = false := by rfl
/-- R167: `.sr` to `.e8m0`. -/
theorem test_ill_cvt_e8m0_sr : Instr.wf (.cvt plain false .e8m0 .f32 .sr (.lane 1) (.lane 2)) = false := by rfl
/-- R168: a half of a 16-bit pack. -/
theorem test_ill_pack_half : Instr.wf (.pack plain .f16 .rne false true (.lane 1) (.lane 2) (.lane 3)) = false := by rfl
/-- R169: a selector beyond the values. -/
theorem test_ill_unpack_select : Instr.wf (.unpack plain .f16 (.lane 1) (.lane 2) 2) = false := by rfl
/-- R173: a segment code of 6. -/
theorem test_ill_shfl_segment : Instr.wf (.shfl plain .n32 .idx 1 2 (.imm 0) 6) = false := by rfl
/-- R174: a predicate above 7. -/
theorem test_ill_vote_predicate : Instr.wf (.vote plain .all false 8 1 false) = false := by rfl
/-- R174: a uniform register above 63. -/
theorem test_ill_vote_register : Instr.wf (.vote plain .ballot true 64 1 false) = false := by rfl
/-- R175: logic on floats. -/
theorem test_ill_redg_float_logic : Instr.wf (.redg plain .xor .f32 (.lane 1) 2) = false := by rfl
/-- R179: a mask above four bits. -/
theorem test_ill_p2s_mask : Instr.wf (.p2s plain (.uni 1) 0x10) = false := by rfl
/-- R180: a mask that names p7. -/
theorem test_ill_s2p_mask : Instr.wf (.s2p plain false (.lane 1) 0x80) = false := by rfl
/-- R186: a releasing load. -/
theorem test_ill_load_order : Instr.wf (.ld fp .n32 .dev .rel (.lane 2) 16 (.off 0)) = false := by rfl
/-- R186: a scope without an ordering. -/
theorem test_ill_load_scope : Instr.wf (.ld fp .n32 .dev .none (.lane 2) 16 (.off 0)) = false := by rfl
/-- R185: a type that memory does not take. -/
theorem test_ill_load_type : Instr.wf (.ld fp .f32 .grp .none (.lane 2) 16 (.off 0)) = false := by rfl
/-- R186: an acquiring store. -/
theorem test_ill_store_order : Instr.wf (.st plain .n32 .dev .acq 2 16 (.off 0)) = false := by rfl
/-- R186: the scope `.fab`. -/
theorem test_ill_atomic_scope : Instr.wf (.atom fp .n32 .fab .none (.lane 1) 2 none .add false (.imm 1)) = false := by rfl
/-- R188: `.cas` with an immediate. -/
theorem test_ill_atomic_cas : Instr.wf (.atom fp .n32 .dev .none (.lane 1) 2 none .cas false (.imm 1)) = false := by rfl
/-- R188: a compare register outside `.cas`. -/
theorem test_ill_atomic_compare : Instr.wf (.atom fp .n32 .dev .none (.lane 1) 2 none .add false (.reg (.lane 3) (.lane 4))) = false := by rfl
/-- R188: F with another type. -/
theorem test_ill_atomic_float : Instr.wf (.atom fp .n64 .dev .none (.lane 2) 2 none .add true (.imm 1)) = false := by rfl
/-- R188: `RED` with `.exch`. -/
theorem test_ill_red_exchange : Instr.wf (.red plain .n32 .dev .none 2 none .exch false (.imm 1)) = false := by rfl
/-- R193: no ordering. -/
theorem test_ill_fence_order : Instr.wf (.fence plain .none .dev) = false := by rfl
/-- R194: the scope `.fab`. -/
theorem test_ill_afence_scope : Instr.wf (.afence plain .fab) = false := by rfl
/-- R195: seventeen registers. -/
theorem test_ill_mark_count : Instr.wf (.mark plain 10 0 7 0 0) = false := by rfl
/-- R195: a base without registers. -/
theorem test_ill_mark_zero : Instr.wf (.mark plain 0 1 0 0 0) = false := by rfl
/-- R195: beyond s63. -/
theorem test_ill_mark_uniform : Instr.wf (.mark plain 0 0 2 63 0) = false := by rfl
/-- R195: beyond the allocation. -/
theorem test_ill_mark_lane : Instr.wf (.mark plain 2 255 0 0 0) = false := by rfl
/-- R197: the scope `.host`. -/
theorem test_ill_object_scope : Instr.wf (.binv plain .own .host 4) = false := by rfl
/-- R198: sixteen arrivals. -/
theorem test_ill_object_immediate : Instr.wf (.barr plain .own .blk 4 (.imm 16)) = false := by rfl
/-- R204: a predicate without `.try`. -/
theorem test_ill_wpull_predicate : Instr.wf (.wpull fp false 4 1) = false := by rfl
/-- R208: a field above 5. -/
theorem test_ill_widx_field : Instr.wf (.widx plain true (.uni 2) (.uni 4) (.lane 0) 6) = false := by rfl
/-- R208: a second source of `.ext`. -/
theorem test_ill_widx_source : Instr.wf (.widx plain true (.uni 2) (.uni 4) (.lane 1) 0) = false := by rfl
/-- R220: a displacement of −64. -/
theorem test_ill_scroll_displacement : Instr.wf (.scroll plain 10 0x40 0) = false := by rfl
/-- R95: an odd pair of descriptor registers. -/
theorem test_ill_scroll_pair : Instr.wf (.scroll plain 11 1 0) = false := by rfl
/-- R222: selector 3. -/
theorem test_ill_cpyq_selector : Instr.wf (.cpyq plain 3 9 4) = false := by rfl
/-- R230: a type without weights. -/
theorem test_ill_wload_type : Instr.wf (.wload plain .f32 4) = false := by rfl
/-- R233: a column count with FULL. -/
theorem test_ill_aload_columns : Instr.wf (.aload plain false 2 4 16 1 true) = false := by rfl
/-- R237: β without the scalar bit. -/
theorem test_ill_delta_beta : Instr.wf (.delta plain false 3 4 1) = false := by rfl
/-- R237: a count above 64. -/
theorem test_ill_tsolve_count : Instr.wf (.tsolve plain 4 6 65 0) = false := by rfl
/-- R237: beyond the last register. -/
theorem test_ill_dstep_range : Instr.wf (.dstep fp 4 2 63) = false := by rfl
/-- R17: a number that names nothing. -/
theorem test_ill_special_register : Instr.wf (.rds plain (.lane 2) 0x06) = false := by rfl
/-- R251: a register that is only read. -/
theorem test_ill_special_write : Instr.wf (.wrs plain 0x00 (.uni 5)) = false := by rfl
/-- R48: `%lane` to a uniform register. -/
theorem test_ill_special_uniform_lane : Instr.wf (.rds plain (.uni 2) 0x00) = false := by rfl

/-- What depends on the group: its allocation, its kind, and the place in the clause (R16, R47, R51, R54, R61). -/
theorem test_ill_context :
    causes { LCtx.free with regs := 32 } (.iadd plain .n32 false (.lane 32) (.lane 0) (.lane 0)) = [6] ∧
    causes { LCtx.free with tenant := true } (.pctlStop plain 2 4 6) = [4] ∧
    causes { LCtx.free with tenant := true } (.rds plain (.lane 2) 0x80) = [4] ∧
    causes { LCtx.free with f0v := false } (.nop fp) = [9] ∧
    causes { LCtx.free with last := false } (.trap plain 0) = [5] := by
  refine ⟨?_, ?_, ?_, ?_, ?_⟩ <;> rfl

/-! ### Worked examples and corners, one step each -/

/-- A header that counts fifteen words and marks both flags. -/
def hd : Header := { len := 15, wait := 0, f0v := true, f0n := 0, f1v := true, f1n := 1, rsv := 0 }

/-- A system group at word 1 of its clause, with the values of some registers in lane 0. -/
def grp (mask : Lanes) (v : List (Nat × Word32)) (s : List (Nat × Word64)) : Group :=
  { id := 1, launch := 1, block := 1, sys := true, ep := 0, slot := 31, regs := 256,
    p0 := some { pc := 1, mask := mask, clause := some { at_ := 0, h := hd } }
    v := v.foldl (fun m x => mset 0 m (x.1 * 32) x.2) [], s := s.foldl (fun m x => mset 0 m x.1 x.2) [] }

/-- A group whose lane L holds a value of L in one register. -/
def spread (r : Nat) (f : Nat → Word32) : Group :=
  { grp 0xFFFFFFFF#32 [] [] with v := (List.range 32).foldl (fun m l => mset 0 m (r * 32 + l) (f l)) [] }

/-- The state in which that group issues. -/
def one (g : Group) : State :=
  { groups := [g], launches := [{ id := 1, part := 0, tenant := 0, origin := .manager, hdr := {}, coStart := 0 }]
    cur := some { gid := 1, second := false } }

/-- The state after one instruction, and the group in it. -/
def next (i : Instr) (s : State) : State := match exec i s with | .next u => u | _ => { tick := 77 }
def ran (i : Instr) (g : Group) : Group := ((next i (one g)).group? 1).getD {}

/-- R137: eight bits from bit 4 of 0xABC. -/
theorem test_bfx : (ran (.bfx plain .s32 (.lane 1) (.lane 2) (.imm 0x804)) (grp 1 [(2, 0xABC)] [])).lane 1 0 = 0xFFFFFFAB#32 := by rfl
theorem test_bfx_unsigned : (ran (.bfx plain .n32 (.lane 1) (.lane 2) (.imm 0x804)) (grp 1 [(2, 0xABC)] [])).lane 1 0 = 0xAB#32 := by rfl
/-- R137: a field that would pass the top is cut there. -/
theorem test_bfi : (ran (.bfi plain .n32 (.lane 1) (.lane 2) (.lane 3) (.lane 4))
    (grp 1 [(2, 0xFFFFFFFF), (3, 0xFF1C), (4, 0)] [])).lane 1 0 = 0xF0000000#32 := by rfl
/-- R142: the product x⁶⁴ + x⁶³ + x + 1. -/
theorem test_clmul : (ran (.clmul plain .n64 false (.uni 1) (.uni 2) (.uni 3))
    (grp 1 [] [(2, 0x8000000000000001), (3, 3)])).uni 1 = 0x8000000000000003#64 := by rfl
theorem test_clmul_hi : (ran (.clmul plain .n64 true (.uni 1) (.uni 2) (.uni 3))
    (grp 1 [] [(2, 0x8000000000000001), (3, 3)])).uni 1 = 1#64 := by rfl
/-- R143: the three selectors of the example. -/
theorem test_bysel : (ran (.bysel plain (.lane 1) (.lane 2) (.lane 3) 0xCEC8) (grp 1 [(2, 0x44332211), (3, 0x88776655)] [])).lane 1 0
    = 0xFF002211#32 := by rfl
theorem test_bysel_zero : (ran (.bysel plain (.lane 1) (.lane 2) (.lane 3) 0x30977) (grp 1 [(2, 0x44332211), (3, 0x88776655)] [])).lane 1 0
    = 0x55660000#32 := by rfl
/-- R131: the most negative value, with and without saturation; an unsigned difference below zero. -/
theorem test_iabs_sat : (ran (.iabs plain .s32 true (.lane 1) (.lane 2)) (grp 1 [(2, 0x80000000)] [])).lane 1 0 = 0x7FFFFFFF#32 := by rfl
theorem test_iabs : (ran (.iabs plain .s32 false (.lane 1) (.lane 2)) (grp 1 [(2, 0x80000000)] [])).lane 1 0 = 0x80000000#32 := by rfl
theorem test_isub_sat : (ran (.isub plain .n32 true (.lane 1) (.lane 2) (.imm 5)) (grp 1 [(2, 3)] [])).lane 1 0 = 0#32 := by rfl
theorem test_isub : (ran (.isub plain .n32 false (.lane 1) (.lane 2) (.imm 5)) (grp 1 [(2, 3)] [])).lane 1 0 = 0xFFFFFFFE#32 := by rfl
theorem test_iadd_sat : (ran (.iadd plain .s32 true (.lane 1) (.lane 2) (.imm 1)) (grp 1 [(2, 0x7FFFFFFF)] [])).lane 1 0 = 0x7FFFFFFF#32 := by rfl
/-- R47: a 32-bit result of a signed type is sign-extended in a uniform register. -/
theorem test_iadd_uniform : (ran (.iadd plain .s32 false (.uni 1) (.uni 2) (.imm 1)) (grp 1 [] [(2, 0x7FFFFFFF)])).uni 1
    = 0xFFFFFFFF80000000#64 := by rfl
/-- R132: the carry out of the top bit. -/
theorem test_iaddc : (ran (.iaddc plain .n32 (.lane 1) (.lane 2) (.imm 1) 3) (grp 1 [(2, 0xFFFFFFFF)] [])).lane 1 0 = 0#32 := by rfl
theorem test_iaddc_carry : (ran (.iaddc plain .n32 (.lane 1) (.lane 2) (.imm 1) 3) (grp 1 [(2, 0xFFFFFFFF)] [])).pred 3 = 1#32 := by rfl
theorem test_imul : (ran (.imul plain .n32 (.lane 1) (.lane 2) (.imm 0x10001)) (grp 1 [(2, 0x10001)] [])).lane 1 0 = 0x20001#32 := by rfl
theorem test_imulh : (ran (.imulh plain .s32 (.lane 1) (.lane 2) (.imm 2)) (grp 1 [(2, 0xFFFFFFFF)] [])).lane 1 0 = 0xFFFFFFFF#32 := by rfl
theorem test_imad : (ran (.imad plain .n32 (.lane 1) (.lane 1) (.lane 1) (.lane 1)) (grp 1 [(1, 7)] [])).lane 1 0 = 56#32 := by rfl
theorem test_imin : (ran (.imin plain .s32 (.lane 1) (.lane 2) (.imm 1)) (grp 1 [(2, 0xFFFFFFFF)] [])).lane 1 0 = 0xFFFFFFFF#32 := by rfl
theorem test_imax : (ran (.imax plain .n32 (.lane 1) (.lane 2) (.imm 1)) (grp 1 [(2, 0xFFFFFFFF)] [])).lane 1 0 = 0xFFFFFFFF#32 := by rfl
/-- R134: counts at and beyond the width. -/
theorem test_shl : (ran (.shl plain .n32 (.lane 1) (.lane 2) (.imm 32)) (grp 1 [(2, 1)] [])).lane 1 0 = 0#32 := by rfl
theorem test_shr : (ran (.shr plain .n64 (.uni 1) (.uni 2) (.imm 63)) (grp 1 [] [(2, 0x8000000000000000)])).uni 1 = 1#64 := by rfl
theorem test_sar : (ran (.sar plain .s32 (.lane 1) (.lane 2) (.imm 100)) (grp 1 [(2, 0x80000000)] [])).lane 1 0 = 0xFFFFFFFF#32 := by rfl
theorem test_rotl : (ran (.rotl plain .n32 (.lane 1) (.lane 2) (.imm 33)) (grp 1 [(2, 0x80000001)] [])).lane 1 0 = 3#32 := by rfl
/-- R136: the table of the majority of three. -/
theorem test_blut : (ran (.blut plain .n32 (.lane 1) (.lane 2) (.lane 3) 0xE8) (grp 1 [(1, 0xAA), (2, 0xF0), (3, 0xCC)] [])).lane 1 0
    = 0xE8#32 := by rfl
theorem test_and : (ran (.and plain .n32 (.lane 1) (.lane 2) (.imm 0xF)) (grp 1 [(2, 0x3C)] [])).lane 1 0 = 0xC#32 := by rfl
theorem test_or : (ran (.or plain .n32 (.lane 1) (.lane 2) (.imm 0xF)) (grp 1 [(2, 0x30)] [])).lane 1 0 = 0x3F#32 := by rfl
theorem test_xor : (ran (.xor plain .n32 (.lane 1) (.lane 2) (.imm 0xF)) (grp 1 [(2, 0x3C)] [])).lane 1 0 = 0x33#32 := by rfl
theorem test_not : (ran (.not plain .n32 (.lane 1) (.lane 2)) (grp 1 [(2, 0xF)] [])).lane 1 0 = 0xFFFFFFF0#32 := by rfl
theorem test_popc : (ran (.popc plain .n32 (.lane 1) (.lane 2)) (grp 1 [(2, 0xFF01)] [])).lane 1 0 = 9#32 := by rfl
theorem test_clz : (ran (.clz plain .n32 (.lane 1) (.lane 2)) (grp 1 [(2, 0)] [])).lane 1 0 = 32#32 := by rfl
theorem test_ctz : (ran (.ctz plain .n32 (.lane 1) (.lane 2)) (grp 1 [(2, 0x80000000)] [])).lane 1 0 = 31#32 := by rfl
theorem test_brev : (ran (.brev plain .n32 (.lane 1) (.lane 2)) (grp 1 [(2, 1)] [])).lane 1 0 = 0x80000000#32 := by rfl
theorem test_bswap : (ran (.bswap plain .n16 (.lane 1) (.lane 2)) (grp 1 [(2, 0xAABBCCDD)] [])).lane 1 0 = 0xDDCC#32 := by rfl
/-- R138, R139: a signed comparison, and a selection by a negated predicate. -/
theorem test_iset : (ran (.iset plain .s32 .lt (.lane 2) (.lane 2) (.imm 0)) (grp 1 [(2, 0xFFFFFFFF)] [])).pred 2 = 1#32 := by rfl
theorem test_sel : (ran (.sel plain .n32 (.lane 1) (.lane 2) (.imm 9) 3 true) (grp 1 [(2, 5)] [])).lane 1 0 = 5#32 := by rfl
/-- R140: lane numbers, and a 64-bit constant. -/
theorem test_movi : (ran (.movi plain .n32 4 (.imm 0) 1) (grp 0xFFFFFFFF#32 [] [])).lane 4 31 = 31#32 := by rfl
theorem test_movh : (ran (.movh plain (.uni 7) (.uni 7) 0x01234567) (grp 1 [] [(7, 0x89ABCDEF)])).uni 7 = 0x0123456789ABCDEF#64 := by rfl
theorem test_mov : (ran (.mov plain .n32 (.uni 63) (.imm 5)) (grp 1 [] [])).uni 63 = 0#64 := by rfl
theorem test_lea : (ran (.lea plain .n64 (.uni 3) (.uni 2) (.uni 1) 4) (grp 1 [] [(1, 3), (2, 0x1000)])).uni 3 = 0x1030#64 := by rfl
/-- R154: the last turn of a loop, a count of 0, and `LOOP s63`. -/
theorem test_loop_last : ((ran (.loop plain 9 (-1)) (grp 1 [] [(9, 1)])).p0.map fun p => p.pc) = some 2#64 := by rfl
theorem test_loop_discarded : ((ran (.loop plain 63 (-1)) (grp 1 [] [])).p0.map fun p => p.pc) = some 0#64 := by rfl
theorem test_call : (ran (.call plain 9 7) ((grp 1 [] []).setPath false
    (some { pc := 15, mask := 1, clause := some { at_ := 0, h := hd } }))).uni 9 = 16#64 := by rfl
theorem test_ret : ((ran (.ret plain 9) (grp 1 [] [(9, 40)])).p0.map fun p => p.pc) = some 40#64 := by rfl
theorem test_bra : ((ran (.bra plain 5 0) (grp 1 [] [])).p0.map fun p => p.pc) = some 6#64 := by rfl
/-- R20: the taken lanes in the slot, the others in the other slot. -/
theorem test_bra_split : ((ran (.bra { plain with gp := 0 } 5 0) { grp 3 [] [] with p := [(0, 1#32)] }).p1.map fun p => (p.pc, p.mask))
    = some (2#64, 2#32) := by rfl
/-- R161, R80, R79: a sum rounded once to even, a zero sum under `.rdn`, and an overflow. -/
theorem test_fadd : (ran (.fadd plain .rne (.lane 1) (.lane 2) (.imm 0x3F800000)) (grp 1 [(2, 0x4B800000)] [])).lane 1 0 = 0x4B800000#32 := by rfl
theorem test_fadd_zero : (ran (.fadd plain .rdn (.lane 1) (.lane 2) (.imm 0xBF800000)) (grp 1 [(2, 0x3F800000)] [])).lane 1 0 = 0x80000000#32 := by rfl
theorem test_fmul : (ran (.fmul plain .rne (.lane 1) (.lane 2) (.imm 0x7F7FFFFF)) (grp 1 [(2, 0x40000000)] [])).lane 1 0 = 0x7F800000#32 := by rfl
theorem test_ffma : (ran (.ffma plain .rne (.lane 1) (.lane 2) (.lane 2) (.lane 3)) (grp 1 [(2, 0x3F800001), (3, 0xBF800002)] [])).lane 1 0
    = 0x28800000#32 := by rfl
/-- R163, R165. -/
theorem test_fmin : (ran (.fmin plain .f32 (.lane 1) (.lane 2) (.imm 0)) (grp 1 [(2, 0x80000000)] [])).lane 1 0 = 0x80000000#32 := by rfl
theorem test_fmax : (ran (.fmax plain .f32 (.lane 1) (.lane 2) (.imm 0x7FC00001)) (grp 1 [(2, 0x3F800000)] [])).lane 1 0 = 0x3F800000#32 := by rfl
theorem test_fset : (ran (.fset plain .f32 .ne (.lane 2) (.lane 2) (.lane 2)) (grp 1 [(2, 0x7FC00000)] [])).pred 2 = 1#32 := by rfl
theorem test_fclass : (ran (.fclass plain .f32 (.lane 2) (.lane 5) 0x1E7) (grp 1 [(5, 0x80000000)] [])).pred 2 = 0#32 := by rfl
theorem test_frnd : (ran (.frnd plain .f32 .rne (.lane 1) (.lane 2)) (grp 1 [(2, 0x40200000)] [])).lane 1 0 = 0x40000000#32 := by rfl
/-- R168, R169: the infinities of E4M3, and the packing of 1.0 and −2.5. -/
theorem test_cvt_sat : (ran (.cvt plain true .e4m3 .f32 .rne (.lane 1) (.lane 2)) (grp 1 [(2, 0x7F800000)] [])).lane 1 0 = 0x7E#32 := by rfl
theorem test_cvt : (ran (.cvt plain false .e4m3 .f32 .rne (.lane 1) (.lane 2)) (grp 1 [(2, 0xFF800000)] [])).lane 1 0 = 0x7F#32 := by rfl
theorem test_pack : (ran (.pack plain .bf16 .rne false false (.lane 5) (.lane 1) (.lane 2)) (grp 1 [(1, 0x3F800000), (2, 0xC0200000)] [])).lane 5 0
    = 0xC0203F80#32 := by rfl
theorem test_unpack : (ran (.unpack plain .i4 (.lane 1) (.lane 2) 7) (grp 1 [(2, 0x80000000)] [])).lane 1 0 = 0xC1000000#32 := by rfl
/-- R172 to R180. -/
theorem test_shfl : (ran (.shfl plain .n32 .xor 9 8 (.imm 16) 5) (spread 8 fun l => BitVec.ofNat 32 (l + 100))).lane 9 3 = 119#32 := by rfl
theorem test_vote : (ran (.vote plain .ballot true 9 0 true) { grp 0xFF#32 [] [] with p := [(0, 0x0F#32)] }).uni 9 = 0xF0#64 := by rfl
theorem test_redg : (ran (.redg plain .add .n32 (.uni 9) 8) (spread 8 fun l => BitVec.ofNat 32 l)).uni 9 = 496#64 := by rfl
theorem test_scang : (ran (.scang plain .add .n32 true 9 8) (spread 8 fun l => BitVec.ofNat 32 l)).lane 9 4 = 6#32 := by rfl
theorem test_match : (ran (.matchLanes plain false .n32 9 8) (spread 8 fun l => BitVec.ofNat 32 (l / 16))).lane 9 20 = 0xFFFF0000#32 := by rfl
theorem test_pset : (ran (.pset plain (.lane 3) (.lane 1) (.lane 2) (.lane 7) 0x22) { grp 15 [] [] with p := [(1, 0x3#32), (2, 0x5#32)] }).pred 3
    = 2#32 := by rfl
theorem test_p2s : (ran (.p2s plain (.lane 1) 0xFF) { grp 1 [] [] with p := [(2, 1#32)] }).lane 1 0 = 0x84#32 := by rfl
theorem test_s2p : (ran (.s2p plain false (.lane 1) 0x7) (grp 1 [(1, 5)] [])).pred 2 = 1#32 := by rfl
/-- R17, R51, R208, R250. -/
theorem test_rds : (ran (.rds plain (.lane 1) 0) (grp 0xFFFFFFFF#32 [] [])).lane 1 30 = 30#32 := by rfl
theorem test_nop : ((ran (.nop plain) (grp 1 [] [])).p0.map fun p => p.pc) = some 2#64 := by rfl
/-- R204, R194: a channel message on its way sets the record of side effects; a fence waits in the group's queue. -/
theorem test_fence : (ran (.fence plain .rel .dev) (grp 1 [] [])).iq.length = 1 := by rfl
/-- R262: a store queues one operation for each lane whose guard is true. -/
theorem test_st : (ran (.st plain .n32 .grp .none 2 4 (.off 0)) (grp 7 [(2, 5)] [(4, 0x1000)])).iq.length = 3 := by rfl
theorem test_ld : (ran (.ld fp .n32 .grp .none (.lane 2) 4 (.off 0)) (grp 1 [] [(4, 0x1000)])).flag 0 = 1 := by rfl
/-- R185: a misaligned address traps, and nothing is queued. -/
theorem test_ld_misaligned : (ran (.ld fp .n32 .grp .none (.lane 2) 4 (.off 2)) (grp 1 [] [(4, 0x1000)])).iq = [] := by rfl
/-- R416, R425: without power the mailbox ignores a command. -/
theorem test_mailbox_off : exec (.identify 255 []) State.reset = .next State.reset := by rfl
/-- R416: a pass length below ten minutes is refused. -/
theorem test_mailbox_range : (next (.rakePassLength 255 [0x57, 0x02, 0, 0]) { powered := true, mailbox := { stepDone := 4 } }).mailbox.result
    = some 2 := by rfl

/-- The first step after reset fetches and runs the word placed for it (log 17). -/
theorem test_first_step : (match step (State.reset.withFetchWord 96 0x22B0_7070_0002_89AB_CDEF_0000) with
    | .next u => (u.groups.head?.map fun g => g.uni 7) | _ => none) = some 0x89ABCDEF#64 := by rfl

/-! ### States that meet the hypotheses of the statements -/

/-- The path of `grp`. -/
def pth (mask : Lanes) : Path := { pc := 1, mask := mask, clause := some { at_ := 0, h := hd } }

/-- Every instruction of a list issues in `one`, where none of its causes holds and its flag has room. -/
theorem issues_all {m : Lanes} {v : List (Nat × Word32)} {s : List (Nat × Word64)} {c : Ctl}
    (hf : (grp m v s).flagFull (flagOf (pth m) c) = false) (l : List Instr)
    (hl : l.all (fun i => causes (ctxOf (grp m v s) (pth m)) i == []) = true) :
    ∀ i ∈ l, Issues (one (grp m v s)) i c (grp m v s) (pth m) false := fun i hi =>
  ⟨rfl, rfl, rfl, eq_of_beq (List.all_eq_true.mp hl i hi), hf⟩

/-- All lanes active, registers zero. -/
abbrev gAll : Group := grp 0xFFFFFFFF#32 [] []

theorem witness_IntegerArithmeticResults : ∀ i ∈ [Instr.iadd plain .s32 true (.lane 1) (.lane 2) (.lane 3),
    .isub plain .n64 false (.uni 1) (.uni 2) (.uni 3), .iabs plain .s32 true (.lane 1) (.lane 2),
    .imul plain .n32 (.lane 1) (.lane 2) (.imm 7), .imulh plain .s64 (.lane 2) (.lane 4) (.lane 6),
    .imad plain .n32 (.lane 1) (.lane 2) (.lane 3) (.uni 9), .imin plain .s32 (.lane 1) (.lane 2) (.cbank 0 0),
    .imax plain .n32 (.uni 1) (.uni 2) (.uni 3), .iaddc plain .n32 (.lane 4) (.lane 5) (.imm 1) 3],
    Issues (one gAll) i plain gAll (pth 0xFFFFFFFF#32) false := issues_all rfl _ rfl

/-- A constant-bank operand that is there, and one that no lane needs. -/
theorem witness_constant_bank : ConstReady (one gAll) gAll (guardOf gAll (pth 0xFFFFFFFF#32) plain) 4 (.cbank 0 0) ∧
    ConstReady (one gAll) gAll (guardOf gAll (pth 0xFFFFFFFF#32) { plain with gp := 0 }) 4 (.cbank 15 65532) :=
  ⟨.inr rfl, .inl rfl⟩

theorem witness_ShiftLogicAndFieldResults : ∀ i ∈ [Instr.shl plain .n32 (.lane 1) (.lane 2) (.imm 7),
    .shr plain .n64 (.lane 2) (.lane 4) (.imm 64), .sar plain .s32 (.lane 1) (.lane 2) (.lane 3), .rotl plain .n32 (.uni 1) (.uni 2) (.uni 3),
    .popc plain .n64 (.lane 2) (.lane 4), .clz plain .n32 (.lane 1) (.lane 2), .ctz plain .n32 (.lane 1) (.lane 2),
    .brev plain .n32 (.lane 1) (.lane 2), .bswap plain .n16 (.lane 1) (.lane 2), .and plain .n32 (.lane 1) (.lane 2) (.uni 3),
    .or plain .n32 (.lane 1) (.lane 2) (.uni 3), .xor plain .n32 (.lane 1) (.lane 2) (.uni 3), .not plain .n32 (.lane 1) (.lane 2),
    .blut plain .n32 (.lane 1) (.lane 2) (.lane 3) 0xD8, .bfx plain .s32 (.lane 1) (.lane 2) (.imm 0x804),
    .bfi plain .n32 (.lane 1) (.lane 2) (.lane 3) (.lane 4), .clmul plain .n64 true (.lane 2) (.lane 4) (.lane 6),
    .lea plain .n32 (.lane 1) (.lane 2) (.lane 3) 31, .bysel plain (.lane 1) (.lane 2) (.lane 3) 0x30977],
    Issues (one gAll) i plain gAll (pth 0xFFFFFFFF#32) false := issues_all rfl _ rfl

theorem witness_CompareSelectMoveResults : ∀ i ∈ [Instr.iset plain .s32 .lt (.lane 3) (.lane 2) (.imm 7),
    .iset plain .n32 .eq (.uni 3) (.uni 2) (.imm 7), .sel plain .n32 (.lane 1) (.lane 2) (.lane 3) 4 true,
    .sel plain .n32 (.uni 1) (.uni 2) (.uni 3) 3 false, .mov plain .n32 (.uni 7) (.imm 5), .movi plain .n32 6 (.uni 2) 4,
    .movh plain (.uni 7) (.uni 7) 1], Issues (one gAll) i plain gAll (pth 0xFFFFFFFF#32) false := issues_all rfl _ rfl

/-- The finite values of an 8-bit format are whole multiples of 2⁻ⁿ, up to a largest one. -/
theorem on_grid (f : FFmt) (n mx : ℕ) (hw : f.width = 8) (h : ∀ b < 256, (match f.decode b with
    | .num _ m e => decide (-(n : ℤ) ≤ e) && decide (m * 2 ^ (e + n).toNat ≤ mx) | _ => true) = true) :
    ∀ z, Finite f z → ∃ k : ℤ, z = k / 2 ^ n ∧ |k| ≤ mx := by
  rintro z ⟨b, s, m, e, hb, hd, rfl⟩
  have h := h b (by simpa [hw] using hb)
  rw [hd] at h
  simp only [Bool.and_eq_true, decide_eq_true_eq] at h
  obtain ⟨k, hk⟩ := Int.eq_ofNat_of_zero_le (show (0 : ℤ) ≤ e + n by omega)
  rw [hk, Int.toNat_natCast] at h
  have he : e = (k : ℤ) - n := by omega
  refine ⟨(if s then -1 else 1) * (m * 2 ^ k : ℕ), ?_, ?_⟩
  · rw [ratOf, he, zpow_sub₀ (by norm_num), zpow_natCast, zpow_natCast]
    cases s <;> push_cast <;> simp <;> ring
  · have := h.2
    cases s <;> simp only [if_true, Bool.false_eq_true, if_false, abs_neg, neg_mul, one_mul] <;> rw [abs_of_nonneg (by positivity)] <;> exact_mod_cast this

theorem e4m3_grid : ∀ z, Finite fmtE4M3 z → ∃ k : ℤ, z = k / 2 ^ 9 ∧ |k| ≤ (448 * 512 : ℕ) := on_grid fmtE4M3 9 (448 * 512) rfl (by decide +kernel)
theorem e5m2_grid : ∀ z, Finite fmtE5M2 z → ∃ k : ℤ, z = k / 2 ^ 16 ∧ |k| ≤ (57344 * 65536 : ℕ) := on_grid fmtE5M2 16 (57344 * 65536) rfl (by decide +kernel)

theorem e4m3_isMax : IsMax fmtE4M3 448 := by
  refine ⟨⟨0x7E, false, 14, 5, by decide, by decide, by norm_num [ratOf]⟩, fun z hz => ?_⟩
  obtain ⟨k, rfl, hk⟩ := e4m3_grid z hz
  have : (k : ℚ) ≤ 448 * 512 := by exact_mod_cast (le_abs_self k).trans hk
  rw [div_le_iff₀ (by norm_num)]; linarith

theorem e5m2_isMax : IsMax fmtE5M2 57344 := by
  refine ⟨⟨0x7B, false, 7, 13, by decide, by decide, by norm_num [ratOf]⟩, fun z hz => ?_⟩
  obtain ⟨k, rfl, hk⟩ := e5m2_grid z hz
  have : (k : ℚ) ≤ 57344 * 65536 := by exact_mod_cast (le_abs_self k).trans hk
  rw [div_le_iff₀ (by norm_num)]; linarith

/-- +0 and the least positive value of E4M3. -/
theorem e4m3_adjacent : Adjacent fmtE4M3 0 (1 / 512) := by
  refine ⟨⟨0, false, 0, -9, by decide, by decide, by norm_num [ratOf]⟩, ⟨1, false, 1, -9, by decide, by decide, by norm_num [ratOf]⟩, by norm_num, fun z hz => ?_⟩
  obtain ⟨k, rfl, -⟩ := e4m3_grid z hz
  rcases le_or_gt k 0 with h | h
  · exact .inl (div_nonpos_of_nonpos_of_nonneg (by exact_mod_cast h) (by positivity))
  · refine .inr ?_
    have : (1 : ℚ) ≤ k := by exact_mod_cast h
    rw [div_le_div_iff₀ (by norm_num) (by norm_num)]; linarith

theorem witness_RoundingChoosesNeighbour : IsFmt fmtE4M3 ∧ (0 : Nat) < 2 ^ 32 ∧ IsMax fmtE4M3 448 ∧
    |ratOf true 14 5| ≤ 448 ∧ |ratOf false 0 0| ≤ 448 ∧ |ratOf false 1 (-20)| ≤ 448 ∧
    (Adjacent fmtE4M3 0 (1 / 512) ∧ 0 < ratOf false 1 (-10) ∧ ratOf false 1 (-10) < 1 / 512 ∧ |ratOf false 1 (-10)| ≤ 448) ∧
    (448 < |ratOf true 1 9| ∧ overflows fmtE4M3 .rdn true (ratOf true 1 9) 448 = false) ∧
    (IsFmt fmtE5M2 ∧ IsMax fmtE5M2 57344 ∧ 57344 < |ratOf false 15 12| ∧ overflows fmtE5M2 .rne false (ratOf false 15 12) 57344 = true) := by
  refine ⟨by simp [IsFmt], by norm_num, e4m3_isMax, ?_, ?_, ?_, ⟨e4m3_adjacent, ?_, ?_, ?_⟩, ⟨?_, by simp [overflows]⟩,
    ⟨by simp [IsFmt], e5m2_isMax, ?_, ?_⟩⟩
  case refine_9 =>
    simp only [overflows, halfMax, show ¬ fmtE5M2 = fmtE4M3 by decide, show ¬ fmtE5M2 = fmtF32 by decide,
      show ¬ fmtE5M2 = fmtF16 by decide, show ¬ fmtE5M2 = fmtBF16 by decide, if_false, if_true]
    norm_num [ratOf]
  all_goals norm_num [ratOf, abs_of_neg, abs_of_pos]

theorem witness_FloatArithmeticResults : ∀ i ∈ [Instr.fadd plain .rtz (.lane 1) (.lane 2) (.imm 0x3F800000),
    .fmul plain .sr (.lane 1) (.lane 2) (.lane 3), .twadd plain .f16 .rne (.lane 2) (.lane 5) (.lane 6),
    .twmul plain .bf16 .rup (.lane 2) (.lane 5) (.uni 6), .ffma plain .rdn (.lane 1) (.lane 2) (.lane 3) (.lane 4),
    .twfma plain .bf16 .rne (.lane 2) (.lane 5) (.lane 6) (.lane 7)],
    Issues (one gAll) i plain gAll (pth 0xFFFFFFFF#32) false := issues_all rfl _ rfl

theorem witness_FloatCompareResults : ∀ i ∈ [Instr.fmin plain .f16 (.lane 1) (.lane 2) (.lane 3),
    .fmax plain .f32 (.lane 1) (.lane 2) (.imm 0), .fset plain .bf16 .nan (.lane 2) (.lane 3) (.lane 4),
    .fclass plain .f32 (.lane 2) (.lane 5) 0x1E7, .frnd plain .f32 .rdn (.lane 2) (.lane 5)],
    Issues (one gAll) i plain gAll (pth 0xFFFFFFFF#32) false := issues_all rfl _ rfl

theorem witness_ConversionResults : ∀ i ∈ [Instr.cvt plain true .e4m3 .f32 .sr (.lane 2) (.lane 5),
    .cvt plain false .s64 .f32 .rne (.lane 2) (.lane 5), .pack plain .e4m3 .rne true true (.lane 2) (.lane 5) (.lane 6),
    .unpack plain .i4 (.lane 2) (.lane 5) 7, .unpack plain .i3 (.lane 2) (.lane 4) 61],
    Issues (one gAll) i plain gAll (pth 0xFFFFFFFF#32) false := issues_all rfl _ rfl

theorem witness_SpecialFunctionResults : (∀ i ∈ [Instr.rcp plain .f32 (.lane 1) (.lane 2), .rsq plain .f16 (.lane 1) (.lane 2),
    .sqrt plain .bf16 (.lane 1) (.lane 2), .ex2 plain .f32 (.lane 1) (.lane 2), .lg2 plain .f32 (.uni 1) (.uni 2),
    .sin plain .f32 (.lane 1) (.lane 2), .cos plain .f32 (.lane 1) (.lane 2), .tanh plain .f32 (.lane 1) (.lane 2)],
    Issues (one gAll) i plain gAll (pth 0xFFFFFFFF#32) false) ∧
    fmtF32.decode (0x7F800001#32).toNat = .nan ∧ fmtF32.decode (0x80000001#32).toNat = .num true 1 (-149) ∧
    fmtF32.decode (0x00000001#32).toNat = .num false 1 (-149) := ⟨issues_all rfl _ rfl, rfl, rfl, rfl⟩

theorem witness_CrossLaneAndPredicateResults : (∀ i ∈ [Instr.shfl plain .n32 .xor 9 8 (.imm 16) 5, .vote plain .ballot true 9 3 true,
    .vote plain .all false 7 3 true, .redg plain .max .s32 (.uni 3) 7, .redg plain .add .f32 (.lane 3) 7, .scang plain .add .n32 true 3 7,
    .matchLanes plain true .n32 3 7, .pset plain (.lane 3) (.lane 1) (.lane 2) (.lane 7) 0x22, .p2s plain (.uni 3) 0xF,
    .p2s plain (.lane 3) 0xFF, .s2p plain false (.lane 3) 0x7F, .s2p plain true (.uni 3) 0xF],
    Issues (one gAll) i plain gAll (pth 0xFFFFFFFF#32) false) ∧ mwf (0 : Lanes) gAll.p = true := ⟨issues_all rfl _ rfl, rfl⟩

/-- A group with predicate 0 true in lane 0 alone, two lanes active, and something on its stack. -/
def gTwo : Group := { grp 3 [] [] with p := [(0, 1#32)] }

theorem issues_two {i : Instr} {c : Ctl} (hc : causes (ctxOf gTwo (pth 3)) i = []) (hf : gTwo.flagFull (flagOf (pth 3) c) = false) :
    Issues (one gTwo) i c gTwo (pth 3) false := ⟨rfl, rfl, rfl, hc, hf⟩

/-- The guard of predicate 0. -/
def byP0 : Ctl := { plain with gp := 0 }

/-- The targets of a `BRX`, from the target of every active lane. -/
theorem brx_targets {g : Group} {p : Path} {c : Ctl} {a : RSrc} {ts : List Nat} (hp : ts.Pairwise (· < ·))
    (h1 : ∀ l, l < 32 → p.mask.getLsbD l = true → brxTo g p c a l ∈ ts)
    (h2 : ∀ n ∈ ts, ∃ l, l < 32 ∧ p.mask.getLsbD l = true ∧ brxTo g p c a l = n) : BrxTargets g p c a ts :=
  ⟨hp, fun n => ⟨h2 n, fun ⟨l, h, hm, e⟩ => e ▸ h1 l h hm⟩⟩

theorem witness_UniformControlTransfers : (∀ i ∈ [Instr.bra plain 5 0, .ret plain 9, .loop plain 63 (-1), .brx plain (.uni 4) 0],
    Issues (one gAll) i plain gAll (pth 0xFFFFFFFF#32) false) ∧
    (∃ g, Issues (one g) (.call plain 9 7) plain g { pth 1 with pc := 15 } false ∧ ¬ Diverges g { pth 1 with pc := 15 } plain) ∧
    (pth 0xFFFFFFFF#32).mask ≠ 0 ∧ ¬ Diverges gAll (pth 0xFFFFFFFF#32) plain ∧
    guardOf gAll (pth 0xFFFFFFFF#32) plain = (pth 0xFFFFFFFF#32).mask ∧
    guardOf gAll (pth 0xFFFFFFFF#32) byP0 = 0 ∧ BrxTargets gAll (pth 0xFFFFFFFF#32) plain (.uni 4) [0] ∧
    BrxTargets gAll (pth 0xFFFFFFFF#32) byP0 (.uni 4) [2] ∧
    (let g := { gTwo with s := [(4, 2)] }
     Issues (one g) (.brx byP0 (.uni 4) 0) byP0 g (pth 3) false ∧ guardOf g (pth 3) byP0 = 1 ∧ BrxTargets g (pth 3) byP0 (.uni 4) [2]) := by
  refine ⟨issues_all rfl _ rfl, ⟨{ grp 1 [] [] with p0 := some { pth 1 with pc := 15 } }, ⟨rfl, rfl, rfl, rfl, rfl⟩, ?_⟩, by decide,
    ?_, rfl, rfl, brx_targets (by simp) (by decide) (by decide), brx_targets (by simp) (by decide) (by decide),
    ⟨rfl, rfl, rfl, rfl, rfl⟩, by decide, brx_targets (by simp) (by decide) (by decide)⟩ <;> simp only [Diverges] <;> decide

/-- Two headers of one word each in the code segment of a system group, before and after this one's word. -/
def codeAt (ws : List (Nat × Word96)) : List Host.Cell :=
  setBytes [] (ws.flatMap fun x => ((List.range 12).zip (bytesLE x.2.toNat 12)).map fun y => (x.1 * 12 + y.1, y.2))

/-- A header that counts one word, and the word of `RECONV`. -/
def h1 : Header := { len := 1, wait := 0, f0v := false, f0n := 0, f1v := false, f1n := 0, rsv := 0 }
def reconvWord : Word96 := encode (.reconv plain)
def joinWord96 : Word96 := encode (.join plain)

/-- A state with code: a header and `RECONV` at words 16 and 32, a header and `JOIN` at 48. -/
def coded (g : Group) : State :=
  { one g with mem := codeAt [(16, headerWord h1), (17, reconvWord), (32, headerWord h1), (33, reconvWord), (48, headerWord h1),
    (49, joinWord96)] }

/-- The group with a register of two branch targets. -/
def gFork : Group := { grp 3 [(4, 16)] [] with v := [(128, 16), (129, 32)] }

/-- The path at word 15, and one at word 1 whose record has its point at word 16. -/
def p15 : Path := { pth 3 with pc := 15 }
def inRec (g : Group) (n : Nat) : Group :=
  { g with p0 := some { pth 3 with jr := some 7 },
           recs := { id := 7, pt := 16, exp := 3, arr := 0, out := none, hd := hd } :: List.replicate n { id := 8, pt := 9, exp := 3, arr := 0, out := none, hd := hd } }

/-- A group with no room for another record, and one with none for another path. -/
def fullRecs (g : Group) : Group := { g with recs := List.replicate 64 { id := 8, pt := 9, exp := 3, arr := 0, out := none, hd := hd } }
def fullStack (g : Group) : Group := { g with p1 := some (pth 4), stack := List.replicate 64 (pth 8) }

theorem witness_DivergentBranchSplits :
    (∀ g ∈ [gTwo, fullStack gTwo], Issues (one g) (.bra byP0 5 0) byP0 g (pth 3) false ∧ Diverges g (pth 3) byP0 ∧ Records (one g) g (pth 3) false false none none) ∧
    (fullStack gTwo).stack.length + 1 > 64 ∧ ((fullStack gTwo).path? true).isSome = true ∧
    (∀ g ∈ [gTwo, fullRecs gTwo], Issues (coded g) (.bra byP0 5 15) byP0 g (pth 3) false ∧ Diverges g (pth 3) byP0 ∧ (15 : BitVec 24) ≠ 0 ∧
      Records (coded g) g (pth 3) false false (some ((pth 3).pc + (15 : BitVec 24).signExtend 64)) (some (16, h1))) ∧
    (let g := inRec gTwo 0; let p := { pth 3 with jr := some 7 }
     Issues (coded g) (.bra byP0 5 15) byP0 g p false ∧ Diverges g p byP0 ∧ Records (coded g) g p false false (some 16) none) ∧
    (Issues (coded gTwo) (.bra byP0 5 30) byP0 gTwo (pth 3) false ∧ gTwo.pointOf (pth 3) ≠ some ((pth 3).pc + (30 : BitVec 24).signExtend 64) ∧
      pointCheck (coded gTwo) gTwo (pth 3) false false ((pth 3).pc + (30 : BitVec 24).signExtend 64) = .bad) ∧
    (let g := { gTwo with p0 := some p15 }
     Issues (coded g) (.call byP0 9 7) byP0 g p15 false ∧ Diverges g p15 byP0 ∧
       Records (coded g) g p15 false false (some (p15.pc + 1)) (some (16, h1))) ∧
    (let p := { p15 with jr := some 7 }; let g := { inRec gTwo 0 with p0 := some p }
     Issues (coded g) (.call byP0 9 7) byP0 g p false ∧ Diverges g p byP0 ∧ Records (coded g) g p false false (some (p.pc + 1)) none) ∧
    (let p := { pth 3 with pc := 13, clause := some { at_ := 0, h := { hd with len := 13 } } }; let g := { gTwo with p0 := some p }
     Issues (coded g) (.call byP0 9 7) byP0 g p false ∧ Diverges g p byP0 ∧ g.pointOf p ≠ some (p.pc + 1) ∧
       pointCheck (coded g) g p false false (p.pc + 1) = .bad) ∧
    (Issues (coded gFork) (.brx plain (.lane 4) 0) plain gFork (pth 3) false ∧ BrxTargets gFork (pth 3) plain (.lane 4) [16, 32] ∧
      Records (coded gFork) gFork (pth 3) false true none none ∧
      Records (coded gFork) gFork (pth 3) false true (some ((pth 3).pc + (47 : BitVec 32).signExtend 64)) (some (48, h1)) ∧
      gFork.pointOf (pth 3) ≠ some ((pth 3).pc + (15 : BitVec 32).signExtend 64) ∧
      pointCheck (coded gFork) gFork (pth 3) false true ((pth 3).pc + (15 : BitVec 32).signExtend 64) = .bad) ∧
    (let g := { gFork with p := [(0, 1#32)] }
     Issues (coded g) (.brx byP0 (.lane 4) 47) byP0 g (pth 3) false ∧ BrxTargets g (pth 3) byP0 (.lane 4) [2, 16] ∧
       brxLanes g (pth 3) byP0 (.lane 4) 2 &&& guardOf g (pth 3) byP0 = 0) := by
  refine ⟨?_, by decide, rfl, ?_, ?_, ?_, ?_, ?_, ?_, ?_, ?_⟩
  · intro g hg
    simp only [List.mem_cons, List.not_mem_nil, or_false] at hg
    rcases hg with rfl | rfl <;> refine ⟨⟨rfl, rfl, rfl, rfl, rfl⟩, ?_, rfl⟩ <;> simp only [Diverges] <;> decide
  · intro g hg
    simp only [List.mem_cons, List.not_mem_nil, or_false] at hg
    rcases hg with rfl | rfl <;> refine ⟨⟨rfl, rfl, rfl, rfl, rfl⟩, ?_, by decide, .inr ⟨by decide, h1, rfl, rfl⟩⟩ <;> simp only [Diverges] <;> decide
  · refine ⟨⟨rfl, rfl, rfl, rfl, rfl⟩, ?_, .inl ⟨rfl, rfl⟩⟩; simp only [Diverges]; decide
  · exact ⟨⟨rfl, rfl, rfl, rfl, rfl⟩, by decide, by decide⟩
  · refine ⟨⟨rfl, rfl, rfl, rfl, rfl⟩, ?_, .inr ⟨by decide, h1, rfl, rfl⟩⟩; simp only [Diverges]; decide
  · refine ⟨⟨rfl, rfl, rfl, rfl, rfl⟩, ?_, .inl ⟨rfl, rfl⟩⟩; simp only [Diverges]; decide
  · refine ⟨⟨rfl, rfl, rfl, rfl, rfl⟩, ?_, by decide, by decide⟩; simp only [Diverges]; decide
  · exact ⟨⟨rfl, rfl, rfl, rfl, rfl⟩, brx_targets (by simp) (by decide) (by decide), rfl, .inr ⟨by decide, h1, rfl, rfl⟩, by decide, by decide⟩
  · exact ⟨⟨rfl, rfl, rfl, rfl, rfl⟩, brx_targets (by simp) (by decide) (by decide), by decide⟩
/-- A path whose record is number 7, with its point at word 16, whose first word has been entered. -/
def joiner (exp arr : Lanes) (stack : List Path) : Group :=
  { grp 1 [] [] with p0 := some { pth 1 with pc := 17, jr := some 7, clause := some { at_ := 16, h := hd } }
                     recs := [{ id := 7, pt := 16, exp := exp, arr := arr, out := none, hd := hd }], stack := stack }

theorem witness_ReconvergenceMerges : ∀ mk ∈ [fun c => Instr.reconv c, fun c => Instr.join c],
    (Issues (one gAll) (mk plain) plain gAll (pth 0xFFFFFFFF#32) false ∧
      gAll.pointOf (pth 0xFFFFFFFF#32) ≠ some ((pth 0xFFFFFFFF#32).pc - 1)) ∧
    ∀ g ∈ [joiner 3 2 [], joiner 3 0 [], joiner 3 0 [pth 4]], ∃ p j, Issues (one g) (mk plain) plain g p false ∧ p.jr = some 7 ∧
      findKey (fun r => r.id) 7 g.recs = some j ∧ j.pt = p.pc - 1 ∧
      (if j.arr = 2 then j.exp &&& ~~~(j.arr ||| p.mask) = 0 else j.exp &&& ~~~(j.arr ||| p.mask) ≠ 0) := by
  intro mk hm
  simp only [List.mem_cons, List.not_mem_nil, or_false] at hm
  rcases hm with rfl | rfl <;> refine ⟨⟨⟨rfl, rfl, rfl, rfl, rfl⟩, by decide⟩, ?_⟩ <;> intro g hg <;>
    simp only [List.mem_cons, List.not_mem_nil, or_false] at hg <;> rcases hg with rfl | rfl | rfl <;>
    exact ⟨_, _, ⟨rfl, rfl, rfl, rfl, rfl⟩, rfl, rfl, rfl, by decide⟩

/-- A group at the header at word 16. -/
def gHead : Group := { grp 1 [] [] with p0 := some { pc := 16, mask := 1 } }

theorem witness_ClauseEntry :
    ((coded gHead).cur = some { gid := gHead.id, second := false } ∧ (coded gHead).group? gHead.id = some gHead ∧
      gHead.path? false = some { pc := 16, mask := 1 } ∧ gHead.deferred = [] ∧ 0 < h1.len.toNat ∧ h1.rsv = 0 ∧
      h1.f0v = false ∧ h1.f1v = false ∧ (16 : Word64).toNat + h1.len.toNat < 2 ^ 20 ∧
      (∀ k, k < h1.len.toNat → ∃ w, (coded gHead).codeWord gHead ((coded gHead).codeBase gHead) (16 + 1 + BitVec.ofNat 64 k) = .ok w ∧
        w >>> 88 ≠ 0xF0#96) ∧
      (∀ k, k < 12 → h1.wait.getLsbD k = true → gHead.flag k = 0)) ∧
    (let g := { gHead with flags := [(11, 2)] }
     ∃ k, k < 12 ∧ ({ h1 with wait := 0x800 } : Header).wait.getLsbD k = true ∧ g.flag k ≠ 0) ∧
    (∀ h ∈ [{ h1 with len := 0 }, { h1 with rsv := 1 }, { h1 with f0v := true, f0n := 12 }, { h1 with f1v := true },
        { h1 with f0v := true, f1v := true, f1n := 13, f0n := 1 }, { h1 with f0v := true, f1v := true }],
      ¬(0 < h.len.toNat ∧ h.rsv = 0 ∧ (h.f0v = true → h.f0n.toNat ≤ 11) ∧ (h.f1v = true → h.f1n.toNat ≤ 11 ∧ h.f0v = true) ∧
        (h.f0v = true → h.f1v = true → h.f0n ≠ h.f1n))) ∧
    (let g := { grp 1 [] [] with p0 := some { pc := 0xFFFFF, mask := 1 } }
     (coded g).group? g.id = some g ∧ g.path? false = some { pc := 0xFFFFF, mask := 1 } ∧
       2 ^ 20 ≤ (0xFFFFF : Word64).toNat + h1.len.toNat) ∧
    (let g := { grp 1 [] [] with p0 := some { pc := 30, mask := 1 } }
     (coded g).group? g.id = some g ∧ g.path? false = some { pc := 30, mask := 1 } ∧ 1 < ({ h1 with len := 2 } : Header).len.toNat ∧
       (∀ j, j < 1 → ∃ w, (coded g).codeWord g ((coded g).codeBase g) (30 + 1 + BitVec.ofNat 64 j) = .ok w ∧ w >>> 88 ≠ 0xF0#96) ∧
       (coded g).codeWord g ((coded g).codeBase g) (30 + 1 + BitVec.ofNat 64 1) = .ok (headerWord h1) ∧ headerWord h1 >>> 88 = 0xF0#96) ∧
    (pth 1).clause = some { at_ := 0, h := hd } ∧
    ((coded gHead).uncorr = [] ∧ (coded gHead).codeWord gHead ((coded gHead).codeBase gHead) 17 = .ok reconvWord ∧
      reconvWord >>> 88 ≠ 0xF0#96) := by
  refine ⟨⟨rfl, rfl, rfl, rfl, by decide, rfl, rfl, rfl, by decide, ?_, ?_⟩, ⟨11, by decide, by decide, by decide⟩, by decide,
    ⟨rfl, rfl, by decide⟩, ⟨rfl, rfl, by decide, ?_, rfl, by decide⟩, rfl, rfl, rfl, by decide⟩
  · intro k hk
    have : k = 0 := by have h : h1.len.toNat = 1 := rfl; omega
    subst this
    exact ⟨reconvWord, rfl, by decide⟩
  · intro k _ h
    simp [h1] at h
  · intro j hj
    have : j = 0 := by omega
    subst this
    exact ⟨0, by decide, by decide⟩

theorem witness_YieldSleepAndSwap : (∀ i ∈ [Instr.nop plain, .yld plain, .sleep plain (.imm 0xFFFFFFFF), .sleep plain (.uni 63)],
    Issues (one gAll) i plain gAll (pth 0xFFFFFFFF#32) false) ∧
    (let g := { gAll with wait := .sleep 5 }; (one g).group? 1 = some g ∧ g.wait = .sleep 5) ∧
    (let g := { grp 1 [] [] with p0 := some { pth 1 with issued := 4096 }, stack := [pth 2] }
     (one g).group? 1 = some g ∧ g.path? false = some { pth 1 with issued := 4096 } ∧ g.stack = [pth 2] ∧ g.wait = .none ∧ g.trap = none) :=
  ⟨issues_all rfl _ rfl, ⟨rfl, rfl⟩, ⟨rfl, rfl, rfl, rfl, rfl⟩⟩

theorem witness_SpecialRegistersAndIdentifiers : (∀ i ∈ [Instr.rds plain (.lane 3) 0, .rds plain (.uni 3) 0x0F, .rds plain (.uni 4) 0x85,
    .wrs plain 0x10 (.uni 5), .wrs plain 0x40 (.lane 5), .wrs plain 0x7F (.imm 5), .wrs plain 0x80 (.uni 5), .wrs plain 0x81 (.uni 5),
    .wrs plain 0x83 (.uni 5), .widx plain false (.uni 3) (.uni 4) (.uni 5) 5, .widx plain true (.lane 2) (.lane 4) (.lane 0) 0],
    Issues (one gAll) i plain gAll (pth 0xFFFFFFFF#32) false) ∧
    (guardOf gAll (pth 0xFFFFFFFF#32) plain).getLsbD 0 = true ∧
    (Issues (one gAll) (.wrs byP0 0x10 (.uni 5)) byP0 gAll (pth 0xFFFFFFFF#32) false ∧ guardOf gAll (pth 0xFFFFFFFF#32) byP0 = 0) :=
  ⟨issues_all rfl _ rfl, rfl, ⟨rfl, rfl, rfl, rfl, rfl⟩, rfl⟩

/-- One lane active, an address, a phase, and an item. -/
abbrev gMem : Group := grp 1 [(2, 5)] [(4, 0x1000), (6, 1)]
abbrev pMem : Path := pth 1

/-- Nothing of the group waits to be performed. -/
theorem free_mem {m : Lanes} {v : List (Nat × Word32)} {s : List (Nat × Word64)} : Unfenced (grp m v s) (pth m) ∧ NoInit (grp m v s) :=
  ⟨fun _ h => absurd h List.not_mem_nil, fun _ h => absurd h List.not_mem_nil⟩

theorem witness_DeviceAccessesQueue :
    (∀ i ∈ [Instr.ld fp .n64 .grp .none (.lane 2) 4 (.off 0), .ld fp .n32 .dev .acq (.uni 2) 4 (.off 0),
      .atom fp .n32 .dev .rel (.lane 0) 4 none .add false (.imm 1), .atom fp .n64 .pool .ar (.uni 0) 4 none .cas false (.reg (.uni 3) (.uni 5))],
      Issues (one gMem) i fp gMem pMem false) ∧
    (∀ i ∈ [Instr.st plain .n64 .grp .none 2 4 (.off 0), .st plain .n8 .dev .rel 2 4 (.off 0), .red plain .n32 .dev .none 4 none .max false (.imm 9),
      .pref plain true 4 (.off 0), .pref plain false 4 (.off 0)], Issues (one gMem) i plain gMem pMem false) ∧
    guardOf gMem pMem fp ≠ 0 ∧ Unfenced gMem pMem ∧ NoInit gMem ∧ (one gMem).restartable gMem.block = false ∧ (one gMem).faultRoom gMem.ep = true ∧
    (∀ uni, ∀ l ∈ accessLanes uni (guardOf gMem pMem fp), devAddr gMem 4 (.off 0) l % 8 = 0 ∧ ∀ k, k < 8 →
      (∃ pa, (one gMem).trGroup gMem .read (devAddr gMem 4 (.off 0) l + k) = .ok pa) ∧
      ∃ pa, (one gMem).trGroup gMem .write (devAddr gMem 4 (.off 0) l + k) = .ok pa) := by
  refine ⟨issues_all rfl _ rfl, issues_all rfl _ rfl, by decide, free_mem.1, free_mem.2, rfl, by decide, ?_⟩
  intro uni l hl
  have h0 : l = 0 := by
    cases uni <;> revert hl <;> simp only [accessLanes] <;> decide +revert
  subst h0
  refine ⟨rfl, fun k hk => ?_⟩
  interval_cases k <;> exact ⟨⟨_, rfl⟩, ⟨_, rfl⟩⟩

/-- The group's launch has 4 KiB of local store from offset 256 on, and channel 3 of depth 2; a live object at offset 16 of it. -/
def stored_ (g : Group) : State :=
  { one g with
    launches := [{ id := 1, part := 0, tenant := 0, origin := .manager, coStart := 0, rangeBase := 256, rangeLen := 4096
                   hdr := { chans := [0, 0, 0, 2], banks := [(0x2000, 64)] } }]
    live := [(17, true)] }

/-- A system group's addresses are physical. -/
theorem tr_sys {s : State} {g : Group} {k : Access} {va : Nat} (hg : g.sys = true) (h : va < 2 ^ 39) : s.trGroup g k va = .ok va := by
  have h1 : va / 2 ^ 54 = 0 := by omega
  have h2 : paExists va = true := by
    unfold paExists
    rw [h1]
    simpa using h
  simp only [State.trGroup, hg, if_true, State.translateSys, h2, Bool.not_true, Bool.or_false, decide_eq_true_eq]
  rw [if_neg (by omega)]

/-- The same with the partition of quadrant 0 and the group's block on it. -/
def onPan (g : Group) : State :=
  { stored_ g with
    parts := [(0, { exists_ := true, quads := [0] })]
    blocks := [{ id := 1, launch := 1, patch := 1, ep := 0, part := 0, tenant := 0, stg := 0, restartable := false, alive := 2 }] }

theorem issues_pan {m : Lanes} {v : List (Nat × Word32)} {s : List (Nat × Word64)} {c : Ctl}
    (hf : (grp m v s).flagFull (flagOf (pth m) c) = false) (l : List Instr)
    (hl : l.all (fun i => causes (ctxOf (grp m v s) (pth m)) i == []) = true) :
    ∀ i ∈ l, Issues (onPan (grp m v s)) i c (grp m v s) (pth m) false := fun i hi =>
  ⟨rfl, rfl, rfl, eq_of_beq (List.all_eq_true.mp hl i hi), hf⟩

/-- Offset 32 of the range in s2, its object at 16 in s3, a ring's parameters in s5. -/
abbrev gStore : Group := grp 1 [(2, 5)] [(2, 32), (3, 16), (4, 0x1000), (5, 2 ^ 19 * 64), (6, 1)]

theorem witness_StoreAccessesQueue :
    (∀ i ∈ [Instr.lds fp .n32 .own (.lane 6) (.uni 2) (.off 0), .lds fp .n32 .own (.uni 6) (.uni 2) (.off 0),
      .atoms fp .n32 .own (.lane 1) (.uni 2) none .cas false (.reg (.lane 3) (.lane 4)), .ldc fp .n32 (.lane 6) (.uni 63) 0 60],
      Issues (onPan gStore) i fp gStore pMem false) ∧
    (∀ i ∈ [Instr.sts plain .n64 .own 6 (.uni 2) (.off 0)], Issues (onPan gStore) i plain gStore pMem false) ∧
    guardOf gStore pMem fp ≠ 0 ∧ Unfenced gStore pMem ∧ NoInit gStore ∧ (onPan gStore).faultRoom gStore.ep = true ∧ (onPan gStore).winPos gStore .own = some 0 ∧
    (∀ l ∈ accessLanes true (guardOf gStore pMem fp), locOff gStore (.uni 2) (.off 0) l % 8 = 0 ∧
      locOff gStore (.uni 2) (.off 0) l + 8 ≤ ((onPan gStore).rangeOf gStore.launch).2 ∧
      ∀ k, k < 8 → (onPan gStore).liveAt 0 (((onPan gStore).rangeOf gStore.launch).1 + locOff gStore (.uni 2) (.off 0) l + k) = false) ∧
    (∀ k, k < 4 → ∃ pa, (onPan gStore).trGroup gStore .read (0x2000 + 60 + k) = .ok pa) := by
  refine ⟨issues_pan rfl _ rfl, issues_pan rfl _ rfl, by decide, free_mem.1, free_mem.2, by decide, rfl, ?_, ?_⟩
  · intro l hl
    simp only [accessLanes, if_true, List.mem_singleton] at hl
    subst hl
    exact ⟨rfl, by decide, by decide⟩
  · intro k hk
    interval_cases k <;> exact ⟨_, rfl⟩

theorem witness_FencesQueue : (∀ i ∈ [Instr.fence plain .rel .fab, .fence plain .acq .blk, .afence plain .dev, .commit plain],
    Issues (one gMem) i plain gMem pMem false) ∧ guardOf gMem pMem plain ≠ 0 ∧ Unfenced gMem pMem ∧
    (one gMem).restartable gMem.block = false := ⟨issues_all rfl _ rfl, by decide, free_mem.1, rfl⟩

theorem witness_ObjectInstructionsQueue :
    (∀ i ∈ [Instr.binit plain .own .blk 2 (.imm 4095), .barr plain .own .pch 3 (.imm 15), .bexp plain .own .blk 3 (.imm 0xFFFFFF),
      .binv plain .own .blk 3, .rinit plain .own .blk 2 5, .rpub plain .own .blk 3, .rrel plain .own .blk 3],
      Issues (onPan gStore) i plain gStore pMem false) ∧
    (∀ i ∈ [Instr.bwait fp .own .blk (.lane 2) 3 6 1000, .btry fp .own .blk (.uni 2) 3 6, .rres fp .own .blk 7 3, .rwait fp .own .blk 7 3],
      Issues (onPan gStore) i fp gStore pMem false) ∧
    guardOf gStore pMem plain ≠ 0 ∧ Unfenced gStore pMem ∧ NoInit gStore ∧
    ObjectAt (onPan gStore) gStore .own 2 false { ep := 0, off := 288 } ∧ ObjectAt (onPan gStore) gStore .own 3 true { ep := 0, off := 272 } ∧
    upTo 4095 (.imm 4095) (onPan gStore) gStore ∧ upTo 15 (.uni 6) (onPan gStore) gStore ∧ ringOk 5 (onPan gStore) gStore ∧
    (onPan gStore).restartable gStore.block = false := by
  refine ⟨issues_pan rfl _ rfl, issues_pan rfl _ rfl, by decide, free_mem.1, free_mem.2, ?_, ?_, ?_, ?_, ?_, rfl⟩
  · refine ⟨rfl, rfl, rfl, rfl, by decide, by simp⟩
  · refine ⟨rfl, rfl, rfl, rfl, by decide, fun _ => rfl⟩
  · exact ⟨by decide, by decide⟩
  · exact ⟨by decide, by decide⟩
  · exact ⟨rfl, rfl, by decide⟩

theorem witness_ChannelWorkLaunchQueue :
    (∀ i ∈ [Instr.send plain true 4 3, .wpush plain 4], Issues (onPan gStore) i plain gStore pMem false) ∧
    (∀ i ∈ [Instr.recv fp true 4 3, .wpull fp false 4 0, .wpull fp true 4 3, .launch fp true (.lane 2) 4],
      Issues (onPan gStore) i fp gStore pMem false) ∧
    (onPan gStore).chanLen gStore.launch 3 + (onPan gStore).sendsPending gStore.launch 3 < ((onPan gStore).hdrOf gStore).chans.getD 3 0 ∧
    0 < ((onPan gStore).hdrOf gStore).chans.getD 3 0 ∧ (onPan gStore).pushHeld gStore = false ∧ (gStore.uni 4).toNat % 64 = 0 ∧
    (∀ k, k < 640 → ∃ pa, (onPan gStore).trGroup gStore .read ((gStore.uni 4).toNat + k) = .ok pa) := by
  refine ⟨issues_pan rfl _ rfl, issues_pan rfl _ rfl, by decide, by decide, rfl, rfl, ?_⟩
  intro k hk
  exact ⟨_, tr_sys rfl (show 0x1000 + k < 2 ^ 39 by omega)⟩

/-- A restartable block whose store of the byte 5 to address 0x1000 is still in its buffer. -/
def restartableState (g : Group) : State :=
  { one g with
    blocks := [{ id := 1, launch := 1, patch := 1, ep := 0, part := 0, tenant := 0, stg := 0, restartable := true, alive := 2 }]
    sb := [{ id := 9, blk := 1, ep := 0, who := { gid := 1, blk := 1 }, bytes := [{ pa := 0x1000, loc := 0x1000, old := 0, new := 5 }], committed := false }] }

theorem witness_CommitMakesStores : ∃ (s : State) (b : Block) (e : SbEntry) (y : WByte), s.block? 1 = some b ∧ s.memOk ∧ (s.sb.map fun e => e.id).Nodup ∧
    (s.sb.filter fun e => e.blk == 1) = [] ++ e :: [] ∧ e.bytes = [] ++ y :: [] ∧ y.all = false :=
  ⟨restartableState gMem, _, _, _, rfl, rfl, by decide, rfl, rfl, rfl⟩

/-- A group with one operation in its queue and the record of its instruction. -/
def waiting (x : MemOp) (dst : ResDst) : Group :=
  { gMem with iq := [x], outst := [{ instr := x.instr, flag := some 0, dst := dst, pend := 1 }], flags := [(0, 1)] }

theorem passes_waiting {s : State} {x : MemOp} {dst : ResDst} (h : s.group? 1 = some (waiting x dst)) : Passes s 1 (waiting x dst) x := by
  refine ⟨h, ?_, rfl, rfl, ?_⟩
  · simp [waiting, findKey]
  · intro y hy
    simp [earlier, waiting] at hy

theorem may_waiting {x : MemOp} {dst : ResDst} : MayPerform (one (waiting x dst)) 1 (waiting x dst) x :=
  ⟨passes_waiting rfl, fun _ => rfl⟩

/-- One byte, or four, at address 0x1000. -/
def opAt (n : Nat) (k : MKind) : MemOp :=
  { id := 5, instr := 4, lane := 0, thr := 0, hist := [], pas := range 0x1000 n, locs := range 0x1000 n, kind := k }

/-- An atomic without a result that is to commit its block first. -/
def opRed : MemOp := { opAt 4 (.atom .n32 .add false 1 0 false) with com := true }

theorem witness_SideEffectCommitsFirst :
    (let s := restartableState (waiting opRed .none)
     Passes s 1 (waiting opRed .none) opRed ∧ s.restartable 1 = true ∧ earlier opRed (waiting opRed .none).iq = [] ∧
       (s.part 0).lockstep = false ∧ memTy .n32 = true ∧ s.uncorr = [] ∧ s.memOk ∧ (s.sb.map fun e => e.id).Nodup ∧
       (1 : Word64).toNat < 2 ^ (8 * tyBytes .n32) ∧ opRed.pas.Nodup ∧ opRed.pas.length = tyBytes .n32) ∧
    (let s := { restartableState (waiting opRed .none) with parts := [(0, { exists_ := true, quads := [0], lockstep := true })] }
     Passes s 1 (waiting opRed .none) opRed ∧ s.restartable 1 = true ∧ (s.part 0).lockstep = true ∧ s.sigs = []) ∧
    (let x := { opRed with hist := [8] }
     let y := { opAt 1 (.load 1 false) with id := 6, instr := 3, thr := 8, locs := [0x2000] }
     let g := { gMem with iq := [y, x] }
     Passes (restartableState g) 1 g x ∧ (restartableState g).restartable 1 = true ∧ earlier x g.iq ≠ []) := by
  refine ⟨⟨passes_waiting rfl, rfl, by decide, rfl, rfl, rfl, rfl, by decide, by decide, by decide, rfl⟩,
    ⟨passes_waiting rfl, rfl, rfl, rfl⟩, ⟨rfl, by decide, rfl, rfl, by decide⟩, rfl, by decide⟩

theorem witness_MarkRecordsPoint : ∃ (g g' g'' : Group) (p : Path),
    Issues (one g) (.mark plain 0 0 0 0 5) plain g p false ∧ guardOf g p plain ≠ 0 ∧ g.path? true = none ∧ g.stack = [] ∧ g.recs = [] ∧
    (∀ k, k < 12 → g.flag k = 0) ∧ mwf (0 : Word32) g.v = true ∧ mwf (0 : Word64) g.s = true ∧
    (Issues (one g') (.mark plain 3 8 2 10 5) plain g' p false ∧ (g'.path? true).isSome = true) ∧
    (Issues (one g'') (.mark plain 3 8 2 10 5) plain g'' p false ∧ ∃ k, k < 12 ∧ g''.flag k ≠ 0) := by
  let p : Path := { pth 1 with pc := 15 }
  refine ⟨{ gMem with p0 := some p }, { gMem with p0 := some p, p1 := some (pth 2) }, { gMem with p0 := some p, flags := [(0, 1)] }, p,
    ⟨rfl, rfl, rfl, rfl, rfl⟩, by decide, rfl, rfl, rfl, fun k _ => ?_, rfl, rfl, ⟨⟨rfl, rfl, rfl, rfl, rfl⟩, rfl⟩,
    ⟨⟨rfl, rfl, rfl, rfl, rfl⟩, 0, by decide, by decide⟩⟩
  rfl

/-- A group with a join record of the lanes 0 and 1, of which some have arrived. -/
def exiting (exp arr : Lanes) (p1 : Option Path) : Group :=
  { gMem with p1 := p1, recs := [{ id := 7, pt := 16, exp := exp, arr := arr, out := none, hd := hd }] }

theorem witness_ExitEndsLanes :
    (∀ g ∈ [{ gMem with p1 := some (pth 2) }, { gMem with stack := [pth 4, pth 8] }, exiting 3 0 none, exiting 1 0 (some (pth 4)),
        exiting 3 2 none, exiting 3 2 (some (pth 4))],
      Issues (onPan g) (.exit plain) plain g pMem false ∧ guardOf g pMem plain ≠ 0 ∧ g.allClear = true) ∧
    (∀ k, k < 12 → gMem.flag k = 0) ∧
    (let r := lessened pMem { id := 7, pt := 16, exp := 3, arr := 0, out := none, hd := hd }; r.exp &&& ~~~(0 : Lanes) ≠ 0) ∧
    (let r := lessened pMem { id := 7, pt := 16, exp := 1, arr := 0, out := none, hd := hd }; r.exp = 0) ∧
    (let r := lessened pMem { id := 7, pt := 16, exp := 3, arr := 2, out := none, hd := hd }; r.exp &&& ~~~(2 : Lanes) = 0) ∧
    (∃ b, Issues (onPan gMem) (.exit plain) plain gMem pMem false ∧ gMem.recs = [] ∧ gMem.path? true = none ∧ gMem.stack = [] ∧ gMem.busy = false ∧
      gMem.scroll.sts < 3 ∧ (onPan gMem).block? gMem.block = some b ∧ 1 < b.alive ∧ ∀ x ∈ (onPan gMem).blocks, x.alive ≠ 0) ∧
    (∀ rs ∈ [true, false], ∃ b, let s := { restartableState gMem with blocks := [{ b with restartable := rs }] }
      Issues s (.exit plain) plain gMem pMem false ∧ s.block? gMem.block = some { b with restartable := rs } ∧ b.alive = 1 ∧
        (s.part gMem.part).lockstep = false ∧ (s.blocks.map fun x => x.id).Nodup ∧ s.cmds.any (holdsStore b) = false) ∧
    (let c : Cmd := { id := 5, kind := .entry 9 0 0, gid := 1, who := { gid := 1, blk := 1 }, launch := 1, block := 1, part := 0, tenant := 0, ep := 0, eng := 0, inst := 0, seq := 1 }
     let b : Block := { id := 1, launch := 1, patch := 1, ep := 0, part := 0, tenant := 0, stg := 0, restartable := true, alive := 1 }
     let s := { restartableState gMem with blocks := [b], cmds := [c] }
     Issues s (.exit plain) plain gMem pMem false ∧ s.block? gMem.block = some b ∧ s.cmds.any (holdsStore b) = true) ∧
    (let g := { gMem with iq := [opAt 1 (.load 1 false)] }
     Issues (onPan g) (.exit plain) plain g pMem false ∧ g.busy = true) ∧
    (∃ k, k < 12 ∧ ({ gMem with flags := [(3, 1)] } : Group).flag k ≠ 0) := by
  refine ⟨?_, fun k _ => rfl, by decide, by decide, by decide, ⟨_, ⟨rfl, rfl, rfl, rfl, rfl⟩, rfl, rfl, rfl, rfl, by decide, rfl, by decide, by simp [onPan]⟩,
    ?_, ⟨⟨rfl, rfl, rfl, rfl, rfl⟩, rfl, rfl⟩, ⟨⟨rfl, rfl, rfl, rfl, rfl⟩, rfl⟩, 3, by decide, by decide⟩
  · intro g hg
    simp only [List.mem_cons, List.not_mem_nil, or_false] at hg
    rcases hg with rfl | rfl | rfl | rfl | rfl | rfl <;> exact ⟨⟨rfl, rfl, rfl, rfl, rfl⟩, by decide, rfl⟩
  · intro rs hr
    refine ⟨{ id := 1, launch := 1, patch := 1, ep := 0, part := 0, tenant := 0, stg := 0, restartable := true, alive := 1 },
      ⟨rfl, rfl, rfl, rfl, rfl⟩, rfl, rfl, rfl, by simp, rfl⟩

/-- A state whose partition is in lockstep, and an operation on host memory that has asked for its data. -/
def opHost (due : Nat) : MemOp := { opAt 4 (.load 4 true) with pas := range (2 ^ 54) 4, due := due }
def paired (g : Group) (clk : Nat) : State := { one g with parts := [(0, { exists_ := true, quads := [0], lockstep := true })], clock := clk }

theorem witness_LoadPerforms : (∀ n ∈ [1, 2, 4, 8], MayPerform (one (waiting (opAt n (.load n true)) (.lane 2 (n == 8)))) 1
    (waiting (opAt n (.load n true)) (.lane 2 (n == 8))) (opAt n (.load n true)) ∧ (opAt n (.load n true)).pas.length = n ∧
    (opAt n (.load n true)).locs.length = n ∧ (one gMem).uncorr = [] ∧
    (one gMem).offPackage 0 (opAt n (.load n true)).pas = false) ∧
    (∀ x ∈ [opHost 0, opHost 9000], MayPerform (paired (waiting x (.lane 2 false)) 5) 1 (waiting x (.lane 2 false)) x ∧
      (paired (waiting x (.lane 2 false)) 5).offPackage 0 x.pas = true ∧ (x.due = 0 ∨ 5 < x.due)) ∧
    (let x := opHost 9000
     MayPerform (paired (waiting x (.lane 2 false)) 9001) 1 (waiting x (.lane 2 false)) x ∧ x.due ≠ 0 ∧ x.due ≤ 9001) ∧
    ({ one gMem with uncorr := [(0x1000 / 32, true)] } : State).poisoned 0x1000 = true := by
  refine ⟨?_, ?_, ⟨⟨passes_waiting rfl, fun _ => rfl⟩, by decide, by decide⟩, rfl⟩
  · intro n hn
    simp only [List.mem_cons, List.not_mem_nil, or_false] at hn
    rcases hn with rfl | rfl | rfl | rfl <;> exact ⟨may_waiting, rfl, rfl, rfl, rfl⟩
  · intro x hx
    simp only [List.mem_cons, List.not_mem_nil, or_false] at hx
    rcases hx with rfl | rfl <;> exact ⟨⟨passes_waiting rfl, fun _ => rfl⟩, by decide, by decide⟩

theorem witness_LoadReturnsAllowedWrite :
    (∃ s : State, (s.sbHit 1 0x1000 0x1000) = some (9, 5) ∧ s.loadByte { gid := 1, blk := 1 } [] 0 0x1000 0x1000 = (9, 5)) ∧
    (let w : Write := { id := 3, who := { gid := 2, blk := 2 }, lvl := .dev, home := .dev, bytes := [{ pa := 0x1000, loc := 0x1000, old := 0, new := 7 }] }
     let s : State := { one gMem with co := [w] }
     s.sbHit 1 0x1000 0x1000 = none ∧ keyHits 0x1000 0x1000 0x1000 = true ∧ s.floorAt [(0x1000, 3)] 0x1000 0x1000 = 3 ∧ w.hits 0x1000 0x1000 = true ∧
       ∀ cut, ∃ r, s.loadByte { gid := 1, blk := 1 } [(0x1000, 3)] cut 0x1000 0x1000 = r) := by
  exact ⟨⟨restartableState gMem, rfl, rfl⟩, rfl, by decide, by decide +kernel, rfl, fun _ => ⟨_, rfl⟩⟩

theorem witness_StoreEntersBuffer : MayPerform (one (waiting (opAt 2 (.store [1, 2])) .none)) 1 (waiting (opAt 2 (.store [1, 2])) .none)
    (opAt 2 (.store [1, 2])) ∧
    sectorCount ((one gMem).sb.filter fun e => e.ep == gMem.ep && !e.ovf) +
      (((opAt 2 (.store [1, 2])).pas.take 2).take (opAt 2 (.store [1, 2])).locs.length).length ≤ 2048 ∧
    ovfFits (one (waiting (opAt 2 (.store [1, 2])) .none)) gMem.block (one gMem).sb = true ∧ (∀ a ∈ (opAt 2 (.store [1, 2])).pas, a < 2 ^ 64) :=
  ⟨may_waiting, by decide, rfl, by decide⟩

theorem witness_AtomicPerforms : MayPerform (one (waiting (opAt 4 (.atom .n32 .add false 1 0 true)) (.lane 2 false))) 1
    (waiting (opAt 4 (.atom .n32 .add false 1 0 true)) (.lane 2 false)) (opAt 4 (.atom .n32 .add false 1 0 true)) ∧
    (∀ e ∈ (one gMem).sb, e.blk ≠ gMem.block) ∧ (one gMem).memOk ∧ (opAt 4 (.atom .n32 .add false 1 0 true)).pas.Nodup ∧
    (one gMem).offPackage 0 (opAt 4 (.atom .n32 .add false 1 0 true)).pas = false ∧
    (1 : Word64).toNat < 2 ^ (8 * tyBytes .n32) := ⟨may_waiting, fun _ h => absurd h List.not_mem_nil, rfl, by decide, rfl, by decide⟩

/-- Two bytes at offset 288 of position 0's store. -/
def opLs (k : MKind) : MemOp :=
  { id := 5, instr := 4, lane := 0, thr := 0, hist := [], locs := [2 ^ 63 + 288, 2 ^ 63 + 289], kind := k }

theorem witness_LocalAccessPerforms :
    (MayPerform (one (waiting (opLs (.lds 2 true)) (.lane 2 false))) 1 (waiting (opLs (.lds 2 true)) (.lane 2 false)) (opLs (.lds 2 true)) ∧
      (opLs (.lds 2 true)).locs.length = 2) ∧
    (MayPerform (one (waiting (opLs (.sts [1, 2])) .none)) 1 (waiting (opLs (.sts [1, 2])) .none) (opLs (.sts [1, 2])) ∧
      (opLs (.sts [1, 2])).locs.Nodup ∧ (∀ l ∈ (opLs (.sts [1, 2])).locs, 2 ^ 63 ≤ l) ∧ (one gMem).storeOk) :=
  ⟨⟨may_waiting, rfl⟩, may_waiting, by decide, by decide, rfl⟩

theorem witness_DrainAndRaise : ∃ (s : State) (e : SbEntry), s.sb.find? (fun x => x.id == 9) = some e ∧ e.committed = true ∧
    (∀ x ∈ s.sb.takeWhile (fun x => x.id != 9), x.blk = e.blk → ∀ b ∈ x.bytes, ∀ d ∈ e.bytes, b.loc ≠ d.loc) ∧
    (s.part e.who.part).lockstep = false ∧ s.memOk ∧ (e.bytes.map fun b => b.pa).Nodup := by
  refine ⟨{ restartableState gMem with sb := (restartableState gMem).sb.map fun e => { e with committed := true } }, _, rfl, rfl, ?_, rfl, rfl, by decide⟩
  intro x hx
  simp [restartableState, one] at hx

theorem witness_VariableLatencyResults :
    (let o : Outst := { instr := 4, flag := some 0, dst := .lane 2 false, pend := 3, ready := 1, vals := [(0, 9)] }
     let g : Group := { gMem with outst := [o] }
     (one g).group? 1 = some g ∧ g.trap = none ∧ findKey (fun o => o.instr) 4 g.outst = some o ∧ o.qn = none ∧ o.twin = none ∧
       o.pend &&& o.ready &&& 1 ≠ 0) ∧
    (let o : Outst := { instr := 4, flag := none, dst := .uni 63, pend := 1, ready := 1, vals := [(0, 9)] }
     let g : Group := { gMem with outst := [o] }
     (one g).group? 1 = some g ∧ g.trap = none ∧ findKey (fun o => o.instr) 4 g.outst = some o ∧ o.qn = none ∧ o.twin = none ∧ o.pend = 1 ∧
       o.ready.getLsbD 0 = true ∧ (1 : Lanes).getLsbD 0 = true) :=
  ⟨⟨rfl, rfl, rfl, rfl, rfl, by decide⟩, rfl, rfl, rfl, rfl, rfl, rfl, rfl, rfl⟩


/-! The engines' instructions: one group with rectangles and descriptors of each kind, on a partition of quadrant 0. -/

/-- A basic rectangle of one position. -/
def rectN (off len fmt : Nat) : Nat := off * 2 ^ 24 + len * 2 ^ 43 + fmt * 2 ^ 64

/-- A register pair. -/
def inPair (n x : Nat) : List (Nat × Word64) := [(n, BitVec.ofNat 64 x), (n + 1, BitVec.ofNat 64 (x / 2 ^ 64))]

/-- Bytes of numbers, each at its address. -/
def filled (l : List (Nat × Nat × Nat)) : Map Byte :=
  l.foldl (fun m x => (List.range x.2.1).foldl (fun m k => mset 0 m (x.1 + k) (BitVec.ofNat 8 (x.2.2 / 256 ^ k))) m) []

/-- A copy of four elements of BF16 in one dimension. -/
def copyN (src dst more aux : Nat) : Nat :=
  src + dst * 2 ^ 64 + 1 * 2 ^ 128 + 10 * 2 ^ 131 + more + aux * 2 ^ 192 + (4 + 4 * 2 ^ 64 + 4 * 2 ^ 128) * 2 ^ 256

/-- Descriptors, each at its offset of the group's range, which starts at 256. -/
def dScroll : Nat × Nat × Nat := (256 + 1024, 32, rectN 0 64 8 + 2 ^ 130 + 2 * 2 ^ 158 + 1 * 2 ^ 143)
def dCpy : Nat × Nat × Nat := (256 + 1280, 256, copyN 0x1000 64 (2 ^ 136 + 2 ^ 143 + 2 ^ 150) 0)
def dCpym : Nat × Nat × Nat := (256 + 1792, 256, copyN 0x1000 64 (2 ^ 136 + 2 ^ 143 + 2 ^ 150) (2 ^ 48 + 2 ^ 16 + 1))
def dCpyg : Nat × Nat × Nat := (256 + 2048, 256, copyN 0x1000 64 (2 ^ 136 + 2 ^ 143 + 2 ^ 150 + 2 ^ 165) 0x4000)
def dCpyn : Nat × Nat × Nat := (256 + 2304, 256, copyN 0x1000 0 0 0)
def dWload : Nat × Nat × Nat := (256 + 1536, 32, 31 * 2 ^ 18 + 1023 * 2 ^ 28 + 32768 * 2 ^ 96)
def dDelta : Nat × Nat × Nat :=
  (256 + 1600, 64, 1 * 2 ^ 34 + 1 * 2 ^ 42 + 0x3F800000 * 2 ^ 96 + rectN 0 4 10 * 2 ^ 128 + rectN 0 8 8 * 2 ^ 256)
def dDeltaCk : Nat × Nat × Nat := (256 + 1664, 64, dDelta.2.2 + rectN 0 4 8 * 2 ^ 384)
def dAtile : Nat × Nat × Nat := (256 + 1728, 64, 1 * 2 ^ 17 + rectN 0 256 10 * 2 ^ 128 + rectN 256 520 8 * 2 ^ 256 + 1 * 2 ^ 417)

/-- The registers that name them; s2 to s3 and s16 to s25 are rectangles. -/
def gEng : Group := grp 1 [] (inPair 2 (rectN 0 512 10) ++ [(4, 2 ^ 63 + 1024), (5, 64), (8, 2 ^ 63 + 1280), (9, 2 ^ 63 + 1792),
  (10, 2 ^ 63 + 1536), (11, 2 ^ 63 + 2048), (12, 2 ^ 63 + 1600), (13, 2 ^ 63 + 1664), (14, 2 ^ 63 + 1728), (15, 0x5000)] ++
  inPair 16 (rectN 0 32 8) ++ inPair 20 (rectN 0 256 10) ++ inPair 22 (rectN 512 16 8) ++ inPair 24 (rectN 0 520 8) ++
  [(26, 2 ^ 63 + 2304), (27, 0x4000), (28, 0x4020), (29, 3), (30, 2 ^ 63), (31, 2 ^ 63 + 2 ^ 19), (32, 2 ^ 56), (33, 2 ^ 63 + 4080)])

/-- The state: chain entries at 0x4000 and 0x4020, an entry of the cache at 0x5000, a send queue's descriptor at 0x3000. -/
def sEng (d : List (Nat × Nat × Nat)) : State :=
  { onPan gEng with
    lstore := filled ((256 + 16, 1, 8) :: d)
    parts := [(0, { exists_ := true, quads := [0], stgbase := 0x10000, tenants := [(0, { wwn := 1, sqbase := 0x3000 })] })]
    mem := filled [(0x3000 + 21, 1, 0x10), (0x4000, 3, 0x4020), (0x5000, 16, 2 ^ 25 + 2 ^ 38 + 0x6000 * 2 ^ 64),
      (0x5040, 16, 0x20000 + 4 * 2 ^ 64 + 1 * 2 ^ 96), (0x6000, 1, 0b10)] }

theorem issues_eng (l : List Instr) (hl : l.all (fun i => causes (ctxOf gEng (pth 1)) i == []) = true) {c : Ctl} {d : List (Nat × Nat × Nat)}
    (hf : gEng.flagFull (flagOf (pth 1) c) = false) : ∀ i ∈ l, Issues (sEng d) i c gEng (pth 1) false := fun i hi =>
  ⟨rfl, rfl, rfl, eq_of_beq (List.all_eq_true.mp hl i hi), hf⟩

theorem free_eng : Free gEng (pth 1) plain ∧ guardOf gEng (pth 1) plain ≠ 0 ∧ Unfenced gEng (pth 1) ∧ NoInit gEng :=
  ⟨⟨by decide, fun _ h => absurd h List.not_mem_nil⟩, by decide, free_mem.1, free_mem.2⟩

/-- Pages that are all there. -/
theorem trRange_flat {f : Nat → TRes} : ∀ {n va : Nat}, (∀ a, va ≤ a → a < va + n → f a = .ok a) → trRange f va n = .ok (range va n)
  | 0, _, _ => rfl
  | n + 1, va, h => by
    have ih := trRange_flat (n := n) (va := va + 1) fun a h1 h2 => h a (by omega) (by omega)
    simp only [trRange, h va (by omega) (by omega), ih, range]

theorem run_length (a n : Nat) : (range a n).length = n := by
  induction n generalizing a with
  | zero => rfl
  | succ n ih => simp [range, ih]

/-- An operand that is there, of a partition that is not in lockstep and without marked sectors, with what its bytes satisfy. -/
theorem read_sys {s : State} {g : Group} {va n : Nat} {P : List Byte → Bool} (hs : g.sys = true) (hn : va + n ≤ 2 ^ 39) (hc : s.co = [])
    (hb : s.sb = []) (hl : (s.part g.part).lockstep = false) (hu : s.uncorr = []) (hP : P ((range va n).map s.byte) = true) :
    ∃ bs f at_, Read s g (readVirt s g va n) bs f at_ ∧ P bs = true := by
  have h1 : trRange (s.trGroup g .read) va n = .ok (range va n) := trRange_flat fun a _ h => tr_sys hs (by omega)
  refine ⟨(range va n).map s.byte, (loadBytes s (s.who g) (s.openCut va) (range va n) ((range va n).zipWith g.loc (range va n)) g.floors).2.1,
    (range va n).zip (range va n), ⟨?_, by simp [State.offPackage, hl], ?_⟩, hP⟩
  · simp only [readVirt, h1]
    rw [← loadBytes_quiet (a := s.who g) (cut := s.openCut va) hc hb (locs := (range va n).zipWith g.loc (range va n)) (f := g.floors)
      (by simp)]
  · intro x _
    simp [State.poisoned, hu, mget]

theorem read_store {s : State} {g : Group} {d : Desc} {P : List Byte → Bool}
    (h : (match d with | .bytes bs _ at_ => at_ == [] && P bs | _ => false) = true) : ∃ bs f, Read s g d bs f [] ∧ P bs = true := by
  cases d with
  | bytes bs f at_ =>
    simp only [Bool.and_eq_true, beq_iff_eq] at h
    obtain ⟨rfl, h⟩ := h
    exact ⟨bs, f, ⟨rfl, by simp [State.offPackage], by simp⟩, h⟩
  | fault => cases h
  | miss => cases h

theorem witness_DescriptorOperands :
    (let v := (gEng.uni 8).toNat
     v % 64 = 0 ∧ v.testBit 63 = true ∧ field v 19 44 = 0 ∧ field v 0 19 + 256 ≤ ((sEng []).rangeOf gEng.launch).2) ∧
    (let v := (gEng.uni 31).toNat
     v % 64 = 0 ∧ v.testBit 63 = true ∧ field v 19 44 ≠ 0) ∧
    (let v := ((grp 1 [] [(31, 2 ^ 63 + 2 ^ 19 + 1)]).uni 31).toNat
     v % 64 ≠ 0 ∧ v.testBit 63 = true ∧ field v 19 44 ≠ 0) ∧
    (let v := (gEng.uni 33).toNat
     v % 16 = 0 ∧ v.testBit 63 = true ∧ field v 19 44 = 0 ∧ ((sEng []).rangeOf gEng.launch).2 < field v 0 19 + 32 ∧
       ((sEng []).rangeOf gEng.launch).2 = field v 0 19 + 16) ∧
    (2 ^ 56 ≤ (gEng.uni 32).toNat ∧ (gEng.uni 32).toNat % 64 = 0 ∧ (gEng.uni 32).toNat.testBit 63 = false) ∧ (gEng.uni 28).toNat % 64 ≠ 0 ∧
    ((gEng.uni 15).toNat < 2 ^ 56 ∧ (gEng.uni 15).toNat % 64 = 0 ∧ (gEng.uni 15).toNat.testBit 63 = false ∧
      ∀ k, k < 256 → ∃ pa, (sEng []).trGroup gEng .read ((gEng.uni 15).toNat + k) = .ok pa) ∧
    (let g := grp 1 [] [(1, 2 ^ 40)]
     (g.uni 1).toNat < 2 ^ 56 ∧ (g.uni 1).toNat % 64 = 0 ∧ (one g).trGroup g .read ((g.uni 1).toNat + 0) = .viol) ∧
    (let g := { grp 1 [] [(1, 0x5000)] with sys := false }
     (one g).trGroup g .read ((g.uni 1).toNat + 0) = .miss false) ∧
    (let s : State := { one gMem with parts := [(0, { exists_ := true, quads := [0], lockstep := true })], clock := 9 }
     s.offPackage 0 [2 ^ 54] = true ∧ gMem.due = 0 ∧ ({ gMem with due := 8201 } : Group).due > s.clock ∧ s.offPackage 0 [0x1000] = false ∧
       ({ s with uncorr := [(0x1000 / 32, true)] } : State).poisoned 0x1000 = true) ∧
    (∃ bs f at_, Read (sEng []) gEng (readVirt (sEng []) gEng 0x5000 320) bs f at_) := by
  refine ⟨by decide +kernel, by decide +kernel, by decide +kernel, by decide +kernel, by decide +kernel, by decide +kernel,
    ⟨by decide +kernel, by decide +kernel, by decide +kernel, fun k hk => ?_⟩, by decide +kernel, by decide +kernel, by decide +kernel, ?_⟩
  · have h : (gEng.uni 15).toNat = 0x5000 := by decide +kernel
    exact ⟨_, tr_sys rfl (by omega)⟩
  · obtain ⟨bs, f, at_, h, -⟩ := read_sys (s := sEng []) (g := gEng) (va := 0x5000) (n := 320) (P := fun _ => true) rfl (by decide) rfl rfl rfl rfl rfl
    exact ⟨bs, f, at_, h⟩

/-- An extended scroll descriptor with a ring passes its checks. -/
def scrollGood (bs : List Byte) : Bool :=
  let x := leNat bs
  let d : ScrollD := { r := rectAt (x % 2 ^ 128), spb := field x 192 64, spl := field x 160 32, ex := x.testBit 131, ey := x.testBit 132,
                       ro := x.testBit 130, dx := -63, dy := 31, staged := false }
  decide (scrollCheck (sEng [dScroll]) 0 1 0 d (field x 158 2) (field x 143 15) (parseScroll x (-63) 31).2.2.2 =
    .ok (.ring { ep := 0, off := 272 }))

theorem witness_ScrollAcceptance :
    (∀ i ∈ [Instr.scroll plain 16 1 (-1), .scrollX plain 4 (-63) 31, .scrq plain 9, .scrres plain],
      Issues (sEng [dScroll]) i plain gEng (pth 1) false) ∧
    Free gEng (pth 1) plain ∧ gEng.scroll.sts = 0 ∧
    (let r := rectAt (pairNat gEng 16)
     scrollCheck (sEng []) 0 1 0 { r := r, dx := 1, dy := -1, staged := false } (if r.cbv then 1 else 0) r.cbo r.rsv = .ok .none) ∧
    (let r := rectAt (pairNat gEng 32)
     scrollCheck (sEng []) 0 1 0 { r := r, dx := 1, dy := -1, staged := false } (if r.cbv then 1 else 0) r.cbo r.rsv = .error 0x31) ∧
    (∃ bs f, Read (sEng [dScroll]) gEng (readDesc (sEng [dScroll]) gEng 4 32 32) bs f [] ∧ scrollGood bs = true) ∧
    (∀ n ∈ [1, 2, 3, 4, 5], ∀ i ∈ [Instr.scroll plain 16 1 (-1), .scrollX plain 4 (-63) 31, .scrres plain],
      let g := { gEng with scroll := { sts := n } }
      Issues (onPan g) i plain g (pth 1) false ∧ Free g (pth 1) plain) := by
  refine ⟨issues_eng _ rfl rfl, free_eng.1, rfl, by decide +kernel, by decide +kernel, read_store (by decide +kernel), ?_⟩
  intro n _ i hi
  refine ⟨⟨rfl, rfl, rfl, ?_, rfl⟩, free_eng.1⟩
  simp only [List.mem_cons, List.not_mem_nil, or_false] at hi
  rcases hi with rfl | rfl | rfl <;> rfl

/-- A copy descriptor of an instruction passes its checks. -/
def copyGood (d : Nat × Nat × Nat) (op : Nat) (m : Option Nat) (bs : List Byte) : Bool :=
  listAt op (leNat bs) == none && (copySetup (sEng [d]) 0 0 1 0 op (leNat bs) true [] m).toOption.isSome

/-- A `CPYG` into a ring's slot. -/
def dCpygR : Nat × Nat × Nat := (256 + 2048, 256, copyN 0x1000 64 (2 ^ 136 + 2 ^ 144 + 2 ^ 150 + 2 ^ 165) 0x4000)

theorem witness_CopyCommandsAccepted :
    (∀ i ∈ [Instr.cpy plain 8 none, .cpy plain 8 (some 5), .cpym plain 9 none, .cpyg plain 11 (some 5), .cpyn plain 26 none],
      ∀ d, Issues (sEng d) i plain gEng (pth 1) false) ∧ Free gEng (pth 1) plain ∧
    (∃ bs f, Read (sEng [dCpy]) gEng (readDesc (sEng [dCpy]) gEng 8 256 64) bs f [] ∧ copyGood dCpy 0 none bs = true) ∧
    (∃ bs f, Read (sEng [dCpy]) gEng (readDesc (sEng [dCpy]) gEng 8 256 64) bs f [] ∧ copyGood dCpy 0 (some 16) bs = true) ∧
    (∃ bs f, Read (sEng [dCpym]) gEng (readDesc (sEng [dCpym]) gEng 9 256 64) bs f [] ∧ copyGood dCpym 1 none bs = true) ∧
    (∃ bs f, Read (sEng [dCpyg]) gEng (readDesc (sEng [dCpyg]) gEng 11 256 64) bs f [] ∧ copyGood dCpyg 2 none bs = true) ∧
    (∃ bs f, Read (sEng [dCpyn]) gEng (readDesc (sEng [dCpyn]) gEng 26 256 64) bs f [] ∧ copyGood dCpyn 3 none bs = true) ∧
    (∃ bs f, Read (sEng []) gEng (readDesc (sEng []) gEng 26 256 64) bs f [] ∧ (!copyGood dCpyn 3 none bs) = true) ∧
    (∃ bs f list f' at_, Read (sEng [dCpygR]) gEng (readDesc (sEng [dCpygR]) gEng 11 256 64) bs f [] ∧ listAt 2 (leNat bs) = some (0x4000, 16) ∧
      ListRead (sEng [dCpygR]) { gEng with floors := f } 2 (leNat bs) list f' at_) ∧
    (listAt 2 (copyN 0x1000 64 (2 ^ 136 + 2 ^ 144 + 2 ^ 150 + 2 ^ 165) (2 ^ 40)) = some (2 ^ 40, 16) ∧
      readVirt (sEng []) gEng (2 ^ 40) 16 = .fault 0x21 (2 ^ 40)) ∧
    (∃ c : Cmd, c.eng = 0 ∧ c.inst = 0 ∧ 32 ≤ ((List.replicate 32 c).filter fun x => x.eng == 0 && x.inst == gEng.ep).length) := by
  refine ⟨fun i hi d => issues_eng _ rfl rfl i hi, free_eng.1, read_store (by decide +kernel), read_store (by decide +kernel),
    read_store (by decide +kernel), read_store (by decide +kernel), read_store (by decide +kernel),
    read_store (P := fun bs => !copyGood dCpyn 3 none bs) (by decide +kernel), ?_, by decide +kernel,
    ⟨command (sEng []) gEng 0 0 (.scroll { r := rectAt 0, dx := 0, dy := 0, staged := false }) .none [], rfl, rfl, by decide +kernel⟩⟩
  obtain ⟨bs, f, h, hl⟩ := read_store (s := sEng [dCpygR]) (g := gEng) (d := readDesc (sEng [dCpygR]) gEng 11 256 64)
    (P := fun bs => decide (listAt 2 (leNat bs) = some (0x4000, 16))) (by decide +kernel)
  have hl := of_decide_eq_true hl
  obtain ⟨bs', f', at_, h', -⟩ := read_sys (s := sEng [dCpygR]) (g := { gEng with floors := f }) (va := 0x4000) (n := 16) (P := fun _ => true)
    rfl (by decide) rfl rfl rfl rfl rfl
  exact ⟨bs, f, _, f', at_, h, hl, .inr ⟨0x4000, 16, hl, .inr ⟨bs', h', List.length_map .., fun k hk => by
    rw [List.getElem?_map, List.getElem?_range hk]; rfl⟩⟩⟩

theorem witness_ChainsWalked :
    (∀ i ∈ [Instr.cpyc plain 27 0, .cpyc plain 28 3, .cpyc plain 29 0, .cpycRst plain 63 3, .cpyq plain 0 6 2, .cpyq plain 2 6 7],
      ∀ d, Issues (sEng d) i plain gEng (pth 1) false) ∧ Free gEng (pth 1) plain ∧ guardOf gEng (pth 1) plain ≠ 0 ∧
    ((sEng []).chain 1 0 3).walk = none ∧ ((sEng []).chain 1 0 3).halted = false ∧ ((sEng []).chain 1 0 3).lc = none ∧
    (gEng.uni 29).toNat % 32 ≠ 0 ∧ (gEng.uni 27).toNat % 32 = 0 ∧ (gEng.uni 27).toNat < 2 ^ 56 ∧
    (∃ bs f at_, Read (sEng []) gEng (readVirt (sEng []) gEng (gEng.uni 27).toNat 32) bs f at_ ∧
      (leNat bs % 2 ^ 64 == 0x4020 && 0x4020 % 32 == 0 && 0x4020 == (gEng.uni 28).toNat) = true ∧
      ∃ bs' f' at', Read (sEng []) { gEng with floors := f } (readVirt (sEng []) { gEng with floors := f } 0x4020 32) bs' f' at' ∧
        (leNat bs' % 2 ^ 64 == 0) = true) ∧
    (∃ bs f at_, Read (sEng []) gEng (readVirt (sEng []) gEng (gEng.uni 28).toNat 32) bs f at_ ∧ (leNat bs % 2 ^ 64 == 0) = true) ∧
    (∃ s : State, (s.chain 1 0 3).halted = true ∧ (s.chain 1 0 3).walk = none) ∧
    (∃ s : State, (s.chain 1 0 3).lc = some 0x4000 ∧ (s.chain 1 0 3).halted = false ∧ (s.chain 1 0 3).walk = none) ∧
    (¬ waitsRoom (sEng []) gEng 0x4020 ∧ waitsRoom { sEng [] with arrays := [(0, { queue := List.replicate 64 1 })] } gEng (0xC0 * 2 ^ 128)) ∧
    ((6 : BitVec 6) ≠ 63 ∧ ((sEng []).launch? gEng.launch).isSome = true) := by
  refine ⟨fun i hi d => issues_eng _ rfl rfl i hi, free_eng.1, free_eng.2.1, rfl, rfl, rfl, by decide +kernel, by decide +kernel, by decide +kernel,
    ?_, read_sys (P := fun bs => leNat bs % 2 ^ 64 == 0) rfl (by decide +kernel) rfl rfl rfl rfl (by decide +kernel),
    ⟨{ chains := [{ launch := 1, ep := 0, num := 3, halted := true }] }, rfl, rfl⟩,
    ⟨{ chains := [{ launch := 1, ep := 0, num := 3, lc := some 0x4000 }] }, rfl, rfl, rfl⟩,
    ⟨by simp only [waitsRoom]; decide +kernel, by simp only [waitsRoom]; decide +kernel⟩, by decide, rfl⟩
  obtain ⟨bs, f, at_, h, hp⟩ := read_sys (s := sEng []) (g := gEng) (va := (gEng.uni 27).toNat) (n := 32)
    (P := fun bs => leNat bs % 2 ^ 64 == 0x4020 && 0x4020 % 32 == 0 && 0x4020 == (gEng.uni 28).toNat) rfl (by decide +kernel) rfl rfl rfl rfl (by decide +kernel)
  exact ⟨bs, f, at_, h, hp, read_sys (P := fun bs => leNat bs % 2 ^ 64 == 0) rfl (by decide +kernel) rfl rfl rfl rfl (by decide +kernel)⟩

/-- Operand blocks of chain entries: a tile of products, a drain, a tile's descriptor and entry. -/
def dMma : Nat × Nat × Nat := (256 + 2560, 16, rectN 0 512 10)
def dDrain : Nat × Nat × Nat := (256 + 2576, 16, rectN 0 32 8)
def dTile : Nat × Nat × Nat := (256 + 2592, 16, 2 ^ 63 + 1728 + 0x5000 * 2 ^ 64)
def dNoTile : Nat × Nat × Nat := (256 + 2608, 16, 2 ^ 63 + 1792 + 0x5000 * 2 ^ 64)
def entryOf (op off opnd : Nat) : Nat := op * 2 ^ 128 + (2 ^ 63 + off) * 2 ^ 64 + opnd * 2 ^ 138
def chained (d : List (Nat × Nat × Nat)) (x : Nat) : State := entered (sEng d) gEng x (entryCmd (sEng d) gEng 3 0x4000 x)

/-- A block in the local store, with what its bytes satisfy. -/
theorem block_store {s : State} {c : Cmd} {a n al : Nat} {P : List Byte → Bool}
    (h : (match s.block c a n al with | .bytes bs c' at_ => at_ == [] && c' == c && P bs | _ => false) = true) :
    ∃ bs, BlockRead s c a n al bs c.floors ∧ P bs = true := by
  cases hb : s.block c a n al with
  | bytes bs c' at_ =>
    rw [hb] at h
    simp only [Bool.and_eq_true, beq_iff_eq] at h
    obtain ⟨⟨rfl, rfl⟩, h⟩ := h
    exact ⟨bs, ⟨[], hb, by simp [State.offPackage], by simp⟩, h⟩
  | miss => rw [hb] at h; cases h
  | bad => rw [hb] at h; cases h

/-- A weight-tile descriptor within the tenant's weight window. -/
def wloadGood (bs : List Byte) : Bool :=
  let x := leNat bs
  decide (field x 128 128 = 0 ∧ field x 92 4 = 0 ∧ field x 65 11 = 0 ∧ field x 0 18 = 0 ∧ (field x 18 10 + 1) % 32 = 0 ∧
    field x 18 10 + 1 ≤ (sEng []).depthAt 0 ∧ field x 28 12 + 1 ≤ (sEng []).widthAt 0 ∧ field x 40 24 % 32 = 0 ∧
    field x 40 24 + field x 96 32 ≤ min (((sEng []).tenant 0 0).wwn * 65536) (2 ^ 24) ∧ x.testBit 91 = false)

/-- What the checks of a chained `MMA` and `ADRAIN` of a rectangle find, and those of a tile. -/
def mmaChk (d : List (Nat × Nat × Nat)) (x : Nat) (bs : List Byte) : Option Nat :=
  rowsFault (chained d x) 0 1 (rectAt (leNat bs)) 10 ((sEng d).depthAt 0 * elemSize 10) 255
def drainChk (d : List (Nat × Nat × Nat)) (x : Nat) (bs : List Byte) : Option Nat :=
  accFault (chained d x) 0 1 0 (rectAt (leNat bs)) 8 false 255
def tileChk (d : List (Nat × Nat × Nat)) (x : Nat) (bs : List Byte) : Except Nat (CmdKind × Compl) :=
  atileKind (chained d x) 0 0 1 0 (leNat bs) 0x5000

theorem witness_EntriesAccepted :
    NewId (sEng []) ∧
    (∀ x ∈ [2 ^ 252 + 0xB0 * 2 ^ 128, 2 ^ 252 + 0xC0 * 2 ^ 128, 0xC2 * 2 ^ 128], x.testBit 136 = false ∧
      (field x 252 3 ≠ 0 ∨ field x 128 8 ∉ [0xB0, 0xB3, 0xB4, 0xB5, 0xB6, 0xC0, 0xC1, 0xC3, 0xC8])) ∧
    (∀ op off opnd, (op, off, opnd) ∈ [(0xC0, 1536, 10), (0xC1, 2560, 10 + 7 * 2 ^ 4 + 255 * 2 ^ 7),
        (0xC3, 2576, 3 + 255 * 2 ^ 6 + 7 * 2 ^ 14 + 2 ^ 25 + 64 * 2 ^ 26), (0xC8, 2592, 0)] →
      let x := entryOf op off opnd
      x.testBit 136 = false ∧ field x 252 3 = 0 ∧ field x 128 8 = op ∧ field x 138 54 = opnd ∧ field x 64 64 = 2 ^ 63 + off) ∧
    (let x := entryOf 0xC0 1536 10
     (∃ bs, BlockRead (chained [dWload] x) (entryCmd (sEng [dWload]) gEng 3 0x4000 x) (2 ^ 63 + 1536) 32 32 bs [] ∧ wloadGood bs = true) ∧
     (∃ bs, BlockRead (chained [dScroll] x) (entryCmd (sEng [dScroll]) gEng 3 0x4000 x) (2 ^ 63 + 1024) 32 32 bs [] ∧
       decide (field (leNat bs) 128 128 ≠ 0) = true)) ∧
    (let x := entryOf 0xC1 2560 (10 + 7 * 2 ^ 4 + 255 * 2 ^ 7)
     (∃ bs, BlockRead (chained [dMma] x) (entryCmd (sEng [dMma]) gEng 3 0x4000 x) (2 ^ 63 + 2560) 16 16 bs [] ∧
       decide (mmaChk [dMma] x bs = none) = true) ∧
     (∃ bs, BlockRead (chained [dDrain] x) (entryCmd (sEng [dDrain]) gEng 3 0x4000 x) (2 ^ 63 + 2576) 16 16 bs [] ∧
       decide (mmaChk [dDrain] x bs = some 0x33) = true)) ∧
    (let x := entryOf 0xC3 2576 (3 + 255 * 2 ^ 6 + 7 * 2 ^ 14 + 2 ^ 25 + 64 * 2 ^ 26)
     (∃ bs, BlockRead (chained [dDrain] x) (entryCmd (sEng [dDrain]) gEng 3 0x4000 x) (2 ^ 63 + 2576) 16 16 bs [] ∧
       decide (drainChk [dDrain] x bs = none ∧ 64 % 2 = 0 ∧ 64 + 2 * 8 ≤ ((chained [dDrain] x).rangeOf 1).2) = true) ∧
     (∃ bs, BlockRead (chained [dMma] x) (entryCmd (sEng [dMma]) gEng 3 0x4000 x) (2 ^ 63 + 2560) 16 16 bs [] ∧
       decide (drainChk [dMma] x bs = some 0x33) = true)) ∧
    (let x := entryOf 0xC8 2592 0
     let c := entryCmd (sEng [dTile, dAtile]) gEng 3 0x4000 x
     (∃ bs, BlockRead (chained [dTile, dAtile] x) c (2 ^ 63 + 2592) 16 16 bs [] ∧
       decide (field (leNat bs) 64 64 = 0x5000 ∧ field (leNat bs) 0 64 = 2 ^ 63 + 1728) = true) ∧
     (∃ bs, BlockRead (chained [dTile, dAtile] x) { c with floors := [] } (2 ^ 63 + 1728) 64 64 bs [] ∧
       (tileChk [dTile, dAtile] x bs).toOption.isSome = true)) ∧
    (let x := entryOf 0xC8 2608 0
     let c := entryCmd (sEng [dNoTile]) gEng 3 0x4000 x
     (∃ bs, BlockRead (chained [dNoTile] x) c (2 ^ 63 + 2608) 16 16 bs [] ∧ decide (field (leNat bs) 0 64 = 2 ^ 63 + 1792) = true) ∧
     (∃ bs, BlockRead (chained [dNoTile] x) { c with floors := [] } (2 ^ 63 + 1792) 64 64 bs [] ∧
       decide (tileChk [dNoTile] x bs = .error 0x36) = true)) ∧
    (∀ op opnd, (op, opnd) ∈ [(0xC0, 16), (0xC0, 8), (0xC1, 10 + 2 ^ 15), (0xC1, 8), (0xC3, 2 ^ 46), (0xC3, 2 ^ 45 + 2 ^ 14), (0xC8, 1)] →
      (op = 0xC0 ∧ (field opnd 4 50 ≠ 0 ∨ tyOf (BitVec.ofNat 4 opnd) ∉ [Ty.bf16, .e4m3, .e5m2, .i4, .i3])) ∨
        (op = 0xC1 ∧ (field opnd 15 39 ≠ 0 ∨ tyOf (BitVec.ofNat 4 opnd) ∉ [Ty.bf16, .e4m3, .e5m2])) ∨
        (op = 0xC3 ∧ (field opnd 46 8 ≠ 0 ∨ (opnd.testBit 45 = true ∧ field opnd 14 11 ≠ 0))) ∨ (op = 0xC8 ∧ opnd ≠ 0)) := by
  refine ⟨⟨fun _ h => absurd h List.not_mem_nil, fun _ h => absurd h List.not_mem_nil⟩, by decide +kernel, ?_,
    ⟨block_store (by decide +kernel), block_store (P := fun bs => decide (field (leNat bs) 128 128 ≠ 0)) (by decide +kernel)⟩,
    ⟨block_store (P := fun bs => decide (mmaChk [dMma] _ bs = none)) (by decide +kernel),
      block_store (P := fun bs => decide (mmaChk [dDrain] _ bs = some 0x33)) (by decide +kernel)⟩,
    ⟨block_store (P := fun bs => decide (drainChk [dDrain] _ bs = none ∧ 64 % 2 = 0 ∧ 64 + 2 * 8 ≤ ((chained [dDrain] _).rangeOf 1).2)) (by decide +kernel),
      block_store (P := fun bs => decide (drainChk [dMma] _ bs = some 0x33)) (by decide +kernel)⟩,
    ⟨block_store (P := fun bs => decide (field (leNat bs) 64 64 = 0x5000 ∧ field (leNat bs) 0 64 = 2 ^ 63 + 1728)) (by decide +kernel),
      block_store (P := fun bs => (tileChk [dTile, dAtile] _ bs).toOption.isSome) (by decide +kernel)⟩,
    ⟨block_store (P := fun bs => decide (field (leNat bs) 0 64 = 2 ^ 63 + 1792)) (by decide +kernel),
      block_store (P := fun bs => decide (tileChk [dNoTile] _ bs = .error 0x36)) (by decide +kernel)⟩, ?_⟩
  · intro op off opnd h
    simp only [List.mem_cons, Prod.mk.injEq, List.not_mem_nil, or_false] at h
    rcases h with ⟨rfl, rfl, rfl⟩ | ⟨rfl, rfl, rfl⟩ | ⟨rfl, rfl, rfl⟩ | ⟨rfl, rfl, rfl⟩ <;> decide +kernel
  · intro op opnd h
    simp only [List.mem_cons, Prod.mk.injEq, List.not_mem_nil, or_false] at h
    rcases h with ⟨rfl, rfl⟩ | ⟨rfl, rfl⟩ | ⟨rfl, rfl⟩ | ⟨rfl, rfl⟩ | ⟨rfl, rfl⟩ | ⟨rfl, rfl⟩ | ⟨rfl, rfl⟩ <;> decide +kernel

/-- A correcting descriptor passes its checks. -/
def deltaGood (ck scalar : Bool) (bs : List Byte) : Bool :=
  let x := leNat bs
  decide (deltaFault (sEng []) gEng ck scalar 7 x (rectAt (field x 128 128)) (rectAt (field x 256 128)) (rectAt (field x 384 128)) = none)

def atileGood (bs : List Byte) : Bool := (atileKind (sEng [dAtile]) 0 0 1 0 (leNat bs) 0x5000).toOption.isSome

theorem witness_ArrayCommandsAccepted :
    (∀ i ∈ [Instr.azero plain 7, .mma plain .bf16 7 2 255, .mma plain .bf16 7 16 255, .aload plain false 0 16 255 7 false,
      .aload plain true 0 16 0 0 true, .adrain plain true false false 3 16 (some 5) 255 7 false, .adrain plain false true false 3 16 none 0 7 false,
      .adrain plain false true false 3 2 none 0 7 false, .wload plain .bf16 10, .delta plain true 7 12 0x3F800000, .delta plain false 7 12 0,
      .deltaCk plain 7 13, .tsolve plain 20 22 2 62, .tsolve plain 22 20 2 62, .atile plain 14 15, .amerge plain 7 24 255, .amerge plain 7 16 0],
      ∀ d, Issues (sEng d) i plain gEng (pth 1) false) ∧
    Issues (sEng []) (.dstep fp 5 0 64) fp gEng (pth 1) false ∧ Free gEng (pth 1) plain ∧ guardOf gEng (pth 1) plain ≠ 0 ∧ Unfenced gEng (pth 1) ∧
      NoInit gEng ∧
    (mget {} (sEng []).arrays ((sEng []).arrayOf 0)).queue.length < 64 ∧
    (∃ s : State, ¬ (mget {} s.arrays (s.arrayOf 0)).queue.length < 64) ∧
    rowsFault (sEng []) 0 1 (rectAt (pairNat gEng 2)) (tyCode .bf16).toNat ((sEng []).depthAt 0 * elemSize (tyCode .bf16).toNat) 255 = none ∧
    rowsFault (sEng []) 0 1 (rectAt (pairNat gEng 16)) (tyCode .bf16).toNat ((sEng []).depthAt 0 * elemSize (tyCode .bf16).toNat) 255 = some 0x33 ∧
    accFault (sEng []) 0 1 0 (rectAt (pairNat gEng 16)) 8 false 255 = none ∧
    accFault (sEng []) 0 1 0 (rectAt (pairNat gEng 16)) 1024 true 0 = some 0x33 ∧
    accFault (sEng []) 0 1 0 (rectAt (pairNat gEng 2)) 8 false 0 = some 0x33 ∧
    (∀ v ∈ (some (gEng.uni 5).toNat), v < 2 ^ 19 ∧ v % 2 = 0 ∧ v + 2 * 8 ≤ ((sEng []).rangeOf 1).2) ∧
    (∃ bs f, Read (sEng [dWload]) gEng (readDesc (sEng [dWload]) gEng 10 32 32) bs f [] ∧ wloadGood bs = true) ∧
    (∃ bs f, Read (sEng [dScroll]) gEng (readDesc (sEng [dScroll]) gEng 4 32 32) bs f [] ∧ decide (field (leNat bs) 128 128 ≠ 0) = true) ∧
    (∃ bs f, Read (sEng [dDelta]) gEng (readDesc (sEng [dDelta]) gEng 12 64 64) bs f [] ∧ deltaGood false true bs = true) ∧
    (∃ bs f, Read (sEng [dDelta]) gEng (readDesc (sEng [dDelta]) gEng 12 64 64) bs f [] ∧ deltaGood false false bs = true) ∧
    (∃ bs f, Read (sEng [dDeltaCk]) gEng (readDesc (sEng [dDeltaCk]) gEng 13 64 64) bs f [] ∧ deltaGood true false bs = true) ∧
    tsolveFault (sEng []) 0 1 (rectAt (pairNat gEng 20)) (rectAt (pairNat gEng 22)) 2 = none ∧
    tsolveFault (sEng []) 0 1 (rectAt (pairNat gEng 22)) (rectAt (pairNat gEng 20)) 2 = some 0x36 ∧
    (gEng.uni 15).toNat % 64 = 0 ∧
    (∃ bs f, Read (sEng [dAtile]) gEng (readDesc (sEng [dAtile]) gEng 14 64 64) bs f [] ∧ atileGood bs = true) ∧
    rowsFault (sEng []) 0 1 (rectAt (pairNat gEng 24)) 8 520 255 = none ∧
    rowsFault (sEng []) 0 1 (rectAt (pairNat gEng 16)) 8 520 0 = some 0x33 ∧
    ((gEng.uni 5).toNat < 2 ^ 19 ∧ (gEng.uni 5).toNat % 4 = 0 ∧ (gEng.uni 5).toNat + 4 * (64 : BitVec 7).toNat ≤ ((sEng []).rangeOf 1).2) := by
  refine ⟨fun i hi d => issues_eng _ rfl rfl i hi, ⟨rfl, rfl, rfl, rfl, rfl⟩, free_eng.1, free_eng.2.1, free_eng.2.2.1, free_eng.2.2.2, by decide,
    ⟨{ arrays := [(0, { queue := List.replicate 64 1 })] }, by decide⟩, by decide +kernel, by decide +kernel, by decide +kernel, by decide +kernel,
    by decide +kernel, ?_, read_store (by decide +kernel), read_store (P := fun bs => decide (field (leNat bs) 128 128 ≠ 0)) (by decide +kernel),
    read_store (by decide +kernel), read_store (by decide +kernel), read_store (by decide +kernel), by decide +kernel, by decide +kernel,
    by decide +kernel, read_store (by decide +kernel), by decide +kernel, by decide +kernel, by decide +kernel⟩
  intro v hv
  have : v = 64 := by
    simp only [Option.mem_def, Option.some.injEq] at hv
    rw [← hv]
    decide +kernel
  subst this
  decide +kernel

/-- A cache entry with four pages of one head, and the pages' tags. -/
def entryGood (bs : List Byte) : Bool :=
  let e := parseEntry bs
  e.fault.isNone && e.nkvh == 1 && (e.page (511 / 128 * e.nkvh)).isSome && (e.page (512 / 128 * e.nkvh)).isNone && e.taga == 0x6000

theorem witness_CacheInstructions :
    (∀ i ∈ [Instr.kvapp plain 15 5 29 0x3F800000, .kvapp plain 29 5 29 0, .kvmrg plain 15 29 0x3F000000, .park plain 15 29, .promo plain 15 29],
      ∀ d, Issues (sEng d) i plain gEng (pth 1) false) ∧
    (∀ i ∈ [Instr.kvmap fp 6 15 29 0, .tierq fp 6 15 63], ∀ d, Issues (sEng d) i fp gEng (pth 1) false) ∧ Free gEng (pth 1) plain ∧ guardOf gEng (pth 1) plain ≠ 0 ∧ Unfenced gEng (pth 1) ∧
    (∀ x ∈ gEng.iq, x.thr ∈ (pth 1).hist → x.wseq ≠ 0) ∧
    ((sEng []).cmds.filter fun x => x.eng == 3 && x.inst == 0).length < 64 ∧
    (∃ c : Cmd, ¬ ((List.replicate 64 c).filter fun x => x.eng == 3 && x.inst == 0).length < 64) ∧
    ((gEng.uni 15).toNat % 64 = 0 ∧ (gEng.uni 15).toNat < 2 ^ 56 ∧ (gEng.uni 5).toNat < 2 ^ 19 ∧ (gEng.uni 5).toNat % 16 = 0 ∧
      (gEng.uni 29).toNat < 2 ^ 24 ∧ (gEng.uni 29).toNat % 64 ≠ 0 ∧ (gEng.uni 29).toNat < 2 ^ 53 ∧ ((gEng.uni 29).toNat).testBit 52 = false) ∧
    (∃ bs f at_, Read (sEng []) gEng (readVirt (sEng []) gEng (gEng.uni 15).toNat 320) bs f at_ ∧ entryGood bs = true ∧
      ∃ tb fl more, Read (sEng []) { gEng with floors := f } (readVirt (sEng []) { gEng with floors := f } 0x6000 1) tb fl more ∧ (tb == [2]) = true) := by
  refine ⟨fun i hi d => issues_eng _ rfl rfl i hi, fun i hi d => issues_eng _ rfl rfl i hi, free_eng.1, free_eng.2.1, free_eng.2.2.1, fun _ h => absurd h List.not_mem_nil, by decide,
    ⟨command (sEng []) gEng 3 0 (.park 0 0) .none [], by decide +kernel⟩, by decide +kernel, ?_⟩
  obtain ⟨bs, f, at_, h, hp⟩ := read_sys (s := sEng []) (g := gEng) (va := (gEng.uni 15).toNat) (n := 320) (P := entryGood) rfl (by decide +kernel) rfl rfl rfl rfl
    (by decide +kernel)
  exact ⟨bs, f, at_, h, hp, read_sys (P := fun bs => bs == [2]) rfl (by decide +kernel) rfl rfl rfl rfl (by decide +kernel)⟩

theorem closes_waiting {x : MemOp} {dst : ResDst} : ∃ h, Closes (waiting x dst) x h :=
  ⟨_, .inr ⟨{ instr := x.instr, flag := some 0, dst := dst, pend := 1 }, by simp [waiting, findKey], rfl, rfl, rfl⟩⟩

theorem may_alone {s : State} {x : MemOp} {dst : ResDst} (h : s.group? 1 = some (waiting x dst)) (hr : s.restartable 1 = false) :
    MayPerform s 1 (waiting x dst) x := ⟨passes_waiting h, fun _ => hr⟩

/-- A fence after a load of its group that has not been performed, and the state in which its release or its group's raise may not happen. -/
def after (k : MKind) : MemOp := { opAt 4 k with locs := [], hist := [8] }
def fenced (k : MKind) : Group := { gMem with iq := [{ opAt 1 (.load 1 false) with id := 4, instr := 3, thr := 8, locs := [0x2000] }, after k] }
def floored (x : MemOp) : Group := { waiting x .none with floors := [(0x1000, 3)] }
def unraised (g : Group) : State :=
  { one g with co := [{ id := 3, who := { gid := 1, blk := 1 }, lvl := .grp, home := .dev, bytes := [{ pa := 0x1000, loc := 2 ^ 56, old := 0, new := 7 }] }] }

theorem witness_FencesPerform :
    (∀ o ∈ [Ord.acq, .rel, .ar], ∀ sc ∈ [Scope.part, .host], let x := { opAt 1 (.fence o) with sc := sc }
      MayPerform (one (waiting x .none)) 1 (waiting x .none) x ∧ (∃ h, Closes (waiting x .none) x h) ∧ earlier x (waiting x .none).iq = [] ∧
        (one (waiting x .none)).mayRelease sc [] = true ∧ (one (waiting x .none)).performedAt (waiting x .none) sc = true) ∧
    (∀ o ∈ [Ord.acq, .rel, .ar], let x := after (.fence o)
      MayPerform (one (fenced (.fence o))) 1 (fenced (.fence o)) x ∧ earlier x (fenced (.fence o)).iq ≠ [] ∧
        ∃ y ∈ earlier x (fenced (.fence o)).iq, isValue y = true) ∧
    (let x := { opAt 1 (.fence .rel) with sc := .dev }
     MayPerform (unraised (floored x)) 1 (floored x) x ∧ (unraised (floored x)).mayRelease .dev (floored x).floors = false ∧
       (unraised (floored x)).performedAt (floored x) .dev = false) ∧
    (let x := { opAt 1 .afence with sc := .dev }
     MayPerform (unraised (waiting x .none)) 1 (waiting x .none) x ∧ earlier x (waiting x .none).iq = [] ∧
       (∀ e ∈ (unraised (waiting x .none)).sb, e.who.gid = 1 → e.committed = false) ∧
       ∃ w ∈ (unraised (waiting x .none)).co, w.who.gid = 1 ∧ w.who.ext = 0 ∧ w.copyOf = none ∧ (∃ b ∈ w.bytes, physLoc b.loc = false) ∧
         ∀ v ∈ (unraised (waiting x .none)).co, v.copyOf ≠ some w.id) ∧
    (let x := opAt 1 .afence
     let s := { restartableState (waiting x .none) with sb := (restartableState (waiting x .none)).sb.map fun e => { e with committed := true } }
     Passes s 1 (waiting x .none) x ∧ ∃ e ∈ s.sb, e.who.gid = 1 ∧ e.committed = true) ∧
    (let x := opAt 1 .commit
     MayPerform (one (waiting x .none)) 1 (waiting x .none) x ∧ (one (waiting x .none)).restartable 1 = false ∧
       (one (waiting x .none)).storesDone 1 5 = true ∧ (∃ h, Closes (waiting x .none) x h) ∧
       { one (waiting x .none) with sb := [{ id := 4, blk := 1, ep := 0, who := { gid := 1, blk := 1 }, bytes := [], committed := true }] }.storesDone 1 5 = false) ∧
    (let x := opAt 1 .commit
     MayPerform (restartableState (waiting x .none)) 1 (waiting x .none) x ∧ (restartableState (waiting x .none)).restartable 1 = true ∧
       earlier x (waiting x .none).iq = [] ∧ ((restartableState (waiting x .none)).part 0).lockstep = false) := by
  refine ⟨?_, ?_, ⟨⟨⟨rfl, rfl, rfl, rfl, ?_⟩, fun _ => rfl⟩, by decide, by decide⟩, ⟨may_alone rfl rfl, by decide, by decide, ?_⟩,
    ⟨passes_waiting rfl, _, .head _, rfl, rfl⟩, ⟨may_waiting, rfl, by decide, closes_waiting, by decide⟩,
    ⟨⟨passes_waiting rfl, nofun⟩, rfl, by decide, rfl⟩⟩
  · intro o ho sc hsc
    simp only [List.mem_cons, List.not_mem_nil, or_false] at ho hsc
    rcases ho with rfl | rfl | rfl <;> rcases hsc with rfl | rfl <;> exact ⟨may_waiting, closes_waiting, rfl, rfl, rfl⟩
  · intro o ho
    simp only [List.mem_cons, List.not_mem_nil, or_false] at ho
    rcases ho with rfl | rfl | rfl <;> exact ⟨⟨⟨rfl, by decide, rfl, rfl, by decide⟩, nofun⟩, by decide, { opAt 1 (.load 1 false) with id := 4, instr := 3, thr := 8, locs := [0x2000] }, .head _, rfl⟩
  · simp [earlier, floored, waiting]
  · exact ⟨_, .head _, rfl, rfl, rfl, ⟨_, .head _, by decide⟩, by decide⟩

/-- The object at offset 272 of position 0's store, a state in which it is live and holds a value, and a wait that must still return false. -/
def bar : Obj := { ep := 0, off := 272 }
def holding (v : Nat) (g : Group) : State := ((one g).setObj bar v).setLive 0 272 true
def fails (k : MKind) : Group :=
  { waiting (opAt 1 k) .none with iq := [opAt 1 k, { opAt 1 (.btry bar 0) with id := 6, instr := 8, passed := true }] }

theorem holding_group (v : Nat) (g : Group) (h : g.id = 1) : (holding v g).group? 1 = some g := by
  have : (holding v g).groups = [g] := rfl
  simp [State.group?, this, findKey, h]

theorem may_holding {v : Nat} {x : MemOp} {dst : ResDst} : MayPerform (holding v (waiting x dst)) 1 (waiting x dst) x :=
  may_alone (holding_group v _ rfl) rfl

theorem holding_ok {v : Nat} {g : Group} : (holding v g).storeOk := by
  have h : ∀ s : State, s.storeOk → (s.setLive 0 272 true).storeOk := fun s h => by unfold State.storeOk State.setLive; exact h
  exact h _ (State.setLsBytes_storeOk (s := one g) rfl)

theorem due_ok {s : State} {l : List Obj} (h : s.storeOk) : ({ s with objDue := l } : State).storeOk := h

theorem may_floored {x : MemOp} (h : x.com = false) : MayPerform (unraised (floored x)) 1 (floored x) x := by
  refine ⟨⟨rfl, by simp [floored, waiting, findKey], rfl, rfl, fun y hy => ?_⟩, fun h' => absurd h' (by rw [h]; decide)⟩
  simp [earlier, floored, waiting] at hy

theorem may_fails {k : MKind} : MayPerform (one (fails k)) 1 (fails k) (opAt 1 k) := by
  refine ⟨⟨rfl, by simp [fails, findKey], rfl, rfl, fun y hy => ?_⟩, fun _ => rfl⟩
  simp [earlier, fails] at hy

/-- A barrier's bits: its phase 3, 2 of 2 arrivals open; and a ring's of 2 slots of 32 bytes at 0x400: WR, PB, RD and RL. -/
def barV : Nat := 3 + 2 * 2 ^ 8 + 2 * 2 ^ 20
def ringV (eng wr pb rd rl : Nat) : Nat := eng * 2 ^ 3 + 0x400 * 2 ^ 37 + 2 ^ 64 + wr * 2 ^ 76 + pb * 2 ^ 88 + rd * 2 ^ 100 + rl * 2 ^ 112

theorem witness_ObjectsPerform :
    (∀ k ∈ [MKind.binit bar 4095, .rinit bar 0x4000080001, .binv bar], (MayPerform (one (fails k)) 1 (fails k) (opAt 1 k) ∧
        (one (fails k)).storeOk ∧ (one (fails k)).noneFails bar = false) ∧
      ∀ dst, MayPerform (holding barV (waiting (opAt 1 k) dst)) 1 (waiting (opAt 1 k) dst) (opAt 1 k) ∧
        (holding barV (waiting (opAt 1 k) .none)).storeOk ∧ (holding barV (waiting (opAt 1 k) .none)).noneFails bar = true ∧
        mwf false (holding barV (waiting (opAt 1 k) .none)).live = true) ∧
    (∀ n ∈ [0, 2, 3], let x := opAt 1 (.barr bar n)
      MayPerform (holding barV (waiting x .none)) 1 (waiting x .none) x ∧ (∃ h, Closes (waiting x .none) x h) ∧
        (holding barV (waiting x .none)).mayRelease x.sc [] = true ∧ (holding barV (waiting x .none)).mayUpdate bar 2 5 (barArrive n) = true ∧
        (holding barV (waiting x .none)).objLive bar = true ∧ (holding barV (waiting x .none)).storeOk ∧
        { holding barV (waiting x .none) with objLate := [(bar, 4)] }.mayUpdate bar 2 5 (barArrive n) = false) ∧
    (∀ e ∈ [0, 0xFFFFFF], let x := opAt 1 (.bexp bar e)
      MayPerform (holding barV (waiting x .none)) 1 (waiting x .none) x ∧ (holding barV (waiting x .none)).mayUpdate bar 4 5 (barExpect e) = true ∧
        bar ∉ (holding barV (waiting x .none)).objDue ∧
        { holding barV (waiting x .none) with objDue := [bar], objLate := [(bar, 4)] }.expected bar = true ∧
        { holding barV (waiting x .none) with objLate := [(bar, 5)] }.mayUpdate bar 4 5 (barExpect e) = false) ∧
    (∀ (v : Nat), let x := opAt 1 (.rres bar)
      let g := waiting x (.uni 6)
      MayPerform (holding v g) 1 g x ∧ x.wseq = 0 ∧ First (holding v g) (fun _ y => y.kind = .rres bar) x) ∧
    (let s := fun v => holding v (waiting (opAt 1 (.rres bar)) (.uni 6))
     ringEng ((s (ringV 1 0 0 0 0)).objVal bar) = true ∧ ringEng ((s (ringV 0 3 0 0 2)).objVal bar) = false ∧
       ringFree ((s (ringV 0 3 0 0 2)).objVal bar) = true ∧ ringFree ((s (ringV 0 2 0 0 0)).objVal bar) = false ∧
       ringFull ((s (ringV 0 1 1 0 0)).objVal bar) = true ∧ ringFull ((s (ringV 0 1 1 1 0)).objVal bar) = false ∧
       ringPb ((s (ringV 0 1 1 0 0)).objVal bar) = ringWr ((s (ringV 0 1 1 0 0)).objVal bar) ∧
       ringPb ((s (ringV 0 1 3 0 0)).objVal bar) ≠ ringWr ((s (ringV 0 1 3 0 0)).objVal bar) ∧
       ringRl ((s (ringV 0 1 1 1 1)).objVal bar) = ringRd ((s (ringV 0 1 1 1 1)).objVal bar) ∧
       ringRl ((s (ringV 0 1 1 1 3)).objVal bar) ≠ ringRd ((s (ringV 0 1 1 1 3)).objVal bar)) ∧
    (∀ (v : Nat), let x := opAt 1 (.rwait bar)
      let g := waiting x (.uni 6)
      MayPerform (holding v g) 1 g x ∧ x.wseq = 0 ∧ First (holding v g) (fun _ y => y.kind = .rwait bar) x) ∧
    (let x := opAt 1 (.rwait bar)
     let g := { waiting x (.uni 6) with iq := [x, { x with id := 6, wseq := 9 }] }
     MayPerform (holding (ringV 0 1 1 0 0) g) 1 g x ∧ ¬ First (holding (ringV 0 1 1 0 0) g) (fun _ y => y.kind = .rwait bar) x) ∧
    (∀ k ∈ [MKind.rpub bar, .rrel bar], ∀ v, let g := waiting (opAt 1 k) .none
      MayPerform (holding v g) 1 g (opAt 1 k) ∧ (holding v g).mayRelease .grp g.floors = true) ∧
    (∀ k ∈ [MKind.rpub bar, .barr bar 1], let x := { opAt 1 k with sc := .dev }
      MayPerform (unraised (floored x)) 1 (floored x) x ∧ (unraised (floored x)).mayRelease x.sc (floored x).floors = false) ∧
    (let s := { holding (3 + 2 * 2 ^ 8) gMem with objDue := [bar] }
     s.storeOk ∧ bar ∈ s.objDue ∧ s.objLive bar = true ∧ barDone (s.objVal bar) = true) := by
  refine ⟨?_, ?_, ?_, fun v => ⟨may_holding, rfl, ?_⟩, ?_, fun v => ⟨may_holding, rfl, ?_⟩,
    ⟨⟨⟨holding_group _ _ rfl, rfl, rfl, rfl, ?_⟩, nofun⟩, ?_⟩, ?_, ?_, ?_, .head _, by decide +kernel, by decide +kernel⟩
  · intro k hk
    simp only [List.mem_cons, List.not_mem_nil, or_false] at hk
    rcases hk with rfl | rfl | rfl <;> exact ⟨⟨may_fails, rfl, rfl⟩, fun _ => ⟨may_holding, holding_ok, rfl, rfl⟩⟩
  · intro n hn
    simp only [List.mem_cons, List.not_mem_nil, or_false] at hn
    rcases hn with rfl | rfl | rfl <;> exact ⟨may_holding, closes_waiting, by decide +kernel, by decide +kernel, by decide +kernel, holding_ok, by decide +kernel⟩
  · intro e he
    simp only [List.mem_cons, List.not_mem_nil, or_false] at he
    rcases he with rfl | rfl <;> exact ⟨may_holding, by decide +kernel, List.not_mem_nil, by decide +kernel, by decide +kernel⟩
  · intro h hh y hy _ hw
    obtain rfl : h = _ := List.mem_singleton.mp hh
    obtain rfl : y = _ := List.mem_singleton.mp hy
    exact absurd rfl hw
  · exact ⟨by decide +kernel, by decide +kernel, by decide +kernel, by decide +kernel, by decide +kernel, by decide +kernel, by decide +kernel,
      by decide +kernel, by decide +kernel, by decide +kernel⟩
  · intro h hh y hy _ hw
    obtain rfl : h = _ := List.mem_singleton.mp hh
    obtain rfl : y = _ := List.mem_singleton.mp hy
    exact absurd rfl hw
  · intro y hy
    simp [earlier] at hy
  · intro h
    have h := h _ (.head _) _ (.tail _ (.head _)) rfl (by decide)
    exact absurd h.1 (by decide)
  · intro k hk v
    simp only [List.mem_cons, List.not_mem_nil, or_false] at hk
    rcases hk with rfl | rfl <;> exact ⟨may_holding, rfl⟩
  · intro k hk
    simp only [List.mem_cons, List.not_mem_nil, or_false] at hk
    rcases hk with rfl | rfl <;> exact ⟨may_floored rfl, by decide⟩
  · exact due_ok holding_ok

/-- A group with an operation on channels or work items, of a system launch or not; its launch with words in channel 2; its partition. -/
def working (sys : Bool) (x : MemOp) (dst : ResDst) : Group := { waiting x dst with sys := sys }
def chanState (ws : List ChanWord) (g : Group) : State :=
  { one g with launches := [{ id := 1, part := 0, tenant := 0, origin := .manager, hdr := {}, coStart := 0, chans := mset [] [] 2 ws }] }
def itemState (p : Partition) (g : Group) : State := { one g with parts := mset {} [] 0 p }

theorem may_working {s : State} {sys : Bool} {x : MemOp} {dst : ResDst} (h : s.group? 1 = some (working sys x dst)) (hc : x.com = false) :
    MayPerform s 1 (working sys x dst) x := by
  refine ⟨⟨h, by simp [working, waiting, findKey], rfl, rfl, fun y hy => ?_⟩, fun h' => absurd h' (by rw [hc]; decide)⟩
  simp [earlier, working, waiting] at hy

theorem closes_working {sys : Bool} {x : MemOp} {dst : ResDst} : ∃ h, Closes (working sys x dst) x h :=
  ⟨_, .inr ⟨{ instr := x.instr, flag := some 0, dst := dst, pend := 1 }, by simp [working, waiting, findKey], rfl, rfl, rfl⟩⟩

theorem first_alone {s : State} {sys : Bool} {x : MemOp} {dst : ResDst} {p : Group → MemOp → Prop} (h : s.groups = [working sys x dst])
    (hw : x.wseq = 0) : First s p x := by
  intro g hg y hy _ hn
  rw [h] at hg
  obtain rfl : g = _ := List.mem_singleton.mp hg
  obtain rfl : y = _ := List.mem_singleton.mp hy
  exact absurd hw hn

theorem witness_ChannelsAndWorkPerform :
    (∀ rel ∈ [false, true], let x := opAt 1 (.send 2 9 rel)
      let g := working true x .none
      MayPerform (chanState [] g) 1 g x ∧ (∃ l, (chanState [] g).launch? g.launch = some l) ∧ (chanState [] g).mayRelease .part g.floors = true ∧
        ∃ h, Closes g x h) ∧
    (let x := opAt 1 (.send 2 9 true)
     MayPerform (unraised (floored x)) 1 (floored x) x ∧ (unraised (floored x)).mayRelease .part (floored x).floors = false) ∧
    (∀ a ∈ [false, true], let x := opAt 1 (.recv 2 a)
      let g := working true x (.uni 6)
      MayPerform (chanState [{ v := 7 }] g) 1 g x ∧ First (chanState [{ v := 7 }] g) (fun h y => h.launch = g.launch ∧ ∃ a, y.kind = .recv 2 a) x ∧
        (∃ l w r, (chanState [{ v := 7 }] g).launch? g.launch = some l ∧ mget [] l.chans 2 = w :: r) ∧
        MayPerform (chanState [] g) 1 g x ∧ (∃ l, (chanState [] g).launch? g.launch = some l ∧ mget [] l.chans 2 = []) ∧ x.wseq = 0 ∧ g.wait = .none) ∧
    (∀ sys ∈ [false, true], ∀ p, let x := opAt 1 (.wpush 9)
      let g := working sys x .none
      MayPerform (itemState p g) 1 g x ∧ ∃ h, Closes g x h) ∧
    (let g := working false (opAt 1 (.wpush 9)) .none
     let full : List (Nat × List Item) := [(0, List.replicate 256 { v := 1 })]
     (itemState { parts := full } g).itemRoom 0 0 0 = false ∧ (itemState { parts := full, wqn := 1 } g).itemRoom 0 0 0 = true ∧
       (itemState {} g).itemRoom 0 0 0 = true ∧ ((itemState { sysq := List.replicate 64 1 } g).part 0).sysq.length = 64 ∧
       ((itemState { sysq := List.replicate 63 1 } g).part 0).sysq.length < 64) ∧
    (∀ sys ∈ [false, true], ∀ b ∈ [false, true], ∀ p pr, let x := opAt 1 (.wpull b)
      let g := working sys x (.uni 6)
      MayPerform (itemState p g) 1 g x ∧ First (itemState p g) pr x ∧ x.wseq = 0 ∧ g.wait = .none) ∧
    (let g := working false (opAt 1 (.wpull false)) (.uni 6)
     let s := itemState { parts := [(0, [{ v := 8 }])], ovItems := [(0, [{ v := 9 }])], sysq := [3] } g
     PartsOk s 0 ∧ (mget [] (s.part 0).parts 0 : List Item) ++ mget [] (s.part 0).ovItems 0 = { v := 8 } :: [{ v := 9 }] ∧ (s.part 0).sysq = 3 :: [] ∧
       (mget [] ((itemState {} g).part 0).parts 0 : List Item) = [] ∧ (mget [] ((itemState {} g).part 0).ovItems 0 : List Item) = [] ∧
       ((itemState {} g).part 0).sysq = []) ∧
    (∀ wt ∈ [false, true], ∀ ps, let x := opAt 1 (.launch wt)
      let g := working false x (.upred 2)
      let s := itemState { pending := ps } g
      MayPerform s 1 g x ∧ s.offPackage 0 x.pas = false ∧ (∀ a ∈ x.pas, s.poisoned a = false) ∧ s.mayRelease .part g.floors = true ∧ x.until_ = 0) ∧
    (let g := working false (opAt 1 (.launch true)) (.upred 2)
     ((itemState {} g).freeEntries 0 |>.part 0).pending.length < 256 ∧
       ¬ ((itemState { pending := List.replicate 256 { id := 4, tenant := 0, seq := 1, hdr := {}, views := [], from_ := 1, age := 0 } } g).freeEntries 0 |>.part 0).pending.length < 256) ∧
    (let x := opAt 1 (.launch true)
     MayPerform (unraised (floored x)) 1 (floored x) x ∧ (unraised (floored x)).mayRelease .part (floored x).floors = false ∧
       (unraised (floored x)).offPackage 0 x.pas = false) := by
  refine ⟨?_, ⟨may_floored rfl, by decide⟩, ?_, ?_, ?_, ?_, ?_, ?_, ?_, ⟨may_floored rfl, by decide, by decide⟩⟩
  · exact fun rel _ => ⟨may_working rfl rfl, ⟨_, rfl⟩, rfl, closes_working⟩
  · exact fun a _ => ⟨may_working rfl rfl, first_alone rfl rfl, ⟨_, _, _, rfl, rfl⟩, may_working rfl rfl, ⟨_, rfl, rfl⟩, rfl, rfl⟩
  · exact fun sys _ p => ⟨may_working rfl rfl, closes_working⟩
  · exact ⟨by decide +kernel, by decide +kernel, by decide +kernel, by decide +kernel, by decide +kernel⟩
  · exact fun sys _ b _ p pr => ⟨may_working rfl rfl, first_alone rfl rfl, rfl, rfl⟩
  · exact ⟨⟨by decide +kernel, by decide +kernel, by decide +kernel, by decide +kernel⟩, by decide +kernel, by decide +kernel, by decide +kernel,
      by decide +kernel, by decide +kernel⟩
  · exact fun wt _ ps => ⟨may_working rfl rfl, Bool.and_eq_false_imp.mpr fun _ => rfl, fun _ _ => rfl, rfl, rfl⟩
  · exact ⟨by decide +kernel, by decide +kernel⟩

theorem witness_BarrierFieldsAndTimeouts : (0xFFFF * 2 ^ 32 < 2 ^ 128 ∧ 4095 < 2 ^ 12 ∧ 0xFFFFFF < 2 ^ 24) ∧
    (MayPerform (one (waiting (opAt 1 (.btry { ep := 0, off := 272 } 1)) (.lane 2 false))) 1 (waiting (opAt 1 (.btry { ep := 0, off := 272 } 1)) (.lane 2 false))
      (opAt 1 (.btry { ep := 0, off := 272 } 1))) ∧
    (∃ (g : Group) (x : MemOp), g.wait = .bwait 5 { ep := 0, off := 272 } 1 3 9 ∧ findKey (fun y => y.id) 5 g.iq = some x ∧
      (one g).group? 1 = some g ∧ (one g).clock < 3 + 9 ∧ 3 + 9 ≤ ({ one g with clock := 12 } : State).clock) ∧
    (∃ (g : Group) (x : MemOp), (one g).group? 1 = some g ∧ x ∈ g.iq ∧ x.kind = .launch true ∧ x.until_ ≠ 0 ∧
      ∀ y ∈ g.iq, y.kind = .launch true → y.until_ ≠ 0 → y = x) :=
  ⟨by decide, may_waiting, ⟨{ waiting (opAt 1 .dstep) .none with wait := .bwait 5 { ep := 0, off := 272 } 1 3 9 }, opAt 1 .dstep, rfl, rfl, rfl, by decide, by decide⟩,
    ⟨waiting { opAt 1 (.launch true) with until_ := 12 } .none, { opAt 1 (.launch true) with until_ := 12 }, rfl, .head _, rfl, by decide,
      fun y hy _ _ => List.mem_singleton.mp hy⟩⟩

/-- Page tables of tenant 0: the first 2 MiB of addresses at themselves, readable, writable and executable. -/
def tables : List (Nat × Nat × Nat) := [(0x100000, 8, 0x101003), (0x101000, 8, 0x102003), (0x102000, 8, 0x103003), (0x103000, 8, 0x239)]

/-- A partition of quadrant 0 with tenant 0, its handler, and queue 7 in slot 5. -/
def tenantPart : Partition :=
  { exists_ := true, quads := [0], cfgAt := 0x40000, qtbase := 0x20000, pln := 1, stopped := true
    tenants := [(0, { active := true, valid := true, ttbr := 0x100000, hseg := 0x200000, hent := 20, tbase := 0x8000 })]
    slots := [(5, { mapped := true, qid := 7, susp := true })] }

/-- A state with that partition, in which a group issues. -/
def sTen (g : Group) (mem : List (Nat × Nat × Nat)) : State :=
  { one g with parts := [(0, tenantPart)], mem := filled (tables ++ (0x40017, 2, 0x1010) :: mem) }

/-- A tenant's group at the last word of its clause. -/
def gTen : Group := { grp 3 [] [(62, 9), (4, 0x9000)] with sys := false, p0 := some { pth 3 with pc := 15 } }
def pTen : Path := { pth 3 with pc := 15 }

theorem no_tables (pas : List Nat) :
    trRange ({ sTen gTen [] with mem := [] }.translate gTen.ep gTen.part gTen.tenant .write false) (recordAddr (sTen gTen []) gTen) 64 ≠ .ok pas := by
  have h : trRange ({ sTen gTen [] with mem := [] }.translate gTen.ep gTen.part gTen.tenant .write false) (recordAddr (sTen gTen []) gTen) 64 =
    .error (.miss false) := by decide +kernel
  rw [h]
  exact nofun

theorem witness_TrapEntry :
    Current (sTen gTen []) gTen pTen false ∧
    (∃ t, Raises (sTen gTen []) gTen pTen (.trap plain 15) t) ∧ (∃ t, Raises (sTen gTen []) gTen pTen (.bkpt plain 255) t) ∧
    (∃ t, Raises (sTen gTen []) gTen pTen (.reservedOpcode 0xEF 0) t) ∧ (∃ t, Raises (sTen gTen []) gTen pTen (.rds plain (.uni 6) 0x85) t) ∧
    (∃ t, Raises (sTen gTen []) gTen pTen (.tlbinvPart plain 0 0) t) ∧
    gTen.handler = none ∧ gTen.sys = false ∧ ((sTen gTen []).tenant gTen.part gTen.tenant).hseg ≠ 0 ∧
    (∀ k, k < 12 → gTen.flag k = 0) ∧ (∃ k, k < 12 ∧ ({ gTen with flags := [(11, 1)] } : Group).flag k ≠ 0) ∧
    (∃ pas, trRange ((sTen gTen []).translate gTen.ep gTen.part gTen.tenant .write false) (recordAddr (sTen gTen []) gTen) 64 = .ok pas ∧
      pas.length = 64 ∧ pas.Nodup) ∧ (sTen gTen []).memOk ∧ (sTen gTen []).areaOk gTen.part gTen.ep gTen.slot = true ∧
    (∃ s : State, Current s gTen pTen false ∧ s.areaOk gTen.part gTen.ep gTen.slot = false ∧ (s.tenant gTen.part gTen.tenant).hseg ≠ 0) ∧
    (∀ pas, trRange ({ sTen gTen [] with mem := [] }.translate gTen.ep gTen.part gTen.tenant .write false) (recordAddr (sTen gTen []) gTen) 64 ≠ .ok pas) ∧
    ({ gTen with handler := some { inSecond := false, other := none, stack := [], recs := [], mask := 3, jr := none, hdr := 0 } } : Group).handler ≠ none ∧
    (∃ (t : TrapInfo) (g : Group) (p : Path), Current (sTen g []) g p false ∧ p.clause = none ∧ g.deferred = [t] ∧ g.handler = none ∧ g.sys = false ∧
      ∃ k, k < 12 ∧ g.flag k ≠ 0) := by
  refine ⟨⟨rfl, rfl, rfl⟩, ⟨_, .trap plain 15 rfl rfl (by decide)⟩, ⟨_, .bkpt plain 255 rfl rfl (by decide)⟩, ⟨_, .reserved 0xEF 0⟩, ⟨_, .illegal plain (.uni 6) 0x85 4 (by decide) (by decide)⟩,
    ⟨_, .privileged plain 0 0 4 (by decide) (by decide)⟩, rfl, rfl, by decide, fun _ _ => rfl, ⟨11, by decide, by decide⟩, ⟨(List.range 64).map (0x87C0 + ·), by decide +kernel, by decide +kernel, by decide +kernel⟩, ?_,
    by decide +kernel, ⟨{ sTen gTen [] with parts := [(0, { tenantPart with cabase := 2 ^ 40 })] }, ⟨rfl, rfl, rfl⟩, by decide +kernel, by decide⟩, no_tables,
    by simp, ⟨boundaryInfo gTen 1, { gTen with p0 := some { pc := 16, mask := 1 }, deferred := [boundaryInfo gTen 1], flags := [(11, 1)] }, { pc := 16, mask := 1 },
      ⟨rfl, rfl, rfl⟩, rfl, rfl, rfl, rfl, 11, by decide, by decide⟩⟩
  show mwf memDefault _ = true
  decide +kernel

/-- Code with a header at word 16, and after it a word that is none. -/
def someCode : List (Nat × Nat × Nat) := [(192, 12, (headerWord h1).toNat), (204, 12, reconvWord.toNat)]

/-- The record of a trap: the lanes and the word that go on. -/
def recordAt (am pc : Nat) : Nat × Nat × Nat := (0x9000, 64, am * 2 ^ 160 + pc * 2 ^ 192 + 0x77 * 2 ^ 448)

/-- A handler of lanes 0 and 1, whose clause was at word 16. -/
def divB : DivBlock := { inSecond := false, other := none, stack := [], recs := [], mask := 3, jr := none, hdr := 16 }
def gHan : Group := { gTen with handler := some divB }

/-- What `RTT` reads of a record: AMASK and PC. -/
def readRec (s : State) : Nat × Nat :=
  let pas := (List.range 64).map (0x9000 + ·)
  let rd := loadBytes s (s.who gHan) (2 * s.co.length) pas
    (List.ofFn fun k : Fin pas.length => gHan.loc ((gHan.uni 4).toNat + k) (pas[k])) gHan.floors
  (field (leNat rd.1) 160 32, field (leNat rd.1) 192 32)

theorem witness_ReturnFromTrap :
    (Issues (sTen gTen []) (.rtt plain 4) plain gTen pTen false ∧ guardOf gTen pTen plain ≠ 0 ∧ gTen.handler = none) ∧
    (∀ m, Issues (sTen gHan m) (.rtt plain 4) plain gHan pTen false) ∧ guardOf gHan pTen plain ≠ 0 ∧ gHan.handler = some divB ∧ gHan.iq = [] ∧
    divB.recs = [] ∧
    (let s := sTen gHan (recordAt 1 16 :: someCode)
     trRange (s.trGroup gHan .read) (gHan.uni 4).toNat 64 = .ok ((List.range 64).map (0x9000 + ·)) ∧ readRec s = (1, 16) ∧
      (1 : Lanes) &&& ~~~divB.mask = 0 ∧ ∃ w, s.codeWord gHan (s.hdrOf gHan).code 16 = .ok w ∧ w >>> 88 = 0xF0#96) ∧
    (let s := sTen gHan (recordAt 2 17 :: someCode)
     readRec s = (2, 17) ∧ (2 : Lanes) &&& ~~~divB.mask = 0 ∧
      ∃ w v, s.codeWord gHan (s.hdrOf gHan).code 17 = .ok w ∧ w >>> 88 ≠ 0xF0#96 ∧ s.codeWord gHan (s.hdrOf gHan).code 16 = .ok v ∧
        divB.hdr.toNat < 17 ∧ 17 ≤ divB.hdr.toNat + (headerOf v).len.toNat) ∧
    readRec (sTen gHan [recordAt 0 16]) = (0, 16) ∧
    (readRec (sTen gHan [recordAt 4 16]) = (4, 16) ∧ (4 : Lanes) &&& ~~~divB.mask ≠ 0) := by
  refine ⟨⟨⟨rfl, rfl, rfl, rfl, rfl⟩, by decide, rfl⟩, fun m => ⟨rfl, rfl, rfl, rfl, rfl⟩, by decide, rfl, rfl, rfl,
    ⟨by decide +kernel, by decide +kernel, by decide, headerWord h1, by decide +kernel, by decide +kernel⟩,
    ⟨by decide +kernel, by decide, reconvWord, headerWord h1, by decide +kernel, by decide +kernel, by decide +kernel, by decide, by decide⟩,
    by decide +kernel, by decide +kernel, by decide⟩

/-- A system group with operands at the edges of their ranges. -/
def gSup : Group := grp 1 [] [(1, 0x20000), (2, 6), (3, 5), (4, 15), (5, 16), (6, 127), (7, 128), (8, 255), (9, 256), (10, 11), (11, 12), (12, 13),
  (13, 10000000), (14, 9), (15, 10), (16, 1800000), (17, 1800001), (18, 0xFFFFFFFF), (19, 0x100000000), (20, 4), (21, 0x50000), (22, 0x50001),
  (23, 2 ^ 56), (24, 0x20001)]

theorem issues_sup {c : Ctl} (l : List Instr) (hl : l.all (fun i => causes (ctxOf gSup (pth 1)) i == []) = true)
    (hf : gSup.flagFull (flagOf (pth 1) c) = false) : ∀ i ∈ l, ∀ m, Issues (sTen gSup m) i c gSup (pth 1) false := fun i hi _ =>
  ⟨rfl, rfl, rfl, eq_of_beq (List.all_eq_true.mp hl i hi), hf⟩

theorem witness_SupervisorInstructions :
    (∀ i ∈ [Instr.tlbinvVa plain 1 4, .tlbinvVa plain 1 5, .tlbinvTnt plain 1 4, .tlbinvTnt plain 1 5, .tlbinvPart plain 63 63, .qctlMap plain 63 1 2,
      .qctlMap plain 63 1 7, .qctlMap plain 63 24 2, .qctlMap plain 63 1 3, .qctlUnmap plain 63 1 3, .qctlUnmap plain 63 1 2, .qctlPrio plain 63 1 3,
      .qctlPrio plain 63 1 7, .qctlSusp plain 63 1 3, .qctlResm plain 63 1 3, .pctlIw plain 63 4 8, .pctlIw plain 63 5 8, .pctlIw plain 63 4 9,
      .pctlStop plain 63 1 1, .pctlGo plain 63 1 1, .pctlReset plain 63 1 1], ∀ m, Issues (sTen gSup m) i plain gSup (pth 1) false) ∧
    (∀ i ∈ [Instr.qctlState fp 6 1 6, .qctlState fp 6 1 7, .pctlCfg fp 63 1 1], ∀ m, Issues (sTen gSup m) i fp gSup (pth 1) false) ∧
    guardOf gSup (pth 1) plain ≠ 0 ∧ guardOf gSup (pth 1) fp ≠ 0 ∧
    ((gSup.uni 4).toNat = 15 ∧ (gSup.uni 5).toNat = 16 ∧ (gSup.uni 6).toNat = 127 ∧ (gSup.uni 7).toNat = 128 ∧ (gSup.uni 8).toNat = 255 ∧
      (gSup.uni 9).toNat = 256 ∧ (gSup.uni 24).toNat % 64 ≠ 0) ∧
    (let s := sTen gSup []
     (∃ u, s.mapQueue 0 (gSup.uni 1).toNat (gSup.uni 2).toNat = some u) ∧ s.mapQueue 0 (gSup.uni 1).toNat (gSup.uni 3).toNat = none ∧
      ((s.part 0).slot (gSup.uni 3).toNat).mapped = true ∧ ((s.part 0).slot (gSup.uni 2).toNat).mapped = false ∧ s.slotBusy 0 5 = false ∧
      mwf ({} : Partition) s.parts = true ∧ mwf ({} : Slot) (s.part 0).slots = true ∧
      (s.part 0).stopped = true ∧ ∃ u, s.resetPart 0 = some u) ∧
    (∃ s : State, (s.part gSup.part).stopped = false) ∧
    (sTen gSup [(0x40000, 1, 1)]).resetPart 0 = none ∧
    (∃ s : State, s.slotBusy 0 5 = true) := by
  refine ⟨issues_sup _ rfl rfl, issues_sup _ rfl rfl, by decide, by decide, by decide +kernel,
    ⟨Option.isSome_iff_exists.mp (by decide +kernel), by decide +kernel, by decide +kernel, by decide +kernel, by decide +kernel, by decide +kernel,
      by decide +kernel, rfl, Option.isSome_iff_exists.mp (by decide +kernel)⟩, ⟨{}, rfl⟩, by decide +kernel,
    ⟨{ launches := [{ id := 1, part := 0, tenant := 0, origin := .queue 5 7 1 0 false 0, hdr := {}, coStart := 0 }]
       blocks := (onPan gEng).blocks }, by decide +kernel⟩⟩

/-- An image without sections at 0x50000, of queue 7. -/
def hdrImg : List Byte := bytesLE (1 + 64 * 2 ^ 128) 64
def sImg : State :=
  { sTen gSup [(0x50000, 64, 1 + 64 * 2 ^ 128)] with
    images := [{ header := hdrImg, slot := { mapped := true, qid := 7, susp := true }, launches := [], pend := [], items := [], devSeq := 0, devDone := 0,
                 devFinished := [], saved := ((sTen gSup []).takeSlot 0 5).1.saved }] }

/-- The image is good, is known, and restores into its slot. -/
def imgGood : Bool :=
  let hdr := (List.range 64).map fun j => sImg.devByte (0x50000 + j)
  (sImg.part 0).checkImage hdr [] == 0 && field (leNat hdr) 128 64 == 64 && !(leNat hdr).testBit 23 &&
    match sImg.images.find? (fun x => x.header == hdr) with
    | some im => im.slot.qid == 7 && (sImg.loadSlot 0 5 im).isSome
    | none => false

theorem bytes_length (x n : Nat) : (bytesLE x n).length = n := by
  induction n generalizing x with
  | zero => rfl
  | succ n ih => simp [bytesLE, ih]

theorem run_lt {a n x : Nat} (h : x ∈ range a n) : x < a + n := by
  induction n generalizing a with
  | zero => cases h
  | succ n ih =>
    rcases List.mem_cons.mp h with rfl | h
    · omega
    · have := ih h; omega

theorem save_length (x : Sect) (h : x.data.length ≤ 4096) : (imageBody [x]).length ≤ 4160 := by
  simp only [imageBody, layout, upTo64, List.length_append, List.length_replicate, List.length_flatten, List.map_cons, List.map_nil, List.sum_cons,
    List.sum_nil, bytes_length, List.length_cons, List.length_nil]
  omega

theorem sectOf_length (k w u : Nat) (bs : List Byte) : (sectOf k w u bs).data.length ≤ bs.length := by
  simp only [sectOf]
  split <;> simp only <;> omega

theorem all_exist {n : Nat} (h : n ≤ 4224) : (range 0x50000 n).all paExists = true := by
  rw [List.all_eq_true]
  intro a ha
  have hn := run_lt ha
  have h1 : a / 2 ^ 54 = 0 := by omega
  simp only [paExists, h1, decide_eq_true_eq]
  omega

theorem save_some : ((sTen gSup []).saveSlot 0 5 0x50000).isSome = true := by
  have hx : ∀ salt, ((sTen gSup []).takeSlot 0 5).1.saved.sects ((sTen gSup []).part 0) (sTen gSup []).rangeOf salt = [freeSect 6 0 0 salt] :=
    fun _ => rfl
  have hl : ∀ salt, (freeSect 6 0 0 salt).data.length ≤ 4096 := by
    intro salt
    refine Nat.le_trans (sectOf_length _ _ _ _) ?_
    rw [List.length_map, run_length]
    omega
  have hb := fun salt => all_exist (Nat.add_le_add_left (save_length _ (hl salt)) 64)
  have hg : ((sTen gSup []).takeSlot 0 5).1.saved.groups = [] := by rfl
  simp only [State.saveSlot, hx, hg, List.all_nil, Bool.not_true, Bool.false_or, hb, Bool.false_eq_true, if_false, Option.isSome_some]

theorem witness_BanksAccountsContexts :
    (∀ i ∈ [Instr.errrdRd fp 6 10 20, .errrdRdclr fp 6 11 20, .errrdRd fp 6 3 63, .errrdRdclr fp 6 3 63, .enrgBal fp 6 4 1, .ctxsv fp 6 3 21, .ctxsv fp 6 3 22, .ctxsv fp 6 7 21, .ctxsv fp 6 3 23,
      .ctxld fp 6 21 3], ∀ m, Issues (sTen gSup m) i fp gSup (pth 1) false) ∧
    (∀ i ∈ [Instr.wdogSet plain 3 13, .wdogSet plain 3 14, .wdogSet plain 2 15, .enrgCoef plain 63 12 18, .enrgCoef plain 63 12 19, .enrgBurst plain 63 1 20,
      .enrgBurst plain 63 1 3, .enrgShare plain 63 1 16, .enrgShare plain 63 1 17], ∀ m, Issues (sTen gSup m) i plain gSup (pth 1) false) ∧
    guardOf gSup (pth 1) plain ≠ 0 ∧ guardOf gSup (pth 1) fp ≠ 0 ∧
    ((gSup.uni 10).toNat = 11 ∧ (gSup.uni 11).toNat = 12 ∧ (gSup.uni 12).toNat = 13 ∧ (gSup.uni 13).toNat = 10000000 ∧ (gSup.uni 14).toNat = 9 ∧
      (gSup.uni 16).toNat = 1800000 ∧ (gSup.uni 18).toNat = 2 ^ 32 - 1 ∧ (gSup.uni 19).toNat = 2 ^ 32 ∧ (gSup.uni 20).toNat = 4 ∧
      (gSup.uni 21).toNat % 4096 = 0 ∧ (gSup.uni 22).toNat % 4096 ≠ 0 ∧ (gSup.uni 23).toNat = 2 ^ 56) ∧
    (let s := sTen gSup []
     ((gSup.uni 3).toNat = 5 ∧ (gSup.uni 63).toNat = 0) ∧ (s.part 0).quads.contains (if 5 < 4 then 5 else (5 - 4) / 2) = true ∧ (s.part 0).quads.contains (if 11 < 4 then 11 else (11 - 4) / 2) = false ∧
     paExists 0x50000 = true ∧ ((s.part 0).slot 5).mapped = true ∧ ((s.part 0).slot 5).susp = true ∧ ((s.part 0).slot 5).npre = false ∧
      (s.part 0).stopped = true ∧ s.saveReady (s.slotBlocks 0 5) = true ∧ s.moves = [] ∧ ∃ u n, s.saveSlot 0 5 0x50000 = some (u, n)) ∧
    (imgGood = true ∧ sImg.cur = some { gid := 1, second := false } ∧ sImg.group? 1 = some gSup ∧ ((sImg.part 0).slot 5).mapped = true ∧
      ((sImg.part 0).slot 5).susp = true ∧ (sImg.part 0).stopped = true) := by
  refine ⟨issues_sup _ rfl rfl, issues_sup _ rfl rfl, by decide, by decide, by decide +kernel,
    ⟨by decide +kernel, by decide, by decide, by decide, by decide +kernel, by decide +kernel, by decide +kernel, rfl, by decide +kernel, rfl, ?_⟩,
    by decide +kernel, rfl, rfl, rfl, rfl, rfl⟩
  obtain ⟨⟨u, n⟩, h⟩ := Option.isSome_iff_exists.mp save_some
  exact ⟨u, n, h⟩

/-- Command 5 of the group, in an engine. -/
def cmdE (eng : Nat) (k : CmdKind) : Cmd :=
  { id := 5, kind := k, gid := 1, who := { gid := 1, blk := 1 }, launch := 1, block := 1, part := 0, tenant := 0, ep := 0, eng := eng, inst := 0, seq := 1, sysA := true }

/-- The state with that command, and others. -/
def sCmd (c : Cmd) (more : List Cmd) : State := { sEng [] with cmds := c :: more, nextId := 90 }

/-- A scroll by the width of the sub-pan: every element comes back to its place. Another leaves the sub-pan. -/
def scrollD (staged : Bool) : ScrollD := { r := rectAt (rectN 64 64 8), dx := 32, dy := 0, staged := staged }
def spillD : ScrollD := { r := rectAt (rectN 64 36 8), dx := -1, dy := 0, ex := true, staged := false, spb := 0x7000, spl := 64 }
def cmdS (d : ScrollD) (ph : Nat) (left : List (Nat × Nat)) : Cmd := { cmdE 1 (.scroll d) with phase := ph, left := left }
def sScroll (c : Cmd) : State := { sCmd c [] with groups := [{ gEng with scroll := { sts := 1, sin := true, cmd := some 5 } }] }

theorem between_all {w : Nat × Nat} {P : Nat → Prop} (h : ∀ i, i < w.2 → P (w.1 + i)) : ∀ e, Between w e → P e := fun e he => by
  have h1 := h (e - w.1) (by have := he.2; have := he.1; omega)
  have h2 : w.1 + (e - w.1) = e := by have := he.1; omega
  rwa [h2] at h1

/-- Stretches: two elements of which the first is taken, all sixteen, and the last. -/
def stretches : List (Nat × List (Nat × Nat)) := [(0, [(3, 2)]), (240, [(0, 16)]), (0, [(15, 1)])]

theorem stretch_bound {p : Nat × List (Nat × Nat)} (hp : p ∈ stretches) {i : Nat} (hi : i < (takeLeft p.1 p.2).1.2) :
    ((takeLeft p.1 p.2).1.1 + i) / 16 = 0 ∧ ((takeLeft p.1 p.2).1.1 + i) % 16 < 16 := by
  have h : (takeLeft p.1 p.2).1.1 + (takeLeft p.1 p.2).1.2 ≤ 16 := by
    simp only [stretches, List.mem_cons, List.not_mem_nil, or_false] at hp
    rcases hp with rfl | rfl | rfl <;> decide
  omega

theorem on_pan : (sEng []).holdsBlock 1 0 = true ∧ ((sEng []).part 0).posIx 0 = 0 ∧ ((sEng []).rangeOf 1).1 = 256 := by decide +kernel

theorem dest_zero : scrollDest ((sEng []).part 0) { r := rectAt (rectN 64 64 8), dx := 32, dy := 0, staged := false } 0 = some 0 := by decide +kernel

theorem mem_eng : (sEng []).memOk := by
  show mwf memDefault (sEng []).mem = true
  decide +kernel

theorem dead_at : ∀ o, 320 ≤ o → o < 384 → (sEng []).liveAt 0 o = false := by
  intro o h1 h2
  interval_cases o <;> rfl

theorem scroll_place (b : Bool) (ph : Nat) (left : List (Nat × Nat)) : let s := sScroll (cmdS (scrollD b) ph left)
    (scrollD b).sources[0]? = some 0 ∧ s.holdsBlock 1 0 = true ∧ s.isHole 0 = false ∧ (s.part 0).stgbase = 0x10000 ∧ (s.part 0).posIx 0 = 0 ∧
      (s.rangeOf 1).1 = 256 ∧ (scrollD b).r.off = 64 ∧ (scrollD b).r.len / elemSize (scrollD b).r.fmt = 16 ∧ elemSize (scrollD b).r.fmt = 4 :=
  ⟨by cases b <;> decide +kernel, on_pan.1, rfl, rfl, on_pan.2.1, on_pan.2.2, by cases b <;> decide +kernel,
    by cases b <;> decide +kernel, by cases b <;> decide +kernel⟩

theorem witness_ScrollProgress :
    (∃ s c, State.cmd? s 5 = some c ∧ c.kind = .scroll (scrollD true) ∧ s.scrollRuns c = false) ∧
    (scrollD true).r.len ≤ 2 ^ 19 ∧ (scrollD false).r.len ≤ 2 ^ 19 ∧ spillD.r.len ≤ 2 ^ 19 ∧
    (∀ b : Bool, let c := cmdS (scrollD b) 0 []; (sScroll c).cmd? 5 = some c ∧ (sScroll c).scrollRuns c = true) ∧
    (∀ p ∈ stretches, ∀ b : Bool, let d := scrollD b; let c := cmdS d 1 p.2; let s := sScroll c
      let at_ := fun x e b => (s.part c.part).stgbase.toNat + (s.part c.part).posIx x * 393216 + ((s.rangeOf c.launch).1 + d.r.off + e * 4) + b
      s.cmd? 5 = some c ∧ s.scrollRuns c = true ∧ mwf (0 : Byte) c.staged = true ∧ d.staged = b ∧ (s.part c.part).stgbase ≠ 0 ∧ s.memOk ∧
        elemSize d.r.fmt = 4 ∧ d.r.len / 4 = 16 ∧
        (∀ e, Between (takeLeft p.1 p.2).1 e → ∃ x, d.sources[e / 16]? = some x ∧ s.holdsBlock c.launch x = true ∧ s.isHole x = false ∧
          ∀ b, b < 4 → paExists (at_ x (e % 16) b) = true) ∧
        (∀ e f x y a b, Between (takeLeft p.1 p.2).1 e → Between (takeLeft p.1 p.2).1 f → e ≠ f → d.sources[e / 16]? = some x →
          d.sources[f / 16]? = some y → a < 4 → b < 4 → at_ x (e % 16) a ≠ at_ y (f % 16) b)) ∧
    (∀ p ∈ stretches, ∀ b : Bool, let d := scrollD b; let c := cmdS d 3 p.2; let s := sScroll c
      s.cmd? 5 = some c ∧ s.scrollRuns c = true ∧ d.sources[c.pos]? = some 0 ∧ scrollDest (s.part c.part) d 0 = some 0 ∧
        s.holdsBlock c.launch 0 = true ∧ s.isHole 0 = false ∧ s.storeOk ∧
        ∀ e b, Between (takeLeft p.1 p.2).1 e → b < 4 → s.liveAt 0 (256 + 64 + e * 4 + b) = false) ∧
    (∀ e ∈ [0, 8], let d := spillD; let c := cmdS d 3 [(e, 1)]; let s := sScroll c
      let n := if e + 1 = 9 then 64 - e * 4 else 4
      s.cmd? 5 = some c ∧ s.scrollRuns c = true ∧ d.sources[c.pos]? = some 0 ∧ scrollDest (s.part c.part) d 0 = none ∧ 64 ≤ d.spl ∧
        s.touch c .write false (d.spb + 0 * 64 + e * 4) n = .ok (range (0x7000 + e * 4) n) ∧ (range (0x7000 + e * 4) n).Nodup ∧ s.memOk ∧
        s.offPackage c.part (range (0x7000 + e * 4) n) = false) := by
  refine ⟨⟨{ sCmd (cmdE 1 (.scroll (scrollD true))) [] with groups := [] }, _, rfl, rfl, by decide +kernel⟩, by decide +kernel, by decide +kernel,
    by decide +kernel, fun b => ⟨rfl, by cases b <;> decide +kernel⟩, ?_, ?_, ?_⟩
  · intro p hp b
    obtain ⟨h1, h2, h3, h4, h5, h6, h7, h8, h9⟩ := scroll_place b 1 p.2
    refine ⟨rfl, rfl, rfl, rfl, ?_, ?_, h9, ?_, between_all fun i hi => ⟨0, ?_, h2, h3, ?_⟩, ?_⟩
    · exact h4 ▸ by decide
    · show mwf memDefault (sEng []).mem = true
      decide +kernel
    · rw [← h8, h9]
    · rw [(stretch_bound hp hi).1, h1]
    · intro k hk
      have hb := (stretch_bound hp hi).2
      show paExists (((sScroll (cmdS (scrollD b) 1 p.2)).part 0).stgbase.toNat + _ * 393216 + (((sScroll (cmdS (scrollD b) 1 p.2)).rangeOf 1).1 + _ + _ * 4) + k) = true
      rw [h4, h6, h7]
      have h0 : ((sScroll (cmdS (scrollD b) 1 p.2)).part (cmdS (scrollD b) 1 p.2).part).posIx 0 = 0 := h5
      rw [h0]
      have hx : (0x10000 : Word64).toNat = 0x10000 := rfl
      simp only [paExists, hx]
      have : (0x10000 + 0 * 393216 + (256 + 64 + ((takeLeft p.1 p.2).1.1 + i) % 16 * 4) + k) / 2 ^ 54 = 0 := by omega
      simp only [this, decide_eq_true_eq]
      omega
    · intro e f x y a k he hf hne hx hy ha hk
      have he' : e < 16 := by
        have := between_all (P := fun e => e / 16 = 0) (fun i hi => (stretch_bound hp hi).1) e he
        omega
      have hf' : f < 16 := by
        have := between_all (P := fun e => e / 16 = 0) (fun i hi => (stretch_bound hp hi).1) f hf
        omega
      have ex : x = 0 := by
        have : e / 16 = 0 := by omega
        rw [this, h1] at hx
        exact (Option.some.inj hx).symm
      have ey : y = 0 := by
        have : f / 16 = 0 := by omega
        rw [this, h1] at hy
        exact (Option.some.inj hy).symm
      subst ex
      subst ey
      simp only
      omega
  · intro p hp b
    obtain ⟨h1, h2, h3, h4, h5, h6, h7, h8, h9⟩ := scroll_place b 3 p.2
    refine ⟨rfl, rfl, h1, by cases b <;> exact dest_zero, h2, h3, ?_, ?_⟩
    · show mwf (0 : Byte) (sEng []).lstore = true
      decide +kernel
    · intro e k he hk
      have := between_all (P := fun e => e / 16 = 0) (fun i hi => (stretch_bound hp hi).1) e he
      exact dead_at _ (by omega) (by omega)
  · intro e he
    simp only [List.mem_cons, List.not_mem_nil, or_false] at he
    rcases he with rfl | rfl <;>
      exact ⟨rfl, rfl, by decide +kernel, by decide +kernel, by decide +kernel, by decide +kernel, by decide +kernel, mem_eng, rfl⟩

/-- A copy of one element of BF16, from the pan or to it. -/
def oneCopy (src dst more : Nat) : CopyD := parseCopy 0 (src + dst * 2 ^ 64 + 1 * 2 ^ 128 + 10 * 2 ^ 131 + more + (1 + 4 * 2 ^ 64 + 4 * 2 ^ 128) * 2 ^ 256)
def toPan : CopyD := oneCopy 0x1000 64 (2 ^ 136)
def toMem : CopyD := oneCopy 64 0x1000 (2 ^ 135)
def cmdC (d : CopyD) (x : CDst) : Cmd := { cmdE 0 (.copy d) with dests := [x] }

/-- A copy that a tenant issued, of whose pages none is mapped; and one to an address beyond all pages. -/
def tenantCopy (d : CopyD) : Cmd := { cmdC d { ep := 0, granted := true } with sysA := false }
def beyond : CopyD := oneCopy 64 (2 ^ 56) (2 ^ 135)

/-- An element of a run that is still to be read, or that has been; and the command that has still to move it. -/
def toPanE (got : Option (List Byte)) : Elem := { n := 0, src := .mem 0x1000 [0x1000, 0x1001], dst := .pan 0 320, got := got }
def toMemE (got : Option (List Byte)) : Elem := { n := 0, src := .pan 0 320, dst := .mem 0x1000 [0x1000, 0x1001], got := got }
def cmdM (d : CopyD) (e : Elem) : Cmd := cmdC d { ep := 0, granted := true, left := [e], pos := 1 }
def toMany : CopyD := { toPan with op := 1 }

def planOf (c : Cmd) (d : CopyD) : Run := (sCmd c []).plan d { ep := 0, granted := true } 0 d.count 0 none c.ntok [] c

theorem pick_only (z cut : Nat) (e : Elem) : pickElem z cut [e] = some e := by simp [pickElem, Nat.mod_one]

theorem witness_CopyRuns :
    (∀ d ∈ [toPan, toMem], ∀ q ∈ [0, 3], let x : CDst := { ep := 0, queued := q }
      (sCmd (cmdC d x) []).cmd? 5 = some (cmdC d x) ∧ (sCmd (cmdC d x) []).waits (cmdC d x) = false ∧
        (sCmd (cmdC d x) []).waitsPrev (cmdC d x) = false ∧ d.op ≠ 3 ∧ d.ck ≠ 2 ∧
        (∀ b ∈ (sCmd (cmdC d x) []).blocks, b.saving = false) ∧ (sCmd (cmdC d x) []).parked = [] ∧
        ∃ b, ({ sCmd (cmdC d x) [] with blocks := [b] } : State).blocks = [b] ∧ b.saving = true ∧ b.launch = 1 ∧ b.ep = x.ep) ∧
    toPan.dpan = true ∧ toMem.dpan = false ∧
    (let x : CDst := { ep := 0, queued := 3 }
     let c := cmdC toPan x
     (∀ y ∈ (sCmd c []).cmds, ∀ z ∈ y.dests, AsksAt y z x.ep → x.queued ≤ z.queued) ∧
      let s := sCmd c (List.replicate 8 (cmdC toPan { ep := 0, granted := true }))
      8 ≤ (s.cmds.map fun y => match y.kind with
          | .copy e => if e.dpan then y.dests.countP fun z => z.ep == x.ep && z.granted else 0
          | _ => 0).sum) ∧
    (∀ d ∈ [toPan, toMem], let c := cmdC d { ep := 0, granted := true }
      (sCmd c []).uncorr = [] ∧ d.ck = 0 ∧ (planOf c d).bar = none ∧ (planOf c d).els ≠ [] ∧
        (sCmd c []).offPackage c.part (planOf c d).lists = false) ∧
    ((planOf (tenantCopy toPan) toPan).bar = some (.miss 0x1000 false false)) ∧
    (let c := cmdC beyond { ep := 0, granted := true }
     (planOf c beyond).bar = some .access ∧ (planOf c beyond).els = []) ∧
    (∀ p ∈ [(toPan, toPanE none), (toMem, toMemE none), (toMany, toPanE none)], ∀ cut, let c := cmdM p.1 p.2
      (sCmd c []).cmd? 5 = some c ∧ (sCmd c []).waits c = false ∧ p.1.ck = 0 ∧ p.1.op ≠ 3 ∧ pickElem p.1.z cut [p.2] = some p.2 ∧
        (∃ bytes, ElemBytes (sCmd c []) c p.1 (cut / 1) p.2.src bytes) ∧ ¬ Lost (sCmd c []) c p.2.dst) ∧
    (∀ p ∈ [(toPan, toPanE (some [1, 2])), (toMem, toMemE (some [1, 2]))], ∀ cut, let c := cmdM p.1 p.2
      (sCmd c []).cmd? 5 = some c ∧ (sCmd c []).waits c = false ∧ pickElem p.1.z cut [p.2] = some p.2 ∧ [(1 : Byte), 2].length = p.1.z ∧
        MayLand (sCmd c []) c p.1 p.2.dst) ∧
    (let c := cmdM toPan (toPanE none)
     Lost { sCmd c [] with blocks := [] } c (toPanE none).dst ∧ Lost { sCmd c [] with blocks := [] } c (toMemE none).src ∧
       ({ sCmd c [] with blocks := [] } : State).waits c = false) := by
  have hz : toPan.z = 2 ∧ toMem.z = 2 ∧ toMany.z = 2 ∧ toPan.op = 0 ∧ toMem.op = 0 := by decide +kernel
  refine ⟨?_, by decide +kernel, by decide +kernel, ⟨?_, by decide +kernel⟩, ?_, by decide +kernel,
    ⟨by decide +kernel, by decide +kernel⟩, ?_, ?_, ⟨⟨rfl, rfl⟩, ⟨rfl, rfl⟩, rfl⟩⟩
  · intro d hd q hq
    simp only [List.mem_cons, List.not_mem_nil, or_false] at hd hq
    rcases hd with rfl | rfl <;> rcases hq with rfl | rfl <;>
      exact ⟨rfl, rfl, rfl, by decide +kernel, by decide +kernel, by simp [sCmd, sEng, onPan], rfl,
        { id := 1, launch := 1, patch := 1, ep := 0, part := 0, tenant := 0, stg := 0, restartable := false, alive := 1, saving := true }, rfl, rfl, rfl, rfl⟩
  · intro y hy z hz _
    simp only [sCmd, List.mem_singleton] at hy
    subst hy
    simp only [cmdC, List.mem_singleton] at hz
    subst hz
    exact Nat.le_refl _
  · intro d hd
    simp only [List.mem_cons, List.not_mem_nil, or_false] at hd
    rcases hd with rfl | rfl <;> exact ⟨rfl, by decide +kernel, by decide +kernel, by decide +kernel, by decide +kernel⟩
  · intro p hp cut
    simp only [List.mem_cons, List.not_mem_nil, or_false] at hp
    rcases hp with rfl | rfl | rfl
    · exact ⟨rfl, rfl, by decide +kernel, by decide +kernel, pick_only _ _ _, ⟨_, hz.1.symm, by decide +kernel, rfl⟩, fun h => absurd h.1 (by decide +kernel)⟩
    · exact ⟨rfl, rfl, by decide +kernel, by decide +kernel, pick_only _ _ _, ⟨_, rfl, on_pan.1, rfl⟩, fun h => h⟩
    · exact ⟨rfl, rfl, by decide +kernel, by decide +kernel, pick_only _ _ _, ⟨_, hz.2.2.1.symm, by decide +kernel, rfl⟩,
        fun h => absurd h.1 (by decide +kernel)⟩
  · intro p hp cut
    simp only [List.mem_cons, List.not_mem_nil, or_false] at hp
    rcases hp with rfl | rfl
    · refine ⟨rfl, rfl, pick_only _ _ _, hz.1.symm, rfl, on_pan.1, ?_, fun o h1 h2 => dead_at o (by omega) (by rw [hz.1] at h2; omega)⟩
      show mwf (0 : Byte) (sEng []).lstore = true
      decide +kernel
    · exact ⟨rfl, rfl, pick_only _ _ _, hz.2.1.symm, hz.2.1.symm, by decide, mem_eng, by decide +kernel⟩

theorem witness_EngineCompletions :
    (∃ s c, State.cmd? s 5 = some c ∧ c.status = 0) ∧
    (∀ o ∈ [Compl.none, .barrier { ep := 0, off := 272 }], let c := { cmdE 2 (.azero 0) with status := 1, compl := o }
      (sCmd c []).cmd? 5 = some c ∧ (sCmd c []).waits c = false ∧ (∀ g ∈ (sCmd c []).groups, g.scroll.cmd ≠ some 5) ∧
      ∃ l, (sCmd c []).launch? 1 = some l ∧ l.finished = [] ∧ mget 0 l.done (2 * 4096 + 0) + 1 = 1) ∧
    (let o : Obj := { ep := 0, off := 272 }
     let s : State := { sCmd { cmdE 2 (.azero 0) with status := 1, compl := .barrier o } [] with lstore := filled [(272, 8, 2 * 2 ^ 20)] }
     s.objLive o = true ∧ s.storeOk ∧ s.mayRelease .part [] = true ∧ s.mayUpdate o 2 0 (barArrive 1) = true) ∧
    (let r : ChainRef := { chain := 0, entry := 0x4000, irq := true, wprv := true, done := true }
     let c := { cmdE 4 (.azero 0) with status := 1, chain := some r, seq := 2 }
     (sCmd c []).cmd? 5 = some c ∧ (sCmd c [{ c with id := 4, seq := 1 }]).waitsPrev c = true) ∧
    (let r : ChainRef := { chain := 0, entry := 0x4000, irq := true, wprv := true, done := true }
     let c := { cmdE 4 (.azero 0) with status := 1, chain := some r }
     let pas := (List.range 32).map (0x4000 + ·)
     (sCmd c []).cmd? 5 = some c ∧ r.wrote = false ∧ (sCmd c []).waits c = false ∧ ((sCmd c []).part c.part).lockstep = false ∧
      (sCmd c []).touch c .write false r.entry 32 = .ok pas ∧ pas.Nodup ∧ (sCmd c []).memOk ∧ c.sts < 128 ∧
      ∀ x ∈ (sCmd c []).cmds, x.id ≠ 5 → x.chain = none) := by
  refine ⟨⟨sCmd (cmdE 2 (.azero 0)) [], cmdE 2 (.azero 0), rfl, rfl⟩, ?_, ⟨rfl, ?_, rfl, by decide +kernel⟩, ⟨rfl, by decide +kernel⟩, ?_⟩
  · intro o ho
    exact ⟨rfl, rfl, by simp [sCmd, sEng, onPan, stored_, one, gEng, grp], _, rfl, rfl, rfl⟩
  · show mwf (0 : Byte) (filled [(272, 8, 2 * 2 ^ 20)]) = true
    decide +kernel
  · refine ⟨rfl, rfl, rfl, rfl, by decide +kernel, by decide +kernel, mem_eng, by decide, ?_⟩
    intro x hx h
    simp only [sCmd, List.mem_singleton] at hx
    subst hx
    exact absurd rfl h

/-- An array whose queue holds command 5 of its owner. -/
def sArr (c : Cmd) (st : AccSt) : State := { sCmd c [] with arrays := [(0, { owner := some 1, queue := [5], st := st })] }

/-- An array command in one of its phases. -/
def cmdA (k : CmdKind) (ph : Nat) (left : List (Nat × Nat)) (outb : List Byte) : Cmd := { cmdE 2 k with phase := ph, left := left, outb := outb }
def someRect : Rect := rectAt (rectN 64 32 8)
def mmaRect : Rect := rectAt (rectN 0 512 10)
def someDrain : CmdKind := .adrain true false false 7 someRect none 255 8

theorem array_zero (c : Cmd) (st : AccSt) : (sArr c st).arrayOf 0 = 0 := by
  show (sEng []).arrayOf 0 = 0
  decide +kernel

/-- Command 5 of EP 0 on its array. -/
def Ours (c : Cmd) : Prop := c.id = 5 ∧ c.launch = 1 ∧ c.ep = 0 ∧ c.status = 0 ∧ c.held = none ∧ c.chain = none

theorem runs_next {c : Cmd} {st : AccSt} (h : Ours c) (hk : c.kind.isArr = true) : RunsNext (sArr c st) 0 c := by
  obtain ⟨h1, h2, h3, h4, h5, h6⟩ := h
  have hq : (sArr c st).cmd? 5 = some c := by simp [sArr, sCmd, State.cmd?, findKey, h1]
  refine ⟨?_, h3 ▸ array_zero c st, by rw [h2]; rfl, h4, ?_, rfl, hk, ?_⟩
  · have : (sArr c st).nextArr 0 = ([5].filterMap (sArr c st).cmd?).find? fun x => x.launch == 1 := rfl
    rw [this]
    simp [hq, h2]
  · simp only [State.waits, h5]
    rfl
  · simp only [State.waitsPrev, h6]

/-- Element i of a rectangle at position 0. -/
abbrev At0 (r : Rect) : Prop := r.x = 0 ∧ r.y = 0 ∧ r.w = 1 ∧ r.h = 1

theorem place_at {c : Cmd} {st : AccSt} {r : Rect} (hc : c.launch = 1) (hr : At0 r) {i : Nat} (hi : i < r.len / elemSize r.fmt) :
    placeOf (sArr c st) c r i = (0, 256 + r.off + i * elemSize r.fmt) := by
  have h : ((sArr c st).rangeOf c.launch).1 = 256 := by rw [hc]; exact on_pan.2.2
  obtain ⟨h1, h2, h3, -⟩ := hr
  simp only [placeOf, h, h1, h2, h3, Nat.mod_one, Nat.div_one, Nat.div_eq_of_lt hi, Nat.mod_eq_of_lt hi, Nat.add_zero, Nat.zero_mul]

theorem key_at {c : Cmd} {st : AccSt} {r : Rect} (hc : c.launch = 1) (hr : At0 r) {i : Nat} (hi : i < r.len / elemSize r.fmt) :
    placeKey (sArr c st) c r i = 256 + r.off + i * elemSize r.fmt := by
  simp only [placeKey, place_at hc hr hi, storeAt, Nat.zero_mul, Nat.zero_add]

theorem standing_at {c : Cmd} {st : AccSt} {r : Rect} (hc : c.launch = 1) (hr : At0 r) {i : Nat} (hi : i < r.len / elemSize r.fmt) :
    Standing (sArr c st) c r i := by
  have hp := place_at (st := st) hc hr hi
  refine ⟨by rw [hr.2.2.1, hr.2.2.2]; omega, ?_, by rw [hp]; rfl⟩
  rw [hp, hc]
  exact on_pan.1

theorem present_at {c : Cmd} {st : AccSt} {r : Rect} (hc : c.launch = 1) (hr : At0 r) {w : Nat × Nat} (hw : w.1 + w.2 ≤ r.len / elemSize r.fmt) :
    Present (sArr c st) c r w ∧ Apart (sArr c st) c r w := by
  have hb : ∀ i, Between w i → i < r.len / elemSize r.fmt := fun i hi => Nat.lt_of_lt_of_le hi.2 hw
  refine ⟨fun i hi => standing_at hc hr (hb i hi), fun i j hi hj hne => ?_⟩
  rw [key_at hc hr (hb i hi), key_at hc hr (hb j hj)]
  rcases Nat.lt_or_gt_of_ne hne with h | h
  · have : (i + 1) * elemSize r.fmt ≤ j * elemSize r.fmt := Nat.mul_le_mul_right _ h
    have : (i + 1) * elemSize r.fmt = i * elemSize r.fmt + elemSize r.fmt := Nat.succ_mul _ _
    omega
  · have : (j + 1) * elemSize r.fmt ≤ i * elemSize r.fmt := Nat.mul_le_mul_right _ h
    have : (j + 1) * elemSize r.fmt = j * elemSize r.fmt + elemSize r.fmt := Nat.succ_mul _ _
    omega

theorem store_eng : mwf (0 : Byte) (sEng []).lstore = true := by decide +kernel

theorem witness_ArrayCommandsExecute :
    (∀ k ∈ [CmdKind.azero 7, .wload .bf16 0 64 32 1 true, .mma .bf16 7 mmaRect 255, someDrain], ∀ ph left outb st,
      RunsNext (sArr (cmdA k ph left outb) st) 0 (cmdA k ph left outb) ∧ (cmdA k ph left outb).cancelled = false ∧
        ∀ q o ring cont sc kvh b n np pg e a, (cmdA k ph left outb).kind ≠ .atile q o ring cont sc kvh b n np pg e a) ∧
    (∀ st, let c := { cmdE 2 (.azero 0) with cancelled := true }; RunsNext (sArr c st) 0 c ∧ c.cancelled = true) ∧
    (∀ st, let c := cmdA (.mma .bf16 7 mmaRect 255) 1 [(255, 1)] []
      ∀ i, Between (takeLeft 0 c.left).1 i → ∃ r k, elemOfAll (operands c.kind) i = some (r, k) ∧ Standing (sArr c st) c r k) ∧
    (let st : AccSt := { active := { valid := true, k := 256, n := 1024 } }
     st.standbyFresh = false ∧ st.active.valid = true ∧ mwf (0 : Word32) st.acc = true) ∧
    (∀ p ∈ [(0, [(7, 1)]), (56, [(0, 8)])], ∀ st, let c := cmdA someDrain 3 p.2 (List.replicate 32 5); let s := sArr c st
      c.kind.writes = some someRect ∧ Present s c someRect (takeLeft p.1 c.left).1 ∧ s.storeOk ∧ Apart s c someRect (takeLeft p.1 c.left).1 ∧
      ∀ i k, Between (takeLeft p.1 c.left).1 i → k < elemSize someRect.fmt → c.outb[i * elemSize someRect.fmt + k]? = some 5) := by
  refine ⟨?_, fun st => ⟨runs_next ⟨rfl, rfl, rfl, rfl, rfl, rfl⟩ rfl, rfl⟩, ?_, ⟨rfl, rfl, rfl⟩, ?_⟩
  · intro k hk ph left outb st
    simp only [List.mem_cons, List.not_mem_nil, or_false] at hk
    rcases hk with rfl | rfl | rfl | rfl <;> exact ⟨runs_next ⟨rfl, rfl, rfl, rfl, rfl, rfl⟩ rfl, rfl, nofun⟩
  · intro st c i hi
    have : i = 255 := by
      have h : (takeLeft 0 [(255, 1)]).1 = (255, 1) := by decide
      have h1 : (takeLeft 0 [(255, 1)]).1.1 ≤ i := hi.1
      have h2 : i < (takeLeft 0 [(255, 1)]).1.1 + (takeLeft 0 [(255, 1)]).1.2 := hi.2
      rw [h] at h1 h2
      omega
    subst this
    exact ⟨mmaRect, 255, by decide +kernel, standing_at rfl (by decide +kernel) (by decide +kernel)⟩
  · intro p hp st
    have hr : At0 someRect ∧ elemSize someRect.fmt = 4 ∧ someRect.len / 4 = 8 := by decide +kernel
    have hw : (takeLeft p.1 p.2).1.1 + (takeLeft p.1 p.2).1.2 ≤ 8 := by
      simp only [List.mem_cons, List.not_mem_nil, or_false] at hp
      rcases hp with rfl | rfl <;> decide
    have hp := present_at (c := cmdA someDrain 3 p.2 (List.replicate 32 5)) (st := st) rfl hr.1 (w := (takeLeft p.1 p.2).1) (by rw [hr.2.1, hr.2.2]; exact hw)
    refine ⟨rfl, hp.1, store_eng, hp.2, fun i k hi hk => ?_⟩
    rw [hr.2.1] at hk ⊢
    have := hi.2
    exact List.getElem?_replicate_of_lt (by simp only [cmdA] at this; omega)

/-! `ALOAD` and `ADRAIN`. -/

theorem total_zero (n : Nat) : total (fun _ => f32 0) (n + 1) = f32 0 := by
  show (List.range n).foldl (fun t _ => Ext.add false t (f32 0)) (f32 0) = f32 0
  induction List.range n with
  | nil => rfl
  | cons a l ih =>
    have h : Ext.add false (f32 0) (f32 0) = f32 0 := by decide
    rw [List.foldl_cons, h]
    exact ih

/-- Accumulators of zeros, with checksums of 1.0 in some rows and columns of bank 7. -/
def sums (rows cols : List Nat) : AccSt :=
  { c := rows.foldl (fun m r => mset 0 m (7 * 256 + r) 0x3F800000#32) [], d := cols.foldl (fun m j => mset 0 m (7 * 4096 + j) 0x3F800000#32) [] }

theorem width_at (c : Cmd) (st : AccSt) : (sArr c st).widthAt 0 = 1024 := by
  show (sEng []).widthAt 0 = 1024
  decide +kernel

theorem bad_rows (c : Cmd) (rows cols : List Nat) : badRows (sArr c (sums rows cols)) 0 1024 7 =
    (List.range 256).filter fun r => differs (f32 0x37800000#32) (f32 0x00800000#32) (f32 0) (f32 (mget 0 (sums rows cols).c (7 * 256 + r))) (f32 0) := by
  refine List.filter_congr fun r _ => ?_
  have h : total (valAt (accs (sArr c (sums rows cols)) 0) 7 r) 1024 = f32 0 := total_zero 1023
  rw [h]
  rfl

theorem bad_columns (c : Cmd) (rows cols : List Nat) : badColumns (sArr c (sums rows cols)) 0 1024 7 =
    (List.range 1024).filter fun j => differs (f32 0x37800000#32) (f32 0x00800000#32) (f32 0) (f32 (mget 0 (sums rows cols).d (7 * 4096 + j))) (f32 0) := by
  refine List.filter_congr fun j _ => ?_
  have h : total (fun r => valAt (accs (sArr c (sums rows cols)) 0) 7 r j) 256 = f32 0 := total_zero 255
  rw [h]
  rfl

/-- A drain of bank 7, from one row, without a scale vector or with one of eight scales; it has read what `rest` does not hold. -/
def drainOf (nochk : Bool) (sv : Option Nat) : CmdKind := .adrain nochk false false 7 someRect sv 255 8
def scaling (rest left : List (Nat × Nat)) : Cmd := { cmdA (drainOf true (some 128)) 4 left [] with rest := rest }
def loadOf : Cmd := { cmdA (.aload true 7 someRect 255 6) 2 [] [] with got := [(0, List.replicate 32 1)] }

theorem witness_LoadsAndDrains :
    (∀ st, RunsNext (sArr loadOf st) 0 loadOf ∧ loadOf.cancelled = false) ∧ Formed {} ∧ 7 < 8 ∧ 6 ≤ 4096 ∧
    (loadOf.rows 0 (4 * rowWords 6 true)).length = 1 ∧
    (∀ nochk sv rest left st, let c := { cmdA (drainOf nochk sv) 2 left [] with rest := rest }; RunsNext (sArr c st) 0 c) ∧
    (someRect.fmt = 8 ∧ 0 < 8 ∧ 0 < someRect.w * someRect.h * (someRect.len / (4 * rowWords 8 false))) ∧
    (let s := fun rows cols => sArr (cmdA (drainOf false none) 2 [] []) (sums rows cols)
     (s [] []).widthAt 0 = 1024 ∧ badRows (s [] []) 0 1024 7 = [] ∧ badColumns (s [] []) 0 1024 7 = [] ∧
       badRows (s [255] [1023]) 0 1024 7 = [255] ∧ badColumns (s [255] [1023]) 0 1024 7 = [1023] ∧
       (f32 (mget 0 (accs (s [255] [1023]) 0).d (7 * 4096 + 1023))).isFinite = true ∧
       (∀ k, k < 255 → (valAt (accs (s [255] [1023]) 0) 7 (if k < 255 then k else k + 1) 1023).isFinite = true) ∧
       badRows (s [0, 1] []) 0 1024 7 = [0, 1] ∧ (accs (s [255] [1023]) 0).unchecked.getLsbD 7 = false ∧
       ({ unchecked := 128 } : AccSt).unchecked.getLsbD 7 = true ∧ mwf (0 : Word32) (s [255] [1023]).ckfix = true) ∧
    (∀ st, let c := scaling [(0, 8)] [(0, 8)]
      RunsNext (sArr c st) 0 c ∧ MixedReads c (scalesAt c 128 8) ∧ c.rest ≠ [] ∧ Present (sArr c st) c (scalesAt c 128 8) (takeLeft (112 / 2) c.rest).1) ∧
    (∃ i, Between (takeLeft (113 / 2) [(0, 8)]).1 i ∧ i % 8 < 8 ∧ Unread [(0, 8)] (i % 8)) ∧
    (∀ st, let c := scaling [(0, 4)] [(4, 4)]; let w := (takeLeft (25 / 2) c.left).1
      RunsNext (sArr c st) 0 c ∧ (∀ i, Between w i → i % 8 < 8 → ¬ Unread c.rest (i % 8)) ∧ someRect.len % (4 * rowWords 8 false) = 0 ∧
        Present (sArr c st) c someRect w ∧ (sArr c st).storeOk ∧ Apart (sArr c st) c someRect w) := by
  refine ⟨fun st => ⟨runs_next ⟨rfl, rfl, rfl, rfl, rfl, rfl⟩ rfl, rfl⟩, ⟨rfl, rfl, rfl, rfl, rfl, rfl, rfl⟩, by decide, by decide, by decide +kernel,
    fun _ _ _ _ _ => runs_next ⟨rfl, rfl, rfl, rfl, rfl, rfl⟩ rfl, by decide +kernel,
    ⟨width_at _ _, ?_, ?_, ?_, ?_, by decide +kernel, fun k _ => (by decide : (f32 0).isFinite = true), ?_, rfl, by decide, rfl⟩, ?_, ?_, ?_⟩
  · rw [bad_rows]
    decide +kernel
  · rw [bad_columns]
    decide +kernel
  · rw [bad_rows]
    decide +kernel
  · rw [bad_columns]
    decide +kernel
  · rw [bad_rows]
    decide +kernel
  · intro st
    refine ⟨runs_next ⟨rfl, rfl, rfl, rfl, rfl, rfl⟩ rfl, .inl ⟨_, _, _, _, _, _, _, _, rfl, rfl⟩, by decide, ?_⟩
    exact (present_at (st := st) rfl (by decide +kernel) (by decide +kernel)).1
  · exact ⟨0, ⟨by decide, by decide⟩, by decide, (0, 8), .head _, by decide, by decide⟩
  · intro st
    have hw : (takeLeft (25 / 2) [(4, 4)]).1 = (4, 4) := by decide +kernel
    have hp := present_at (c := scaling [(0, 4)] [(4, 4)]) (st := st) (r := someRect) rfl (by decide +kernel) (w := (takeLeft (25 / 2) [(4, 4)]).1) (by decide +kernel)
    refine ⟨runs_next ⟨rfl, rfl, rfl, rfl, rfl, rfl⟩ rfl, ?_, by decide +kernel, hp.1, store_eng, hp.2⟩
    rintro i hi - ⟨x, hx, h⟩
    obtain rfl : x = (0, 4) := List.mem_singleton.mp hx
    have h1 : (takeLeft (25 / 2) [(4, 4)]).1.1 ≤ i := hi.1
    have h2 : i < (takeLeft (25 / 2) [(4, 4)]).1.1 + (takeLeft (25 / 2) [(4, 4)]).1.2 := hi.2
    have h3 : i % 8 < 0 + 4 := h.2
    rw [hw] at h1 h2
    simp only at h1 h2
    omega

/-! The correcting mode, and attention. -/

/-- One key of four elements with its step, and T's one element. -/
def keyRect : Rect := rectAt (rectN 64 8 10)
def tRect : Rect := rectAt (rectN 128 4 8)
def deltaOf (ck : Bool) (shb : Option Nat) : CmdKind := .delta ck 7 [0x3F800000#32] keyRect tRect tRect 0x40000000#32 shb 1 4 1
def tsolveOf : CmdKind := .tsolve keyRect tRect [0x3F800000#32] 1 4
def solving (rest : List (Nat × Nat)) : Cmd := { cmdA tsolveOf 4 [(0, 1)] [] with rest := rest }

theorem witness_CorrectingCommandsExecute :
    (∀ ck, ∀ shb ∈ [none, some 0], ∀ st, let c := { cmdA (deltaOf ck shb) 2 [] [] with got := [(0, List.replicate 16 1)] }
      RunsNext (sArr c st) 0 c ∧ c.cancelled = false ∧ 7 < 8 ∧ (∀ h, shb = some h → h < 8 ∧ h ≠ 7) ∧ 4 ≤ 256 ∧ 1 ≤ 4096 ∧
        c.pos < (c.elemRows 0 10 4).length) ∧
    mwf (0 : Word32) (accs (sArr (cmdE 2 tsolveOf) {}) 0).acc = true ∧
    (∀ rest left st, let c := { cmdA tsolveOf 2 left [] with rest := rest }; RunsNext (sArr c st) 0 c ∧ c.cancelled = false) ∧
    (∃ i k, Between (takeLeft (1 / 2) (solving [(3, 1)]).left).1 i ∧ k < (i / 1 + 1) * 4 ∧ Unread (solving [(3, 1)]).rest k) ∧
    (∀ st, let c := solving []; let w := (takeLeft (1 / 2) c.left).1
      RunsNext (sArr c st) 0 c ∧ (∀ i, Between w i → ∀ x ∈ c.rest, (i / 1 + 1) * 4 ≤ x.1) ∧ keyRect.fmt = 10 ∧ tRect.fmt = 8 ∧
        keyRect.len % (2 * 4) = 0 ∧ keyRect.w * keyRect.h * keyRect.len = 2 * 4 * 1 ∧ tRect.w * tRect.h * (tRect.len / 4) = 1 * 1 ∧
        [0x3F800000#32].length = 1 ∧ Present (sArr c st) c tRect w ∧ (sArr c st).storeOk ∧ Apart (sArr c st) c tRect w) := by
  refine ⟨?_, rfl, fun _ _ _ => ⟨runs_next ⟨rfl, rfl, rfl, rfl, rfl, rfl⟩ rfl, rfl⟩,
    ⟨0, 3, ⟨by decide, by decide⟩, by decide, (3, 1), .head _, by decide, by decide⟩, fun st => ?_⟩
  · intro ck shb hs st
    simp only [List.mem_cons, List.not_mem_nil, or_false] at hs
    rcases hs with rfl | rfl <;> refine ⟨runs_next ⟨rfl, rfl, rfl, rfl, rfl, rfl⟩ rfl, rfl, by decide, ?_, by decide, by decide,
      by cases ck <;> decide +kernel⟩
    · exact nofun
    · rintro h ⟨⟩
      decide
  · have hp := present_at (c := solving []) (st := st) (r := tRect) rfl (by decide +kernel) (w := (takeLeft (1 / 2) (solving []).left).1) (by decide +kernel)
    exact ⟨runs_next ⟨rfl, rfl, rfl, rfl, rfl, rfl⟩ rfl, fun _ _ _ h => absurd h List.not_mem_nil, by decide +kernel, by decide +kernel, by decide +kernel,
      by decide +kernel, by decide +kernel, rfl, hp.1, store_eng, hp.2⟩

/-- The bytes of an entry that are not zero: LEN, one extent, PST, its tags at 0x7000, its multiplicities at 0x7100, and four pages at 0x20000. -/
def entryAt (a : Nat) (len0 len3 pst : Byte) : List (Nat × Byte) :=
  (if len0 = 0 then [] else [(a, len0)]) ++ [(a + 3, len3)] ++ (if pst = 0 then [] else [(a + 4, pst * 64)]) ++
    [(a + 9, 0x70), (a + 49, 0x71), (a + 66, 2), (a + 72, 4), (a + 76, 1)]

/-- The entry as it is parsed; also with a length at its bound, parked, or with a reserved bit set. -/
def entryLit : Entry :=
  { mula := 0x7100, witm := 0, pkt := 0, ag2 := 0, ag1 := 0, wkey := 0, taga := 0x7000, pst := 0, nkvh := 1, len := 4, exts := [(0x20000, 4, 1)], fault := none }
def fullLit : Entry := { entryLit with len := 2 ^ 24 }
def parkedLit : Entry := { entryLit with pst := 1 }
def badLit : Entry := { entryLit with mula := 0, taga := 0, len := 0, exts := [], fault := some 0x31 }

/-- What the entry's bytes are worth. -/
def worth (len pst : Nat) : Nat :=
  len + 2 ^ 25 + pst * 2 ^ 38 + 0x7000 * 2 ^ 64 + 0x7100 * 2 ^ 384 + (0x20000 + 4 * 2 ^ 64 + 2 ^ 96) * 2 ^ 512

theorem parse_lit {bs : List Byte} :
    (valueLE bs = worth 4 0 → parseEntry bs = entryLit) ∧ (valueLE bs = worth (2 ^ 24) 0 → parseEntry bs = fullLit) ∧
    (valueLE bs = worth 4 1 → parseEntry bs = parkedLit) ∧ (valueLE bs = 2 ^ 40 → parseEntry bs = badLit) := by
  refine ⟨fun h => ?_, fun h => ?_, fun h => ?_, fun h => ?_⟩ <;> unfold parseEntry <;> rw [h] <;> decide +kernel

theorem entry_lit : parseEntry (kept (entryAt 0 4 2 0) 0 320) = entryLit := parse_lit.1 (by decide +kernel)

def tileOn (cont : Bool) (scale : Word32) : CmdKind := .atile (rectAt (rectN 0 256 10)) (rectAt (rectN 64 520 8)) { ep := 0, off := 272 } cont scale 0 7 1 1 0 0x5000 [3]
def tile (ph pos ntok : Nat) (scale : Word32) : Cmd :=
  { cmdA (tileOn false scale) ph [] [] with pos := pos, ntok := ntok, got := [(0, List.replicate 256 0)], staged := entryAt 0 4 2 0, lim := 4 }

/-- The state of the tile's array, with the entry in memory, or one with a reserved bit, and its ring, which may be full. -/
def sTile (c : Cmd) (full bad : Bool) (tag : List (Nat × Byte)) : State :=
  { sArr c {} with
    mem := (if bad then [(0x5005, 1)] else entryAt 0x5000 4 2 0) ++ tag
    lstore := (272, 8) :: if full then [(281, 16)] else [] }

theorem exists_low {a n : Nat} (h : a + n ≤ 2 ^ 38) : Exists a n := by
  intro i hi
  have h1 : (a + i) / 2 ^ 54 = 0 := by omega
  simp only [paExists, h1, decide_eq_true_eq]
  omega

theorem plain_tile {c : Cmd} (hc : c.sysA = true ∧ c.part = 0) (full bad : Bool) {tag : List (Nat × Byte)} (ht : tag ∈ [[], [(0x7000, 1)]]) : Plain (sTile c full bad tag) c := by
  refine ⟨hc.1, rfl, rfl, rfl, by rw [hc.2]; rfl, ?_⟩
  show mwf memDefault (sTile (cmdE 2 (.azero 0)) full bad tag).mem = true
  simp only [List.mem_cons, List.not_mem_nil, or_false] at ht
  rcases ht with rfl | rfl <;> cases full <;> cases bad <;> decide +kernel

def mergeOf : Cmd := { cmdA (.amerge 7 (rectAt (rectN 0 520 8)) 255) 2 [] [] with got := [(0, List.replicate 520 1)] }

theorem witness_AttentionCommandsExecute :
    (∀ st, RunsNext (sArr mergeOf st) 0 mergeOf ∧ mergeOf.cancelled = false) ∧ (mergeOf.rows 0 520).length = 1 ∧ Formed {} ∧ 7 < 8 ∧
    (∀ ph pos ntok scale full bad tag, RunsNext (sTile (tile ph pos ntok scale) full bad tag) 0 (tile ph pos ntok scale)) ∧
    (let c := tile 0 0 0 0
     let s := { sTile c false false [] with cmds := [c, { cmdE 3 (.park 0x5000 8) with id := 3 }] }
     RunsNext s 0 c ∧ ∃ x ∈ s.cmds, x.id ∈ [3]) ∧
    (∀ bad, let c := tile 0 0 0 0; let s := sTile c false bad []
      (∀ x ∈ s.cmds, x.id ∉ [3]) ∧ s.appending c 0x5000 = false ∧ Plain s c ∧ Exists 0x5000 320) ∧
    (let s := fun bad => sTile (tile 0 0 0 0) false bad []
     let e := fun bad => parseEntry (memAt (s bad) 0x5000 320)
     (∃ k, (e true).fault = some k) ∧ (e false).fault = none ∧ 0 < (e false).nkvh ∧
       ((e false).page ((0 + 1 - 1) * (e false).nkvh + 0)).isSome = true) ∧
    (∀ full, ∀ tag ∈ [[], [(0x7000, (1 : Byte))]], ∀ pin, let c := { tile 2 1 0 0 with pin := pin }; let s := sTile c full false tag; let e := parseEntry (kept c.staged 0 320)
      RunsNext s 0 c ∧ c.ntok < 256 ∧ 0 < c.pos ∧ c.pos ≤ 1 ∧ Plain s c ∧ e.page ((0 + c.pos - 1) * e.nkvh + 0) = some 0x20000 ∧ e.taga = 0x7000 ∧
        e.mula = 0x7100 ∧ Exists (e.taga + 0 / 4) 1 ∧ Exists (e.mula + 0 * 128) 128 ∧ Exists 0x20000 65536 ∧ mwf (0 : Byte) c.staged = true ∧
        tagIn s e 0 = tag.length ∧ s.ringRoom { ep := 0, off := 272 } = !full) ∧
    (∀ scale ∈ [0#32, 0x7FC00000#32], let c := tile 2 2 1 scale
      (256 ≤ c.ntok ∨ (1 < c.pos ∧ c.ntok ≠ 0)) ∧ 1 ≤ (c.elemRows 0 (rectAt (rectN 0 256 10)).fmt 128).length ∧
        (r32 (Ext.fma false (sum16 (fun d => Ext.mul (((c.elemRows 0 (rectAt (rectN 0 256 10)).fmt 128).getD 0 []).getD d Ext.zero)
          ((tokAt c.staged 0).key.getD d Ext.zero)) 128 Ext.zero) (f32 scale) (tokAt c.staged 0).lnm)).isNan = (scale == 0x7FC00000#32)) ∧
    (∃ c, RunsNext (sTile c true false []) 0 c ∧ c = { tile 2 2 1 0 with nanSeen := true }) ∧
    (let c := tile 2 2 0 0
     1 < c.pos ∧ c.ntok = 0 ∧ (rectAt (rectN 64 520 8)).fmt = 8 ∧ maxAt (accs (sTile c false false []) 0) 7 0 = 0xFF800000#32) := by
  have hrun : ∀ c : Cmd, Ours c → c.kind.isArr = true → ∀ full bad tag, RunsNext (sTile c full bad tag) 0 c := fun c h1 h2 full bad tag => by
    obtain ⟨a1, a2, a3, a4, a5, a6, a7, a8⟩ := runs_next (st := {}) h1 h2
    exact ⟨a1, a2, a3, a4, a5, a6, a7, a8⟩
  refine ⟨fun st => ⟨runs_next ⟨rfl, rfl, rfl, rfl, rfl, rfl⟩ rfl, rfl⟩, by decide +kernel, ⟨rfl, rfl, rfl, rfl, rfl, rfl, rfl⟩, by decide,
    fun _ _ _ _ _ _ _ => hrun _ ⟨rfl, rfl, rfl, rfl, rfl, rfl⟩ rfl _ _ _, ⟨?_, { cmdE 3 (.park 0x5000 8) with id := 3 }, .tail _ (.head _), by decide⟩, ?_, ?_, ?_, ?_,
    ⟨_, hrun _ ⟨rfl, rfl, rfl, rfl, rfl, rfl⟩ rfl _ _ _, rfl⟩, ⟨by decide, rfl, by decide +kernel, rfl⟩⟩
  · obtain ⟨a1, a2, a3, a4, a5, a6, a7, a8⟩ := hrun (tile 0 0 0 0) ⟨rfl, rfl, rfl, rfl, rfl, rfl⟩ rfl false false []
    exact ⟨rfl, a2, a3, a4, rfl, a6, a7, rfl⟩
  · intro bad
    refine ⟨?_, rfl, plain_tile ⟨rfl, rfl⟩ _ _ (by decide), exists_low (by decide)⟩
    intro x hx
    obtain rfl : x = _ := List.mem_singleton.mp hx
    decide
  · have h1 : parseEntry (memAt (sTile (tile 0 0 0 0) false false []) 0x5000 320) = entryLit := parse_lit.1 (by decide +kernel)
    have h2 : parseEntry (memAt (sTile (tile 0 0 0 0) false true []) 0x5000 320) = badLit := parse_lit.2.2.2 (by decide +kernel)
    simp only [h1, h2]
    exact ⟨⟨_, rfl⟩, by decide +kernel, by decide +kernel, by decide +kernel⟩
  · intro full tag ht pin
    have h : let e := parseEntry (kept (entryAt 0 4 2 0) 0 320)
        e.page ((0 + 1 - 1) * e.nkvh + 0) = some 0x20000 ∧ e.taga = 0x7000 ∧ e.mula = 0x7100 := by
      simp only [entry_lit]
      decide +kernel
    have h1 : Exists ((parseEntry (kept (entryAt 0 4 2 0) 0 320)).taga + 0 / 4) 1 := exists_low (by rw [h.2.1]; decide)
    have h2 : Exists ((parseEntry (kept (entryAt 0 4 2 0) 0 320)).mula + 0 * 128) 128 := exists_low (by rw [h.2.2]; decide)
    have h3 : ∀ tag ∈ [[], [(0x7000, (1 : Byte))]], ∀ full, tagIn (sTile (tile 2 1 0 0) full false tag) (parseEntry (kept (entryAt 0 4 2 0) 0 320)) 0 = tag.length ∧
        (sTile (tile 2 1 0 0) full false tag).ringRoom { ep := 0, off := 272 } = !full := by
      rw [entry_lit]
      decide +kernel
    have h4 : mwf (0 : Byte) (tile 2 1 0 0).staged = true := by decide +kernel
    exact ⟨hrun _ ⟨rfl, rfl, rfl, rfl, rfl, rfl⟩ rfl _ _ _, (by decide : 0 < 256), Nat.one_pos, Nat.le_refl 1, plain_tile ⟨rfl, rfl⟩ _ _ ht, h.1, h.2.1, h.2.2, h1, h2,
      exists_low (by decide), h4, (h3 tag ht full).1, (h3 tag ht full).2⟩
  · intro scale hs
    simp only [List.mem_cons, List.not_mem_nil, or_false] at hs
    rcases hs with rfl | rfl <;> exact ⟨.inr ⟨by decide, by decide⟩, by decide +kernel, by decide +kernel⟩

/-! Cache commands. -/

/-- A command of the cache's owner, part-way through it, with what it keeps of its entry; it appends where its tenant's `LEN` is 4. -/
def cmdK (k : CmdKind) (pos lim : Nat) (left rest : List (Nat × Nat)) : Cmd :=
  { cmdE 3 k with pos := pos, lim := lim, left := left, rest := rest, staged := entryAt 0 4 2 0 }

/-- Its state: the entry in memory, one tag and the multiplicity of its first slot, and page tables with the leaf of its first page. -/
def sCache (c : Cmd) (e tag : List (Nat × Byte)) : State :=
  { sCmd c [] with
    mem := e ++ tag ++ [(0x7100, 1), (0x100000, 3), (0x100001, 16), (0x100002, 16), (0x101000, 3), (0x101001, 32), (0x101002, 16), (0x102000, 3),
      (0x102001, 48), (0x102002, 16), (0x103000, 3), (0x103001, 64), (0x103002, 16), (0x104100, 0x78), (0x104101, 1), (0x104103, 0x30)]
    parts := [(0, { exists_ := true, quads := [0], pln := 1, tenants := [(0, { ttbr := 0x100000 })] })] }

/-- The entry: in use, or with a length at its bound, or parked, or with a reserved bit set; and a tag. -/
def goodE : List (Nat × Byte) := entryAt 0x5000 4 2 0
def fullE : List (Nat × Byte) := entryAt 0x5000 0 3 0
def parkedE : List (Nat × Byte) := entryAt 0x5000 4 2 1
def badE : List (Nat × Byte) := [(0x5005, 1)]
def tag1 : List (Nat × Byte) := [(0x7000, 1)]

theorem runs_cache {c : Cmd} {e tag : List (Nat × Byte)} (h : Ours c) : CacheRuns (sCache c e tag) c := by
  obtain ⟨h1, h2, h3, h4, h5, h6⟩ := h
  refine ⟨by simp [sCache, sCmd, State.cmd?, findKey, h1], h4, ?_, rfl, rfl, ?_⟩
  · simp only [State.waits, h5]
    rfl
  · simp only [State.cacheTurn, sCache, sCmd, List.any_cons, List.any_nil, Bool.or_false, Cmd.ahead, Nat.lt_irrefl, decide_false, Bool.false_and,
      Bool.and_false, Bool.not_false]

theorem plain_cache {c : Cmd} (hc : c.sysA = true ∧ c.part = 0) {e : List (Nat × Byte)} (he : e ∈ [goodE, fullE, parkedE, badE]) {tag : List (Nat × Byte)}
    (ht : tag ∈ [[], tag1]) : Plain (sCache c e tag) c := by
  refine ⟨hc.1, rfl, rfl, rfl, by rw [hc.2]; rfl, ?_⟩
  show mwf memDefault (sCache (cmdE 3 (.azero 0)) e tag).mem = true
  simp only [List.mem_cons, List.not_mem_nil, or_false] at ht he
  rcases ht with rfl | rfl <;> rcases he with rfl | rfl | rfl | rfl <;> decide +kernel

theorem mem_lit (c : Cmd) (tag : List (Nat × Byte)) (ht : tag ∈ [[], tag1]) :
    parseEntry (memAt (sCache c goodE tag) 0x5000 320) = entryLit ∧ parseEntry (memAt (sCache c fullE tag) 0x5000 320) = fullLit ∧
    parseEntry (memAt (sCache c parkedE tag) 0x5000 320) = parkedLit ∧ parseEntry (memAt (sCache c badE tag) 0x5000 320) = badLit := by
  have hm : ∀ e, memAt (sCache c e tag) 0x5000 320 = memAt (sCache (cmdE 3 (.azero 0)) e tag) 0x5000 320 := fun _ => rfl
  simp only [hm]
  simp only [List.mem_cons, List.not_mem_nil, or_false] at ht
  rcases ht with rfl | rfl <;>
    exact ⟨parse_lit.1 (by decide +kernel), parse_lit.2.1 (by decide +kernel), parse_lit.2.2.1 (by decide +kernel), parse_lit.2.2.2 (by decide +kernel)⟩

theorem nodup_of {l m : List Nat} (h : m.Nodup) (e : l = m) : l.Nodup := e ▸ h

theorem stretch_nodup (a n : Nat) : ((List.range n).map fun k => a + k).Nodup :=
  List.Nodup.map (fun _ _ h => Nat.add_left_cancel h) List.nodup_range

/-- A page with one live slot: its key, its value, and the page's multiplicities. -/
theorem page_nodup : (((List.range 256).map fun k => 0x20000 + k) ++ (((List.range 256).map fun k => 0x28000 + k) ++
    (List.range 4).map fun k => 0x7100 + k)).Nodup := by
  refine (stretch_nodup _ _).append ((stretch_nodup _ _).append (stretch_nodup _ _) ?_) ?_ <;> intro x hx hy <;>
    simp only [List.mem_append, List.mem_map, List.mem_range] at hx hy
  · obtain ⟨⟨k, _, rfl⟩, j, _, h⟩ := hx, hy
    omega
  · obtain ⟨k, _, rfl⟩ := hx
    rcases hy with ⟨j, _, h⟩ | ⟨j, _, h⟩ <;> omega

def appendOf : CmdKind := .kvapp 0x5000 0 5 0
def mergeC : CmdKind := .kvmrg 0x5000 0 4 0x3F800000#32
def parkOf : CmdKind := .park 0x5000 7
def promoOf : CmdKind := .promo 0x5000 0 1
def slot (ix mult : Nat) (b : Byte) : MSlot := { ix := ix, mult := mult, kv := [List.replicate 512 b] }

theorem witness_CacheCommandsExecute :
    (let c := { cmdE 3 (.park 0x5000 7) with id := 6, seq := 2 }
     let x := cmdE 3 (.park 0x5000 8)
     (sCmd x [c]).cmd? 6 = some c ∧ x ∈ (sCmd x [c]).cmds ∧ sameEntry c x = true ∧ x.ahead c = true ∧ x.blocks = true) ∧
    (∀ k pos lim left rest e tag, CacheRuns (sCache (cmdK k pos lim left rest) e tag) (cmdK k pos lim left rest)) ∧
    (∀ k pos lim left rest, ∀ e ∈ [goodE, fullE, parkedE, badE], ∀ tag ∈ [[], tag1],
      Plain (sCache (cmdK k pos lim left rest) e tag) (cmdK k pos lim left rest)) ∧ Exists 0x5000 320 ∧ Exists 0x7000 1 ∧ Exists 0x7100 128 ∧
      Exists 0x20000 65536 ∧
    (∀ p ∈ [(goodE, [], none), (goodE, tag1, some (0x3B, 4)), (fullE, [], some (0x3A, 2 ^ 24)), (parkedE, [], some (0x3B, 4)), (badE, [], some (0x31, 0))],
      let c := cmdK appendOf 0 0 [] []
      let s := sCache c p.1 p.2.1
      let e := parseEntry (memAt s 0x5000 320)
      e.nkvh = 1 ∧ appendFault s c e 0 = p.2.2 ∧ (p.1 ≠ badE → e.taga = 0x7000)) ∧
    (let c := cmdK appendOf 1 0 [(0, 258)] [(0, 256)]; 0 < c.pos ∧ c.rest ≠ [] ∧ (0 : Nat) % 2 = 0) ∧
    (∀ q ∈ [(0, 0x20400, ([0, 0] : List Byte)), (255, 0x284FE, [0, 0]), (256, 0x7104, [1]), (257, 0x5000, [5, 0, 0, 2])],
      let c := cmdK appendOf 1 0 [(q.1, 1)] []; let s := sCache c goodE []
      (takeLeft (1 / 2) c.left).1 = (q.1, 1) ∧ appendPiece s c (kept c.staged 0 320) 0x5000 0 5 q.1 = (q.2.1, q.2.2) ∧ AppendReady c 0 1 q.1 ∧
        s.touch c .write false q.2.1 q.2.2.length = .ok (range q.2.1 q.2.2.length) ∧ (range q.2.1 q.2.2.length).Nodup ∧
        (s.part c.part).lockstep = false) ∧
    (∀ i ∈ [0, 127], AppendReady (cmdK appendOf 1 0 [] [(128, 128)]) 0x3F800000#32 1 i) ∧
    (let e := parseEntry (kept (cmdK mergeC 1 1 [] []).staged 0 320)
     let s := sCache (cmdK mergeC 1 1 [] []) goodE
     e.taga = 0x7000 ∧ e.mula = 0x7100 ∧ e.nkvh = 1 ∧ tagIn (s tag1) e 0 = 1 ∧ tagIn (s []) e 0 = 0 ∧ e.page 0 = some 0x20000 ∧
       leNat (memAt (s []) 0x5000 4) % 2 ^ 25 = 4 ∧
       (let live := (List.range 4).filter fun i => (s []).byte (0x7100 + i) ≠ 0
        let slots := live.map fun i => ({
          ix := i, mult := ((s []).byte (0x7100 + i)).toNat
          kv := (List.range 1).map fun h =>
            let a := (e.page h).getD 0 + i * 256
            memAt (s []) a 256 ++ memAt (s []) (a + 32768) 256 } : MSlot)
        ((pageWrites e 0 4 (mergePage (f32 0x3F800000#32) 0 4 slots)).flatMap fun p => (List.range p.2.length).map fun k => p.1 + k).Nodup)) ∧
    (0 ≤ (slot 0 200 0).ix ∧ (slot 0 200 0).ix < 128 ∧ (slot 127 55 0).ix < 128 ∧ ∀ x ∈ (slot 0 200 0).kv ++ (slot 127 56 63).kv, x.length = 512) ∧
    close 0x3F000000#32 (List.replicate 512 63) (List.replicate 512 63) = true ∧
    close 0x3F000000#32 (List.replicate 512 63) (List.replicate 512 191) = false ∧
    (∀ p ∈ [(goodE, none, 0), (parkedE, none, 1), (badE, some 0x31, 0)], let s := sCache (cmdK parkOf 0 0 [] []) p.1 []
      (parseEntry (memAt s 0x5000 320)).fault = p.2.1 ∧ (parseEntry (memAt s 0x5000 320)).pst = p.2.2 ∧ s.parkLoad 0 < (s.part 0).pln) ∧
    (∀ p ∈ [(0, 0x5010, 8), (1, 0x5020, 8), (2, 0x5004, 1)], let c := cmdK parkOf 1 0 [(p.1, 1)] []; let s := sCache c goodE []
      (takeLeft 0 c.left).1 = (p.1, 1) ∧ s.touch c .write false p.2.1 p.2.2 = .ok (range p.2.1 p.2.2) ∧ (range p.2.1 p.2.2).Nodup) ∧
    (let s := sCache (cmdK promoOf 1 1 [] []) goodE
     let e := parseEntry (kept (cmdK promoOf 1 1 [] []).staged 0 320)
     (parseEntry (memAt (s []) 0x5000 320)).fault = none ∧ ((parseEntry (memAt (s []) 0x5000 320)).page ((0 + 1) * e.nkvh - 1)).isSome = true ∧
       e.page 0 = some 0x20000 ∧ tagIn (s []) e 0 = 0 ∧ tagIn (s tag1) e 0 = 1 ∧ (s tag1).leaf 0 0 0x20000 = some (0x104100, 0x30000178)) := by
  refine ⟨⟨rfl, by simp [sCmd], by decide, by decide, by decide⟩, fun _ _ _ _ _ _ _ => runs_cache ⟨rfl, rfl, rfl, rfl, rfl, rfl⟩,
    fun _ _ _ _ _ e he tag ht => plain_cache ⟨rfl, rfl⟩ he ht, exists_low (by decide), exists_low (by decide), exists_low (by decide), exists_low (by decide),
    ?_, by decide, ?_, ?_, ?_, by decide +kernel, by decide +kernel, by decide +kernel, ?_, by decide +kernel, ?_⟩
  · intro p hp
    obtain ⟨h1, h2, h3, h4⟩ := mem_lit (cmdK appendOf 0 0 [] []) [] (by decide)
    have h5 := (mem_lit (cmdK appendOf 0 0 [] []) tag1 (by decide)).1
    simp only [List.mem_cons, List.not_mem_nil, or_false] at hp
    rcases hp with rfl | rfl | rfl | rfl | rfl <;> simp only [h1, h2, h3, h4, h5] <;> decide +kernel
  · have h : ∀ q ∈ [(0, 0x20400, ([0, 0] : List Byte)), (255, 0x284FE, [0, 0]), (256, 0x7104, [1]), (257, 0x5000, [5, 0, 0, 2])],
        let c := cmdK appendOf 1 0 [(q.1, 1)] []; let s := sCache c goodE []
        (takeLeft (1 / 2) c.left).1 = (q.1, 1) ∧ s.touch c .write false q.2.1 q.2.2.length = .ok (range q.2.1 q.2.2.length) ∧
          (range q.2.1 q.2.2.length).Nodup := by decide +kernel
    intro q hi
    refine ⟨(h q hi).1, ?_, ?_, (h q hi).2.1, (h q hi).2.2, rfl⟩
    · have he : parseEntry (kept (cmdK appendOf 1 0 [(q.1, 1)] []).staged 0 320) = entryLit := entry_lit
      simp only [appendPiece, he]
      simp only [List.mem_cons, List.not_mem_nil, or_false] at hi
      rcases hi with rfl | rfl | rfl | rfl <;> decide +kernel
    have hn : ∀ k, ¬ Unread [] k := fun k ⟨x, hx, _⟩ => absurd hx List.not_mem_nil
    by_cases hk : 256 * 1 ≤ q.1
    · exact .inl hk
    · exact .inr (by split <;> simp [hn, cmdK])
  · intro i hi
    have hn : ∀ k, k < 128 → ¬ Unread [(128, 128)] k := by
      rintro k hk ⟨x, hx, h⟩
      obtain rfl : x = (128, 128) := List.mem_singleton.mp hx
      exact absurd h.1 (by simp only; omega)
    refine .inr ?_
    simp only [List.mem_cons, List.not_mem_nil, or_false] at hi
    rcases hi with rfl | rfl <;> split <;> simp [hn, cmdK]
  · have he : parseEntry (kept (cmdK mergeC 1 1 [] []).staged 0 320) = entryLit := entry_lit
    simp only [he]
    refine ⟨rfl, rfl, rfl, by decide +kernel, by decide +kernel, by decide +kernel, by decide +kernel, ?_⟩
    exact nodup_of page_nodup (by decide +kernel)
  · intro p hp
    obtain ⟨h1, -, h3, h4⟩ := mem_lit (cmdK parkOf 0 0 [] []) [] (by decide)
    simp only [List.mem_cons, List.not_mem_nil, or_false] at hp
    rcases hp with rfl | rfl | rfl <;> simp only [h1, h3, h4] <;> decide +kernel
  · have he : parseEntry (kept (cmdK promoOf 1 1 [] []).staged 0 320) = entryLit := entry_lit
    have h1 := (mem_lit (cmdK promoOf 1 1 [] []) [] (by decide)).1
    simp only [he, h1]
    decide +kernel

/-- An outstanding fault of the fetch of group 1. -/
def faultF (posted : Bool) (t : FTarget) : FaultEntry :=
  { id := 5, part := 0, tag := 9, src := 0, ep := 0, slot := 31, va := 0x123, w := false, tenant := 0, tier := false, target := t, posted := posted }

/-- A state with that fault and a partition. -/
def sFault (f : FaultEntry) (p : Partition) : State :=
  { one gMem with cmds := [cmdE 2 (.mma .bf16 0 (rectAt 0) 0)], faults := [f], parts := [(0, { p with exists_ := true, quads := [0] })], clock := 40000 }

theorem witness_FaultsAndAnswers :
    (∀ n ∈ [0, 4095, 4096], let s := sFault (faultF false (.fetch 1 false 3 0x124)) { fqbase := 0x60000, cfgAt := 0x40000, fqwr := BitVec.ofNat 32 n }
      s.fault? 5 = some (faultF false (.fetch 1 false 3 0x124)) ∧ mwf memDefault s.mem = true ∧ s.num ((s.part 0).cfgAt + 60) 4 = 0 ∧
        (n + 2 ^ 32 - 0) % 2 ^ 32 = n ∧ ∀ i j, i < 32 → j < 4 → 0x60000 + 32 * (n % 4096) + i ≠ 0x40000 + 56 + j) ∧
    (∃ s : State, (s.part 0).faultIrqDue = false) ∧
    (∃ s : State, (s.part 0).faultIrqDue = true ∧ (s.part 0).lastFaultIrq = some 7001 ∧ s.clock < 7001 + 33000) ∧
    (∃ s : State, (s.part 0).faultIrqDue = true ∧ (s.part 0).lastFaultIrq = some 7000 ∧ 7000 + 33000 ≤ s.clock) ∧
    (∀ t ∈ [FTarget.fetch 1 false 3 0x124, .cmd 5], let s := sFault (faultF true t) {}
      (s.part 0).lockstep = false ∧ s.faults.find? (fun f => f.part == 0 && f.posted && f.tag == (9 : Word64).setWidth 32) = some (faultF true t) ∧
        s.faults.find? (fun f => f.part == 0 && f.posted && f.tag == (0x100000009 : Word64).setWidth 32) = some (faultF true t) ∧
        ∃ c, s.cmd? 5 = some c ∧ c.kind = .mma .bf16 0 (rectAt 0) 0 ∧ c.chain = none) ∧
    (∀ w ∈ [Wait.stopped, .fetchFault 5 false], let s := { sFault (faultF true (.fetch 1 false 3 0x124)) {} with groups := [{ gMem with wait := w }] }
      s.group? 1 = some { gMem with wait := w } ∧ ({ gMem with wait := w } : Group).path? false = some (pth 1) ∧ (s.part 0).lockstep = false ∧
        s.faults = [faultF true (.fetch 1 false 3 0x124)]) ∧
    (9 : Word64).getLsbD 32 = false ∧ (0x100000009 : Word64).getLsbD 32 = true ∧
    (∀ f ∈ (sFault (faultF false (.cmd 5)) {}).faults, f.part = 0 → f.posted = true → f.tag ≠ (9 : Word64).setWidth 32) := by
  refine ⟨?_, ⟨{}, rfl⟩, ⟨sFault (faultF true (.cmd 5)) { faultIrqDue := true, lastFaultIrq := some 7001 }, rfl, rfl, by decide⟩,
    ⟨sFault (faultF true (.cmd 5)) { faultIrqDue := true, lastFaultIrq := some 7000 }, rfl, rfl, by decide⟩, ?_,
    fun _ _ => ⟨rfl, rfl, rfl, rfl⟩, rfl, rfl, by decide⟩
  · intro n hn
    simp only [List.mem_cons, List.not_mem_nil, or_false] at hn
    rcases hn with rfl | rfl | rfl <;> exact ⟨rfl, rfl, by decide +kernel, rfl, fun i j hi hj => by omega⟩
  · intro t ht
    simp only [List.mem_cons, List.not_mem_nil, or_false] at ht
    rcases ht with rfl | rfl <;> exact ⟨rfl, rfl, rfl, _, rfl, rfl, rfl⟩

/-- Tenant 0's first 2 MiB of addresses are physical ones, as its tables say. -/
def Flat (s : State) : Prop :=
  (s.num 0x100000 8 = 0x101003 ∧ s.num 0x101000 8 = 0x102003 ∧ s.num 0x102000 8 = 0x103003 ∧ s.num 0x103000 8 = 0x239) ∧
    (s.tenant 0 0).ttbr = 0x100000

theorem entry_single {s : State} {va lvl sh table ix e : Nat} (h : s.num (table + 8 * ix) 8 = e) (hr : replicas lvl sh e = 1) :
    s.entryAtIx va lvl sh table ix = e := by
  simp only [State.entryAtIx, h, hr, if_true]

theorem walk_flat {s : State} {va : Nat} (hs : Flat s) (h : va < 2 ^ 21) : s.walk 0 0 va = .page 0 (2 ^ 21) true true true false := by
  obtain ⟨⟨h0, h1, h2, h3⟩, ht⟩ := hs
  have e0 : va / 2 ^ 48 = 0 := by omega
  have e1 : va / 2 ^ 39 = 0 := by omega
  have e2 : va / 2 ^ 30 = 0 := by omega
  have e3 : va / 2 ^ 21 = 0 := by omega
  have w0 := entry_single (va := va) (ix := 0) (lvl := 0) (sh := 48) h0 (by decide)
  have w1 := entry_single (va := va) (ix := 0) (lvl := 1) (sh := 39) h1 (by decide)
  have w2 := entry_single (va := va) (ix := 0) (lvl := 2) (sh := 30) h2 (by decide)
  have w3 := entry_single (va := va) (ix := 0) (lvl := 3) (sh := 21) h3 (by decide)
  have a : bits 0x101003 55 12 * 4096 = 0x101000 := by decide
  have b : bits 0x102003 55 12 * 4096 = 0x102000 := by decide
  have c : bits 0x103003 55 12 * 4096 = 0x103000 := by decide
  simp only [State.walk, walkFrom, ht, e0, e1, e2, e3, Nat.zero_mod, w0, a, w1, b, w2, c, w3]
  rfl

theorem tr_flat {s : State} {k : Access} {va : Nat} (hw : s.walk 0 0 va = .page 0 (2 ^ 21) true true true false)
    (hp : s.privatePa va = false) (h : va < 2 ^ 21) : s.trTenant 0 0 k va = .ok va := by
  have e1 : va % 2 ^ 21 = va := by omega
  have e2 : va / 2 ^ 54 = 0 := by omega
  have e3 : paExists va = true := by simp only [paExists, e2, decide_eq_true_eq]; omega
  have e4 : isWbuf va = false := by
    have : decide (3 * 2 ^ 54 ≤ va) = false := decide_eq_false (by omega)
    rw [isWbuf, inRange, this, Bool.false_and]
  have e5 : ¬ 2 ^ 56 ≤ va := by omega
  simp only [State.trTenant, e5, if_false, hw, judge, Nat.zero_add, e1, e4, e3, hp]
  cases k <;> rfl

/-- A launch of the device-launch sequence, of two patches of one block; a group has `rg8` eights of registers. -/
def launchQ (rg8 : Nat) : Launch := { id := 1, part := 0, tenant := 0, origin := .device 1, hdr := { npat := 2, rg8 := rg8 }, coStart := 0 }

/-- Its partition, of which position 0 alone is no hole. -/
def partQ : Partition := { exists_ := true, quads := [0], tenants := [(0, { active := true, valid := true, balance := 1, ttbr := 0x100000 })] }
def holesQ : List Nat := partQ.positions.filter fun e => e != 0
def sQ (l : Launch) (hs : List Nat) (gs : List Group) : State :=
  { parts := [(0, partQ)], launches := [l], groups := gs, nextId := 90, clock := 12 * 1024, holes := hs }

/-- Only position 0 takes a block there. -/
theorem takes_only {s : State} {l : Launch} {n : Need} (hp : (s.part 0) = partQ) (hh : s.holes = holesQ) (h0 : s.epTakes 0 l n 0 = true) :
    (s.part 0).positions.filter (fun e => s.epTakes 0 l n e && !(([] : List Nat).contains e)) = [0] := by
  have h : ∀ e ∈ partQ.positions, (s.epTakes 0 l n e && !(([] : List Nat).contains e)) = (e == 0) := by
    intro e he
    by_cases h : e = 0
    · subst h; simp [h0]
    · have : s.isHole e = true := by simp [State.isHole, hh, holesQ, he, h]
      simp [State.epTakes, this, h]
  rw [hp, List.filter_congr h]
  decide +kernel

/-- A patch is created where position 0 takes its block. -/
theorem creates {s : State} {l : Launch} {stg : Nat} (hp : (s.part 0) = partQ) (hh : s.holes = holesQ) (hl : l.part = 0) (ho : l.ovUnits = 0)
    (hr : l.rangeLen = 0) (h0 : s.epTakes 0 l (l.hdr.need stg) 0 = true) (hw : (l.hdr.need stg).w = 1) (hv : (l.hdr.need stg).h = 1) :
    (s.createPatch l stg).isSome = true := by
  have hb : ∀ es, s.baseFor l es = some 0 := fun es => by simp [State.baseFor, hr]
  have hf : s.rectFor 0 l (l.hdr.need stg) [] = some (0, 0, 0) := by
    simp only [State.rectFor, takes_only hp hh h0, List.foldl_cons, List.foldl_nil, hw, hv, hb]
    rfl
  simp only [State.createPatch, hl, hf, State.ovFor, ho, if_true, Option.isSome_some]

theorem startAll_idle {s : State} (hs : (s.part 0).slots = []) (hp : (s.part 0).pending = []) : s.startAll 0 = s := by
  have h : ∀ l : List Nat, l.foldl (fun s k => if ((s.part 0).slot k).mapped then s.startSlot 0 k else s) s = s := by
    intro l
    induction l with
    | nil => rfl
    | cons k l ih =>
      have : ((s.part 0).slot k).mapped = false := by simp [Partition.slot, hs, mget]
      simp only [List.foldl_cons, this, Bool.false_eq_true, if_false, ih]
  simp only [State.startAll, h, hp, List.foldl_nil]

/-- The one candidate there. -/
def candQ (rg8 : Nat) : Cand := { prio := 0, age := 0, l := launchQ rg8, stg := 0, tick := false }

theorem places_patch : let t := (sQ (launchQ 124) holesQ []).startAll 0
    t.launches.filterMap (t.candOf 0) = [candQ 124] ∧ (t.placeNext (candQ 124)).isSome = true := by
  have hs : (sQ (launchQ 124) holesQ []).startAll 0 = sQ (launchQ 124) holesQ [] := startAll_idle rfl rfl
  rw [hs]
  refine ⟨rfl, ?_⟩
  have h0 : (sQ (launchQ 124) holesQ []).epTakes 0 (launchQ 124) ((launchQ 124).hdr.need 0) 0 = true := by decide +kernel
  have h1 := creates (stg := 0) (l := launchQ 124) (s := sQ (launchQ 124) holesQ []) rfl rfl rfl rfl rfl h0 rfl rfl
  exact h1

theorem has_no_room : let t := (sQ (launchQ 129) [] []).startAll 0
    t.launches.filterMap (t.candOf 0) = [candQ 129] ∧ t.placeNext (candQ 129) = none := by
  have hs : (sQ (launchQ 129) [] []).startAll 0 = sQ (launchQ 129) [] [] := startAll_idle rfl rfl
  rw [hs]
  refine ⟨rfl, ?_⟩
  have h : ∀ e, (sQ (launchQ 129) [] []).epTakes 0 (launchQ 129) ((launchQ 129).hdr.need 0) e = false := by
    intro e
    have h1 : ((launchQ 129).hdr.need 0).groups * ((launchQ 129).hdr.need 0).regs = 1032 := rfl
    have h2 : ¬ 1032 ≤ (sQ (launchQ 129) [] []).freeRegs e := by simp only [State.freeRegs]; omega
    simp [State.epTakes, h1, h2]
  have hp : (launchQ 129).part = 0 := rfl
  have hr : (sQ (launchQ 129) [] []).rectFor 0 (launchQ 129) ((launchQ 129).hdr.need 0) [] = none := by
    simp only [State.rectFor, h, Bool.false_and, List.filter_false, List.foldl_nil, Option.map_none]
  have hc : (sQ (launchQ 129) [] []).createPatch (launchQ 129) 0 = none := by simp only [State.createPatch, hp, hr]
  exact hc

theorem no_candidate : let l := { launchQ 2 with created := 2 }
    let t := (sQ l [] []).startAll 0
    t.launches.filterMap (t.candOf 0) = [] := by
  have hs : ∀ l, (sQ l [] []).startAll 0 = sQ l [] [] := fun l => startAll_idle rfl rfl
  show List.filterMap (((sQ { launchQ 2 with created := 2 } [] []).startAll 0).candOf 0) ((sQ { launchQ 2 with created := 2 } [] []).startAll 0).launches = []
  rw [hs]
  rfl

/-- An evicted group, of some registers. -/
def gOut (r : Nat) : Group := { gMem with sys := false, evicted := true, slot := 30, regs := r }

theorem returns : (sQ (launchQ 2) [] [gOut 992]).group? 1 = some (gOut 992) ∧ (gOut 992).regs ≤ (sQ (launchQ 2) [] [gOut 992]).freeRegs 0 ∧
    (gOut 992).slot ∈ (sQ (launchQ 2) [] [gOut 992]).freeSlots 0 ∧ (sQ (launchQ 2) [] [gOut 992]).areaOk 0 0 30 = true ∧
    (sQ (launchQ 2) [] [gOut 993]).freeRegs 0 < (gOut 993).regs := by
  refine ⟨rfl, by decide +kernel, by decide +kernel, by decide +kernel, by decide +kernel⟩

/-- The candidates that stop others: all but those that have a place and come with their launch's own tick. -/
def Waiting (t : State) : List Cand := (t.launches.filterMap (t.candOf 0)).filter fun c => !(c.tick && (t.placeNext c).isSome)

theorem waiting_one {t : State} {c : Cand} (h : t.launches.filterMap (t.candOf 0) = [c]) (hc : c.tick = false) : Waiting t = [c] := by
  simp [Waiting, h, hc]

theorem witness_PatchesPlacedAndReturned : (∃ s : State, (s.part 0).stopped = true) ∧
    (∃ (s : State) (c : Cand) (u : State), (s.part 0).stopped = false ∧ (s.part 0).pairStopped = false ∧
      Waiting (s.startAll 0) = [c] ∧ c.tick = false ∧ (s.startAll 0).placeNext c = some u) ∧
    (∃ (s : State) (c : Cand), (s.part 0).stopped = false ∧ (s.part 0).pairStopped = false ∧
      Waiting (s.startAll 0) = [c] ∧ (s.startAll 0).placeNext c = none) ∧
    (∃ s : State, (s.part 0).stopped = false ∧ (s.part 0).pairStopped = false ∧ Waiting (s.startAll 0) = []) ∧
    (∃ (s : State) (g : Group), s.group? 1 = some g ∧ g.evicted = true ∧ g.regs ≤ s.freeRegs g.ep ∧ g.slot ∈ s.freeSlots g.ep ∧
      s.areaOk g.part g.ep g.slot = true ∧ g.wait = .none ∧ g.faults = []) ∧
    (∃ (s : State) (g : Group), s.group? 1 = some g ∧ g.evicted = true ∧ g.regs ≤ s.freeRegs g.ep ∧ g.slot ∈ s.freeSlots g.ep ∧
      s.areaOk g.part g.ep g.slot = false) ∧
    (∃ (s : State) (g : Group), s.group? 1 = some g ∧ s.freeRegs g.ep < g.regs) := by
  obtain ⟨u, hu⟩ := Option.isSome_iff_exists.mp places_patch.2
  exact ⟨⟨sFault (faultF true (.cmd 5)) { stopped := true }, rfl⟩, ⟨_, _, u, rfl, rfl, waiting_one places_patch.1 rfl, rfl, hu⟩,
    ⟨_, _, rfl, rfl, waiting_one has_no_room.1 rfl, has_no_room.2⟩, ⟨_, rfl, rfl, by rw [Waiting, no_candidate]; rfl⟩,
    ⟨_, _, returns.1, rfl, returns.2.1, returns.2.2.1, returns.2.2.2.1, rfl, rfl⟩,
    ⟨{ sQ (launchQ 2) [] [gOut 992] with parts := [(0, { partQ with cabase := 2 ^ 40 })] }, gOut 992, rfl, rfl, by decide +kernel, by decide +kernel,
      by decide +kernel⟩, _, gOut 993, rfl, returns.2.2.2.2⟩

/-- The header of a launch of one patch, in memory. -/
def headerNat : Nat := 2 * 2 ^ 84 + 1 * 2 ^ 192

/-- A slot with an entry to read at 0x10000, and the state in which it is. -/
def slotE : Slot := { mapped := true, qid := 7, rbase := 0x10000, stsa := 0x11000, tail := 1 }
def sEntry (ent : Nat) : State :=
  { parts := [(0, { partQ with slots := [(5, slotE)] })], mem := filled (tables ++ [(0x10000, 32, ent), (0x12000, 32, headerNat)]), nextId := 90, clock := 12 * 1024 }

/-- A tenant's bytes there. -/
theorem bytes_flat {s : State} {va n : Nat} (hs : Flat s) (hp : ∀ a, s.privatePa a = false) (h : va + n ≤ 2 ^ 21) :
    s.tenantBytes 0 0 va n = some ((range va n).map s.devByte) ∧ ∀ k, trRange (s.trTenant 0 0 k) va n = .ok (range va n) := by
  have ht := fun k => trRange_flat (f := s.trTenant 0 0 k) (va := va) (n := n) fun a _ ha =>
    tr_flat (walk_flat hs (by omega)) (hp a) (by omega)
  exact ⟨by simp only [State.tenantBytes, ht], ht⟩

theorem entry_bytes {va n : Nat} (h : va + n ≤ 2 ^ 21) :
    (∀ ent ∈ [0x12000 + 0x77 * 2 ^ 192, 0x12000 + 2 ^ 65], (sEntry ent).tenantBytes 0 0 va n = some ((range va n).map (sEntry ent).devByte) ∧
      ∀ k, trRange ((sEntry ent).trTenant 0 0 k) va n = .ok (range va n)) := by
  intro ent he
  simp only [List.mem_cons, List.not_mem_nil, or_false] at he
  rcases he with rfl | rfl <;>
    exact bytes_flat ⟨by decide +kernel, rfl⟩ (fun _ => rfl) h

/-- An entry that names the header at 0x12000 is good, or not. -/
def goodEntry (e hb : List Byte) : Bool :=
  let x := leNat e
  let h := parseHeader hb
  field x 72 56 == 0 && !x.testBit 65 && field x 128 64 == 0 && field x 0 6 == 0 && field x 0 64 == 0x12000 && h.ok false &&
    h.deps.all (fun d => d.kind == 0) && decide ((h.banks.getD 15 (0, 0)).2 ≤ 8)

theorem good_entry : ∃ e hb, (sEntry (0x12000 + 0x77 * 2 ^ 192)).tenantBytes 0 0 0x10000 32 = some e ∧
    (sEntry (0x12000 + 0x77 * 2 ^ 192)).tenantBytes 0 0 0x12000 640 = some hb ∧ goodEntry e hb = true :=
  ⟨_, _, (entry_bytes (by decide) _ (.head _)).1, (entry_bytes (by decide) _ (.head _)).1, by decide +kernel⟩

theorem bad_entry : ∃ e, (sEntry (0x12000 + 2 ^ 65)).tenantBytes 0 0 0x10000 32 = some e ∧ (leNat e).testBit 65 = true ∧ (leNat e).testBit 64 = false :=
  ⟨_, (entry_bytes (by decide) _ (.tail _ (.head _))).1, by decide +kernel, by decide +kernel⟩

/-- A completed launch's last state, and a launch of one stage. -/
def launchD (o : Origin) : Launch := { launchQ 2 with created := 2, origin := o }
def launchS : Launch :=
  { id := 1, part := 0, tenant := 0, origin := .device 1, hdr := { npat := 2, nstg := 1, stages := [{ maxB := 2, minB := 0, lst := 0, rg8 := 2, entry := 0, raw := 0 }] }
    coStart := 0, created := 1, perStage := [(0, 1)] }

theorem witness_LaunchesStartAndComplete :
    (∃ s : State, ((s.part 0).slot 5).mapped = false) ∧
    (slotE.mapped = true ∧ slotE.susp = false ∧ slotE.head ≠ slotE.tail ∧ slotE.cur = none ∧ slotE.org ≠ 1 ∧ slotE.doneSeqs = [] ∧
      slotE.cseq.toNat + 1 = slotE.nextSeq ∧ partQ.stopped = false ∧ partQ.pairStopped = false ∧ partQ.lockstep = false ∧
      0 < (partQ.tenant 0).balance ∧ slotE.nextSeq < 2 ^ 64 ∧ ∀ ent, ((sEntry ent).part 0).slot 5 = slotE ∧ (sEntry ent).launches = []) ∧
    (∃ e hb, (sEntry (0x12000 + 0x77 * 2 ^ 192)).tenantBytes 0 0 0x10000 32 = some e ∧
      (sEntry (0x12000 + 0x77 * 2 ^ 192)).tenantBytes 0 0 0x12000 640 = some hb ∧ goodEntry e hb = true) ∧
    (∃ e, (sEntry (0x12000 + 2 ^ 65)).tenantBytes 0 0 0x10000 32 = some e ∧ (leNat e).testBit 65 = true ∧ (leNat e).testBit 64 = false) ∧
    (∀ o ∈ [Origin.queue 5 7 1 0 false 0, .device 1], let l := launchD o
      let s : State := { sQ l [] [] with parts := [(0, { partQ with slots := [(5, { slotE with head := 1 })] })] }
      s.launch? 1 = some l ∧ l.completed = false ∧ l.again = [] ∧ l.hdr.nstg = 0 ∧ l.hdr.npat ≤ l.created ∧ l.killed = 0 ∧
        (s.launches.map fun x => x.id).Nodup ∧ s.blocks = [] ∧ s.cmds = [] ∧ s.sb = [] ∧ s.co = [] ∧ s.parked = [] ∧
        (s.tenant 0 0).devFinished = [] ∧ (s.tenant 0 0).devDone + 1 = 1 ∧ ((s.part 0).slot 5).cseq.toNat + 1 = 1 ∧ ((s.part 0).slot 5).doneSeqs = []) ∧
    (∃ s : State, ∃ l, s.launch? 1 = some l ∧ ∃ b ∈ s.blocks, b.launch = 1) ∧
    ((∃ pas, trRange ((sEntry (0x12000 + 2 ^ 65)).trTenant 0 0 .write) 0x11000 32 = .ok pas ∧ pas.Nodup) ∧ mwf memDefault (sEntry (0x12000 + 2 ^ 65)).mem = true) ∧
    (∃ u, let s := sQ launchS holesQ []
      s.launch? 1 = some launchS ∧ launchS.hdr.nstg = 1 ∧ launchS.completed = false ∧ launchS.killed = 0 ∧ Due s 0 1 (s.partClock 0) 1024 ∧
      s.candsBefore launchS = [] ∧ s.mayCreate launchS = true ∧ 0 ≤ s.resident launchS 0 ∧ launchS.sends = [] ∧ launchS.recvs = [] ∧ mget 0 launchS.perStage 0 < launchS.hdr.npat ∧
      s.resident launchS 0 + launchS.hdr.pw * launchS.hdr.ph ≤ 2 ∧ (once s 0 1).createPatch launchS 0 = some u) ∧
    (sQ launchS [] []).resident launchS 0 + launchS.hdr.pw * launchS.hdr.ph = 1 ∧
    (∃ s : State, ¬ Due s 0 1 (s.partClock 0) 1024) := by
  have hc : ((once (sQ launchS holesQ []) 0 1).createPatch launchS 0).isSome = true :=
    creates rfl rfl rfl rfl rfl (by decide +kernel) rfl rfl
  obtain ⟨u, hu⟩ := Option.isSome_iff_exists.mp hc
  refine ⟨⟨{}, rfl⟩, ⟨rfl, rfl, by decide, rfl, by decide, rfl, rfl, rfl, rfl, rfl, by decide, by decide, fun _ => ⟨rfl, rfl⟩⟩, good_entry, bad_entry, ?_,
    ⟨onPan gMem, _, rfl, _, .head _, rfl⟩, ⟨⟨_, (entry_bytes (by decide) _ (.tail _ (.head _))).2 _, by decide +kernel⟩, by decide +kernel⟩,
    ⟨u, rfl, rfl, rfl, rfl, ?_, by decide +kernel, rfl, Nat.zero_le _, rfl, rfl, by decide, by decide, hu⟩, by decide, ⟨{}, ?_⟩⟩
  · intro o ho
    simp only [List.mem_cons, List.not_mem_nil, or_false] at ho
    rcases ho with rfl | rfl <;> exact ⟨rfl, rfl, rfl, rfl, by decide, rfl, by decide, rfl, rfl, rfl, rfl, rfl, rfl, rfl, rfl, rfl⟩
  · simp only [Due]; decide +kernel
  · simp only [Due]; decide +kernel

/-- A partition at a clock, with an active tenant whose launch table has one used bucket. -/
def sPer (clk : Nat) : State :=
  { parts := [(0, { exists_ := true, quads := [0], tcbase := 0x50000, share := 1000
                    tenants := [(0, { active := true, valid := true, balance := -5, tokens := [(3, 1)], ltbase := 0x31000 })]
                    slots := [(127, { mapped := true, qid := 7, wdogUs := 10 })], parts := [(0, [{ v := 5 }])] })]
    launches := [{ id := 1, part := 0, tenant := 0, origin := .queue 127 7 1 0 false 0, hdr := {}, coStart := 0 }]
    transit := [{ id := 5, part := 0, tenant := 0, dst := 0, items := [{ v := 6 }] }], clock := clk }

theorem witness_BalanceAndPeriodicEvents :
    (∀ clk, ((sPer clk).part 0).exists_ = true ∧ ((sPer clk).part 0).lockstep = false ∧ PartsOk (sPer clk) 0) ∧
    (Due (sPer 1024) 1 0 1024 1024 ∧ ¬ Due (sPer 1023) 1 0 1023 1024) ∧ (Due (sPer 3300000) 2 0 3300000 3300000 ∧ ¬ Due (sPer 3299999) 2 0 3299999 3300000) ∧
    (Due (sPer 32768) 3 0 32768 32768 ∧ ¬ Due (sPer 32767) 3 0 32767 32768) ∧ (Due (sPer 3300000) 4 0 3300000 3300000 ∧ ¬ Due (sPer 0) 4 0 0 3300000) ∧
    (Due (sPer 3300000) 5 0 3300000 3300000 ∧ ¬ Due (sPer 0) 5 0 0 3300000) ∧ (∀ clk, (sPer clk).partClock 0 = clk) ∧
    (∃ g ∈ (one { gMem with sys := false }).groups, g.ep = 0 ∧ g.sys = false ∧ g.tenant = 0 ∧ g.evicted = false) ∧
    (∀ g ∈ (sPer 0).groups, ¬(g.ep = 0 ∧ g.sys = false ∧ g.tenant = 0 ∧ g.evicted = false)) ∧
    (∃ x, findKey (fun (x : Transit) => x.id) 5 (sPer 0).transit = some x ∧ PartsOk (sPer 0) x.part) ∧
    (∀ t, t < 16 → mwf (0 : Nat) ((sPer 0).tenant 0 t).tokens = true) ∧ mget 0 ((sPer 0).tenant 0 0).tokens 3 = 0 + 1 ∧
    ((sPer 0).tenant 0 0).active = true ∧ ((sPer 0).tenant 0 1).active = false ∧
    (let q := ((sPer 33000).part 0).slot 127
     q.mapped = true ∧ q.wdogUs ≠ 0 ∧ q.susp = false ∧ q.wdogAt + q.wdogUs * 3300 ≤ (sPer 33000).clock ∧ ¬ q.wdogAt + q.wdogUs * 3300 ≤ (sPer 32999).clock ∧
      ∃ l ∈ (sPer 33000).launches, l.part = 0 ∧ l.completed = false ∧ ∃ a b c d e, l.origin = .queue 127 a b c d e) := by
  have hp : ∀ clk, PartsOk (sPer clk) 0 := fun clk => ⟨rfl, rfl, rfl, rfl⟩
  refine ⟨fun clk => ⟨rfl, rfl, hp clk⟩, ?_, ?_, ?_, ?_, ?_, fun _ => rfl, ⟨_, .head _, rfl, rfl, rfl, rfl⟩, fun _ h => absurd h List.not_mem_nil,
    ⟨_, rfl, hp 0⟩, ?_, rfl, rfl, rfl, rfl, by decide, rfl, by decide, by decide, _, .head _, rfl, rfl, 7, 1, 0, false, 0, rfl⟩ <;>
    first | (simp only [Due]; decide) | (intro t ht; interval_cases t <;> rfl)

/-- A partition with queue 7 in slot 5, which fabric frames may fill, and queue 0, which is not mapped; and tables in memory: bindings at
0x30000, a launch table at 0x31000, a receive queue at 0x39000. -/
def sFab : State :=
  { parts := [(0, { exists_ := true, quads := [0], qtbase := 0x20000, fbbase := 0x30000, fbn := 1
                    tenants := [(0, { active := true, valid := true, ttbr := 0x100000, ltbase := 0x31000, ltn := 1, rqbase := 0x39000 })]
                    slots := [(5, { mapped := true, qid := 7 }), (6, { mapped := true, qid := 8, tail := 3 })] })]
    mem := [⟨0x201C4, 0x40⟩, ⟨0x201D1, 0x80⟩, ⟨0x201D2, 0x3⟩, ⟨0x30000, 0x2A⟩, ⟨0x30004, 0x10⟩, ⟨0x31000, 0x1⟩, ⟨0x31028, 0x34⟩, ⟨0x31029, 0x12⟩, ⟨0x31030, 0x2⟩,
           ⟨0x31032, 0x5⟩, ⟨0x31035, 0x70⟩, ⟨0x31037, 0x3⟩, ⟨0x31039, 0x40⟩, ⟨0x3103A, 0x3⟩, ⟨0x39026, 0x4⟩, ⟨0x39029, 0xA0⟩, ⟨0x3902A, 0x3⟩,
           ⟨0x39030, 0x1⟩, ⟨0x39032, 0x2⟩, ⟨0x39035, 0x1⟩, ⟨0x39039, 0xB0⟩, ⟨0x3903A, 0x3⟩, ⟨0x100000, 0x3⟩, ⟨0x100001, 0x10⟩, ⟨0x100002, 0x10⟩,
           ⟨0x101000, 0x3⟩, ⟨0x101001, 0x20⟩, ⟨0x101002, 0x10⟩, ⟨0x102000, 0x3⟩, ⟨0x102001, 0x30⟩, ⟨0x102002, 0x10⟩,
           ⟨0x103000, 0x39⟩, ⟨0x103001, 0x2⟩] }

theorem sFab_tables : Flat sFab := ⟨by decide +kernel, rfl⟩

theorem sFab_flat {va n : Nat} (h : va + n ≤ 2 ^ 21) : ∀ k, trRange (sFab.trTenant 0 0 k) va n = .ok (range va n) :=
  (bytes_flat sFab_tables (fun _ => rfl) h).2

theorem run_ge {a n x : Nat} (h : x ∈ range a n) : a ≤ x := by
  induction n generalizing a with
  | zero => cases h
  | succ n ih =>
    rcases List.mem_cons.mp h with rfl | h
    · omega
    · have := ih h; omega

theorem run_nodup : ∀ (n a : Nat), (range a n).Nodup
  | 0, _ => List.nodup_nil
  | n + 1, a => by
    refine List.nodup_cons.mpr ⟨fun h => ?_, run_nodup n (a + 1)⟩
    have := run_ge h
    omega

/-- The device reads past a single drained write what it read before it. -/
theorem devByte_past {s : State} {id : Nat} {w : Who} {l : Scope} {bs : List WByte} {a : Nat} (hc : s.co = [])
    (h : ∀ b ∈ bs, b.pa ≠ a ∧ b.hits a a = false) : (s.drainWrite id w l bs []).devByte a = s.devByte a := by
  have hf : ∀ b ∈ bs.map (fun b => { b with old := s.byte b.pa }), b.pa ≠ a ∧ b.hits a a = false := by
    intro b hb
    obtain ⟨x, hx, rfl⟩ := List.mem_map.mp hb
    exact h x hx
  have h1 : (bs.map fun b => { b with old := s.byte b.pa }).find? (fun b => b.hits a a) = none :=
    List.find?_eq_none.mpr fun b hb => by simp [(hf b hb).2]
  have h2 : ((bs.map fun b => { b with old := s.byte b.pa }).any fun b => b.at_ a) = false :=
    List.any_eq_false.mpr fun b hb => by simp [WByte.at_, (hf b hb).1]
  have h3 := State.drainWrite_byte (s := s) (id := id) (w := w) (l := l) (vs := []) (k := none) fun b hb => (h b hb).1
  simp only [State.devByte, State.initialByte, h3]
  simp only [State.drainWrite, hc, List.nil_append, lastHit, h1, List.find?_cons, h2, List.find?_nil, ite_self]

theorem devByte_congr {s t : State} {a : Nat} (hc : s.co = t.co) (hm : s.mem = t.mem) : s.devByte a = t.devByte a := by
  simp only [State.devByte, State.initialByte, State.byte, hc, hm]

theorem parts_congr {s t : State} (h : s.parts = t.parts) : (∀ a, s.privatePa a = t.privatePa a) ∧ ∀ p k, s.tenant p k = t.tenant p k :=
  ⟨fun a => by simp only [State.privatePa, State.part, h], fun p k => by simp only [State.tenant, State.part, h]⟩

theorem virtBytes_pa {p t : Nat} : ∀ {pas : List Nat} {bs : List Byte} {va : Nat}, ∀ b ∈ virtBytes p t va pas bs, b.pa ∈ pas
  | [], _, _, b, h => by simp [virtBytes] at h
  | _ :: _, [], _, b, h => by simp [virtBytes] at h
  | pa :: ps, c :: bs, va, b, h => by
    rcases List.mem_cons.mp h with rfl | h
    · exact .head _
    · exact .tail _ (virtBytes_pa b h)

/-- A state of one configured partition with every slot held by a queue that is not to be preempted. -/
def sStarve (clk : Nat) : State :=
  { parts := [(0, { exists_ := true, configured := true, pbase := 0x6000, bitmap := [3], lastPendingIrq := some 7000, lastStarveIrq := some 7000
                    slots := (List.range 128).map fun k => (k, { mapped := true, npre := true }) })]
    mem := [⟨0x6000 + 511, 1⟩], clock := clk }

theorem witness_HostPortEvents :
    ((∃ d, GoodNotify sFab 0 0 (8 * 8) d) ∧ (sFab.part 0).slotOfQ 8 = some 6 ∧ mwf (0 : Nat) (sFab.part 0).qages = true ∧
      (16 + 2 ^ 32 - ((sFab.part 0).slot 6).tail.toNat) % 2 ^ 32 ≤ 2 ^ 16 ∧ ¬ GoodNotify sFab 0 0 (8 * 8) [1]) ∧
    ((∃ d, GoodNotify sFab 0 0 0 d) ∧ (sFab.part 0).slotOfQ 0 = none ∧ mwf memDefault sFab.mem = true ∧ ¬(0x2000C ≤ 0 + 0 / 8 ∧ 0 + 0 / 8 < 0x2000C + 4)) ∧
    ((sFab.part 0).exists_ = true ∧ (sFab.part 0).lockstep = false ∧ (sFab.part 1).exists_ = false) ∧
    ((∃ s : State, (s.part 0).bitmap = []) ∧ ((sStarve 40000).part 0).bitmap ≠ [] ∧ (sStarve 39999).clock < 7000 + 33000 ∧ 7000 + 33000 ≤ (sStarve 40000).clock) ∧
    (((sStarve 337000).part 0).configured = true ∧ (∀ k, k < 128 → (((sStarve 337000).part 0).slot k).mapped = true ∧ (((sStarve 337000).part 0).slot k).npre = true) ∧
      (sStarve 337000).devByte (0x6000 + 511) ≠ 0 ∧ 7000 + 330000 ≤ (sStarve 337000).clock ∧ (sStarve 336999).clock < 7000 + 330000) ∧
    (2 ^ 39 - 1) + [(7 : Byte)].length ≤ 2 ^ 39 ∧ 2 ^ 39 < 2 ^ 39 + [(7 : Byte)].length ∧ sFab.uncorr = [] := by
  have hn : (sFab.part 0).slotOfQ 0 = none := by decide +kernel
  have hb := (bytes_flat (s := sFab) (va := 0) (n := 32) sFab_tables (fun _ => rfl) (by decide)).1
  have hr : ∃ h, sFab.statusRec 0 0 = some h ∧ h.1 = 0 := by
    have hd : bits (sFab.qdesc 0 0) 31 28 = 0 ∧ bits (sFab.qdesc 0 0) 255 192 = 0 := by decide +kernel
    simp only [State.statusRec, hd, hb]
    exact ⟨_, rfl, by decide +kernel⟩
  obtain ⟨r, hr, h0⟩ := hr
  refine ⟨⟨⟨bytesLE 16 8, rfl, rfl, by decide, by decide +kernel, by decide +kernel, 0, by decide +kernel, by decide +kernel⟩, by decide +kernel, rfl, by decide +kernel, fun h => by have := h.1; cases this⟩,
    ⟨⟨bytesLE 16 8, rfl, rfl, by decide, by decide +kernel, by decide +kernel, 0, ?_, by decide +kernel⟩, hn, by decide +kernel, by decide⟩,
    ⟨rfl, rfl, rfl⟩, ⟨⟨{}, rfl⟩, by decide, by decide, by decide⟩, ⟨rfl, by decide +kernel, by decide +kernel, by decide, by decide⟩, by decide, by decide, rfl⟩
  simp only [State.headOf, hn, hr, Option.map_some, h0]

/-- A wake frame, a launch frame of one argument, and a copy message. -/
def wakeFrame : List Byte := bytesLE (1 + 2 * 2 ^ 8 + 16 * 2 ^ 16) 16 ++ bytesLE 0x5000 16
def launchFrame : List Byte := bytesLE (1 + 1 * 2 ^ 8 + 8 * 2 ^ 16 + 0x1234 * 2 ^ 64) 16 ++ bytesLE 0x77 8
def copyMessage : List Byte := bytesLE (1 + 4 * 2 ^ 32) 16 ++ bytesLE 0x77 4

/-- The launch-table entry, the descriptor of queue 7, and the receive queue's. -/
theorem sFab_table : sFab.num 0x31000 64 = 0x340000300700000050002000000000000123400000000000000000000000000000000000000000000000000000000000000000000000000000001 := by decide +kernel
theorem sFab_desc : sFab.num 0x201C0 64 = 0x3800000000000000000000000004000000000 := by decide +kernel
theorem sFab_recv : sFab.num 0x39000 64 = 0x3b0000000010000020001000000000003a00000040000000000000000000000000000000000000000000000000000000000000000000000000000 := by decide +kernel

theorem sFab_after {args : List Byte} (hl : args.length = 256) :
    trRange ((sFab.tenantWrite 0 0 0x34000 .dev args).trTenant 0 0 .write) 0x38000 32 = .ok (range 0x38000 32) := by
  have hw := sFab_flat (va := 0x34000) (n := 256) (by decide) .write
  have hn : args ≠ [] := fun h => by rw [h] at hl; cases hl
  simp only [State.tenantWrite, hl, hw, if_neg hn]
  have hq : ∀ x, 0x100000 ≤ x → ∀ b ∈ virtBytes 0 0 0x34000 (range 0x34000 256) args, b.pa ≠ x ∧ b.hits x x = false := by
    intro x hx b hb
    have h1 := run_lt (virtBytes_pa b hb)
    have h3 : b.pa ≠ x := by omega
    exact ⟨h3, by simp [WByte.hits, h3]⟩
  have hn' : ∀ x y, 0x100000 ≤ x → sFab.num x 8 = y →
      ({ sFab with nextId := sFab.nextId + 1 }.drainWrite sFab.nextId devWho .dev (virtBytes 0 0 0x34000 (range 0x34000 256) args) []).num x 8 = y := by
    intro x y hx hy
    rw [← hy]
    exact congrArg valueLE (List.map_congr_left fun z h => (devByte_past rfl (hq z (Nat.le_trans hx (run_ge h)))).trans (devByte_congr rfl rfl))
  obtain ⟨⟨h0, h1, h2, h3⟩, ht⟩ := sFab_tables
  exact (bytes_flat ⟨⟨hn' _ _ (Nat.le_of_ble_eq_true rfl) h0, hn' _ _ (Nat.le_of_ble_eq_true rfl) h1, hn' _ _ (Nat.le_of_ble_eq_true rfl) h2,
      hn' _ _ (Nat.le_of_ble_eq_true rfl) h3⟩, (congrArg Tenant.ttbr ((parts_congr (t := sFab) rfl).2 0 0)).trans ht⟩
    (fun a => ((parts_congr (t := sFab) rfl).1 a).trans rfl) (by decide)).2 _

theorem witness_FabricEvents :
    (∀ r, WakeRoom sFab 0 r) ∧ (bytesLE 0 16).length = 16 ∧ ([] : List Byte).length ≠ 16 ∧ sFab.binding 0 42 = some 0 ∧
    (frameOk wakeFrame = true ∧ field (leNat (wakeFrame.take 16)) 8 8 = 2) ∧ frameOk [] = false ∧
    (frameOk launchFrame = true ∧ (let h := leNat (launchFrame.take 16); field h 8 8 = 1 ∧ field h 32 16 = 0 ∧ field h 64 64 = 0x1234) ∧
      sFab.mayLaunch 0 0 0 0x1234 = true ∧ (sFab.part 0).slotOfQ 7 = some 5 ∧
      (let e := tableNat sFab 0 0 0; field e 448 64 = 0x34000 ∧ field e 440 8 = 3 ∧ field e 428 12 = 7) ∧
      trRange (sFab.trTenant 0 0 .write) 0x34000 256 = .ok (range 0x34000 256) ∧ (range 0x34000 256).Nodup ∧ field (sFab.qdesc 0 7) 128 64 = 0x38000 ∧
      trRange ((sFab.tenantWrite 0 0 0x34000 .dev (bytesLE 0x77 256)).trTenant 0 0 .write) 0x38000 32 = .ok (range 0x38000 32) ∧
      (∀ a ∈ range 0x34000 256, a ∉ range 0x38000 32)) ∧
    messageOk [] = false ∧
    (messageOk copyMessage = true ∧ field (leNat (copyMessage.take 16)) 8 12 = 0 ∧
      (let d := sFab.num 0x39000 64
       d.testBit 384 = true ∧ field d 416 32 = 256 ∧ field d 224 32 = 0 ∧ field d 256 32 = 0 ∧ field d 400 16 = 2 ∧ field d 160 32 = 0 ∧ field d 192 32 = 0 ∧
         field d 304 16 = 4 ∧ field d 448 64 = 0x3B000 ∧ field d 320 64 = 0x3A000) ∧
      trRange (sFab.trTenant 0 0 .write) 0x3B000 4 = .ok (range 0x3B000 4) ∧ trRange (sFab.trTenant 0 0 .write) 0x3A000 32 = .ok (range 0x3A000 32) ∧
      (∀ a ∈ range 0x3B000 4, a ∉ range 0x3A000 32) ∧ ∀ a ∈ range 0x3B000 4 ++ range 0x3A000 32, ¬(0x39000 + 20 ≤ a ∧ a < 0x39000 + 32)) ∧
    (∃ (s : State) (m : NetMsg), s.net = [m] ∧ m.part = 0 ∧ m.tenant = 0 ∧ m.q = 3) := by
  have he : sFab.tableEntry 0 0 0 = 0x340000300700000050002000000000000123400000000000000000000000000000000000000000000000000000000000000000000000000000001 := sFab_table
  have hd : sFab.qdesc 0 7 = 0x3800000000000000000000000004000000000 := sFab_desc
  have hs : (sFab.part 0).slotOfQ 7 = some 5 := by decide +kernel
  have ht : sFab.tailOf 0 7 = 0 := by simp only [State.tailOf, hs]; rfl
  have hh : sFab.headOf 0 7 = some 0 := by simp only [State.headOf, hs]; rfl
  have h7 : bits 0x340000300700000050002000000000000123400000000000000000000000000000000000000000000000000000000000000000000000000000001 439 428 = 7 := by decide +kernel
  have hm : sFab.mayLaunch 0 0 0 0x1234 = true := by
    have h1 : 0x34000 + 256 ≤ 2 ^ 21 := by decide
    have h2 : 0x38000 + 32 ≤ 2 ^ 21 := by decide
    have e1 : bits 0x340000300700000050002000000000000123400000000000000000000000000000000000000000000000000000000000000000000000000000001 511 448 + 256 * (mget 0 (sFab.tenant 0 0).frames 0 % (bits 0x340000300700000050002000000000000123400000000000000000000000000000000000000000000000000000000000000000000000000000001 447 440 + 1)) = 0x34000 := by decide +kernel
    have e2 : bits 0x3800000000000000000000000004000000000 191 128 + 32 * (0 % 2 ^ (bits 0x3800000000000000000000000004000000000 23 20 + 4)) = 0x38000 := by decide +kernel
    simp only [State.mayLaunch, he, h7, hd, ht, hh, e1, e2, sFab_flat h1, sFab_flat h2, Bool.and_true]
    decide +kernel
  have hx : tableNat sFab 0 0 0 = 0x340000300700000050002000000000000123400000000000000000000000000000000000000000000000000000000000000000000000000000001 := sFab_table
  refine ⟨fun _ => Nat.zero_lt_succ 63, rfl, by decide, by decide +kernel, ⟨by decide +kernel, by decide +kernel⟩, by decide +kernel,
    ⟨by decide +kernel, by decide +kernel, hm, hs, by rw [hx]; decide +kernel, sFab_flat (by decide) _, run_nodup _ _, by rw [hd]; decide +kernel, sFab_after (bytes_length _ _), by decide +kernel⟩,
    by decide +kernel, ⟨by decide +kernel, by decide +kernel, by rw [sFab_recv]; decide +kernel, sFab_flat (by decide) _, sFab_flat (by decide) _, by decide +kernel, by decide +kernel⟩,
    ⟨{ net := [{ part := 0, tenant := 0, q := 3, port := 1, fep := 0, rqn := 0, job := 0, bytes := [] }] }, _, rfl, rfl, rfl, rfl⟩⟩

theorem witness_HostPortAndFabricEvents : (∃ (s : State) (d : List Byte), GoodNotify s 0 0 0 d) ∧ ∃ r, WakeRoom sFab 0 r :=
  ⟨⟨sFab, witness_HostPortEvents.2.1.1⟩, 0, witness_FabricEvents.1 0⟩

/-- A wake of the parked entry at 0x5000, at a stage. -/
def cmdW (st pos : Nat) : Cmd := { cmdE 3 (.wake 0x5000 7 false st) with pos := pos }
def sWake (c : Cmd) (parked : List Parked) : State :=
  { cmds := [c], nextId := 90, parts := [(0, { exists_ := true, quads := [0], pln := 1, parked := parked })]
    mem := filled [(0x5000, 16, 2 ^ 25 + 2 ^ 38 + 0x6000 * 2 ^ 64), (0x5010, 8, 7), (0x5040, 16, 0x20000 + 4 * 2 ^ 64 + 1 * 2 ^ 96)] }

/-- A system command touches what physical addresses there are. -/
theorem touch_sys {s : State} {c : Cmd} {k : Access} (hc : c.sysA = true) : ∀ {n va : Nat}, va + n ≤ 2 ^ 38 → s.touch c k false va n = .ok (range va n)
  | 0, _, _ => rfl
  | n + 1, va, h => by
    have h1 : va / 2 ^ 54 = 0 := by omega
    have h2 : paExists va = true := by simp only [paExists, h1, decide_eq_true_eq]; omega
    have h3 : isWbuf va = false := by
      have : decide (3 * 2 ^ 54 ≤ va) = false := decide_eq_false (by omega)
      rw [isWbuf, inRange, this, Bool.false_and]
    have h4 : ¬ 2 ^ 56 ≤ va := by omega
    have ih : s.touchAll c k false (range (va + 1) n) = .ok (range (va + 1) n) := touch_sys hc (by omega)
    simp only [State.touch, range, State.touchAll, State.trCmd, hc, if_true, h3, Bool.false_and, Bool.false_eq_true, if_false, State.translateSys, h2,
      Bool.not_true, Bool.or_false, h4, decide_false, ih]

theorem open_wake (st pos : Nat) (l : List Parked) : EntryOpen (sWake (cmdW st pos) l) (cmdW st pos) 0x5000 (range 0x5000 320) 0x5004 :=
  ⟨touch_sys rfl (by decide), touch_sys rfl (by decide), rfl, rfl, rfl, show mwf memDefault (sWake (cmdW 0 0) []).mem = true by decide +kernel, rfl, rfl, rfl, rfl⟩

theorem witness_WakesAndVisits :
    (∀ st pos l, EntryOpen (sWake (cmdW st pos) l) (cmdW st pos) 0x5000 (range 0x5000 320) 0x5004) ∧
    ({ tenant := 0, entry := 0x5000 } ∉ ((sWake (cmdW 0 0) []).part 0).parked) ∧
    ({ tenant := 0, entry := 0x5000 } ∈ ((sWake (cmdW 0 0) [{ tenant := 0, entry := 0x5000 }]).part 0).parked) ∧
    (let e := parseEntry ((range 0x5000 320).map (sWake (cmdW 0 0) []).byte); e.fault = none ∧ e.pst = 1 ∧ e.wkey = 7) ∧
    ((cmdW 1 1).lim < (cmdW 1 1).pos ∧ (cmdW 1 1).kind = .wake 0x5000 7 false 1 ∧
      ((sWake (cmdW 1 1) []).part 0).positions.find? (fun x => !((sWake (cmdW 1 1) []).isHole x)) = some 0 ∧ (sWake (cmdW 1 1) []).itemRoom 0 0 0 = true ∧
      mwf ([] : List Item) ((sWake (cmdW 1 1) []).part 0).parts = true ∧ mwf ([] : List Item) ((sWake (cmdW 1 1) []).part 0).ovItems = true) ∧
    ((cmdW 2 1).lim < (cmdW 2 1).pos ∧ (cmdW 2 1).kind = .wake 0x5000 7 false 2 ∧ ((sWake (cmdW 2 1) []).part 0).exists_ = true) ∧
    (∃ (s : State) (x : Parked), s.cmds = [] ∧ (s.part 0).parked = [x] ∧ x.entry = 0x5000) := by
  refine ⟨open_wake, List.not_mem_nil, .head _, by decide +kernel, ⟨by decide, rfl, by decide +kernel, by decide +kernel, rfl, rfl⟩, ⟨by decide, rfl, rfl⟩,
    ⟨{ sWake (cmdW 0 0) [{ tenant := 0, entry := 0x5000 }] with cmds := [] }, _, rfl, rfl, rfl⟩⟩

/-- A move of page 0 of an entry to pond 0, from pond 1 or from the flash, with stretches still to be copied. -/
def moveM (st src : Nat) (flash : Bool) (left : List (Nat × Nat)) : PageMove :=
  { id := 7, cmd := 5, part := 0, tenant := 0, entry := 0x5000, page := 0, va := 0x20000, tagVa := 0x6000, from_ := src, to_ := 0, fromPa := 0x30000000
    toPa := 0x2000000, stage := st, flash := flash, issuedAt := 9, left := left }

/-- Its state, with page tables whose leaf of that page is at 0x104100. -/
def sMove (m : PageMove) (cs : List Cmd) (p : Partition) (clk : Nat) : State :=
  { cmds := cs, moves := [m], nextId := 90, clock := clk, parts := [(0, { p with exists_ := true, quads := [0], tenants := [(0, { ttbr := 0x100000 })] })]
    mem := filled [(0x6000, 1, 0b10), (0x100000, 8, 0x101003), (0x101000, 8, 0x102003), (0x102000, 8, 0x103003), (0x103000, 8, 0x104003), (0x104100, 8, 0x30000178)] }

/-- Pond 1 holds the page's old frame; the tiering engine's region lies after it. -/
def pondPart : Partition := { p1base := 0x30000000, p1n := 16, tmbase := 0x40000000, qpairs := 2 }

theorem movable (st src : Nat) (fl : Bool) (left : List (Nat × Nat)) : let m := moveM st src fl left
    Movable (sMove m [cmdE 3 (.promo 0x5000 0 1)] pondPart 9) m (cmdE 3 (.promo 0x5000 0 1)) 0x104100 0x30000178 := by
  refine ⟨rfl, rfl, rfl, rfl, fun k => touch_sys rfl (by show 0x6000 + 1 ≤ 2 ^ 38; decide), rfl, rfl, rfl,
    show mwf memDefault (sMove (moveM 1 1 true []) [] {} 9).mem = true by decide +kernel, rfl, rfl, ?_,
    show ¬(0x104100 ≤ 0x6000 ∧ 0x6000 < 0x104100 + 128) by decide, fun b hb => ?_⟩
  · show (sMove (moveM 1 1 true []) [cmdE 3 (.promo 0x5000 0 1)] pondPart 9).leaf 0 0 0x20000 = _
    decide +kernel
  · have h2 : (moveM st src fl left).tagVa = 0x6000 := rfl
    have hp : ((sMove (moveM st src fl left) [cmdE 3 (.promo 0x5000 0 1)] pondPart 9).part 0).tmbase = 0x40000000 := rfl
    have h3 : (moveM st src fl left).part = 0 := rfl
    have : 0x40000000 ≤ b := by
      simp only [freeBits, h3, hp] at hb
      rcases hb with ⟨_, _, _, hb⟩ | ⟨_, hb | hb⟩ <;> omega
    omega

/-- A Flush of a drive, on a queue pair or waiting for one; and a state with it. -/
def flushF (q : Option Nat) : Flush := { id := 7, part := 0, drive := 1, issuedAt := 9, qp := q }
def sFlush (fs : List Flush) (clk : Nat) : State := { flushes := fs, clock := clk, parts := [(0, { exists_ := true, quads := [0], tmbase := 0x40000000, qpairs := 2 })] }

theorem witness_PageMovesAndFlash :
    (∀ fs ∈ [[], [0x2000000]], ∀ src ∈ [1, 2], let m := moveM 0 src false []; let s := sMove m [] { pondPart with p0free := fs } 9
      findKey (fun (m : PageMove) => m.id) 7 s.moves = some m ∧ s.moveHeld m = false ∧ (s.part 0).p0free = fs ∧ (s.part 0).exists_ = true ∧
        ¬ pairFull s 0) ∧
    (let m := moveM 0 2 false []
     let s := { sMove m [] { pondPart with p0free := [0x2000000] } 9 with flushes := List.replicate 1024 { flushF (some 0) with id := 9 } }
     s.moveHeld m = false ∧ pairFull s 0) ∧
    (∀ p ∈ [(1, 1, false), (2, 2, true), (1, 2, true)], ∀ left ∈ [[], [(0, 65536)]], let m := moveM p.1 p.2.1 p.2.2 left
      let s := sMove m [cmdE 3 (.promo 0x5000 0 1)] pondPart 9
      Movable s m (cmdE 3 (.promo 0x5000 0 1)) 0x104100 0x30000178 ∧ findKey (fun (m : PageMove) => m.id) 7 s.moves = some m ∧ NoFlushWaits s 0) ∧
    (∀ clk, let m := moveM 1 2 true []; let s := sMove m [] {} clk
      findKey (fun (m : PageMove) => m.id) 7 s.moves = some m ∧ s.moveHeld m = false ∧ s.clock = clk ∧ (s.part 0).lockstep = false ∧ NoFlushWaits s 0) ∧
    (3300000008 < 9 + 3300000000 ∧ 9 + 3300000000 ≤ 3300000009) ∧
    (∀ clk, let s := sFlush [flushF (some 1)] clk
      findKey (fun (m : PageMove) => m.id) 7 s.moves = none ∧ findKey (fun (f : Flush) => f.id) 7 s.flushes = some (flushF (some 1)) ∧ NoFlushWaits s 0) ∧
    (∃ s : State, (s.part 0).poolLow = false) ∧
    (let s := sMove (moveM 1 2 true []) [] { poolLow := true, lastPoolIrq := some 7 } 330007
     (s.part 0).poolLow = true ∧ 7 + 330000 ≤ s.clock ∧ ¬ 8 + 330000 ≤ s.clock) := by
  refine ⟨?_, ⟨rfl, by unfold pairFull; decide +kernel⟩, fun p _ left _ => ⟨movable _ _ _ _, rfl, fun _ h => absurd h List.not_mem_nil⟩,
    fun _ => ⟨rfl, rfl, rfl, rfl, fun _ h => absurd h List.not_mem_nil⟩, ⟨by decide, by decide⟩, fun clk => ⟨rfl, rfl, ?_⟩, ⟨{}, rfl⟩, rfl, by decide, by decide⟩
  · intro fs hf src hs
    refine ⟨rfl, rfl, rfl, rfl, ?_⟩
    simp only [List.mem_cons, List.not_mem_nil, or_false] at hf hs
    rcases hf with rfl | rfl <;> rcases hs with rfl | rfl <;> unfold pairFull <;> decide +kernel
  · intro f hf _
    obtain rfl : f = _ := List.mem_singleton.mp hf
    exact nofun

theorem witness_WakesAndPageMoves : (∃ (s : State) (c : Cmd) (pas : List Nat), EntryOpen s c 0x5000 pas 0x5004) ∧
    ∃ (s : State) (m : PageMove) (c : Cmd), Movable s m c 0x104100 0x30000178 := ⟨⟨_, _, _, open_wake 0 0 []⟩, _, _, _, movable 1 1 false []⟩

/-- A package that is up, with some partitions. -/
def sPack (ps : Map Partition) : State :=
  { parts := ps, powered := true, nextId := 90, mailbox := { stepDone := 4 }, mem := filled [(0x12000, 32, headerNat)] }

theorem witness_PackageEvents :
    ((2 ^ 39 - 1 : Nat) < 2 ^ 39 ∧ (2 ^ 39 : Nat) ≤ 2 ^ 39 ∧ (∀ k, RakeDue (sPack []) k) ∧ ¬ RakeDue { sPack [] with rakeLen := 600, rakeCnt := mset 0 [] (rakeAt 0) (2 ^ 22) } (rakeAt 0)) ∧
    ({ sPack [] with uncorr := [(0, true)] } : State).poisoned 0 = true ∧ ((sPack []).poisoned 0 = false ∧ (mget ({} : ErrBank) (sPack []).errs 4).held.val = false ∧
      (mget ({} : ErrBank) (sPack []).errs 4).lat = false) ∧ (sPack [(0, { exists_ := true, quads := [0] })]).partOfQuad 0 = some 0 ∧
    ((sPack []).powered = true ∧ (∃ s : State, s.powered = false ∧ s.fw0.valid = true ∧ s.fwActive = 0) ∧
      (∃ s : State, s.powered = false ∧ s.fwActive ≤ 1 ∧ s.fw0.valid = false ∧ s.fw1.valid = true) ∧
      ∃ s : State, s.powered = false ∧ s.fw0.valid = false ∧ s.fw1.valid = false) ∧
    ((∃ s : State, s.mailbox.result = none) ∧ ∃ s : State, s.mailbox.result = some 7) :=
  ⟨⟨by decide, by decide, fun k => .inl (by show 0 < 2 ^ 22; decide), fun h => by
      have hg : mget 0 (mset 0 [] (rakeAt 0) (2 ^ 22)) (rakeAt 0) = 2 ^ 22 := mget_mset_same (lo := 0) rfl
      rcases h with h | h
      · exact absurd (hg ▸ h) (by decide)
      · exact absurd h (by show ¬ 0 + 600 * 3300000000 ≤ 0; decide)⟩, rfl, ⟨rfl, rfl, rfl⟩, by decide +kernel, ⟨rfl, ⟨{}, rfl, rfl, rfl⟩, ⟨{ fw0 := { valid := false } }, rfl, by decide, rfl, rfl⟩,
    ⟨{ fw0 := { valid := false }, fw1 := { valid := false } }, rfl, rfl, rfl⟩⟩, ⟨{}, rfl⟩, { mailbox := { result := some 7 } }, rfl⟩

/-- The header that `START_MANAGER` reads at 0x12000. -/
def mgrHeader : LHdr := parseHeader ((List.range 640).map fun i => (sPack [(0, { exists_ := true, quads := [0] })]).byte (0x12000 + i))

/-- A header of a range, and a state in which another launch holds the store of the manager's position. -/
def sFull : State :=
  { sPack [(0, { exists_ := true, quads := [0] })] with
    mem := filled [(0x12000, 32, headerNat + 4096 * 2 ^ 96)]
    launches := [{ id := 9, part := 0, tenant := 0, origin := .device 1, hdr := {}, coStart := 0, rangeLen := 393216 }]
    blocks := [{ id := 8, launch := 9, patch := 1, ep := 0, part := 0, tenant := 0, stg := 0, restartable := false, alive := 1 }] }
def fullHeader : LHdr := parseHeader ((List.range 640).map fun i => sFull.devByte (0x12000 + i))

theorem witness_MailboxCommands :
    ((sPack []).powered = true ∧ (sPack []).mailbox.busy = false ∧ ∃ s : State, s.powered = true ∧ s.mailbox.stepDone < 4 ∧ s.mailbox.busy = false) ∧
    (∀ ps, ∀ n, Open (sPack ps) n) ∧ (∀ n ∈ [1, 6, 7, 8, 9], Takes (sPack []) n 255) ∧ ¬ Takes (sPack []) 2 0 ∧ ¬ Takes (sPack []) 1 0 ∧
    Takes (sPack [(0, { exists_ := true, quads := [0] })]) 2 0 ∧
    (mwf ({} : Partition) (sPack []).parts = true ∧ GoodMap (sPack []) (argOf [1, 2, 12, 0]) ∧ ¬ GoodMap (sPack []) (argOf [6, 0, 0, 0]) ∧
      (∃ k, k < 4 ∧ Changes (sPack []) k (argOf [1, 2, 12, 0] k)) ∧ ∀ k, k < 4 → Idle (sPack []) k) ∧
    (let s := sPack [(0, { exists_ := true, quads := [0], slots := [(3, { mapped := true })] })]
     GoodMap s (argOf [0, 0, 0, 0]) ∧ Changes s 0 (argOf [0, 0, 0, 0] 0) ∧ ¬ Idle s 0) ∧
    (let s := sPack [(0, { exists_ := true, quads := [0] })]
     argsOf (bytesLE 0x12000 8) 0 8 = 0x12000 ∧ paExists 0x12000 = true ∧ 0x12000 % 64 = 0 ∧ mgrHeader.managerOk = true ∧ (∃ v, s.startManager 0 0x12000 mgrHeader = some v)) ∧
    (fullHeader.managerOk = true ∧ sFull.startManager 0 0x12000 fullHeader = none) ∧
    ((∀ d ∈ [[10, 0, 0, 0], [255, 3, 0, 0]], d.length = 4 ∧ 9 < argOf d 0) ∧ argOf [0, 0, 0, 0] 0 = 0 ∧ (1 ≤ argOf [9, 0, 0, 0] 0 ∧ argOf [9, 0, 0, 0] 0 ≤ 9) ∧
      (∀ p ∈ [(0x10, 240), (0xFF, 1)], 0x10 ≤ p.1 ∧ p.1 + (List.replicate p.2 (7 : Byte)).length ≤ 0x100 ∧ List.replicate p.2 (7 : Byte) ≠ [])) ∧
    (argsOf (bytesLE 600 4) 0 4 = 600 ∧ argsOf (bytesLE 86400 4) 0 4 = 86400 ∧ argsOf (bytesLE 599 4) 0 4 < 600 ∧ 86400 < argsOf (bytesLE 86401 4) 0 4) ∧
    (argsOf (bytesLE (2 ^ 54) 8) 0 8 + argsOf [0, 0, 0, 0, 0, 0, 0, 0, 1, 0, 0, 0] 8 4 = 2 ^ 54 + 1 ∧
      ∀ image, Config.imageSignatureVerifies image = true ∨ Config.imageSignatureVerifies image = false) := by
  have hw : ((sPack [(0, { exists_ := true, quads := [0] })]).startManager 0 0x12000 mgrHeader).isSome = true := by decide +kernel
  refine ⟨⟨rfl, rfl, { powered := true }, rfl, by decide, rfl⟩, fun _ _ => ⟨rfl, rfl, fun _ => Nat.le_refl 4⟩, ?_, ?_, ?_, ?_, ⟨rfl, ⟨?_, ?_, fun _ h => by cases h⟩, ?_, ?_, ?_⟩,
    ⟨⟨?_, ?_, fun _ h => by cases h⟩, ?_, ?_⟩, ⟨by decide +kernel, by decide, by decide, by decide +kernel, Option.isSome_iff_exists.mp hw⟩, ⟨by decide +kernel, Option.isNone_iff_eq_none.mp (by decide +kernel)⟩,
    ⟨by decide, by decide, by decide, by decide +kernel⟩,
    ⟨by decide +kernel, by decide +kernel, by decide +kernel, by decide +kernel⟩, ⟨by decide +kernel, fun image => by cases Config.imageSignatureVerifies image <;> simp⟩⟩
  · intro n hn
    simp only [List.mem_cons, List.not_mem_nil, or_false] at hn
    rcases hn with rfl | rfl | rfl | rfl | rfl <;> rfl
  · exact fun h => by cases h.2
  · exact fun h => by cases h
  · exact ⟨by decide, by decide +kernel⟩
  · exact by decide
  · intro j k hj hk
    have : ∀ k < 4, ∀ j < k, argOf [1, 2, 12, 0] j &&& argOf [1, 2, 12, 0] k = 0 := by decide
    exact this k hk j hj
  · exact fun h => absurd (h.1 0 (by decide)) (by decide)
  · exact ⟨2, by decide, by simp only [Changes]; decide +kernel⟩
  · intro k _
    exact ⟨fun _ _ => rfl, fun _ _ => rfl, rfl⟩
  · exact by decide
  · intro j k hj hk
    have : ∀ k < 4, ∀ j < k, argOf [0, 0, 0, 0] j &&& argOf [0, 0, 0, 0] k = 0 := by decide
    exact this k hk j hj
  · simp only [Changes]; decide +kernel
  · exact fun h => absurd (h.2.1 3 (by decide)) (by decide +kernel)

/-- The state of a package that takes commands, with that partition. -/
def sPair (p : Partition) (mem : List (Nat × Nat × Nat)) : State :=
  { sTen gSup mem with parts := [(0, p)], powered := true, mailbox := { stepDone := 4 } }

/-- Sixteen bytes of a digest, a role and a link. -/
def roleArg (role link : Byte) : List Byte := List.replicate 16 0x5A#8 ++ [role, link]

def pairedPart : Partition := { tenantPart with lockstep := true, pairStopped := false }
def brokenPart : Partition := { tenantPart with lockstep := true, pairStopped := true }

theorem pair_open (p : Partition) (mem : List (Nat × Nat × Nat)) (n : Nat) : Open (sPair p mem) n := ⟨rfl, rfl, fun _ => Nat.le_refl 4⟩

/-- A state with one forwarded input. -/
def inputs (due : Nat) (ev : Move) : State := { pairIn := [{ id := 7, part := 0, due := due, ev := ev }] }

theorem witness_PairingEvents :
    (∀ n ∈ [3, 4, 5], Takes (sPair { exists_ := true } []) n 0 ∧ Takes (sPair pairedPart []) n 0 ∧ Takes (sPair brokenPart []) n 0) ∧
    (argOf (roleArg 1 3) 16 ≤ 1 ∧ argOf (roleArg 1 3) 17 ≤ 3 ∧ 1 < argOf (roleArg 2 3) 16 ∧ 3 < argOf (roleArg 1 4) 17) ∧
    (((sPair pairedPart []).part 0).lockstep = true ∧ ((sPair { exists_ := true } []).part 0).lockstep = false) ∧
    ((∃ t, t < 16 ∧ State.holdsContext { sPair { exists_ := true } [] with blocks := [{ id := 5, launch := 5, patch := 1, ep := 0, part := 0, tenant := 0, stg := 0, restartable := false, alive := 1 }] } 0 t = true) ∧
      ∀ t, t < 16 → (sPair { exists_ := true } []).holdsContext 0 t = false) ∧
    (let s : State := { sPair { exists_ := true } [] with peerCounts := [5, 6] }
     Open s 3 ∧ Takes s 3 0 ∧ (∀ t, t < 16 → s.holdsContext 0 t = false) ∧ (s.part 0).lockstep = false ∧ s.peerCounts = 5 :: [6]) ∧
    (((sPair pairedPart []).part 0).pairStopped = false ∧ ((sPair brokenPart []).part 0).lockstep = true ∧
      ((sPair brokenPart []).part 0).pairStopped = true ∧ ∀ x ∈ (sPair brokenPart []).sigs, x.part ≠ 0) ∧
    ((sPair brokenPart [(0x40000, 1, 1)]).resetPart 0 = none ∧
      ∃ v, (sPair brokenPart []).resetPart 0 = some v ∧ v.part 0 = { v.part 0 with exists_ := true }) ∧
    (∃ (s : State) (x : PairInput), s.pairIn.find? (fun x => x.id = 7) = some x ∧ s.clock < x.due) ∧
    (∃ (s : State) (x : PairInput), s.pairIn.find? (fun x => x.id = 7) = some x ∧ x.due ≤ s.clock ∧ x.ev = .event (.watchdogExpiry x.part 5)) ∧
    (∃ (s : State) (x : PairInput), s.pairIn.find? (fun x => x.id = 7) = some x ∧ x.due ≤ s.clock ∧ x.ev = .event (.poolLowInterrupt x.part)) ∧
    (∃ (s : State) (x : PairInput) (g : Group), s.pairIn.find? (fun x => x.id = 7) = some x ∧ x.due ≤ s.clock ∧ x.ev = .flaw (.chip 1 0 0 true 0) ∧
      s.group? 1 = some g ∧ g.part = x.part ∧ g.sys = false ∧ s.restartable g.block = false ∧ (s.block? g.block).isSome = true) ∧
    (∃ s : State, s.pairIn.find? (fun x => x.id = 7) = none ∧ ∀ j, (s.part j).lockstep = false) ∧
    (∃ s : State, s.sigs.find? (fun x => x.id = 7) = none) ∧
    (∃ (s : State) (x : SigPoint), s.sigs.find? (fun x => x.id = 7) = some x ∧ (s.part x.part).pairStopped = true) ∧
    (∀ a ∈ [SigAct.irq 9 1 2, .write 0x1000 [5]], ∀ p ∈ [{}, pairedPart, { pairedPart with role := 1 }], let x : SigPoint := { id := 7, part := 0, gid := 3, sig := 9, act := a }
      let s : State := { sigs := [x], parts := [(0, p)] }
      s.sigs.find? (fun x => x.id = 7) = some x ∧ (s.part x.part).pairStopped = false ∧ s.memOk ∧ x.sig ≠ 8#32) ∧
    (pairedPart.lockstep = true ∧ pairedPart.role = 0) ∧
    (∀ clk, let s := { sPair { pairedPart with beatAt := 7 } [] with clock := clk }
      (s.part 0).lockstep = true ∧ (s.part 0).pairStopped = false ∧ (s.clock < (s.part 0).beatAt + 33000 ↔ clk < 33007)) := by
  refine ⟨?_, ⟨by decide, by decide, by decide, by decide⟩, ⟨rfl, rfl⟩, ⟨⟨0, by decide, by decide +kernel⟩, fun _ _ => rfl⟩,
    ⟨⟨rfl, rfl, fun _ => Nat.le_refl 4⟩, ⟨by decide, rfl⟩, fun _ _ => rfl, rfl, rfl⟩,
    ⟨rfl, rfl, rfl, fun _ h => (List.not_mem_nil h).elim⟩, ⟨by decide +kernel, ?_⟩,
    ⟨inputs 5 (.event (.poolLowInterrupt 0)), _, rfl, by decide⟩, ⟨inputs 0 (.event (.watchdogExpiry 0 5)), _, rfl, by decide, rfl⟩,
    ⟨inputs 0 (.event (.poolLowInterrupt 0)), _, rfl, by decide, rfl⟩,
    ⟨{ onPan { gMem with sys := false } with pairIn := (inputs 0 (.flaw (.chip 1 0 0 true 0))).pairIn }, _, _, rfl, by decide, rfl, rfl, rfl, rfl, rfl, rfl⟩,
    ⟨{}, rfl, fun _ => rfl⟩, ⟨{}, rfl⟩,
    ⟨{ sigs := [{ id := 7, part := 0, gid := 3, sig := 9, act := .irq 9 1 2 }], parts := [(0, brokenPart)] }, _, rfl, rfl⟩, ?_, ⟨rfl, rfl⟩, fun clk => ⟨rfl, rfl, by show clk < 7 + 33000 ↔ _; omega⟩⟩
  · intro n hn
    simp only [List.mem_cons, List.not_mem_nil, or_false] at hn
    rcases hn with rfl | rfl | rfl <;> exact ⟨⟨by decide, rfl⟩, ⟨by decide, rfl⟩, ⟨by decide, rfl⟩⟩
  · have hv : ((sPair brokenPart []).resetPart 0).elim false (fun v => (v.part 0).exists_) = true := by decide +kernel
    match h : (sPair brokenPart []).resetPart 0 with
    | none => rw [h] at hv; cases hv
    | some v =>
      rw [h] at hv
      refine ⟨v, rfl, ?_⟩
      have hv : (v.part 0).exists_ = true := hv
      rw [← hv]
  · intro a ha p hp
    simp only [List.mem_cons, List.not_mem_nil, or_false] at ha hp
    rcases ha with rfl | rfl <;> rcases hp with rfl | rfl | rfl <;> exact ⟨rfl, rfl, rfl, by decide⟩

theorem witness_AttestationRequests :
    (∃ s : State, s.powered = true ∧ s.spdm.version = true ∧ s.spdm.caps = true ∧ s.spdm.algs = true) ∧
    (∃ s : State, s.powered = true ∧ s.spdm.version = false ∧ s.spdm.caps = false ∧ s.spdm.algs = false) ∧ (∃ s : State, s.powered = false) ∧
    ∀ req, Config.slotNamed req = 0 ∨ Config.slotNamed req ≠ 0 :=
  ⟨⟨{ powered := true, spdm := { version := true, caps := true, algs := true } }, rfl, rfl, rfl, rfl⟩, ⟨{ powered := true }, rfl, rfl, rfl, rfl⟩, ⟨{}, rfl⟩, fun _ => Decidable.em _⟩

theorem witness_StepsKeepMemory : ∃ s t : State, s.memOk ∧ step s = .next t ∧ t.clock = 5 :=
  ⟨{ agenda := [.elapse 5] }, _, rfl, rfl, rfl⟩

theorem witness_DecodeInvertsEncode :
    isWord (.iadd plain .s32 false (.lane 255) (.lane 0) (.uni 63)) = true ∧ Instr.wf (.iadd plain .s32 false (.lane 255) (.lane 0) (.uni 63)) = true :=
  ⟨rfl, by decide⟩

theorem witness_RegisterReadsAfterWrites : ({} : Group).regsOk := ⟨rfl, rfl, rfl⟩

theorem witness_TranscendentalBounds : ∃ w1 w2 w3 w4 : Word32, ∃ m1 m2 m3 m4 : Nat, ∃ e1 e2 e3 e4 : Int,
    (fmtF32.decode w1.toNat = .num false m1 e1 ∧ (ratOf false m1 e1 : ℚ) = 1) ∧
    (fmtF32.decode w2.toNat = .num false m2 e2 ∧ (ratOf false m2 e2 : ℚ) = 128) ∧
    (fmtF32.decode w3.toNat = .num true m3 e3 ∧ 2 ^ 15 * Real.pi < |((ratOf true m3 e3 : ℚ) : ℝ)|) ∧
    (fmtF32.decode w4.toNat = .num false m4 e4 ∧ (ratOf false m4 e4 : ℚ) = 1 / 4) := by
  refine ⟨0x3F800000, 0x43000000, 0xC8000000, 0x3E800000, 2 ^ 23, 2 ^ 23, 2 ^ 23, 2 ^ 23, -23, -16, -6, -25, ⟨by decide, ?_⟩, ⟨by decide, ?_⟩, ⟨by decide, ?_⟩, ⟨by decide, ?_⟩⟩
  · norm_num [ratOf]
  · norm_num [ratOf]
  · have := Real.pi_lt_d2
    norm_num [ratOf, abs_of_neg]
    linarith
  · norm_num [ratOf]

/-- After reset, a word stands where the next step fetches: what the step picks, fetches and decodes. -/
def placed (w : Word96) : State := { State.reset.withFetchWord 96 w.toNat with agenda := [], tick := 1 }
def placedPick (w : Word96) : State × Option (Group × Bool) := (placed w).pick 0 []
def fetchedAs (w : Word96) (i : Instr) (inClause : Bool) : Bool :=
  match placedPick w with
  | (t, some (g, false)) =>
    match g.path? false with
    | some p => decide (p.pc.toNat < 1048576) && decide (t.uncorr = []) && decide (t.codeWord g (t.codeBase g) p.pc = .ok w) &&
        decide (decode w = .ok i) && p.clause.isSome == inClause
    | none => false
  | _ => false

theorem fetched_is {w : Word96} {i : Instr} {b : Bool} (h : fetchedAs w i b = true) :
    ∃ (t : State) (g : Group) (p : Path), placedPick w = (t, some (g, false)) ∧ g.path? false = some p ∧ p.pc.toNat < 1048576 ∧ t.uncorr = [] ∧
      t.codeWord g (t.codeBase g) p.pc = .ok w ∧ decode w = .ok i ∧ p.clause.isSome = b := by
  unfold fetchedAs at h
  split at h
  · rename_i t g hp
    split at h
    · rename_i p hq
      simp only [Bool.and_eq_true, decide_eq_true_eq, beq_iff_eq] at h
      exact ⟨t, g, p, hp, hq, h.1.1.1.1, h.1.1.1.2, h.1.1.2, h.1.2, h.2⟩
    · cases h
  · cases h

/-- A header, and a word that is none. -/
def hdrWord : Word96 := encode (.clause { len := 1, wait := 0, f0v := true, f0n := 0, f1v := true, f1n := 1, rsv := 0 })

theorem witness_StepRunsDecodedWord :
    (∃ (s t : State) (r : List Move) (g : Group) (p : Path), s.agenda = .issue 0 :: r ∧
      State.pick { s with agenda := r, tick := s.tick + 1 } 0 [] = (t, some (g, false)) ∧ g.path? false = some p ∧ p.pc.toNat < 1048576 ∧
      t.uncorr = [] ∧ t.codeWord g (t.codeBase g) p.pc = .ok reconvWord ∧ decode reconvWord = .ok (.reconv plain) ∧ p.clause.isSome = true) ∧
    (∃ (s t : State) (r : List Move) (g : Group) (p : Path) (h : Header), s.agenda = .issue 0 :: r ∧
      State.pick { s with agenda := r, tick := s.tick + 1 } 0 [] = (t, some (g, false)) ∧ g.path? false = some p ∧ p.pc.toNat < 1048576 ∧
      t.uncorr = [] ∧ t.codeWord g (t.codeBase g) p.pc = .ok hdrWord ∧ decode hdrWord = .ok (.clause h) ∧ p.clause.isSome = false) ∧
    (∃ (s t : State) (r : List Move), s.agenda = .issue 0 :: r ∧ State.pick { s with agenda := r, tick := s.tick + 1 } 0 [] = (t, none)) ∧
    (∃ (s : State) (i : Instr) (r : List Move), s.agenda = .event i :: r ∧ isWord i = false) ∧
    (∃ (s : State) (n : Nat) (r : List Move), s.agenda = .elapse n :: r) ∧ (∃ (s : State) (f : Flaw) (r : List Move), s.agenda = .flaw f :: r) ∧
    ∃ s : State, s.agenda = [] := by
  refine ⟨?_, ?_, ⟨{ agenda := [.issue 0] }, _, _, rfl, rfl⟩, ⟨{ agenda := [.event .packageReset] }, _, _, rfl, rfl⟩,
    ⟨{ agenda := [.elapse 5] }, _, _, rfl⟩, ⟨{ agenda := [.flaw (.sector 32)] }, _, _, rfl⟩, {}, rfl⟩
  · obtain ⟨t, g, p, h⟩ := fetched_is (w := reconvWord) (i := .reconv plain) (b := true) (by decide +kernel)
    exact ⟨State.reset.withFetchWord 96 reconvWord.toNat, t, [], g, p, rfl, h⟩
  · obtain ⟨t, g, p, h⟩ := fetched_is (w := hdrWord) (i := .clause { len := 1, wait := 0, f0v := true, f0n := 0, f1v := true, f1n := 1, rsv := 0 }) (b := false) (by decide +kernel)
    exact ⟨State.reset.withFetchWord 96 hdrWord.toNat, t, [], g, p, _, rfl, h⟩
end Sys2Proof.Tests
end

section
/-! SUPPORT. The bits of lane masks, of little-endian bytes and of words, and the words of R126: the model's and the statements' views
of a value at a type's width are the same. -/

namespace Sys2Proof.Machine

open Sys2Proof.Says

/-! ### Lanes and bytes -/

/-- The model's list of naturals is the library's. -/
theorem range_eq_range' (a n : Nat) : range a n = List.range' a n := by
  induction n generalizing a with
  | zero => rfl
  | succ n ih => simp [range, ih, List.range'_succ]

/-- A bit of a natural is the library's. -/
theorem bitOf_eq_testBit (x i : Nat) : bitOf x i = x.testBit i := by
  rw [Nat.testBit_eq_decide_div_mod_eq]; rfl

/-- The little-endian bytes of a value by their index. -/
theorem bytesLE_eq_map (x n : Nat) : bytesLE x n = (List.range n).map fun j => BitVec.ofNat 8 (x / 256 ^ j) := by
  induction n generalizing x with
  | zero => rfl
  | succ n ih =>
    simp [bytesLE, ih, List.range_succ_eq_map, Nat.div_div_eq_div_mul, Nat.pow_succ', Function.comp_def]

/-- Bit k of byte j of a value is bit 8j + k of the value. -/
theorem getLsbD_byte (x j k : Nat) (h : k < 8) : (BitVec.ofNat 8 (x / 256 ^ j)).getLsbD k = x.testBit (8 * j + k) := by
  rw [show (256 : Nat) = 2 ^ 8 from rfl, ← Nat.pow_mul, BitVec.getLsbD_ofNat, Nat.testBit_div_two_pow, Nat.add_comm]
  simp [h]

/-- A bit of a value given by its little-endian bytes. -/
theorem testBit_valueLE (l : List Byte) (i : Nat) : (valueLE l).testBit i = (l.getD (i / 8) 0).getLsbD (i % 8) := by
  induction l generalizing i with
  | nil => simp [valueLE]
  | cons b r ih =>
    rw [valueLE, show (256 : Nat) = 2 ^ 8 from rfl, Nat.add_comm, Nat.testBit_two_pow_mul_add _ b.isLt]
    split
    · rename_i h
      rw [Nat.div_eq_of_lt h, Nat.mod_eq_of_lt h]; rfl
    · rename_i h
      obtain ⟨k, rfl⟩ : ∃ k, i = k + 8 := ⟨i - 8, by omega⟩
      simp [ih]

/-- Past its length a list of bytes reads zero. -/
theorem getD_bytesLE (x n j : Nat) : (bytesLE x n).getD j 0 = if j < n then BitVec.ofNat 8 (x / 256 ^ j) else 0 := by
  rw [bytesLE_eq_map, List.getD_eq_getElem?_getD]
  split <;> simp [*]

theorem getD_reverse_bytesLE (x n j : Nat) :
    (bytesLE x n).reverse.getD j 0 = if j < n then BitVec.ofNat 8 (x / 256 ^ (n - 1 - j)) else 0 := by
  rw [bytesLE_eq_map, List.getD_eq_getElem?_getD]
  split
  · rw [List.getElem?_reverse (by simpa)]
    simp [show n - 1 - j < n by omega]
  · simp [*]

/-- The word of one bit. -/
theorem getLsbD_one_shiftLeft (w k i : Nat) : (1#w <<< k).getLsbD i = (decide (k < w) && decide (k = i)) :=
  BitVec.getLsbD_twoPow k i

/-- Setting the lanes of a list that satisfy a predicate, over the lanes of a mask. -/
theorem getLsbD_foldl_setLane (f : Nat → Bool) (l : List Nat) (m : Lanes) (i : Nat) :
    (l.foldl (fun m l => if f l then m ||| (1#32 <<< l) else m) m).getLsbD i =
      (m.getLsbD i || (decide (i < 32) && (decide (i ∈ l) && f i))) := by
  induction l generalizing m with
  | nil => simp
  | cons k r ih =>
    rw [List.foldl_cons, ih]
    by_cases hk : i = k
    · subst hk
      by_cases hi : i < 32
      · cases hf : f i <;> simp [hi]
      · split <;> simp [hi]
    · have h1 : (1#32 <<< k).getLsbD i = false := by rw [getLsbD_one_shiftLeft]; simp [Ne.symm hk]
      split <;> simp [hk, h1]

/-- The mask of the lanes that satisfy a predicate, lane by lane. -/
theorem getLsbD_maskOf (f : Nat → Bool) (l : Nat) : (maskOf f).getLsbD l = (decide (l < 32) && f l) := by
  rw [maskOf, getLsbD_foldl_setLane, allLanes, range_eq_range']
  by_cases h : l < 32 <;> simp [h, List.mem_range'_1]

theorem mem_lanesOf {m : Lanes} {l : Nat} : l ∈ lanesOf m ↔ l < 32 ∧ m.getLsbD l = true := by
  simp [lanesOf, allLanes, range_eq_range', List.mem_range'_1]

/-- A predicate that agrees with a mask in every lane has that mask. -/
theorem maskOf_eq {f : Nat → Bool} {m : Lanes} (h : ∀ l, l < 32 → f l = m.getLsbD l) : maskOf f = m :=
  BitVec.eq_of_getLsbD_eq fun l hl => by rw [getLsbD_maskOf, h l hl]; simp [hl]

/-! ### Words given bit by bit -/

/-- The value of the bits below w, of which `fromBits` makes a word. -/
def bitSum (w : Nat) (f : Nat → Bool) : Nat := ((List.range w).map fun i => if f i then 2 ^ i else 0).sum

/-- The highest bit apart. -/
theorem bitSum_succ (w : Nat) (f : Nat → Bool) : bitSum (w + 1) f = 2 ^ w * (f w).toNat + bitSum w f := by
  cases h : f w <;> simp [bitSum, List.range_succ, h, Nat.add_comm]

theorem bitSum_lt (w : Nat) (f : Nat → Bool) : bitSum w f < 2 ^ w := by
  induction w with
  | zero => simp [bitSum]
  | succ w ih =>
    have := Bool.toNat_le (f w)
    rw [bitSum_succ, Nat.pow_succ]
    nlinarith

theorem testBit_bitSum (w : Nat) (f : Nat → Bool) (i : Nat) : (bitSum w f).testBit i = (decide (i < w) && f i) := by
  induction w with
  | zero => simp [bitSum]
  | succ w ih =>
    rw [bitSum_succ, Nat.testBit_two_pow_mul_add _ (bitSum_lt w f), ih]
    rcases Nat.lt_trichotomy i w with h | rfl | h
    · simp [h, Nat.lt_succ_of_lt h]
    · cases f i <;> simp
    · have : ¬ i < w := by omega
      have : ¬ i < w + 1 := by omega
      have : (f w).toNat < 2 ^ (i - w) := (Bool.toNat_lt _).trans_le (Nat.le_self_pow (by omega) 2)
      simp [*, Nat.testBit_lt_two_pow this]

theorem fromBits_eq_bitSum (w : Nat) (f : Nat → Bool) : fromBits w f = BitVec.ofNat 64 (bitSum w f) := rfl

@[simp] theorem getLsbD_fromBits (w : Nat) (f : Nat → Bool) (i : Nat) :
    (fromBits w f).getLsbD i = (decide (i < 64) && (decide (i < w) && f i)) := by
  rw [fromBits_eq_bitSum, BitVec.getLsbD_ofNat, testBit_bitSum]

/-- A word is given by its bits below w where the bits above are zero. -/
theorem eq_fromBits {x : Word64} {w : Nat} {f : Nat → Bool}
    (h : ∀ i, i < 64 → x.getLsbD i = (decide (i < w) && f i)) : x = fromBits w f :=
  BitVec.eq_of_getLsbD_eq fun i hi => by rw [h i hi, getLsbD_fromBits]; simp [hi]

theorem ofNat_eq_fromBits {x w : Nat} {f : Nat → Bool}
    (h : ∀ i, x.testBit i = (decide (i < w) && f i)) : BitVec.ofNat 64 x = fromBits w f :=
  eq_fromBits fun i hi => by rw [BitVec.getLsbD_ofNat, h]; simp [hi]

/-- The lowest bit apart. -/
theorem bitSum_succ' (w : Nat) (f : Nat → Bool) : bitSum (w + 1) f = (f 0).toNat + 2 * bitSum w fun i => f (i + 1) := by
  have h : ∀ i, (if f (i + 1) then 2 ^ (i + 1) else 0) = 2 * if f (i + 1) then 2 ^ i else 0 := fun i => by
    split <;> simp [Nat.pow_succ']
  simp only [bitSum, List.range_succ_eq_map, List.map_cons, List.map_map, Function.comp_def, List.sum_cons, Nat.succ_eq_add_one, h,
    List.sum_map_mul_left]
  cases f 0 <;> rfl

/-! ### The words of R126 -/

/-- The two operating widths. -/
theorem width_cases (t : Ty) : (wideTy t = false ∧ width t = 32) ∨ (wideTy t = true ∧ width t = 64) := by
  unfold width; cases wideTy t <;> simp

theorem width_pos (t : Ty) : 0 < width t := by rcases width_cases t with ⟨_, h⟩ | ⟨_, h⟩ <;> omega

theorem width_le (t : Ty) : width t ≤ 64 := by rcases width_cases t with ⟨_, h⟩ | ⟨_, h⟩ <;> omega

theorem widthOf_eq_width (t : Ty) : widthOf t = width t := rfl

/-- ux is the value modulo 2^W. -/
theorem uxW_eq_nat (t : Ty) (x : Word64) : uxW (wideTy t) x = nat t x := by
  rcases width_cases t with ⟨h, hw⟩ | ⟨h, hw⟩
  · simp only [uxW, maskW, nat, h, hw, Bool.false_eq_true, if_false, BitVec.toNat_and]
    exact Nat.and_two_pow_sub_one_eq_mod x.toNat 32
  · simp [uxW, maskW, nat, h, hw, Nat.mod_eq_of_lt x.isLt]

theorem nat_lt (t : Ty) (x : Word64) : nat t x < 2 ^ width t := Nat.mod_lt _ (by positivity)

@[simp] theorem testBit_nat (t : Ty) (x : Word64) (i : Nat) : (nat t x).testBit i = (decide (i < width t) && x.getLsbD i) := by
  rw [nat, Nat.testBit_mod_two_pow]; rfl

/-- sx is the two's complement reading of the low W bits. -/
theorem sxW_eq_view (t : Ty) (x : Word64) : sxW (wideTy t) x = view (width t) true x := by
  rcases width_cases t with ⟨h, hw⟩ | ⟨h, hw⟩
  · have hlow : (x.extractLsb' 0 32).toNat = x.toNat % 2 ^ 32 := by simp
    simp only [sxW, h, hw, view, Bool.true_and, Bool.false_eq_true, if_false, BitVec.toInt_eq_toNat_cond, decide_eq_true_eq, hlow]
    split <;> split <;> omega
  · simp only [sxW, h, hw, view, Bool.true_and, if_true, BitVec.toInt_eq_toNat_cond, decide_eq_true_eq]
    have := x.isLt
    split <;> split <;> omega

theorem viewT_eq_val (t : Ty) (x : Word64) : viewT t x = val t x := by
  rw [viewT, val, sxW_eq_view, uxW_eq_nat]
  cases h : signedTy t
  · simp [view, nat]
  · simp

theorem wrapW_eq_modW (t : Ty) (z : Int) : wrapW (wideTy t) z = modW t z := by
  apply BitVec.eq_of_toNat_eq
  change uxW (wideTy t) (BitVec.ofInt 64 z) = _
  rw [uxW_eq_nat, nat, modW, BitVec.toNat_ofInt, BitVec.toNat_ofNat]
  rcases width_cases t with ⟨h, hw⟩ | ⟨h, hw⟩ <;> rw [hw] <;> omega

theorem satT_eq_orSat (sat : Bool) (t : Ty) (z : Int) : satT sat t z = orSat sat t z := by
  rw [satT, wrapW_eq_modW]; rfl

theorem getLsbD_maskW (t : Ty) (x : Word64) (i : Nat) : (maskW (wideTy t) x).getLsbD i = (decide (i < width t) && x.getLsbD i) := by
  rw [← testBit_nat, ← uxW_eq_nat]; rfl

end Sys2Proof.Machine
end

section
/-! SUPPORT. What each function of the integer instructions computes, in the terms of R131 to R143. -/

namespace Sys2Proof.Machine

open Sys2Proof.Says

/-! ### Arithmetic (R131, R132) -/

theorem aluAdd_eq (sat : Bool) (t : Ty) (a b : Word64) : aluAdd t sat a b = orSat sat t (val t a + val t b) := by
  rw [aluAdd, satT_eq_orSat, viewT_eq_val, viewT_eq_val]

theorem aluSub_eq (sat : Bool) (t : Ty) (a b : Word64) : aluSub t sat a b = orSat sat t (val t a - val t b) := by
  rw [aluSub, satT_eq_orSat, viewT_eq_val, viewT_eq_val]

theorem aluAbs_eq (sat : Bool) (t : Ty) (a : Word64) : aluAbs t sat a = orSat sat t |val t a| := by
  rw [aluAbs, satT_eq_orSat, viewT_eq_val, Int.natCast_natAbs]

theorem aluMul_eq (t : Ty) (a b : Word64) : aluMul t a b = modW t (val t a * val t b) := by
  rw [aluMul, wrapW_eq_modW, viewT_eq_val, viewT_eq_val]

theorem aluMulh_eq (t : Ty) (a b : Word64) : aluMulh t a b = modW t (val t a * val t b / 2 ^ width t) := by
  rw [aluMulh, wrapW_eq_modW, viewT_eq_val, viewT_eq_val, widthOf_eq_width]

theorem aluMad_eq (t : Ty) (a b c : Word64) : aluMad t a b c = modW t (val t a * val t b + val t c) := by
  rw [aluMad, wrapW_eq_modW, viewT_eq_val, viewT_eq_val, viewT_eq_val]

theorem aluMin_eq (t : Ty) (a b : Word64) : aluMin t a b = if val t a < val t b then a else b := by
  rw [aluMin, viewT_eq_val, viewT_eq_val]

theorem aluMax_eq (t : Ty) (a b : Word64) : aluMax t a b = if val t a > val t b then a else b := by
  rw [aluMax, viewT_eq_val, viewT_eq_val]

theorem addcSum_eq (t : Ty) (a b : Word64) (c : Bool) : addcSum t a b c = nat t a + nat t b + c.toNat := by
  rw [addcSum, uxW_eq_nat, uxW_eq_nat]
  cases c <;> rfl

/-! ### Shifts and counts (R134) -/

theorem aluShl_eq (t : Ty) (a b : Word64) : aluShl t a b = shlF t a b := by
  simp only [aluShl, shlF, uxW_eq_nat, widthOf_eq_width]

theorem aluShr_eq (t : Ty) (a b : Word64) : aluShr t a b = shrF t a b := by
  simp only [aluShr, shrF, uxW_eq_nat, widthOf_eq_width]

theorem aluSar_eq (t : Ty) (a b : Word64) : aluSar t a b = sarF t a b := by
  rw [aluSar, wrapW_eq_modW, sxW_eq_view, uxW_eq_nat]; rfl

/-- Rotating left puts the m top bits of the word below the others. -/
theorem aluRotl_eq (t : Ty) (a b : Word64) : aluRotl t a b = rotlF t a b := by
  have hm : nat t b % width t < width t := Nat.mod_lt _ (width_pos t)
  simp only [aluRotl, rotlF, uxW_eq_nat, widthOf_eq_width]
  generalize nat t b % width t = m at hm
  have hlow : nat t a / 2 ^ (width t - m) < 2 ^ m := by
    rw [Nat.div_lt_iff_lt_mul (by positivity), ← Nat.pow_add, Nat.add_sub_of_le hm.le]
    exact nat_lt t a
  refine ofNat_eq_fromBits fun i => ?_
  rw [Nat.testBit_mod_two_pow, Nat.mul_comm, Nat.testBit_two_pow_mul_add _ hlow, Nat.testBit_div_two_pow, testBit_nat, testBit_nat]
  by_cases hi : i < width t
  · by_cases him : i < m
    · have hlt : i + (width t - m) < width t := by omega
      simp [hi, him, hlt, Nat.mod_eq_of_lt hlt]
    · have : (i + (width t - m)) % width t = i - m := by
        rw [show i + (width t - m) = (i - m) + width t by omega, Nat.add_mod_right, Nat.mod_eq_of_lt (by omega)]
      simp [hi, him, this, show i - m < width t by omega]
  · simp [hi]

theorem popcN_eq_countP (x n : Nat) : popcN x n = (List.range n).countP fun i => x.testBit i := by
  induction n with
  | zero => rfl
  | succ n ih => simp [popcN, ih, List.range_succ, bitOf_eq_testBit]

theorem aluPopc_eq (t : Ty) (a : Word64) : aluPopc t a = popcF t a := by
  rw [aluPopc, popcF, uxW_eq_nat, widthOf_eq_width, popcN_eq_countP]
  congr 1
  refine List.countP_congr fun i hi => ?_
  simp [List.mem_range.mp hi]

/-- The zeros above the highest one are a front of the bits read from the top. -/
theorem clzN_eq_takeWhile (x n : Nat) :
    clzN x n = ((List.range n).takeWhile fun i => !x.testBit (n - 1 - i)).length := by
  induction n with
  | zero => rfl
  | succ n ih =>
    rw [clzN, ih, bitOf_eq_testBit, List.range_succ_eq_map, List.takeWhile_cons]
    cases h : x.testBit n
    · simp [h, List.takeWhile_map, Function.comp_def, Nat.sub_sub, Nat.add_comm]
    · simp [h]

/-- Predicates that agree on a list take the same front of it. -/
theorem takeWhile_congr {α : Type} {p q : α → Bool} {l : List α} (h : ∀ x ∈ l, p x = q x) : l.takeWhile p = l.takeWhile q := by
  induction l with
  | nil => rfl
  | cons x r ih =>
    simp [List.takeWhile_cons, h x, ih fun y hy => h y (List.mem_cons_of_mem x hy)]

theorem aluClz_eq (t : Ty) (a : Word64) : aluClz t a = clzF t a := by
  rw [aluClz, clzF, uxW_eq_nat, widthOf_eq_width, clzN_eq_takeWhile]
  congr 2
  refine takeWhile_congr fun i hi => ?_
  have : width t - 1 - i < width t := by have := List.mem_range.mp hi; omega
  simp [this]

/-- Reversing the low n bits of a word of n + k bits puts them, in reverse, above k zeros. -/
theorem brevN_eq_bitSum (x n : Nat) : ∀ k, brevN x (n + k) n = 2 ^ k * bitSum n fun i => x.testBit (n - 1 - i) := by
  induction n with
  | zero => intro k; rfl
  | succ n ih =>
    intro k
    have hf : (fun i => x.testBit (n - (i + 1))) = fun i => x.testBit (n - 1 - i) := by
      funext i; rw [Nat.add_comm, Nat.sub_sub]
    rw [brevN, show n + 1 + k = n + (k + 1) by omega, ih, bitOf_eq_testBit, bitSum_succ']
    simp only [hf, show n + (k + 1) - 1 - n = k by omega, Nat.add_sub_cancel, Nat.sub_zero]
    cases x.testBit n <;> simp <;> ring

theorem aluBrev_eq (t : Ty) (a : Word64) : aluBrev t a = brevF t a := by
  have h := brevN_eq_bitSum (nat t a) (width t) 0
  rw [Nat.add_zero, Nat.pow_zero, Nat.one_mul] at h
  rw [aluBrev, uxW_eq_nat, widthOf_eq_width, h, brevF]
  refine ofNat_eq_fromBits fun i => ?_
  rw [testBit_bitSum, testBit_nat]
  by_cases hi : i < width t
  · simp [hi, show width t - 1 - i < width t by omega]
  · simp [hi]

/-- The zeros below the lowest one are those above the highest of the reversed word. -/
theorem aluCtz_eq (t : Ty) (a : Word64) : aluCtz t a = ctzF t a := by
  rw [aluCtz, aluClz_eq, aluBrev_eq, clzF, ctzF]
  congr 2
  refine takeWhile_congr fun i hi => ?_
  have hi := List.mem_range.mp hi
  have h64 := width_le t
  rw [brevF, getLsbD_fromBits, show width t - 1 - (width t - 1 - i) = i by omega]
  simp [show width t - 1 - i < width t by omega, show width t - 1 - i < 64 by omega]

theorem aluBswap_eq (t : Ty) (a : Word64) : aluBswap t a = bswapF t a := by
  rw [aluBswap, bswapF]
  refine ofNat_eq_fromBits fun i => ?_
  rw [testBit_valueLE, getD_reverse_bytesLE]
  by_cases hi : i / 8 < tyBytes t
  · rw [if_pos hi, getLsbD_byte _ _ _ (Nat.mod_lt _ (by decide))]
    simp [show i < 8 * tyBytes t by omega, BitVec.testBit_toNat]
  · simp [hi, show ¬ i < 8 * tyBytes t by omega]

/-! ### Logic (R135, R136) -/

/-- A bit of the lookup is one where the list names it and the table reads one at the three source bits (R136). -/
theorem getLsbD_blutBits (lut : BitVec 8) (a b c : Word64) (l : List Nat) (i : Nat) : (blutBits lut a b c l).getLsbD i =
    (decide (i ∈ l) && (decide (i < 64) &&
      lut.getLsbD ((a.getLsbD i).toNat + 2 * (b.getLsbD i).toNat + 4 * (c.getLsbD i).toNat))) := by
  have ix : ∀ x y z : Bool, (if x then 1 else 0) + (if y then 2 else 0) + (if z then 4 else 0) =
      x.toNat + 2 * y.toNat + 4 * z.toNat := by decide
  induction l with
  | nil => simp [blutBits]
  | cons k r ih =>
    simp only [blutBits, BitVec.getLsbD_or, ih, ix]
    by_cases hk : i = k
    · subst hk
      cases h : lut.getLsbD ((a.getLsbD i).toNat + 2 * (b.getLsbD i).toNat + 4 * (c.getLsbD i).toNat) <;> simp
    · have h1 : (1#64 <<< k).getLsbD i = false := by rw [getLsbD_one_shiftLeft]; simp [Ne.symm hk]
      split <;> simp [hk, h1]

theorem aluBlut_eq (lut : BitVec 8) (t : Ty) (a b c : Word64) : aluBlut t lut a b c = blutF lut t a b c := by
  rw [aluBlut, blutF]
  refine eq_fromBits fun i hi => ?_
  rw [getLsbD_blutBits, range_eq_range']
  simp [hi, List.mem_range'_1, widthOf_eq_width]

theorem aluNot_eq (t : Ty) (a : Word64) : aluNot t a = notF t a :=
  eq_fromBits fun i hi => by rw [aluNot, getLsbD_maskW, BitVec.getLsbD_not]; simp [hi]

/-! ### Bit fields (R137) -/

theorem fieldPos_eq (b : Word64) : fieldPos b = fpos b := by simp [fieldPos, fpos, bits]

theorem fieldLen_eq (t : Ty) (b : Word64) : fieldLen t b = flen t b := by
  simp [fieldLen, flen, fieldPos_eq, bits, widthOf_eq_width]

/-- A field that is not empty ends within the word. -/
theorem fpos_add_flen_le {t : Ty} {b : Word64} (h : flen t b ≠ 0) : fpos b + flen t b ≤ width t := by
  by_cases hp : width t ≤ fpos b
  · simp [flen, hp] at h
  · rw [flen, if_neg hp]; omega

theorem flen_le (t : Ty) (b : Word64) : flen t b ≤ width t := by
  unfold flen; split <;> omega

/-- A bit of a field, above which the field reads zero. -/
theorem testBit_field (t : Ty) (a b : Word64) (i : Nat) :
    (nat t a / 2 ^ fpos b % 2 ^ flen t b).testBit i = (decide (i < flen t b) && a.getLsbD (fpos b + i)) := by
  rw [Nat.testBit_mod_two_pow, Nat.testBit_div_two_pow, testBit_nat, Nat.add_comm]
  by_cases hi : i < flen t b
  · have := fpos_add_flen_le (t := t) (b := b) (by omega)
    simp [show fpos b + i < width t by omega]
  · simp [hi]

/-- The negative reading of an n-bit value has ones from bit n on. -/
theorem modW_sub_two_pow {t : Ty} {f n : Nat} (hf : f < 2 ^ n) (hn : n ≤ width t) :
    modW t ((f : Int) - 2 ^ n) = fromBits (width t) fun i => if i < n then f.testBit i else true := by
  have hp : 2 ^ n * (2 ^ (width t - n) - 1) = 2 ^ width t - 2 ^ n := by
    rw [Nat.mul_sub, ← Nat.pow_add, Nat.add_sub_of_le hn, Nat.mul_one]
  have hle : 2 ^ n ≤ 2 ^ width t := Nat.pow_le_pow_right (by decide) hn
  have hz : (((f : Int) - 2 ^ n) % 2 ^ width t).toNat = 2 ^ n * (2 ^ (width t - n) - 1) + f := by
    have hcast : ((f : Int) - 2 ^ n) + 2 ^ width t = ((2 ^ width t - 2 ^ n + f : Nat) : Int) := by
      push_cast [Nat.cast_sub hle]; ring
    rw [hp, ← Int.add_emod_right, hcast, Int.emod_eq_of_lt (by positivity) (by exact_mod_cast (by omega)), Int.toNat_natCast]
  rw [modW, hz]
  refine ofNat_eq_fromBits fun i => ?_
  rw [Nat.testBit_two_pow_mul_add _ hf, Nat.testBit_two_pow_sub_one]
  split
  · simp [show i < width t by omega]
  · rw [Bool.and_true]
    exact decide_eq_decide.mpr (by omega)

theorem aluBfx_eq (t : Ty) (a b : Word64) : aluBfx t a b = bfxF t a b := by
  simp only [aluBfx, bfxF, uxW_eq_nat, fieldPos_eq, fieldLen_eq, bitOf_eq_testBit, wrapW_eq_modW, testBit_field]
  split
  · rename_i h0
    exact eq_fromBits fun i _ => by simp [h0]
  · rename_i h0
    have hlt : flen t b - 1 < flen t b := by omega
    have hix : fpos b + (flen t b - 1) = fpos b + flen t b - 1 := by omega
    rw [hix]
    split
    · rename_i hs
      simp only [Bool.and_eq_true, decide_eq_true_eq] at hs
      rw [modW_sub_two_pow (Nat.mod_lt _ (by positivity)) (flen_le t b)]
      congr 1
      funext i
      rw [testBit_field]
      split <;> simp [*, Nat.pos_of_ne_zero h0]
    · rename_i hs
      refine ofNat_eq_fromBits fun i => ?_
      rw [testBit_field]
      have := flen_le t b
      by_cases hi : i < flen t b
      · simp [hi, show i < width t by omega]
      · have hfill : (signedTy t && decide (0 < flen t b) && a.getLsbD (fpos b + flen t b - 1)) = false := by
          simpa [hlt, Nat.pos_of_ne_zero h0] using hs
        simp [hi, hfill]

/-- Inserting puts the bits above the field, the low bits of a and the bits below the field next to each other. -/
theorem aluBfi_eq (t : Ty) (a b c : Word64) : aluBfi t a b c = bfiF t a b c := by
  simp only [aluBfi, bfiF, uxW_eq_nat, fieldPos_eq, fieldLen_eq]
  have hsum : nat t c % 2 ^ fpos b + nat t a % 2 ^ flen t b * 2 ^ fpos b +
        nat t c / 2 ^ fpos b / 2 ^ flen t b * 2 ^ flen t b * 2 ^ fpos b =
      2 ^ fpos b * (2 ^ flen t b * (nat t c / 2 ^ fpos b / 2 ^ flen t b) + nat t a % 2 ^ flen t b) + nat t c % 2 ^ fpos b := by ring
  refine ofNat_eq_fromBits fun i => ?_
  rw [hsum, Nat.testBit_two_pow_mul_add _ (Nat.mod_lt _ (by positivity)), Nat.testBit_two_pow_mul_add _ (Nat.mod_lt _ (by positivity))]
  simp only [Nat.testBit_mod_two_pow, Nat.testBit_div_two_pow, testBit_nat]
  by_cases h1 : i < fpos b
  · simp [h1, show ¬ fpos b ≤ i by omega]
  · by_cases h2 : i - fpos b < flen t b
    · have := fpos_add_flen_le (t := t) (b := b) (by omega)
      simp [h1, h2, show fpos b ≤ i ∧ i < fpos b + flen t b by omega, show i < width t by omega, show i - fpos b < width t by omega]
    · simp [h1, h2, show ¬ (fpos b ≤ i ∧ i < fpos b + flen t b) by omega, show i - fpos b - flen t b + flen t b + fpos b = i by omega]

/-! ### The carry-less product, addresses and byte selection (R141 to R143) -/

theorem clmulN_eq_foldl (b x n : Nat) :
    clmulN b x n = (List.range n).foldl (fun acc i => if x.testBit i then acc ^^^ (b * 2 ^ i) else acc) 0 := by
  induction n with
  | zero => rfl
  | succ n ih =>
    rw [clmulN, ih, bitOf_eq_testBit, List.range_succ, List.foldl_append]
    cases h : x.testBit n <;> simp [h]

theorem aluClmul_eq (hi : Bool) (t : Ty) (a b : Word64) : aluClmul t hi a b = clmulF hi t a b := by
  have hp : clmulN (nat t b) (nat t a) (width t) = clmulP t a b := by
    rw [clmulN_eq_foldl, clmulP]
    refine List.foldl_ext _ _ _ fun acc i hi => ?_
    simp [List.mem_range.mp hi]
  simp only [aluClmul, clmulF, uxW_eq_nat, widthOf_eq_width, hp]
  split <;> rfl

theorem aluLea_eq (n : BitVec 6) (t : Ty) (a b : Word64) : aluLea t n a b = leaF n t a b := by
  simp only [aluLea, leaF, uxW_eq_nat, widthOf_eq_width]

/-- The eight bytes from which `BYSEL` selects: those of a, then those of b (R143). -/
theorem getLsbD_byselSource (a b : Word64) {k i : Nat} (hi : i < 8) :
    ((bytesLE a.toNat 4 ++ bytesLE b.toNat 4).getD k 0).getLsbD i =
      (decide (k < 8) && if k < 4 then a.getLsbD (8 * k + i) else b.getLsbD (8 * (k - 4) + i)) := by
  have hl : (bytesLE a.toNat 4).length = 4 := rfl
  rcases Nat.lt_or_ge k 4 with hk | hk
  · rw [List.getD_append _ _ _ _ (hl ▸ hk), getD_bytesLE, if_pos hk, getLsbD_byte _ _ _ hi, if_pos hk]
    simp [show k < 8 by omega, BitVec.testBit_toNat]
  · rw [List.getD_append_right _ _ _ _ (hl ▸ hk), hl, getD_bytesLE, if_neg (show ¬ k < 4 by omega)]
    by_cases h8 : k < 8
    · rw [if_pos (by omega), getLsbD_byte _ _ _ hi]
      simp [h8, BitVec.testBit_toNat]
    · rw [if_neg (by omega)]
      simp [h8]

/-- A bit of a byte of `BYSEL`'s result: zero, the sign of the selected byte, or the byte's own (R143). -/
theorem getLsbD_byselByte (sel : BitVec 20) (src : List Byte) (j : Nat) {i : Nat} (hi : i < 8) : (byselByte sel src j).getLsbD i =
    (!sel.getLsbD (16 + j) &&
      (src.getD (sel.toNat / 2 ^ (3 * j) % 8) 0).getLsbD (if sel.getLsbD (12 + j) then 7 else i)) := by
  simp only [byselByte]
  generalize src.getD (sel.toNat / 2 ^ (3 * j) % 8) 0 = x
  have hff : (0xFF#8).getLsbD i = true := by interval_cases i <;> rfl
  cases sel.getLsbD (16 + j)
  · cases sel.getLsbD (12 + j)
    · rfl
    · cases h : x.getLsbD 7
      · simp only [Bool.false_eq_true, if_false, if_true, h]
        simp
      · simp only [Bool.false_eq_true, if_false, if_true, h, hff]
        rfl
  · simp

theorem aluBysel_eq (sel : BitVec 20) (a b : Word64) : aluBysel sel a b = byselF sel a b := by
  rw [aluBysel, byselF]
  refine ofNat_eq_fromBits fun i => ?_
  rw [testBit_valueLE, range_eq_range', List.getD_eq_getElem?_getD]
  have hm : i % 8 < 8 := Nat.mod_lt _ (by decide)
  by_cases hi : i < 32
  · have hk : sel.toNat / 2 ^ (3 * (i / 8)) % 8 < 8 := Nat.mod_lt _ (by decide)
    simp only [List.getElem?_map, List.getElem?_range' (show i / 8 < 4 by omega), Option.map_some, Option.getD_some,
      Nat.zero_add, Nat.one_mul, getLsbD_byselByte _ _ _ hm]
    cases sel.getLsbD (12 + i / 8)
    · simp only [Bool.false_eq_true, if_false, getLsbD_byselSource a b hm]
      simp [hi, hk]
    · simp only [if_true, getLsbD_byselSource a b (show 7 < 8 by decide)]
      simp [hi, hk]
  · simp [hi, show 4 ≤ i / 8 by omega]

end Sys2Proof.Machine
end

section
/-! PROOFS. The integer instructions complete with the values of their functions (R126 to R143). -/

namespace Sys2Proof.Machine

open Sys2Proof.Says

/-! ### The shared forms (R126) -/

/-- An instruction of two sources, over a function that agrees with the rule's. -/
theorem binary_of {mk : Ctl → Ty → Dst → RSrc → Src → Instr} {f' f : Ty → Word64 → Word64 → Word64}
    (hexec : ∀ c t d a b s, exec (mk c t d a b) s = bin (mk c t d a b) c t (sxImm t) d a b s (f' t))
    (hf : ∀ t a b, f' t a b = f t a b) : Binary mk sx64 f := by
  intro c t d a b s g p sec h hb
  rw [hexec, bin, fixed_some h hb]
  simp only [hf]
  rfl

/-- An instruction of one source. -/
theorem unary_of {mk : Ctl → Ty → Dst → RSrc → Instr} {f' f : Ty → Word64 → Word64}
    (hexec : ∀ c t d a s, exec (mk c t d a) s = un (mk c t d a) c t d a s (f' t))
    (hf : ∀ t a, f' t a = f t a) : Unary mk f := by
  intro c t d a s g p sec h
  rw [hexec, un, fixed_none h]
  simp only [hf]

/-- An instruction of three sources. -/
theorem ternary_of {mk : Ctl → Ty → Dst → RSrc → RSrc → RSrc → Instr} {f' f : Ty → Word64 → Word64 → Word64 → Word64}
    (hexec : ∀ c t d a b e s, exec (mk c t d a b e) s = tern (mk c t d a b e) c t d a b e s (f' t))
    (hf : ∀ t a b e, f' t a b e = f t a b e) : Ternary mk f := by
  intro c t d a b e s g p sec h
  rw [hexec, tern, fixed_none h]
  simp only [hf]

/-! ### Instructions of their own form -/

section

variable {c : Ctl} {t : Ty} {d : Dst} {a b : RSrc} {s : State} {g : Group} {p : Path} {sec : Bool}

theorem sidePred_eq (d : Dst) (n : BitVec 3) :
    sidePred d n = match d with | .lane _ => PReg.lane n | .uni _ => .uni (n.setWidth 2) := by
  cases d with
  | lane r => rfl
  | uni r => rw [sidePred, ← BitVec.setWidth_eq_extractLsb' (by decide)]

theorem exec_iaddc {b : Src} {pn : BitVec 3} (h : Issues s (.iaddc c t d a b pn) c g p sec)
    (hb : ConstReady s g (guardOf g p c) (tyBytes t) b) :
    exec (.iaddc c t d a b pn) s = .next (advance s
      (let m := guardOf g p c
       let sum := fun l => addcSum t (rsrcVal g (wideTy t) a l) (srcVal s g (wideTy t) true (tyBytes t) b l) (g.predVal (sidePred d pn) l)
       (g.writeDst t d m fun l => BitVec.ofNat 64 (sum l % 2 ^ widthOf t)).writePred (sidePred d pn) m
        fun l => carryOut (widthOf t) (sum l)) p sec) := by
  rw [show exec (.iaddc c t d a b pn) s = execIaddc c t d a b pn s from rfl, execIaddc, fixed_some h hb]

theorem exec_blut {b : Src} {lut : BitVec 8} (h : Issues s (.blut c t d a b lut) c g p sec)
    (hb : ConstReady s g (guardOf g p c) (tyBytes t) b) :
    exec (.blut c t d a b lut) s = .next (advance s (g.writeDst t d (guardOf g p c) fun l =>
      aluBlut t lut (rsrcVal g (wideTy t) a l) (srcVal s g (wideTy t) true (tyBytes t) b l) (dstVal g (wideTy t) d l)) p sec) := by
  rw [show exec (.blut c t d a b lut) s = execBlut c t d a b lut s from rfl, execBlut, fixed_some h hb]

theorem exec_lea {n : BitVec 6} (h : Issues s (.lea c t d a b n) c g p sec) :
    exec (.lea c t d a b n) s = .next (advance s (g.writeDst t d (guardOf g p c) fun l =>
      aluLea t n (rsrcVal g (wideTy t) a l) (rsrcVal g (wideTy t) b l)) p sec) := by
  rw [show exec (.lea c t d a b n) s = execLea c t d a b n s from rfl, execLea, fixed_none h]

theorem exec_bysel {sel : BitVec 20} (h : Issues s (.bysel c d a b sel) c g p sec) :
    exec (.bysel c d a b sel) s = .next (advance s
      (g.writeDst .n32 d (guardOf g p c) fun l => aluBysel sel (rsrcVal g false a l) (rsrcVal g false b l)) p sec) := by
  rw [show exec (.bysel c d a b sel) s = execBysel c d a b sel s from rfl, execBysel, fixed_none h]

end

/-! ### The statements -/

/-- Settles O1: every instruction but `IADDC` has a shared form, over a function that agrees with its rule's; `IADDC` adds the carry
predicate of its destination's side and writes it. -/
theorem integerArithmeticResults : Obligations.IntegerArithmeticResults := by
  refine ⟨fun sat => binary_of (fun _ _ _ _ _ _ => rfl) (aluAdd_eq sat), fun sat => binary_of (fun _ _ _ _ _ _ => rfl) (aluSub_eq sat),
    fun sat => unary_of (fun _ _ _ _ _ => rfl) (aluAbs_eq sat), binary_of (fun _ _ _ _ _ _ => rfl) aluMul_eq,
    binary_of (fun _ _ _ _ _ _ => rfl) aluMulh_eq, ternary_of (fun _ _ _ _ _ _ _ => rfl) aluMad_eq,
    binary_of (fun _ _ _ _ _ _ => rfl) aluMin_eq, binary_of (fun _ _ _ _ _ _ => rfl) aluMax_eq, ?_⟩
  intro c t d a b pn s g p sec h hb
  rw [exec_iaddc h hb]
  simp only [addcSum_eq, sidePred_eq, widthOf_eq_width]
  rfl

theorem shiftAndCountResults : ShiftAndCountResults :=
  ⟨binary_of (fun _ _ _ _ _ _ => rfl) aluShl_eq, binary_of (fun _ _ _ _ _ _ => rfl) aluShr_eq,
    binary_of (fun _ _ _ _ _ _ => rfl) aluSar_eq, binary_of (fun _ _ _ _ _ _ => rfl) aluRotl_eq,
    unary_of (fun _ _ _ _ _ => rfl) aluPopc_eq, unary_of (fun _ _ _ _ _ => rfl) aluClz_eq,
    unary_of (fun _ _ _ _ _ => rfl) aluCtz_eq, unary_of (fun _ _ _ _ _ => rfl) aluBrev_eq,
    unary_of (fun _ _ _ _ _ => rfl) aluBswap_eq⟩

theorem logicAndFieldResults : LogicAndFieldResults := by
  refine ⟨binary_of (fun _ _ _ _ _ _ => rfl) fun _ _ _ => rfl, binary_of (fun _ _ _ _ _ _ => rfl) fun _ _ _ => rfl,
    binary_of (fun _ _ _ _ _ _ => rfl) fun _ _ _ => rfl, unary_of (fun _ _ _ _ _ => rfl) aluNot_eq, ?blut,
    binary_of (fun _ _ _ _ _ _ => rfl) aluBfx_eq, ternary_of (fun _ _ _ _ _ _ _ => rfl) aluBfi_eq,
    fun hi => binary_of (fun _ _ _ _ _ _ => rfl) (aluClmul_eq hi), ?lea, ?bysel⟩
  case blut =>
    intro c t d a b lut s g p sec h hb
    rw [exec_blut h hb]
    simp only [aluBlut_eq]
  case lea =>
    intro c t d a b n s g p sec h
    rw [exec_lea h]
    simp only [aluLea_eq]
  case bysel =>
    intro c d a b sel s g p sec h
    rw [exec_bysel h]
    simp only [aluBysel_eq]

/-- Settles O2, from the function of each instruction bit by bit. -/
theorem shiftLogicAndFieldResults : Obligations.ShiftLogicAndFieldResults := ⟨shiftAndCountResults, logicAndFieldResults⟩

end Sys2Proof.Machine
end

section
/-! PROOFS. Transfers of control that keep their path whole (R20, R150, R152 to R154). -/

namespace Sys2Proof.Machine

open Sys2Proof.Says

/-! ### Moved paths, return registers and guards -/

/-- The path at its next word (R144). -/
theorem next_eq_onward (p : Path) : p.next = onward p := by
  cases h : p.clause <;> simp only [Path.next, onward, h] <;> rfl

theorem goto_eq_jump (p : Path) (t : Word64) : p.goto t = jump p t := rfl

theorem goTo_eq_stored (s : State) (g : Group) (sec : Bool) (p : Path) : goTo s g sec p = .next (stored s (onPath g sec p)) := rfl

theorem setUni_ofBits (g : Group) (n : BitVec 6) (w : Word64) :
    g.setUni n.toNat w = if n = 63 then g else { g with s := mset 0 g.s n.toNat w } := by
  have h : n.toNat = 63 ↔ n = 63 := by rw [← BitVec.toNat_inj]; rfl
  simp only [Group.setUni, h]

theorem uni_ofBits (g : Group) (n : BitVec 6) : g.uni n.toNat = if n = 63 then 0 else mget 0 g.s n.toNat := by
  have h : n.toNat = 63 ↔ n = 63 := by rw [← BitVec.toNat_inj]; rfl
  simp only [Group.uni, h]

/-- A branch that does not divide its path and that some lane takes is taken by every active lane. -/
theorem guardOf_eq_mask {g : Group} {p : Path} {c : Ctl} (h : ¬ Diverges g p c) (h0 : guardOf g p c ≠ 0) : guardOf g p c = p.mask :=
  not_not.mp fun hm => h ⟨h0, hm⟩

/-! ### The targets of `BRX` (R152) -/

theorem mem_insertTarget {x y : Nat} {l : List Nat} : y ∈ insertTarget x l ↔ y = x ∨ y ∈ l := by
  induction l with
  | nil => simp [insertTarget]
  | cons z r ih =>
    unfold insertTarget
    split
    · simp
    · split
      · simp_all
      · rw [List.mem_cons, ih, List.mem_cons]; tauto

theorem pairwise_insertTarget {x : Nat} {l : List Nat} (h : l.Pairwise (· < ·)) : (insertTarget x l).Pairwise (· < ·) := by
  induction l with
  | nil => simp [insertTarget]
  | cons z r ih =>
    rw [List.pairwise_cons] at h
    obtain ⟨hz, hr⟩ := h
    unfold insertTarget
    split
    · rename_i hlt
      refine List.pairwise_cons.mpr ⟨fun y hy => ?_, List.pairwise_cons.mpr ⟨hz, hr⟩⟩
      rcases List.mem_cons.mp hy with rfl | hy
      · exact hlt
      · exact hlt.trans (hz y hy)
    · split
      · exact List.pairwise_cons.mpr ⟨hz, hr⟩
      · refine List.pairwise_cons.mpr ⟨fun y hy => ?_, ih hr⟩
        rcases mem_insertTarget.mp hy with rfl | hy
        · omega
        · exact hz y hy

theorem mem_foldl_insertTarget {y : Nat} (l r : List Nat) : y ∈ l.foldl (fun l x => insertTarget x l) r ↔ y ∈ l ∨ y ∈ r := by
  induction l generalizing r with
  | nil => simp
  | cons x l ih => rw [List.foldl_cons, ih, mem_insertTarget, List.mem_cons]; tauto

theorem pairwise_foldl_insertTarget (l : List Nat) {r : List Nat} (h : r.Pairwise (· < ·)) :
    (l.foldl (fun l x => insertTarget x l) r).Pairwise (· < ·) := by
  induction l generalizing r with
  | nil => exact h
  | cons x l ih => exact ih (pairwise_insertTarget h)

theorem brxTarget_eq_brxTo (g : Group) (p : Path) (c : Ctl) (a : RSrc) : brxTarget g p (guardOf g p c) a = brxTo g p c a := rfl

/-- The list that the model makes of the targets of the active lanes is the one with each target once, in increasing order. -/
theorem foldl_brxTarget_eq {g : Group} {p : Path} {c : Ctl} {a : RSrc} {ts : List Nat} (h : BrxTargets g p c a ts) :
    ((lanesOf p.mask).map (brxTarget g p (guardOf g p c) a)).foldl (fun l x => insertTarget x l) [] = ts := by
  obtain ⟨hts, hmem⟩ := h
  refine List.Pairwise.eq_of_mem_iff (pairwise_foldl_insertTarget _ List.Pairwise.nil) hts fun n => ?_
  rw [mem_foldl_insertTarget, hmem]
  simp [mem_lanesOf, and_assoc, brxTarget_eq_brxTo]

theorem brxPart_eq_brxPath (g : Group) (p : Path) (c : Ctl) (a : RSrc) (n : Nat) : brxPart g p (guardOf g p c) a n = brxPath g p c a n := by
  simp only [brxPart, brxPath, brxTarget_eq_brxTo, next_eq_onward, goto_eq_jump]
  change (if brxLanes g p c a n &&& guardOf g p c = 0 then _ else _) = _
  split <;> rfl

/-- Every active lane goes to the one target. -/
theorem brxLanes_of_single {g : Group} {p : Path} {c : Ctl} {a : RSrc} {n : Nat} (h : BrxTargets g p c a [n]) :
    brxLanes g p c a n = p.mask := by
  refine maskOf_eq fun l hl => ?_
  cases hm : p.mask.getLsbD l
  · rfl
  · have := (h.2 (brxTo g p c a l)).mpr ⟨l, hl, hm, rfl⟩
    simpa using this

theorem mask_and_guardOf (g : Group) (p : Path) (c : Ctl) : p.mask &&& guardOf g p c = guardOf g p c := by
  rw [guardOf, ← BitVec.and_assoc, BitVec.and_self]

/-- The one part of such a `BRX` is the whole path, in its clause where no lane is guarded. -/
theorem brxPath_of_single {g : Group} {p : Path} {c : Ctl} {a : RSrc} {n : Nat} (h : BrxTargets g p c a [n]) :
    brxPath g p c a n = if guardOf g p c = 0 then onward p else jump p (BitVec.ofNat 64 n) := by
  rw [brxPath, brxLanes_of_single h, mask_and_guardOf]
  split <;> rfl

/-! ### The transfers -/

section

variable {c : Ctl} {n : BitVec 6} {disp : BitVec 32} {s : State} {g : Group} {p : Path} {sec : Bool}

theorem exec_bra_of_not_diverges {rcv : BitVec 24} (h : Issues s (.bra c disp rcv) c g p sec) (hm : p.mask ≠ 0) (hd : ¬ Diverges g p c) :
    exec (.bra c disp rcv) s = .next (stored s (onPath g sec
      (if guardOf g p c = 0 then onward p else jump p (p.pc + disp.signExtend 64)))) := by
  rw [show exec (.bra c disp rcv) s = execBra c disp rcv s from rfl, execBra, issue_of h]
  by_cases h0 : guardOf g p c = 0
  · simp only [h0, hm.symm, if_true, if_false, goTo_eq_stored, next_eq_onward]
  · simp only [guardOf_eq_mask hd h0, hm, if_true, if_false, goTo_eq_stored, goto_eq_jump]

theorem exec_call_of_not_diverges (h : Issues s (.call c n disp) c g p sec) (hd : ¬ Diverges g p c) :
    exec (.call c n disp) s = .next (stored s (
      if guardOf g p c = 0 then onPath g sec (onward p)
      else onPath (if n = 63 then g else { g with s := mset 0 g.s n.toNat (p.pc + 1) }) sec
        (jump p (p.pc + disp.signExtend 64)))) := by
  rw [show exec (.call c n disp) s = execCall c n disp s from rfl, execCall, issue_of h]
  by_cases h0 : guardOf g p c = 0
  · simp only [h0, if_true, goTo_eq_stored, next_eq_onward]
  · have hm := guardOf_eq_mask hd h0
    rw [hm] at h0 ⊢
    simp only [h0, if_true, if_false, goTo_eq_stored, goto_eq_jump, setUni_ofBits]

theorem exec_ret (h : Issues s (.ret c n) c g p sec) :
    exec (.ret c n) s = .next (stored s (onPath g sec (if guardOf g p c = 0 then onward p else jump p (g.uni n.toNat)))) := by
  rw [show exec (.ret c n) s = execRet c n s from rfl, execRet, issue_of h]
  split <;> simp only [goTo_eq_stored, next_eq_onward, goto_eq_jump]

theorem exec_loop (h : Issues s (.loop c n disp) c g p sec) :
    exec (.loop c n disp) s = .next (stored s (
      if guardOf g p c = 0 then onPath g sec (onward p)
      else
        let v := if n = 63 then BitVec.allOnes 64 else mget 0 g.s n.toNat - 1
        onPath (if n = 63 then g else { g with s := mset 0 g.s n.toNat v }) sec
          (if v = 0 then onward p else jump p (p.pc + disp.signExtend 64)))) := by
  have hv : g.uni n.toNat - 1 = if n = 63 then BitVec.allOnes 64 else mget 0 g.s n.toNat - 1 := by
    rw [uni_ofBits]; split <;> rfl
  rw [show exec (.loop c n disp) s = execLoop c n disp s from rfl, execLoop, issue_of h]
  simp only [hv, setUni_ofBits]
  split <;> simp only [goTo_eq_stored, next_eq_onward, goto_eq_jump]

theorem exec_brx_of_single {a : RSrc} {point : BitVec 32} {n : Nat} (h : Issues s (.brx c a point) c g p sec)
    (hts : BrxTargets g p c a [n]) :
    exec (.brx c a point) s = .next (stored s (onPath g sec
      (if guardOf g p c = 0 then onward p else jump p (BitVec.ofNat 64 n)))) := by
  rw [show exec (.brx c a point) s = execBrx c a point s from rfl, execBrx, issue_of h]
  simp only [foldl_brxTarget_eq hts, brxPart_eq_brxPath, brxPath_of_single hts, goTo_eq_stored]

end

/-- Settles O11: each transfer moves the whole path, since its guard, or the one target of `BRX`, does not divide the active lanes. -/
theorem uniformControlTransfers : Obligations.UniformControlTransfers :=
  ⟨fun _ _ _ _ _ _ _ h hm hd => exec_bra_of_not_diverges h hm hd, fun _ _ _ _ _ _ _ h hd => exec_call_of_not_diverges h hd,
    fun _ _ _ _ _ _ h => exec_ret h, fun _ _ _ _ _ _ _ h => exec_loop h, fun _ _ _ _ _ _ _ _ h hts => exec_brx_of_single h hts⟩

end Sys2Proof.Machine
end

section
/-! SUPPORT. Rounding an exact value to an integer, and the class of a pattern: the model's functions and the statements' are the
same (R78, R85, R165). -/

namespace Sys2Proof.Machine

open Sys2Proof.Says

/-! ### A value cut at a power of two -/

theorem natCast_shiftLeft_mul (m s : Nat) (q : Int) : ((m <<< s : Nat) : ℚ) * 2 ^ q = m * 2 ^ ((s : Int) + q) := by
  rw [Nat.shiftLeft_eq, zpow_add₀ two_ne_zero, zpow_natCast]
  push_cast
  ring

theorem splitAtQuantum_of_le {q e : Int} (h : q ≤ e) (m : Nat) : splitAtQuantum m e q = (m <<< (e - q).toNat, 0, 1) := if_pos h

theorem splitAtQuantum_of_lt {q e : Int} (h : e < q) (m : Nat) :
    splitAtQuantum m e q = (m >>> (q - e).toNat, m % 2 ^ (q - e).toNat, 2 ^ (q - e).toNat) := if_neg (not_le.2 h)

/-- The discarded part is less than one unit. -/
theorem splitAtQuantum_lt (m : Nat) (e q : Int) : (splitAtQuantum m e q).2.1 < (splitAtQuantum m e q).2.2 := by
  rcases le_or_gt q e with h | h
  · rw [splitAtQuantum_of_le h]; exact one_pos
  · rw [splitAtQuantum_of_lt h]; exact Nat.mod_lt _ (by positivity)

/-- Nothing is lost: the whole part and the discarded part make up the value. -/
theorem splitAtQuantum_value (m : Nat) (e q : Int) :
    (m : ℚ) * 2 ^ e = ((splitAtQuantum m e q).1 + (splitAtQuantum m e q).2.1 / (splitAtQuantum m e q).2.2) * 2 ^ q := by
  rcases le_or_gt q e with h | h
  · rw [splitAtQuantum_of_le h, Nat.cast_zero, zero_div, add_zero, natCast_shiftLeft_mul]
    congr 2; omega
  · rw [splitAtQuantum_of_lt h]
    obtain ⟨s, rfl⟩ : ∃ s : Nat, q = e + s := ⟨(q - e).toNat, by omega⟩
    have hm : (m : ℚ) = 2 ^ s * (m / 2 ^ s : Nat) + (m % 2 ^ s : Nat) := mod_cast (Nat.div_add_mod m (2 ^ s)).symm
    simp only [add_sub_cancel_left, Int.toNat_natCast, Nat.shiftRight_eq_div_pow, Nat.cast_pow, Nat.cast_ofNat]
    rw [zpow_add₀ two_ne_zero, zpow_natCast]
    nth_rw 1 [hm]
    field_simp

/-! ### Rounding to an integer -/

/-- Whether rounding takes the upper neighbour of lo + s / den, for 0 < s < den (R78, R85). -/
def takesUpper (rm : Rnd) (u : Nat) (lo : Int) (s den : Nat) : Bool :=
  match rm with
  | .rne => decide (den < 2 * s) || (decide (2 * s = den) && decide (lo % 2 ≠ 0))
  | .rtz => decide (lo < 0)
  | .rdn => false
  | .rup => true
  | .sr => decide (u < 2 ^ 32 * s / den)

theorem intRound_intCast (rm : Rnd) (u : Nat) (z : Int) : intRound rm u z = z := by
  simp [intRound]

/-- Between two integers, one of the two is taken. -/
theorem intRound_add_div (rm : Rnd) (u : Nat) (lo : Int) {s den : Nat} (h0 : 0 < s) (h1 : s < den) :
    intRound rm u (lo + (s : ℚ) / den) = if takesUpper rm u lo s den then lo + 1 else lo := by
  have hs : (0 : ℚ) < s := mod_cast h0
  have hd : (s : ℚ) < den := mod_cast h1
  have hden : (0 : ℚ) < den := hs.trans hd
  have hpos : (0 : ℚ) < s / den := div_pos hs hden
  have hone : (s : ℚ) / den < 1 := (div_lt_one hden).2 hd
  have hfl : ⌊(lo : ℚ) + s / den⌋ = lo := Int.floor_eq_iff.2 ⟨by linarith, by linarith⟩
  simp only [intRound, hfl, add_sub_cancel_left, hpos.ne', if_false]
  cases rm with
  | rne =>
    have hlt : (s : ℚ) / den < 1 / 2 ↔ 2 * s < den := by
      rw [div_lt_div_iff₀ hden two_pos, one_mul, mul_comm]; exact_mod_cast Iff.rfl
    have hgt : 1 / 2 < (s : ℚ) / den ↔ den < 2 * s := by
      rw [div_lt_div_iff₀ two_pos hden, one_mul, mul_comm (s : ℚ)]; exact_mod_cast Iff.rfl
    simp only [takesUpper, hlt, hgt, Bool.or_eq_true, Bool.and_eq_true, decide_eq_true_eq]
    split_ifs <;> omega
  | rtz =>
    have hsign : 0 < (lo : ℚ) + s / den ↔ 0 ≤ lo := by
      refine ⟨fun h => ?_, fun h => add_pos_of_nonneg_of_pos (mod_cast h) hpos⟩
      have hlo : (0 : ℚ) < ((lo + 1 : Int) : ℚ) := by push_cast; linarith
      exact Int.lt_add_one_iff.1 (mod_cast hlo)
    simp only [takesUpper, hsign, decide_eq_true_eq]
    split_ifs <;> omega
  | rdn | rup => rfl
  | sr =>
    have hfloor : ⌊(2 : ℚ) ^ 32 * (s / den)⌋ = ((2 ^ 32 * s / den : Nat) : Int) := by
      rw [← mul_div_assoc, Int.natCast_ediv, ← Rat.floor_natCast_div_natCast]
      push_cast
      rfl
    simp only [takesUpper, hfloor, Nat.cast_lt, decide_eq_true_eq]

/-- A magnitude n + r / den of a positive number rounds away from zero where its upper neighbour is taken. -/
theorem roundsUp_pos (rm : Rnd) (u n : Nat) {r den : Nat} (h0 : 0 < r) :
    roundsUp rm false (n % 2 == 1) r den u = takesUpper rm u n r den := by
  have hn : ((n : Int) % 2 ≠ 0) ↔ n % 2 = 1 := by omega
  simp only [roundsUp, h0.ne', if_false]
  cases rm with
  | rne => simp [takesUpper, hn, Bool.beq_eq_decide_eq]
  | rtz => simp [takesUpper]
  | rdn | rup | sr => rfl

/-- A magnitude n + r / den of a negative number rounds away from zero where its lower neighbour −(n + 1) is taken. -/
theorem roundsUp_neg (rm : Rnd) (u n : Nat) {r den : Nat} (h0 : 0 < r) (h1 : r < den) :
    roundsUp rm true (n % 2 == 1) r den u = !takesUpper rm u (-(n + 1)) (den - r) den := by
  simp only [roundsUp, h0.ne', if_false]
  cases rm with
  | rne =>
    rw [Bool.eq_iff_iff]
    simp only [takesUpper, Bool.not_eq_true', ← Bool.not_eq_true, Bool.or_eq_true, Bool.and_eq_true, decide_eq_true_eq, beq_iff_eq]
    omega
  | rtz =>
    have hlo : -((n : Int) + 1) < 0 := by omega
    simp only [takesUpper, hlo, decide_true, Bool.not_true]
  | rdn | rup | sr => rfl

theorem ratOf_eq_split (neg : Bool) (m : Nat) (e : Int) :
    ratOf neg m e = (if neg then -1 else 1) *
      ((splitAtQuantum m e 0).1 + ((splitAtQuantum m e 0).2.1 : ℚ) / (splitAtQuantum m e 0).2.2) := by
  rw [ratOf, mul_assoc, splitAtQuantum_value m e 0, zpow_zero, mul_one]

/-- Rounding a magnitude and giving it the sign is rounding the number. -/
theorem roundToInt_eq_intRound (rm : Rnd) (u : Nat) (neg : Bool) (m : Nat) (e : Int) :
    roundToInt rm u neg m e = intRound rm u (ratOf neg m e) := by
  have h1 := splitAtQuantum_lt m e 0
  rw [ratOf_eq_split, roundToInt]
  generalize splitAtQuantum m e 0 = x at h1 ⊢
  obtain ⟨n, r, den⟩ := x
  change r < den at h1
  rcases Nat.eq_zero_or_pos r with rfl | h0
  · have hz : (if neg then -1 else 1) * ((n : ℚ) + (0 : Nat) / den) = ((if neg then -n else n : Int) : ℚ) := by
      cases neg <;> simp
    rw [hz, intRound_intCast]
    simp [roundsUp]
  · cases neg with
    | false =>
      have hx : (1 : ℚ) * (n + r / den) = ((n : Int) : ℚ) + r / den := by push_cast; ring
      simp only [Bool.false_eq_true, if_false, hx, intRound_add_div rm u n h0 h1, roundsUp_pos rm u n h0]
      split <;> simp
    | true =>
      have hd : (den : ℚ) ≠ 0 := mod_cast (h0.trans h1).ne'
      have hx : (-1 : ℚ) * (n + r / den) = ((-(n + 1) : Int) : ℚ) + (den - r : Nat) / den := by
        push_cast [h1.le]
        field_simp
        ring
      have hpos : 0 < den - r := Nat.sub_pos_of_lt h1
      have hlt : den - r < den := Nat.sub_lt (h0.trans h1) h0
      simp only [if_true, hx, intRound_add_div rm u _ hpos hlt, roundsUp_neg rm u n h0 h1]
      cases takesUpper rm u (-(n + 1)) (den - r) den <;> simp

/-! ### The class of a pattern -/

/-- The exponent and fraction fields of a pattern (R71). -/
def FFmt.expField (f : FFmt) (b : Nat) : Nat := b / 2 ^ f.fbits % 2 ^ f.ebits
def FFmt.fracField (f : FFmt) (b : Nat) : Nat := b % 2 ^ f.fbits

/-- The sign of a pattern is its top bit. -/
def FFmt.negField (f : FFmt) (b : Nat) : Bool := b.testBit (f.ebits + f.fbits)

theorem FFmt.fracField_lt (f : FFmt) (b : Nat) : f.fracField b < 2 ^ f.fbits := Nat.mod_lt _ (by positivity)

theorem decode_eq_fields {f : FFmt} (hi : f.hasInf = true) (b : Nat) :
    f.decode b =
      if f.expField b = f.expMax then (if f.fracField b = 0 then .inf (f.negField b) else .nan)
      else if f.expField b = 0 then .num (f.negField b) (f.fracField b) (1 - (f.bias : Int) - f.fbits)
      else .num (f.negField b) (2 ^ f.fbits + f.fracField b) ((f.expField b : Int) - f.bias - f.fbits) := by
  have hs : (b / 2 ^ (f.ebits + f.fbits) % 2 == 1) = f.negField b := bitOf_eq_testBit b _
  simp only [FFmt.decode, hi, hs, Bool.true_and, Bool.not_true, Bool.false_and, Bool.false_eq_true, if_false, beq_iff_eq]
  rfl

theorem classOf_eq_fields (f : FFmt) (b : Nat) :
    classOf f b =
      if f.expField b = f.expMax then (if f.fracField b ≠ 0 then 8 else if f.negField b then 0 else 7)
      else if f.expField b = 0 then
        (if f.fracField b = 0 then (if f.negField b then 3 else 4) else if f.negField b then 2 else 5)
      else if f.negField b then 1 else 6 := rfl

theorem classBit_of_subnormal {t : Ty} {neg : Bool} {m : Nat} {e : Int} (hm : m ≠ 0)
    (h : (Nat.log2 m : Int) + e < 1 - (tyFmt t).bias) :
    classBit t (.num neg m e) = if neg then 2 else 5 := by
  cases neg <;> simp [classBit, hm, not_le.2 h]

theorem classBit_of_normal {t : Ty} {neg : Bool} {m : Nat} {e : Int} (hm : m ≠ 0)
    (h : 1 - ((tyFmt t).bias : Int) ≤ Nat.log2 m + e) :
    classBit t (.num neg m e) = if neg then 1 else 6 := by
  cases neg <;> simp [classBit, hm, h]

/-- The class of a value of a format with infinities is read off the fields of its pattern: a fraction below 2^f alone is a number
below the smallest normal one, and one with the hidden bit has its leading bit at 2^f. -/
theorem classBit_decode {t : Ty} (hi : (tyFmt t).hasInf = true) (b : Nat) :
    classBit t ((tyFmt t).decode b) = classOf (tyFmt t) b := by
  have hfr := (tyFmt t).fracField_lt b
  rw [decode_eq_fields hi, classOf_eq_fields]
  by_cases hx : (tyFmt t).expField b = (tyFmt t).expMax
  · rw [if_pos hx, if_pos hx]
    by_cases hz : (tyFmt t).fracField b = 0 <;> simp [classBit, hz]
  rw [if_neg hx, if_neg hx]
  by_cases h0 : (tyFmt t).expField b = 0
  · rw [if_pos h0, if_pos h0]
    by_cases hz : (tyFmt t).fracField b = 0
    · simp [classBit, hz]
    · have hlog := (Nat.log2_lt hz).2 hfr
      rw [if_neg hz, classBit_of_subnormal hz (by omega)]
  · have hlog : Nat.log2 (2 ^ (tyFmt t).fbits + (tyFmt t).fracField b) = (tyFmt t).fbits :=
      (Nat.log2_eq_iff (by positivity)).2 ⟨by omega, by omega⟩
    rw [if_neg h0, if_neg h0, classBit_of_normal (by positivity) (by omega)]

end Sys2Proof.Machine
end

section
/-! PROOFS. Minimum, maximum, comparison, class and rounding to an integral value complete with their values (R163 to R166). -/

namespace Sys2Proof.Machine

open Sys2Proof.Says

/-! ### The functions -/

theorem fval_eq_dec (t : Ty) (x : Word64) : fval t x = dec t x.toNat := rfl

theorem fminmax_eq_minMax (mx : Bool) (t : Ty) (a b : Word64) : fminmax t mx a b = minMax mx t a b := rfl

/-- No comparison but `.ne` and `.nan` holds of a NaN, so R164's table may ask so or not. -/
theorem fcondHolds_eq_fcond (cc : FCond) (x y : Ext) : fcondHolds cc x y = fcond cc x y := by
  cases cc with
  | eq | lt | le | gt | ge => cases hx : x.isNan <;> cases hy : y.isNan <;> simp [fcondHolds, fcond, Ext.eqv, Ext.lt, Ext.le, hx, hy]
  | ne | num | nan => rfl

theorem frndVal_eq_frndF (t : Ty) (rm : Rnd) (a : Word64) : frndVal t rm (fval t a) = frndF t rm a := by
  rw [fval_eq_dec, frndF]
  cases dec t a.toNat with
  | nan | inf n => rfl
  | num n m e => rw [frndVal, roundToInt_eq_intRound]; rfl

/-! ### The instructions -/

/-- An instruction of two sources whose immediates have a stated extension. -/
theorem binary_of_ext {mk : Ctl → Ty → Dst → RSrc → Src → Instr} {sx : Ty → Bool} {f' f : Ty → Word64 → Word64 → Word64}
    (hexec : ∀ c t d a b s, exec (mk c t d a b) s = bin (mk c t d a b) c t (sx t) d a b s (f' t))
    (hf : ∀ t a b, f' t a b = f t a b) : Binary mk sx f := by
  intro c t d a b s g p sec h hb
  rw [hexec, bin, fixed_some h hb]
  simp only [hf]

section

variable {c : Ctl} {t : Ty} {d : PReg} {a : RSrc} {s : State} {g : Group} {p : Path} {sec : Bool}

theorem exec_fset {cc : FCond} {b : Src} (h : Issues s (.fset c t cc d a b) c g p sec)
    (hb : ConstReady s g (guardOf g p c) (opBytes t) b) :
    exec (.fset c t cc d a b) s = .next (advance s (g.writePred d (guardOf g p c) fun l =>
      fcondHolds cc (fval t (rsrcVal g false a l)) (fval t (srcVal s g false false (opBytes t) b l))) p sec) := by
  rw [show exec (.fset c t cc d a b) s = execFset c t cc d a b s from rfl, execFset, fixed_some h hb]

theorem exec_fclass {mask : BitVec 9} (h : Issues s (.fclass c t d a mask) c g p sec) :
    exec (.fclass c t d a mask) s = .next (advance s (g.writePred d (guardOf g p c) fun l =>
      mask.getLsbD (classBit t (fval t (rsrcVal g false a l)))) p sec) := by
  rw [show exec (.fclass c t d a mask) s = execFclass c t d a mask s from rfl, execFclass, fixed_none h]

end

/-- Settles O7: each instruction has a shared form or writes a predicate, over a function that agrees with its rule's. The class comes
from the fields of the pattern, and `FRND` takes the neighbour that rounding the rational value takes. -/
theorem floatCompareResults : Obligations.FloatCompareResults := by
  refine ⟨binary_of_ext (fun _ _ _ _ _ _ => rfl) (fminmax_eq_minMax false),
    binary_of_ext (fun _ _ _ _ _ _ => rfl) (fminmax_eq_minMax true), ?fset, ?fclass,
    fun rm _ => unary_of (fun _ _ _ _ _ => rfl) fun t => frndVal_eq_frndF t rm⟩
  case fset =>
    intro c t cc d a b s g p sec h hb
    rw [exec_fset h hb]
    simp only [fcondHolds_eq_fcond, fval_eq_dec]
  case fclass =>
    intro c t d a mask s g p sec h ht
    have hi : (tyFmt t).hasInf = true := by rcases ht with rfl | rfl | rfl <;> rfl
    rw [exec_fclass h]
    simp only [fval, classBit_decode hi]

end Sys2Proof.Machine
end
